-- ==== Sys2Proof/Word.lean ====
section
/-! DEFINITION. Words, bytes, lane sets and sparse maps: the plainest data of the model. -/

namespace Sys2Proof

/-- A byte of memory. -/
abbrev Byte := BitVec 8
/-- A 32-bit register word. -/
abbrev Word := BitVec 32
/-- A 64-bit value: an address, a base register, a pair. -/
abbrev DWord := BitVec 64
/-- A set of lanes, bit i for lane i. -/
abbrev LaneSet := BitVec 64

/-- A sparse map from indices to data: entries in ascending index, one for an index. -/
abbrev SMap (α : Type) := List (Nat × α)

namespace SMap

/-- The entry of index `k`, if there is one. -/
def find? {α : Type} : SMap α → Nat → Option α
  | [], _ => none
  | (j, a) :: rest, k => if j = k then some a else find? rest k

/-- The entry of index `k`, or `d` where there is none. -/
def get {α : Type} (m : SMap α) (k : Nat) (d : α) : α := (find? m k).getD d

/-- The map with index `k` holding `a`. -/
def set {α : Type} : SMap α → Nat → α → SMap α
  | [], k, a => [(k, a)]
  | (j, b) :: rest, k, a =>
    if k < j then (k, a) :: (j, b) :: rest
    else if j = k then (k, a) :: rest
    else (j, b) :: set rest k a

/-- The map with no entry of index `k`. -/
def erase {α : Type} : SMap α → Nat → SMap α
  | [], _ => []
  | (j, b) :: rest, k => if j = k then erase rest k else (j, b) :: erase rest k

/-- The indices that have an entry. -/
def keys {α : Type} (m : SMap α) : List Nat := m.map (·.1)

/-- The data of every entry. -/
def vals {α : Type} (m : SMap α) : List α := m.map (·.2)

end SMap

/-- The numbers 0 to 63, in lane order. -/
def lanes64 : List Nat := List.range 64

/-- The lanes of a lane set, ascending. -/
def LaneSet.toList (m : LaneSet) : List Nat := lanes64.filter fun i => m.getLsbD i

/-- The lane set holding the lanes of a list. -/
def LaneSet.ofList (l : List Nat) : LaneSet := l.foldl (fun m i => m ||| BitVec.twoPow 64 i) 0

end Sys2Proof
end

