-- ==== Sys2Proof/Config.lean ====
section
/-! DEFINITION. What one implementation fixes, and the free values: constants that nothing can evaluate. -/

namespace Sys2Proof.Config

/-- The lanes in which a reader at cycle `now` sees the new value of the unfinished variable-latency
result `id` (R40). FREE VALUE, log 9. -/
opaque lateLanes (id now : Nat) : LaneSet

/-- The lanes that keep the value of the older write `old` after the younger write `new` to the same register,
when the older one had variable latency (R40). FREE VALUE, log 9. -/
opaque racedLanes (old new : Nat) : LaneSet

/-- Which of the values within the bound of R219 special function `fn` returns for the input bits `x`.
FREE VALUE, log 10. -/
opaque sfuPick (fn : Nat) (x : Word) : Nat

/-- Whether an ML-DSA-65 signature over a byte string verifies (R478, R481). FREE VALUE, log 17. -/
opaque verifies (bytes sig : List Byte) : Bool

/-- The ML-DSA-65 signature that the device identity key makes over a byte string, of 3309 bytes (R483). FREE VALUE, log
17. -/
opaque signature (bytes : List Byte) : BitVec (8 * 3309)

/-- The security version number in the header of a firmware image (R481), whose layout the spec does not give. FREE VALUE,
log 33. -/
opaque firmwareSvn (body : List Byte) : Nat

/-- Sub-code, less one, and fault address of the ENG that an uncorrectable error in an engine operation gives (R484), by
command. FREE VALUES, log 68. -/
opaque engSub (cmd : Nat) : Fin 8
opaque engAddr (cmd : Nat) : DWord

/-- A byte that the spec leaves undefined (the bytes at NEWT of R380), by address and count. FREE VALUE, log 12. -/
opaque freeByte (addr n : Nat) : Byte

/-- The line that a full instruction cache gives up for a new one, by the new one. FREE VALUE, log 63. -/
opaque codeVictim (line : Nat) : Nat

/-- The line that die `die`'s cache, nearly full with n lines, gives up for new ones, at a moment. FREE VALUE, log 63. -/
opaque cacheVictim (die gu n : Nat) : Nat

/-- The entry that a full translation buffer gives up for a new one, by the address of the new one. FREE VALUE, log 63. -/
opaque pageVictim (va : Nat) : Nat

/-- How far an engine command in flight had come when its unit was reset (R343, R380, R387), by command.
FREE VALUE, log 12. -/
opaque tornAt (cmd : Nat) : Nat

/-- Bytes of near memory over one die: two layers of 48 GiB (R10). -/
def nearBytes : Nat := 96 * 2 ^ 30

/-- Bytes of far memory behind one base die (R10). -/
def farBytes : Nat := 256 * 2 ^ 30

/-- Bytes of memory of the part: near and far (R10). -/
def memBytes : Nat := 4 * nearBytes + 4 * farBytes

/-- Physical addresses at and above this belong to host memory. DESIGN CHOICE, log 14: the spec names no
physical address. -/
def hostBase : Nat := 2 ^ 60

/-- Physical addresses at and above this belong to peers: peer k starts at peerBase + k * 2^48.
DESIGN CHOICE, log 14. -/
def peerBase : Nat := 2 ^ 61

/-- The peer that a physical address belongs to (log 14). -/
def peerOf (pa : Nat) : Nat := (pa - peerBase) / 2 ^ 48

/-- Is there memory behind each of n bytes from a physical address: the part's own, or that of the host or of a peer (R10;
log 14)? -/
def backed (pa n : Nat) : Bool := decide (pa + n ≤ memBytes) || decide (hostBase ≤ pa)

/-- The home die of a line of device memory (R254): near memory of dies 0-3, then far memory of base dies 0-3.
Host and peer memory has none. DESIGN CHOICE of the physical layout, log 14. -/
def homeDie (pa : Nat) : Option Nat :=
  if pa < 4 * nearBytes then some (pa / nearBytes)
  else if pa < memBytes then some ((pa - 4 * nearBytes) / farBytes)
  else none

/-- The management window's base W (R448). -/
def window : Nat := 0xFFFFFF8000000000

/-- Units of %gtime in one nanosecond: the least common multiple of the clock steps 21-25 of R458, so that a
cycle is a whole number of units (log 5). -/
def gUnit : Nat := 1062600

end Sys2Proof.Config
end

