-- ==== Sys2Proof/Syntax.lean ====
section
/-! DEFINITION. The instructions and events of spec/opcode_table.json, one constructor for each row.
Encoded rows carry the header of R43 (or the SW bit of R41) and their fields in ascending bit order.
Event rows have no encoding: their operands name the unit the event happens to, and what the outside world chose. -/

namespace Sys2Proof

/-- The issue fields of a 32-bit instruction (R36, R37, R43). -/
structure Hdr where
  /-- Bits 3:2, the issue gap. -/
  gap : BitVec 2
  /-- Bit 1, the switch marker. -/
  sw : Bool
  deriving DecidableEq, Repr

/-- Which register block a REGISTER_WRITE goes to. -/
inductive RegSpace where
  /-- The management window, offset from W (R448). -/
  | window
  /-- BAR 0 of virtual function `p`, the partition block (R470). -/
  | vf (p : Nat)
  /-- BAR 0 of the physical function (R474, R475). -/
  | pf
  deriving DecidableEq, Repr

/-- A firmware image in the staging area (R481). -/
structure FwImage where
  /-- The signed bytes, header and all. -/
  body : List Byte
  /-- The ML-DSA-65 signature. -/
  sig : List Byte
  /-- Physical and virtual address at which the boot ROM places it, and the PC at firmware entry (log 33). -/
  pa : Nat
  va : Nat
  entry : DWord
  deriving DecidableEq, Repr

/-- A code object handed to the bind service (R478), and where the service places its image. -/
structure CodeObject where
  /-- The object from its header to its signature. -/
  bytes : List Byte
  /-- The partition that the pages are bound for. -/
  part : Nat
  /-- Virtual address of the image, a multiple of its page size. -/
  va : Nat
  /-- Physical address of the image. -/
  pa : Nat
  /-- Page size in bytes: 64 KiB, 2 MiB or 512 MiB. -/
  pageSize : Nat
  deriving DecidableEq, Repr

/-- Where an uncorrectable error is found (R484). -/
inductive ErrorPlace where
  /-- A 64-byte line of physical memory (R236). -/
  | line (n : Nat)
  /-- A 32-bit word of a team's scratchpad (R237). -/
  | scratchWord (team word : Nat)
  /-- Warp state that holds no poison (R127). -/
  | warpState (wid g : Nat)
  /-- An engine operation, by its command (R134). -/
  | engineOp (cmd : Nat)
  deriving DecidableEq, Repr

/-- An access of the host or of a peer to physical memory (R274). -/
inductive MemAccess where
  /-- A read of `size` bytes. -/
  | read (pa size : Nat)
  /-- A write of bytes. -/
  | write (pa : Nat) (bytes : List Byte)
  /-- An atomic addition to a 4-byte or 8-byte unit. -/
  | addAtomic (pa size : Nat) (v : DWord)
  /-- An atomic exchange of a 4-byte or 8-byte unit. -/
  | swapAtomic (pa size : Nat) (v : DWord)
  /-- An atomic compare and swap of a 4-byte or 8-byte unit. -/
  | casAtomic (pa size : Nat) (cmp v : DWord)
  deriving DecidableEq, Repr

/-- The instructions and events of the opcode table. -/
inductive Instr where
  /-- NOP (R123). Changes no state apart from the PC; its SW bit and GAP still act. -/
  | nop (h : Hdr)
  /-- EXIT (R122). The active lanes exit; slices, gangs and records are released, and the warp ends when no lane is left. -/
  | exit (h : Hdr)
  /-- JOIN (R109). Closes the gang's innermost join record, releasing deferred entries and fusing the record when all members have arrived. -/
  | join (h : Hdr)
  /-- LOOPX (R115). Pops the top record of the gang's loop stack without changing the PC. -/
  | loopx (h : Hdr)
  /-- ISYNC (R117). Discards the warp's fetch-ahead and loop-buffer copies. -/
  | isync (h : Hdr)
  /-- RET (R121). Sets the gang's PC from a b register, or raises ALIGN when bit 0 is set. -/
  | ret (h : Hdr) (a : BitVec 6)
  /-- REGANG (R110). Waits until the named slices gather at this REGANG, then fuses them into one gang. -/
  | regang (h : Hdr) (a : BitVec 6)
  /-- BRA (R106). Moves the whole gang to PC + 2×OFF22. -/
  | bra (h : Hdr) (o : BitVec 22)
  /-- BRC (R107). Per-lane conditional branch that diverges when the active lanes disagree. -/
  | brc (h : Hdr) (p : BitVec 3) (n : BitVec 1) (o : BitVec 16)
  /-- BRC_ANY (R107). Moves the whole gang when the condition holds in any active lane. -/
  | brcAny (h : Hdr) (p : BitVec 3) (n : BitVec 1) (o : BitVec 16)
  /-- BRC_ALL (R107). Moves the whole gang when the condition holds in every active lane. -/
  | brcAll (h : Hdr) (p : BitVec 3) (n : BitVec 1) (o : BitVec 16)
  /-- CALL (R118). Sets b15 to PC + 4 and branches the whole gang. -/
  | call (h : Hdr) (o : BitVec 22)
  /-- SPLIT (R108). Opens a join record for the issuing gang. -/
  | split (h : Hdr) (o : BitVec 16)
  /-- LOOP (R112). Pushes a hardware-loop record whose count is taken from a register, or skips the body when the count is 0. -/
  | loopReg (h : Hdr) (c : BitVec 6) (e : BitVec 15)
  /-- LOOP_IMM (R112). Pushes a hardware-loop record whose count is an immediate, or skips the body when the count is 0. -/
  | loopImm (h : Hdr) (c : BitVec 6) (e : BitVec 15)
  /-- BRX (R120). Branches through a jump table indexed per lane, diverging when the targets differ. -/
  | brx (h : Hdr) (a : BitVec 6) (o : BitVec 16)
  /-- CALLX (R120). Calls through a jump table with a uniform index and sets b15. -/
  | callx (h : Hdr) (a : BitVec 6) (o : BitVec 16)
  /-- TRAP (R136). Raises the warp trap TRAP with resume PC PC + 4. -/
  | trapImm (h : Hdr) (i : BitVec 10)
  /-- SYS (R136). Raises the system fault SYSREQ and parks the warp for the system handler. -/
  | sysImm (h : Hdr) (i : BitVec 10)
  /-- RTRAP (R139). Returns from handler mode: restores FMT and LOOPS, jumps to the resume PC and releases the other gangs. -/
  | rtrap (h : Hdr)
  /-- BRK (R138). Acts as NOP, sets CDBG.SNAP, or raises the trap BRK, according to TMASK and CDBG.BRKSTOP. -/
  | brk (h : Hdr)
  /-- TINFO (R143). Writes a selected field of the trap record as a U value. -/
  | tinfo (h : Hdr) (d : BitVec 6) (b : BitVec 6)
  /-- TSET (R144). Sets the resume PC from a register pair. -/
  | tset (h : Hdr) (a : BitVec 6)
  /-- TVEC (R140). Sets the trap vector TVEC from a register pair. -/
  | tvec (h : Hdr) (a : BitVec 6)
  /-- TVEC_DL (R140). Sets the timer deadline from a register pair. -/
  | tvecDl (h : Hdr) (a : BitVec 6)
  /-- GETX (R146). Reads a register, or a part of one, of the interrupted program. -/
  | getx (h : Hdr) (d : BitVec 6) (a : BitVec 6) (b : BitVec 6)
  /-- SETX (R147). Writes a register, or one lane of one, of the interrupted program. -/
  | setx (h : Hdr) (d : BitVec 6) (a : BitVec 6) (b : BitVec 6)
  /-- TMASK (R142). Swaps the warp's TMASK with a register value and returns the old value. -/
  | tmask (h : Hdr) (d : BitVec 6) (a : BitVec 6)
  /-- SIGNAL (R149). ORs a value into the wake register of a management core or a host queue, after the warp's earlier stores. -/
  | signal (h : Hdr) (a : BitVec 6) (b : BitVec 6)
  /-- WFE (R467). On a management core, waits until the wake register is nonzero, then takes and clears it with an acquire at PKG. -/
  | wfe (h : Hdr) (d : BitVec 6)
  /-- CKPT (R431). Parks the gang with a live index when a request is pending on the team; otherwise acts as NOP. -/
  | ckpt (h : Hdr) (i : BitVec 16)
  /-- MOV (R77). Copies a register, with its shape and poison, under the active mask. -/
  | mov (h : Hdr) (d : BitVec 6) (a : BitVec 6)
  /-- SHQ_K (R86). Writes the shape kind of a register as U. -/
  | shqK (h : Hdr) (d : BitVec 6) (a : BitVec 6)
  /-- SHQ_B (R86). Writes the base of a register as U. -/
  | shqB (h : Hdr) (d : BitVec 6) (a : BitVec 6)
  /-- SHQ_S (R86). Writes the stride of a register as U. -/
  | shqS (h : Hdr) (d : BitVec 6) (a : BitVec 6)
  /-- SHAS (R88). Raises SHAPE when a register is wider than the asserted shape. -/
  | shas (h : Hdr) (a : BitVec 6) (b : BitVec 6)
  /-- SHF_U (R90). Forces a register to U built from lane 0. -/
  | shfU (h : Hdr) (d : BitVec 6) (a : BitVec 6)
  /-- SHF_A (R90). Forces a register to affine built from lanes 0 and 1. -/
  | shfA (h : Hdr) (d : BitVec 6) (a : BitVec 6)
  /-- SHF_V (R90). Forces a register to V, taking a row. -/
  | shfV (h : Hdr) (d : BitVec 6) (a : BitVec 6)
  /-- SPR (R83). Writes a special value sampled at issue. -/
  | spr (h : Hdr) (d : BitVec 6) (b : BitVec 6)
  /-- PART (R94). Sets the warp's PART register from a uniform register. -/
  | partW (h : Hdr) (a : BitVec 6)
  /-- ROLE (R94). Sets the warp's ROLE register from a uniform register. -/
  | roleW (h : Hdr) (a : BitVec 6)
  /-- SFMT (R96). Writes the issuing gang's copy of FMT. -/
  | sfmt (h : Hdr) (a : BitVec 6)
  /-- GFMT (R96). Reads the issuing gang's copy of FMT. -/
  | gfmt (h : Hdr) (d : BitVec 6)
  /-- MOVB_TO (R81). Loads a b register from a uniform register pair. -/
  | movbTo (h : Hdr) (d : BitVec 6) (a : BitVec 6)
  /-- MOVB_FROM (R81). Splits a b register into a uniform register pair. -/
  | movbFrom (h : Hdr) (d : BitVec 6) (a : BitVec 6)
  /-- WIDEN (R92). Makes every named register V in one all-or-none row request. -/
  | widen (h : Hdr) (d : BitVec 6) (i : BitVec 16)
  /-- MOVL (R79). Writes a sign-extended 16-bit immediate as U. -/
  | movl (h : Hdr) (d : BitVec 6) (i : BitVec 16)
  /-- MOVH (R79). Replaces bits 31:16 of a register with an immediate. -/
  | movh (h : Hdr) (d : BitVec 6) (i : BitVec 16)
  /-- ADD (R156). 32-bit wrapping add. -/
  | addW (h : Hdr) (d : BitVec 6) (a : BitVec 6) (b : BitVec 6)
  /-- SUB (R156). 32-bit wrapping subtract. -/
  | subW (h : Hdr) (d : BitVec 6) (a : BitVec 6) (b : BitVec 6)
  /-- MUL (R156). Low 32 bits of the product. -/
  | mulW (h : Hdr) (d : BitVec 6) (a : BitVec 6) (b : BitVec 6)
  /-- MULH_S (R156). High word of the signed product. -/
  | mulhS (h : Hdr) (d : BitVec 6) (a : BitVec 6) (b : BitVec 6)
  /-- MULH_N (R156). High word of the unsigned product. -/
  | mulhN (h : Hdr) (d : BitVec 6) (a : BitVec 6) (b : BitVec 6)
  /-- MAD (R156). Multiply, then add D, wrapping. -/
  | mad (h : Hdr) (d : BitVec 6) (a : BitVec 6) (b : BitVec 6)
  /-- ADDS_S (R156). Signed saturating add. -/
  | addsS (h : Hdr) (d : BitVec 6) (a : BitVec 6) (b : BitVec 6)
  /-- ADDS_N (R156). Unsigned saturating add. -/
  | addsN (h : Hdr) (d : BitVec 6) (a : BitVec 6) (b : BitVec 6)
  /-- SUBS_S (R156). Signed saturating subtract. -/
  | subsS (h : Hdr) (d : BitVec 6) (a : BitVec 6) (b : BitVec 6)
  /-- SUBS_N (R156). Unsigned saturating subtract. -/
  | subsN (h : Hdr) (d : BitVec 6) (a : BitVec 6) (b : BitVec 6)
  /-- ABSD (R156). Absolute signed difference, as an unsigned word. -/
  | absd (h : Hdr) (d : BitVec 6) (a : BitVec 6) (b : BitVec 6)
  /-- DIV_S (R157). Signed quotient truncated toward zero. -/
  | divS (h : Hdr) (d : BitVec 6) (a : BitVec 6) (b : BitVec 6)
  /-- DIV_N (R157). Unsigned quotient. -/
  | divN (h : Hdr) (d : BitVec 6) (a : BitVec 6) (b : BitVec 6)
  /-- REM_S (R157). Signed remainder. -/
  | remS (h : Hdr) (d : BitVec 6) (a : BitVec 6) (b : BitVec 6)
  /-- REM_N (R157). Unsigned remainder. -/
  | remN (h : Hdr) (d : BitVec 6) (a : BitVec 6) (b : BitVec 6)
  /-- DP4 (R156). Dot product of four signed bytes. -/
  | dp4 (h : Hdr) (d : BitVec 6) (a : BitVec 6) (b : BitVec 6)
  /-- AND (R158). Bitwise AND. -/
  | andW (h : Hdr) (d : BitVec 6) (a : BitVec 6) (b : BitVec 6)
  /-- OR (R158). Bitwise OR. -/
  | orW (h : Hdr) (d : BitVec 6) (a : BitVec 6) (b : BitVec 6)
  /-- XOR (R158). Bitwise XOR. -/
  | xorW (h : Hdr) (d : BitVec 6) (a : BitVec 6) (b : BitVec 6)
  /-- ANDN (R158). AND with the complement of B. -/
  | andn (h : Hdr) (d : BitVec 6) (a : BitVec 6) (b : BitVec 6)
  /-- SHL (R158). Shift left. -/
  | shlW (h : Hdr) (d : BitVec 6) (a : BitVec 6) (b : BitVec 6)
  /-- SHR (R158). Logical shift right. -/
  | shrW (h : Hdr) (d : BitVec 6) (a : BitVec 6) (b : BitVec 6)
  /-- SAR (R158). Arithmetic shift right. -/
  | sarW (h : Hdr) (d : BitVec 6) (a : BitVec 6) (b : BitVec 6)
  /-- ROTL (R158). Rotate left. -/
  | rotl (h : Hdr) (d : BitVec 6) (a : BitVec 6) (b : BitVec 6)
  /-- MIN_S (R158). Signed minimum. -/
  | minS (h : Hdr) (d : BitVec 6) (a : BitVec 6) (b : BitVec 6)
  /-- MAX_S (R158). Signed maximum. -/
  | maxS (h : Hdr) (d : BitVec 6) (a : BitVec 6) (b : BitVec 6)
  /-- MIN_N (R158). Unsigned minimum. -/
  | minN (h : Hdr) (d : BitVec 6) (a : BitVec 6) (b : BitVec 6)
  /-- MAX_N (R158). Unsigned maximum. -/
  | maxN (h : Hdr) (d : BitVec 6) (a : BitVec 6) (b : BitVec 6)
  /-- CLZ (R158). Counts leading zero bits. -/
  | clz (h : Hdr) (d : BitVec 6) (a : BitVec 6)
  /-- POPC (R158). Counts set bits. -/
  | popc (h : Hdr) (d : BitVec 6) (a : BitVec 6)
  /-- BREV (R158). Reverses the bit order. -/
  | brev (h : Hdr) (d : BitVec 6) (a : BitVec 6)
  /-- ABS_S (R158). Signed absolute value. -/
  | absS (h : Hdr) (d : BitVec 6) (a : BitVec 6)
  /-- BFE_N (R160). Extracts a bit field, unsigned. -/
  | bfeN (h : Hdr) (d : BitVec 6) (a : BitVec 6) (b : BitVec 6)
  /-- BFE_S (R160). Extracts a bit field, sign-extended. -/
  | bfeS (h : Hdr) (d : BitVec 6) (a : BitVec 6) (b : BitVec 6)
  /-- BFI (R160). Inserts a bit field. -/
  | bfi (h : Hdr) (d : BitVec 6) (a : BitVec 6) (b : BitVec 6)
  /-- PRMT (R160). Permutes bytes under a control word. -/
  | prmt (h : Hdr) (d : BitVec 6) (a : BitVec 6) (b : BitVec 6)
  /-- ADD_64 (R161). 64-bit add of register pairs. -/
  | add64 (h : Hdr) (d : BitVec 6) (a : BitVec 6) (b : BitVec 6)
  /-- SUB_64 (R161). 64-bit subtract of register pairs. -/
  | sub64 (h : Hdr) (d : BitVec 6) (a : BitVec 6) (b : BitVec 6)
  /-- MULW_S (R161). Full 64-bit signed product. -/
  | mulwS (h : Hdr) (d : BitVec 6) (a : BitVec 6) (b : BitVec 6)
  /-- MULW_N (R161). Full 64-bit unsigned product. -/
  | mulwN (h : Hdr) (d : BitVec 6) (a : BitVec 6) (b : BitVec 6)
  /-- SHL_64 (R161). 64-bit shift left. -/
  | shl64 (h : Hdr) (d : BitVec 6) (a : BitVec 6) (b : BitVec 6)
  /-- SHR_64 (R161). 64-bit logical shift right. -/
  | shr64 (h : Hdr) (d : BitVec 6) (a : BitVec 6) (b : BitVec 6)
  /-- SAR_64 (R161). 64-bit arithmetic shift right. -/
  | sar64 (h : Hdr) (d : BitVec 6) (a : BitVec 6) (b : BitVec 6)
  /-- MADW_N (R161). Unsigned wide multiply-add into a pair. -/
  | madwN (h : Hdr) (d : BitVec 6) (a : BitVec 6) (b : BitVec 6)
  /-- CMP (R164). Integer compare into a predicate, with set, AND or OR combine. -/
  | cmp (h : Hdr) (p : BitVec 3) (m : BitVec 3) (a : BitVec 6) (b : BitVec 6) (f : BitVec 4)
  /-- SEL (R166). Selects A or B per lane by a predicate. -/
  | sel (h : Hdr) (d : BitVec 6) (a : BitVec 6) (b : BitVec 6) (p : BitVec 3) (n : BitVec 1)
  /-- PAND (R167). Predicate AND. -/
  | pand (h : Hdr) (d : BitVec 6) (a : BitVec 6) (b : BitVec 6)
  /-- POR (R167). Predicate OR. -/
  | por (h : Hdr) (d : BitVec 6) (a : BitVec 6) (b : BitVec 6)
  /-- PXOR (R167). Predicate XOR. -/
  | pxor (h : Hdr) (d : BitVec 6) (a : BitVec 6) (b : BitVec 6)
  /-- PANDN (R167). Predicate AND NOT. -/
  | pandn (h : Hdr) (d : BitVec 6) (a : BitVec 6) (b : BitVec 6)
  /-- PTOW (R167). Converts a predicate to a word of 0 or 1. -/
  | ptow (h : Hdr) (d : BitVec 6) (a : BitVec 6)
  /-- WTOP (R167). Sets a predicate where the word is nonzero. -/
  | wtop (h : Hdr) (d : BitVec 6) (a : BitVec 6)
  /-- CMPI (R165). Compares a register with a sign-extended immediate into a predicate. -/
  | cmpi (h : Hdr) (p : BitVec 3) (c : BitVec 3) (a : BitVec 6) (i : BitVec 10)
  /-- ADDI (R163). Add immediate. -/
  | addi (h : Hdr) (d : BitVec 6) (a : BitVec 6) (i : BitVec 10)
  /-- MULI (R163). Multiply by immediate. -/
  | muli (h : Hdr) (d : BitVec 6) (a : BitVec 6) (i : BitVec 10)
  /-- ANDI (R163). AND with immediate. -/
  | andi (h : Hdr) (d : BitVec 6) (a : BitVec 6) (i : BitVec 10)
  /-- ORI (R163). OR with immediate. -/
  | ori (h : Hdr) (d : BitVec 6) (a : BitVec 6) (i : BitVec 10)
  /-- XORI (R163). XOR with immediate. -/
  | xori (h : Hdr) (d : BitVec 6) (a : BitVec 6) (i : BitVec 10)
  /-- SHLI (R163). Shift left by immediate. -/
  | shli (h : Hdr) (d : BitVec 6) (a : BitVec 6) (n : BitVec 5)
  /-- SHRI (R163). Logical shift right by immediate. -/
  | shri (h : Hdr) (d : BitVec 6) (a : BitVec 6) (n : BitVec 5)
  /-- SARI (R163). Arithmetic shift right by immediate. -/
  | sari (h : Hdr) (d : BitVec 6) (a : BitVec 6) (n : BitVec 5)
  /-- SHFL (R169). Cross-lane shuffle within tiles, with a register index. -/
  | shfl (h : Hdr) (d : BitVec 6) (a : BitVec 6) (b : BitVec 6) (m : BitVec 2)
  /-- SHFL_IMM (R169). Cross-lane shuffle within tiles, with an imm6 index. -/
  | shflImm (h : Hdr) (d : BitVec 6) (a : BitVec 6) (i : BitVec 6) (m : BitVec 2)
  /-- VOTE_ANY (R171). Gives 1 when the predicate holds in any active lane of the tile. -/
  | voteAny (h : Hdr) (d : BitVec 6) (p : BitVec 3)
  /-- VOTE_ALL (R171). Gives 1 when the predicate holds in every active lane of the tile. -/
  | voteAll (h : Hdr) (d : BitVec 6) (p : BitVec 3)
  /-- VOTE_BAL (R171). Gives the ballot mask as a pair. -/
  | voteBal (h : Hdr) (d : BitVec 6) (p : BitVec 3)
  /-- VOTE_EQ (R171). Gives 1 when A is equal in every active lane of the tile. -/
  | voteEq (h : Hdr) (d : BitVec 6) (a : BitVec 6)
  /-- VOTE_MATCH (R171). Gives the mask of lanes whose A matches. -/
  | voteMatch (h : Hdr) (d : BitVec 6) (a : BitVec 6)
  /-- RED (R172). Tree reduction over each tile's active lanes. -/
  | red (h : Hdr) (d : BitVec 6) (a : BitVec 6) (f : BitVec 4)
  /-- SCAN (R173). Serial prefix scan over each tile's active lanes. -/
  | scan (h : Hdr) (d : BitVec 6) (a : BitVec 6) (f : BitVec 4)
  /-- FADD (R207). F32 add. -/
  | fadd (h : Hdr) (d : BitVec 6) (a : BitVec 6) (b : BitVec 6)
  /-- FSUB (R207). F32 subtract. -/
  | fsub (h : Hdr) (d : BitVec 6) (a : BitVec 6) (b : BitVec 6)
  /-- FMUL (R207). F32 multiply. -/
  | fmul (h : Hdr) (d : BitVec 6) (a : BitVec 6) (b : BitVec 6)
  /-- FFMA (R207). F32 fused multiply-add. -/
  | ffma (h : Hdr) (d : BitVec 6) (a : BitVec 6) (b : BitVec 6)
  /-- FMIN (R208). F32 minimum. -/
  | fmin (h : Hdr) (d : BitVec 6) (a : BitVec 6) (b : BitVec 6)
  /-- FMAX (R208). F32 maximum. -/
  | fmax (h : Hdr) (d : BitVec 6) (a : BitVec 6) (b : BitVec 6)
  /-- FABS (R209). Clears the sign bit of an F32 value. -/
  | fabs (h : Hdr) (d : BitVec 6) (a : BitVec 6)
  /-- FNEG (R209). Inverts the sign bit of an F32 value. -/
  | fneg (h : Hdr) (d : BitVec 6) (a : BitVec 6)
  /-- FDIV (R207). F32 divide. -/
  | fdiv (h : Hdr) (d : BitVec 6) (a : BitVec 6) (b : BitVec 6)
  /-- FSQRT (R207). F32 square root. -/
  | fsqrt (h : Hdr) (d : BitVec 6) (a : BitVec 6)
  /-- FSCALE (R210). Multiplies an F32 value by a power of two. -/
  | fscale (h : Hdr) (d : BitVec 6) (a : BitVec 6) (b : BitVec 6)
  /-- FRND (R211). Rounds an F32 value to an integral value. -/
  | frnd (h : Hdr) (d : BitVec 6) (a : BitVec 6) (b : BitVec 6)
  /-- FCLASS (R209). Classifies an F32 value as a one-hot word. -/
  | fclass (h : Hdr) (d : BitVec 6) (a : BitVec 6)
  /-- DADD (R207). F64 add. -/
  | dadd (h : Hdr) (d : BitVec 6) (a : BitVec 6) (b : BitVec 6)
  /-- DSUB (R207). F64 subtract. -/
  | dsub (h : Hdr) (d : BitVec 6) (a : BitVec 6) (b : BitVec 6)
  /-- DMUL (R207). F64 multiply. -/
  | dmul (h : Hdr) (d : BitVec 6) (a : BitVec 6) (b : BitVec 6)
  /-- DFMA (R207). F64 fused multiply-add. -/
  | dfma (h : Hdr) (d : BitVec 6) (a : BitVec 6) (b : BitVec 6)
  /-- DMIN (R208). F64 minimum. -/
  | dmin (h : Hdr) (d : BitVec 6) (a : BitVec 6) (b : BitVec 6)
  /-- DMAX (R208). F64 maximum. -/
  | dmax (h : Hdr) (d : BitVec 6) (a : BitVec 6) (b : BitVec 6)
  /-- DABS (R209). Clears the sign bit of an F64 value. -/
  | dabs (h : Hdr) (d : BitVec 6) (a : BitVec 6)
  /-- DNEG (R209). Inverts the sign bit of an F64 value. -/
  | dneg (h : Hdr) (d : BitVec 6) (a : BitVec 6)
  /-- DDIV (R207). F64 divide. -/
  | ddiv (h : Hdr) (d : BitVec 6) (a : BitVec 6) (b : BitVec 6)
  /-- DSQRT (R207). F64 square root. -/
  | dsqrt (h : Hdr) (d : BitVec 6) (a : BitVec 6)
  /-- DSCALE (R210). Multiplies an F64 value by a power of two. -/
  | dscale (h : Hdr) (d : BitVec 6) (a : BitVec 6) (b : BitVec 6)
  /-- DRND (R211). Rounds an F64 value to an integral value. -/
  | drnd (h : Hdr) (d : BitVec 6) (a : BitVec 6) (b : BitVec 6)
  /-- HADD2 (R213). Paired 16-bit add, FP16 or BF16. -/
  | hadd2 (h : Hdr) (d : BitVec 6) (a : BitVec 6) (b : BitVec 6) (t : BitVec 1)
  /-- HSUB2 (R213). Paired 16-bit subtract. -/
  | hsub2 (h : Hdr) (d : BitVec 6) (a : BitVec 6) (b : BitVec 6) (t : BitVec 1)
  /-- HMUL2 (R213). Paired 16-bit multiply. -/
  | hmul2 (h : Hdr) (d : BitVec 6) (a : BitVec 6) (b : BitVec 6) (t : BitVec 1)
  /-- HFMA2 (R213). Paired 16-bit fused multiply-add. -/
  | hfma2 (h : Hdr) (d : BitVec 6) (a : BitVec 6) (b : BitVec 6) (t : BitVec 1)
  /-- HMIN2 (R213). Paired 16-bit minimum. -/
  | hmin2 (h : Hdr) (d : BitVec 6) (a : BitVec 6) (b : BitVec 6) (t : BitVec 1)
  /-- HMAX2 (R213). Paired 16-bit maximum. -/
  | hmax2 (h : Hdr) (d : BitVec 6) (a : BitVec 6) (b : BitVec 6) (t : BitVec 1)
  /-- FCMP (R215). Floating-point compare into a predicate. -/
  | fcmp (h : Hdr) (p : BitVec 3) (m : BitVec 3) (a : BitVec 6) (b : BitVec 6) (c : BitVec 3) (w : BitVec 1)
  /-- FCVT (R217). Converts between float and integer formats by part. -/
  | fcvt (h : Hdr) (d : BitVec 6) (a : BitVec 6) (t : BitVec 3) (x : BitVec 3) (r : BitVec 2) (p : BitVec 2)
  /-- FRCP (R219). Special-function reciprocal. -/
  | frcp (h : Hdr) (d : BitVec 6) (a : BitVec 6)
  /-- FRSQ (R219). Special-function reciprocal square root. -/
  | frsq (h : Hdr) (d : BitVec 6) (a : BitVec 6)
  /-- FEXP2 (R219). Special-function base-2 exponential. -/
  | fexp2 (h : Hdr) (d : BitVec 6) (a : BitVec 6)
  /-- FLOG2 (R219). Special-function base-2 logarithm. -/
  | flog2 (h : Hdr) (d : BitVec 6) (a : BitVec 6)
  /-- FSIN (R219). Special-function sine. -/
  | fsin (h : Hdr) (d : BitVec 6) (a : BitVec 6)
  /-- FCOS (R219). Special-function cosine. -/
  | fcos (h : Hdr) (d : BitVec 6) (a : BitVec 6)
  /-- FTANH (R219). Special-function hyperbolic tangent. -/
  | ftanh (h : Hdr) (d : BitVec 6) (a : BitVec 6)
  /-- LD (R227). Loads device memory through a base register and a shaped offset. -/
  | ld (h : Hdr) (d : BitVec 6) (o : BitVec 6) (b : BitVec 4) (z : BitVec 3) (x : BitVec 1) (r : BitVec 2)
  /-- ST (R227). Stores to device memory through the warp's store queue. -/
  | st (h : Hdr) (d : BitVec 6) (o : BitVec 6) (b : BitVec 4) (z : BitVec 3) (r : BitVec 2)
  /-- LDSP (R234). Loads the team's scratchpad, or a crew member's remotely. -/
  | ldsp (h : Hdr) (d : BitVec 6) (o : BitVec 6) (c : BitVec 2) (m : BitVec 1) (z : BitVec 3) (x : BitVec 1)
  /-- STSP (R234). Stores to the team's scratchpad, or a crew member's remotely. -/
  | stsp (h : Hdr) (d : BitVec 6) (o : BitVec 6) (c : BitVec 2) (m : BitVec 1) (z : BitVec 3)
  /-- ATOM (R267). Integer atomic on device memory at the place given by its scope. -/
  | atom (h : Hdr) (d : BitVec 5) (o : BitVec 5) (a : BitVec 5) (p : BitVec 3) (c : BitVec 2) (r : BitVec 2)
  /-- ATOMX (R267). Exchange, CAS, float or 64-bit atomic on device memory. -/
  | atomx (h : Hdr) (d : BitVec 5) (o : BitVec 5) (a : BitVec 5) (p : BitVec 3) (c : BitVec 2) (r : BitVec 2)
  /-- FENCE (R264). Acquire, release or both at a scope, with no access of its own. -/
  | fence (h : Hdr) (e : BitVec 3) (k : BitVec 2)
  /-- PREF (R248). Hints the die cache to fetch lines. -/
  | pref (h : Hdr) (a : BitVec 6) (b : BitVec 6)
  /-- TAGLK (R244). Looks up keys in the tag table, giving hit slots or victims. -/
  | taglk (h : Hdr) (d : BitVec 6) (a : BitVec 6)
  /-- TAGSET (R245). Sets tag-table entries to keys. -/
  | tagset (h : Hdr) (a : BitVec 6) (b : BitVec 6)
  /-- TAGINV (R246). Invalidates tag-table entries by key or slot, or all of them. -/
  | taginv (h : Hdr) (a : BitVec 6) (b : BitVec 6)
  /-- TAGCFG (R243). Sets the tag-table geometry and base and invalidates every entry. -/
  | tagcfg (h : Hdr) (a : BitVec 6) (b : BitVec 6)
  /-- PTEST (R239). Tests the poison of a memory line or scratchpad word. -/
  | ptest (h : Hdr) (d : BitVec 6) (a : BitVec 6) (b : BitVec 4) (m : BitVec 1)
  /-- PCLR (R239). Zeroes a line or word and clears its poison. -/
  | pclr (h : Hdr) (a : BitVec 6) (b : BitVec 4) (m : BitVec 1)
  /-- CWB (R249). Writes dirty die-cache lines back to their home memory. -/
  | cwb (h : Hdr) (a : BitVec 6) (b : BitVec 6)
  /-- ICINV (R250). Invalidates lines in every instruction cache of the package. -/
  | icinv (h : Hdr) (a : BitVec 6) (b : BitVec 6)
  /-- ATOMSP (R271). Atomic on a word of the team's own scratchpad. -/
  | atomsp (h : Hdr) (d : BitVec 6) (a : BitVec 6) (b : BitVec 6) (f : BitVec 4)
  /-- CP_LOAD (R298). Accepts a copy from device memory to the scratchpad. -/
  | cpLoad (h : Hdr) (hb : BitVec 6) (w : BitVec 1) (t : BitVec 1) (b : BitVec 6) (u : BitVec 3)
  /-- CP_STORE (R298). Accepts a copy from the scratchpad to device memory. -/
  | cpStore (h : Hdr) (hb : BitVec 6) (w : BitVec 1) (t : BitVec 1) (b : BitVec 6) (u : BitVec 3)
  /-- CP_FILL (R298). Accepts a fill of the scratchpad with a pattern. -/
  | cpFill (h : Hdr) (hb : BitVec 6) (w : BitVec 1) (t : BitVec 1) (b : BitVec 6) (u : BitVec 3)
  /-- WAITC (R289). Waits until a class counter is at most n, delivers a pending engine error or acquires the retired writes. -/
  | waitc (h : Hdr) (a : BitVec 6) (i : BitVec 10)
  /-- TBINIT (R302). Sets a tile barrier's expected count. -/
  | tbinit (h : Hdr) (a : BitVec 6) (k : BitVec 6)
  /-- TBARR (R303). Returns the phase and arrives on a tile barrier, as a release at CORE. -/
  | tbarr (h : Hdr) (d : BitVec 6) (k : BitVec 6)
  /-- TBWAIT (R304). Waits until a phase of a tile barrier is passed, then acquires at CORE. -/
  | tbwait (h : Hdr) (a : BitVec 6) (k : BitVec 6)
  /-- TBTRY (R304). Tests whether a phase is passed, acquiring when it is. -/
  | tbtry (h : Hdr) (d : BitVec 6) (a : BitVec 6) (k : BitVec 6)
  /-- BAR (R305). Arrives on a tile barrier and waits for the phase to pass. -/
  | bar (h : Hdr) (k : BitVec 6)
  /-- GSET (R295). Resolves a guard slot from a uniform predicate. -/
  | gset (h : Hdr) (d : BitVec 6) (k : BitVec 3) (n : BitVec 1)
  /-- GCLR (R295). Returns a resolved guard slot to UNRESOLVED with a new generation. -/
  | gclr (h : Hdr) (d : BitVec 6)
  /-- TBINV (R306). Invalidates a tile barrier and releases its waiters. -/
  | tbinv (h : Hdr) (k : BitVec 6)
  /-- GBAR (R421). Arrives on the launch's grid barrier with a release and waits for the generation to pass. -/
  | gbar (h : Hdr)
  /-- GBARA (R421). Arrives on the grid barrier and returns the generation without waiting. -/
  | gbara (h : Hdr) (d : BitVec 6)
  /-- GBARW (R421). Waits until a grid-barrier generation is passed, then acquires at PKG. -/
  | gbarw (h : Hdr) (a : BitVec 6)
  /-- CCWAIT (R413). Waits for a completion counter to complete or change GEN, then acquires at SYS. -/
  | ccwait (h : Hdr) (d : BitVec 6) (a : BitVec 6)
  /-- CNCL (R414). Cancels the unit named by a counter and GEN. -/
  | cncl (h : Hdr) (a : BitVec 6)
  /-- LNCH (R412). Submits a launch record from memory to a queue and returns the outcome code. -/
  | lnch (h : Hdr) (d : BitVec 6) (a : BitVec 6) (b : BitVec 6)
  /-- PREQ_QUERY (R446). Returns the kind of request pending on the team. -/
  | preqQuery (h : Hdr) (d : BitVec 6)
  /-- PREQ_YIELD (R446). Requests a YIELD when eligible work waits, and returns the pending kind. -/
  | preqYield (h : Hdr) (d : BitVec 6)
  /-- MXLOOP (R327). Accepts a matrix multiply-accumulate over K-steps into a bank. -/
  | mxloop (h : Hdr) (hb : BitVec 6) (n : BitVec 2) (b : BitVec 6) (u : BitVec 3) (q : BitVec 1)
  /-- MXDRAIN (R330). Accepts a drain of bank slices to scratchpads. -/
  | mxdrain (h : Hdr) (hb : BitVec 6) (n : BitVec 2) (b : BitVec 6) (u : BitVec 3) (q : BitVec 1)
  /-- MXLDA (R330). Accepts a load of bank slices from scratchpads. -/
  | mxlda (h : Hdr) (hb : BitVec 6) (n : BitVec 2) (b : BitVec 6) (u : BitVec 3)
  /-- MXZERO (R328). Accepts a command that zeroes a bank and clears its poison. -/
  | mxzero (h : Hdr) (n : BitVec 2) (b : BitVec 6) (u : BitVec 3)
  /-- MXCFG (R314). Sets the warp's matrix configuration CFG, SA and SB. -/
  | mxcfg (h : Hdr) (a : BitVec 6)
  /-- MXQ (R331). Queries the matrix configuration, free entries, bank poison or bank count. -/
  | mxq (h : Hdr) (d : BitVec 6) (b : BitVec 6)
  /-- QST (R345). Accepts quantisation of two register blocks into 4-bit blocks. -/
  | qst (h : Hdr) (hb : BitVec 6) (a : BitVec 6)
  /-- QSTF (R345). Accepts quantisation restricted to the lowest allowed selector. -/
  | qstf (h : Hdr) (hb : BitVec 6) (a : BitVec 6)
  /-- QERR (R346). Computes a block's encoding error or scale byte synchronously. -/
  | qerr (h : Hdr) (d : BitVec 6) (a : BitVec 6) (b : BitVec 6)
  /-- QEXP (R349). Accepts expansion of 4-bit blocks to F32. -/
  | qexp (h : Hdr) (hb : BitVec 6)
  /-- QEXPB (R349). Accepts expansion of 4-bit blocks to BF16. -/
  | qexpb (h : Hdr) (hb : BitVec 6)
  /-- VDEC (R354). Accepts decoding of a prefix-coded chunk. -/
  | vdec (h : Hdr) (hb : BitVec 6)
  /-- QCHK (R347). Checks four scale bytes per lane for corruption and NaN scale. -/
  | qchk (h : Hdr) (d : BitVec 6) (a : BitVec 6)
  /-- KVG (R370). Accepts a gather of one layer's KV rows through a sequence table. -/
  | kvg (h : Hdr) (hb : BitVec 6) (b : BitVec 6) (u : BitVec 3) (q : BitVec 1)
  /-- KVSPL (R379). Accepts a splice of a document's groups into a sequence table. -/
  | kvspl (h : Hdr) (hb : BitVec 6) (b : BitVec 6) (u : BitVec 3)
  /-- KVMAP (R374). Accepts an edit of one table entry. -/
  | kvmap (h : Hdr) (hb : BitVec 6) (b : BitVec 6) (u : BitVec 3)
  /-- KVSD (R375). Accepts a shoot-down of cached KV items. -/
  | kvsd (h : Hdr) (hb : BitVec 6) (b : BitVec 6) (u : BitVec 3)
  /-- RPSCAN (R387). Accepts a scan that selects spliced tokens for repair. -/
  | rpscan (h : Hdr) (hb : BitVec 6) (b : BitVec 6) (u : BitVec 3)
  /-- RPDONE (R389). Accepts an advance of the repair level, with a release at PKG. -/
  | rpdone (h : Hdr) (hb : BitVec 6) (b : BitVec 6) (u : BitVec 3)
  /-- MOV_16BIT (R42). 16-bit form of MOV. -/
  | mov16 (sw : Bool) (d : BitVec 5) (a : BitVec 5)
  /-- ADD_16BIT (R42). 16-bit form of ADD. -/
  | add16 (sw : Bool) (d : BitVec 5) (a : BitVec 5)
  /-- SUB_16BIT (R42). 16-bit form of SUB. -/
  | sub16 (sw : Bool) (d : BitVec 5) (a : BitVec 5)
  /-- MUL_16BIT (R42). 16-bit form of MUL. -/
  | mul16 (sw : Bool) (d : BitVec 5) (a : BitVec 5)
  /-- AND_16BIT (R42). 16-bit form of AND. -/
  | and16 (sw : Bool) (d : BitVec 5) (a : BitVec 5)
  /-- OR_16BIT (R42). 16-bit form of OR. -/
  | or16 (sw : Bool) (d : BitVec 5) (a : BitVec 5)
  /-- XOR_16BIT (R42). 16-bit form of XOR. -/
  | xor16 (sw : Bool) (d : BitVec 5) (a : BitVec 5)
  /-- SHL_16BIT (R42). 16-bit form of SHL. -/
  | shl16 (sw : Bool) (d : BitVec 5) (a : BitVec 5)
  /-- SHR_16BIT (R42). 16-bit form of SHR. -/
  | shr16 (sw : Bool) (d : BitVec 5) (a : BitVec 5)
  /-- SAR_16BIT (R42). 16-bit form of SAR. -/
  | sar16 (sw : Bool) (d : BitVec 5) (a : BitVec 5)
  /-- MIN_S32_16BIT (R42). 16-bit form of MIN.S. -/
  | minS16 (sw : Bool) (d : BitVec 5) (a : BitVec 5)
  /-- MAX_S32_16BIT (R42). 16-bit form of MAX.S. -/
  | maxS16 (sw : Bool) (d : BitVec 5) (a : BitVec 5)
  /-- FADD_F32_16BIT (R42). 16-bit form of FADD. -/
  | fadd16 (sw : Bool) (d : BitVec 5) (a : BitVec 5)
  /-- FMUL_F32_16BIT (R42). 16-bit form of FMUL. -/
  | fmul16 (sw : Bool) (d : BitVec 5) (a : BitVec 5)
  /-- FMAX_F32_16BIT (R42). 16-bit form of FMAX. -/
  | fmax16 (sw : Bool) (d : BitVec 5) (a : BitVec 5)
  /-- FMIN_F32_16BIT (R42). 16-bit form of FMIN. -/
  | fmin16 (sw : Bool) (d : BitVec 5) (a : BitVec 5)
  /-- UNIMP (R48). A reached 32-bit word that is not an instruction raises the precise trap UNIMP. -/
  | unimp (w : Word)
  /-- FORCED_SWITCH (R38). After 23 unmarked instructions in a row, the 24th is treated as switch-marked. -/
  | forcedSwitch (wid : Nat)
  /-- VARIABLE_LATENCY_RESULT (R40). A variable-latency register result is written, unparking the warp and settling provisional rows. -/
  | variableLatencyResult (wid id : Nat)
  /-- STORE_PERFORM (R256). A store leaves the core order and is performed in its die cache. -/
  | storePerform (core k : Nat)
  /-- DIE_CACHE_WRITEBACK (R257). A die cache writes the dirty bytes of a line into its home order. -/
  | dieCacheWriteback (die line : Nat) (drop : Bool)
  /-- ROW_GRANT (R179). A queued row request that now fits is granted, oldest first. -/
  | rowGrant (core : Nat)
  /-- AGED_REQUEST (R179). A row request that has waited 1024 cycles becomes aged and blocks younger grants. -/
  | agedRequest (wid : Nat)
  /-- DEADLOCK_BREAKER (R181). When every runnable warp of a core is in widen-wait, VROW is raised on the warp with the largest B. -/
  | deadlockBreaker (core : Nat)
  /-- BANK_DROWSY (R189). A row bank turns drowsy when unheld, or when its holders have been stalled on memory for 1 µs. -/
  | bankDrowsy (core bank : Nat)
  /-- BOOST (R410). A ready gang that has not issued for 256 cycles becomes boosted. -/
  | boost (wid g : Nat)
  /-- TIMER_PENDING (R141). %wtime reaches the deadline: TIMER becomes pending, the deadline resets and withdrawable waits are withdrawn. -/
  | timerPending (wid : Nat)
  /-- TIMER_TRAP (R141). A pending TIMER is taken at the next eligible instruction boundary. -/
  | timerTrap (wid g : Nat)
  /-- CP_EXECUTION (R298). The copy engine executes an accepted copy, completes it and retires it. -/
  | cpExecution (core k : Nat)
  /-- KVG_EXECUTION (R370). The copy engine executes a KV gather and completes it. -/
  | kvgExecution (core k : Nat)
  /-- QST_EXECUTION (R345). The transform pipe encodes and writes the blocks of a QST or QSTF. -/
  | qstExecution (core k : Nat)
  /-- QEXP_EXECUTION (R349). The transform pipe expands the blocks of a QEXP or QEXPB. -/
  | qexpExecution (core k : Nat)
  /-- VDEC_EXECUTION (R354). The transform pipe decodes a chunk and writes the status word. -/
  | vdecExecution (core k : Nat)
  /-- MX_PASS (R323). The arbiter grants a pass to an eligible reservation-table entry, which performs up to four K-steps or a whole command. -/
  | mxPass (cl : Nat)
  /-- MX_AGING (R323). An entry that has waited 4096 cycles takes arbitration priority. -/
  | mxAging (cl k : Nat)
  /-- MX_COMPLETION (R324). A matrix command completes 24 cycles after its last pass and frees its entry. -/
  | mxCompletion (cl k : Nat)
  /-- KVSPL_EXECUTION (R379). The KV table unit builds and publishes the spliced table and shoots down cached items. -/
  | kvsplExecution (core k : Nat)
  /-- KVMAP_EXECUTION (R374). The KV table unit edits one entry. -/
  | kvmapExecution (core k : Nat)
  /-- KVSD_EXECUTION (R375). The KV table unit shoots down cached items in every cluster. -/
  | kvsdExecution (core k : Nat)
  /-- RPSCAN_EXECUTION (R387). The repair engine selects tokens, copies shared groups and updates entries. -/
  | rpscanExecution (core k : Nat)
  /-- RPDONE_EXECUTION (R389). After its release, the KV table unit advances the LEVEL of REPAIRING entries. -/
  | rpdoneExecution (core k : Nat)
  /-- LAUNCH (R396). The dispatcher applies a LAUNCH record, claiming its counter. -/
  | launch (q : Nat)
  /-- OPEN (R396). The dispatcher applies an OPEN record, opening a group counter. -/
  | openCtr (q : Nat)
  /-- SEAL (R396). The dispatcher applies a SEAL record, closing a group counter. -/
  | seal (q : Nat)
  /-- TEAM_PLACEMENT (R404). The dispatcher places an eligible or ready team on a core that admits it. -/
  | teamPlacement (l core : Nat)
  /-- CANCEL_TIMEOUT (R403). 200 µs after a cancel request, every warp of the team stops and the team ends. -/
  | cancelTimeout (team : Nat)
  /-- PRIORITY (R408). The dispatcher asks lower-priority resident teams to give way to a waiting team. -/
  | priorityReq (team : Nat)
  /-- SLICE (R408). After the 2 ms quantum, the dispatcher asks a resident team to give way. -/
  | sliceReq (team : Nat)
  /-- PROGRESS (R425). A team blocked 20 µs at grid waits while teams are unplaced is asked to swap out. -/
  | progressReq (team : Nat)
  /-- MIGRATE (R428). A write of SVREQ with KIND 4 requests migration of a team to a target core. -/
  | migrateReq (core : Nat) (v : Word)
  /-- FULL_SAVE (R433). A team that is not parked 200 µs after its request is stopped and saved whole. -/
  | fullSave (team : Nat)
  /-- SAVE (R434). The save engine drains and writes a team image and frees its core resources. -/
  | saveTeam (team : Nat)
  /-- RESTORE (R444). The save engine restores a team image on a core and resumes its warps. -/
  | restoreTeam (team core : Nat)
  /-- CDBG (R130). A write of CDBG sets or clears SNAP and BRKSTOP for a core. -/
  | cdbg (core : Nat) (v : Word)
  /-- QREQ (R462). A write of QREQ closes a cluster to placement or reopens it. -/
  | qreq (cl : Nat) (v : Word)
  /-- RSAVE_SAVE (R464). Starts saving a cluster's retention state. -/
  | rsaveSave (cl : Nat)
  /-- RSAVE_RESTORE (R464). Starts restoring a cluster's retention state. -/
  | rsaveRestore (cl : Nat)
  /-- RSAVE_DONE (R463). A retention save or restore ends and BUSY falls. -/
  | rsaveDone (cl : Nat)
  /-- CLKG (R464). A write of CLKG stops or restarts the cluster clock. -/
  | clkg (cl : Nat) (v : Word)
  /-- RAIL (R464). A write of RAIL opens or closes the cluster's power switch. -/
  | rail (cl : Nat) (v : Word)
  /-- RAIL_RAMP_DONE (R464). The rail ramp ends, updating RAMP and GOOD. -/
  | railRampDone (cl : Nat)
  /-- LENDT (R464). A write of LENDT MODE gates a cluster's share or starts a recall. -/
  | lendt (cl : Nat) (v : Word)
  /-- RECALL (R457). Within 4 µs, recalled power is removed from the borrowers and LENT reads 0. -/
  | recall (cl : Nat)
  /-- WAKE (R465). A write of WAKE arms wake sources, the TIMER delay and the wake bit. -/
  | wake (cl : Nat) (v : Word)
  /-- WAKE_TIMER (R465). The TIMER wake source fires TICKS µs after the WAKE write. -/
  | wakeTimer (cl : Nat)
  /-- TEMP (R450). A cluster's temperature is sampled every 10 µs. -/
  | tempSample (cl : Nat) (t : BitVec 16)
  /-- EPOCH (R456). At each 1 µs epoch, the power manager lends, splits the pool, sets REFILL and steps the clocks. -/
  | epoch (die : Nat)
  /-- POWER_MEASUREMENT (R452). Every 1 ms, the idle floor F0 is measured and the budget is recomputed. -/
  | powerMeasurement (f0 : Nat)
  /-- PCAP (R452). A write of the package cap recomputes the budget, floors and shares. -/
  | pcap (v : Word)
  /-- HWAKE (R474). A host write fires the HOST wake source of a cluster. -/
  | hwake (cl : Nat) (v : Word)
  /-- PCTL_SWITCH (R475). Makes a HOST request of every resident team of a partition. -/
  | pctlSwitch (p : Nat)
  /-- PCTL_RESUME (R475). Lets teams held by HOST requests be placed again. -/
  | pctlResume (p : Nat)
  /-- REPLAY (R133). The system handler's answer re-executes the faulting instruction. -/
  | replayAns (p slot : Nat)
  /-- DELIVER (R133). The system handler's answer turns the fault into a warp trap. -/
  | deliverAns (p slot : Nat)
  /-- KILL_TEAM (R133). The system handler's answer ends the team and records the error. -/
  | killTeam (p slot : Nat)
  /-- KILL_LAUNCH (R133). The system handler's answer cancels the launch. -/
  | killLaunch (p slot : Nat)
  /-- CCANCEL (R470). A host write cancels a counter as CNCL does. -/
  | ccancel (p : Nat) (v : Word)
  /-- WPTR (R472). A host write advances a queue's write pointer, or is refused with QREF 0x51. -/
  | wptr (p q : Nat) (v : Word)
  /-- QCFG (R472). A host write sets a queue's size and enables or disables it. -/
  | qcfg (p q : Nat) (v : Word)
  /-- QREF (R470). A read returns and clears a queue's last refusal code. -/
  | qref (p q : Nat)
  /-- QWAKE (R470). A read returns and clears a queue's wake register. -/
  | qwake (p q : Nat)
  /-- REGISTER_WRITE (R449). A write to a window or host register that has no row of its own. -/
  | registerWrite (r : RegSpace) (off size : Nat) (v : DWord)
  /-- FIRMWARE_LOAD (R481). The boot ROM verifies, measures and loads the firmware image into the management cores. -/
  | firmwareLoad (img : FwImage)
  /-- FWDOG (R482). A missed 100 ms heartbeat sets PEVT.FWDOG. -/
  | fwdog
  /-- ATTESTATION_REQUEST (R483). A nonce request is answered with a signed report. -/
  | attestationRequest (nonce : List Byte)
  /-- BIND (R479). The bind service verifies, places and relocates a code object and grants execute permission. -/
  | bindObject (o : CodeObject)
  /-- OSVN_ADVANCE (R480). A signed command advances OSVN and unbinds stale objects. -/
  | osvnAdvance (v : Nat)
  /-- LINK_DOWN (R477). Every Lanfort port to a peer goes down, and its accesses are poisoned or dropped. -/
  | linkDown (peer : Nat)
  /-- LINK_RETRY_EXHAUSTED (R468). A UCIe link exhausts its retries and is reported as a package error. -/
  | linkRetryExhausted
  /-- FATAL (R484). An internal error of a core unit, the dispatcher or the fabric raises FATAL. -/
  | fatalErr (core : Option Nat)
  /-- UNCORRECTABLE_ERROR (R484). An uncorrectable error poisons memory or raises ECC for warp state. -/
  | uncorrectableError (place : ErrorPlace)
  /-- PATROL_SCRUB (R485). Patrol scrub of all memory every 24 h. -/
  | patrolScrub (lines : List Nat)
  /-- DRAM_CALIBRATION (R485). DRAM calibration every 50 ms. -/
  | dramCalibration (channel : Nat)
  /-- TELEMETRY_SAMPLE (R485). Telemetry is sampled every 1 ms. -/
  | telemetrySample
  /-- HOST_ACCESS (R274). A host access over CXL.io or CXL.mem is performed at the line's home cache. -/
  | hostAccess (a : MemAccess)
  /-- PEER_ACCESS (R476). A peer's access through the Lanfort link is performed at the line's home cache. -/
  | peerAccess (peer : Nat) (a : MemAccess)
  /-- POWER_UP (R394). At power-up every counter reads complete with GEN 0, every partition block and cluster register takes its reset value, and nothing is granted. -/
  | powerUp
  /-- CORE_RESET (R484). The runtime resets a core after FATAL, which clears CDBG.FATAL and resets its transform pipe, KV table unit or repair engine, tearing any QST, KVSPL or RPSCAN in flight. -/
  | coreReset (core : Nat)
  /-- ALLOWANCE_REFILL (R459). In every cycle each cluster's allowance counter C rises by REFILL up to 65535, which sets the withholding level in force. -/
  | allowanceRefill
  /-- KV_ITEM_DROP (R365). A cluster's KV translation buffer drops a cached item of its own accord. -/
  | kvItemDrop (cl k : Nat)
  /-- PAGE_SHOOTDOWN (R224). The host interface shoots down a page's translation once every access that has already passed translation has completed. -/
  | pageShootdown (part : Nat) (va : Nat)
  deriving DecidableEq, Repr

end Sys2Proof
end

