-- ==== Sys2Proof/Machine/State.lean ====
section
/-! DEFINITION. The state of the machine: everything the spec gives the SP-4820, as plain data, and the state
right after power-up. -/

namespace Sys2Proof.Machine

/-- Reasons the machine stops. -/
inductive Fault where
  /-- Raised by no meaning: the spec describes the outcome of every fault of the part. Safe. -/
  | stopped
  deriving DecidableEq, Repr

/-- Reasons the model refuses. -/
inductive Refusal where
  /-- Raised by an arm of Dispatch whose instruction has no meaning yet. Safe: nothing can be proved of a run that
  meets it. -/
  | notModelled (mnemonic : String)
  deriving DecidableEq, Repr

/-! ## Registers -/

/-- One lane of a register: its word and its poison bit (R60). -/
structure Lane where
  val : Word
  poison : Bool
  deriving DecidableEq, Repr

/-- A shaped register (R60, R62). -/
inductive Shaped where
  /-- U(x). -/
  | u (x : Word) (p : Bool)
  /-- A(b,s), with s not 0. -/
  | a (b s : Word) (p : Bool)
  /-- V, one value for each lane of the warp, in lane order. -/
  | v (ls : List Lane)
  deriving DecidableEq, Repr

/-- A predicate (R63). -/
inductive Pred where
  | u (b : Bool)
  | v (m : LaneSet)
  deriving DecidableEq, Repr

/-- A register that a result is written to. -/
inductive Dest where
  /-- w register n. -/
  | w (n : Nat)
  /-- Trap-bank register t n. -/
  | t (n : Nat)
  /-- Predicate p n. -/
  | p (n : Nat)
  /-- The whole of base register b n. -/
  | b (n : Nat)
  /-- Bits 31:0 of b n (R147). -/
  | bLo (n : Nat)
  /-- Bits 63:32 of b n (R147). -/
  | bHi (n : Nat)
  deriving DecidableEq, Repr

/-- The value of a result. -/
inductive RVal where
  | shaped (x : Shaped)
  | pred (x : Pred)
  | base (x : DWord)
  deriving DecidableEq, Repr

/-- How a result is written: by the write rules under a mask (R184, R152), or in every lane whatever the mask
(SHF, WIDEN, GETX and SETX WHOLE, MOVB.TO: R90, R92, R146, R147, R81). -/
inductive WriteMode where
  | masked (act : LaneSet)
  | whole
  /-- Expand what the register holds into every lane (WIDEN, R92). -/
  | expand
  /-- A write in every lane that takes effect in some lanes only, as an older write of variable latency keeps the others
  (R40, log 9); any shape is written by lane. -/
  | lanes (m : LaneSet)
  deriving DecidableEq, Repr

/-- A result in flight (R39, R40, R75). -/
structure PendWrite where
  /-- Number of the result. -/
  id : Nat
  dest : Dest
  val : RVal
  mode : WriteMode
  /-- First cycle at which it is visible; none while a variable-latency result is unfinished. -/
  vis : Option Nat
  /-- A variable-latency result whose value is ready (an atomic's comes when it is performed). -/
  ready : Bool
  /-- A result of LD, LDSP, ATOM, ATOMX, ATOMSP, TAGLK or PTEST (R189). -/
  mem : Bool
  deriving DecidableEq, Repr

/-- A hardware-loop record (R111). -/
structure LoopRec where
  start : DWord
  last : DWord
  count : Word
  /-- Its body is fetched from the loop buffer of the warp's scheduler (R116). -/
  buf : Bool
  deriving DecidableEq, Repr

/-- What a gang that stands at an instruction waits for. -/
inductive Wait where
  /-- TBWAIT on tile barrier k for a phase (R304). -/
  | tb (k : Nat) (phase : Word)
  /-- BAR on tile barrier k, arrived, for a phase (R305). -/
  | bar (k : Nat) (phase : Word)
  /-- GBAR, arrived, for a generation (R421). -/
  | gbar (gen : Word)
  /-- GBAR or GBARA of a warp whose arrival is already counted (R416). -/
  | again (gen : Word)
  /-- GBARW for a generation (R421). -/
  | gbarw (gen : Word)
  /-- CCWAIT on a counter and GEN (R413). -/
  | counter (c : Nat) (gen : BitVec 16)
  /-- WAITC of a class until the counter is at most n (R289), since a %gtime. -/
  | eng (cls n start : Nat)
  /-- WFE of a management core (R467). -/
  | wfe
  /-- A crew-remote access, to these ranks of the crew, of which one has not started or is out (R231). -/
  | remote (ranks : List Nat)
  /-- Parked at CKPT with a live index (R431). -/
  | ckpt (index : Nat)
  /-- Standing at REGANG (R110), WAIT 1, with the slices that its mask names. -/
  | regang (m : BitVec 16)
  deriving DecidableEq, Repr

/-- A gang entry of the split table (R97). -/
structure Gang where
  slices : BitVec 16
  pc : DWord
  fmt : BitVec 17
  /-- Loop stack, top first. -/
  loops : List LoopRec
  /-- INNER, 31 for none. -/
  inner : BitVec 5
  /-- WAIT of R97 and the other waits of a gang. -/
  wait : Option Wait
  /-- What the gang waits for has come about, so that its instruction may end, or issue (R410). -/
  met : Bool
  /-- The instruction that the gang has fetched and holds, and its length: it stands at a wait, in widen-wait, or its unit
  was not free (R18, R179; log 42). -/
  held : Option (Word × Nat)
  /-- The invalidation of the acquire at which the gang stands has been made (R261; log 71). -/
  opened : Bool
  /-- The first cycle at which the gang may issue (R124, R290, R307, R423). -/
  nextAt : Nat
  /-- The end of the issue gap that does not hold the gang: that of the JOIN, REGANG or EXIT that created it (R124). -/
  exempt : Nat
  /-- Where R410 counts from, on the scale of R411, which leaves withheld cycles out: the gang's last issue or, if later,
  the cycle at which it became ready. -/
  since : Int
  boosted : Bool
  deriving DecidableEq, Repr

/-- A deferred entry of a mask stack (R99). -/
structure Deferred where
  mask : BitVec 4
  pc : DWord
  tag : BitVec 5
  fmt : BitVec 17
  deriving DecidableEq, Repr

/-- A slice: its current mask and its mask stack, top first (R99). -/
structure Slice where
  mask : BitVec 4
  stack : List Deferred
  deriving DecidableEq, Repr

/-- A group of slices whose release waits for a free entry (R101). -/
structure Release where
  slices : BitVec 16
  loops : List LoopRec
  deriving DecidableEq, Repr

/-- A join record (R102). -/
structure JoinRec where
  jpc : DWord
  members : BitVec 16
  arrived : BitVec 16
  /-- 4 bits per slice. -/
  masks : LaneSet
  fmt : BitVec 17
  loops : List LoopRec
  parent : BitVec 5
  deriving DecidableEq, Repr

/-- The trap record (R131, R143). -/
structure TrapRec where
  cause : BitVec 8
  sub : BitVec 8
  pc : DWord
  word : Word
  len : BitVec 3
  flanes : LaneSet
  faddr : DWord
  resume : DWord
  gang : BitVec 4
  fpxc : BitVec 5
  engClass : BitVec 2
  engLeft : BitVec 8
  savedFmt : BitVec 17
  savedLoops : List LoopRec
  deriving DecidableEq, Repr

/-- A record of the system handler (R133). -/
structure FaultRec where
  code : BitVec 8
  sub : BitVec 8
  hm : Bool
  /-- A warp trap routed to the system handler. -/
  warpTrap : Bool
  coord : BitVec 16
  slot : Nat
  gang : Nat
  pc : DWord
  word : Word
  len : BitVec 3
  faddr : DWord
  flanes : LaneSet
  team : Nat
  warp : Nat
  /-- Kinds that a DELIVER passes on to the trap record (R131). -/
  fpxc : BitVec 5
  engClass : BitVec 2
  engLeft : BitVec 8
  deriving DecidableEq, Repr

/-- What one lane of an atomic asks for (R265). -/
structure AtomLane where
  lane : Nat
  a : DWord
  b : DWord
  deriving DecidableEq, Repr

/-- An atomic operation of ATOM, ATOMX or ATOMSP (R265, R270). -/
inductive AtomOp where
  | add | minS | maxS | minN | maxN | andB | orB | xorB | exch | cas | faddF32 | faddF64 | fminF32 | fmaxF32
  | add64 | incw
  deriving DecidableEq, Repr

/-- What a store-queue entry does when it is performed (R255, R260). -/
inductive StoreOp where
  /-- Bytes to device memory at a physical address, in one unit of 8 bytes or less. -/
  | dev (pa : Nat) (bytes : List Byte)
  /-- The same as a release at the scope: it is performed at its home (log 16). -/
  | rel (scope pa : Nat) (bytes : List Byte)
  /-- Bytes to the scratchpad of a team. -/
  | sp (team off : Nat) (bytes : List Byte)
  /-- Bytes to the scratchpad of another member of the crew (R231). -/
  | spRemote (team off : Nat) (bytes : List Byte)
  /-- PCLR of a device line (R239). -/
  | clearLine (line : Nat)
  /-- PCLR of a scratchpad word (R239). -/
  | clearWord (team word : Nat)
  /-- CWB of a line (R249). -/
  | writeBack (line : Nat)
  /-- An atomic on one unit, with its lanes in ascending order and the result it fills (R267). -/
  | atom (op : AtomOp) (rel : Bool) (scope pa size : Nat) (lanes : List AtomLane) (res : List Nat)
  /-- An atomic on one scratchpad word (R271). -/
  | atomSp (op : AtomOp) (team off : Nat) (lanes : List AtomLane) (res : List Nat)
  /-- FENCE.REL at a scope (R264). -/
  | fence (scope : Nat)
  /-- SIGNAL of a management core or a host queue (R149). -/
  | signal (mgmt : Bool) (target : Nat) (v : Word)
  deriving DecidableEq, Repr

/-- An entry of a store queue or of a core order. -/
structure StoreEntry where
  /-- Issue number: entries of one warp rise in it. -/
  seq : Nat
  wid : Nat
  op : StoreOp
  deriving DecidableEq, Repr

/-- A row that a warp holds (R175, R187): the register, the physical row, the result it was requested for, and
whether that was a partial write. -/
structure RowHold where
  reg : Nat
  row : Nat
  owner : Nat
  prov : Bool
  deriving DecidableEq, Repr

/-- An outstanding operation of a class, in class order (R286). -/
structure OpRec where
  cmd : Nat
  cls : Nat
  done : Bool
  /-- Sub-code and fault address. -/
  err : Option (BitVec 8 × DWord)
  deriving DecidableEq, Repr

/-- An error recorded on a retired operation (R134). -/
structure EngErr where
  cls : Nat
  sub : BitVec 8
  addr : DWord
  deriving DecidableEq, Repr

/-- A queued row request (R178, R179). -/
structure RowReq where
  n : Nat
  gang : Nat
  since : Nat
  aged : Bool
  deriving DecidableEq, Repr

/-- An instruction that a warp has fetched ahead, or that a loop buffer holds (R116): its address, word and length. -/
structure CodeCopy where
  addr : DWord
  word : Word
  len : Nat
  deriving DecidableEq, Repr

/-- What the loop buffer of a scheduler holds (R16, R116): the body of one loop of a partition, as it was when the buffer was
filled, and the number of that fill. -/
structure LoopBuf where
  part : Nat
  start : DWord
  last : DWord
  code : List CodeCopy
  filled : Nat
  deriving DecidableEq, Repr

/-- A warp, or a management core as a warp of one lane (R60, R29). -/
structure Warp where
  /-- Key of its team. -/
  team : Nat
  /-- Logical warp index within the team. -/
  index : Nat
  /-- The width W is 64. -/
  wide64 : Bool
  /-- Present lanes. -/
  nlanes : Nat
  exited : LaneSet
  w : SMap Shaped
  t : SMap Shaped
  p : SMap Pred
  b : SMap DWord
  part : BitVec 3
  role : BitVec 2
  tvec : DWord
  deadline : DWord
  tmask : BitVec 2
  hm : Bool
  cfg : Word
  sa : Word
  sb : Word
  trap : TrapRec
  gangs : SMap Gang
  joins : SMap JoinRec
  slices : SMap Slice
  releases : List Release
  pend : List PendWrite
  /-- Unmarked instructions issued in a row (R38). -/
  count : Nat
  /-- Parked at a switch point since this %gtime, and whether only for memory results (R37, R189). -/
  parked : Option (Nat × Bool)
  /-- First cycle at which any gang may issue (R36). -/
  nextIssue : Nat
  /-- When the warp as a whole last became ready, on the scale of `Gang.since` (R410). -/
  readyAt : Int
  timerPending : Bool
  /-- %gtime in ns at which %wtime read 0. -/
  wstart : Int
  /-- %wtime while it does not advance (R141). -/
  frozen : Option Nat
  /-- Physical rows held (R175, R187). -/
  rows : List RowHold
  /-- Row floor and borrowing (R176). -/
  floor : Nat
  borrow : Bool
  rowReq : Option RowReq
  /-- Rows granted to an instruction that has not issued (R180). -/
  granted : List Nat
  ops : List OpRec
  errs : List EngErr
  storeQ : List StoreEntry
  /-- Parked for the system handler with this record (R127, R133). -/
  fault : Option FaultRec
  /-- Instructions fetched ahead (R116). -/
  copies : List CodeCopy
  /-- Loop buffers filled before this number are not used: it is that of the last ISYNC or handler entry (R116, R117). -/
  synced : Nat
  /-- Every present lane has exited. -/
  ended : Bool
  /-- Its rows are freed with its team, which was stopped (R403). -/
  keeps : Bool
  /-- Stopped at an instruction boundary by a full save, a cancel, an error or a stop of a management core. -/
  halted : Bool
  deriving DecidableEq, Repr

/-- The split-table fields of a warp's first gang at launch (R98). -/
def Gang.launch (slices : BitVec 16) (pc : DWord) : Gang :=
  { slices, pc, fmt := 0, loops := [], inner := 31, wait := none, met := false, held := none,
    opened := false, nextAt := 0, exempt := 0, since := 0, boosted := false }

/-- The trap record of a warp that has taken no trap. -/
def TrapRec.empty : TrapRec :=
  { cause := 0, sub := 0, pc := 0, word := 0, len := 0, flanes := 0, faddr := 0, resume := 0, gang := 0,
    fpxc := 0, engClass := 0, engLeft := 0, savedFmt := 0, savedLoops := [] }

/-- A warp as R60 starts it, of one lane and with no gang; an empty warp slot reads so (log 8). -/
def Warp.init : Warp :=
  { team := 0, index := 0, wide64 := true, nlanes := 0, exited := 0, w := [], t := [], p := [], b := [],
    part := 0, role := 0, tvec := 0, deadline := BitVec.allOnes 64, tmask := 0, hm := false,
    cfg := 0, sa := 0x3F800000#32, sb := 0x3F800000#32, trap := TrapRec.empty, gangs := [], joins := [],
    slices := [], releases := [], pend := [], count := 0, parked := none, nextIssue := 0,
    readyAt := 0, timerPending := false, wstart := 0, frozen := none, rows := [], floor := 0, borrow := true, rowReq := none,
    granted := [], ops := [], errs := [], storeQ := [], fault := none, copies := [], synced := 0, ended := false,
    keeps := false, halted := false }

/-! ## Engine commands -/

/-- What an accepted command does. -/
inductive CmdKind where
  /-- CP.LOAD, STORE and FILL; `twoD` for .2D (R297). -/
  | cpLoad (twoD : Bool)
  | cpStore (twoD : Bool)
  | cpFill (twoD : Bool)
  /-- QST, or QSTF when `first` (R344). -/
  | qst (first : Bool)
  /-- QEXP, or QEXPB when `bf16` (R348). -/
  | qexp (bf16 : Bool)
  | vdec
  /-- MXLOOP, `zero` for .Z, on a bank (R327). -/
  | mxloop (zero : Bool) (bank : Nat)
  | mxdrain (zero : Bool) (bank : Nat)
  | mxlda (bank : Nat)
  | mxzero (bank : Nat)
  /-- KVG, `keys` for .K (R366). -/
  | kvg (keys : Bool)
  | kvspl
  | kvmap
  | kvsd
  | rpscan
  | rpdone
  deriving DecidableEq, Repr

/-- The fate of a guarded command (R294). -/
inductive Guard where
  | none
  | undecided (slot : Nat) (gen : BitVec 8)
  | goes
  | dropped
  deriving DecidableEq, Repr

/-- One write of an RPSCAN, RPDONE or KVG (R370, R387, R389). -/
inductive KvTask where
  /-- A piece of a group copied at the home, with the poison of its line. -/
  | piece (src dst : DWord) (n : Nat)
  /-- A fresh row. -/
  | row (dst : DWord) (bytes : List Byte)
  | nfree (n : Nat)
  /-- Entry i of a table, at its address. -/
  | entry (a : DWord) (i : Nat) (img : BitVec 128)
  /-- The position list and the count word. -/
  | list (items : List (Word × Word))
  /-- The rows and the position word of slot r of gather slot j, of an entry with its origin word, or spoiled (R370). -/
  | gather (j r : Nat) (src : Option (BitVec 128 × Word))
  /-- A word for the scratchpad, at its offset. -/
  | word (off : Nat) (x : Lane)
  deriving DecidableEq, Repr

/-- An accepted engine command, with everything it read at acceptance (R291). -/
structure Cmd where
  id : Nat
  cls : Nat
  kind : CmdKind
  wid : Nat
  /-- Key of the team and logical index of the warp that issued it: its handle (R441). -/
  team : Nat
  warp : Nat
  die : Nat
  core : Nat
  /-- The core on which its instruction issued; `core` is where it stands after a restore (R442). -/
  issuedOn : Nat
  /-- Descriptor words. -/
  d : List Word
  /-- A descriptor or operand register was poisoned in some lane. -/
  poison : Bool
  /-- Tile barrier named, if any. -/
  bar : Option Nat
  /-- A BAR field that named no barrier of the team (R338). -/
  badBar : Bool
  guard : Guard
  act : LaneSet
  /-- Lanes of the operand register. -/
  lanes : List Lane
  /-- FMT of the issuing gang. -/
  fmt : BitVec 17
  cfg : Word
  sa : Word
  sb : Word
  /-- ROLE MXI at issue (R323). -/
  mxi : Bool
  /-- Number below which the issuer's stores are older (R272, R389). -/
  seq : Nat
  /-- Cycle of acceptance or of the last pass (R323). -/
  since : Nat
  aged : Bool
  /-- K-steps, words or gather slots done; whether it has started; cycle of completion once the last pass is granted. -/
  steps : Nat
  started : Bool
  completeAt : Option Nat
  /-- Outcome collected while passes run: first error, and the slices that become poisoned (R325, R330). -/
  err : Option (BitVec 8 × DWord)
  spoil : BitVec 4
  /-- The device line that a STORE is writing has been written clean from its start (R236). -/
  clean : Bool
  /-- TPTR, descriptor words and NENT, as a KVG that has started read them (R371). -/
  seqRead : Option (DWord × List Byte × Nat)
  /-- Writes that an RPSCAN or RPDONE which has started, or the present lane of a KVG, has still to make (R370, R387, R389). -/
  tasks : List KvTask
  /-- Words of its team's scratchpad that a restore has not given back, as the command still reads them (R441; log 76). -/
  away : SMap Lane
  deriving DecidableEq, Repr

/-- An accumulator bank slice (R311). -/
structure BankSlice where
  words : SMap Word
  poison : Bool
  deriving DecidableEq, Repr

/-! ## Teams -/

/-- A tile barrier (R300). -/
structure TileBar where
  exp : Nat
  arr : Nat
  phase : Word
  pend : Nat
  deriving DecidableEq, Repr

/-- The state of a guard slot (R293). -/
inductive GuardState where
  | unresolved | yes | no
  deriving DecidableEq, Repr

/-- A guard slot (R293). -/
structure GuardSlot where
  state : GuardState
  gen : BitVec 8
  deriving DecidableEq, Repr

/-- An entry of the tag table: its key, and its place in the set's use order, 0 the most recent (R240). -/
structure TagEntry where
  key : Word
  use : Nat
  deriving DecidableEq, Repr

/-- The tag table of a granted team (R240). -/
structure TagTable where
  geometry : Word
  base : Word
  /-- Valid entries by slot. -/
  entries : SMap TagEntry
  deriving DecidableEq, Repr

/-- Where a team is. -/
inductive TeamStatus where
  /-- Resident on a core, in a team slot. -/
  | resident
  /-- Saved, ready or not (R426). -/
  | out
  /-- Ended. -/
  | ended
  deriving DecidableEq, Repr

/-- Kinds of request (R427). -/
inductive ReqKind where
  | priority | slice | progress | migrate | cancel | host | yield
  deriving DecidableEq, Repr

/-- How a saved warp stands (R438). -/
inductive Stand where
  | ckpt | bar | grid | withdrawn | stopped
  deriving DecidableEq, Repr

/-- What the save engine keeps of a team that is out (R435, R441; log 13). -/
structure Image where
  /-- The request that the save answered. -/
  kind : ReqKind
  warps : List Warp
  /-- The w registers that each warp's live entries name; none for a warp saved whole. -/
  saved : List (Option (BitVec 64))
  /-- Granules saved, with bytes and word poison kept in the team's own scratchpad fields. -/
  granules : List Nat
  /-- Words pending at the save, P. -/
  held : List Nat
  /-- Late section written. -/
  late : Bool
  /-- Rows beyond the floor that each warp held. -/
  borrowed : List Nat
  /-- Withdrawn guarded commands in acceptance order (R434). -/
  cmds : List Cmd
  /-- Banks saved with the last member of the crew: bank, slice words and poison. -/
  banks : List (Nat × List BankSlice)
  deriving DecidableEq, Repr

/-- A team (R24, R393). -/
structure Team where
  /-- Key of its launch. -/
  launch : Nat
  /-- Team index in the launch. -/
  index : Nat
  crew : Nat
  rank : Nat
  part : Nat
  nlanes : Nat
  wide64 : Bool
  nwarps : Nat
  status : TeamStatus
  core : Nat
  slot : Nat
  /-- Quarter of the first placement (R442). -/
  quarter : Nat
  /-- Warp numbers, by logical index. -/
  wids : List Nat
  /-- %core. -/
  logCore : Nat
  /-- Order of first placement (R410). -/
  age : Nat
  /-- Allocation size S, granted slot of bytes. -/
  size : Nat
  sp : List Host.Cell
  /-- Scratchpad words with error poison, ascending. -/
  spPoison : List Nat
  /-- Pending marks: word and command. -/
  marks : List (Nat × Nat)
  /-- Granules written since team start. -/
  written : List Nat
  /-- Crew-remote stores that were performed while the team was out, oldest first: they reach its new place (R231, R442;
  log 67). -/
  owed : List (Nat × List Byte)
  nbar : Nat
  bars : SMap TileBar
  guards : SMap GuardSlot
  errWord : DWord
  tagT : Bool
  tag : Option TagTable
  nbank : Nat
  req : Option (ReqKind × Nat)
  /-- Target of a MIGRATE request. -/
  target : Nat
  placedAt : Nat
  /-- %gtime since which every live gang waits (R425). -/
  blocked : Option Nat
  /-- Arrival set and counted arrival for the current grid generation (R415, R416). -/
  arrived : List Nat
  counted : Bool
  /-- Held by a HOST request until the partition is resumed (R427). -/
  hostHeld : Bool
  /-- Space of the save pool reserved for its full image: address and bytes (R427). -/
  region : Option (Nat × Nat)
  image : Option Image
  /-- Ended, but engine operations of its warps still run (R403). -/
  draining : Bool
  deriving DecidableEq, Repr

/-- A launch that has been applied (R392, R415). -/
structure Launch where
  ctr : Nat
  gen : BitVec 16
  part : Nat
  queue : Nat
  prio : Nat
  cascade : Bool
  /-- Counter and GEN of the previous LAUNCH of the queue when ORDER is set. -/
  after : Option (Nat × BitVec 16)
  waits : List (Nat × BitVec 16)
  entry : DWord
  args : DWord
  ncrew : Nat
  tpc : Nat
  lanes : Nat
  wide64 : Bool
  floor : Nat
  borrow : Bool
  scratch : Nat
  live : DWord
  nbank : Nat
  nbar : Nat
  tagT : Bool
  qpin : DWord
  /-- Distinct cores on which teams have been placed, in order (R409). -/
  cores : List Nat
  /-- Next team index to place. -/
  nextTeam : Nat
  cancelled : Bool
  ggen : Word
  glive : Nat
  garrt : Nat
  deriving DecidableEq, Repr

/-- A crew that has a placed member: its cluster and banks (R406, R311). -/
structure Crew where
  launch : Nat
  crew : Nat
  cluster : Nat
  banks : List Nat
  deriving DecidableEq, Repr

/-! ## Dispatcher and host -/

/-- A completion counter (R394). -/
structure Counter where
  gen : BitVec 16
  parent : Option Nat
  /-- PARENT of the record that claimed the counter, also where its HASPARENT is 0 (R396). -/
  parentField : BitVec 10
  level : Nat
  error : Bool
  cancelled : Bool
  done : Bool
  sealed : Bool
  open' : Nat
  errWord : DWord
  deriving DecidableEq, Repr

/-- Every counter at power-up (R394). -/
def Counter.init : Counter :=
  { gen := 0, parent := none, parentField := 0, level := 0, error := false, cancelled := false, done := true, sealed := false,
    open' := 0, errWord := 0 }

/-- A host work queue (R470, R472). -/
structure Queue where
  base : DWord
  log2 : Nat
  enable : Bool
  wptr : Word
  rptr : Word
  qref : BitVec 8
  wake : Word
  /-- Counter and GEN of the last LAUNCH record applied. -/
  lastLaunch : Option (Nat × BitVec 16)
  deriving DecidableEq, Repr

/-- Every queue at power-up (log 6). -/
def Queue.init : Queue :=
  { base := 0, log2 := 0, enable := false, wptr := 0, rptr := 0, qref := 0, wake := 0, lastLaunch := none }

/-- A record in a partition's fault ring, or one that waits for room, with the warp that it parks: its team and its
logical index (R133, R473). -/
structure FaultEntry where
  /-- Number in the ring. -/
  slot : Nat
  team : Nat
  warp : Nat
  rec' : FaultRec
  deriving DecidableEq, Repr

/-- A partition (R469, R470, R475). -/
structure Partition where
  pint : BitVec 6
  pintm : BitVec 6
  pvec : Word
  fqbase : DWord
  fqlog2 : Nat
  fqwptr : Word
  fqrptr : Word
  freply : Word
  /-- Records in the ring that are not answered. -/
  outstanding : List FaultEntry
  /-- Records that wait for room in the ring, in arrival order. -/
  waiting : List FaultEntry
  pflr : BitVec 16
  /-- Scaled floor, 1/16 W (R453). -/
  floor16 : Nat
  short : Bool
  pque : Word
  pctr : Word
  saveBase : DWord
  saveSize : DWord
  winBase : SMap DWord
  winSize : SMap DWord
  pcore : SMap Word
  err : Bool
  /-- Teams named by the last SWITCH that have neither been saved since nor ended (R475). -/
  switched : List Nat
  deriving DecidableEq, Repr

/-- Every partition at power-up (R475; log 6 for the block of R470). -/
def Partition.init : Partition :=
  { pint := 0, pintm := 0, pvec := 0, fqbase := 0, fqlog2 := 4, fqwptr := 0, fqrptr := 0, freply := 0,
    outstanding := [], waiting := [], pflr := 0, floor16 := 0, short := false, pque := 0, pctr := 0,
    saveBase := 0, saveSize := 0, winBase := [], winSize := [], pcore := [], err := false, switched := [] }

/-- A translation that the runtime has installed (R220, R223; log 11), with the SVN of the bound object whose code it holds, if
any (R480). Partition 32 is the management cores'. -/
structure Page where
  part : Nat
  va : Nat
  size : Nat
  pa : Nat
  read : Bool
  write : Bool
  exec : Bool
  svn : Option Nat
  deriving DecidableEq, Repr

/-- A message that leaves the part. -/
inductive Message where
  /-- MSI-X vector of a virtual function, or of the physical function (R471, R474). -/
  | msix (func : Option Nat) (vec : Nat)
  /-- Attestation report (R483). -/
  | report (bytes : List Byte)
  /-- Data that a host or peer read returned (R274). -/
  | data (bytes : List Byte)
  /-- A register read of the host (R470). -/
  | reg (v : Word)
  deriving DecidableEq, Repr

/-- The host's package-wide registers and firmware state (R452, R474, R481). -/
structure HostRegs where
  pcap : BitVec 16
  f0 : Nat
  budget : Nat
  capLow : Bool
  pevt : BitVec 5
  osvn : Nat
  fsvn : Nat
  fwstat : BitVec 3
  hbeat : Word
  /-- %gtime of the last heartbeat or load (R482). -/
  hbeatAt : Nat
  fwSvn : Nat
  measurement : List Byte
  /-- Peers whose every port is down (R477). -/
  down : List Nat
  messages : List Message
  /-- Partition served last (R404). -/
  served : Nat
  measuredAt : Nat
  sampledAt : Nat
  deriving DecidableEq, Repr

/-! ## Memory, dies, clusters, cores -/

/-- A store to peer memory: the team and the warp that made it, the class of the engine or 0, its physical address (R477). -/
structure PeerStore where
  team : Nat
  warp : Nat
  cls : Nat
  pa : Nat
  deriving DecidableEq, Repr

/-- A line of a die cache: data, valid and dirty bytes, poison (R257). -/
structure CLine where
  data : BitVec 512
  valid : BitVec 64
  dirty : BitVec 64
  poison : Bool
  /-- The poison bit was changed here and is not written back. -/
  pdirty : Bool
  /-- Writes that its home has taken since the copy was fetched: the die they came from, 4 from elsewhere, with the number of
  the first (R261; log 71). -/
  missed : List (Nat × Nat)
  /-- The stores to peer memory that its dirty bytes hold (R477). -/
  stores : List PeerStore
  /-- What happens before the home writes that the copy holds, as `State.tags` had it when bytes were fetched (R262; log 71). -/
  tag : List Nat
  deriving DecidableEq, Repr

/-- A die: registers of R451, its cache and its management core's condition. -/
structure Die where
  /-- Enabled cluster sites, in row-major order (R12, R13). -/
  sites : List Nat
  qclk : List Nat
  wbit : BitVec 5
  tripm : BitVec 12
  thev : BitVec 48
  /-- Clusters whose THEV bit cannot be set again yet (R466). -/
  tripped : BitVec 48
  /-- MGFAULT, 40 bytes (R451). -/
  mgfault : List Byte
  wakeReg : Word
  mgRun : Bool
  /-- For each quadrant, the cycles of its clock up to a moment, and that moment in the units of `State.gu` (R458): the last
  step of the clock. -/
  qcyc : List (Nat × Nat)
  /-- %gtime of the last epoch boundary (R456). -/
  epochAt : Nat
  cache : SMap CLine
  /-- Writes that have reached home caches from this die, and for each die the number of its writes that happen before what
  the agents of this die do now (R262; log 71). -/
  wrote : Nat
  heard : List Nat
  /-- The same for what the die's plain accesses have observed, which its releases carry along (R262; log 71). -/
  seen : List Nat
  deriving DecidableEq, Repr

/-- A cached item of a KV translation buffer (R365). -/
inductive KvItem where
  /-- An entry's 16 bytes, at a physical address, with the origin word of its group: under a partition's descriptor address. -/
  | entry (part seq version index pa : Nat) (img : BitVec 128) (orig : Word)
  /-- Descriptor words 0x08 to 0x3F of the descriptor at a physical address. -/
  | words (part seq pa : Nat) (bytes : List Byte)
  deriving DecidableEq, Repr

/-- Retention latches of a cluster (R463). -/
structure Retention where
  owners : List (Option Nat)
  brkstop : List Bool
  trim : Word
  deriving DecidableEq, Repr

/-- Work of an engine that is debited cycle by cycle (R460): its weight in each cycle after `after` up to `last`. -/
structure EngineWork where
  after : Nat
  last : Nat
  weight : Nat
  deriving DecidableEq, Repr

/-- A cluster (R15, R450). -/
structure Cluster where
  req : Bool
  closed : Bool
  saved : Option Retention
  err : Bool
  /-- A save (true) or restore (false) in progress, since a %gtime. -/
  busy : Option (Bool × Nat)
  gate : Bool
  railOff : Bool
  ramp : Bool
  good : Bool
  ticks : BitVec 16
  wbit : BitVec 5
  arm : BitVec 3
  /-- %gtime of the WAKE write while the timer has not fired. -/
  wakeAt : Option Nat
  src : BitVec 3
  /-- Wake sources that have fired and are not latched yet, with the cycle of the die's management core (R465). -/
  firing : List (Nat × Nat)
  /-- Held teams for which DEMAND has fired since the WAKE write or the clock's stop: launch, the team where it is one to be
  restored, and the launch's next team (R465; log 74). -/
  asked : List (Nat × Option Nat × Nat)
  /-- Trim of the sensor (R463). -/
  trim : Word
  temp : BitVec 16
  hot : Bool
  /-- Allowance counter as of cycle cAt, and as it was at the start of that cycle (R459). -/
  c : Nat
  c0 : Nat
  cAt : Nat
  /-- Cycles before cAt in which each role was withheld (R411). -/
  held : List Nat
  /-- Work of engines that goes on after cAt (R460). -/
  work : List EngineWork
  refill : Nat
  share : Nat
  /-- 1/16 W lent and borrowed. -/
  lent : Nat
  borrowed : Nat
  gated : Bool
  /-- A recall in progress since a %gtime (R457). -/
  recallAt : Option Nat
  /-- C stayed at 65535, and the highest level seen, in this epoch (R456, R458). -/
  full : Bool
  level : Nat
  table : List Cmd
  /-- Commands that enter the table again and wait for a free entry (R321, R444). -/
  mxWait : List Cmd
  /-- First cycle at which the table takes a command (R321). -/
  mxTaken : Nat
  /-- Engine busy until this cycle. -/
  mxFree : Nat
  /-- The MXLOOP whose pass is not over, and the K-steps of it that are left (R323). -/
  mxPass : Option (Nat × Nat)
  /-- Bank b, logical slice q at index 4 b + q. -/
  banks : SMap BankSlice
  kvtb : List KvItem
  /-- Second-level translation buffer (R15). -/
  tlb : List Page
  deriving DecidableEq, Repr

/-- Every cluster at reset (R450): the counter reads 0, and no role is withheld in the first cycle, as LEVEL reads 0
(log 37). -/
def Cluster.init : Cluster :=
  { req := false, closed := false, saved := none, err := false, busy := none, gate := false, railOff := false,
    ramp := false, good := true, ticks := 0, wbit := 0, arm := 0, wakeAt := none, src := 0, firing := [], asked := [],
    trim := 0, temp := 0,
    hot := false, c := 0, c0 := 65535, cAt := 0, held := [0, 0, 0, 0], work := [], refill := 0, share := 0, lent := 0, borrowed := 0,
    gated := false, recallAt := none, full := false, level := 0,
    table := [], mxWait := [], mxTaken := 0, mxFree := 0, mxPass := none, banks := [], kvtb := [],
    tlb := [] }

/-- A core (R16, R130, R428). -/
structure Core where
  brkstop : Bool
  fatal : Bool
  snap : Bool
  /-- Vector pipe and special-function unit of each scheduler, busy until this cycle. -/
  pipeFree : SMap Nat
  sfuFree : SMap Nat
  /-- First cycle at which each scheduler may issue (R74). -/
  schedFree : SMap Nat
  /-- First cycle at which each shared unit takes a request, and the scheduler that it granted last (R18): 0 the load-store
  path, 1 the transform pipe, 2 the copy engine, 3 the tile barriers, 4 the matrix quarter. -/
  unitFree : SMap Nat
  granted : SMap Nat
  /-- Loop buffer of each scheduler (R16). -/
  loopBuf : SMap LoopBuf
  /-- Row banks that are awake (R189). -/
  awake : BitVec 32
  icache : SMap (BitVec 512)
  order : List StoreEntry
  /-- First cycle at which the copy engine moves bytes again (R299). -/
  cpFree : Nat
  cpQ : List Cmd
  xfQ : List Cmd
  kvQ : List Cmd
  rpQ : List Cmd
  svKind : BitVec 3
  svSlot : BitVec 4
  /-- The team of its MIGRATE request, while GO reads 1 (R428). -/
  svTeam : Option Nat
  svFail : Bool
  svTarget : BitVec 16
  deriving DecidableEq, Repr

/-- Every core at reset (log 6 for SVREQ; every row bank awake, log 37). -/
def Core.init : Core :=
  { brkstop := false, fatal := false, snap := false, pipeFree := [], sfuFree := [], schedFree := [], unitFree := [],
    granted := [], loopBuf := [], awake := BitVec.allOnes 32, icache := [], order := [],
    cpFree := 0, cpQ := [], xfQ := [], kvQ := [], rpQ := [],
    svKind := 0, svSlot := 0, svTeam := none, svFail := false, svTarget := 0 }

/-- Every die at reset: cluster sites 0-47 enabled (log 1), 2.1 GHz (log 7), TRIPM 95.0 degrees (R451). -/
def Die.init : Die :=
  { sites := List.range 48, qclk := [21, 21, 21, 21], wbit := 0, tripm := 1520#12, thev := 0, tripped := 0,
    mgfault := List.replicate 40 0#8, wakeReg := 0, mgRun := false,
    qcyc := [(0, 0), (0, 0), (0, 0), (0, 0)], epochAt := 0, cache := [], wrote := 0,
    heard := [0, 0, 0, 0], seen := [0, 0, 0, 0] }

/-! ## The whole machine -/

/-- One turn of the model's agenda (log 3). -/
inductive Turn where
  /-- The scheduler of warp `wid` picks gang `g`. -/
  | issue (wid g : Nat)
  /-- An event of the part or of the outside world. -/
  | event (i : Instr)
  /-- A number of cycles pass. -/
  | idle (cycles : Nat)
  /-- The oldest entry of a warp's store queue enters the core order. -/
  | drain (wid : Nat)
  /-- The warp fetches the instruction at an address ahead of its PC (R34, R116). -/
  | fetchAhead (wid : Nat) (addr : DWord)
  /-- The scheduler of warp `wid` takes the body of the loop that gang g runs into its loop buffer, and the gang runs from
  it (R116). -/
  | fillLoop (wid g : Nat)
  /-- Gang g runs its loop from the loop buffer of its scheduler, which holds its body (R116). -/
  | useLoop (wid g : Nat)
  /-- The instruction cache of a core (or of management core `core - 768`) gives up a line (R250). -/
  | evictCode (core line : Nat)
  /-- The runtime installs a translation (log 11). -/
  | mapPage (p : Page)
  /-- The second-level translation buffer of a cluster takes the page of a partition that holds an address, or gives up its
  k-th entry (R15). -/
  | walk (cl part : Nat) (va : DWord)
  | evictPage (cl k : Nat)
  /-- Firmware sets the trim of a cluster's sensor (R463). -/
  | trimSensor (cl : Nat) (v : Word)
  /-- The primary management core writes its heartbeat (R474, R482). -/
  | heartbeat (v : Word)
  /-- The load-store path makes the invalidation of the acquire at which gang g of warp `wid` stands, ahead of its read
  (R261; log 71). -/
  | openAcquire (wid g : Nat)
  deriving DecidableEq, Repr

/-- The instruction being executed: its warp, gang, address, word and length in bytes. -/
structure Cur where
  wid : Nat
  g : Nat
  pc : DWord
  word : Word
  len : Nat
  deriving DecidableEq, Repr

/-- The machine. Warp `64 c + s` stands in slot s of core c; warp `49152 + d` is the management core of die d.
Cluster `48 d + n` is cluster n of die d; core `192 d + k` is core k of die d. -/
structure State where
  warps : SMap Warp
  teams : SMap Team
  launches : SMap Launch
  crews : List Crew
  counters : SMap Counter
  queues : SMap Queue
  parts : SMap Partition
  cores : SMap Core
  clusters : SMap Cluster
  dies : SMap Die
  host : HostRegs
  pages : List Page
  /-- Home memory, by physical address, in canonical form. -/
  mem : List Host.Cell
  /-- Poisoned lines of home memory, ascending. -/
  poison : List Nat
  /-- For each line written at its home, the writes of each die that happen before an access that acquires it (R262; log 71). -/
  tags : SMap (List Nat)
  /-- %gtime in units of 1/1062600 ns: real time, from which every clock's cycles follow (log 5). -/
  gu : Nat
  cur : Cur
  agenda : List Turn
  /-- Next number of a result, store, command, team, launch and placement. -/
  fresh : Nat
  deriving DecidableEq, Repr

/-- The host registers at power-up (logs 6 and 7). -/
def HostRegs.init : HostRegs :=
  { pcap := 2200, f0 := 340, budget := 2200, capLow := false, pevt := 0, osvn := 0, fsvn := 0, fwstat := 0,
    hbeat := 0, hbeatAt := 0, fwSvn := 0, measurement := List.replicate 32 0, down := [],
    messages := [], served := 31, measuredAt := 0, sampledAt := 0 }

/-- The machine right after power-up: every counter complete with GEN 0 (R394), every partition block and cluster
register at its reset value (R450, R475), nothing granted, the management cores in reset (R481), memory with
nothing listed. -/
def State.reset : State :=
  { warps := [], teams := [], launches := [], crews := [], counters := [], queues := [], parts := [],
    cores := [], clusters := [], dies := [], host := HostRegs.init, pages := [], mem := [], poison := [], tags := [],
    gu := 0, cur := { wid := 0, g := 0, pc := 0, word := 0, len := 4 },
    agenda := [], fresh := 1 }

end Sys2Proof.Machine
end

