-- ==== Sys2Proof/Machine/Float.lean ====
section
/-! DEFINITION. The floating-point formats and operations of spec/08, on natural numbers: exact values rounded
once, with the exceptions each operation raises. -/

namespace Sys2Proof.Machine

/-- A format of R193: exponent and fraction widths, and whether it is E4M3, which has no infinity. -/
structure FFmt where
  eb : Nat
  mb : Nat
  e4m3 : Bool
  deriving DecidableEq, Repr

namespace FFmt
def f64 : FFmt := ⟨11, 52, false⟩
def f32 : FFmt := ⟨8, 23, false⟩
def f16 : FFmt := ⟨5, 10, false⟩
def bf16 : FFmt := ⟨8, 7, false⟩
def e4m3fn : FFmt := ⟨4, 3, true⟩
def e5m2 : FFmt := ⟨5, 2, false⟩

def bias (f : FFmt) : Nat := 2 ^ (f.eb - 1) - 1
/-- Exponent of the smallest normal number. -/
def emin (f : FFmt) : Int := 1 - (f.bias : Int)
/-- Exponent of the largest finite number. -/
def emax (f : FFmt) : Int := if f.e4m3 then f.bias + 1 else f.bias
/-- Significand of the largest finite number, with the fraction's weight. -/
def maxSig (f : FFmt) : Nat := if f.e4m3 then 2 ^ (f.mb + 1) - 2 else 2 ^ (f.mb + 1) - 1
def signBit (f : FFmt) : Nat := 2 ^ (f.eb + f.mb)
/-- Bits of +∞ (the NaN pattern region of E4M3 has none). -/
def infBits (f : FFmt) : Nat := (2 ^ f.eb - 1) * 2 ^ f.mb
/-- Bits of the largest finite number. -/
def maxBits (f : FFmt) : Nat := if f.e4m3 then f.infBits + 2 ^ f.mb - 2 else f.infBits - 1
end FFmt

/-- A decoded value. -/
inductive FVal where
  /-- A NaN: sign, quiet, payload (R194). -/
  | nan (s q : Bool) (pay : Nat)
  | inf (s : Bool)
  /-- ±m × 2^e. -/
  | fin (s : Bool) (m : Nat) (e : Int)
  deriving DecidableEq, Repr

/-- The exceptions of an operation, in the order of FMT.TEN: invalid, divide by zero, overflow, underflow,
inexact (R67, R202). -/
abbrev FExc := BitVec 5

namespace FExc
def none : FExc := 0
def invalid : FExc := 1
def divZero : FExc := 2
def overflow : FExc := 4
def underflow : FExc := 8
def inexact : FExc := 16
end FExc

/-- The fields of FMT that govern arithmetic (R67, R196). -/
structure FEnv where
  /-- 0 RNE, 1 RTZ, 2 RDN, 3 RUP. -/
  rnd : Nat
  dni : Bool
  dno : Bool
  nanl : Bool
  f8sat : Bool
  deriving DecidableEq, Repr

/-- Every field 0: RNE, no flushing, NANL 0. -/
def FEnv.zero : FEnv := ⟨0, false, false, false, false⟩

/-- The environment that FMT gives (R67). -/
def FEnv.ofFmt (f : BitVec 17) : FEnv :=
  ⟨(f.extractLsb' 0 2).toNat, f.getLsbD 2, f.getLsbD 3, f.getLsbD 4, f.getLsbD 10⟩

/-- The exceptions that FMT enables (R67). -/
def tenOf (f : BitVec 17) : FExc := f.extractLsb' 5 5

/-- A result: its bits and the exceptions raised. -/
abbrev FRes := Nat × FExc

/-- The value of a bit pattern (R193, R194). -/
def fdecode (f : FFmt) (n : Nat) : FVal :=
  let s := decide (n / f.signBit % 2 = 1)
  let ex := n / 2 ^ f.mb % 2 ^ f.eb
  let fr := n % 2 ^ f.mb
  if f.e4m3 ∧ ex = 2 ^ f.eb - 1 ∧ fr = 2 ^ f.mb - 1 then .nan s true 0
  else if ¬ f.e4m3 ∧ ex = 2 ^ f.eb - 1 then
    if fr = 0 then .inf s
    else .nan s (decide (2 ^ (f.mb - 1) ≤ fr)) (fr % 2 ^ (f.mb - 1))
  else if ex = 0 then .fin s fr (f.emin - f.mb)
  else .fin s (fr + 2 ^ f.mb) ((ex : Int) - f.bias - f.mb)

/-- Is the pattern a denormal (R193)? -/
def isDenormal (f : FFmt) (n : Nat) : Bool :=
  decide (n / 2 ^ f.mb % 2 ^ f.eb = 0 ∧ n % 2 ^ f.mb ≠ 0)

/-- An input under DNI: a denormal reads as a zero of the same sign (R198). -/
def fin (f : FFmt) (dni : Bool) (n : Nat) : FVal :=
  if dni && isDenormal f n then .fin (decide (n / f.signBit % 2 = 1)) 0 0 else fdecode f n

def signOf (f : FFmt) (s : Bool) : Nat := if s then f.signBit else 0
def fzero (f : FFmt) (s : Bool) : Nat := signOf f s
/-- ±∞, or the E4M3 NaN of that sign where E4M3 has no infinity (R197). -/
def finfOr (f : FFmt) (s : Bool) : Nat := signOf f s + (if f.e4m3 then 2 ^ (f.eb + f.mb) - 1 else f.infBits)

/-- The legacy canonical NaN of a format (R199). -/
def legacyNan (f : FFmt) : Nat := 2 ^ (f.eb + f.mb) - 1

/-- A quiet NaN of a sign and payload, before NANL. -/
def quietNan (f : FFmt) (s : Bool) (pay : Nat) : Nat :=
  if f.e4m3 then signOf f s + legacyNan f
  else signOf f s + f.infBits + 2 ^ (f.mb - 1) + pay % 2 ^ (f.mb - 1)

/-- The NaN that an invalid operation generates, with its cause (R200). E4M3 and E5M2 lose the cause. -/
def genNan (f : FFmt) (nanl : Bool) (cause : Nat) : Nat :=
  if nanl then legacyNan f else quietNan f false (if f.mb ≤ 3 then 0 else cause)

/-- The first NaN of a list of operands, quieted (R199), with invalid when any of them signals. -/
def nanResult (f : FFmt) (nanl : Bool) (vs : List FVal) : Option FRes :=
  let sig := vs.any fun v => match v with | .nan _ q _ => !q | _ => false
  match vs.find? (fun v => match v with | .nan _ _ _ => true | _ => false) with
  | some (.nan s _ pay) =>
    some (if nanl then legacyNan f else quietNan f s pay, if sig then FExc.invalid else FExc.none)
  | _ => none

/-- Is the part cut off rounded up? `half` compares it with half a unit, `low` says that it is not zero. -/
def roundsUp (rnd : Nat) (s odd : Bool) (half : Ordering) (low : Bool) : Bool :=
  match rnd with
  | 0 => match half with
    | .gt => true
    | .eq => odd
    | .lt => false
  | 1 => false
  | 2 => s && low
  | _ => !s && low

/-- m × 2^e, and a little more where `sticky`, rounded to a multiple of 2^q: the multiple, and whether it is
inexact. -/
def roundAt (rnd : Nat) (s : Bool) (m : Nat) (e q : Int) (sticky : Bool) : Nat × Bool :=
  if q ≤ e then (m * 2 ^ (e - q).toNat, sticky)
  else
    let d := (q - e).toNat
    let k := m / 2 ^ d
    let r := m % 2 ^ d
    let half := compare (2 * r) (2 ^ d)
    let half := if half == .eq && sticky then .gt else half
    let low := r != 0 || sticky
    (if roundsUp rnd s (k % 2 == 1) half low then k + 1 else k, low)

/-- The bits of k × 2^q, a value that the format holds. -/
def packAt (f : FFmt) (s : Bool) (k : Nat) (q : Int) : Nat :=
  if k < 2 ^ f.mb then signOf f s + k
  else
    let (k, q) := if k = 2 ^ (f.mb + 1) then (2 ^ f.mb, q + 1) else (k, q)
    signOf f s + (q + f.mb + f.bias).toNat * 2 ^ f.mb + (k - 2 ^ f.mb)

/-- The result of an overflow (R197). -/
def overflowed (f : FFmt) (rnd : Nat) (s : Bool) : Nat :=
  let toInf := match rnd with
    | 0 => true
    | 1 => false
    | 2 => s
    | _ => !s
  if toInf then finfOr f s else signOf f s + f.maxBits

/-- A nonzero exact value rounded once to the format (R197, R198): ±m × 2^e, a little more where `sticky`. -/
def roundTo (f : FFmt) (env : FEnv) (s : Bool) (m : Nat) (e : Int) (sticky : Bool) : FRes :=
  let top := e + m.log2
  if f.emax + 1 < top then (overflowed f env.rnd s, FExc.overflow ||| FExc.inexact)
  else
    -- far below the smallest denormal, only the direction of the rounding matters
    let far := decide (top < f.emin - f.mb - 2)
    let m := if far then 1 else m
    let e := if far then f.emin - f.mb - 3 else e
    let top := if far then e else top
    let q := max (top - f.mb) (f.emin - f.mb)
    let (k, ix) := roundAt env.rnd s m e q sticky
    let (k1, _) := roundAt env.rnd s m e (top - f.mb) sticky
    let tiny := decide (top < f.emin - 1) || (decide (top = f.emin - 1) && decide (k1 < 2 ^ (f.mb + 1)))
    if tiny then
      if env.dno then (fzero f s, FExc.underflow ||| FExc.inexact)
      else (packAt f s k q, if ix then FExc.underflow ||| FExc.inexact else FExc.none)
    else if f.emax < q + f.mb ∨ (q + f.mb = f.emax ∧ f.maxSig < k) then
      (overflowed f env.rnd s, FExc.overflow ||| FExc.inexact)
    else (packAt f s k q, if ix then FExc.inexact else FExc.none)

/-- An exact signed sum n × 2^e rounded once; `zs` is the sign of an exact zero. -/
def roundInt (f : FFmt) (env : FEnv) (n : Int) (e : Int) (zs : Bool) : FRes :=
  if n = 0 then (fzero f zs, FExc.none) else roundTo f env (decide (n < 0)) n.natAbs e false

/-- The signed significand of a finite value at exponent `e`, which is not above its own. -/
def sigAt (s : Bool) (m : Nat) (e0 e : Int) : Int :=
  let k : Int := (m * 2 ^ (e0 - e).toNat : Nat)
  if s then -k else k

/-- The sum of two finite values (R197). -/
def addFin (f : FFmt) (env : FEnv) (sa : Bool) (ma : Nat) (ea : Int) (sb : Bool) (mb : Nat) (eb : Int) : FRes :=
  if ma = 0 ∧ mb = 0 then (fzero f (if sa = sb then sa else env.rnd == 2), FExc.none)
  else if mb = 0 then roundTo f env sa ma ea false
  else if ma = 0 then roundTo f env sb mb eb false
  else
    let e := min ea eb
    roundInt f env (sigAt sa ma ea e + sigAt sb mb eb e) e (env.rnd == 2)

/-- The sum of two values that are not NaN: ∞ − ∞ is cause 3 (R200). -/
def addVal (f : FFmt) (env : FEnv) : FVal → FVal → FRes
  | .inf sa, .inf sb => if sa = sb then (signOf f sa + f.infBits, FExc.none) else (genNan f env.nanl 3, FExc.invalid)
  | .inf s, _ => (signOf f s + f.infBits, FExc.none)
  | _, .inf s => (signOf f s + f.infBits, FExc.none)
  | .fin sa ma ea, .fin sb mb eb => addFin f env sa ma ea sb mb eb
  | _, _ => (0, FExc.none)

def FVal.neg : FVal → FVal
  | .nan s q p => .nan (!s) q p
  | .inf s => .inf (!s)
  | .fin s m e => .fin (!s) m e

def FVal.isNan : FVal → Bool
  | .nan _ _ _ => true
  | _ => false

/-- Addition (R207). -/
def fadd (f : FFmt) (env : FEnv) (a b : Nat) : FRes :=
  let x := fin f env.dni a
  let y := fin f env.dni b
  (nanResult f env.nanl [x, y]).getD (addVal f env x y)

/-- Subtraction (R207). -/
def fsub (f : FFmt) (env : FEnv) (a b : Nat) : FRes :=
  let x := fin f env.dni a
  let y := fin f env.dni b
  (nanResult f env.nanl [x, y]).getD (addVal f env x y.neg)

/-- The exact product of two values that are not NaN; none for 0 × ∞. -/
def mulVal : FVal → FVal → Option FVal
  | .inf sa, .inf sb => some (.inf (sa ^^ sb))
  | .inf sa, .fin sb m _ => if m = 0 then none else some (.inf (sa ^^ sb))
  | .fin sa m _, .inf sb => if m = 0 then none else some (.inf (sa ^^ sb))
  | .fin sa ma ea, .fin sb mb eb => some (.fin (sa ^^ sb) (ma * mb) (ea + eb))
  | x, _ => some x

/-- A value that is not NaN, rounded once. -/
def roundVal (f : FFmt) (env : FEnv) : FVal → FRes
  | .inf s => (signOf f s + f.infBits, FExc.none)
  | .fin s m e => if m = 0 then (fzero f s, FExc.none) else roundTo f env s m e false
  | .nan s _ p => (quietNan f s p, FExc.none)

/-- Multiplication (R207). -/
def fmul (f : FFmt) (env : FEnv) (a b : Nat) : FRes :=
  let x := fin f env.dni a
  let y := fin f env.dni b
  (nanResult f env.nanl [x, y]).getD <|
    match mulVal x y with
    | none => (genNan f env.nanl 4, FExc.invalid)
    | some p => roundVal f env p

/-- Fused multiply-add a × b + d, rounded once (R207). 0 × ∞ with a quiet NaN in d gives d and invalid. -/
def ffma (f : FFmt) (env : FEnv) (a b d : Nat) : FRes :=
  let x := fin f env.dni a
  let y := fin f env.dni b
  let z := fin f env.dni d
  let zeroInf := !x.isNan && !y.isNan && (mulVal x y).isNone
  match nanResult f env.nanl [x, y, z] with
  | some (r, e) => (r, if zeroInf then e ||| FExc.invalid else e)
  | none =>
    match mulVal x y with
    | none => (genNan f env.nanl 4, FExc.invalid)
    | some p => addVal f env p z

/-- Division (R207). -/
def fdiv (f : FFmt) (env : FEnv) (a b : Nat) : FRes :=
  let x := fin f env.dni a
  let y := fin f env.dni b
  (nanResult f env.nanl [x, y]).getD <|
    match x, y with
    | .inf _, .inf _ => (genNan f env.nanl 6, FExc.invalid)
    | .inf sa, .fin sb _ _ => (signOf f (sa ^^ sb) + f.infBits, FExc.none)
    | .fin sa _ _, .inf sb => (fzero f (sa ^^ sb), FExc.none)
    | .fin sa ma ea, .fin sb mb eb =>
      if mb = 0 then
        if ma = 0 then (genNan f env.nanl 6, FExc.invalid)
        else (signOf f (sa ^^ sb) + f.infBits, FExc.divZero)
      else if ma = 0 then (fzero f (sa ^^ sb), FExc.none)
      else
        let k := f.mb + 4 + mb.log2
        let n := ma * 2 ^ k
        roundTo f env (sa ^^ sb) (n / mb) (ea - eb - k) (n % mb != 0)
    | _, _ => (0, FExc.none)

/-- Integer square root by bits: the largest r below 2^k, with the bits of `r` above k fixed, whose square is at
most n. -/
def isqrtBits (n : Nat) : Nat → Nat → Nat
  | 0, r => r
  | k + 1, r => isqrtBits n k (if (r + 2 ^ k) * (r + 2 ^ k) ≤ n then r + 2 ^ k else r)

/-- Integer square root. -/
def isqrt (n : Nat) : Nat := isqrtBits n (n.log2 / 2 + 1) 0

/-- Square root (R207). -/
def fsqrt (f : FFmt) (env : FEnv) (a : Nat) : FRes :=
  let x := fin f env.dni a
  (nanResult f env.nanl [x]).getD <|
    match x with
    | .inf s => if s then (genNan f env.nanl 6, FExc.invalid) else (f.infBits, FExc.none)
    | .fin s m e =>
      if m = 0 then (fzero f s, FExc.none)
      else if s then (genNan f env.nanl 6, FExc.invalid)
      else
        let k : Nat := 2 * (f.mb + 4)
        let j : Nat := if (e - k) % 2 = 0 then k else k + 1
        let n := m * 2 ^ j
        let r := isqrt n
        roundTo f env false r ((e - j) / 2) (r * r != n)
    | _ => (0, FExc.none)

/-- Compare two values that are not NaN, −0 equal to +0. -/
def cmpVal : FVal → FVal → Ordering
  | .inf sa, .inf sb => if sa = sb then .eq else if sa then .lt else .gt
  | .inf s, _ => if s then .lt else .gt
  | _, .inf s => if s then .gt else .lt
  | .fin sa ma ea, .fin sb mb eb =>
    let e := min ea eb
    compare (sigAt sa ma ea e) (sigAt sb mb eb e)
  | _, _ => .eq

/-- The bits of an input under DNI. -/
def inBits (f : FFmt) (dni : Bool) (n : Nat) : Nat :=
  if dni && isDenormal f n then n / f.signBit % 2 * f.signBit else n

/-- FMIN, or FMAX when `isMax` (R208): −0 below +0, a number beats a NaN, only a signalling NaN is invalid. -/
def fminmax (f : FFmt) (env : FEnv) (isMax : Bool) (a b : Nat) : FRes :=
  let a := inBits f env.dni a
  let b := inBits f env.dni b
  let x := fdecode f a
  let y := fdecode f b
  let sig := [x, y].any fun v => match v with | .nan _ q _ => !q | _ => false
  let e := if sig then FExc.invalid else FExc.none
  if x.isNan && y.isNan then (nanResult f env.nanl [x, y]).getD (0, FExc.none)
  else if x.isNan then (b, e)
  else if y.isNan then (a, e)
  else
    let o := cmpVal x y
    -- of two equal values only the zeros differ in their bits
    let aLess := o == .lt || (o == .eq && a / f.signBit % 2 == 1)
    (if aLess ^^ isMax then a else b, FExc.none)

/-- FSCALE: a × 2^n, rounded once (R210). -/
def fscale (f : FFmt) (env : FEnv) (a : Nat) (n : Int) : FRes :=
  let x := fin f env.dni a
  (nanResult f env.nanl [x]).getD <|
    match x with
    | .fin s m e => if m = 0 then (fzero f s, FExc.none) else roundTo f env s m (e + n) false
    | v => roundVal f env v

/-- FRND: to an integral value, by the mode, never inexact (R211). -/
def frnd (f : FFmt) (env : FEnv) (rnd : Nat) (a : Nat) : FRes :=
  let x := fin f env.dni a
  (nanResult f env.nanl [x]).getD <|
    match x with
    | .fin s m e =>
      if m = 0 then (fzero f s, FExc.none)
      else if 0 ≤ e then (a, FExc.none)
      else
        let far := decide (e + m.log2 < -2)
        let (k, _) := if far then roundAt rnd s 1 (-3) 0 false else roundAt rnd s m e 0 false
        if k = 0 then (fzero f s, FExc.none) else ((roundTo f FEnv.zero s k 0 false).1, FExc.none)
    | v => roundVal f env v

/-- FCLASS (R209): the number of the bit that is set. -/
def fclass (f : FFmt) (a : Nat) : Nat :=
  match fdecode f a with
  | .nan _ q _ => if q then 1 else 0
  | .inf s => if s then 2 else 9
  | .fin s m _ =>
    if m = 0 then (if s then 5 else 6)
    else if isDenormal f a then (if s then 4 else 7)
    else (if s then 3 else 8)

/-- FCMP (R215): the condition and the exceptions. -/
def fcmp (f : FFmt) (dni : Bool) (cond : Nat) (a b : Nat) : Bool × FExc :=
  let x := fin f dni a
  let y := fin f dni b
  let sig := [x, y].any fun v => match v with | .nan _ q _ => !q | _ => false
  let un := x.isNan || y.isNan
  let quiet := cond = 0 ∨ cond = 1 ∨ cond = 6 ∨ cond = 7
  let e := if quiet then (if sig then FExc.invalid else FExc.none) else (if un then FExc.invalid else FExc.none)
  let o := cmpVal x y
  let c := match cond with
    | 0 => !un && o == .eq
    | 1 => un || o != .eq
    | 2 => !un && o == .lt
    | 3 => !un && o != .gt
    | 4 => !un && o == .gt
    | 5 => !un && o != .lt
    | 6 => un
    | _ => !un
  (c, e)

/-- A NaN carried from one format to another (R201). -/
def carryNan (src dst : FFmt) (nanl : Bool) (s q : Bool) (pay : Nat) : FRes :=
  let p := if dst.mb ≤ 3 ∨ src.mb ≤ 3 then 0 else pay
  (if nanl then legacyNan dst else quietNan dst s p, if q then FExc.none else FExc.invalid)

/-- A finite value, not zero, to a float format with the F8SAT rule (R217). -/
def roundSat (dst : FFmt) (env : FEnv) (s : Bool) (m : Nat) (e : Int) : FRes :=
  let sat := env.f8sat && decide (dst.mb ≤ 3)
  let r := roundTo dst env s m e false
  let r := if r.2 &&& FExc.overflow ≠ 0 then
    (if sat then (signOf dst s + dst.maxBits, FExc.inexact) else r) else r
  -- an overflow that gives the NaN of E4M3 obeys NANL
  if env.nanl ∧ (fdecode dst r.1).isNan then (legacyNan dst, r.2) else r

/-- Float to float (R217). -/
def cvtFF (src dst : FFmt) (env : FEnv) (n : Nat) : FRes :=
  match fin src env.dni n with
  | .nan s q pay => carryNan src dst env.nanl s q pay
  | .inf s =>
    if dst.e4m3 then
      if env.f8sat then (signOf dst s + dst.maxBits, FExc.none)
      else (if env.nanl then legacyNan dst else signOf dst s + legacyNan dst, FExc.invalid)
    else (signOf dst s + dst.infBits, FExc.none)
  | .fin s m e => if m = 0 then (fzero dst s, FExc.none) else roundSat dst env s m e

/-- An integer to a float (R217). -/
def cvtIF (dst : FFmt) (env : FEnv) (v : Int) : FRes :=
  if v = 0 then (fzero dst false, FExc.none) else roundSat dst env (decide (v < 0)) v.natAbs 0

/-- Clamp an integer to a range: invalid when it lies outside (R217). -/
def clampInt (lo hi v : Int) (e : FExc) : Int × FExc :=
  if v < lo then (lo, FExc.invalid) else if hi < v then (hi, FExc.invalid) else (v, e)

/-- Float to S32 or N32 (R217): the integer and the exceptions. -/
def cvtFI (src : FFmt) (env : FEnv) (lo hi : Int) (n : Nat) : Int × FExc :=
  match fin src env.dni n with
  | .nan _ _ _ => (0, FExc.invalid)
  | .inf s => (if s then lo else hi, FExc.invalid)
  | .fin s m e =>
    if m = 0 then (0, FExc.none)
    else if (40 : Int) < e + m.log2 then (if s then lo else hi, FExc.invalid)
    else
      let far := decide (e + m.log2 < -2)
      let (k, ix) := if far then roundAt env.rnd s 1 (-3) 0 false else roundAt env.rnd s m e 0 false
      clampInt lo hi (if s then -(k : Int) else k) (if ix then FExc.inexact else FExc.none)

end Sys2Proof.Machine
end

