-- ==== Sys2Proof/WellFormed.lean ====
section
/-! DEFINITION. The operand rules of R45, R46 and R47 that a word must meet beside its fixed bits. -/

namespace Sys2Proof

/-- The rule that a field breaks (R45, R46, R47). -/
inductive FieldError where
  /-- A field that names a register pair holds an odd number. -/
  | oddPair
  /-- A block of registers does not lie within w0-w63, or a quad is not a multiple of 4. -/
  | block
  /-- A field that names a base register is above 15. -/
  | baseRegister
  /-- A field that names a predicate is above 7. -/
  | predicate
  /-- A selector, part, mode, function or count field holds an unassigned value. -/
  | selector
  /-- A combine value of CMP or FCMP is above 2. -/
  | combine
  /-- END of LOOP is below 2. -/
  | loopEnd
  /-- SZ is above 4. -/
  | size
  /-- S is 1 with a size of 32 bits or more. -/
  | signExtend
  /-- ORD 01 in a 128-bit ST. -/
  | order
  /-- CI is not zero while RM is 0. -/
  | quarter
  /-- Source and destination types of FCVT are equal. -/
  | conversion
  /-- A part of FCVT is out of range. -/
  | part
  /-- A scope code of FENCE is above 4. -/
  | scope
  /-- A tile barrier field is out of range. -/
  | barrier
  /-- A guard slot is not 1-7. -/
  | guard
  /-- A field that must be zero is not. -/
  | mustBeZero
  deriving DecidableEq, Repr

/-- The first error of a list of checks, each a broken rule and its name. -/
def firstError : List (Bool × FieldError) → Option FieldError
  | [] => none
  | (bad, e) :: rest => if bad then some e else firstError rest

/-- How many data registers an access of size code `z` uses: 1, a pair or a quad (R226). -/
def dataRegs (z : BitVec 3) : Nat := if z = 4 then 4 else if z = 3 then 2 else 1

/-- The width in bits of an FCVT type code (R47). -/
def fcvtBits (t : BitVec 3) : Nat :=
  if t = 1 then 64 else if t = 2 ∨ t = 3 then 16 else if t = 4 ∨ t = 5 then 8 else 32

/-- How many parts an FCVT from `x` to `t` may name: by its narrow side (R47, R217). -/
def fcvtParts (x t : BitVec 3) : Nat :=
  let n := min (fcvtBits x) (fcvtBits t)
  if n = 8 then 4 else if n = 16 then 2 else 1

/-- The rule of R45-R47 that the operands of an instruction break, if any. -/
def Instr.fieldError : Instr → Option FieldError
  | .nop _ => none
  | .exit _ => none
  | .join _ => none
  | .loopx _ => none
  | .isync _ => none
  | .ret _ a => firstError [(decide (15 < a.toNat), .baseRegister)]
  | .regang _ _ => none
  | .bra _ _ => none
  | .brc _ _ _ _ => none
  | .brcAny _ _ _ _ => none
  | .brcAll _ _ _ _ => none
  | .call _ _ => none
  | .split _ _ => none
  | .loopReg _ _ e => firstError [(decide (e.toNat < 2), .loopEnd)]
  | .loopImm _ _ e => firstError [(decide (e.toNat < 2), .loopEnd)]
  | .brx _ _ _ => none
  | .callx _ _ _ => none
  | .trapImm _ _ => none
  | .sysImm _ _ => none
  | .rtrap _ => none
  | .brk _ => none
  | .tinfo _ d b => firstError [(decide (9 < b.toNat), .selector), (decide ((b = 2 ∨ b = 4 ∨ b = 5 ∨ b = 6) ∧ d.toNat % 2 ≠ 0), .oddPair)]
  | .tset _ a => firstError [(decide (a.toNat % 2 ≠ 0), .oddPair)]
  | .tvec _ a => firstError [(decide (a.toNat % 2 ≠ 0), .oddPair)]
  | .tvecDl _ a => firstError [(decide (a.toNat % 2 ≠ 0), .oddPair)]
  | .getx _ _ _ b => firstError [(decide (4 < b.toNat), .selector)]
  | .setx _ _ _ b => firstError [(decide (b ≠ 0 ∧ b ≠ 4), .selector)]
  | .tmask _ _ _ => none
  | .signal _ _ _ => none
  | .wfe _ _ => none
  | .ckpt _ _ => none
  | .mov _ _ _ => none
  | .shqK _ _ _ => none
  | .shqB _ _ _ => none
  | .shqS _ _ _ => none
  | .shas _ _ b => firstError [(decide (2 < b.toNat), .selector)]
  | .shfU _ _ _ => none
  | .shfA _ _ _ => none
  | .shfV _ _ _ => none
  | .spr _ d b => firstError [(decide (b = 14 ∨ b = 15 ∨ 22 < b.toNat), .selector), (decide (16 ≤ b.toNat ∧ d.toNat % 2 ≠ 0), .oddPair)]
  | .partW _ _ => none
  | .roleW _ _ => none
  | .sfmt _ _ => none
  | .gfmt _ _ => none
  | .movbTo _ d a => firstError [(decide (15 < d.toNat), .baseRegister), (decide (a.toNat % 2 ≠ 0), .oddPair)]
  | .movbFrom _ d a => firstError [(decide (d.toNat % 2 ≠ 0), .oddPair), (decide (15 < a.toNat), .baseRegister)]
  | .widen _ d i => firstError [(decide (64 ≤ d.toNat + i.toNat.log2 ∧ i ≠ 0), .block)]
  | .movl _ _ _ => none
  | .movh _ _ _ => none
  | .addW _ _ _ _ => none
  | .subW _ _ _ _ => none
  | .mulW _ _ _ _ => none
  | .mulhS _ _ _ _ => none
  | .mulhN _ _ _ _ => none
  | .mad _ _ _ _ => none
  | .addsS _ _ _ _ => none
  | .addsN _ _ _ _ => none
  | .subsS _ _ _ _ => none
  | .subsN _ _ _ _ => none
  | .absd _ _ _ _ => none
  | .divS _ _ _ _ => none
  | .divN _ _ _ _ => none
  | .remS _ _ _ _ => none
  | .remN _ _ _ _ => none
  | .dp4 _ _ _ _ => none
  | .andW _ _ _ _ => none
  | .orW _ _ _ _ => none
  | .xorW _ _ _ _ => none
  | .andn _ _ _ _ => none
  | .shlW _ _ _ _ => none
  | .shrW _ _ _ _ => none
  | .sarW _ _ _ _ => none
  | .rotl _ _ _ _ => none
  | .minS _ _ _ _ => none
  | .maxS _ _ _ _ => none
  | .minN _ _ _ _ => none
  | .maxN _ _ _ _ => none
  | .clz _ _ _ => none
  | .popc _ _ _ => none
  | .brev _ _ _ => none
  | .absS _ _ _ => none
  | .bfeN _ _ _ _ => none
  | .bfeS _ _ _ _ => none
  | .bfi _ _ _ b => firstError [(decide (b.toNat % 2 ≠ 0), .oddPair)]
  | .prmt _ _ _ b => firstError [(decide (b.toNat % 2 ≠ 0), .oddPair)]
  | .add64 _ d a b => firstError [(decide (d.toNat % 2 ≠ 0), .oddPair), (decide (a.toNat % 2 ≠ 0), .oddPair), (decide (b.toNat % 2 ≠ 0), .oddPair)]
  | .sub64 _ d a b => firstError [(decide (d.toNat % 2 ≠ 0), .oddPair), (decide (a.toNat % 2 ≠ 0), .oddPair), (decide (b.toNat % 2 ≠ 0), .oddPair)]
  | .mulwS _ d _ _ => firstError [(decide (d.toNat % 2 ≠ 0), .oddPair)]
  | .mulwN _ d _ _ => firstError [(decide (d.toNat % 2 ≠ 0), .oddPair)]
  | .shl64 _ d a _ => firstError [(decide (d.toNat % 2 ≠ 0), .oddPair), (decide (a.toNat % 2 ≠ 0), .oddPair)]
  | .shr64 _ d a _ => firstError [(decide (d.toNat % 2 ≠ 0), .oddPair), (decide (a.toNat % 2 ≠ 0), .oddPair)]
  | .sar64 _ d a _ => firstError [(decide (d.toNat % 2 ≠ 0), .oddPair), (decide (a.toNat % 2 ≠ 0), .oddPair)]
  | .madwN _ d _ _ => firstError [(decide (d.toNat % 2 ≠ 0), .oddPair)]
  | .cmp _ _ m _ _ f => firstError [(decide (2 < m.toNat), .combine), (decide (9 < f.toNat), .selector)]
  | .sel _ _ _ _ _ _ => none
  | .pand _ d a b => firstError [(decide (7 < d.toNat), .predicate), (decide (7 < a.toNat), .predicate), (decide (7 < b.toNat), .predicate)]
  | .por _ d a b => firstError [(decide (7 < d.toNat), .predicate), (decide (7 < a.toNat), .predicate), (decide (7 < b.toNat), .predicate)]
  | .pxor _ d a b => firstError [(decide (7 < d.toNat), .predicate), (decide (7 < a.toNat), .predicate), (decide (7 < b.toNat), .predicate)]
  | .pandn _ d a b => firstError [(decide (7 < d.toNat), .predicate), (decide (7 < a.toNat), .predicate), (decide (7 < b.toNat), .predicate)]
  | .ptow _ _ a => firstError [(decide (7 < a.toNat), .predicate)]
  | .wtop _ d _ => firstError [(decide (7 < d.toNat), .predicate)]
  | .cmpi _ _ _ _ _ => none
  | .addi _ _ _ _ => none
  | .muli _ _ _ _ => none
  | .andi _ _ _ _ => none
  | .ori _ _ _ _ => none
  | .xori _ _ _ _ => none
  | .shli _ _ _ _ => none
  | .shri _ _ _ _ => none
  | .sari _ _ _ _ => none
  | .shfl _ _ _ _ _ => none
  | .shflImm _ _ _ _ _ => none
  | .voteAny _ _ _ => none
  | .voteAll _ _ _ => none
  | .voteBal _ d _ => firstError [(decide (d.toNat % 2 ≠ 0), .oddPair)]
  | .voteEq _ _ _ => none
  | .voteMatch _ d _ => firstError [(decide (d.toNat % 2 ≠ 0), .oddPair)]
  | .red _ d a f => firstError [(decide (12 < f.toNat), .selector), (decide ((f = 11 ∨ f = 12) ∧ (d.toNat % 2 ≠ 0 ∨ a.toNat % 2 ≠ 0)), .oddPair)]
  | .scan _ _ _ f => firstError [(decide (5 < f.toNat), .selector)]
  | .fadd _ _ _ _ => none
  | .fsub _ _ _ _ => none
  | .fmul _ _ _ _ => none
  | .ffma _ _ _ _ => none
  | .fmin _ _ _ _ => none
  | .fmax _ _ _ _ => none
  | .fabs _ _ _ => none
  | .fneg _ _ _ => none
  | .fdiv _ _ _ _ => none
  | .fsqrt _ _ _ => none
  | .fscale _ _ _ _ => none
  | .frnd _ _ _ b => firstError [(decide (4 < b.toNat), .selector)]
  | .fclass _ _ _ => none
  | .dadd _ d a b => firstError [(decide (d.toNat % 2 ≠ 0), .oddPair), (decide (a.toNat % 2 ≠ 0), .oddPair), (decide (b.toNat % 2 ≠ 0), .oddPair)]
  | .dsub _ d a b => firstError [(decide (d.toNat % 2 ≠ 0), .oddPair), (decide (a.toNat % 2 ≠ 0), .oddPair), (decide (b.toNat % 2 ≠ 0), .oddPair)]
  | .dmul _ d a b => firstError [(decide (d.toNat % 2 ≠ 0), .oddPair), (decide (a.toNat % 2 ≠ 0), .oddPair), (decide (b.toNat % 2 ≠ 0), .oddPair)]
  | .dfma _ d a b => firstError [(decide (d.toNat % 2 ≠ 0), .oddPair), (decide (a.toNat % 2 ≠ 0), .oddPair), (decide (b.toNat % 2 ≠ 0), .oddPair)]
  | .dmin _ d a b => firstError [(decide (d.toNat % 2 ≠ 0), .oddPair), (decide (a.toNat % 2 ≠ 0), .oddPair), (decide (b.toNat % 2 ≠ 0), .oddPair)]
  | .dmax _ d a b => firstError [(decide (d.toNat % 2 ≠ 0), .oddPair), (decide (a.toNat % 2 ≠ 0), .oddPair), (decide (b.toNat % 2 ≠ 0), .oddPair)]
  | .dabs _ d a => firstError [(decide (d.toNat % 2 ≠ 0), .oddPair), (decide (a.toNat % 2 ≠ 0), .oddPair)]
  | .dneg _ d a => firstError [(decide (d.toNat % 2 ≠ 0), .oddPair), (decide (a.toNat % 2 ≠ 0), .oddPair)]
  | .ddiv _ d a b => firstError [(decide (d.toNat % 2 ≠ 0), .oddPair), (decide (a.toNat % 2 ≠ 0), .oddPair), (decide (b.toNat % 2 ≠ 0), .oddPair)]
  | .dsqrt _ d a => firstError [(decide (d.toNat % 2 ≠ 0), .oddPair), (decide (a.toNat % 2 ≠ 0), .oddPair)]
  | .dscale _ d a _ => firstError [(decide (d.toNat % 2 ≠ 0), .oddPair), (decide (a.toNat % 2 ≠ 0), .oddPair)]
  | .drnd _ d a b => firstError [(decide (d.toNat % 2 ≠ 0), .oddPair), (decide (a.toNat % 2 ≠ 0), .oddPair), (decide (4 < b.toNat), .selector)]
  | .hadd2 _ _ _ _ _ => none
  | .hsub2 _ _ _ _ _ => none
  | .hmul2 _ _ _ _ _ => none
  | .hfma2 _ _ _ _ _ => none
  | .hmin2 _ _ _ _ _ => none
  | .hmax2 _ _ _ _ _ => none
  | .fcmp _ _ m a b _ w => firstError [(decide (2 < m.toNat), .combine), (decide (w = 1 ∧ (a.toNat % 2 ≠ 0 ∨ b.toNat % 2 ≠ 0)), .oddPair)]
  | .fcvt _ d a t x _ p => firstError [(decide (x = t), .conversion), (decide (¬ (p.toNat < fcvtParts x t)), .part), (decide (x = 1 ∧ a.toNat % 2 ≠ 0), .oddPair), (decide (t = 1 ∧ d.toNat % 2 ≠ 0), .oddPair)]
  | .frcp _ _ _ => none
  | .frsq _ _ _ => none
  | .fexp2 _ _ _ => none
  | .flog2 _ _ _ => none
  | .fsin _ _ _ => none
  | .fcos _ _ _ => none
  | .ftanh _ _ _ => none
  | .ld _ d _ _ z x _ => firstError [(decide (4 < z.toNat), .size), (decide (x = 1 ∧ 1 < z.toNat), .signExtend), (decide (d.toNat % dataRegs z ≠ 0), .block)]
  | .st _ d _ _ z r => firstError [(decide (4 < z.toNat), .size), (decide (r = 1 ∧ z = 4), .order), (decide (d.toNat % dataRegs z ≠ 0), .block)]
  | .ldsp _ d _ c m z x => firstError [(decide (4 < z.toNat), .size), (decide (x = 1 ∧ 1 < z.toNat), .signExtend), (decide (d.toNat % dataRegs z ≠ 0), .block), (decide (m = 0 ∧ c ≠ 0), .quarter)]
  | .stsp _ d _ c m z => firstError [(decide (m = 0 ∧ c ≠ 0), .quarter), (decide (4 < z.toNat), .size), (decide (d.toNat % dataRegs z ≠ 0), .block)]
  | .atom _ _ _ _ _ _ _ => none
  | .atomx _ d _ a p _ _ => firstError [(decide (p = 1 ∧ a.toNat % 2 ≠ 0), .oddPair), (decide ((p = 3 ∨ p = 6) ∧ (d.toNat % 2 ≠ 0 ∨ a.toNat % 2 ≠ 0)), .oddPair)]
  | .fence _ e k => firstError [(decide (k = 0), .selector), (decide (4 < e.toNat), .scope)]
  | .pref _ _ b => firstError [(decide (15 < b.toNat), .baseRegister)]
  | .taglk _ _ _ => none
  | .tagset _ _ _ => none
  | .taginv _ a b => firstError [(decide (2 < b.toNat), .selector), (decide (b = 2 ∧ a ≠ 0), .mustBeZero)]
  | .tagcfg _ _ _ => none
  | .ptest _ _ _ b m => firstError [(decide (m = 0 ∧ b ≠ 0), .mustBeZero)]
  | .pclr _ _ b m => firstError [(decide (m = 0 ∧ b ≠ 0), .mustBeZero)]
  | .cwb _ _ b => firstError [(decide (15 < b.toNat), .baseRegister)]
  | .icinv _ _ b => firstError [(decide (15 < b.toNat), .baseRegister)]
  | .atomsp _ _ _ b f => firstError [(decide (10 < f.toNat), .selector), (decide (f = 9 ∧ b.toNat % 2 ≠ 0), .oddPair)]
  | .cpLoad _ hb _ _ b _ => firstError [(decide (58 < hb.toNat), .block), (decide (32 < b.toNat), .barrier)]
  | .cpStore _ hb _ _ b _ => firstError [(decide (58 < hb.toNat), .block), (decide (32 < b.toNat), .barrier)]
  | .cpFill _ hb _ _ b _ => firstError [(decide (58 < hb.toNat), .block), (decide (32 < b.toNat), .barrier)]
  | .waitc _ a i => firstError [(decide (3 < a.toNat), .selector), (decide (63 < i.toNat), .selector)]
  | .tbinit _ _ k => firstError [(decide (31 < k.toNat), .barrier)]
  | .tbarr _ _ k => firstError [(decide (31 < k.toNat), .barrier)]
  | .tbwait _ _ k => firstError [(decide (31 < k.toNat), .barrier)]
  | .tbtry _ _ _ k => firstError [(decide (31 < k.toNat), .barrier)]
  | .bar _ k => firstError [(decide (31 < k.toNat), .barrier)]
  | .gset _ d _ _ => firstError [(decide (d = 0 ∨ 7 < d.toNat), .guard)]
  | .gclr _ d => firstError [(decide (d = 0 ∨ 7 < d.toNat), .guard)]
  | .tbinv _ k => firstError [(decide (31 < k.toNat), .barrier)]
  | .gbar _ => none
  | .gbara _ _ => none
  | .gbarw _ _ => none
  | .ccwait _ _ _ => none
  | .cncl _ _ => none
  | .lnch _ _ a _ => firstError [(decide (a.toNat % 2 ≠ 0), .oddPair)]
  | .preqQuery _ _ => none
  | .preqYield _ _ => none
  | .mxloop _ hb _ b _ _ => firstError [(decide (56 < hb.toNat), .block), (decide (32 < b.toNat), .barrier)]
  | .mxdrain _ hb _ b _ _ => firstError [(decide (61 < hb.toNat), .block), (decide (32 < b.toNat), .barrier)]
  | .mxlda _ hb _ b _ => firstError [(decide (61 < hb.toNat), .block), (decide (32 < b.toNat), .barrier)]
  | .mxzero _ _ b _ => firstError [(decide (32 < b.toNat), .barrier)]
  | .mxcfg _ a => firstError [(decide (61 < a.toNat), .block)]
  | .mxq _ _ b => firstError [(decide (3 < b.toNat), .selector)]
  | .qst _ hb _ => firstError [(decide (62 < hb.toNat), .block)]
  | .qstf _ hb _ => firstError [(decide (62 < hb.toNat), .block)]
  | .qerr _ _ _ b => firstError [(decide (3 < b.toNat), .selector)]
  | .qexp _ hb => firstError [(decide (61 < hb.toNat), .block)]
  | .qexpb _ hb => firstError [(decide (61 < hb.toNat), .block)]
  | .vdec _ hb => firstError [(decide (59 < hb.toNat), .block)]
  | .qchk _ _ _ => none
  | .kvg _ hb b _ _ => firstError [(decide (57 < hb.toNat), .block), (decide (32 < b.toNat), .barrier)]
  | .kvspl _ hb b _ => firstError [(decide (54 < hb.toNat), .block), (decide (32 < b.toNat), .barrier)]
  | .kvmap _ hb b _ => firstError [(decide (56 < hb.toNat), .block), (decide (32 < b.toNat), .barrier)]
  | .kvsd _ hb b _ => firstError [(decide (60 < hb.toNat), .block), (decide (32 < b.toNat), .barrier)]
  | .rpscan _ hb b _ => firstError [(decide (57 < hb.toNat), .block), (decide (32 < b.toNat), .barrier)]
  | .rpdone _ hb b _ => firstError [(decide (59 < hb.toNat), .block), (decide (32 < b.toNat), .barrier)]
  | .mov16 _ _ _ => none
  | .add16 _ _ _ => none
  | .sub16 _ _ _ => none
  | .mul16 _ _ _ => none
  | .and16 _ _ _ => none
  | .or16 _ _ _ => none
  | .xor16 _ _ _ => none
  | .shl16 _ _ _ => none
  | .shr16 _ _ _ => none
  | .sar16 _ _ _ => none
  | .minS16 _ _ _ => none
  | .maxS16 _ _ _ => none
  | .fadd16 _ _ _ => none
  | .fmul16 _ _ _ => none
  | .fmax16 _ _ _ => none
  | .fmin16 _ _ _ => none
  | .unimp _ => none
  | .forcedSwitch _ => none
  | .variableLatencyResult _ _ => none
  | .storePerform _ _ => none
  | .dieCacheWriteback _ _ _ => none
  | .rowGrant _ => none
  | .agedRequest _ => none
  | .deadlockBreaker _ => none
  | .bankDrowsy _ _ => none
  | .boost _ _ => none
  | .timerPending _ => none
  | .timerTrap _ _ => none
  | .cpExecution _ _ => none
  | .kvgExecution _ _ => none
  | .qstExecution _ _ => none
  | .qexpExecution _ _ => none
  | .vdecExecution _ _ => none
  | .mxPass _ => none
  | .mxAging _ _ => none
  | .mxCompletion _ _ => none
  | .kvsplExecution _ _ => none
  | .kvmapExecution _ _ => none
  | .kvsdExecution _ _ => none
  | .rpscanExecution _ _ => none
  | .rpdoneExecution _ _ => none
  | .launch _ => none
  | .openCtr _ => none
  | .seal _ => none
  | .teamPlacement _ _ => none
  | .cancelTimeout _ => none
  | .priorityReq _ => none
  | .sliceReq _ => none
  | .progressReq _ => none
  | .migrateReq _ _ => none
  | .fullSave _ => none
  | .saveTeam _ => none
  | .restoreTeam _ _ => none
  | .cdbg _ _ => none
  | .qreq _ _ => none
  | .rsaveSave _ => none
  | .rsaveRestore _ => none
  | .rsaveDone _ => none
  | .clkg _ _ => none
  | .rail _ _ => none
  | .railRampDone _ => none
  | .lendt _ _ => none
  | .recall _ => none
  | .wake _ _ => none
  | .wakeTimer _ => none
  | .tempSample _ _ => none
  | .epoch _ => none
  | .powerMeasurement _ => none
  | .pcap _ => none
  | .hwake _ _ => none
  | .pctlSwitch _ => none
  | .pctlResume _ => none
  | .replayAns _ _ => none
  | .deliverAns _ _ => none
  | .killTeam _ _ => none
  | .killLaunch _ _ => none
  | .ccancel _ _ => none
  | .wptr _ _ _ => none
  | .qcfg _ _ _ => none
  | .qref _ _ => none
  | .qwake _ _ => none
  | .registerWrite _ _ _ _ => none
  | .firmwareLoad _ => none
  | .fwdog => none
  | .attestationRequest _ => none
  | .bindObject _ => none
  | .osvnAdvance _ => none
  | .linkDown _ => none
  | .linkRetryExhausted => none
  | .fatalErr _ => none
  | .uncorrectableError _ => none
  | .patrolScrub _ => none
  | .dramCalibration _ => none
  | .telemetrySample => none
  | .hostAccess _ => none
  | .peerAccess _ _ => none
  | .powerUp => none
  | .coreReset _ => none
  | .allowanceRefill => none
  | .kvItemDrop _ _ => none
  | .pageShootdown _ _ => none

/-- The operands of an instruction meet R45-R47. -/
def Instr.wf (i : Instr) : Bool := i.fieldError.isNone

end Sys2Proof
end

