-- ==== Sys2Proof/Decode.lean ====
section
/-! DEFINITION. The decoder of R33, R41-R49, total on any bytes, and the encoder, both written from the layouts of
spec/02. A word that no row matches is refused by name; R48 then makes it UNIMP. -/

namespace Sys2Proof

/-- Why a word is no instruction (R48). -/
inductive DecodeError where
  /-- Fewer bytes than the instruction has. -/
  | truncated
  /-- A reserved major opcode. -/
  | reservedMajor (major : Nat)
  /-- An unassigned function, condition, kind or sub-op value of the major. -/
  | unassigned (major : Nat)
  /-- A payload field that must be zero is not. -/
  | fieldNotZero
  /-- A field breaks R45, R46 or R47. -/
  | field (e : FieldError)
  deriving DecidableEq, Repr

/-- Bits lo to lo+len-1 of `n`. -/
def bits (n lo len : Nat) : Nat := n / 2 ^ lo % 2 ^ len

/-- A field of a word as a bit vector. -/
def field (n lo len : Nat) : BitVec len := BitVec.ofNat len (n / 2 ^ lo)

/-- The header of a 32-bit word (R43). -/
def hdrOf (n : Nat) : Hdr := ⟨field n 2 2, decide (bits n 1 1 = 1)⟩

/-- An instruction whose must-be-zero fields are zero when `z` holds. -/
def ifZero (z : Bool) (i : Instr) : Except DecodeError Instr := if z then .ok i else .error .fieldNotZero

/-- Major 0x00 (R47). -/
def decCtl (n : Nat) (h : Hdr) : Except DecodeError Instr :=
  if bits n 28 4 = 0 then ifZero (decide (bits n 10 18 = 0)) (.nop h)
  else if bits n 28 4 = 1 then ifZero (decide (bits n 10 18 = 0)) (.exit h)
  else if bits n 28 4 = 2 then ifZero (decide (bits n 10 18 = 0)) (.join h)
  else if bits n 28 4 = 3 then ifZero (decide (bits n 10 18 = 0)) (.loopx h)
  else if bits n 28 4 = 4 then ifZero (decide (bits n 10 18 = 0)) (.isync h)
  else if bits n 28 4 = 5 then ifZero (decide (bits n 22 6 = 0 ∧ bits n 10 6 = 0)) (.ret h (field n 16 6))
  else if bits n 28 4 = 6 then ifZero (decide (bits n 22 6 = 0 ∧ bits n 10 6 = 0)) (.regang h (field n 16 6))
  else .error (.unassigned 0)

/-- Major 0x01 (R47). -/
def decBra (n : Nat) (h : Hdr) : Except DecodeError Instr :=
  .ok (.bra h (field n 10 22))

/-- Major 0x02 (R47). -/
def decBrc (n : Nat) (h : Hdr) : Except DecodeError Instr :=
  if bits n 14 2 = 0 then .ok (.brc h (field n 10 3) (field n 13 1) (field n 16 16))
  else if bits n 14 2 = 1 then .ok (.brcAny h (field n 10 3) (field n 13 1) (field n 16 16))
  else if bits n 14 2 = 2 then .ok (.brcAll h (field n 10 3) (field n 13 1) (field n 16 16))
  else .error (.unassigned 2)

/-- Major 0x03 (R47). -/
def decCall (n : Nat) (h : Hdr) : Except DecodeError Instr :=
  .ok (.call h (field n 10 22))

/-- Major 0x04 (R47). -/
def decSplit (n : Nat) (h : Hdr) : Except DecodeError Instr :=
  ifZero (decide (bits n 10 6 = 0)) (.split h (field n 16 16))

/-- Major 0x05 (R47). -/
def decLoop (n : Nat) (h : Hdr) : Except DecodeError Instr :=
  if bits n 16 1 = 0 then .ok (.loopReg h (field n 10 6) (field n 17 15))
  else if bits n 16 1 = 1 then .ok (.loopImm h (field n 10 6) (field n 17 15))
  else .error (.unassigned 5)

/-- Major 0x06 (R47). -/
def decBrx (n : Nat) (h : Hdr) : Except DecodeError Instr :=
  .ok (.brx h (field n 10 6) (field n 16 16))

/-- Major 0x07 (R47). -/
def decCallx (n : Nat) (h : Hdr) : Except DecodeError Instr :=
  .ok (.callx h (field n 10 6) (field n 16 16))

/-- Major 0x08 (R47). -/
def decTrap (n : Nat) (h : Hdr) : Except DecodeError Instr :=
  ifZero (decide (bits n 10 12 = 0)) (.trapImm h (field n 22 10))

/-- Major 0x09 (R47). -/
def decSys (n : Nat) (h : Hdr) : Except DecodeError Instr :=
  ifZero (decide (bits n 10 12 = 0)) (.sysImm h (field n 22 10))

/-- Major 0x0A (R47). -/
def decTrc (n : Nat) (h : Hdr) : Except DecodeError Instr :=
  if bits n 28 4 = 0 then ifZero (decide (bits n 10 18 = 0)) (.rtrap h)
  else if bits n 28 4 = 1 then ifZero (decide (bits n 10 18 = 0)) (.brk h)
  else if bits n 28 4 = 2 then ifZero (decide (bits n 16 6 = 0)) (.tinfo h (field n 10 6) (field n 22 6))
  else if bits n 28 4 = 3 then ifZero (decide (bits n 22 6 = 0 ∧ bits n 10 6 = 0)) (.tset h (field n 16 6))
  else if bits n 22 10 = 256 then ifZero (decide (bits n 10 6 = 0)) (.tvec h (field n 16 6))
  else if bits n 22 10 = 257 then ifZero (decide (bits n 10 6 = 0)) (.tvecDl h (field n 16 6))
  else if bits n 28 4 = 5 then .ok (.getx h (field n 10 6) (field n 16 6) (field n 22 6))
  else if bits n 28 4 = 6 then .ok (.setx h (field n 10 6) (field n 16 6) (field n 22 6))
  else if bits n 28 4 = 7 then ifZero (decide (bits n 22 6 = 0)) (.tmask h (field n 10 6) (field n 16 6))
  else if bits n 28 4 = 8 then ifZero (decide (bits n 10 6 = 0)) (.signal h (field n 16 6) (field n 22 6))
  else if bits n 28 4 = 9 then ifZero (decide (bits n 16 12 = 0)) (.wfe h (field n 10 6))
  else .error (.unassigned 10)

/-- Major 0x0B (R47). -/
def decCkpt (n : Nat) (h : Hdr) : Except DecodeError Instr :=
  ifZero (decide (bits n 10 6 = 0)) (.ckpt h (field n 16 16))

/-- Major 0x0C (R47). -/
def decShp (n : Nat) (h : Hdr) : Except DecodeError Instr :=
  if bits n 28 4 = 0 then ifZero (decide (bits n 22 6 = 0)) (.mov h (field n 10 6) (field n 16 6))
  else if bits n 28 4 = 1 then ifZero (decide (bits n 22 6 = 0)) (.shqK h (field n 10 6) (field n 16 6))
  else if bits n 28 4 = 2 then ifZero (decide (bits n 22 6 = 0)) (.shqB h (field n 10 6) (field n 16 6))
  else if bits n 28 4 = 3 then ifZero (decide (bits n 22 6 = 0)) (.shqS h (field n 10 6) (field n 16 6))
  else if bits n 28 4 = 4 then ifZero (decide (bits n 10 6 = 0)) (.shas h (field n 16 6) (field n 22 6))
  else if bits n 28 4 = 5 then ifZero (decide (bits n 22 6 = 0)) (.shfU h (field n 10 6) (field n 16 6))
  else if bits n 28 4 = 6 then ifZero (decide (bits n 22 6 = 0)) (.shfA h (field n 10 6) (field n 16 6))
  else if bits n 28 4 = 7 then ifZero (decide (bits n 22 6 = 0)) (.shfV h (field n 10 6) (field n 16 6))
  else if bits n 28 4 = 8 then ifZero (decide (bits n 16 6 = 0)) (.spr h (field n 10 6) (field n 22 6))
  else if bits n 28 4 = 9 then ifZero (decide (bits n 22 6 = 0 ∧ bits n 10 6 = 0)) (.partW h (field n 16 6))
  else if bits n 28 4 = 10 then ifZero (decide (bits n 22 6 = 0 ∧ bits n 10 6 = 0)) (.roleW h (field n 16 6))
  else if bits n 28 4 = 11 then ifZero (decide (bits n 22 6 = 0 ∧ bits n 10 6 = 0)) (.sfmt h (field n 16 6))
  else if bits n 28 4 = 12 then ifZero (decide (bits n 16 12 = 0)) (.gfmt h (field n 10 6))
  else if bits n 28 4 = 13 then ifZero (decide (bits n 22 6 = 0)) (.movbTo h (field n 10 6) (field n 16 6))
  else if bits n 28 4 = 14 then ifZero (decide (bits n 22 6 = 0)) (.movbFrom h (field n 10 6) (field n 16 6))
  else .error (.unassigned 12)

/-- Major 0x0D (R47). -/
def decWiden (n : Nat) (h : Hdr) : Except DecodeError Instr :=
  .ok (.widen h (field n 10 6) (field n 16 16))

/-- Major 0x0E (R47). -/
def decMovl (n : Nat) (h : Hdr) : Except DecodeError Instr :=
  .ok (.movl h (field n 10 6) (field n 16 16))

/-- Major 0x0F (R47). -/
def decMovh (n : Nat) (h : Hdr) : Except DecodeError Instr :=
  .ok (.movh h (field n 10 6) (field n 16 16))

/-- Major 0x10 (R47). -/
def decIar (n : Nat) (h : Hdr) : Except DecodeError Instr :=
  if bits n 28 4 = 0 then .ok (.addW h (field n 10 6) (field n 16 6) (field n 22 6))
  else if bits n 28 4 = 1 then .ok (.subW h (field n 10 6) (field n 16 6) (field n 22 6))
  else if bits n 28 4 = 2 then .ok (.mulW h (field n 10 6) (field n 16 6) (field n 22 6))
  else if bits n 28 4 = 3 then .ok (.mulhS h (field n 10 6) (field n 16 6) (field n 22 6))
  else if bits n 28 4 = 4 then .ok (.mulhN h (field n 10 6) (field n 16 6) (field n 22 6))
  else if bits n 28 4 = 5 then .ok (.mad h (field n 10 6) (field n 16 6) (field n 22 6))
  else if bits n 28 4 = 6 then .ok (.addsS h (field n 10 6) (field n 16 6) (field n 22 6))
  else if bits n 28 4 = 7 then .ok (.addsN h (field n 10 6) (field n 16 6) (field n 22 6))
  else if bits n 28 4 = 8 then .ok (.subsS h (field n 10 6) (field n 16 6) (field n 22 6))
  else if bits n 28 4 = 9 then .ok (.subsN h (field n 10 6) (field n 16 6) (field n 22 6))
  else if bits n 28 4 = 10 then .ok (.absd h (field n 10 6) (field n 16 6) (field n 22 6))
  else if bits n 28 4 = 11 then .ok (.divS h (field n 10 6) (field n 16 6) (field n 22 6))
  else if bits n 28 4 = 12 then .ok (.divN h (field n 10 6) (field n 16 6) (field n 22 6))
  else if bits n 28 4 = 13 then .ok (.remS h (field n 10 6) (field n 16 6) (field n 22 6))
  else if bits n 28 4 = 14 then .ok (.remN h (field n 10 6) (field n 16 6) (field n 22 6))
  else if bits n 28 4 = 15 then .ok (.dp4 h (field n 10 6) (field n 16 6) (field n 22 6))
  else .error (.unassigned 16)

/-- Major 0x11 (R47). -/
def decIlg (n : Nat) (h : Hdr) : Except DecodeError Instr :=
  if bits n 28 4 = 0 then .ok (.andW h (field n 10 6) (field n 16 6) (field n 22 6))
  else if bits n 28 4 = 1 then .ok (.orW h (field n 10 6) (field n 16 6) (field n 22 6))
  else if bits n 28 4 = 2 then .ok (.xorW h (field n 10 6) (field n 16 6) (field n 22 6))
  else if bits n 28 4 = 3 then .ok (.andn h (field n 10 6) (field n 16 6) (field n 22 6))
  else if bits n 28 4 = 4 then .ok (.shlW h (field n 10 6) (field n 16 6) (field n 22 6))
  else if bits n 28 4 = 5 then .ok (.shrW h (field n 10 6) (field n 16 6) (field n 22 6))
  else if bits n 28 4 = 6 then .ok (.sarW h (field n 10 6) (field n 16 6) (field n 22 6))
  else if bits n 28 4 = 7 then .ok (.rotl h (field n 10 6) (field n 16 6) (field n 22 6))
  else if bits n 28 4 = 8 then .ok (.minS h (field n 10 6) (field n 16 6) (field n 22 6))
  else if bits n 28 4 = 9 then .ok (.maxS h (field n 10 6) (field n 16 6) (field n 22 6))
  else if bits n 28 4 = 10 then .ok (.minN h (field n 10 6) (field n 16 6) (field n 22 6))
  else if bits n 28 4 = 11 then .ok (.maxN h (field n 10 6) (field n 16 6) (field n 22 6))
  else if bits n 28 4 = 12 then ifZero (decide (bits n 22 6 = 0)) (.clz h (field n 10 6) (field n 16 6))
  else if bits n 28 4 = 13 then ifZero (decide (bits n 22 6 = 0)) (.popc h (field n 10 6) (field n 16 6))
  else if bits n 28 4 = 14 then ifZero (decide (bits n 22 6 = 0)) (.brev h (field n 10 6) (field n 16 6))
  else if bits n 28 4 = 15 then ifZero (decide (bits n 22 6 = 0)) (.absS h (field n 10 6) (field n 16 6))
  else .error (.unassigned 17)

/-- Major 0x12 (R47). -/
def decBitf (n : Nat) (h : Hdr) : Except DecodeError Instr :=
  if bits n 28 4 = 0 then .ok (.bfeN h (field n 10 6) (field n 16 6) (field n 22 6))
  else if bits n 28 4 = 1 then .ok (.bfeS h (field n 10 6) (field n 16 6) (field n 22 6))
  else if bits n 28 4 = 2 then .ok (.bfi h (field n 10 6) (field n 16 6) (field n 22 6))
  else if bits n 28 4 = 3 then .ok (.prmt h (field n 10 6) (field n 16 6) (field n 22 6))
  else .error (.unassigned 18)

/-- Major 0x13 (R47). -/
def decI64 (n : Nat) (h : Hdr) : Except DecodeError Instr :=
  if bits n 28 4 = 0 then .ok (.add64 h (field n 10 6) (field n 16 6) (field n 22 6))
  else if bits n 28 4 = 1 then .ok (.sub64 h (field n 10 6) (field n 16 6) (field n 22 6))
  else if bits n 28 4 = 2 then .ok (.mulwS h (field n 10 6) (field n 16 6) (field n 22 6))
  else if bits n 28 4 = 3 then .ok (.mulwN h (field n 10 6) (field n 16 6) (field n 22 6))
  else if bits n 28 4 = 4 then .ok (.shl64 h (field n 10 6) (field n 16 6) (field n 22 6))
  else if bits n 28 4 = 5 then .ok (.shr64 h (field n 10 6) (field n 16 6) (field n 22 6))
  else if bits n 28 4 = 6 then .ok (.sar64 h (field n 10 6) (field n 16 6) (field n 22 6))
  else if bits n 28 4 = 7 then .ok (.madwN h (field n 10 6) (field n 16 6) (field n 22 6))
  else .error (.unassigned 19)

/-- Major 0x14 (R47). -/
def decCmp (n : Nat) (h : Hdr) : Except DecodeError Instr :=
  .ok (.cmp h (field n 10 3) (field n 13 3) (field n 16 6) (field n 22 6) (field n 28 4))

/-- Major 0x15 (R47). -/
def decSel (n : Nat) (h : Hdr) : Except DecodeError Instr :=
  .ok (.sel h (field n 10 6) (field n 16 6) (field n 22 6) (field n 28 3) (field n 31 1))

/-- Major 0x16 (R47). -/
def decPred (n : Nat) (h : Hdr) : Except DecodeError Instr :=
  if bits n 28 4 = 0 then .ok (.pand h (field n 10 6) (field n 16 6) (field n 22 6))
  else if bits n 28 4 = 1 then .ok (.por h (field n 10 6) (field n 16 6) (field n 22 6))
  else if bits n 28 4 = 2 then .ok (.pxor h (field n 10 6) (field n 16 6) (field n 22 6))
  else if bits n 28 4 = 3 then .ok (.pandn h (field n 10 6) (field n 16 6) (field n 22 6))
  else if bits n 28 4 = 4 then ifZero (decide (bits n 22 6 = 0)) (.ptow h (field n 10 6) (field n 16 6))
  else if bits n 28 4 = 5 then ifZero (decide (bits n 22 6 = 0)) (.wtop h (field n 10 6) (field n 16 6))
  else .error (.unassigned 22)

/-- Major 0x17 (R47). -/
def decCmpi (n : Nat) (h : Hdr) : Except DecodeError Instr :=
  .ok (.cmpi h (field n 10 3) (field n 13 3) (field n 16 6) (field n 22 10))

/-- Major 0x18 (R47). -/
def decAddi (n : Nat) (h : Hdr) : Except DecodeError Instr :=
  .ok (.addi h (field n 10 6) (field n 16 6) (field n 22 10))

/-- Major 0x19 (R47). -/
def decMuli (n : Nat) (h : Hdr) : Except DecodeError Instr :=
  .ok (.muli h (field n 10 6) (field n 16 6) (field n 22 10))

/-- Major 0x1A (R47). -/
def decAndi (n : Nat) (h : Hdr) : Except DecodeError Instr :=
  .ok (.andi h (field n 10 6) (field n 16 6) (field n 22 10))

/-- Major 0x1B (R47). -/
def decOri (n : Nat) (h : Hdr) : Except DecodeError Instr :=
  .ok (.ori h (field n 10 6) (field n 16 6) (field n 22 10))

/-- Major 0x1C (R47). -/
def decXori (n : Nat) (h : Hdr) : Except DecodeError Instr :=
  .ok (.xori h (field n 10 6) (field n 16 6) (field n 22 10))

/-- Major 0x1D (R47). -/
def decShli (n : Nat) (h : Hdr) : Except DecodeError Instr :=
  if bits n 28 4 = 0 then ifZero (decide (bits n 27 1 = 0)) (.shli h (field n 10 6) (field n 16 6) (field n 22 5))
  else .error (.unassigned 29)

/-- Major 0x1E (R47). -/
def decShri (n : Nat) (h : Hdr) : Except DecodeError Instr :=
  if bits n 28 4 = 0 then ifZero (decide (bits n 27 1 = 0)) (.shri h (field n 10 6) (field n 16 6) (field n 22 5))
  else .error (.unassigned 30)

/-- Major 0x1F (R47). -/
def decSari (n : Nat) (h : Hdr) : Except DecodeError Instr :=
  if bits n 28 4 = 0 then ifZero (decide (bits n 27 1 = 0)) (.sari h (field n 10 6) (field n 16 6) (field n 22 5))
  else .error (.unassigned 31)

/-- Major 0x20 (R47). -/
def decShfl (n : Nat) (h : Hdr) : Except DecodeError Instr :=
  if bits n 30 2 = 0 then .ok (.shfl h (field n 10 6) (field n 16 6) (field n 22 6) (field n 28 2))
  else if bits n 30 2 = 1 then .ok (.shflImm h (field n 10 6) (field n 16 6) (field n 22 6) (field n 28 2))
  else .error (.unassigned 32)

/-- Major 0x21 (R47). -/
def decVote (n : Nat) (h : Hdr) : Except DecodeError Instr :=
  if bits n 28 4 = 0 then ifZero (decide (bits n 19 9 = 0)) (.voteAny h (field n 10 6) (field n 16 3))
  else if bits n 28 4 = 1 then ifZero (decide (bits n 19 9 = 0)) (.voteAll h (field n 10 6) (field n 16 3))
  else if bits n 28 4 = 2 then ifZero (decide (bits n 19 9 = 0)) (.voteBal h (field n 10 6) (field n 16 3))
  else if bits n 28 4 = 3 then ifZero (decide (bits n 22 6 = 0)) (.voteEq h (field n 10 6) (field n 16 6))
  else if bits n 28 4 = 4 then ifZero (decide (bits n 22 6 = 0)) (.voteMatch h (field n 10 6) (field n 16 6))
  else .error (.unassigned 33)

/-- Major 0x22 (R47). -/
def decRed (n : Nat) (h : Hdr) : Except DecodeError Instr :=
  ifZero (decide (bits n 22 6 = 0)) (.red h (field n 10 6) (field n 16 6) (field n 28 4))

/-- Major 0x23 (R47). -/
def decScan (n : Nat) (h : Hdr) : Except DecodeError Instr :=
  ifZero (decide (bits n 22 6 = 0)) (.scan h (field n 10 6) (field n 16 6) (field n 28 4))

/-- Major 0x24 (R47). -/
def decFp32 (n : Nat) (h : Hdr) : Except DecodeError Instr :=
  if bits n 28 4 = 0 then .ok (.fadd h (field n 10 6) (field n 16 6) (field n 22 6))
  else if bits n 28 4 = 1 then .ok (.fsub h (field n 10 6) (field n 16 6) (field n 22 6))
  else if bits n 28 4 = 2 then .ok (.fmul h (field n 10 6) (field n 16 6) (field n 22 6))
  else if bits n 28 4 = 3 then .ok (.ffma h (field n 10 6) (field n 16 6) (field n 22 6))
  else if bits n 28 4 = 4 then .ok (.fmin h (field n 10 6) (field n 16 6) (field n 22 6))
  else if bits n 28 4 = 5 then .ok (.fmax h (field n 10 6) (field n 16 6) (field n 22 6))
  else if bits n 28 4 = 6 then ifZero (decide (bits n 22 6 = 0)) (.fabs h (field n 10 6) (field n 16 6))
  else if bits n 28 4 = 7 then ifZero (decide (bits n 22 6 = 0)) (.fneg h (field n 10 6) (field n 16 6))
  else if bits n 28 4 = 8 then .ok (.fdiv h (field n 10 6) (field n 16 6) (field n 22 6))
  else if bits n 28 4 = 9 then ifZero (decide (bits n 22 6 = 0)) (.fsqrt h (field n 10 6) (field n 16 6))
  else if bits n 28 4 = 10 then .ok (.fscale h (field n 10 6) (field n 16 6) (field n 22 6))
  else if bits n 28 4 = 11 then .ok (.frnd h (field n 10 6) (field n 16 6) (field n 22 6))
  else if bits n 28 4 = 12 then ifZero (decide (bits n 22 6 = 0)) (.fclass h (field n 10 6) (field n 16 6))
  else .error (.unassigned 36)

/-- Major 0x25 (R47). -/
def decFp64 (n : Nat) (h : Hdr) : Except DecodeError Instr :=
  if bits n 28 4 = 0 then .ok (.dadd h (field n 10 6) (field n 16 6) (field n 22 6))
  else if bits n 28 4 = 1 then .ok (.dsub h (field n 10 6) (field n 16 6) (field n 22 6))
  else if bits n 28 4 = 2 then .ok (.dmul h (field n 10 6) (field n 16 6) (field n 22 6))
  else if bits n 28 4 = 3 then .ok (.dfma h (field n 10 6) (field n 16 6) (field n 22 6))
  else if bits n 28 4 = 4 then .ok (.dmin h (field n 10 6) (field n 16 6) (field n 22 6))
  else if bits n 28 4 = 5 then .ok (.dmax h (field n 10 6) (field n 16 6) (field n 22 6))
  else if bits n 28 4 = 6 then ifZero (decide (bits n 22 6 = 0)) (.dabs h (field n 10 6) (field n 16 6))
  else if bits n 28 4 = 7 then ifZero (decide (bits n 22 6 = 0)) (.dneg h (field n 10 6) (field n 16 6))
  else if bits n 28 4 = 8 then .ok (.ddiv h (field n 10 6) (field n 16 6) (field n 22 6))
  else if bits n 28 4 = 9 then ifZero (decide (bits n 22 6 = 0)) (.dsqrt h (field n 10 6) (field n 16 6))
  else if bits n 28 4 = 10 then .ok (.dscale h (field n 10 6) (field n 16 6) (field n 22 6))
  else if bits n 28 4 = 11 then .ok (.drnd h (field n 10 6) (field n 16 6) (field n 22 6))
  else .error (.unassigned 37)

/-- Major 0x26 (R47). -/
def decH2 (n : Nat) (h : Hdr) : Except DecodeError Instr :=
  if bits n 28 3 = 0 then .ok (.hadd2 h (field n 10 6) (field n 16 6) (field n 22 6) (field n 31 1))
  else if bits n 28 3 = 1 then .ok (.hsub2 h (field n 10 6) (field n 16 6) (field n 22 6) (field n 31 1))
  else if bits n 28 3 = 2 then .ok (.hmul2 h (field n 10 6) (field n 16 6) (field n 22 6) (field n 31 1))
  else if bits n 28 3 = 3 then .ok (.hfma2 h (field n 10 6) (field n 16 6) (field n 22 6) (field n 31 1))
  else if bits n 28 3 = 4 then .ok (.hmin2 h (field n 10 6) (field n 16 6) (field n 22 6) (field n 31 1))
  else if bits n 28 3 = 5 then .ok (.hmax2 h (field n 10 6) (field n 16 6) (field n 22 6) (field n 31 1))
  else .error (.unassigned 38)

/-- Major 0x27 (R47). -/
def decFcmp (n : Nat) (h : Hdr) : Except DecodeError Instr :=
  .ok (.fcmp h (field n 10 3) (field n 13 3) (field n 16 6) (field n 22 6) (field n 28 3) (field n 31 1))

/-- Major 0x28 (R47). -/
def decFcvt (n : Nat) (h : Hdr) : Except DecodeError Instr :=
  .ok (.fcvt h (field n 10 6) (field n 16 6) (field n 22 3) (field n 25 3) (field n 28 2) (field n 30 2))

/-- Major 0x29 (R47). -/
def decSfu (n : Nat) (h : Hdr) : Except DecodeError Instr :=
  if bits n 28 4 = 0 then ifZero (decide (bits n 22 6 = 0)) (.frcp h (field n 10 6) (field n 16 6))
  else if bits n 28 4 = 1 then ifZero (decide (bits n 22 6 = 0)) (.frsq h (field n 10 6) (field n 16 6))
  else if bits n 28 4 = 2 then ifZero (decide (bits n 22 6 = 0)) (.fexp2 h (field n 10 6) (field n 16 6))
  else if bits n 28 4 = 3 then ifZero (decide (bits n 22 6 = 0)) (.flog2 h (field n 10 6) (field n 16 6))
  else if bits n 28 4 = 4 then ifZero (decide (bits n 22 6 = 0)) (.fsin h (field n 10 6) (field n 16 6))
  else if bits n 28 4 = 5 then ifZero (decide (bits n 22 6 = 0)) (.fcos h (field n 10 6) (field n 16 6))
  else if bits n 28 4 = 6 then ifZero (decide (bits n 22 6 = 0)) (.ftanh h (field n 10 6) (field n 16 6))
  else .error (.unassigned 41)

/-- Major 0x2C (R47). -/
def decLd (n : Nat) (h : Hdr) : Except DecodeError Instr :=
  .ok (.ld h (field n 10 6) (field n 16 6) (field n 22 4) (field n 26 3) (field n 29 1) (field n 30 2))

/-- Major 0x2D (R47). -/
def decSt (n : Nat) (h : Hdr) : Except DecodeError Instr :=
  if bits n 29 1 = 0 then .ok (.st h (field n 10 6) (field n 16 6) (field n 22 4) (field n 26 3) (field n 30 2))
  else .error (.unassigned 45)

/-- Major 0x2E (R47). -/
def decLdsp (n : Nat) (h : Hdr) : Except DecodeError Instr :=
  if bits n 29 3 = 0 then .ok (.ldsp h (field n 10 6) (field n 16 6) (field n 22 2) (field n 24 1) (field n 25 3) (field n 28 1))
  else .error (.unassigned 46)

/-- Major 0x2F (R47). -/
def decStsp (n : Nat) (h : Hdr) : Except DecodeError Instr :=
  if bits n 28 4 = 0 then .ok (.stsp h (field n 10 6) (field n 16 6) (field n 22 2) (field n 24 1) (field n 25 3))
  else .error (.unassigned 47)

/-- Major 0x30 (R47). -/
def decAtom (n : Nat) (h : Hdr) : Except DecodeError Instr :=
  .ok (.atom h (field n 10 5) (field n 15 5) (field n 20 5) (field n 25 3) (field n 28 2) (field n 30 2))

/-- Major 0x31 (R47). -/
def decAtomx (n : Nat) (h : Hdr) : Except DecodeError Instr :=
  .ok (.atomx h (field n 10 5) (field n 15 5) (field n 20 5) (field n 25 3) (field n 28 2) (field n 30 2))

/-- Major 0x32 (R47). -/
def decMemx (n : Nat) (h : Hdr) : Except DecodeError Instr :=
  if bits n 28 4 = 0 then ifZero (decide (bits n 27 1 = 0 ∧ bits n 10 12 = 0)) (.fence h (field n 22 3) (field n 25 2))
  else if bits n 28 4 = 1 then ifZero (decide (bits n 10 6 = 0)) (.pref h (field n 16 6) (field n 22 6))
  else if bits n 28 4 = 2 then ifZero (decide (bits n 22 6 = 0)) (.taglk h (field n 10 6) (field n 16 6))
  else if bits n 28 4 = 3 then ifZero (decide (bits n 10 6 = 0)) (.tagset h (field n 16 6) (field n 22 6))
  else if bits n 28 4 = 4 then ifZero (decide (bits n 10 6 = 0)) (.taginv h (field n 16 6) (field n 22 6))
  else if bits n 28 4 = 5 then ifZero (decide (bits n 10 6 = 0)) (.tagcfg h (field n 16 6) (field n 22 6))
  else if bits n 28 4 = 6 then ifZero (decide (bits n 26 1 = 0)) (.ptest h (field n 10 6) (field n 16 6) (field n 22 4) (field n 27 1))
  else if bits n 28 4 = 7 then ifZero (decide (bits n 26 1 = 0 ∧ bits n 10 6 = 0)) (.pclr h (field n 16 6) (field n 22 4) (field n 27 1))
  else if bits n 28 4 = 8 then ifZero (decide (bits n 10 6 = 0)) (.cwb h (field n 16 6) (field n 22 6))
  else if bits n 28 4 = 9 then ifZero (decide (bits n 10 6 = 0)) (.icinv h (field n 16 6) (field n 22 6))
  else .error (.unassigned 50)

/-- Major 0x33 (R47). -/
def decAtomsp (n : Nat) (h : Hdr) : Except DecodeError Instr :=
  .ok (.atomsp h (field n 10 6) (field n 16 6) (field n 22 6) (field n 28 4))

/-- Major 0x34 (R47). -/
def decCp (n : Nat) (h : Hdr) : Except DecodeError Instr :=
  if bits n 16 2 = 0 then ifZero (decide (bits n 31 1 = 0 ∧ bits n 20 2 = 0)) (.cpLoad h (field n 10 6) (field n 18 1) (field n 19 1) (field n 22 6) (field n 28 3))
  else if bits n 16 2 = 1 then ifZero (decide (bits n 31 1 = 0 ∧ bits n 20 2 = 0)) (.cpStore h (field n 10 6) (field n 18 1) (field n 19 1) (field n 22 6) (field n 28 3))
  else if bits n 16 2 = 2 then ifZero (decide (bits n 31 1 = 0 ∧ bits n 20 2 = 0)) (.cpFill h (field n 10 6) (field n 18 1) (field n 19 1) (field n 22 6) (field n 28 3))
  else .error (.unassigned 52)

/-- Major 0x35 (R47). -/
def decWaitc (n : Nat) (h : Hdr) : Except DecodeError Instr :=
  ifZero (decide (bits n 10 6 = 0)) (.waitc h (field n 16 6) (field n 22 10))

/-- Major 0x36 (R47). -/
def decTb (n : Nat) (h : Hdr) : Except DecodeError Instr :=
  if bits n 28 4 = 0 then ifZero (decide (bits n 10 6 = 0)) (.tbinit h (field n 16 6) (field n 22 6))
  else if bits n 28 4 = 1 then ifZero (decide (bits n 16 6 = 0)) (.tbarr h (field n 10 6) (field n 22 6))
  else if bits n 28 4 = 2 then ifZero (decide (bits n 10 6 = 0)) (.tbwait h (field n 16 6) (field n 22 6))
  else if bits n 28 4 = 3 then .ok (.tbtry h (field n 10 6) (field n 16 6) (field n 22 6))
  else if bits n 28 4 = 4 then ifZero (decide (bits n 10 12 = 0)) (.bar h (field n 22 6))
  else if bits n 28 4 = 5 then ifZero (decide (bits n 20 8 = 0)) (.gset h (field n 10 6) (field n 16 3) (field n 19 1))
  else if bits n 28 4 = 6 then ifZero (decide (bits n 16 12 = 0)) (.gclr h (field n 10 6))
  else if bits n 28 4 = 7 then ifZero (decide (bits n 10 12 = 0)) (.tbinv h (field n 22 6))
  else .error (.unassigned 54)

/-- Major 0x37 (R47). -/
def decGrid (n : Nat) (h : Hdr) : Except DecodeError Instr :=
  if bits n 28 4 = 0 then ifZero (decide (bits n 10 18 = 0)) (.gbar h)
  else if bits n 28 4 = 1 then ifZero (decide (bits n 16 12 = 0)) (.gbara h (field n 10 6))
  else if bits n 28 4 = 2 then ifZero (decide (bits n 22 6 = 0 ∧ bits n 10 6 = 0)) (.gbarw h (field n 16 6))
  else if bits n 28 4 = 3 then ifZero (decide (bits n 22 6 = 0)) (.ccwait h (field n 10 6) (field n 16 6))
  else if bits n 28 4 = 4 then ifZero (decide (bits n 22 6 = 0 ∧ bits n 10 6 = 0)) (.cncl h (field n 16 6))
  else if bits n 28 4 = 5 then .ok (.lnch h (field n 10 6) (field n 16 6) (field n 22 6))
  else if bits n 22 10 = 384 then ifZero (decide (bits n 16 6 = 0)) (.preqQuery h (field n 10 6))
  else if bits n 22 10 = 385 then ifZero (decide (bits n 16 6 = 0)) (.preqYield h (field n 10 6))
  else .error (.unassigned 55)

/-- Major 0x38 (R47). -/
def decMx (n : Nat) (h : Hdr) : Except DecodeError Instr :=
  if bits n 16 2 = 0 then ifZero (decide (bits n 20 2 = 0)) (.mxloop h (field n 10 6) (field n 18 2) (field n 22 6) (field n 28 3) (field n 31 1))
  else if bits n 16 2 = 1 then ifZero (decide (bits n 20 2 = 0)) (.mxdrain h (field n 10 6) (field n 18 2) (field n 22 6) (field n 28 3) (field n 31 1))
  else if bits n 16 2 = 2 then ifZero (decide (bits n 31 1 = 0 ∧ bits n 20 2 = 0)) (.mxlda h (field n 10 6) (field n 18 2) (field n 22 6) (field n 28 3))
  else if bits n 16 2 = 3 then ifZero (decide (bits n 31 1 = 0 ∧ bits n 20 2 = 0 ∧ bits n 10 6 = 0)) (.mxzero h (field n 18 2) (field n 22 6) (field n 28 3))
  else .error (.unassigned 56)

/-- Major 0x39 (R47). -/
def decMxc (n : Nat) (h : Hdr) : Except DecodeError Instr :=
  if bits n 28 4 = 0 then ifZero (decide (bits n 22 6 = 0 ∧ bits n 10 6 = 0)) (.mxcfg h (field n 16 6))
  else if bits n 28 4 = 1 then ifZero (decide (bits n 16 6 = 0)) (.mxq h (field n 10 6) (field n 22 6))
  else .error (.unassigned 57)

/-- Major 0x3A (R47). -/
def decXf (n : Nat) (h : Hdr) : Except DecodeError Instr :=
  if bits n 28 4 = 0 then ifZero (decide (bits n 22 6 = 0)) (.qst h (field n 10 6) (field n 16 6))
  else if bits n 28 4 = 1 then ifZero (decide (bits n 22 6 = 0)) (.qstf h (field n 10 6) (field n 16 6))
  else if bits n 28 4 = 2 then .ok (.qerr h (field n 10 6) (field n 16 6) (field n 22 6))
  else if bits n 28 4 = 3 then ifZero (decide (bits n 16 12 = 0)) (.qexp h (field n 10 6))
  else if bits n 28 4 = 4 then ifZero (decide (bits n 16 12 = 0)) (.qexpb h (field n 10 6))
  else if bits n 28 4 = 5 then ifZero (decide (bits n 16 12 = 0)) (.vdec h (field n 10 6))
  else if bits n 28 4 = 6 then ifZero (decide (bits n 22 6 = 0)) (.qchk h (field n 10 6) (field n 16 6))
  else .error (.unassigned 58)

/-- Major 0x3B (R47). -/
def decKv (n : Nat) (h : Hdr) : Except DecodeError Instr :=
  if bits n 16 3 = 0 then ifZero (decide (bits n 19 3 = 0)) (.kvg h (field n 10 6) (field n 22 6) (field n 28 3) (field n 31 1))
  else if bits n 16 3 = 1 then ifZero (decide (bits n 31 1 = 0 ∧ bits n 19 3 = 0)) (.kvspl h (field n 10 6) (field n 22 6) (field n 28 3))
  else if bits n 16 3 = 2 then ifZero (decide (bits n 31 1 = 0 ∧ bits n 19 3 = 0)) (.kvmap h (field n 10 6) (field n 22 6) (field n 28 3))
  else if bits n 16 3 = 3 then ifZero (decide (bits n 31 1 = 0 ∧ bits n 19 3 = 0)) (.kvsd h (field n 10 6) (field n 22 6) (field n 28 3))
  else if bits n 16 3 = 4 then ifZero (decide (bits n 31 1 = 0 ∧ bits n 19 3 = 0)) (.rpscan h (field n 10 6) (field n 22 6) (field n 28 3))
  else if bits n 16 3 = 5 then ifZero (decide (bits n 31 1 = 0 ∧ bits n 19 3 = 0)) (.rpdone h (field n 10 6) (field n 22 6) (field n 28 3))
  else .error (.unassigned 59)

/-- A 32-bit word, before the checks on its fields. -/
def decodeMajor (n : Nat) : Except DecodeError Instr :=
  let h := hdrOf n
  match bits n 4 6 with
  | 0 => decCtl n h
  | 1 => decBra n h
  | 2 => decBrc n h
  | 3 => decCall n h
  | 4 => decSplit n h
  | 5 => decLoop n h
  | 6 => decBrx n h
  | 7 => decCallx n h
  | 8 => decTrap n h
  | 9 => decSys n h
  | 10 => decTrc n h
  | 11 => decCkpt n h
  | 12 => decShp n h
  | 13 => decWiden n h
  | 14 => decMovl n h
  | 15 => decMovh n h
  | 16 => decIar n h
  | 17 => decIlg n h
  | 18 => decBitf n h
  | 19 => decI64 n h
  | 20 => decCmp n h
  | 21 => decSel n h
  | 22 => decPred n h
  | 23 => decCmpi n h
  | 24 => decAddi n h
  | 25 => decMuli n h
  | 26 => decAndi n h
  | 27 => decOri n h
  | 28 => decXori n h
  | 29 => decShli n h
  | 30 => decShri n h
  | 31 => decSari n h
  | 32 => decShfl n h
  | 33 => decVote n h
  | 34 => decRed n h
  | 35 => decScan n h
  | 36 => decFp32 n h
  | 37 => decFp64 n h
  | 38 => decH2 n h
  | 39 => decFcmp n h
  | 40 => decFcvt n h
  | 41 => decSfu n h
  | 44 => decLd n h
  | 45 => decSt n h
  | 46 => decLdsp n h
  | 47 => decStsp n h
  | 48 => decAtom n h
  | 49 => decAtomx n h
  | 50 => decMemx n h
  | 51 => decAtomsp n h
  | 52 => decCp n h
  | 53 => decWaitc n h
  | 54 => decTb n h
  | 55 => decGrid n h
  | 56 => decMx n h
  | 57 => decMxc n h
  | 58 => decXf n h
  | 59 => decKv n h
  | m => .error (.reservedMajor m)

/-- An instruction whose fields meet R45-R47. -/
def checkFields (i : Instr) : Except DecodeError Instr :=
  match i.fieldError with
  | none => .ok i
  | some e => .error (.field e)

/-- A 32-bit word (R48, R49). -/
def decodeWord (n : Nat) : Except DecodeError Instr :=
  match decodeMajor n with
  | .ok i => checkFields i
  | .error e => .error e

/-- A 16-bit instruction: every OP4 is assigned (R41, R42). -/
def decodeShort (n : Nat) : Instr :=
  let sw := decide (bits n 1 1 = 1)
  let d : BitVec 5 := field n 6 5
  let a : BitVec 5 := field n 11 5
  match bits n 2 4 with
  | 0 => .mov16 sw d a
  | 1 => .add16 sw d a
  | 2 => .sub16 sw d a
  | 3 => .mul16 sw d a
  | 4 => .and16 sw d a
  | 5 => .or16 sw d a
  | 6 => .xor16 sw d a
  | 7 => .shl16 sw d a
  | 8 => .shr16 sw d a
  | 9 => .sar16 sw d a
  | 10 => .minS16 sw d a
  | 11 => .maxS16 sw d a
  | 12 => .fadd16 sw d a
  | 13 => .fmul16 sw d a
  | 14 => .fmax16 sw d a
  | _ => .fmin16 sw d a

/-- An instruction and its length in bytes from the bytes at the program counter (R33, R49). -/
def decodeBytes : List Byte → Except DecodeError (Instr × Nat)
  | b0 :: b1 :: rest =>
    let h0 := b0.toNat + 256 * b1.toNat
    if h0 % 2 = 0 then .ok (decodeShort h0, 2)
    else match rest with
      | b2 :: b3 :: _ =>
        match decodeWord (h0 + 65536 * (b2.toNat + 256 * b3.toNat)) with
        | .ok i => .ok (i, 4)
        | .error e => .error e
      | _ => .error .truncated
  | _ => .error .truncated

/-- The `k` bytes of `n`, lowest first (R4). -/
def leBytes : Nat → Nat → List Byte
  | 0, _ => []
  | k + 1, n => BitVec.ofNat 8 n :: leBytes k (n / 256)

/-- The bytes of a table word as they stand in memory, filled with zeros to four bytes. -/
def tableBytes (nbits w : Nat) : List Byte := leBytes 4 (w % 2 ^ nbits)

/-- The instruction that the decoder reads from a table word. -/
def decodeTableWord (nbits w : Nat) : Option Instr :=
  match decodeBytes (tableBytes nbits w) with
  | .ok (i, _) => some i
  | .error _ => none

/-- The header bits of a 32-bit word. -/
def Hdr.nat (h : Hdr) : Nat := 1 + 2 * h.sw.toNat + 4 * h.gap.toNat

/-- The length in bytes and the word of an instruction; none for an event, which has no encoding. -/
def Instr.encode : Instr → Option (Nat × Nat)
  | .nop h => some (4, h.nat)
  | .exit h => some (4, h.nat + 268435456)
  | .join h => some (4, h.nat + 536870912)
  | .loopx h => some (4, h.nat + 805306368)
  | .isync h => some (4, h.nat + 1073741824)
  | .ret h a => some (4, h.nat + 1342177280 + 65536 * a.toNat)
  | .regang h a => some (4, h.nat + 1610612736 + 65536 * a.toNat)
  | .bra h o => some (4, h.nat + 16 + 1024 * o.toNat)
  | .brc h p n o => some (4, h.nat + 32 + 1024 * p.toNat + 8192 * n.toNat + 65536 * o.toNat)
  | .brcAny h p n o => some (4, h.nat + 16416 + 1024 * p.toNat + 8192 * n.toNat + 65536 * o.toNat)
  | .brcAll h p n o => some (4, h.nat + 32800 + 1024 * p.toNat + 8192 * n.toNat + 65536 * o.toNat)
  | .call h o => some (4, h.nat + 48 + 1024 * o.toNat)
  | .split h o => some (4, h.nat + 64 + 65536 * o.toNat)
  | .loopReg h c e => some (4, h.nat + 80 + 1024 * c.toNat + 131072 * e.toNat)
  | .loopImm h c e => some (4, h.nat + 65616 + 1024 * c.toNat + 131072 * e.toNat)
  | .brx h a o => some (4, h.nat + 96 + 1024 * a.toNat + 65536 * o.toNat)
  | .callx h a o => some (4, h.nat + 112 + 1024 * a.toNat + 65536 * o.toNat)
  | .trapImm h i => some (4, h.nat + 128 + 4194304 * i.toNat)
  | .sysImm h i => some (4, h.nat + 144 + 4194304 * i.toNat)
  | .rtrap h => some (4, h.nat + 160)
  | .brk h => some (4, h.nat + 268435616)
  | .tinfo h d b => some (4, h.nat + 536871072 + 1024 * d.toNat + 4194304 * b.toNat)
  | .tset h a => some (4, h.nat + 805306528 + 65536 * a.toNat)
  | .tvec h a => some (4, h.nat + 1073741984 + 65536 * a.toNat)
  | .tvecDl h a => some (4, h.nat + 1077936288 + 65536 * a.toNat)
  | .getx h d a b => some (4, h.nat + 1342177440 + 1024 * d.toNat + 65536 * a.toNat + 4194304 * b.toNat)
  | .setx h d a b => some (4, h.nat + 1610612896 + 1024 * d.toNat + 65536 * a.toNat + 4194304 * b.toNat)
  | .tmask h d a => some (4, h.nat + 1879048352 + 1024 * d.toNat + 65536 * a.toNat)
  | .signal h a b => some (4, h.nat + 2147483808 + 65536 * a.toNat + 4194304 * b.toNat)
  | .wfe h d => some (4, h.nat + 2415919264 + 1024 * d.toNat)
  | .ckpt h i => some (4, h.nat + 176 + 65536 * i.toNat)
  | .mov h d a => some (4, h.nat + 192 + 1024 * d.toNat + 65536 * a.toNat)
  | .shqK h d a => some (4, h.nat + 268435648 + 1024 * d.toNat + 65536 * a.toNat)
  | .shqB h d a => some (4, h.nat + 536871104 + 1024 * d.toNat + 65536 * a.toNat)
  | .shqS h d a => some (4, h.nat + 805306560 + 1024 * d.toNat + 65536 * a.toNat)
  | .shas h a b => some (4, h.nat + 1073742016 + 65536 * a.toNat + 4194304 * b.toNat)
  | .shfU h d a => some (4, h.nat + 1342177472 + 1024 * d.toNat + 65536 * a.toNat)
  | .shfA h d a => some (4, h.nat + 1610612928 + 1024 * d.toNat + 65536 * a.toNat)
  | .shfV h d a => some (4, h.nat + 1879048384 + 1024 * d.toNat + 65536 * a.toNat)
  | .spr h d b => some (4, h.nat + 2147483840 + 1024 * d.toNat + 4194304 * b.toNat)
  | .partW h a => some (4, h.nat + 2415919296 + 65536 * a.toNat)
  | .roleW h a => some (4, h.nat + 2684354752 + 65536 * a.toNat)
  | .sfmt h a => some (4, h.nat + 2952790208 + 65536 * a.toNat)
  | .gfmt h d => some (4, h.nat + 3221225664 + 1024 * d.toNat)
  | .movbTo h d a => some (4, h.nat + 3489661120 + 1024 * d.toNat + 65536 * a.toNat)
  | .movbFrom h d a => some (4, h.nat + 3758096576 + 1024 * d.toNat + 65536 * a.toNat)
  | .widen h d i => some (4, h.nat + 208 + 1024 * d.toNat + 65536 * i.toNat)
  | .movl h d i => some (4, h.nat + 224 + 1024 * d.toNat + 65536 * i.toNat)
  | .movh h d i => some (4, h.nat + 240 + 1024 * d.toNat + 65536 * i.toNat)
  | .addW h d a b => some (4, h.nat + 256 + 1024 * d.toNat + 65536 * a.toNat + 4194304 * b.toNat)
  | .subW h d a b => some (4, h.nat + 268435712 + 1024 * d.toNat + 65536 * a.toNat + 4194304 * b.toNat)
  | .mulW h d a b => some (4, h.nat + 536871168 + 1024 * d.toNat + 65536 * a.toNat + 4194304 * b.toNat)
  | .mulhS h d a b => some (4, h.nat + 805306624 + 1024 * d.toNat + 65536 * a.toNat + 4194304 * b.toNat)
  | .mulhN h d a b => some (4, h.nat + 1073742080 + 1024 * d.toNat + 65536 * a.toNat + 4194304 * b.toNat)
  | .mad h d a b => some (4, h.nat + 1342177536 + 1024 * d.toNat + 65536 * a.toNat + 4194304 * b.toNat)
  | .addsS h d a b => some (4, h.nat + 1610612992 + 1024 * d.toNat + 65536 * a.toNat + 4194304 * b.toNat)
  | .addsN h d a b => some (4, h.nat + 1879048448 + 1024 * d.toNat + 65536 * a.toNat + 4194304 * b.toNat)
  | .subsS h d a b => some (4, h.nat + 2147483904 + 1024 * d.toNat + 65536 * a.toNat + 4194304 * b.toNat)
  | .subsN h d a b => some (4, h.nat + 2415919360 + 1024 * d.toNat + 65536 * a.toNat + 4194304 * b.toNat)
  | .absd h d a b => some (4, h.nat + 2684354816 + 1024 * d.toNat + 65536 * a.toNat + 4194304 * b.toNat)
  | .divS h d a b => some (4, h.nat + 2952790272 + 1024 * d.toNat + 65536 * a.toNat + 4194304 * b.toNat)
  | .divN h d a b => some (4, h.nat + 3221225728 + 1024 * d.toNat + 65536 * a.toNat + 4194304 * b.toNat)
  | .remS h d a b => some (4, h.nat + 3489661184 + 1024 * d.toNat + 65536 * a.toNat + 4194304 * b.toNat)
  | .remN h d a b => some (4, h.nat + 3758096640 + 1024 * d.toNat + 65536 * a.toNat + 4194304 * b.toNat)
  | .dp4 h d a b => some (4, h.nat + 4026532096 + 1024 * d.toNat + 65536 * a.toNat + 4194304 * b.toNat)
  | .andW h d a b => some (4, h.nat + 272 + 1024 * d.toNat + 65536 * a.toNat + 4194304 * b.toNat)
  | .orW h d a b => some (4, h.nat + 268435728 + 1024 * d.toNat + 65536 * a.toNat + 4194304 * b.toNat)
  | .xorW h d a b => some (4, h.nat + 536871184 + 1024 * d.toNat + 65536 * a.toNat + 4194304 * b.toNat)
  | .andn h d a b => some (4, h.nat + 805306640 + 1024 * d.toNat + 65536 * a.toNat + 4194304 * b.toNat)
  | .shlW h d a b => some (4, h.nat + 1073742096 + 1024 * d.toNat + 65536 * a.toNat + 4194304 * b.toNat)
  | .shrW h d a b => some (4, h.nat + 1342177552 + 1024 * d.toNat + 65536 * a.toNat + 4194304 * b.toNat)
  | .sarW h d a b => some (4, h.nat + 1610613008 + 1024 * d.toNat + 65536 * a.toNat + 4194304 * b.toNat)
  | .rotl h d a b => some (4, h.nat + 1879048464 + 1024 * d.toNat + 65536 * a.toNat + 4194304 * b.toNat)
  | .minS h d a b => some (4, h.nat + 2147483920 + 1024 * d.toNat + 65536 * a.toNat + 4194304 * b.toNat)
  | .maxS h d a b => some (4, h.nat + 2415919376 + 1024 * d.toNat + 65536 * a.toNat + 4194304 * b.toNat)
  | .minN h d a b => some (4, h.nat + 2684354832 + 1024 * d.toNat + 65536 * a.toNat + 4194304 * b.toNat)
  | .maxN h d a b => some (4, h.nat + 2952790288 + 1024 * d.toNat + 65536 * a.toNat + 4194304 * b.toNat)
  | .clz h d a => some (4, h.nat + 3221225744 + 1024 * d.toNat + 65536 * a.toNat)
  | .popc h d a => some (4, h.nat + 3489661200 + 1024 * d.toNat + 65536 * a.toNat)
  | .brev h d a => some (4, h.nat + 3758096656 + 1024 * d.toNat + 65536 * a.toNat)
  | .absS h d a => some (4, h.nat + 4026532112 + 1024 * d.toNat + 65536 * a.toNat)
  | .bfeN h d a b => some (4, h.nat + 288 + 1024 * d.toNat + 65536 * a.toNat + 4194304 * b.toNat)
  | .bfeS h d a b => some (4, h.nat + 268435744 + 1024 * d.toNat + 65536 * a.toNat + 4194304 * b.toNat)
  | .bfi h d a b => some (4, h.nat + 536871200 + 1024 * d.toNat + 65536 * a.toNat + 4194304 * b.toNat)
  | .prmt h d a b => some (4, h.nat + 805306656 + 1024 * d.toNat + 65536 * a.toNat + 4194304 * b.toNat)
  | .add64 h d a b => some (4, h.nat + 304 + 1024 * d.toNat + 65536 * a.toNat + 4194304 * b.toNat)
  | .sub64 h d a b => some (4, h.nat + 268435760 + 1024 * d.toNat + 65536 * a.toNat + 4194304 * b.toNat)
  | .mulwS h d a b => some (4, h.nat + 536871216 + 1024 * d.toNat + 65536 * a.toNat + 4194304 * b.toNat)
  | .mulwN h d a b => some (4, h.nat + 805306672 + 1024 * d.toNat + 65536 * a.toNat + 4194304 * b.toNat)
  | .shl64 h d a b => some (4, h.nat + 1073742128 + 1024 * d.toNat + 65536 * a.toNat + 4194304 * b.toNat)
  | .shr64 h d a b => some (4, h.nat + 1342177584 + 1024 * d.toNat + 65536 * a.toNat + 4194304 * b.toNat)
  | .sar64 h d a b => some (4, h.nat + 1610613040 + 1024 * d.toNat + 65536 * a.toNat + 4194304 * b.toNat)
  | .madwN h d a b => some (4, h.nat + 1879048496 + 1024 * d.toNat + 65536 * a.toNat + 4194304 * b.toNat)
  | .cmp h p m a b f => some (4, h.nat + 320 + 1024 * p.toNat + 8192 * m.toNat + 65536 * a.toNat + 4194304 * b.toNat + 268435456 * f.toNat)
  | .sel h d a b p n => some (4, h.nat + 336 + 1024 * d.toNat + 65536 * a.toNat + 4194304 * b.toNat + 268435456 * p.toNat + 2147483648 * n.toNat)
  | .pand h d a b => some (4, h.nat + 352 + 1024 * d.toNat + 65536 * a.toNat + 4194304 * b.toNat)
  | .por h d a b => some (4, h.nat + 268435808 + 1024 * d.toNat + 65536 * a.toNat + 4194304 * b.toNat)
  | .pxor h d a b => some (4, h.nat + 536871264 + 1024 * d.toNat + 65536 * a.toNat + 4194304 * b.toNat)
  | .pandn h d a b => some (4, h.nat + 805306720 + 1024 * d.toNat + 65536 * a.toNat + 4194304 * b.toNat)
  | .ptow h d a => some (4, h.nat + 1073742176 + 1024 * d.toNat + 65536 * a.toNat)
  | .wtop h d a => some (4, h.nat + 1342177632 + 1024 * d.toNat + 65536 * a.toNat)
  | .cmpi h p c a i => some (4, h.nat + 368 + 1024 * p.toNat + 8192 * c.toNat + 65536 * a.toNat + 4194304 * i.toNat)
  | .addi h d a i => some (4, h.nat + 384 + 1024 * d.toNat + 65536 * a.toNat + 4194304 * i.toNat)
  | .muli h d a i => some (4, h.nat + 400 + 1024 * d.toNat + 65536 * a.toNat + 4194304 * i.toNat)
  | .andi h d a i => some (4, h.nat + 416 + 1024 * d.toNat + 65536 * a.toNat + 4194304 * i.toNat)
  | .ori h d a i => some (4, h.nat + 432 + 1024 * d.toNat + 65536 * a.toNat + 4194304 * i.toNat)
  | .xori h d a i => some (4, h.nat + 448 + 1024 * d.toNat + 65536 * a.toNat + 4194304 * i.toNat)
  | .shli h d a n => some (4, h.nat + 464 + 1024 * d.toNat + 65536 * a.toNat + 4194304 * n.toNat)
  | .shri h d a n => some (4, h.nat + 480 + 1024 * d.toNat + 65536 * a.toNat + 4194304 * n.toNat)
  | .sari h d a n => some (4, h.nat + 496 + 1024 * d.toNat + 65536 * a.toNat + 4194304 * n.toNat)
  | .shfl h d a b m => some (4, h.nat + 512 + 1024 * d.toNat + 65536 * a.toNat + 4194304 * b.toNat + 268435456 * m.toNat)
  | .shflImm h d a i m => some (4, h.nat + 1073742336 + 1024 * d.toNat + 65536 * a.toNat + 4194304 * i.toNat + 268435456 * m.toNat)
  | .voteAny h d p => some (4, h.nat + 528 + 1024 * d.toNat + 65536 * p.toNat)
  | .voteAll h d p => some (4, h.nat + 268435984 + 1024 * d.toNat + 65536 * p.toNat)
  | .voteBal h d p => some (4, h.nat + 536871440 + 1024 * d.toNat + 65536 * p.toNat)
  | .voteEq h d a => some (4, h.nat + 805306896 + 1024 * d.toNat + 65536 * a.toNat)
  | .voteMatch h d a => some (4, h.nat + 1073742352 + 1024 * d.toNat + 65536 * a.toNat)
  | .red h d a f => some (4, h.nat + 544 + 1024 * d.toNat + 65536 * a.toNat + 268435456 * f.toNat)
  | .scan h d a f => some (4, h.nat + 560 + 1024 * d.toNat + 65536 * a.toNat + 268435456 * f.toNat)
  | .fadd h d a b => some (4, h.nat + 576 + 1024 * d.toNat + 65536 * a.toNat + 4194304 * b.toNat)
  | .fsub h d a b => some (4, h.nat + 268436032 + 1024 * d.toNat + 65536 * a.toNat + 4194304 * b.toNat)
  | .fmul h d a b => some (4, h.nat + 536871488 + 1024 * d.toNat + 65536 * a.toNat + 4194304 * b.toNat)
  | .ffma h d a b => some (4, h.nat + 805306944 + 1024 * d.toNat + 65536 * a.toNat + 4194304 * b.toNat)
  | .fmin h d a b => some (4, h.nat + 1073742400 + 1024 * d.toNat + 65536 * a.toNat + 4194304 * b.toNat)
  | .fmax h d a b => some (4, h.nat + 1342177856 + 1024 * d.toNat + 65536 * a.toNat + 4194304 * b.toNat)
  | .fabs h d a => some (4, h.nat + 1610613312 + 1024 * d.toNat + 65536 * a.toNat)
  | .fneg h d a => some (4, h.nat + 1879048768 + 1024 * d.toNat + 65536 * a.toNat)
  | .fdiv h d a b => some (4, h.nat + 2147484224 + 1024 * d.toNat + 65536 * a.toNat + 4194304 * b.toNat)
  | .fsqrt h d a => some (4, h.nat + 2415919680 + 1024 * d.toNat + 65536 * a.toNat)
  | .fscale h d a b => some (4, h.nat + 2684355136 + 1024 * d.toNat + 65536 * a.toNat + 4194304 * b.toNat)
  | .frnd h d a b => some (4, h.nat + 2952790592 + 1024 * d.toNat + 65536 * a.toNat + 4194304 * b.toNat)
  | .fclass h d a => some (4, h.nat + 3221226048 + 1024 * d.toNat + 65536 * a.toNat)
  | .dadd h d a b => some (4, h.nat + 592 + 1024 * d.toNat + 65536 * a.toNat + 4194304 * b.toNat)
  | .dsub h d a b => some (4, h.nat + 268436048 + 1024 * d.toNat + 65536 * a.toNat + 4194304 * b.toNat)
  | .dmul h d a b => some (4, h.nat + 536871504 + 1024 * d.toNat + 65536 * a.toNat + 4194304 * b.toNat)
  | .dfma h d a b => some (4, h.nat + 805306960 + 1024 * d.toNat + 65536 * a.toNat + 4194304 * b.toNat)
  | .dmin h d a b => some (4, h.nat + 1073742416 + 1024 * d.toNat + 65536 * a.toNat + 4194304 * b.toNat)
  | .dmax h d a b => some (4, h.nat + 1342177872 + 1024 * d.toNat + 65536 * a.toNat + 4194304 * b.toNat)
  | .dabs h d a => some (4, h.nat + 1610613328 + 1024 * d.toNat + 65536 * a.toNat)
  | .dneg h d a => some (4, h.nat + 1879048784 + 1024 * d.toNat + 65536 * a.toNat)
  | .ddiv h d a b => some (4, h.nat + 2147484240 + 1024 * d.toNat + 65536 * a.toNat + 4194304 * b.toNat)
  | .dsqrt h d a => some (4, h.nat + 2415919696 + 1024 * d.toNat + 65536 * a.toNat)
  | .dscale h d a b => some (4, h.nat + 2684355152 + 1024 * d.toNat + 65536 * a.toNat + 4194304 * b.toNat)
  | .drnd h d a b => some (4, h.nat + 2952790608 + 1024 * d.toNat + 65536 * a.toNat + 4194304 * b.toNat)
  | .hadd2 h d a b t => some (4, h.nat + 608 + 1024 * d.toNat + 65536 * a.toNat + 4194304 * b.toNat + 2147483648 * t.toNat)
  | .hsub2 h d a b t => some (4, h.nat + 268436064 + 1024 * d.toNat + 65536 * a.toNat + 4194304 * b.toNat + 2147483648 * t.toNat)
  | .hmul2 h d a b t => some (4, h.nat + 536871520 + 1024 * d.toNat + 65536 * a.toNat + 4194304 * b.toNat + 2147483648 * t.toNat)
  | .hfma2 h d a b t => some (4, h.nat + 805306976 + 1024 * d.toNat + 65536 * a.toNat + 4194304 * b.toNat + 2147483648 * t.toNat)
  | .hmin2 h d a b t => some (4, h.nat + 1073742432 + 1024 * d.toNat + 65536 * a.toNat + 4194304 * b.toNat + 2147483648 * t.toNat)
  | .hmax2 h d a b t => some (4, h.nat + 1342177888 + 1024 * d.toNat + 65536 * a.toNat + 4194304 * b.toNat + 2147483648 * t.toNat)
  | .fcmp h p m a b c w => some (4, h.nat + 624 + 1024 * p.toNat + 8192 * m.toNat + 65536 * a.toNat + 4194304 * b.toNat + 268435456 * c.toNat + 2147483648 * w.toNat)
  | .fcvt h d a t x r p => some (4, h.nat + 640 + 1024 * d.toNat + 65536 * a.toNat + 4194304 * t.toNat + 33554432 * x.toNat + 268435456 * r.toNat + 1073741824 * p.toNat)
  | .frcp h d a => some (4, h.nat + 656 + 1024 * d.toNat + 65536 * a.toNat)
  | .frsq h d a => some (4, h.nat + 268436112 + 1024 * d.toNat + 65536 * a.toNat)
  | .fexp2 h d a => some (4, h.nat + 536871568 + 1024 * d.toNat + 65536 * a.toNat)
  | .flog2 h d a => some (4, h.nat + 805307024 + 1024 * d.toNat + 65536 * a.toNat)
  | .fsin h d a => some (4, h.nat + 1073742480 + 1024 * d.toNat + 65536 * a.toNat)
  | .fcos h d a => some (4, h.nat + 1342177936 + 1024 * d.toNat + 65536 * a.toNat)
  | .ftanh h d a => some (4, h.nat + 1610613392 + 1024 * d.toNat + 65536 * a.toNat)
  | .ld h d o b z x r => some (4, h.nat + 704 + 1024 * d.toNat + 65536 * o.toNat + 4194304 * b.toNat + 67108864 * z.toNat + 536870912 * x.toNat + 1073741824 * r.toNat)
  | .st h d o b z r => some (4, h.nat + 720 + 1024 * d.toNat + 65536 * o.toNat + 4194304 * b.toNat + 67108864 * z.toNat + 1073741824 * r.toNat)
  | .ldsp h d o c m z x => some (4, h.nat + 736 + 1024 * d.toNat + 65536 * o.toNat + 4194304 * c.toNat + 16777216 * m.toNat + 33554432 * z.toNat + 268435456 * x.toNat)
  | .stsp h d o c m z => some (4, h.nat + 752 + 1024 * d.toNat + 65536 * o.toNat + 4194304 * c.toNat + 16777216 * m.toNat + 33554432 * z.toNat)
  | .atom h d o a p c r => some (4, h.nat + 768 + 1024 * d.toNat + 32768 * o.toNat + 1048576 * a.toNat + 33554432 * p.toNat + 268435456 * c.toNat + 1073741824 * r.toNat)
  | .atomx h d o a p c r => some (4, h.nat + 784 + 1024 * d.toNat + 32768 * o.toNat + 1048576 * a.toNat + 33554432 * p.toNat + 268435456 * c.toNat + 1073741824 * r.toNat)
  | .fence h e k => some (4, h.nat + 800 + 4194304 * e.toNat + 33554432 * k.toNat)
  | .pref h a b => some (4, h.nat + 268436256 + 65536 * a.toNat + 4194304 * b.toNat)
  | .taglk h d a => some (4, h.nat + 536871712 + 1024 * d.toNat + 65536 * a.toNat)
  | .tagset h a b => some (4, h.nat + 805307168 + 65536 * a.toNat + 4194304 * b.toNat)
  | .taginv h a b => some (4, h.nat + 1073742624 + 65536 * a.toNat + 4194304 * b.toNat)
  | .tagcfg h a b => some (4, h.nat + 1342178080 + 65536 * a.toNat + 4194304 * b.toNat)
  | .ptest h d a b m => some (4, h.nat + 1610613536 + 1024 * d.toNat + 65536 * a.toNat + 4194304 * b.toNat + 134217728 * m.toNat)
  | .pclr h a b m => some (4, h.nat + 1879048992 + 65536 * a.toNat + 4194304 * b.toNat + 134217728 * m.toNat)
  | .cwb h a b => some (4, h.nat + 2147484448 + 65536 * a.toNat + 4194304 * b.toNat)
  | .icinv h a b => some (4, h.nat + 2415919904 + 65536 * a.toNat + 4194304 * b.toNat)
  | .atomsp h d a b f => some (4, h.nat + 816 + 1024 * d.toNat + 65536 * a.toNat + 4194304 * b.toNat + 268435456 * f.toNat)
  | .cpLoad h hb w t b u => some (4, h.nat + 832 + 1024 * hb.toNat + 262144 * w.toNat + 524288 * t.toNat + 4194304 * b.toNat + 268435456 * u.toNat)
  | .cpStore h hb w t b u => some (4, h.nat + 66368 + 1024 * hb.toNat + 262144 * w.toNat + 524288 * t.toNat + 4194304 * b.toNat + 268435456 * u.toNat)
  | .cpFill h hb w t b u => some (4, h.nat + 131904 + 1024 * hb.toNat + 262144 * w.toNat + 524288 * t.toNat + 4194304 * b.toNat + 268435456 * u.toNat)
  | .waitc h a i => some (4, h.nat + 848 + 65536 * a.toNat + 4194304 * i.toNat)
  | .tbinit h a k => some (4, h.nat + 864 + 65536 * a.toNat + 4194304 * k.toNat)
  | .tbarr h d k => some (4, h.nat + 268436320 + 1024 * d.toNat + 4194304 * k.toNat)
  | .tbwait h a k => some (4, h.nat + 536871776 + 65536 * a.toNat + 4194304 * k.toNat)
  | .tbtry h d a k => some (4, h.nat + 805307232 + 1024 * d.toNat + 65536 * a.toNat + 4194304 * k.toNat)
  | .bar h k => some (4, h.nat + 1073742688 + 4194304 * k.toNat)
  | .gset h d k n => some (4, h.nat + 1342178144 + 1024 * d.toNat + 65536 * k.toNat + 524288 * n.toNat)
  | .gclr h d => some (4, h.nat + 1610613600 + 1024 * d.toNat)
  | .tbinv h k => some (4, h.nat + 1879049056 + 4194304 * k.toNat)
  | .gbar h => some (4, h.nat + 880)
  | .gbara h d => some (4, h.nat + 268436336 + 1024 * d.toNat)
  | .gbarw h a => some (4, h.nat + 536871792 + 65536 * a.toNat)
  | .ccwait h d a => some (4, h.nat + 805307248 + 1024 * d.toNat + 65536 * a.toNat)
  | .cncl h a => some (4, h.nat + 1073742704 + 65536 * a.toNat)
  | .lnch h d a b => some (4, h.nat + 1342178160 + 1024 * d.toNat + 65536 * a.toNat + 4194304 * b.toNat)
  | .preqQuery h d => some (4, h.nat + 1610613616 + 1024 * d.toNat)
  | .preqYield h d => some (4, h.nat + 1614807920 + 1024 * d.toNat)
  | .mxloop h hb n b u q => some (4, h.nat + 896 + 1024 * hb.toNat + 262144 * n.toNat + 4194304 * b.toNat + 268435456 * u.toNat + 2147483648 * q.toNat)
  | .mxdrain h hb n b u q => some (4, h.nat + 66432 + 1024 * hb.toNat + 262144 * n.toNat + 4194304 * b.toNat + 268435456 * u.toNat + 2147483648 * q.toNat)
  | .mxlda h hb n b u => some (4, h.nat + 131968 + 1024 * hb.toNat + 262144 * n.toNat + 4194304 * b.toNat + 268435456 * u.toNat)
  | .mxzero h n b u => some (4, h.nat + 197504 + 262144 * n.toNat + 4194304 * b.toNat + 268435456 * u.toNat)
  | .mxcfg h a => some (4, h.nat + 912 + 65536 * a.toNat)
  | .mxq h d b => some (4, h.nat + 268436368 + 1024 * d.toNat + 4194304 * b.toNat)
  | .qst h hb a => some (4, h.nat + 928 + 1024 * hb.toNat + 65536 * a.toNat)
  | .qstf h hb a => some (4, h.nat + 268436384 + 1024 * hb.toNat + 65536 * a.toNat)
  | .qerr h d a b => some (4, h.nat + 536871840 + 1024 * d.toNat + 65536 * a.toNat + 4194304 * b.toNat)
  | .qexp h hb => some (4, h.nat + 805307296 + 1024 * hb.toNat)
  | .qexpb h hb => some (4, h.nat + 1073742752 + 1024 * hb.toNat)
  | .vdec h hb => some (4, h.nat + 1342178208 + 1024 * hb.toNat)
  | .qchk h d a => some (4, h.nat + 1610613664 + 1024 * d.toNat + 65536 * a.toNat)
  | .kvg h hb b u q => some (4, h.nat + 944 + 1024 * hb.toNat + 4194304 * b.toNat + 268435456 * u.toNat + 2147483648 * q.toNat)
  | .kvspl h hb b u => some (4, h.nat + 66480 + 1024 * hb.toNat + 4194304 * b.toNat + 268435456 * u.toNat)
  | .kvmap h hb b u => some (4, h.nat + 132016 + 1024 * hb.toNat + 4194304 * b.toNat + 268435456 * u.toNat)
  | .kvsd h hb b u => some (4, h.nat + 197552 + 1024 * hb.toNat + 4194304 * b.toNat + 268435456 * u.toNat)
  | .rpscan h hb b u => some (4, h.nat + 263088 + 1024 * hb.toNat + 4194304 * b.toNat + 268435456 * u.toNat)
  | .rpdone h hb b u => some (4, h.nat + 328624 + 1024 * hb.toNat + 4194304 * b.toNat + 268435456 * u.toNat)
  | .mov16 sw d a => some (2, 2 * sw.toNat + 64 * d.toNat + 2048 * a.toNat)
  | .add16 sw d a => some (2, 2 * sw.toNat + 4 + 64 * d.toNat + 2048 * a.toNat)
  | .sub16 sw d a => some (2, 2 * sw.toNat + 8 + 64 * d.toNat + 2048 * a.toNat)
  | .mul16 sw d a => some (2, 2 * sw.toNat + 12 + 64 * d.toNat + 2048 * a.toNat)
  | .and16 sw d a => some (2, 2 * sw.toNat + 16 + 64 * d.toNat + 2048 * a.toNat)
  | .or16 sw d a => some (2, 2 * sw.toNat + 20 + 64 * d.toNat + 2048 * a.toNat)
  | .xor16 sw d a => some (2, 2 * sw.toNat + 24 + 64 * d.toNat + 2048 * a.toNat)
  | .shl16 sw d a => some (2, 2 * sw.toNat + 28 + 64 * d.toNat + 2048 * a.toNat)
  | .shr16 sw d a => some (2, 2 * sw.toNat + 32 + 64 * d.toNat + 2048 * a.toNat)
  | .sar16 sw d a => some (2, 2 * sw.toNat + 36 + 64 * d.toNat + 2048 * a.toNat)
  | .minS16 sw d a => some (2, 2 * sw.toNat + 40 + 64 * d.toNat + 2048 * a.toNat)
  | .maxS16 sw d a => some (2, 2 * sw.toNat + 44 + 64 * d.toNat + 2048 * a.toNat)
  | .fadd16 sw d a => some (2, 2 * sw.toNat + 48 + 64 * d.toNat + 2048 * a.toNat)
  | .fmul16 sw d a => some (2, 2 * sw.toNat + 52 + 64 * d.toNat + 2048 * a.toNat)
  | .fmax16 sw d a => some (2, 2 * sw.toNat + 56 + 64 * d.toNat + 2048 * a.toNat)
  | .fmin16 sw d a => some (2, 2 * sw.toNat + 60 + 64 * d.toNat + 2048 * a.toNat)
  | .unimp _ => none
  | .forcedSwitch _ => none
  | .variableLatencyResult _ _ => none
  | .storePerform _ _ => none
  | .dieCacheWriteback _ _ _ => none
  | .rowGrant _ => none
  | .agedRequest _ => none
  | .deadlockBreaker _ => none
  | .bankDrowsy _ _ => none
  | .boost _ _ => none
  | .timerPending _ => none
  | .timerTrap _ _ => none
  | .cpExecution _ _ => none
  | .kvgExecution _ _ => none
  | .qstExecution _ _ => none
  | .qexpExecution _ _ => none
  | .vdecExecution _ _ => none
  | .mxPass _ => none
  | .mxAging _ _ => none
  | .mxCompletion _ _ => none
  | .kvsplExecution _ _ => none
  | .kvmapExecution _ _ => none
  | .kvsdExecution _ _ => none
  | .rpscanExecution _ _ => none
  | .rpdoneExecution _ _ => none
  | .launch _ => none
  | .openCtr _ => none
  | .seal _ => none
  | .teamPlacement _ _ => none
  | .cancelTimeout _ => none
  | .priorityReq _ => none
  | .sliceReq _ => none
  | .progressReq _ => none
  | .migrateReq _ _ => none
  | .fullSave _ => none
  | .saveTeam _ => none
  | .restoreTeam _ _ => none
  | .cdbg _ _ => none
  | .qreq _ _ => none
  | .rsaveSave _ => none
  | .rsaveRestore _ => none
  | .rsaveDone _ => none
  | .clkg _ _ => none
  | .rail _ _ => none
  | .railRampDone _ => none
  | .lendt _ _ => none
  | .recall _ => none
  | .wake _ _ => none
  | .wakeTimer _ => none
  | .tempSample _ _ => none
  | .epoch _ => none
  | .powerMeasurement _ => none
  | .pcap _ => none
  | .hwake _ _ => none
  | .pctlSwitch _ => none
  | .pctlResume _ => none
  | .replayAns _ _ => none
  | .deliverAns _ _ => none
  | .killTeam _ _ => none
  | .killLaunch _ _ => none
  | .ccancel _ _ => none
  | .wptr _ _ _ => none
  | .qcfg _ _ _ => none
  | .qref _ _ => none
  | .qwake _ _ => none
  | .registerWrite _ _ _ _ => none
  | .firmwareLoad _ => none
  | .fwdog => none
  | .attestationRequest _ => none
  | .bindObject _ => none
  | .osvnAdvance _ => none
  | .linkDown _ => none
  | .linkRetryExhausted => none
  | .fatalErr _ => none
  | .uncorrectableError _ => none
  | .patrolScrub _ => none
  | .dramCalibration _ => none
  | .telemetrySample => none
  | .hostAccess _ => none
  | .peerAccess _ _ => none
  | .powerUp => none
  | .coreReset _ => none
  | .allowanceRefill => none
  | .kvItemDrop _ _ => none
  | .pageShootdown _ _ => none

/-- An event of the part: a row without an encoding. -/
def Instr.isEvent (i : Instr) : Bool := i.encode.isNone

end Sys2Proof
end

