-- ==== Sys2Proof/Machine/Shape.lean ====
section
/-! DEFINITION. Shaped registers and predicates: reading lanes, the write rules of R184 and R152, and the view of a
warp's registers while results are in flight (R39, R40, R75). -/

namespace Sys2Proof.Machine

/-- The present lanes of a warp with `n` of them: its lowest (R25). -/
def lowLanes (n : Nat) : LaneSet := BitVec.ofNat 64 (2 ^ n - 1)

/-- The width W (R61). -/
def Warp.width (w : Warp) : Nat := if w.wide64 then 64 else 32

/-- The present lanes (R61). -/
def Warp.present (w : Warp) : LaneSet := lowLanes w.nlanes

/-- The slices with a present lane. -/
def Warp.presentSlices (w : Warp) : Nat := (w.nlanes + 3) / 4

namespace Shaped

/-- The value and poison of lane i (R62). -/
def lane : Shaped → Nat → Lane
  | .u x p, _ => ⟨x, p⟩
  | .a b s p, i => ⟨b + BitVec.ofNat 32 i * s, p⟩
  | .v ls, i => ls.getD i ⟨0, false⟩

/-- A(b,s), which is U(b) when the stride is 0 (R62). -/
def affine (b s : Word) (p : Bool) : Shaped := if s = 0 then .u b p else .a b s p

/-- The register with every lane of width `wd` holding the value its shape gave it (R62). -/
def widen (wd : Nat) (r : Shaped) : Shaped := .v ((List.range wd).map r.lane)

/-- Is the shape V? -/
def isV : Shaped → Bool
  | .v _ => true
  | _ => false

/-- Is the shape U? -/
def isU : Shaped → Bool
  | .u _ _ => true
  | _ => false

/-- Is the shape A? -/
def isA : Shaped → Bool
  | .a _ _ _ => true
  | _ => false

/-- 0 for U, 1 for A, 2 for V (R86). -/
def code : Shaped → Nat
  | .u _ _ => 0
  | .a _ _ _ => 1
  | .v _ => 2

/-- The poison of a U or A register; that of lane 0 of a V one. -/
def poison0 (r : Shaped) : Bool := (r.lane 0).poison

/-- Lanes of `act` take the new value, every other lane of the width keeps the old one. -/
def merge (wd : Nat) (act : LaneSet) (old new : Shaped) : Shaped :=
  .v ((List.range wd).map fun i => if act.getLsbD i then new.lane i else old.lane i)

/-- `Write` of R184 for a w or t register: `wd` is W, `present` the present lanes. -/
def write (wd : Nat) (present act : LaneSet) (old new : Shaped) : Shaped :=
  if act = present then
    match new with
    | .v _ => merge wd act old new
    | r => r
  else
    match old, new with
    | .u x p, .u y q => if x = y ∧ p = q then old else merge wd act old new
    | .a b s p, .a c t q => if b = c ∧ s = t ∧ p = q then old else merge wd act old new
    | _, _ => merge wd act old new

/-- A write in a mode. -/
def writeMode (wd : Nat) (present : LaneSet) (m : WriteMode) (old new : Shaped) : Shaped :=
  match m with
  | .masked act => write wd present act old new
  | .whole => new
  | .expand => widen wd old
  | .lanes m => merge wd m old new

end Shaped

namespace Pred

/-- The bit of lane i (R63). -/
def lane : Pred → Nat → Bool
  | .u b, _ => b
  | .v m, i => m.getLsbD i

/-- The bits of every lane. -/
def mask : Pred → LaneSet
  | .u b => if b then BitVec.allOnes 64 else 0
  | .v m => m

def isV : Pred → Bool
  | .v _ => true
  | _ => false

/-- The predicate write rules (R152). -/
def write (present act : LaneSet) (old new : Pred) : Pred :=
  if act = present then
    match new with
    | .u b => .u b
    | .v m => .v ((m &&& act) ||| (old.mask &&& ~~~act))
  else
    match old with
    | .u _ =>
      if (new.mask ^^^ old.mask) &&& act = 0 then old
      else .v ((new.mask &&& act) ||| (old.mask &&& ~~~act))
    | .v m => .v ((new.mask &&& act) ||| (m &&& ~~~act))

def writeMode (present : LaneSet) (m : WriteMode) (old new : Pred) : Pred :=
  match m with
  | .masked act => write present act old new
  | .lanes m => .v ((new.mask &&& m) ||| (old.mask &&& ~~~m))
  | _ => new

end Pred

/-- U(0), not poisoned. -/
def Shaped.zero : Shaped := .u 0 false

namespace Warp

/-- The value that register w n holds, without the results in flight. -/
def wReg (w : Warp) (n : Nat) : Shaped := w.w.get n Shaped.zero
def tReg (w : Warp) (n : Nat) : Shaped := w.t.get n Shaped.zero
/-- Predicate n; p7 reads true (R63). -/
def pReg (w : Warp) (n : Nat) : Pred := if n = 7 then .u true else w.p.get n (.u false)
def bReg (w : Warp) (n : Nat) : DWord := w.b.get n 0

/-- The warp with one result written. -/
def apply (w : Warp) (e : PendWrite) : Warp :=
  match e.dest, e.val with
  | .w n, .shaped x => { w with w := w.w.set n (Shaped.writeMode w.width w.present e.mode (w.wReg n) x) }
  | .t n, .shaped x => { w with t := w.t.set n (Shaped.writeMode w.width w.present e.mode (w.tReg n) x) }
  | .p n, .pred x =>
    if n = 7 then w else { w with p := w.p.set n (Pred.writeMode w.present e.mode (w.pReg n) x) }
  | .b n, .base x => { w with b := w.b.set n x }
  | .bLo n, .base x => { w with b := w.b.set n ((w.bReg n).extractLsb' 32 32 ++ x.extractLsb' 0 32) }
  | .bHi n, .base x => { w with b := w.b.set n (x.extractLsb' 0 32 ++ (w.bReg n).extractLsb' 0 32) }
  | _, _ => w

end Warp

/-- Is a result visible at a cycle (R39)? -/
def PendWrite.visible (e : PendWrite) (now : Nat) : Bool :=
  match e.vis with
  | some c => decide (c ≤ now)
  | none => false

/-- The register that a destination belongs to: its kind and number. -/
def Dest.key : Dest → Nat × Nat
  | .w n => (0, n)
  | .t n => (1, n)
  | .p n => (2, n)
  | .b n | .bLo n | .bHi n => (3, n)

/-- The warp as an instruction that issues at cycle `now` sees its registers (R39, R75): every visible result is
written, in issue order. -/
def Warp.view (w : Warp) (now : Nat) : Warp := (w.pend.filter (·.visible now)).foldl Warp.apply w

/-- The warp as it will stand once every result in flight is visible. -/
def Warp.issued (w : Warp) : Warp := w.pend.foldl Warp.apply w

/-- Write the visible results into the registers, but a result behind an invisible one of its register. -/
def settleList (now : Nat) : List PendWrite → List PendWrite → Warp → Warp
  | [], kept, w => { w with pend := kept }
  | e :: rest, kept, w =>
    if e.visible now && kept.all (fun k => k.dest.key != e.dest.key) then
      settleList now rest kept (w.apply e)
    else settleList now rest (kept ++ [e]) w

/-- Does the register still wait for a result? -/
def Warp.outstanding (w : Warp) (n : Nat) : Bool := w.pend.any fun e => e.dest.key = (0, n)

/-- Is the register of a row V at a cycle, or will it be when the result for which the row was given is visible; or will it
be in the end, with no other row to hold it? -/
def rowNeeded (w : Warp) (now : Nat) (r : RowHold) : Bool :=
  (((w.pend.filter fun e => e.visible now || e.id == r.owner).foldl Warp.apply w).wReg r.reg).isV ||
    ((w.issued.wReg r.reg).isV && w.rows.all fun q => q.reg != r.reg || q.row == r.row)

/-- The rows that stay held at a cycle: while results for the register are in flight, the provisional ones and those it needs,
so that one freed by a full U or A write comes back when that write is visible; then one, if the register is V (R183, R187). -/
def keepRows (w : Warp) (now : Nat) (rows : List RowHold) : List RowHold :=
  match rows with
  | [] => []
  | r :: rest =>
    if w.outstanding r.reg then
      if r.prov || rowNeeded w now r then r :: keepRows w now rest else keepRows w now rest
    else if (w.wReg r.reg).isV && rest.all (fun q => q.reg != r.reg) then { r with prov := false } :: keepRows w now rest
    else keepRows w now rest

/-- Settle the results that are visible at a cycle, and return rows that no V register needs (R183, R187). -/
def Warp.settle (w : Warp) (now : Nat) : Warp :=
  let w := settleList now w.pend [] w
  { w with rows := keepRows w now w.rows }

end Sys2Proof.Machine
end

