-- ==== Sys2Proof/Machine/Access.lean ====
section
/-! DEFINITION. Named access to the parts of State: warps, teams, cores, clusters, dies; time; rows; power. -/

namespace Sys2Proof.Machine

/-! ## Geometry (R13; numbering of State) -/

/-- Core of a warp number. -/
def coreOf (wid : Nat) : Nat := wid / 64
/-- Is the warp a management core (R29)? -/
def isMgmt (wid : Nat) : Bool := decide (49152 ≤ wid)
/-- The management core of a die, as a warp number. -/
def mgmtWid (d : Nat) : Nat := 49152 + d
def slotOf (wid : Nat) : Nat := wid % 64
/-- Scheduler of a warp slot (R16). -/
def schedOf (wid : Nat) : Nat := slotOf wid / 16
/-- Die of a core, and of a warp. -/
def dieOfCore (c : Nat) : Nat := c / 192
def dieOf (wid : Nat) : Nat := if isMgmt wid then wid - 49152 else dieOfCore (coreOf wid)
/-- Cluster of a core. -/
def clusterOf (c : Nat) : Nat := c / 4
/-- Quarter of a core (R13). -/
def quarterOf (c : Nat) : Nat := c % 4

/-- Units of %gtime in one cycle of a clock of f × 100 MHz (R19, R458; log 5). -/
def period (f : Nat) : Nat := 10 * Config.gUnit / f

namespace State

def getWarp (s : State) (i : Nat) : Warp := s.warps.get i Warp.init
def setWarp (s : State) (i : Nat) (w : Warp) : State := { s with warps := s.warps.set i w }
def modWarp (s : State) (i : Nat) (f : Warp → Warp) : State := s.setWarp i (f (s.getWarp i))

def getCore (s : State) (i : Nat) : Core := s.cores.get i Core.init
def setCore (s : State) (i : Nat) (c : Core) : State := { s with cores := s.cores.set i c }
def modCore (s : State) (i : Nat) (f : Core → Core) : State := s.setCore i (f (s.getCore i))

def getCluster (s : State) (i : Nat) : Cluster := s.clusters.get i Cluster.init
def setCluster (s : State) (i : Nat) (c : Cluster) : State := { s with clusters := s.clusters.set i c }
def modCluster (s : State) (i : Nat) (f : Cluster → Cluster) : State := s.setCluster i (f (s.getCluster i))

def getDie (s : State) (i : Nat) : Die := s.dies.get i Die.init
def setDie (s : State) (i : Nat) (d : Die) : State := { s with dies := s.dies.set i d }
def modDie (s : State) (i : Nat) (f : Die → Die) : State := s.setDie i (f (s.getDie i))

def getTeam? (s : State) (i : Nat) : Option Team := s.teams.find? i
def setTeam (s : State) (i : Nat) (t : Team) : State := { s with teams := s.teams.set i t }
/-- Change a team that exists. -/
def modTeam (s : State) (i : Nat) (f : Team → Team) : State :=
  match s.getTeam? i with
  | some t => s.setTeam i (f t)
  | none => s

def getLaunch? (s : State) (i : Nat) : Option Launch := s.launches.find? i
def setLaunch (s : State) (i : Nat) (l : Launch) : State := { s with launches := s.launches.set i l }
def modLaunch (s : State) (i : Nat) (f : Launch → Launch) : State :=
  match s.getLaunch? i with
  | some l => s.setLaunch i (f l)
  | none => s

def getCounter (s : State) (i : Nat) : Counter := s.counters.get i Counter.init
def setCounter (s : State) (i : Nat) (c : Counter) : State := { s with counters := s.counters.set i c }
def modCounter (s : State) (i : Nat) (f : Counter → Counter) : State := s.setCounter i (f (s.getCounter i))

def getQueue (s : State) (i : Nat) : Queue := s.queues.get i Queue.init
def setQueue (s : State) (i : Nat) (q : Queue) : State := { s with queues := s.queues.set i q }
def modQueue (s : State) (i : Nat) (f : Queue → Queue) : State := s.setQueue i (f (s.getQueue i))

def getPart (s : State) (i : Nat) : Partition := s.parts.get i Partition.init
def setPart (s : State) (i : Nat) (p : Partition) : State := { s with parts := s.parts.set i p }
def modPart (s : State) (i : Nat) (f : Partition → Partition) : State := s.setPart i (f (s.getPart i))

/-- A number not used before, and the state after it is taken. -/
def takeFresh (s : State) : Nat × State := (s.fresh, { s with fresh := s.fresh + 1 })

/-! ## Clocks (R19, R83, R458; log 5) -/

/-- Quadrant of a cluster in its die (R447). -/
def quadrantOf (s : State) (cl : Nat) : Nat :=
  let site := (s.getDie (cl / 48)).sites.getD (cl % 48) 0
  site / 7 / 4 * 2 + site % 7 / 4

/-- Clock of quadrant q of a die, in 100 MHz. -/
def clock (s : State) (d q : Nat) : Nat := (s.getDie d).qclk.getD q 21

/-- The last step of that clock: the cycles until then, and the moment. -/
def lastStep (s : State) (d q : Nat) : Nat × Nat := (s.getDie d).qcyc.getD q (0, 0)

/-- The cycle that quadrant q of a die is in. -/
def cycleOf (s : State) (d q : Nat) : Nat := (s.lastStep d q).1 + (s.gu - (s.lastStep d q).2) / period (s.clock d q)

/-- The moment at which a cycle of quadrant q of a die begins, at its present clock. -/
def startOf (s : State) (d q c : Nat) : Nat := (s.lastStep d q).2 + (c - (s.lastStep d q).1) * period (s.clock d q)

/-- The die and the quadrant whose clock a warp's core has; a management core has that of quadrant 0 (log 5). -/
def clockOf (s : State) (wid : Nat) : Nat × Nat :=
  if isMgmt wid then (wid - 49152, 0) else (dieOfCore (coreOf wid), s.quadrantOf (clusterOf (coreOf wid)))

/-- The cycle that a warp's core is in: %clk (R83). -/
def nowOf (s : State) (wid : Nat) : Nat := s.cycleOf (s.clockOf wid).1 (s.clockOf wid).2

/-- The cycle that a cluster is in. -/
def nowIn (s : State) (cl : Nat) : Nat := s.cycleOf (cl / 48) (s.quadrantOf cl)

/-- The cycle that the core of the current warp is in. -/
def now (s : State) : Nat := s.nowOf s.cur.wid

/-- Time reaches a cycle of a warp's core, if it is not past it. -/
def advanceTo (s : State) (wid c : Nat) : State :=
  { s with gu := max s.gu (s.startOf (s.clockOf wid).1 (s.clockOf wid).2 c) }

/-- A number of cycles of die 0's quadrant 0 pass. -/
def tick (s : State) (n : Nat) : State := { s with gu := s.gu + n * period (s.clock 0 0) }

/-! ## The current instruction -/

/-- The warp whose instruction is being executed. -/
def w (s : State) : Warp := s.getWarp s.cur.wid
def modW (s : State) (f : Warp → Warp) : State := s.modWarp s.cur.wid f

/-- The warp as the current instruction sees its registers. -/
def v (s : State) : Warp := s.w.view s.now

/-- A gang entry; a free entry reads as a gang with no slices (R98). -/
def gangOf (wp : Warp) (g : Nat) : Gang := wp.gangs.get g (Gang.launch 0 0)

/-- The gang whose instruction is being executed. -/
def gang (s : State) : Gang := gangOf s.w s.cur.g

def modGang (s : State) (f : Gang → Gang) : State :=
  s.modW fun w => { w with gangs := w.gangs.set s.cur.g (f (gangOf w s.cur.g)) }

end State

/-- Slice j of a warp: no lane and an empty stack where none is listed. -/
def Warp.slice (w : Warp) (j : Nat) : Slice := w.slices.get j ⟨0, []⟩

/-- The slices of a slice set, ascending. -/
def sliceList (m : BitVec 16) : List Nat := (List.range 16).filter fun j => m.getLsbD j

/-- A slice set from a list. -/
def sliceSet (l : List Nat) : BitVec 16 := l.foldl (fun m j => m ||| BitVec.twoPow 16 j) 0

/-- The lanes that 4-bit masks of slices give. -/
def sliceLanes (f : Nat → BitVec 4) (js : List Nat) : LaneSet :=
  js.foldl (fun m j => m ||| (((f j).zeroExtend 64) <<< (4 * j))) 0

/-- The active lanes of a gang (R61, R99). -/
def Warp.activeOf (w : Warp) (g : Gang) : LaneSet :=
  sliceLanes (fun j => (w.slice j).mask) (sliceList g.slices) &&& ~~~w.exited &&& w.present

/-- The number of slices with a lane in a lane set. -/
def slicesIn (m : LaneSet) : Nat := ((List.range 16).filter fun j => m.extractLsb' (4 * j) 4 != 0#4).length

/-- Is slice j live (R97)? -/
def Warp.liveSlice (w : Warp) (j : Nat) : Bool :=
  (w.present &&& ~~~w.exited).extractLsb' (4 * j) 4 != 0#4

namespace State

/-- The active lanes of the current instruction. -/
def act (s : State) : LaneSet := s.w.activeOf s.gang

/-- The team of the current warp, if it has one. -/
def team? (s : State) : Option Team := s.getTeam? s.w.team

/-- The partition of a warp; 32 for a management core, which belongs to none (log 11). -/
def partOf (s : State) (wid : Nat) : Nat :=
  if isMgmt wid then 32
  else match s.getTeam? (s.getWarp wid).team with
    | some t => t.part
    | none => 32

/-! ## Real time -/

/-- %gtime in ns (R83). -/
def gtime (s : State) : Nat := s.gu / Config.gUnit

/-- %wtime of a warp in ns (R141). -/
def wtime (s : State) (w : Warp) : Nat :=
  match w.frozen with
  | some t => t
  | none => (s.gtime - w.wstart).toNat

end State

/-! ## Power allowance (R411, R459, R460) -/

/-- Withholding level that a counter value gives (R459). -/
def levelOf (c : Nat) : Nat :=
  if 2048 ≤ c then 0 else if 1024 ≤ c then 1 else if 512 ≤ c then 2 else if 256 ≤ c then 3 else 4

/-- The least counter value at which a role is not withheld (R459). -/
def leastFor (role : Nat) : Nat :=
  match role with
  | 0 => 2048
  | 1 => 1024
  | 2 => 512
  | _ => 256

namespace Cluster

/-- Allowance counter in cycle t, after its refill, with no debit since cycle cAt (R459). -/
def refilled (k : Cluster) (t : Nat) : Nat := min 65535 (k.c + k.refill * (t - k.cAt))

/-- The cycles from cAt up to cycle t, which is not one of them, in which a role was withheld: in cycle cAt by the counter
at its start, then for as long as the refills leave it short (R411, R459). -/
def heldSince (k : Cluster) (role t : Nat) : Nat :=
  let least := leastFor role
  let short :=
    if least ≤ k.c then 0
    else if k.refill = 0 then t - k.cAt
    else (least - k.c + k.refill - 1) / k.refill
  if t ≤ k.cAt then 0
  else if k.hot && decide (role < 2) then t - k.cAt
  else (decide (k.c0 < least)).toNat + min short (t - k.cAt - 1)

/-- The counters brought up to cycle t, with no debit since cycle cAt. -/
def idleTo (k : Cluster) (t : Nat) : Cluster :=
  if t ≤ k.cAt then k
  else { k with c := k.refilled t, c0 := k.refilled (t - 1), cAt := t,
                held := (List.range 4).map fun r => k.held.getD r 0 + k.heldSince r t }

/-- The level that the counter at the start of cycle cAt gives, with the hold of a hot cluster (R459, R461). -/
def startLevel (k : Cluster) : Nat := if k.hot then max 2 (levelOf k.c0) else levelOf k.c0

/-- A weight is taken off the allowance in cycle cAt (R459): the epoch keeps the highest level. -/
def spend (k : Cluster) (weight : Nat) : Cluster :=
  let c := k.c - 16 * weight
  { k with c, full := k.full && decide (c = 65535), level := max k.level (max k.startLevel (levelOf c)) }

/-- What the engines at work take off in a cycle (R460). -/
def burden (k : Cluster) (t : Nat) : Nat :=
  ((k.work.filter fun x => decide (x.after < t ∧ t ≤ x.last)).map (·.weight)).sum

/-- The next n cycles pass, with the work that engines do in them (R459, R460). -/
def workOn (k : Cluster) : Nat → Cluster
  | 0 => k
  | n + 1 => ((k.idleTo (k.cAt + 1)).spend (k.burden (k.cAt + 1))).workOn n

/-- The counters brought up to cycle t. -/
def upTo (k : Cluster) (t : Nat) : Cluster :=
  if k.work.isEmpty then k.idleTo t
  else
    let u := k.workOn (min t ((k.work.map (·.last)).foldl max 0) - k.cAt)
    { u with work := k.work.filter fun x => decide (t < x.last) }.idleTo t

/-- Allowance counter in cycle t, after its refill (R459). -/
def allowance (k : Cluster) (t : Nat) : Nat := (k.upTo t).c

/-- Level in force in cycle t (R459, R461). -/
def levelAt (k : Cluster) (t : Nat) : Nat := (k.upTo t).startLevel

/-- The cycles before cycle t in which a role was withheld. -/
def heldAt (k : Cluster) (role t : Nat) : Nat := (k.upTo t).held.getD role 0

/-- A weight taken off the allowance in cycle t (R459). -/
def debit (k : Cluster) (t weight : Nat) : Cluster := (k.upTo t).spend weight

/-- An engine works in the n cycles after cycle t, each of a weight (R460). -/
def works (k : Cluster) (t n weight : Nat) : Cluster :=
  if n = 0 then k else let u := k.upTo t; { u with work := u.work ++ [⟨t, t + n, weight⟩] }

end Cluster

namespace State

/-- Allowance counter of a cluster at the present cycle (R459). -/
def allowance (s : State) (cl : Nat) : Nat := (s.getCluster cl).allowance (s.nowIn cl)

/-- Level in force in a cluster (R459, R461). -/
def level (s : State) (cl : Nat) : Nat := (s.getCluster cl).levelAt (s.nowIn cl)

/-- A weight is taken off the allowance of a cluster (R459, R460). -/
def debit (s : State) (cl weight : Nat) : State := s.modCluster cl fun k => k.debit (s.nowIn cl) weight

/-- An engine of a cluster works for n cycles from now on, each of a weight (R460). -/
def engineWork (s : State) (cl n weight : Nat) : State := s.modCluster cl fun k => k.works (s.nowIn cl) n weight

/-- Debit the cluster of the current warp; a management core has none. -/
def debitW (s : State) (weight : Nat) : State :=
  if isMgmt s.cur.wid then s else s.debit (clusterOf (coreOf s.cur.wid)) weight

/-! ## Ages (R410, R411) -/

/-- The scale on which ages are counted, at cycle t: the cycles of a warp's core in which its role was not withheld
(R411). -/
def ageAt (s : State) (wid t : Nat) : Int :=
  if isMgmt wid then t
  else (t : Int) - (s.getCluster (clusterOf (coreOf wid))).heldAt (s.getWarp wid).role.toNat t

/-- The same in the present cycle. -/
def ageClock (s : State) (wid : Nat) : Int := s.ageAt wid (s.nowOf wid)

end State

/-- A moment from which a gang may issue: a cycle, its place on the scale of ages, and the end of an issue gap that does not
hold the gang (R124), 0 for none. -/
structure When where
  cycle : Nat
  age : Int
  exempt : Nat
  deriving DecidableEq, Repr

namespace State

/-- The moment n cycles on for a warp; those cycles count as not withheld (log 39). -/
def whenIn (s : State) (wid n : Nat) : When := ⟨s.nowOf wid + n, s.ageClock wid + n, 0⟩

/-! ## Rows (R175-R183) -/

/-- The warps of a core that have not ended, with the results that are visible by now written and the rows that these free
returned (R177, R183), and the warps of stopped teams that keep their rows (R403). -/
def warpsOn (s : State) (c : Nat) : List (Nat × Warp) :=
  (s.warps.filter fun e => coreOf e.1 = c && (!e.2.ended || e.2.keeps)).map fun e =>
    (e.1, if e.2.ended then e.2 else e.2.settle (s.nowOf e.1))

end State

/-- N(w) (R177). -/
def Warp.nRows (w : Warp) : Nat := w.rows.length + w.granted.length
/-- B(w) (R177). -/
def Warp.bRows (w : Warp) : Nat := w.nRows - w.floor
/-- The borrowed rows that a request for n more adds (R178). -/
def Warp.needs (w : Warp) (n : Nat) : Nat := (w.nRows + n - w.floor) - w.bRows
/-- The queued request of a warp, while it waits for its rows (R178). -/
def Warp.waiting (w : Warp) : Option RowReq := if w.granted.isEmpty then w.rowReq else none
/-- Has a request waited 1024 cycles (R179)? -/
def RowReq.agedAt (r : RowReq) (now : Nat) : Bool := r.aged || decide (r.since + 1024 ≤ now)

/-- A free row: of an awake bank when one exists, otherwise of the lowest drowsy bank (R190). -/
def pickRow (used : List Nat) (awake : BitVec 32) : Option Nat :=
  let banks := (List.range 32).filter (fun b => awake.getLsbD b) ++
    (List.range 32).filter (fun b => !awake.getLsbD b)
  banks.findSome? fun b => (List.range 64).findSome? fun r =>
    if used.contains (64 * b + r) then none else some (64 * b + r)

/-- `n` free rows. -/
def pickRows (awake : BitVec 32) : Nat → List Nat → List Nat
  | 0, _ => []
  | n + 1, used =>
    match pickRow used awake with
    | some r => r :: pickRows awake n (r :: used)
    | none => []

/-- An element put before the first of a sorted list whose key is not less. -/
def insertBy {α : Type} (key : α → Nat) (x : α) : List α → List α
  | [] => [x]
  | y :: rest => if key x ≤ key y then x :: y :: rest else y :: insertBy key x rest

/-- A list in the order of a key; of equal ones the earlier first. -/
def sortBy {α : Type} (key : α → Nat) : List α → List α
  | [] => []
  | x :: rest => insertBy key x (sortBy key rest)

/-- The request to grant: the oldest that fits, with no aged one before it (R179). -/
def nextGrant (free now : Nat) : List (Nat × Warp × RowReq) → Option (Nat × RowReq)
  | [] => none
  | e :: rest =>
    if e.2.1.needs e.2.2.n ≤ free then some (e.1, e.2.2)
    else if e.2.2.agedAt now then none else nextGrant free now rest

namespace State

/-- RES of a core (R177). -/
def resRows (s : State) (c : Nat) : Nat := ((s.warpsOn c).map fun e => e.2.floor).sum
/-- BOR of a core (R177). -/
def borRows (s : State) (c : Nat) : Nat := ((s.warpsOn c).map fun e => e.2.bRows).sum
/-- FREE of a core (R177). -/
def freeRows (s : State) (c : Nat) : Nat := 2048 - s.resRows c - s.borRows c
/-- Physical rows in use on a core. -/
def usedRows (s : State) (c : Nat) : List Nat :=
  (s.warpsOn c).flatMap fun e => e.2.rows.map (·.row) ++ e.2.granted

/-- The queued requests of a core that wait, oldest first. -/
def queuedReqs (s : State) (core : Nat) : List (Nat × Warp × RowReq) :=
  sortBy (fun e => e.2.2.since) ((s.warpsOn core).filterMap fun e => e.2.waiting.map fun r => (e.1, e.2, r))

/-- The rows of one queued request are granted, and its warp becomes ready (R179). -/
def grantOne (s : State) (core : Nat) : Option State :=
  (nextGrant (s.freeRows core) (s.nowOf (64 * core)) (s.queuedReqs core)).map fun x =>
    s.modWarp x.1 fun w => { w with granted := pickRows (s.getCore core).awake x.2.n (s.usedRows core),
                                    readyAt := s.ageClock x.1 }

/-- Every queued request that fits is granted, in turn (R179). -/
def grantRows (s : State) (core : Nat) : Nat → State
  | 0 => s
  | n + 1 => match s.grantOne core with
    | some t => t.grantRows core n
    | none => s

/-- The rows of the core once every queued request that fits is granted. -/
def granting (s : State) (core : Nat) : State := s.grantRows core (s.queuedReqs core).length

/-- An answer to a row request (R178). -/
inductive RowAnswer where
  | rows (l : List Nat)
  | vrow
  | wait

/-- `Request` of R178 for warp `wid` and n rows; rows granted earlier are used first, and queued requests that fit go
before (R179). -/
def requestRows (s : State) (wid n : Nat) : RowAnswer :=
  let w := s.getWarp wid
  let c := coreOf wid
  if n = 0 ∨ isMgmt wid then .rows []
  else if n ≤ w.granted.length then .rows (w.granted.take n)
  else
    let w := { w with rowReq := none, granted := [] }
    let need := w.needs n
    let g := (s.setWarp wid w).granting c
    let rows := RowAnswer.rows (pickRows (s.getCore c).awake n (g.usedRows c))
    if need = 0 then rows
    else if !w.borrow then .vrow
    else if w.floor + (2048 - s.resRows c) < w.rows.length + n then .vrow
    else if need ≤ g.freeRows c && !(g.queuedReqs c).any (fun e => e.2.2.agedAt (s.nowOf wid)) then rows
    else .wait

/-- Wake the banks of some rows; the cycles that the access is late (R190). -/
def wakeBanks (s : State) (c : Nat) (rows : List Nat) : Nat × State :=
  if rows.isEmpty then (0, s)
  else
    let m : BitVec 32 := rows.foldl (fun m r => m ||| BitVec.twoPow 32 (r / 64)) 0
    let k := s.getCore c
    (if m &&& ~~~k.awake = 0 then 0 else 20, s.setCore c { k with awake := k.awake ||| m })

end State

/-! ## Coordinates (R51, R52) -/

/-- Coordinate word of a core (R51), UNIT 0. -/
def State.coordOf (s : State) (c : Nat) : BitVec 16 :=
  let d := dieOfCore c
  let site := (s.getDie d).sites.getD (c % 192 / 4) 0
  let q := quarterOf c
  let row := 2 * (site / 7) + q / 2
  let col := 2 * (site % 7) + q % 2
  BitVec.ofNat 16 (d * 2 ^ 14 + row * 2 ^ 10 + col * 2 ^ 6)

/-- The enabled core that a coordinate with UNIT 0 names (R52). -/
def State.coreAt (s : State) (x : BitVec 16) : Option Nat :=
  let n := x.toNat
  let d := n / 2 ^ 14
  let row := n / 2 ^ 10 % 16
  let col := n / 2 ^ 6 % 16
  if n % 64 ≠ 0 ∨ 14 ≤ col then none
  else
    let site := row / 2 * 7 + col / 2
    match (s.getDie d).sites.findIdx? (· == site) with
    | some k => some (192 * d + 4 * k + (row % 2) * 2 + col % 2)
    | none => none

end Sys2Proof.Machine
end

