-- ==== Sys2Proof/Machine/Interrupts.lean ====
section
/-! DEFINITION. Interrupt causes, package events and wake registers (spec/21 R470, R471, R474; spec/05 R149). -/

namespace Sys2Proof.Machine

/-- First index and count of a grant register (R475): PQUE and PCTR. -/
def grantFirst (width : Nat) (v : Word) : Nat := v.toNat % 2 ^ width
def grantCount (width : Nat) (v : Word) : Nat := v.toNat / 2 ^ 16 % 2 ^ (width + 1)

/-- Does the partition hold host work queue q (R475)? -/
def Partition.holdsQueue (p : Partition) (q : Nat) : Bool :=
  decide (grantFirst 12 p.pque ≤ q ∧ q < grantFirst 12 p.pque + grantCount 12 p.pque)

/-- Does the partition hold completion counter c (R475)? -/
def Partition.holdsCounter (p : Partition) (c : Nat) : Bool :=
  decide (grantFirst 10 p.pctr ≤ c ∧ c < grantFirst 10 p.pctr + grantCount 10 p.pctr)

/-- Does the partition hold a core (R475)? -/
def Partition.holdsCore (p : Partition) (core : Nat) : Bool :=
  decide (core < 768) && (p.pcore.get (core / 32) 0).getLsbD (core % 32)

namespace State

/-- The partition that holds a queue, a counter or a core. -/
def queueHolder (s : State) (q : Nat) : Option Nat := (List.range 32).find? fun p => (s.getPart p).holdsQueue q
def counterHolder (s : State) (c : Nat) : Option Nat := (List.range 32).find? fun p => (s.getPart p).holdsCounter c
def coreHolder (s : State) (c : Nat) : Option Nat := (List.range 32).find? fun p => (s.getPart p).holdsCore c

/-- A message leaves the part. -/
def send (s : State) (m : Message) : State :=
  { s with host := { s.host with messages := s.host.messages ++ [m] } }

/-- Cause bit k of a partition is set; if it was 0 and is not masked, its MSI-X message is sent (R471). -/
def raiseCause (s : State) (p k : Nat) : State :=
  let b := s.getPart p
  let s' := s.setPart p { b with pint := b.pint ||| BitVec.twoPow 6 k }
  if !b.pint.getLsbD k && !b.pintm.getLsbD k then
    s'.send (.msix (some p) ((b.pvec.extractLsb' (5 * k) 5).toNat))
  else s'

/-- Event bit k of PEVT is set, with vector 0 of the physical function (R474). -/
def raiseEvent (s : State) (k : Nat) : State :=
  { s with host := { s.host with pevt := s.host.pevt ||| BitVec.twoPow 5 k } }.send (.msix none 0)

/-- A write that firmware makes: there is none while no management core runs (R482). -/
def byFirmware (s : State) (f : State → State) : State := if (List.range 4).any fun d => (s.getDie d).mgRun then f s else s

/-- The heartbeat of loaded firmware is 100 ms late: PEVT.FWDOG is set (R482). -/
def fwdog (s : State) : State :=
  if s.host.fwstat.getLsbD 0 && decide (s.host.hbeatAt + 100000000 ≤ s.gtime) then
    { s with host := { s.host with hbeatAt := s.gtime } }.raiseEvent 1
  else s

/-- A queue's refusal code (R398, R472): cause QREF when it changes from 0 (R471). -/
def setQref (s : State) (q : Nat) (code : BitVec 8) : State :=
  let old := (s.getQueue q).qref
  let s := s.modQueue q fun k => { k with qref := code }
  if old = 0 ∧ code ≠ 0 then
    match s.queueHolder q with
    | some p => s.raiseCause p 0
    | none => s
  else s

/-- Bits ORed into the wake register of a queue that a partition holds (R149); cause WAKE when it leaves 0 (R471). -/
def wakeQueue (s : State) (q : Nat) (v : Word) : State :=
  match s.queueHolder q with
  | none => s
  | some p =>
    let old := (s.getQueue q).wake
    let s := s.modQueue q fun k => { k with wake := old ||| v }
    if old = 0 ∧ v ≠ 0 then s.raiseCause p 4 else s

/-- Bits ORed into the wake register of a die's management core (R149, R465). -/
def wakeDie (s : State) (d : Nat) (v : Word) : State :=
  s.modDie d fun k => { k with wakeReg := k.wakeReg ||| v }

end State
end Sys2Proof.Machine
end

