-- ==== Sys2Proof/Machine/Memory.lean ====
section
/-! DEFINITION. Home memory, die caches, translation, store queues and scratchpads: the places and the order in which
accesses are performed (spec/09, spec/10). -/

namespace Sys2Proof.Machine

/-! ## Canonical memory -/

/-- The byte at an address; an unlisted one reads 0 (log 2). -/
def cellGet (m : List Host.Cell) (a : Nat) : Byte := SMap.get m a 0

/-- The memory with one byte written, in canonical form. -/
def cellSet (m : List Host.Cell) (a : Nat) (v : Byte) : List Host.Cell := if v = 0 then SMap.erase m a else SMap.set m a v

/-- The canonical form: addresses strictly rising, no entry holding what an unlisted address reads as. -/
def Memory.wf : List Host.Cell → Bool
  | [] => true
  | [(_, v)] => v != 0
  | (a, v) :: (b, u) :: rest => decide (a < b) && v != 0 && Memory.wf ((b, u) :: rest)

/-- `n` bytes from an address. -/
def cellsGet (m : List Host.Cell) (a : Nat) : Nat → List Byte
  | 0 => []
  | n + 1 => cellGet m a :: cellsGet m (a + 1) n

/-- Bytes written from an address up. -/
def cellsSet (m : List Host.Cell) (a : Nat) : List Byte → List Host.Cell
  | [] => m
  | b :: rest => cellsSet (cellSet m a b) (a + 1) rest

/-- An ascending list with a number in it. -/
def setInsert : List Nat → Nat → List Nat
  | [], a => [a]
  | b :: rest, a => if a < b then a :: b :: rest else if a = b then b :: rest else b :: setInsert rest a

/-- The little-endian number that bytes hold (R4). -/
def leNat : List Byte → Nat
  | [] => 0
  | b :: rest => b.toNat + 256 * leNat rest

/-- The bytes of a word or a 64-bit value (R4). -/
def wordBytes (w : Word) : List Byte := leBytes 4 w.toNat
def dwordBytes (w : DWord) : List Byte := leBytes 8 w.toNat

/-- A die whose copy of a line misses write n of die `src`, 4 for another agent (log 71). -/
def Die.missing (k : Die) (line src n : Nat) : Die :=
  let mark (l : CLine) : CLine := if l.missed.any fun m => m.1 == src then l else { l with missed := (src, n) :: l.missed }
  { k with cache := k.cache.map fun e => (e.1, if e.1 = line then mark e.2 else e.2) }

/-- What two sets of writes know together, die by die (R262). -/
def joinTags (a b : List Nat) : List Nat := (List.range 4).map fun d => max (a.getD d 0) (b.getD d 0)

namespace State

/-! ## Home memory (R254, R257) -/

/-- Is the peer that owns a physical address down (R477)? -/
def peerDown (s : State) (pa : Nat) : Bool :=
  decide (Config.peerBase ≤ pa) && s.host.down.contains (Config.peerOf pa)

def homeRead (s : State) (pa n : Nat) : List Byte :=
  if s.peerDown pa then List.replicate n 0 else cellsGet s.mem pa n

/-- The number of home writes of each die that what die d releases now carries along: its own, those that happen before what
it does, and those that it has observed (R262; log 71). -/
def knows (s : State) (d : Nat) : List Nat :=
  (List.range 4).map fun k =>
    if k = d then (s.getDie d).wrote else max ((s.getDie d).heard.getD k 0) ((s.getDie d).seen.getD k 0)

/-- All home writes of each die. -/
def written (s : State) : List Nat := (List.range 4).map fun d => (s.getDie d).wrote

/-- A line's home takes a write of an agent of die `src`, or of another agent where `src` is 4: the copies of other dies have
missed it, and the line carries what happens before it (R257, R262; log 71). -/
def noted (s : State) (src line : Nat) : State :=
  let s := if src < 4 then s.modDie src fun k => { k with wrote := k.wrote + 1 } else s
  let n := if src < 4 then (s.getDie src).wrote else 0
  let tag := if src < 4 then joinTags (s.tags.get line []) (s.knows src) else s.written
  { s with
    tags := s.tags.set line tag
    dies := s.dies.map fun e => (e.1, if e.1 = src then e.2 else e.2.missing line src n) }

/-- Bytes stored at their home by an agent that is of no die; a store to a peer that is down is dropped (R477). -/
def homeWrite (s : State) (pa : Nat) (bytes : List Byte) : State :=
  if s.peerDown pa then s
  else (List.range ((pa + bytes.length + 63) / 64 - pa / 64)).foldl (fun s i => s.noted 4 (pa / 64 + i))
    { s with mem := cellsSet s.mem pa bytes }

/-- The lines that n bytes from an address cover whole. -/
def wholeLines (pa n : Nat) : List Nat :=
  (List.range ((pa + n) / 64 - (pa + 63) / 64)).map fun i => (pa + 63) / 64 + i

/-- Bytes without poison that an engine writes at their home: the lines that they cover whole lose their poison (R236). -/
def engineWrite (s : State) (pa : Nat) (bytes : List Byte) : State :=
  let whole := wholeLines pa bytes.length
  { s.homeWrite pa bytes with poison := s.poison.filter fun l => !whole.contains l }

/-- Poison of a line at its home (R236); a peer that is down returns poison (R477). -/
def homePoison (s : State) (line : Nat) : Bool := s.peerDown (64 * line) || s.poison.contains line

def setHomePoison (s : State) (line : Nat) (p : Bool) : State :=
  { s with poison := if p then setInsert s.poison line else s.poison.filter (· != line) }

/-! ## Die caches (R256, R257, R260, R261) -/

/-- Is the line's home elsewhere than at die d, so that the die cache may hold a copy? -/
def foreign (d line : Nat) : Bool := decide (Config.homeDie (64 * line) ≠ some d)

def getLine? (s : State) (d line : Nat) : Option CLine := (s.getDie d).cache.find? line
def setLine (s : State) (d line : Nat) (l : CLine) : State :=
  s.modDie d fun k => { k with cache := k.cache.set line l }
def dropLine (s : State) (d line : Nat) : State :=
  s.modDie d fun k => { k with cache := k.cache.erase line }

end State

/-- Byte i of a line. -/
def lineByte (x : BitVec 512) (i : Nat) : Byte := x.extractLsb' (8 * i) 8

/-- A line with byte i replaced. -/
def lineSet (x : BitVec 512) (i : Nat) (b : Byte) : BitVec 512 :=
  (x &&& ~~~((0xFF#512) <<< (8 * i))) ||| ((b.zeroExtend 512) <<< (8 * i))

/-- A line from 64 bytes. -/
def lineOf (bytes : List Byte) : BitVec 512 := BitVec.ofNat 512 (leNat bytes)

/-- A line with bytes replaced from byte i up. -/
def lineWrite (x : BitVec 512) (i : Nat) : List Byte → BitVec 512
  | [] => x
  | b :: rest => lineWrite (lineSet x i b) (i + 1) rest

/-- Bytes i to i+n-1 of a set of 64. -/
def byteMask (i n : Nat) : BitVec 64 := (lowLanes n) <<< i

namespace State

/-- The copy of a line with every byte valid: missing bytes are fetched from the home and merged under the valid
ones (R261). -/
def fetched (s : State) (d line : Nat) : CLine :=
  let home := lineOf (s.homeRead (64 * line) 64)
  match s.getLine? d line with
  | none => ⟨home, BitVec.allOnes 64, 0, s.homePoison line, false, [], [], s.tags.get line []⟩
  | some l =>
    if l.valid = BitVec.allOnes 64 then l
    else
      let data := (List.range 64).foldl
        (fun x i => if l.valid.getLsbD i then lineSet x i (lineByte l.data i) else x) home
      { l with data := data, valid := BitVec.allOnes 64, missed := [], tag := joinTags l.tag (s.tags.get line []),
               poison := if l.pdirty then l.poison else s.homePoison line }

/-- The state with a line fetched into a die cache. -/
def fetchLine (s : State) (d line : Nat) : State :=
  if foreign d line && !s.peerDown (64 * line) then s.setLine d line (s.fetched d line) else s

/-- `n` bytes at a physical address, within one line, as die d sees them. -/
def dieRead (s : State) (d pa n : Nat) : List Byte :=
  let line := pa / 64
  if foreign d line && !s.peerDown pa then
    let l := s.fetched d line
    (List.range n).map fun i => lineByte l.data (pa % 64 + i)
  else s.homeRead pa n

/-- Poison of a line as die d sees it (R236). -/
def diePoison (s : State) (d line : Nat) : Bool :=
  if foreign d line && !s.peerDown (64 * line) then (s.fetched d line).poison else s.homePoison line

/-- The lines of a cache that `f` takes lose their clean bytes: clean lines go (R261). -/
def shedLines (f : Nat → CLine → Bool) (m : SMap CLine) : SMap CLine :=
  m.keys.foldl (fun m line => match m.find? line with
    | none => m
    | some l =>
      if !f line l then m
      else if l.dirty = 0 ∧ !l.pdirty then m.erase line
      else m.set line { l with valid := l.dirty }) m

/-- The lines of die d that `f` takes lose their clean bytes. -/
def shed (s : State) (d : Nat) (f : Nat → CLine → Bool) : State :=
  s.modDie d fun k => { k with cache := shedLines f k.cache }

/-- Bytes stored in memory by an agent of die `src`, within one line, at their home; a store to a peer that is down is dropped
(R257, R477). The agents of that die see it: its cache keeps no older byte of the line that it has not
written itself (R258, R273). -/
def homeStore (s : State) (src pa : Nat) (bytes : List Byte) : State :=
  if s.peerDown pa then s
  else (({ s with mem := cellsSet s.mem pa bytes }).noted src (pa / 64)).shed src fun line _ => line == pa / 64

/-- What happens before the home writes that an access of die d to a line may observe (R262; log 71). -/
def sight (s : State) (d line : Nat) : List Nat :=
  if foreign d line && !s.peerDown (64 * line) then (s.fetched d line).tag else s.tags.get line []

/-- An access of die d observes a line: the die's releases carry along what happens before what it holds (R262). -/
def saw (s : State) (d line : Nat) : State := s.modDie d fun k => { k with seen := joinTags k.seen (s.sight d line) }

/-- Bytes written at die d, within one line (R256, R257). -/
def dieWrite (s : State) (d pa : Nat) (bytes : List Byte) : State :=
  let line := pa / 64
  if foreign d line && !s.peerDown pa then
    let l := s.fetched d line
    let m := byteMask (pa % 64) bytes.length
    s.setLine d line { l with data := lineWrite l.data (pa % 64) bytes, dirty := l.dirty ||| m }
  else s.homeStore d pa bytes

/-- Poison bit of a line set or cleared at die d (R236). -/
def dieSetPoison (s : State) (d line : Nat) (p : Bool) : State :=
  if foreign d line && !s.peerDown (64 * line) then
    let l := s.fetched d line
    s.setLine d line { l with poison := p, pdirty := true }
  else s.setHomePoison line p

/-- A store to a peer that is down is dropped, and counts as an error of the team (R477). -/
def teamError (s : State) (team : Nat) (warp cls : Nat) (sub : BitVec 8) (addr : DWord) : State :=
  s.modTeam team fun t =>
    let e := t.errWord
    let w : DWord := addr.extractLsb' 0 32 ++ 1#16 ++ BitVec.ofNat 6 warp ++ BitVec.ofNat 2 cls ++ sub
    if e = 0 then { t with errWord := w }
    else
      let c := e.extractLsb' 16 16
      let c' := if c = 0xFFFF#16 then c else c + 1
      { t with errWord := e.extractLsb' 32 32 ++ c' ++ e.extractLsb' 0 16 }

/-- An access to a peer that is down counts in the error word of the team that made it, and PEVT.LINK is set (R477). -/
def linkLost (s : State) (x : PeerStore) : State :=
  (s.teamError x.team x.warp x.cls 0x22 (BitVec.ofNat 64 x.pa)).raiseEvent 2

/-- Write the dirty bytes of a line, and a changed poison bit, into the home order in one step (R257); the stores that a line
of a peer that is down holds are dropped (R477). -/
def writeBackLine (s : State) (d line : Nat) : State :=
  match s.getLine? d line with
  | none => s
  | some l =>
    if l.dirty = 0 ∧ !l.pdirty then s
    else
      let t := s.setLine d line { l with dirty := 0, pdirty := false, stores := [] }
      if s.peerDown (64 * line) then l.stores.foldl linkLost t
      else
        let mem := (List.range 64).foldl
          (fun m i => if l.dirty.getLsbD i then cellSet m (64 * line + i) (lineByte l.data i) else m) t.mem
        let t := ({ t with mem }).noted d line
        if l.pdirty then t.setHomePoison line l.poison else t

/-- Scope codes of R252. -/
def scopeCore : Nat := 0
def scopeClus : Nat := 1
def scopeDie : Nat := 2
def scopePkg : Nat := 3
def scopeSys : Nat := 4

/-- Does a release or an acquire at a scope reach this line: homed at another die from PKG up, host and peer memory
at SYS (R260, R261)? -/
def reached (d scope line : Nat) : Bool :=
  match Config.homeDie (64 * line) with
  | some h => decide (scopePkg ≤ scope) && h != d
  | none => decide (scopeSys ≤ scope)

/-- The write-backs of a release at a scope (R260). -/
def writeBackAll (s : State) (d scope : Nat) : State :=
  ((s.getDie d).cache.keys.filter fun l => reached d scope l).foldl (fun st l => st.writeBackLine d l) s

/-- The agents of die d know what a set of writes knows (R262). -/
def learn (s : State) (d : Nat) (tag : List Nat) : State :=
  s.modDie d fun k => { k with heard := joinTags k.heard tag }

/-- The invalidations of an acquire at a scope (R261); at PKG and up it may follow any release. -/
def invalidate (s : State) (d scope : Nat) : State :=
  let s := s.shed d fun line _ => reached d scope line
  if scopePkg ≤ scope then s.learn d s.written else s

/-- Has a copy missed a write that the agents of its die know of (R258; log 71)? -/
def stale (known : List Nat) (l : CLine) : Bool :=
  l.missed.any fun m => decide (4 ≤ m.1) || decide (m.2 ≤ known.getD m.1 0)

/-- The end of an acquire at a scope whose invalidation was made before it read some lines at their homes: of the lines
fetched since, those go that have missed a write which now happens before (R258, R261; log 71). -/
def closeAcquire (s : State) (d scope : Nat) (lines : List Nat) : State :=
  let s := if scopePkg ≤ scope then lines.foldl (fun s l => s.learn d (s.tags.get l [])) s else s
  s.shed d fun line l => reached d scope line && stale (s.getDie d).heard l

/-- Write a line back and drop the copy, so that the next access is made at the home (R261, R268). -/
def expelLine (s : State) (d line : Nat) : State := (s.writeBackLine d line).dropLine d line

/-! ## Translation (R220, R223; log 11) -/

/-- The core whose order holds a warp's stores; a management core has one of its own. -/
def orderCore (wid : Nat) : Nat := coreOf wid + (if isMgmt wid then wid - 49152 else 0)

/-- What an access needs of a page (R223). -/
inductive Need where
  | read | write | readWrite | exec | any
  deriving DecidableEq, Repr

/-- Is a 64-bit address canonical (R220)? -/
def canonical (a : DWord) : Bool :=
  let t := a.extractLsb' 56 8
  t = 0 || t = BitVec.allOnes 8

/-- Does an enabled window of the partition hold the physical byte (R475)? Management cores have no windows. -/
def inWindow (s : State) (part pa : Nat) : Bool :=
  part = 32 || (List.range 16).any fun j =>
    let p := s.getPart part
    let b := (p.winBase.get j 0).toNat
    let z := (p.winSize.get j 0).toNat
    decide (b ≤ pa) && decide (pa < b + z)

/-- The dispatcher and the save engines translate through no cluster's buffer: as a core beyond the clusters. -/
def outsideCores : Nat := 768

/-- Does a page translate an address for a partition? -/
def holdsAddr (part : Nat) (a : DWord) (p : Page) : Bool :=
  p.part = part && decide (p.va ≤ a.toNat) && decide (a.toNat < p.va + p.size)

/-- The page that translates an address of a partition for a core: as its cluster's second-level buffer holds it, or as the
runtime has installed it (R15, R220). -/
def pageOf (s : State) (core part : Nat) (a : DWord) : Option Page :=
  match (s.getCluster (clusterOf core)).tlb.find? (holdsAddr part a) with
  | some p => some p
  | none => s.pages.find? (holdsAddr part a)

/-- The physical address that a core reaches, or the system fault code of R127: 0x20 XLATE, 0x21 PROT. -/
def translate (s : State) (core part : Nat) (need : Need) (a : DWord) : Except (BitVec 8) Nat :=
  if !canonical a then .error 0x20
  else match s.pageOf core part a with
    | none => .error 0x20
    | some p =>
      let pa := p.pa + (a.toNat - p.va)
      let ok := match need with
        | .read => p.read
        | .write => p.write
        | .readWrite => p.read && p.write
        | .exec => p.exec
        | .any => true
      if ok && s.inWindow part pa then .ok pa else .error 0x21

/-! ## Scratchpads (R230-R237) -/

end State

namespace Team

/-- Is a scratchpad word pending (R232)? -/
def pending (t : Team) (word : Nat) : Bool := t.marks.any fun m => m.1 == word

/-- The granule of an offset is written (R435). -/
def touch (t : Team) (off : Nat) : Team := { t with written := setInsert t.written (off / 4096) }

/-- Bytes that a warp or an engine stores, without their poison. -/
def spBytes (t : Team) (off : Nat) (bytes : List Byte) : Team :=
  if bytes.isEmpty then t else ({ t with sp := cellsSet t.sp off bytes }).touch off

/-- A word's raw value. -/
def spWord (t : Team) (word : Nat) : Word := BitVec.ofNat 32 (leNat (cellsGet t.sp (4 * word) 4))

/-- A word as LDSP reads it: 0 with poison while it is pending (R232, R237). -/
def spLoad (t : Team) (word : Nat) : Lane :=
  if t.pending word then ⟨0, true⟩ else ⟨t.spWord word, t.spPoison.contains word⟩

def setSpPoison (t : Team) (word : Nat) (p : Bool) : Team :=
  { t with spPoison := if p then setInsert t.spPoison word else t.spPoison.filter (· != word) }

/-- STSP of naturally aligned bytes: 4 bytes or more clear the error poison of the words they cover (R237). -/
def spStore (t : Team) (off : Nat) (bytes : List Byte) : Team :=
  let t := t.spBytes off bytes
  if 4 ≤ bytes.length then
    { t with spPoison := t.spPoison.filter fun w => !(decide (off / 4 ≤ w) && decide (w < (off + bytes.length) / 4)) }
  else t

/-- An engine's write of a whole word: the word takes the poison of the data and is no longer pending for the
command (R237). -/
def engWord (t : Team) (cmd word : Nat) (x : Lane) : Team :=
  let t := (t.spBytes (4 * word) (wordBytes x.val)).setSpPoison word x.poison
  { t with marks := t.marks.filter (· != (word, cmd)) }

/-- An engine's write of part of a word: poison is set by poisoned data and otherwise kept (R237). -/
def engBytes (t : Team) (off : Nat) (bytes : List Byte) (p : Bool) : Team :=
  let t := t.spBytes off bytes
  if p then t.setSpPoison (off / 4) true else t

/-- Withdraw a command's mark on a word. -/
def unmark (t : Team) (cmd word : Nat) : Team := { t with marks := t.marks.filter (· != (word, cmd)) }

/-- Mark words pending for a command (R232), those that lie in the allocation. -/
def mark (t : Team) (cmd : Nat) (words : List Nat) : Team :=
  { t with marks := t.marks ++ ((words.eraseDups.filter fun w => decide (4 * w + 4 ≤ t.size)).map fun w => (w, cmd)) }

end Team

namespace State

/-! ## Store queues and the core order (R255, R256) -/

/-- The line that an entry of a core order touches, if it is device memory. -/
def entryLine : StoreOp → Option Nat
  | .dev pa _ => some (pa / 64)
  | .rel _ pa _ => some (pa / 64)
  | .clearLine l => some l
  | .writeBack l => some l
  | .atom _ _ _ pa _ _ _ => some (pa / 64)
  | _ => none

/-- Does an entry touch n bytes from an offset of a team's scratchpad, counted in whole words? -/
def touchesSp (team off n : Nat) (e : StoreEntry) : Bool :=
  match e.op with
  | .sp u o bs | .spRemote u o bs => u == team && decide (o / 4 * 4 < off + n ∧ off / 4 * 4 < o + bs.length)
  | .clearWord u w => u == team && decide (4 * w < off + n ∧ off < 4 * w + 4)
  | _ => false

/-- The access of a warp to a physical address, as one that may be lost. -/
def peerAccess (s : State) (wid pa : Nat) : PeerStore :=
  if isMgmt wid then ⟨0, 0, 0, pa⟩ else ⟨(s.getWarp wid).team, (s.getWarp wid).index, 0, pa⟩

/-- An access of a warp to a peer that is down counts in its team's error word, and PEVT.LINK is set (R477). -/
def linkError (s : State) (wid pa : Nat) : State :=
  if s.peerDown pa then s.linkLost (s.peerAccess wid pa) else s

/-- A store that die d makes: to a peer that is down it is dropped, and one that its cache keeps for a peer is remembered until
its line is written back (R256, R477). -/
def peerWrite (s : State) (d pa : Nat) (bytes : List Byte) (by' : PeerStore) : State :=
  if s.peerDown pa then s.linkLost by'
  else
    let s := s.dieWrite d pa bytes
    if Config.peerBase ≤ pa then
      s.modDie d fun k => { k with cache := k.cache.map fun e =>
        if e.1 = pa / 64 then (e.1, { e.2 with stores := e.2.stores ++ [by'] }) else e }
    else s

/-- One entry that leaves the core order is performed (R256). -/
def performOp (s : State) (core : Nat) (e : StoreEntry) : State :=
  let d := if isMgmt e.wid then dieOf e.wid else dieOfCore core
  match e.op with
  | .dev pa bytes => s.peerWrite d pa bytes (s.peerAccess e.wid pa)
  | .rel scope pa bytes =>
    let s := s.peerWrite d pa bytes (s.peerAccess e.wid pa)
    if scopePkg ≤ scope then s.writeBackLine d (pa / 64) else s
  | .clearLine l =>
    let t := s.peerWrite d (64 * l) (List.replicate 64 0) (s.peerAccess e.wid (64 * l))
    if s.peerDown (64 * l) then t else t.dieSetPoison d l false
  | .writeBack l => s.writeBackLine d l
  | .spRemote team off bytes => s.modTeam team fun t =>
      if t.status = .out then { t with owed := t.owed ++ [(off, bytes)] } else t.spStore off bytes
  | _ => s

/-- The k-th entry of a core order may leave: no older entry touches its line, or its scratchpad words (R255, R256). -/
def mayLeave (order : List StoreEntry) (k : Nat) : Bool :=
  match order[k]? with
  | none => false
  | some e =>
    match e.op with
    | .spRemote team off bs => (order.take k).all fun f => !touchesSp team off bs.length f
    | op => (entryLine op).isNone || (order.take k).all fun f => entryLine f.op != entryLine op

/-- The k-th entry leaves the core order, if it may. -/
def storeLeaves (s : State) (core k : Nat) : State :=
  let order := (s.getCore core).order
  match order[k]? with
  | none => s
  | some e =>
    if mayLeave order k then
      (s.modCore core fun c => { c with order := c.order.eraseIdx k }).performOp core e
    else s

/-- Every entry of the core order up to and with index k leaves, oldest first. -/
def leaveFirst (s : State) (core : Nat) : Nat → State
  | 0 => s
  | n + 1 => (s.storeLeaves core 0).leaveFirst core n

/-- The number of entries up to and with the last that `f` takes. -/
def upToLast (l : List StoreEntry) (f : StoreEntry → Bool) : Nat :=
  (List.range l.length).foldl
    (fun n k => match l[k]? with
      | some e => if f e then k + 1 else n
      | none => n) 0

/-- Perform what a core order holds of some entries, with what stands before them. -/
def flushWhere (s : State) (core : Nat) (f : StoreEntry → Bool) : State :=
  s.leaveFirst core (upToLast (s.getCore core).order f)

/-- Perform everything in the core order of a warp: its own accesses, and those of its core that come before (R260, R262). -/
def flushOrder (s : State) (wid : Nat) : State :=
  s.leaveFirst (orderCore wid) (s.getCore (orderCore wid)).order.length

/-- Perform what the core order holds of one line. -/
def flushLine (s : State) (core line : Nat) : State := s.flushWhere core fun e => entryLine e.op == some line

end State

/-! ## Atomics (R265-R268) -/

/-- The new value at a unit; none when nothing is written (R265, R266). -/
def AtomOp.newValue (op : AtomOp) (old a b : DWord) : Option DWord :=
  let o := old.extractLsb' 0 32
  let x := a.extractLsb' 0 32
  let w (v : Word) : Option DWord := some (v.zeroExtend 64)
  let f (r : FRes) : Option DWord := some (BitVec.ofNat 64 r.1)
  match op with
  | .add => w (o + x)
  | .minS => w (if o.toInt ≤ x.toInt then o else x)
  | .maxS => w (if o.toInt ≤ x.toInt then x else o)
  | .minN => w (if o.toNat ≤ x.toNat then o else x)
  | .maxN => w (if o.toNat ≤ x.toNat then x else o)
  | .andB => w (o &&& x)
  | .orB => w (o ||| x)
  | .xorB => w (o ^^^ x)
  | .exch => w x
  | .cas => if o = x then w (b.extractLsb' 0 32) else none
  | .faddF32 => f (fadd .f32 FEnv.zero o.toNat x.toNat)
  | .faddF64 => f (fadd .f64 FEnv.zero old.toNat a.toNat)
  | .fminF32 => f (fminmax .f32 FEnv.zero false o.toNat x.toNat)
  | .fmaxF32 => f (fminmax .f32 FEnv.zero true o.toNat x.toNat)
  | .add64 => some (old + a)
  | .incw => w (if x.toNat ≤ o.toNat then 0 else o + 1)

/-- The lanes that hit one unit, in turn: the value left there, the old value of each lane, and whether anything was
written (R267). -/
def atomRun (op : AtomOp) : List AtomLane → DWord → Bool → DWord × Bool × List (Nat × DWord)
  | [], v, wr => (v, wr, [])
  | l :: rest, v, wr =>
    let r := match op.newValue v l.a l.b with
      | some n => atomRun op rest n true
      | none => atomRun op rest v wr
    (r.1, r.2.1, (l.lane, v) :: r.2.2)

/-- A result with lanes replaced; a U one, of a management core, takes that of lane 0 (R29). -/
def setLanes (wd : Nat) (r : Shaped) (vals : List (Nat × Lane)) : Shaped :=
  let lane (i : Nat) : Lane := match vals.find? (fun e => e.1 == i) with
    | some e => e.2
    | none => r.lane i
  if r.isV then .v ((List.range wd).map lane) else .u (lane 0).val (lane 0).poison

namespace State

/-- Fill lanes of the results of an atomic: low words, and high words of a pair. -/
def fillResults (s : State) (wid : Nat) (res : List Nat) (vals : List (Nat × DWord × Bool)) : State :=
  s.modWarp wid fun w =>
    { w with pend := w.pend.map fun e =>
        match res.findIdx? (· == e.id), e.val with
        | some j, .shaped x =>
          let ls := vals.map fun v => (v.1, (⟨v.2.1.extractLsb' (32 * j) 32, v.2.2⟩ : Lane))
          { e with val := .shaped (setLanes w.width x ls),
                   ready := !w.storeQ.any fun q => match q.op with
                     | .atom _ _ _ _ _ _ r => r == res
                     | .atomSp _ _ _ _ r => r == res
                     | _ => false }
        | _, _ => e }

/-- An atomic on one device unit, at the place of R268. -/
def atomDevice (s : State) (wid : Nat) (op : AtomOp) (scope pa size : Nat) (ls : List AtomLane) (res : List Nat) :
    State :=
  let d := dieOf wid
  let line := pa / 64
  let s := s.flushLine (orderCore wid) line
  let home := decide (scopePkg ≤ scope) || (Config.homeDie pa).isNone
  let s := (if home then s.expelLine d line else s).saw d line
  let old : DWord := BitVec.ofNat 64 (leNat (if home then s.homeRead pa size else s.dieRead d pa size))
  let pz := if home then s.homePoison line else s.diePoison d line
  if pz then
    (s.fillResults wid res (ls.map fun l => (l.lane, old, true))).linkError wid pa
  else
    let r := atomRun op ls old false
    let s := if r.2.1 then
        (if home then s.homeStore d pa (leBytes size r.1.toNat) else s.dieWrite d pa (leBytes size r.1.toNat))
      else s
    s.fillResults wid res (r.2.2.map fun e => (e.1, e.2, false))

/-- An atomic on one scratchpad word (R271). -/
def atomScratch (s : State) (wid : Nat) (op : AtomOp) (team off : Nat) (ls : List AtomLane) (res : List Nat) : State :=
  match s.getTeam? team with
  | none => s
  | some t =>
    let x := t.spLoad (off / 4)
    if x.poison then s.fillResults wid res (ls.map fun l => (l.lane, x.val.zeroExtend 64, true))
    else
      let r := atomRun op ls (x.val.zeroExtend 64) false
      let s := if r.2.1 then s.setTeam team (t.spStore off (leBytes 4 r.1.toNat)) else s
      s.fillResults wid res (r.2.2.map fun e => (e.1, e.2, false))

/-- Bits ORed into a wake register (R149). -/
def orWake (s : State) (mgmt : Bool) (target : Nat) (v : Word) : State :=
  if mgmt then s.wakeDie target v else s.wakeQueue target v

/-- Is the team resident on a core? -/
def residesOn (s : State) (core team : Nat) : Bool :=
  (s.getTeam? team).any fun t => t.status == .resident && t.core == core

/-- The head of a warp's store queue takes its effect: it enters the core order, or is performed at once. A scratchpad access
comes after what the core order holds of its words (R255). -/
def enterOp (s : State) (wid : Nat) (e : StoreEntry) : State :=
  let c := orderCore wid
  let d := dieOf wid
  let ordered (team off n : Nat) : State := s.flushWhere c (touchesSp team off n)
  match e.op with
  | .dev _ _ | .clearLine _ | .writeBack _ => s.modCore c fun k => { k with order := k.order ++ [e] }
  | .spRemote team off bytes =>
    if s.residesOn c team then (ordered team off bytes.length).performOp c e
    else s.modCore c fun k => { k with order := k.order ++ [e] }
  | .rel scope _ _ =>
    let s := s.flushOrder wid
    (s.writeBackAll d scope).modCore c fun k => { k with order := k.order ++ [e] }
  | .sp team off bytes => (ordered team off bytes.length).modTeam team fun t => t.spStore off bytes
  | .clearWord team word => (ordered team (4 * word) 4).modTeam team fun t =>
      (t.spBytes (4 * word) [0, 0, 0, 0]).setSpPoison word false
  | .atom op rel scope pa size ls res =>
    let s := if rel then (s.flushOrder wid).writeBackAll d scope else s
    s.atomDevice wid op scope pa size ls res
  | .atomSp op team off ls res => (ordered team off 4).atomScratch wid op team off ls res
  | .fence scope =>
    if scope = scopeCore then s else (s.flushOrder wid).writeBackAll d scope
  | .signal mgmt target v =>
    let scope := if mgmt then scopePkg else scopeSys
    ((s.flushOrder wid).writeBackAll d scope).orWake mgmt target v

/-- The oldest entry of a warp's store queue leaves it (R255). -/
def drainOne (s : State) (wid : Nat) : State :=
  match (s.getWarp wid).storeQ with
  | [] => s
  | e :: rest => (s.modWarp wid fun w => { w with storeQ := rest }).enterOp wid e

/-- The oldest n entries leave. -/
def drainN (s : State) (wid : Nat) : Nat → State
  | 0 => s
  | n + 1 => (s.drainOne wid).drainN wid n

/-- Every entry of a warp's store queue leaves it. -/
def drainAll (s : State) (wid : Nat) : State := s.drainN wid (s.getWarp wid).storeQ.length

/-- Entries leave until none that meets `f` stands in the queue. -/
def drainUntil (s : State) (wid : Nat) (f : StoreEntry → Bool) : State :=
  s.drainN wid (upToLast (s.getWarp wid).storeQ f)

/-- A release by a warp at a scope, waited for (R260). -/
def release (s : State) (wid scope : Nat) : State :=
  let s := s.drainAll wid
  if scope = scopeCore then s else (s.flushOrder wid).writeBackAll (dieOf wid) scope

/-- An acquire by a warp at a scope (R261). -/
def acquire (s : State) (wid scope : Nat) : State := s.invalidate (dieOf wid) scope

/-- The acquire of the current instruction, which reads some lines at their homes: its invalidation is made now, unless it was
made before (R261; log 71). -/
def acquireAt (s : State) (scope : Nat) (lines : List Nat) : State :=
  if s.gang.opened then s.closeAcquire (dieOf s.cur.wid) scope lines else s.acquire s.cur.wid scope

/-- Does the entry belong to an atomic? -/
def isAtom (e : StoreEntry) : Bool :=
  match e.op with
  | .atom _ _ _ _ _ _ _ | .atomSp _ _ _ _ _ => true
  | _ => false

/-- Append entries to a warp's store queue. -/
def queueStores (s : State) (wid : Nat) (ops : List StoreOp) : State :=
  ops.foldl (fun st op =>
    { (st.modWarp wid fun w => { w with storeQ := w.storeQ ++ [⟨st.fresh, wid, op⟩] }) with fresh := st.fresh + 1 }) s

/-! ## Loads (R227, R255) -/

/-- Bytes at `a` with what a queued store of device memory puts over them. -/
def overlayBytes (a : Nat) (bytes : List Byte) (b : Nat) (new : List Byte) : List Byte :=
  (List.range bytes.length).map fun i =>
    if b ≤ a + i ∧ a + i < b + new.length then new.getD (a + i - b) 0 else bytes.getD i 0

/-- Device bytes and poison with one entry's store over them. -/
def overlayDev (pa : Nat) (x : List Byte × Bool) (e : StoreEntry) : List Byte × Bool :=
  match e.op with
  | .dev b new | .rel _ b new => (overlayBytes pa x.1 b new, x.2)
  | .clearLine l =>
    if pa / 64 = l then (overlayBytes pa x.1 (64 * l) (List.replicate 64 0), false) else x
  | _ => x

/-- What a warp's load of `n` bytes at a physical address returns, and the poison of the line: the die's view, then the
stores of the core order, then the warp's own queued stores (R255, R256). -/
def loadView (s : State) (wid pa n : Nat) (atHome : Bool) : List Byte × Bool :=
  let d := dieOf wid
  let base := if atHome then (s.homeRead pa n, s.homePoison (pa / 64))
    else (s.dieRead d pa n, s.diePoison d (pa / 64))
  let x := (s.getCore (orderCore wid)).order.foldl (overlayDev pa) base
  if s.peerDown pa then base else (s.getWarp wid).storeQ.foldl (overlayDev pa) x

/-- Does a queued atomic of the warp touch the unit? -/
def atomOver (pa n : Nat) (e : StoreEntry) : Bool :=
  match e.op with
  | .atom _ _ _ a size _ _ => decide (a < pa + n ∧ pa < a + size)
  | _ => false

/-- A plain load: its bytes, its poison, and the state with the line fetched (R256). -/
def loadDev (s : State) (wid pa n : Nat) : List Byte × Bool × State :=
  let s := s.drainUntil wid (atomOver pa n)
  let r := s.loadView wid pa n false
  (r.1, r.2, ((s.saw (dieOf wid) (pa / 64)).fetchLine (dieOf wid) (pa / 64)).linkError wid pa)

/-- An acquire load at PKG or SYS reads at the home, after the die's dirty bytes of the line (R261). -/
def loadHome (s : State) (wid pa n : Nat) : List Byte × Bool × State :=
  let s := s.drainUntil wid (atomOver pa n)
  let s := s.flushLine (orderCore wid) (pa / 64)
  let s := s.expelLine (dieOf wid) (pa / 64)
  let r := s.loadView wid pa n true
  (r.1, r.2, s.linkError wid pa)

/-- Scratchpad words with one queued store over them. -/
def overlayWord (team : Nat) (t : Team) (word : Nat) (x : Lane) (e : StoreEntry) : Lane :=
  match e.op with
  | .sp u off bytes | .spRemote u off bytes =>
    if u = team ∧ off < 4 * word + 4 ∧ 4 * word < off + bytes.length then
      if t.pending word then x
      else
        let v := overlayBytes (4 * word) (wordBytes x.val) off bytes
        ⟨BitVec.ofNat 32 (leNat v), if 4 ≤ bytes.length then false else x.poison⟩
    else x
  | .clearWord u w => if u = team ∧ w = word then (if t.pending word then x else ⟨0, false⟩) else x
  | _ => x

/-- Does a queued scratchpad atomic of the warp touch the word? -/
def atomSpOver (team word : Nat) (e : StoreEntry) : Bool :=
  match e.op with
  | .atomSp _ u off _ _ => decide (u = team ∧ off / 4 = word)
  | _ => false

/-- A scratchpad word as a warp's load sees it: with the stores of the core order, then its own queued ones over it
(R232, R237, R255). -/
def loadSpWord (s : State) (wid team word : Nat) : Lane :=
  match s.getTeam? team with
  | none => ⟨0, true⟩
  | some t =>
    let x := (s.getCore (orderCore wid)).order.foldl (overlayWord team t word) (t.spLoad word)
    (s.getWarp wid).storeQ.foldl (overlayWord team t word) x

end State
end Sys2Proof.Machine
end

