-- ==== Sys2Proof/Machine/Ops.lean ====
section
/-! DEFINITION. The operations that every meaning is built from: reading registers, taking a trap and returning from
one, the fault queue, retiring an instruction, and the issue of register results on the units of R27. -/

namespace Sys2Proof.Machine

/-! ## Reading registers (R39, R40, R45, R65) -/

/-- A register of which a reader sees some lanes old and some new (R40): whole when neither is V, else by lane
(log 19). -/
def mixShaped (wd : Nat) (lanes : LaneSet) (old new : Shaped) : Shaped :=
  if old.isV || new.isV then Shaped.merge wd lanes old new
  else if lanes.getLsbD 0 then new else old

/-- The warp as a reader at cycle `now` sees it: visible results are written; of an unfinished variable-latency result
each lane may be seen or not (R40). -/
def Warp.late (w : Warp) (now : Nat) : Warp :=
  w.pend.foldl (fun v e =>
    if e.visible now then v.apply e
    else if e.vis.isNone && e.ready then
      let n := v.apply e
      let m := Config.lateLanes e.id now
      match e.dest with
      | .w k => { v with w := v.w.set k (mixShaped v.width m (v.wReg k) (n.wReg k)) }
      | .t k => { v with t := v.t.set k (mixShaped v.width m (v.tReg k) (n.tReg k)) }
      | _ => v
    else v) w

/-- The destination that register number n names (R45, R65). -/
def regDest (hm : Bool) (n : Nat) : Dest := if hm && decide (56 ≤ n) then .t (n - 56) else .w n

/-- The register that number n names in a warp (R45, R65). -/
def Warp.named (w : Warp) (n : Nat) : Shaped := if w.hm && decide (56 ≤ n) then w.tReg (n - 56) else w.wReg n

namespace State

/-- Register number n as the current instruction reads it. -/
def rd (s : State) (n : Nat) : Shaped := (s.w.late s.now).named n

/-- Predicate n as the current instruction reads it. -/
def rdp (s : State) (n : Nat) : Pred := s.v.pReg n

/-- Base register n as the current instruction reads it. -/
def rdb (s : State) (n : Nat) : DWord := s.v.bReg n

/-- W and the present lanes of the current warp. -/
def width (s : State) : Nat := s.w.width
def present (s : State) : LaneSet := s.w.present

/-- FMT of the issuing gang (R66). -/
def fmt (s : State) : BitVec 17 := s.gang.fmt

/-- The destination that register number n names for the current warp. -/
def dst (s : State) (n : Nat) : Dest := regDest s.w.hm n

end State

/-! ## Traps (R125-R135) -/

/-- A gang whose instruction stops holds it no longer, and waits for nothing. -/
def Gang.stopped (g : Gang) : Gang := { g with wait := none, met := false, held := none, opened := false }

/-- A gang goes on at `pc` from a moment. -/
def Gang.moved (g : Gang) (pc : DWord) (at' : When) : Gang :=
  { g with pc, wait := none, met := false, held := none, opened := false, nextAt := at'.cycle, exempt := at'.exempt,
           since := at'.age, boosted := false }

/-- A TIMER that can be taken now (R141). -/
def Warp.timerTakeable (w : Warp) : Bool := w.timerPending && !w.hm && !w.tmask.getLsbD 0

/-- A wait that a takeable TIMER withdraws (R180, R289, R304, R413, R421, R467). -/
def Wait.withdrawable : Wait → Bool
  | .tb _ _ | .gbarw _ | .counter _ _ | .eng _ _ _ | .wfe => true
  | _ => false

/-- A takeable TIMER withdraws a request for rows, and those waits of the warp's gangs that are not over. -/
def Warp.withdrawn (w : Warp) : Warp :=
  { w with rowReq := none, granted := [],
           gangs := w.gangs.map fun e => (e.1, match e.2.wait with
             | some x => if x.withdrawable && !e.2.met then e.2.stopped else e.2
             | none => e.2) }

/-- The warp once a TIMER may have become takeable: pending, HM fallen, or TMASK cleared (R141, R422). -/
def Warp.heeded (w : Warp) : Warp := if w.timerTakeable && !w.halted then w.withdrawn else w

/-- A warp trap about to be taken. -/
structure TrapInfo where
  cause : BitVec 8
  sub : BitVec 8
  flanes : LaneSet
  faddr : DWord
  /-- Resume PC, as an offset from the PC. -/
  skip : DWord
  fpxc : BitVec 5
  engClass : BitVec 2
  engLeft : BitVec 8
  deriving DecidableEq, Repr

/-- One register result. -/
structure Res where
  dest : Dest
  val : RVal
  mode : WriteMode
  deriving DecidableEq, Repr

/-- Why an instruction stops before its effect: a warp trap (R125), one that shows only when its unit has computed the
results (R157, R203), or a system fault (R127) of some lanes. -/
inductive Stop where
  | trap (t : TrapInfo)
  | after (t : TrapInfo) (rs : List Res)
  | sys (code : BitVec 8) (addr : DWord) (lanes : LaneSet)
  deriving DecidableEq, Repr

def cUNIMP : BitVec 8 := 0x01
def cSHAPE : BitVec 8 := 0x02
def cVROW : BitVec 8 := 0x03
def cDIVSTK : BitVec 8 := 0x04
def cBRXR : BitVec 8 := 0x05
def cPOISON : BitVec 8 := 0x06
def cALIGN : BitVec 8 := 0x07
def cFPX : BitVec 8 := 0x08
def cIDIV0 : BitVec 8 := 0x09
def cTRAP : BitVec 8 := 0x0A
def cBRK : BitVec 8 := 0x0B
def cTIMER : BitVec 8 := 0x0C
def cENG : BitVec 8 := 0x0D
def cBANKV : BitVec 8 := 0x0E
def cPERM : BitVec 8 := 0x0F
def cXLATE : BitVec 8 := 0x20
def cPROT : BitVec 8 := 0x21
def cECC : BitVec 8 := 0x22
def cFATAL : BitVec 8 := 0x23
def cSYSREQ : BitVec 8 := 0x24

/-- A precise trap of a cause with fault lanes and a fault address, resuming at the instruction (R125). -/
def TrapInfo.at (cause : BitVec 8) (flanes : LaneSet) (faddr : DWord) : TrapInfo :=
  { cause, sub := 0, flanes, faddr, skip := 0, fpxc := 0, engClass := 0, engLeft := 0 }

namespace State

/-- A precise trap that names the active lanes. -/
def trapAct (s : State) (cause : BitVec 8) : Stop := .trap (TrapInfo.at cause s.act 0)

end State

/-- The bytes of a fault record, 48 of them (R133). -/
def FaultRec.bytes (r : FaultRec) : List Byte :=
  leBytes 4 (r.code.toNat + r.sub.toNat * 2 ^ 8 + r.hm.toNat * 2 ^ 16 + r.warpTrap.toNat * 2 ^ 17) ++
  leBytes 4 (r.coord.toNat + r.slot * 2 ^ 16 + r.gang * 2 ^ 22) ++
  dwordBytes r.pc ++ wordBytes r.word ++ leBytes 4 r.len.toNat ++ dwordBytes r.faddr ++ dwordBytes r.flanes ++
  leBytes 4 r.team ++ leBytes 4 r.warp

/-- Coordinate of a die's management core (R30). -/
def mgmtCoord (d : Nat) : BitVec 16 := BitVec.ofNat 16 (d * 2 ^ 14 + 60)

/-- Physical address of a host-memory address (log 14). -/
def hostAddr (a : DWord) : Nat := Config.hostBase + a.toNat % 2 ^ 60

/-- Has the fault ring room: is it not full, and its next slot free of a record that is not answered (R473)? -/
def Partition.ringRoom (b : Partition) : Bool :=
  decide ((b.fqwptr - b.fqrptr).toNat < 2 ^ b.fqlog2) &&
    b.outstanding.all fun e => e.slot != b.fqwptr.toNat % 2 ^ b.fqlog2

namespace State

/-- Write a record into a partition's fault ring (R471, R473). -/
def writeFault (s : State) (p : Nat) (e : FaultEntry) : State :=
  let b := s.getPart p
  let slot := b.fqwptr.toNat % 2 ^ b.fqlog2
  let s := s.homeWrite (hostAddr b.fqbase + 48 * slot) e.rec'.bytes
  (s.setPart p { b with fqwptr := b.fqwptr + 1, outstanding := b.outstanding ++ [{ e with slot }] }).raiseCause p 1

/-- A record goes into the ring, or waits behind those that wait for room (R473). -/
def postFault (s : State) (p : Nat) (e : FaultEntry) : State :=
  let b := s.getPart p
  if b.waiting.isEmpty && b.ringRoom then s.writeFault p e
  else s.setPart p { b with waiting := b.waiting ++ [e] }

/-- Records that wait enter the ring while it has room (R473). -/
def refillFaults (s : State) (p : Nat) : Nat → State
  | 0 => s
  | n + 1 =>
    let b := s.getPart p
    match b.waiting with
    | [] => s
    | e :: rest =>
      if b.ringRoom then ((s.setPart p { b with waiting := rest }).writeFault p e).refillFaults p n else s

/-- The record of a warp for the system handler (R133). -/
def faultRec (s : State) (wid g : Nat) (code sub : BitVec 8) (warpTrap : Bool) (pc : DWord) (word : Word)
    (len : BitVec 3) (faddr : DWord) (flanes : LaneSet) : FaultRec :=
  let w := s.getWarp wid
  { code, sub, hm := w.hm, warpTrap,
    coord := if isMgmt wid then mgmtCoord (dieOf wid) else s.coordOf (coreOf wid),
    slot := if isMgmt wid then 0 else slotOf wid, gang := g, pc, word, len, faddr, flanes,
    team := match s.getTeam? w.team with
      | some t => t.index
      | none => 0,
    warp := w.index, fpxc := 0, engClass := 0, engLeft := 0 }

/-- A management core stops: its record goes to MGFAULT and PEVT.MGSTOP is set (R31). -/
def stopMgmt (s : State) (wid : Nat) (r : FaultRec) : State :=
  let s := s.modWarp wid fun w => { w with halted := true, fault := some r }
  let s := s.modDie (dieOf wid) fun d => { d with mgfault := r.bytes.take 40, mgRun := false }
  s.raiseEvent 4

/-- Park a warp for the system handler with a record (R127, R133), with no rows for an instruction that has not issued
(R180); a management core stops (R31). -/
def parkFault (s : State) (wid : Nat) (r : FaultRec) : State :=
  if isMgmt wid then s.stopMgmt wid r
  else
    let s := s.modWarp wid fun w => { w with fault := some r, parked := none, rowReq := none, granted := [] }
    let w := s.getWarp wid
    s.postFault (s.partOf wid) { slot := 0, team := w.team, warp := w.index, rec' := r }

/-- The length field of the current instruction. -/
def curLen (s : State) : BitVec 3 := BitVec.ofNat 3 s.cur.len

/-- A system fault of the current instruction in some lanes (R127). -/
def sysFault (s : State) (code : BitVec 8) (faddr : DWord) (lanes : LaneSet) : State :=
  let s := s.modGang Gang.stopped
  s.parkFault s.cur.wid
    (s.faultRec s.cur.wid s.cur.g code 0 false s.cur.pc s.cur.word s.curLen faddr lanes)

/-- Rows of banks that are drowsy delay the results written to them, which become visible 20 cycles late (R190). -/
def wakeFor (s : State) (wid : Nat) (ds : List Dest) : Nat × State :=
  if isMgmt wid then (0, s)
  else s.wakeBanks (coreOf wid) (((s.getWarp wid).rows.filter fun h => ds.contains (.w h.reg)).map (·.row))

/-- Every register result that a warp has in flight becomes visible (R131, R139). -/
def finishResults (s : State) (wid : Nat) : State :=
  let s := s.drainUntil wid isAtom
  let z := s.wakeFor wid (((s.getWarp wid).pend.filter fun e => e.vis.isNone).map (·.dest))
  let s := z.2
  let now := s.nowOf wid
  let last := (s.getWarp wid).pend.foldl (fun m e => max m (e.vis.getD (now + z.1))) now
  let s := s.advanceTo wid last
  s.modWarp wid fun w =>
    Warp.settle { w with pend := w.pend.map fun e => { e with vis := some (e.vis.getD now) } } (s.nowOf wid)

end State

/-- No record of a loop stack runs from a loop buffer (R116). -/
def unbuffered (l : List LoopRec) : List LoopRec := l.map fun r => { r with buf := false }

/-- The warp discards what it has fetched ahead, and every loop-buffer copy that it uses: buffers filled before number n are
not used again (R116, R117). -/
def Warp.sync (w : Warp) (n : Nat) : Warp :=
  { w with copies := [], synced := n
           gangs := w.gangs.map fun e => (e.1, { e.2 with
             loops := unbuffered e.2.loops
             held := if e.2.wait.isSome then e.2.held else none })
           joins := w.joins.map fun e => (e.1, { e.2 with loops := unbuffered e.2.loops })
           releases := w.releases.map fun r => { r with loops := unbuffered r.loops } }

/-- The trap record that a trap of gang g at an instruction gives (R131); the saved FMT and LOOPS are kept. -/
def TrapRec.of (old : TrapRec) (g : Nat) (pc : DWord) (word : Word) (len : BitVec 3) (t : TrapInfo) : TrapRec :=
  { cause := t.cause, sub := t.sub, pc, word, len, flanes := t.flanes, faddr := t.faddr, resume := pc + t.skip,
    gang := BitVec.ofNat 4 g, fpxc := t.fpxc, engClass := t.engClass, engLeft := t.engLeft, savedFmt := old.savedFmt,
    savedLoops := old.savedLoops }

/-- A warp whose results in flight are visible enters its handler in gang g, whose first instruction issues 12 cycles from
`now` (R131). -/
def Warp.enterHandler (w : Warp) (now : When) (n g : Nat) (pc : DWord) (word : Word) (len : BitVec 3) (t : TrapInfo) :
    Warp :=
  let w := w.sync n
  let e := State.gangOf w g
  { w with
    hm := true
    trap := { w.trap.of g pc word len t with savedFmt := e.fmt, savedLoops := e.loops }
    count := 0, parked := none, rowReq := none, granted := []
    gangs := w.gangs.set g { e.moved w.tvec ⟨now.cycle + 12, now.age + 12, 0⟩ with fmt := 0, loops := [] } }

/-- Is a trap of the warp routed to the system handler (R131)? -/
def Warp.routed (w : Warp) (cause : BitVec 8) : Bool := cause == cBANKV || w.hm || w.tvec == 0

namespace State

/-- TAKING A TRAP, the one entry of R131, for warp `wid` in gang g at an instruction. -/
def enterTrap (s : State) (wid g : Nat) (pc : DWord) (word : Word) (len : BitVec 3) (t : TrapInfo) : State :=
  let s := s.finishResults wid
  let w := s.getWarp wid
  if w.routed t.cause then
    let r := s.faultRec wid g t.cause t.sub true pc word len t.faddr t.flanes
    let s := s.modWarp wid fun w =>
      { w with trap := w.trap.of g pc word len t, gangs := w.gangs.set g (State.gangOf w g).stopped }
    s.parkFault wid { r with fpxc := t.fpxc, engClass := t.engClass, engLeft := t.engLeft }
  else { s.setWarp wid (w.enterHandler (s.whenIn wid 0) s.fresh g pc word len t) with fresh := s.fresh + 1 }

/-- A warp trap of the current instruction (R131). -/
def takeTrap (s : State) (t : TrapInfo) : State :=
  s.enterTrap s.cur.wid s.cur.g s.cur.pc s.cur.word s.curLen t

/-- A trap or a system fault of the current instruction. -/
def stopWith (s : State) : Stop → State
  | .trap t => s.takeTrap t
  | .after t _ => s.takeTrap t
  | .sys code addr lanes => s.sysFault code addr lanes

end State

/-! ## Retiring an instruction (R36, R38, R113, R124) -/

/-- The loop end test (R113) on a loop stack, for an instruction at `a0` whose next PC is sequential: the stack left,
and START of the record that repeats, if one does. -/
def loopTest (a0 : DWord) : List LoopRec → List LoopRec × Option DWord
  | [] => ([], none)
  | r :: rest =>
    if r.last ≠ a0 then (r :: rest, none)
    else if r.count - 1 ≠ 0 then ({ r with count := r.count - 1 } :: rest, some r.start)
    else loopTest a0 rest

/-- Does the end test of an instruction at `a0` leave a loop (R124)? -/
def leavesLoop (a0 : DWord) (l : List LoopRec) : Bool :=
  (loopTest a0 l).2.isNone && decide ((loopTest a0 l).1.length < l.length)

namespace State

/-- What an issue leaves in the warp: the gap of R36, in which no gang of the warp is ready (R410), the count of R38, no
request for rows. -/
def countIssue (s : State) (h : Hdr) : State :=
  s.modW fun w =>
    { w with
      nextIssue := s.now + h.gap.toNat + 1
      readyAt := if h.gap = 0 then w.readyAt else (s.whenIn s.cur.wid (h.gap.toNat + 1)).age
      count := if h.sw || decide (23 ≤ w.count) then 0 else w.count + 1
      rowReq := none, granted := [], parked := none }

/-- When a gang that the current instruction creates by a release or a fusion may issue: 3 cycles on, which for it replace the
gap (R124). -/
def whenMade (s : State) (h : Hdr) : When :=
  { s.whenIn s.cur.wid 3 with exempt := s.now + h.gap.toNat + 1 }

/-- The issuing gang goes on at `pc`, `delay` cycles after GAP at the earliest (R36, R124, R410). -/
def goOn (s : State) (h : Hdr) (delay : Nat) (pc : DWord) : State :=
  (s.countIssue h).modGang fun g => g.moved pc (s.whenIn s.cur.wid (h.gap.toNat + delay))

/-- The scheduler of the current warp has issued in this cycle (R74). -/
def usedIssue (s : State) : State :=
  if isMgmt s.cur.wid then s
  else s.modCore (coreOf s.cur.wid) fun k =>
    { k with schedFree := k.schedFree.set (schedOf s.cur.wid) (s.now + 1) }

/-- Address of the next instruction in sequence. -/
def seqPc (s : State) : DWord := s.cur.pc + BitVec.ofNat 64 s.cur.len

/-- An instruction completes and its gang goes on in sequence, through the loop end test of R113, at least `least`
cycles after GAP. -/
def retireBy (s : State) (h : Hdr) (least : Nat) : State :=
  let g := s.gang
  let r := loopTest s.cur.pc g.loops
  let n := if leavesLoop s.cur.pc g.loops then 3 else 1
  (s.modGang fun g => { g with loops := r.1 }).usedIssue.goOn h (max least n) (r.2.getD s.seqPc)

/-- An instruction completes and its gang goes on in sequence. -/
def retire (s : State) (h : Hdr) : State := s.retireBy h 1

/-- An instruction completes and its gang goes to `pc` by a taken transfer (R124). -/
def retireTo (s : State) (h : Hdr) (delay : Nat) (pc : DWord) : State := s.usedIssue.goOn h delay pc

end State

/-- The header fields of a 16-bit instruction: GAP 0 (R36, R42). -/
def hdr16 (sw : Bool) : Hdr := { gap := 0, sw }

/-! ## Results and their units (R27, R39, R74) -/

/-- Where an instruction runs, and its latency L (R39, R74). -/
inductive UnitUse where
  /-- The unit that R74 decides: L on the shape unit, L on the vector pipe, and twice the cycles for F64 (R205). -/
  | alu (ls lv mult : Nat)
  /-- Always the vector pipe. -/
  | pipe (l : Nat)
  /-- The vector pipe for n cycles, from `start` cycles after issue. -/
  | cycles (start n l : Nat)
  /-- The vector pipe for n cycles, with a result that is visible `late` cycles after issue (R147). -/
  | span (n late : Nat)
  /-- The special-function unit (R205). -/
  | sfu (l : Nat)
  /-- One cycle on the scheduler or the shape unit. -/
  | sched (l : Nat)
  /-- A variable-latency result (R40): of the load-store path when `mem` (R189), otherwise of the scheduler. -/
  | late (mem : Bool)
  /-- The result of an atomic, which has no value before it is performed. -/
  | atomic
  /-- None: a wait of the instruction, which has issued, ends; visible L cycles later, or of variable latency. -/
  | ended (l : Option Nat)
  deriving DecidableEq, Repr

/-- A unit of a scheduler. -/
inductive Slot where
  | shape | vector | special | free
  deriving DecidableEq, Repr

/-- A unit, the cycles after issue at which it starts, the cycles it is occupied, and those after issue at which the result
is visible (R39). -/
structure Occupancy where
  slot : Slot
  start : Nat
  n : Nat
  late : Nat
  deriving DecidableEq, Repr

/-- A unit occupied for n cycles, from `start` cycles after issue, with latency L (R39). -/
def Occupancy.of (slot : Slot) (start n l : Nat) : Occupancy := ⟨slot, start, n, start + n - 1 + l⟩

/-- Does the destination hold V? -/
def Warp.destV (w : Warp) : Dest → Bool
  | .w n => (w.wReg n).isV
  | .t n => (w.tReg n).isV
  | .p n => (w.pReg n).isV
  | _ => false

def Res.entry (r : Res) (id : Nat) : PendWrite :=
  { id, dest := r.dest, val := r.val, mode := r.mode, vis := none, ready := true, mem := false }

/-- The registers after the results, were every write visible. -/
def Warp.after (w : Warp) (rs : List Res) : Warp := rs.foldl (fun w r => w.apply (r.entry 0)) w

/-- Slices that an operation covers (R26, R74): the present ones when it widens a destination, otherwise those with an
active lane. -/
def coverage (w : Warp) (act : LaneSet) (rs : List Res) : Nat :=
  let i := w.issued
  if rs.any (fun r => (i.after rs).destV r.dest && !i.destV r.dest) then w.presentSlices else slicesIn act

/-- Where and how long an instruction with these results runs. Of two destinations, both run on the vector pipe when either
holds V after the write (DESIGN CHOICE, log 62: R74 speaks of one destination). -/
def placeOn (w : Warp) (act : LaneSet) (u : UnitUse) (rs : List Res) : Occupancy :=
  let n := (coverage w act rs + 3) / 4
  let v := rs.any fun r => (w.issued.after rs).destV r.dest
  match u with
  | .alu ls lv mult => if v then .of .vector 0 (mult * n) lv else .of .shape 0 1 ls
  | .pipe l => .of .vector 0 n l
  | .cycles start n l => if n = 0 then .of .shape 0 1 l else .of .vector start n l
  | .span n late => ⟨.vector, 0, n, late⟩
  | .sfu l => .of .special 0 (if v then n else 1) l
  | .sched l => .of .shape 0 1 l
  | .late mem => if mem then ⟨.free, 0, 1, 0⟩ else ⟨.shape, 0, 1, 0⟩
  | .atomic => ⟨.free, 0, 1, 0⟩
  | .ended l => .of .free 0 1 (l.getD 0)

/-- The unit that an instruction stops on: known from its results where it stops after computing them, otherwise from the
instruction alone. -/
def stopSlot (w : Warp) (act : LaneSet) (u : UnitUse) (e : Stop) : Slot :=
  match e, u with
  | .after _ rs, _ => (placeOn w act u rs).slot
  | _, .pipe _ | _, .span _ _ => .vector
  | _, .cycles _ n _ => if n = 0 then .shape else .vector
  | _, .sfu _ => .special
  | _, _ => .free

/-- Does the result leave a trap-bank register V (R65)? -/
def Warp.bankV (w : Warp) (rs : List Res) : Bool :=
  rs.any fun r => match r.dest with
    | .t n => ((w.issued.after rs).tReg n).isV
    | _ => false

/-- Does the warp need a row for this result (R186)? -/
def Warp.needsRow (w : Warp) (r : Res) : Bool :=
  match r.dest, r.val with
  | .w n, .shaped x =>
    if (w.issued.wReg n).isV || w.rows.any (fun h => h.reg == n && h.prov) then false
    else match r.mode with
      | .masked act => act != w.present || x.isV
      | .whole => x.isV
      | .expand | .lanes _ => true
  | _, _ => false

/-- Is the result a partial write? -/
def Res.partial' (present : LaneSet) (r : Res) : Bool :=
  match r.mode with
  | .masked act => act != present
  | _ => false

/-- The results for which rows are asked, with one for each register. -/
def Warp.rowRes (w : Warp) (rs : List Res) : List (Nat × Bool) :=
  (rs.filter w.needsRow).foldl (fun l r => match r.dest with
    | .w n => if l.any (fun e => e.1 == n) then l else l ++ [(n, r.partial' w.present)]
    | _ => l) []

/-- The lanes of a register that a write in flight writes. -/
def PendWrite.covers (e : PendWrite) : LaneSet :=
  match e.mode with
  | .masked act => act
  | .lanes m => m
  | _ => BitVec.allOnes 64

/-- Does a write give its register wholly a value that is not V? -/
def PendWrite.flat (present : LaneSet) (e : PendWrite) : Bool :=
  match e.val with
  | .shaped x => !x.isV && (e.covers == present || e.covers == BitVec.allOnes 64)
  | _ => false

/-- What an older write of variable latency still writes over a younger one to its register once both are visible: in the
lanes that both write, either value may stay (R40; log 9); where both are flat, the register holds wholly one or the other
(log 19). -/
def PendWrite.over (present : LaneSet) (new old : PendWrite) : Option PendWrite :=
  let keep := Config.racedLanes old.id new.id &&& old.covers &&& new.covers
  match new.mode with
  | .expand => none
  | _ =>
    if keep = 0 then none
    else if old.flat present && new.flat present then (if keep.getLsbD 0 then some old else none)
    else match old.mode with
      | .masked _ => some { old with mode := .masked keep }
      | _ => some { old with mode := .lanes keep }

/-- The first of the entries of each result. -/
def firstOfEach : List PendWrite → List PendWrite
  | [] => []
  | e :: rest => e :: (firstOfEach rest).filter fun x => x.id != e.id

/-- A write and, behind it, what the older writes of variable latency to its register that are not visible still write over
it. -/
def Warp.raced (w : Warp) (new : PendWrite) : List PendWrite :=
  new :: (firstOfEach (w.pend.filter fun e => e.vis.isNone && e.dest.key == new.dest.key)).filterMap
    (PendWrite.over w.present new)

namespace State

/-- The rows that the registers of some numbers hold: in handler mode 56-63 name the trap bank, which has none (R65, R190). -/
def rowsOf (w : Warp) (regs : List Nat) : List Nat :=
  (w.rows.filter fun h => regs.contains h.reg && !(w.hm && decide (56 ≤ h.reg))).map (·.row)

/-- Wake the banks of the rows that the current warp's registers hold; the cycles that the access is late (R190). -/
def touchRows (s : State) (regs : List Nat) : Nat × State :=
  if isMgmt s.cur.wid then (0, s) else s.wakeBanks (coreOf s.cur.wid) (rowsOf s.w regs)

/-- The current warp issues again `n` cycles later, as its access to a drowsy bank was late (R190). -/
def lateBy (s : State) (n : Nat) : State :=
  if n = 0 then s else s.modW fun w => { w with nextIssue := w.nextIssue + n }

/-- The row given to a result's register, if one was, with the result's number (R175). -/
def holdRow (w : Warp) (id : Nat) (rows : List (Nat × Bool × Nat)) (d : Dest) : Warp :=
  match d with
  | .w n => match rows.find? (fun (e : Nat × Bool × Nat) => e.1 == n) with
    | some e => if w.rows.any (fun h => h.reg == n && h.row == e.2.2) then w
        else { w with rows := w.rows ++ [RowHold.mk n e.2.2 id e.2.1] }
    | none => w
  | _ => w

/-- One more result in flight (R39, R40). -/
def launchResult (w : Warp) (id : Nat) (vis : Option Nat) (mem ready : Bool) (r : Res) : Warp :=
  { w with pend := w.pend ++ w.raced { r.entry id with vis, mem, ready } }

/-- Append results to the warp's results in flight, visible at `vis`, and record the rows they hold. -/
def addResults (s : State) (vis : Option Nat) (mem ready : Bool) (rows : List (Nat × Bool × Nat)) : List Res → State
  | [] => s
  | r :: rest =>
    let id := s.fresh
    let s := { s with fresh := s.fresh + 1 }
    let s := s.modW fun w => launchResult (holdRow w id rows r.dest) id vis mem ready r
    addResults s vis mem ready rows rest

/-- First cycle at which a unit of the current warp's scheduler is free (R74). -/
def slotFree (s : State) (slot : Slot) : Nat :=
  let k := s.getCore (coreOf s.cur.wid)
  match slot with
  | .vector => k.pipeFree.get (schedOf s.cur.wid) 0
  | .special => k.sfuFree.get (schedOf s.cur.wid) 0
  | _ => 0

/-- The current instruction does not issue before cycle c: its gang holds it, and is not ready until then (R18, R410). -/
def hold (s : State) (c : Nat) : State :=
  s.modGang fun g => { g with held := some (s.cur.word, s.cur.len), nextAt := c,
                              since := s.ageClock s.cur.wid + (c - s.now : Nat), boosted := false }

/-- What an instruction does once its unit is free; until then it is held (R74). -/
def whenFree (s : State) (slot : Slot) (k : State → State) : State :=
  if isMgmt s.cur.wid ∨ s.slotFree slot ≤ s.now then k s else s.hold (s.slotFree slot)

/-- What an instruction does once shared unit u takes its request; until then it is held (R18). -/
def whenTaken (s : State) (u : Nat) (k : State → State) : State :=
  let free := (s.getCore (coreOf s.cur.wid)).unitFree.get u 0
  if isMgmt s.cur.wid ∨ free ≤ s.now then k s else s.hold free

/-- Shared unit u takes the request of the current warp's scheduler, and no other for n cycles (R18). -/
def takeUnit (s : State) (u n : Nat) : State :=
  if isMgmt s.cur.wid then s
  else s.modCore (coreOf s.cur.wid) fun k =>
    { k with unitFree := k.unitFree.set u (s.now + n), granted := k.granted.set u (schedOf s.cur.wid) }

/-- Occupy a unit, and debit the cluster (R460). -/
def occupy (s : State) (o : Occupancy) : State :=
  if isMgmt s.cur.wid then s
  else
    let q := schedOf s.cur.wid
    let c := s.now + o.start + o.n
    match o.slot with
    | .vector => (s.modCore (coreOf s.cur.wid) fun k => { k with pipeFree := k.pipeFree.set q c }).debitW (4 * o.n)
    | .special => (s.modCore (coreOf s.cur.wid) fun k => { k with sfuFree := k.sfuFree.set q c }).debitW (6 * o.n)
    | .shape => s.debitW 1
    | .free => s

/-- The warp enters widen-wait with a request for n rows (R178, R179); the instruction has not issued, and its gang holds
it. -/
def widenWait (s : State) (n : Nat) : State :=
  (s.modGang fun g => { g with wait := none, met := false, held := some (s.cur.word, s.cur.len) }).modW fun w => match w.rowReq with
    | some _ => { w with granted := [] }
    | none => { w with rowReq := some { n, gang := s.cur.g, since := s.now, aged := false }, granted := [] }

/-- Results that have passed every check are written on their unit in the state `t` that the instruction's other
effects give, with `fin` after the results are in flight, which ends the instruction: rows are requested (R178, R185, R186),
and the banks that are touched wake (R190). -/
def writeResults (s : State) (u : UnitUse) (srcs : List Nat) (rs : List Res) (t : State) (fin : State → State) : State :=
  let need := s.w.rowRes rs
  match s.requestRows s.cur.wid need.length with
  | .wait => s.widenWait need.length
  | .vrow => s.stopWith (s.trapAct cVROW)
  | .rows l =>
    let pl := placeOn s.w s.act u rs
    let regs := srcs ++ rs.filterMap fun r => match r.dest with
      | .w n => some n
      | _ => none
    let z := if isMgmt s.cur.wid then (0, t) else t.wakeBanks (coreOf s.cur.wid) (rowsOf s.w regs ++ l)
    let t := z.2.occupy pl
    let given := (need.zip l).map fun e => (e.1.1, e.1.2, e.2)
    let t := match u with
      | .late mem => t.addResults none mem true given rs
      | .ended none => t.addResults none false true given rs
      | .atomic => t.addResults none true false given rs
      | _ => t.addResults (some (s.now + pl.late + z.1)) false true given rs
    (fin t).lateBy z.1

/-- AN INSTRUCTION THAT WRITES REGISTERS and may have other effects. `f` checks, computes and gives the state with
those effects, in which nothing the results are placed by has changed, and `fin` gives those that follow the results. It
issues, or stops, in a cycle in which its unit is free. A result that would leave a trap-bank register V raises BANKV
(R65). The gang goes on at least `least` cycles after GAP. -/
def finStep (h : Hdr) (u : UnitUse) (least : Nat) (srcs : List Nat) (f : State → Except Stop (List Res × State))
    (fin : State → State) (s : State) : State :=
  match f s with
  | .error e => s.whenFree (stopSlot s.w s.act u e) fun s => s.stopWith e
  | .ok (rs, t) => s.whenFree (placeOn s.w s.act u rs).slot fun s =>
    if s.w.bankV rs then s.stopWith (s.trapAct cBANKV) else s.writeResults u srcs rs t fun t => (fin t).retireBy h least

/-- An instruction that writes registers, with no effect that follows the results. -/
def effStep (h : Hdr) (u : UnitUse) (least : Nat) (srcs : List Nat) (f : State → Except Stop (List Res × State))
    (s : State) : State := s.finStep h u least srcs f id

/-- An instruction whose only effect is its register results. -/
def regStep (h : Hdr) (u : UnitUse) (srcs : List Nat) (f : State → Except Stop (List Res)) (s : State) : State :=
  s.effStep h u 1 srcs fun s => match f s with
    | .error e => .error e
    | .ok rs => .ok (rs, s)

/-- The gang stands at its instruction, which it holds, until what it waits for has come about. -/
def waitOn (s : State) (x : Wait) : State :=
  s.modGang fun g => { g with wait := some x, met := false, held := some (s.cur.word, s.cur.len) }

/-- An instruction issues and waits: its gap runs and it counts (R36, R38), and its gang stands there. Should the wait end
before, the gang goes on no earlier than had there been none (R36, R124). -/
def issueWait (s : State) (h : Hdr) (x : Wait) : State :=
  let n := if leavesLoop s.cur.pc s.gang.loops then 3 else 1
  (((s.debitW 1).usedIssue.countIssue h).waitOn x).modGang fun g => { g with nextAt := s.now + h.gap.toNat + n }

/-- The gang goes on no earlier than n cycles from now. -/
def notBefore (s : State) (n : Nat) : State :=
  s.modGang fun g =>
    let n := max n (g.nextAt - s.now)
    { g with nextAt := (s.whenIn s.cur.wid n).cycle, since := (s.whenIn s.cur.wid n).age }

/-- The wait of an instruction ends: its gang goes on in sequence, through the loop end test of R113, at least `least`
cycles from now. The instruction issued when its wait began, and does not issue again. -/
def endWait (s : State) (least : Nat) : State :=
  let r := loopTest s.cur.pc s.gang.loops
  let n := max least (s.gang.nextAt - s.now)
  s.modGang fun g => { g.moved (r.2.getD s.seqPc) (s.whenIn s.cur.wid n) with loops := r.1 }

/-- The wait of an instruction ends with register results, of latency L or of variable latency; the warp issues nothing
before a result of latency L is written. A result that would leave a trap-bank register V raises BANKV (R65). -/
def endWith (s : State) (l : Option Nat) (least : Nat) (rs : List Res) (t : State) : State :=
  if s.w.bankV rs then s.stopWith (s.trapAct cBANKV)
  else s.writeResults (.ended l) [] rs t fun t =>
    (t.endWait least).modW fun w => { w with nextIssue := max w.nextIssue (s.now + l.getD 0) }

/-- An instruction with no register result: `f` checks and gives the new state; it takes one issue cycle. -/
def plainStep (h : Hdr) (f : State → Except Stop State) (s : State) : State :=
  match f s with
  | .error e => s.stopWith e
  | .ok s' => (s'.debitW 1).retire h

/-- An instruction with no register result on shared unit u, which it keeps for one cycle (R18). -/
def unitStep (u : Nat) (h : Hdr) (f : State → Except Stop State) (s : State) : State :=
  s.whenTaken u (plainStep h fun s => match f s with
    | .error e => .error e
    | .ok t => .ok (t.takeUnit u 1))

/-- An instruction with register results on shared unit u, which it keeps for one cycle (R18). -/
def unitRegStep (u : Nat) (h : Hdr) (use : UnitUse) (f : State → Except Stop (List Res × State)) (s : State) : State :=
  s.whenTaken u (effStep h use 1 [] fun s => match f s with
    | .error e => .error e
    | .ok (rs, t) => .ok (rs, t.takeUnit u 1))

/-- A result of register number n under the active mask. -/
def res (s : State) (n : Nat) (x : Shaped) : Res := { dest := s.dst n, val := .shaped x, mode := .masked s.act }

/-- A predicate result under the active mask. -/
def resP (s : State) (n : Nat) (x : Pred) : Res := { dest := .p n, val := .pred x, mode := .masked s.act }

end State

/-! ## Return from a trap (R139) -/

namespace State

/-- RTRAP in handler mode: FMT, LOOPS and the PC come back, the loop end test of R113 may run, HM falls; the gangs that were
held are ready from the next cycle (R410). -/
def returnFromTrap (s : State) (h : Hdr) : State :=
  let s := s.finishResults s.cur.wid
  let t := s.w.trap
  let seq := t.len ≠ 0 ∧ t.resume = t.pc + t.len.zeroExtend 64
  let r := if seq then loopTest t.pc t.savedLoops else (t.savedLoops, none)
  let pc := r.2.getD t.resume
  let s := s.modGang fun g => { g with fmt := t.savedFmt, loops := r.1 }
  let s := s.modW fun w => Warp.heeded { w with hm := false }
  let s := s.usedIssue.goOn h 8 pc
  s.modW fun w => { w with count := 0, readyAt := s.ageClock s.cur.wid + 1 }

end State
end Sys2Proof.Machine
end

