-- ==== Sys2Proof/Machine/Fetch.lean ====
section
/-! DEFINITION. Fetching and decoding the instruction at a gang's program counter (R33, R34, R49, R116). -/

namespace Sys2Proof.Machine

namespace State

/-- Lines of a core's instruction cache (R16): 64 KiB. -/
def codeLines : Nat := 1024

/-- An instruction cache with one more line; a full one gives up a line for it, which the spec does not name (log 63). -/
def cacheCode (m : SMap (BitVec 512)) (line : Nat) (x : BitVec 512) : SMap (BitVec 512) :=
  if m.length < codeLines then m.set line x
  else
    let kept : SMap (BitVec 512) := m.eraseIdx (Config.codeVictim line % m.length)
    kept.set line x

/-- A line of code as a core's instruction cache gives it: the cached copy, or memory as it is visible at PKG scope, which is
then cached (R250). -/
def codeLine (s : State) (wid line : Nat) : BitVec 512 × State :=
  let c := orderCore wid
  match (s.getCore c).icache.find? line with
  | some x => (x, s)
  | none =>
    let x := lineOf (s.homeRead (64 * line) 64)
    (x, s.modCore c fun k => { k with icache := cacheCode k.icache line x })

/-- The halfword of instruction memory at an address, or the code of the system fault (R34). -/
def codeHalf (s : State) (wid : Nat) (va : DWord) : Except (BitVec 8) (BitVec 16 × State) :=
  match s.translate (orderCore wid) (s.partOf wid) .exec va with
  | .error c => .error c
  | .ok pa =>
    let r := s.codeLine wid (pa / 64)
    .ok (r.1.extractLsb' (8 * (pa % 64)) 16, r.2)

/-- A word read through the instruction fetch path (R119). -/
def codeWord (s : State) (wid : Nat) (va : DWord) : Except (BitVec 8) (Word × State) :=
  match s.codeHalf wid va with
  | .error c => .error c
  | .ok (lo, s) => match s.codeHalf wid (va + 2) with
    | .error c => .error c
    | .ok (hi, s) => .ok (hi ++ lo, s)

end State

/-- Words that raise UNIMP on a management core (R30). -/
def excludedWord (n : Nat) : Bool :=
  let m := bits n 4 6
  m == 0x0B || m == 0x0D || (decide (0x20 ≤ m) && decide (m ≤ 0x23)) || m == 0x2E || m == 0x2F || m == 0x33 ||
    (decide (0x34 ≤ m) && decide (m ≤ 0x3B)) || (m == 0x0C && (bits n 28 4 == 6 || bits n 28 4 == 7))

/-- WFE, which raises UNIMP on a compute core (R30). -/
def isWfe (n : Nat) : Bool := bits n 4 6 == 0x0A && bits n 28 4 == 9

/-- What stands at the program counter. -/
structure Fetched where
  instr : Instr
  word : Word
  len : Nat
  deriving DecidableEq, Repr

/-- The instruction of a 32-bit word on a compute core, or on a management core when `mgmt` (R48, R49, R30). -/
def instrOf (mgmt : Bool) (word : Word) : Instr :=
  let n := word.toNat
  if (if mgmt then excludedWord n else isWfe n) then .unimp word
  else match decodeWord n with
    | .ok i => i
    | .error _ => .unimp word

namespace State

/-- The word at an address in instruction memory and its length (R33), or the code of the system fault. -/
def readCode (s : State) (wid : Nat) (pc : DWord) : Except (BitVec 8) ((Word × Nat) × State) :=
  match s.codeHalf wid pc with
  | .error c => .error c
  | .ok (h0, s) =>
    if h0.getLsbD 0 then
      match s.codeHalf wid (pc + 2) with
      | .error c => .error c
      | .ok (h1, s) => .ok ((h1 ++ h0, 4), s)
    else .ok ((h0.zeroExtend 32, 2), s)

/-- The copy at an address, if there is one. -/
def copyAt (l : List CodeCopy) (pc : DWord) : Option (Word × Nat) :=
  (l.find? fun c => c.addr == pc).map fun c => (c.word, c.len)

/-- The loop buffer of a warp's scheduler. -/
def loopBufOf (s : State) (wid : Nat) : Option LoopBuf := (s.getCore (coreOf wid)).loopBuf.find? (schedOf wid)

/-- Does a loop buffer hold the body of a record's loop, for a warp that has made no ISYNC since it was filled (R116)? -/
def bufferFor (part synced : Nat) (r : LoopRec) (b : LoopBuf) : Bool :=
  b.part == part && b.start == r.start && b.last == r.last && decide (synced ≤ b.filled)

/-- The instruction that gang g takes from its scheduler's loop buffer at an address (R116). -/
def bufferedAt (s : State) (wid g : Nat) (pc : DWord) : Option (Word × Nat) :=
  match s.loopBufOf wid with
  | none => none
  | some b =>
    if (State.gangOf (s.getWarp wid) g).loops.any fun r =>
        r.buf && bufferFor (s.partOf wid) (s.getWarp wid).synced r b then copyAt b.code pc
    else none

/-- The instruction that gang g of a warp has before it without a fetch: one fetched ahead, or one of a loop buffer (R116). -/
def ahead (s : State) (wid g : Nat) (pc : DWord) : Option (Word × Nat) :=
  match copyAt (s.getWarp wid).copies pc with
  | some x => some x
  | none => s.bufferedAt wid g pc

/-- The address of an instruction, and of its second halfword, translate for a warp (R34). -/
def mayFetch (s : State) (wid : Nat) (pc : DWord) (len : Nat) : Except (BitVec 8) Unit :=
  match s.translate (orderCore wid) (s.partOf wid) .exec pc with
  | .error c => .error c
  | .ok _ =>
    if len = 4 then match s.translate (orderCore wid) (s.partOf wid) .exec (pc + 2) with
      | .error c => .error c
      | .ok _ => .ok ()
    else .ok ()

/-- Decode a word of a length (R49). -/
def decoded (wid : Nat) (x : Word × Nat) : Fetched :=
  ⟨if x.2 = 4 then instrOf (isMgmt wid) x.1 else decodeShort x.1.toNat, x.1, x.2⟩

/-- Fetch and decode for gang g of warp `wid` at `pc` (R49): what it has before it, checked for its translation all the same
(R34), or what instruction memory holds. -/
def fetch (s : State) (wid g : Nat) (pc : DWord) : Except (BitVec 8) (Fetched × State) :=
  match s.ahead wid g pc with
  | some x => match s.mayFetch wid pc x.2 with
    | .error c => .error c
    | .ok _ => .ok (decoded wid x, s)
  | none => match s.readCode wid pc with
    | .error c => .error c
    | .ok (x, s) => .ok (decoded wid x, s)

/-- An instruction fetched ahead is used once (R116). -/
def useCopies (s : State) (wid : Nat) (va : DWord) : State :=
  s.modWarp wid fun w => { w with copies := w.copies.filter fun c => c.addr != va }

end State

/-- Is the fetched instruction switch-marked by its own SW bit (R37)? -/
def Fetched.marked (f : Fetched) : Bool := f.word.getLsbD 1

end Sys2Proof.Machine
end

