-- ==== Sys2Proof/Machine/Operands.lean ====
section
/-! DEFINITION. Operand forms: uniform operands with their checks, register pairs, immediates, and results computed
lane by lane with the shapes of R71. -/

namespace Sys2Proof.Machine

/-! ## Uniform operands (SHAPE before POISON) -/

/-- The lanes of `act` in which a register is poisoned. -/
def poisonLanes (act : LaneSet) (x : Shaped) : LaneSet :=
  match x with
  | .u _ p | .a _ _ p => if p then act else 0
  | .v ls => act &&& LaneSet.ofList ((List.range ls.length).filter fun i => (ls.getD i ⟨0, false⟩).poison)

/-- Stop with POISON in some lanes (R125). -/
def poisonStop (lanes : LaneSet) (addr : DWord) : Stop := .trap (TrapInfo.at cPOISON lanes addr)

namespace State

/-- A value that must be U: SHAPE. -/
def uniform (s : State) (x : Shaped) : Except Stop Word :=
  match x with
  | .u v _ => .ok v
  | _ => .error (s.trapAct cSHAPE)

/-- A value that must not be poisoned: POISON. -/
def clean (s : State) (x : Shaped) : Except Stop Unit :=
  if x.poison0 then .error (poisonStop s.act 0) else .ok ()

/-- Register n as a uniform word: SHAPE, then POISON. -/
def rdU (s : State) (n : Nat) : Except Stop Word :=
  match s.uniform (s.rd n) with
  | .error e => .error e
  | .ok v => match s.clean (s.rd n) with
    | .error e => .error e
    | .ok _ => .ok v

/-- Registers n and n+1 as a uniform 64-bit value: SHAPE of both, then POISON of both (R81, R140). -/
def rdU64 (s : State) (n : Nat) : Except Stop DWord :=
  match s.uniform (s.rd n), s.uniform (s.rd (n + 1)) with
  | .ok lo, .ok hi =>
    if (s.rd n).poison0 || (s.rd (n + 1)).poison0 then .error (poisonStop s.act 0) else .ok (hi ++ lo)
  | _, _ => .error (s.trapAct cSHAPE)

/-- The lowest lane of a lane set, or 0. -/
def lowestLane (m : LaneSet) : Nat := (LaneSet.toList m).headD 0

end State

/-- A 64-bit value as two words, low first (R4, R153). -/
def loWord (x : DWord) : Word := x.extractLsb' 0 32
def hiWord (x : DWord) : Word := x.extractLsb' 32 32

/-- Lane i of a register pair (R153). -/
def pairLane (lo hi : Shaped) (i : Nat) : DWord := (hi.lane i).val ++ (lo.lane i).val

/-! ## Results lane by lane (R70, R71, R72) -/

/-- Is every source U? -/
def allU (srcs : List Shaped) : Bool := srcs.all Shaped.isU

/-- Is some source V? -/
def anyV (srcs : List Shaped) : Bool := srcs.any Shaped.isV

/-- The poison of a result lane: the OR over the sources read (R72). -/
def poisonAt (srcs : List Shaped) (i : Nat) : Bool := srcs.any fun x => (x.lane i).poison

/-- A result that is U when every source is, and V otherwise, with value `f i` in lane i. -/
def byLane (wd : Nat) (srcs : List Shaped) (f : Nat → Word) : Shaped :=
  if allU srcs then .u (f 0) (poisonAt srcs 0)
  else .v ((List.range wd).map fun i => ⟨f i, poisonAt srcs i⟩)

/-- A V result. -/
def vLanes (wd : Nat) (f : Nat → Lane) : Shaped := .v ((List.range wd).map f)

/-- One source. -/
def map1 (wd : Nat) (f : Word → Word) (x : Shaped) : Shaped := byLane wd [x] fun i => f (x.lane i).val

/-- Two sources. -/
def map2 (wd : Nat) (f : Word → Word → Word) (x y : Shaped) : Shaped :=
  byLane wd [x, y] fun i => f (x.lane i).val (y.lane i).val

/-- Three sources. -/
def map3 (wd : Nat) (f : Word → Word → Word → Word) (x y z : Shaped) : Shaped :=
  byLane wd [x, y, z] fun i => f (x.lane i).val (y.lane i).val (z.lane i).val

/-- A pair result: U, U or V, V (R162). -/
def pairBy (wd : Nat) (srcs : List Shaped) (f : Nat → DWord) : Shaped × Shaped :=
  (byLane wd srcs fun i => loWord (f i), byLane wd srcs fun i => hiWord (f i))

/-- The Add row of R71. -/
def addShaped (wd : Nat) : Shaped → Shaped → Shaped
  | .u x p, .u y q => .u (x + y) (p || q)
  | .u x p, .a b s q => .a (x + b) s (p || q)
  | .a b s p, .u y q => .a (b + y) s (p || q)
  | .a b s p, .a c t q => Shaped.affine (b + c) (s + t) (p || q)
  | x, y => map2 wd (· + ·) x y

/-- SUB in the Add row of R71. -/
def subShaped (wd : Nat) : Shaped → Shaped → Shaped
  | .u x p, .u y q => .u (x - y) (p || q)
  | .u x p, .a b s q => Shaped.affine (x - b) (0 - s) (p || q)
  | .a b s p, .u y q => .a (b - y) s (p || q)
  | .a b s p, .a c t q => Shaped.affine (b - c) (s - t) (p || q)
  | x, y => map2 wd (· - ·) x y

/-- The Scale row of R71. -/
def mulShaped (wd : Nat) : Shaped → Shaped → Shaped
  | .u x p, .u y q => .u (x * y) (p || q)
  | .u x p, .a b s q => Shaped.affine (x * b) (x * s) (p || q)
  | .a b s p, .u y q => Shaped.affine (b * y) (s * y) (p || q)
  | x, y => map2 wd (· * ·) x y

/-- A word shifted left by a whole word; 0 from 32 up (R158). -/
def shlWord (a b : Word) : Word := if 32 ≤ b.toNat then 0 else a <<< b.toNat
def shrWord (a b : Word) : Word := if 32 ≤ b.toNat then 0 else a >>> b.toNat
def sarWord (a b : Word) : Word := a.sshiftRight (min b.toNat 32)

/-- The Shift left row of R71. -/
def shlShaped (wd : Nat) : Shaped → Shaped → Shaped
  | .u x p, .u n q => .u (shlWord x n) (p || q)
  | .a b s p, .u n q => Shaped.affine (shlWord b n) (shlWord s n) (p || q)
  | x, y => map2 wd shlWord x y

/-- A register read with a replaced lane list of a predicate: lane i of two predicates combined; U when both are. -/
def predBy (srcs : List Shaped) (preds : List Pred) (f : Nat → Bool) : Pred :=
  if allU srcs && !preds.any Pred.isV then .u (f 0) else .v (LaneSet.ofList (lanes64.filter f))

/-- A sign-extended immediate as a U source (R163). -/
def immU (i : BitVec 10) : Shaped := .u (i.signExtend 32) false

end Sys2Proof.Machine
end

