-- ==== Sys2Proof/Machine/Shapes.lean ====
section
/-! DEFINITION. Shaped moves, shape queries, special values and the control registers (spec/03, majors 0x0C-0x0F). -/

namespace Sys2Proof.Machine

/-- What a meaning answers. -/
abbrev Answer := Host.Outcome State Fault Refusal

/-- Slices that a present-lane operation covers, in pipe cycles. -/
def State.presentCycles (s : State) : Nat := (s.w.presentSlices + 3) / 4

/-- MOV (R77), shared with its 16-bit form. -/
def State.moveReg (s : State) (h : Hdr) (d a : Nat) : State :=
  s.regStep h (.alu 2 4 1) [a] fun s => .ok [s.res d (s.rd a)]

/-- MOV (R77). -/
def execMov (h : Hdr) (d a : BitVec 6) (s : State) : Answer := .next (s.moveReg h d.toNat a.toNat)

/-- MOV, 16-bit (R42). -/
def execMov16 (sw : Bool) (d a : BitVec 5) (s : State) : Answer := .next (s.moveReg (hdr16 sw) d.toNat a.toNat)

/-- MOVL (R79): U of the sign-extended immediate. -/
def execMovl (h : Hdr) (d : BitVec 6) (i : BitVec 16) (s : State) : Answer :=
  .next (s.regStep h (.alu 2 4 1) [] fun s => .ok [s.res d.toNat (.u (i.signExtend 32) false)])

/-- MOVH (R79): the high half replaced, the poison kept. -/
def execMovh (h : Hdr) (d : BitVec 6) (i : BitVec 16) (s : State) : Answer :=
  .next (s.regStep h (.alu 2 4 1) [d.toNat] fun s =>
    .ok [s.res d.toNat (map1 s.width (fun x => i ++ x.extractLsb' 0 16) (s.rd d.toNat))])

/-- SHQ.K (R86): the shape as a number. -/
def execShqK (h : Hdr) (d a : BitVec 6) (s : State) : Answer :=
  .next (s.regStep h (.alu 2 2 1) [] fun s => .ok [s.res d.toNat (.u (BitVec.ofNat 32 (s.rd a.toNat).code) false)])

/-- The base of a register: its value in lane 0 (R86). -/
def Shaped.base (x : Shaped) : Shaped := .u (x.lane 0).val (x.lane 0).poison

/-- The stride of a register, with its poison when it is affine (R86). -/
def Shaped.stride (x : Shaped) : Shaped :=
  match x with
  | .a _ t p => .u t p
  | _ => .u 0 false

/-- SHQ.B (R86). -/
def execShqB (h : Hdr) (d a : BitVec 6) (s : State) : Answer :=
  .next (s.regStep h (.alu 2 2 1) [a.toNat] fun s => .ok [s.res d.toNat (s.rd a.toNat).base])

/-- SHQ.S (R86). -/
def execShqS (h : Hdr) (d a : BitVec 6) (s : State) : Answer :=
  .next (s.regStep h (.alu 2 2 1) [] fun s => .ok [s.res d.toNat (s.rd a.toNat).stride])

/-- SHAS (R88): SHAPE when the register is wider than asked. -/
def execShas (h : Hdr) (a b : BitVec 6) (s : State) : Answer :=
  .next (s.plainStep h fun s => if b.toNat < (s.rd a.toNat).code then .error (s.trapAct cSHAPE) else .ok s)

/-- A forced shape, in every lane. -/
def State.resWhole (s : State) (n : Nat) (x : Shaped) : Res := { dest := s.dst n, val := .shaped x, mode := .whole }

/-- SHF.U (R90): U of lane 0. -/
def execShfU (h : Hdr) (d a : BitVec 6) (s : State) : Answer :=
  .next (s.regStep h (.sched 2) [a.toNat] fun s => .ok [s.resWhole d.toNat (s.rd a.toNat).base])

/-- SHF.A (R90): lane 0 and the step to lane 1. -/
def execShfA (h : Hdr) (d a : BitVec 6) (s : State) : Answer :=
  .next (s.regStep h (.sched 2) [a.toNat] fun s =>
    let x := s.rd a.toNat
    let l0 := x.lane 0
    let l1 := x.lane 1
    let two := s.present.getLsbD 1
    .ok [s.resWhole d.toNat
      (Shaped.affine l0.val (if two then l1.val - l0.val else 0) (l0.poison || (two && l1.poison)))])

/-- SHF.V (R90): D widens and its present lanes take A's. -/
def execShfV (h : Hdr) (d a : BitVec 6) (s : State) : Answer :=
  .next (s.regStep h (.cycles 0 s.presentCycles 4) [a.toNat] fun s =>
    if d = a && (s.rd d.toNat).isV then .ok []
    else .ok [{ dest := s.dst d.toNat, val := .shaped (Shaped.widen s.width (s.rd a.toNat)),
                mode := .masked s.present }])

/-- The registers of a WIDEN block that are not V once every write issued is visible (R92, R186). -/
def State.widenSet (s : State) (d : Nat) (m : BitVec 16) : List Nat :=
  (List.range 16).filterMap fun k =>
    if m.getLsbD k && !(s.w.issued.named (d + k)).isV then some (d + k) else none

/-- WIDEN (R92): every named register becomes V, all at once. -/
def execWiden (h : Hdr) (d : BitVec 6) (i : BitVec 16) (s : State) : Answer :=
  .next (s.regStep h (.cycles 1 ((s.widenSet d.toNat i).length * s.presentCycles) 2) [] fun s =>
    .ok ((s.widenSet d.toNat i).map fun n => { dest := s.dst n, val := .shaped Shaped.zero, mode := .expand }))

/-- MOVB.TO (R81): a base register from a uniform pair. -/
def execMovbTo (h : Hdr) (d a : BitVec 6) (s : State) : Answer :=
  .next (s.regStep h (.sched 2) [] fun s =>
    match s.rdU64 a.toNat with
    | .error e => .error e
    | .ok v => .ok [{ dest := .b d.toNat, val := .base v, mode := .whole }])

/-- MOVB.FROM (R81): a pair from a base register. -/
def execMovbFrom (h : Hdr) (d a : BitVec 6) (s : State) : Answer :=
  .next (s.regStep h (.alu 2 2 1) [] fun s =>
    let v := s.rdb a.toNat
    .ok [s.res d.toNat (.u (loWord v) false), s.res (d.toNat + 1) (.u (hiWord v) false)])

/-- A one-word special value (R83); on a management core as R30 says. -/
def State.specialWord (s : State) (sel : Nat) : Shaped :=
  let m := isMgmt s.cur.wid
  let u (n : Nat) : Shaped := .u (BitVec.ofNat 32 n) false
  let t (f : Team → Nat) : Shaped := if m then u 0 else match s.team? with
    | some t => u (f t)
    | none => u 0
  match sel with
  | 0 => if m then u 0 else .a 0 1 false
  | 1 => if m then u 0 else .a (BitVec.ofNat 32 (s.width * s.w.index)) 1 false
  | 2 => if m then u 0 else u s.w.index
  | 3 => if m then u 1 else t (·.nwarps)
  | 4 => t (·.index)
  | 5 => t (·.crew)
  | 6 => t (·.rank)
  | 7 => if m then u 1 else u s.w.nlanes
  | 8 => if m then u 1 else u s.width
  | 9 => if m then u (dieOf s.cur.wid) else t (·.logCore)
  | 10 => u (if m then mgmtCoord (dieOf s.cur.wid) else s.coordOf (coreOf s.cur.wid)).toNat
  | 11 => if m then u 0 else u (slotOf s.cur.wid)
  | 12 => u s.w.part.toNat
  | _ => u s.w.role.toNat

/-- A pair special value (R83), sampled whole in the cycle of issue. -/
def State.specialPair (s : State) (sel : Nat) : DWord :=
  match sel with
  | 16 => s.present
  | 17 => s.act
  | 18 => BitVec.ofNat 64 s.now
  | 19 => BitVec.ofNat 64 (s.wtime s.w)
  | 20 => BitVec.ofNat 64 s.gtime
  | 21 => s.w.deadline
  | _ => s.w.tvec

/-- SPR (R83, R84). -/
def execSpr (h : Hdr) (d b : BitVec 6) (s : State) : Answer :=
  .next (s.regStep h (.alu 2 2 1) [] fun s =>
    if b.toNat < 14 then .ok [s.res d.toNat (s.specialWord b.toNat)]
    else
      let v := s.specialPair b.toNat
      .ok [s.res d.toNat (.u (loWord v) false), s.res (d.toNat + 1) (.u (hiWord v) false)])

/-- PART (R94). -/
def execPartW (h : Hdr) (a : BitVec 6) (s : State) : Answer :=
  .next (s.plainStep h fun s => match s.rdU a.toNat with
    | .error e => .error e
    | .ok v => .ok (s.modW fun w => { w with part := v.extractLsb' 0 3 }))

/-- ROLE is written: the ages of the warp's gangs go on, on the scale of the new role (R410, R411). -/
def State.setRole (s : State) (role : BitVec 2) : State :=
  let t := s.modW fun w => { w with role }
  let d := t.ageClock s.cur.wid - s.ageClock s.cur.wid
  t.modW fun w => { w with readyAt := w.readyAt + d
                           gangs := w.gangs.map fun e => (e.1, { e.2 with since := e.2.since + d }) }

/-- ROLE (R94). -/
def execRoleW (h : Hdr) (a : BitVec 6) (s : State) : Answer :=
  .next (s.plainStep h fun s => match s.rdU a.toNat with
    | .error e => .error e
    | .ok v => .ok (s.setRole (v.extractLsb' 0 2)))

/-- SFMT (R96): the issuing gang's copy. -/
def execSfmt (h : Hdr) (a : BitVec 6) (s : State) : Answer :=
  .next (s.plainStep h fun s => match s.rdU a.toNat with
    | .error e => .error e
    | .ok v => .ok (s.modGang fun g => { g with fmt := v.extractLsb' 0 17 }))

/-- GFMT (R96). -/
def execGfmt (h : Hdr) (d : BitVec 6) (s : State) : Answer :=
  .next (s.regStep h (.sched 2) [] fun s => .ok [s.res d.toNat (.u (s.fmt.zeroExtend 32) false)])

end Sys2Proof.Machine
end

