-- ==== Sys2Proof/Machine/Control.lean ====
section
/-! DEFINITION. Control flow: gangs, divergence, reconvergence, hardware loops, calls and jump tables (spec/04; EXIT
stands in Exit.lean). -/

namespace Sys2Proof.Machine

/-! ## Entries of the split table (R97-R101) -/

namespace Warp

/-- The lowest free gang entry (R98). -/
def freeEntry (w : Warp) : Option Nat := (List.range 16).find? fun e => (w.gangs.find? e).isNone

/-- The number of free gang entries. -/
def freeCount (w : Warp) : Nat := ((List.range 16).filter fun e => (w.gangs.find? e).isNone).length

def setGang (w : Warp) (e : Nat) (g : Gang) : Warp := { w with gangs := w.gangs.set e g }
def freeGang (w : Warp) (e : Nat) : Warp := { w with gangs := w.gangs.erase e }
def setSlice (w : Warp) (j : Nat) (x : Slice) : Warp := { w with slices := w.slices.set j x }

/-- A gang that begins at `pc` from a moment. -/
def beginGang (slices : BitVec 16) (pc : DWord) (fmt : BitVec 17) (loops : List LoopRec) (inner : BitVec 5) (at' : When) :
    Gang :=
  { slices, pc, fmt, loops, inner, wait := none, met := false, held := none, opened := false, nextAt := at'.cycle,
    exempt := at'.exempt, since := at'.age, boosted := false }

/-- The top deferred entry of slice j. -/
def top? (w : Warp) (j : Nat) : Option Deferred := (w.slice j).stack.head?

/-- The current masks of some slices become those of their top entries, which are popped. -/
def popTops (w : Warp) : List Nat → Warp
  | [] => w
  | j :: rest =>
    match (w.slice j).stack with
    | [] => popTops w rest
    | d :: more => popTops (w.setSlice j ⟨d.mask, more⟩) rest

/-- One group of slices with one PC takes the lowest free entry; `at'` is the moment from which it may issue (R101, R124). -/
def releaseGroup (w : Warp) (js : List Nat) (loops : List LoopRec) (at' : When) : Option Warp :=
  match w.freeEntry, js.head?.bind w.top? with
  | some e, some d =>
    some ((w.popTops js).setGang e (beginGang (sliceSet js) d.pc d.fmt loops d.tag at'))
  | _, _ => none

/-- Slices released together, grouped by PC in ascending order of their lowest slice (R101). -/
def groupsOf (w : Warp) (js : List Nat) : List (List Nat) :=
  ((js.map fun j => (w.top? j).map (·.pc)).eraseDups).map fun p => js.filter fun j => (w.top? j).map (·.pc) = p

/-- Each group takes an entry in turn; those that find none wait (R101). -/
def releaseAll (loops : List LoopRec) (at' : When) : List (List Nat) → Warp → Warp
  | [], w => w
  | js :: rest, w =>
    match w.releaseGroup js loops at' with
    | some w => releaseAll loops at' rest w
    | none => releaseAll loops at' rest { w with releases := w.releases ++ [⟨sliceSet js, loops⟩] }

/-- Waiting groups take entries that have become free (R101). -/
def serveReleases (at' : When) : List Release → Warp → Warp
  | [], w => w
  | r :: rest, w =>
    match w.releaseGroup (sliceList r.slices) r.loops at' with
    | some w => serveReleases at' rest w
    | none => { w with releases := w.releases ++ (r :: rest) }

/-- Serve every group that waits. -/
def serve (w : Warp) (at' : When) : Warp := serveReleases at' w.releases { w with releases := [] }

/-! ## Join records (R102, R103) -/

/-- Lanes of slice j in a record's MASKS that have not exited. -/
def recordLanes (w : Warp) (r : JoinRec) (j : Nat) : BitVec 4 :=
  (r.masks &&& ~~~w.exited).extractLsb' (4 * j) 4

/-- Fuse record k (R103); the end test of R113 runs for the fused gang. -/
def fuse (w : Warp) (k : Nat) (r : JoinRec) (at' : When) : Warp :=
  match w.freeEntry with
  | none => w
  | some e =>
    let t := loopTest r.jpc r.loops
    let w := (sliceList r.arrived).foldl (fun w j => w.setSlice j { w.slice j with mask := w.recordLanes r j }) w
    { w.setGang e (beginGang r.arrived (t.2.getD (r.jpc + 4)) r.fmt t.1 r.parent at') with joins := w.joins.erase k }

/-- Record k after slices have left it or arrived: freed when empty, fused when all its members have arrived. -/
def settleRecord (at' : When) (w : Warp) (k : Nat) : Warp :=
  match w.joins.find? k with
  | none => w
  | some r =>
    let gone := sliceSet ((sliceList r.members).filter fun j => w.recordLanes r j == 0)
    let r := { r with members := r.members &&& ~~~gone, arrived := r.arrived &&& ~~~gone }
    if r.members = 0 then { w with joins := w.joins.erase k }
    else if r.arrived = r.members then w.fuse k r at'
    else { w with joins := w.joins.set k r }

/-- Every record settled. -/
def settleRecords (w : Warp) (at' : When) : Warp := (List.range 16).foldl (settleRecord at') w

/-! ## REGANG (R110) -/

/-- Gangs that stand at a REGANG at `pc`. -/
def standingAt (w : Warp) (pc : DWord) : List (Nat × Gang) :=
  w.gangs.filter fun e => e.2.pc == pc && match e.2.wait with
    | some (.regang _) => true
    | _ => false

/-- If every live slice that the mask of a standing gang names stands at the same PC, the gangs that hold one of them
fuse (R110). -/
def tryRegang (at' : When) (w : Warp) (e : Nat) : Warp :=
  match w.gangs.find? e with
  | none => w
  | some g =>
    match g.wait with
    | some (.regang m) =>
      let stand := w.standingAt g.pc
      let there := stand.foldl (fun x q => x ||| q.2.slices) 0
      let want := sliceSet ((sliceList m).filter w.liveSlice)
      if want &&& ~~~there = 0 then
        let part := stand.filter fun q => q.2.slices &&& m != 0
        let all := part.foldl (fun x q => x ||| q.2.slices) 0
        let low := (sliceList all).headD 0
        match part.head?, part.find? fun q => q.2.slices.getLsbD low with
        | some (k, _), some (_, q) =>
          let t := loopTest g.pc q.loops
          let w := part.foldl (fun w q => w.freeGang q.1) w
          w.setGang k (beginGang all (t.2.getD (g.pc + 4)) q.fmt t.1 q.inner at')
        | _, _ => w
      else w
    | _ => w

/-- Every standing gang tried, in ascending order. -/
def regangAll (w : Warp) (at' : When) : Warp := (List.range 16).foldl (tryRegang at') w

end Warp

/-! ## Divergence (R100) -/

/-- What Diverge decides for one slice: the target it goes to, and its deferred entries, first pushed first. -/
structure SlicePlan where
  slice : Nat
  go : DWord
  mixed : Bool
  mask : BitVec 4
  pushed : List Deferred
  deriving DecidableEq, Repr

/-- Active lanes of slice j whose target is t, as a mask of the slice. -/
def lanesFor (act : LaneSet) (tgt : Nat → DWord) (j : Nat) (t : DWord) : BitVec 4 :=
  (List.range 4).foldl (fun m k =>
    if act.getLsbD (4 * j + k) && tgt (4 * j + k) == t then m ||| BitVec.twoPow 4 k else m) 0

/-- The plan of slice j (R100). -/
def slicePlan (act : LaneSet) (g : Gang) (tgt : Nat → DWord) (first : Nat → DWord) (j : Nat) : SlicePlan :=
  let ls := (List.range 4).filter fun k => act.getLsbD (4 * j + k)
  let ts := (ls.map fun k => tgt (4 * j + k)).eraseDups
  match ts with
  | [t] => ⟨j, t, false, 0, []⟩
  | _ =>
    let go := first j
    let others := (ts.filter (· != go)).reverse
    ⟨j, go, true, lanesFor act tgt j go,
      others.map fun t => { mask := lanesFor act tgt j t, pc := t, tag := g.inner, fmt := g.fmt }⟩

/-- The gang entries of the groups that leave, in ascending order of their lowest slice (R100). -/
def spread (w : Warp) (g : Gang) (at' : When) : List (DWord × BitVec 16) → Option Warp
  | [] => some w
  | (pc, js) :: rest =>
    match w.freeEntry with
    | none => none
    | some e => spread (w.setGang e { g.moved pc at' with slices := js }) g at' rest

namespace State

/-- A DIVSTK trap, naming the active lanes. -/
def divstk (s : State) : Stop := s.trapAct cDIVSTK

/-- Diverge (R100): `keep` picks the target that stays in entry g from the targets in use; `move` retires g there.
DIVSTK in handler mode (R132), or when entries or stack places are lacking. -/
def diverge (s : State) (h : Hdr) (tgt first : Nat → DWord) (keep : List SlicePlan → DWord)
    (move : DWord → State → State) : State :=
  let w := s.w
  let g := s.gang
  let js := (sliceList g.slices).filter fun j => s.act.extractLsb' (4 * j) 4 != 0#4
  let plans := js.map (slicePlan s.act g tgt first)
  let targets := (plans.map (·.go)).eraseDups
  let stay := keep plans
  let tooDeep := plans.any fun p => decide (8 < (w.slice p.slice).stack.length + p.pushed.length)
  if w.hm || tooDeep || decide (w.freeCount < targets.length - 1) then s.stopWith s.divstk
  else
    let w := plans.foldl (fun w p =>
      if p.mixed then w.setSlice p.slice ⟨p.mask, p.pushed.reverse ++ (w.slice p.slice).stack⟩ else w) w
    let leave := (targets.filter (· != stay)).map fun t =>
      (t, sliceSet ((plans.filter fun p => p.go == t).map (·.slice)))
    let gone := leave.foldl (fun m x => m ||| x.2) 0
    match spread w g (s.whenIn s.cur.wid (h.gap.toNat + 3)) leave with
    | none => s.stopWith s.divstk
    | some w =>
      move stay (s.setWarp s.cur.wid (w.setGang s.cur.g { g with slices := g.slices &&& ~~~gone }))

/-! ## Branches (R106, R107) -/

/-- PC + 2 × a signed halfword offset (R35). -/
def target (s : State) (off : Int) : DWord := s.cur.pc + BitVec.ofInt 64 (2 * off)

/-- The condition c(i) of BRC, over the active lanes (R107). -/
def brcLanes (s : State) (p : BitVec 3) (n : BitVec 1) : LaneSet :=
  let m := (s.rdp p.toNat).mask
  s.act &&& (if n == 1 then ~~~m else m)

/-- A branch of the whole gang, taken or not. -/
def branchIf (s : State) (h : Hdr) (taken : Bool) (t : DWord) : State :=
  let s := s.debitW 1
  if taken then s.retireTo h 3 t else s.retire h

end State

/-- BRA (R106). -/
def execBra (h : Hdr) (o : BitVec 22) (s : State) : Answer := .next (s.branchIf h true (s.target o.toInt))

/-- BRC (R107): per lane, through Diverge when the active lanes disagree. Where they disagree and the target is the next
address, no gang and no deferred entry is made, and the branch counts as not taken: the end test of R113 runs, the next
instruction issues after GAP+1, and handler mode raises no DIVSTK (R132) (DESIGN CHOICE, log 64: R107 does not name this
case). -/
def execBrc (h : Hdr) (p : BitVec 3) (n : BitVec 1) (o : BitVec 16) (s : State) : Answer :=
  let t := s.target o.toInt
  let c := s.brcLanes p n
  .next (
    if c = s.act then s.branchIf h true t
    else if c = 0 then s.branchIf h false t
    else if t = s.seqPc then s.branchIf h false t
    else s.diverge h (fun i => if c.getLsbD i then t else s.seqPc) (fun _ => s.seqPc)
      (fun ps => if ps.any (fun q => q.go == s.seqPc) then s.seqPc else t)
      (fun stay s' => s'.branchIf h (stay != s.seqPc) t))

/-- BRC.ANY (R107). -/
def execBrcAny (h : Hdr) (p : BitVec 3) (n : BitVec 1) (o : BitVec 16) (s : State) : Answer :=
  .next (s.branchIf h (s.brcLanes p n != 0) (s.target o.toInt))

/-- BRC.ALL (R107). -/
def execBrcAll (h : Hdr) (p : BitVec 3) (n : BitVec 1) (o : BitVec 16) (s : State) : Answer :=
  .next (s.branchIf h (s.brcLanes p n == s.act) (s.target o.toInt))

/-! ## SPLIT, JOIN, REGANG (R108-R110) -/

/-- Records on the chain from a record through its parents. -/
def chainLength (w : Warp) : Nat → BitVec 5 → Nat
  | 0, _ => 0
  | fuel + 1, k => match w.joins.find? k.toNat with
    | some r => 1 + chainLength w fuel r.parent
    | none => 0

/-- SPLIT (R108). -/
def execSplit (h : Hdr) (o : BitVec 16) (s : State) : Answer :=
  .next (
    let w := s.w
    let g := s.gang
    match (List.range 16).find? fun k => (w.joins.find? k).isNone with
    | none => s.stopWith s.divstk
    | some k =>
      if w.hm || decide (8 ≤ chainLength w 16 g.inner) then s.stopWith s.divstk
      else
        let js := sliceList g.slices
        let r : JoinRec :=
          { jpc := s.target o.toInt, members := sliceSet (js.filter w.liveSlice), arrived := 0,
            masks := sliceLanes (fun j => (w.slice j).mask) js, fmt := g.fmt, loops := g.loops, parent := g.inner }
        let s := s.modW fun w => { w with joins := w.joins.set k r }
        ((s.modGang fun g => { g with inner := BitVec.ofNat 5 k }).debitW 1).retire h)

/-- JOIN (R109): the slices of the gang arrive, or run their deferred paths first. -/
def execJoin (h : Hdr) (s : State) : Answer :=
  .next (
    let w := s.w
    let g := s.gang
    let k := g.inner.toNat
    match w.joins.find? k with
    | none => s.stopWith s.divstk
    | some r =>
      if w.hm || r.jpc != s.cur.pc then s.stopWith s.divstk
      else
        let at' := s.whenMade h
        let rel := (sliceList g.slices).filter fun j => (w.top? j).any fun d => d.tag == g.inner
        let r := { r with arrived := r.arrived ||| (g.slices &&& ~~~sliceSet rel) }
        let w := { w.freeGang s.cur.g with joins := w.joins.set k r }
        let w := Warp.settleRecord at' w k
        let w := (w.serve at')
        let w := w.releaseAll g.loops at' (w.groupsOf rel)
        ((s.setWarp s.cur.wid w).debitW 1).usedIssue.countIssue h)

/-- REGANG (R110). -/
def execRegang (h : Hdr) (a : BitVec 6) (s : State) : Answer :=
  .next (
    if s.w.hm then s.stopWith s.divstk
    else match s.rdU a.toNat with
    | .error e => s.stopWith e
    | .ok v =>
      let m := v.extractLsb' 0 16
      let w := s.w
      let g := s.gang
      if g.slices &&& ~~~m != 0 then s.stopWith s.divstk
      else
        let at' := s.whenMade h
        let rel := (sliceList g.slices).filter fun j => (w.top? j).any fun d => d.tag == g.inner
        let left := g.slices &&& ~~~sliceSet rel
        let w := if left = 0 then w.freeGang s.cur.g
          else w.setGang s.cur.g { g with slices := left, pc := s.cur.pc, wait := some (.regang m), held := none }
        let w := w.serve at'
        let w := w.releaseAll g.loops at' (w.groupsOf rel)
        let w := (w.regangAll at').serve at'
        ((s.setWarp s.cur.wid w).debitW 1).usedIssue.countIssue h)

/-! ## Hardware loops (R111-R115) -/

/-- LOOP with its count (R112). -/
def State.loopStep (s : State) (h : Hdr) (n : Word) (e : BitVec 15) : State :=
  let l := s.cur.pc + BitVec.ofNat 64 (2 * e.toNat)
  if n = 0 then
    match s.codeHalf s.cur.wid l with
    | .error c => s.stopWith (.sys c l s.act)
    | .ok (half, s) => (s.debitW 1).retireTo h 3 (l + (if half.getLsbD 0 then 4 else 2))
  else if 4 ≤ s.gang.loops.length then s.stopWith s.divstk
  else
    let s := s.modGang fun g => { g with loops := ⟨s.cur.pc + 4, l, n, false⟩ :: g.loops }
    (s.debitW 1).retireTo h 1 (s.cur.pc + 4)

/-- LOOP with a register count (R112). -/
def execLoopReg (h : Hdr) (c : BitVec 6) (e : BitVec 15) (s : State) : Answer :=
  .next (match s.rdU c.toNat with
    | .error x => s.stopWith x
    | .ok n => s.loopStep h n e)

/-- LOOP with an immediate count (R112). -/
def execLoopImm (h : Hdr) (c : BitVec 6) (e : BitVec 15) (s : State) : Answer :=
  .next (s.loopStep h (c.zeroExtend 32) e)

/-- LOOPX (R115): the top record is popped before the end test can see it. -/
def execLoopx (h : Hdr) (s : State) : Answer :=
  .next (
    let s := s.modGang fun g => { g with loops := g.loops.tail }
    (s.debitW 1).retire h)

/-- NOP (R123). -/
def execNop (h : Hdr) (s : State) : Answer := .next ((s.debitW 1).retire h)

/-- ISYNC (R117): the warp's copies of code are discarded. -/
def execIsync (h : Hdr) (s : State) : Answer :=
  .next ((({ s.modW fun w => w.sync s.fresh with fresh := s.fresh + 1 }).debitW 1).retireBy h 8)

/-! ## Calls and jump tables (R118-R121) -/

/-- The write of b15 by CALL and CALLX, visible two cycles later (R39, R64). -/
def State.linkReg (s : State) : State :=
  s.addResults (some (s.now + 2)) false true [] [{ dest := .b 15, val := .base (s.cur.pc + 4), mode := .whole }]

/-- CALL (R118). -/
def execCall (h : Hdr) (o : BitVec 22) (s : State) : Answer :=
  .next ((s.linkReg.debitW 1).retireTo h 3 (s.target o.toInt))

/-- RET (R121). -/
def execRet (h : Hdr) (a : BitVec 6) (s : State) : Answer :=
  .next (
    let t := s.rdb a.toNat
    if t.getLsbD 0 then s.stopWith (.trap (TrapInfo.at cALIGN s.act t)) else s.branchIf h true t)

/-- The targets that some indexes give, through the jump table at `t`, each word read once (R119): the first word that cannot
be read stops, with its own address and every active lane in the record (DESIGN CHOICE, log 65). -/
def State.tableTargets (t : DWord) : List Word → State → Except Stop (List (Word × DWord) × State)
  | [], s => .ok ([], s)
  | x :: rest, s =>
    let a := t + 4 + 4 * x.zeroExtend 64
    match s.codeWord s.cur.wid a with
    | .error c => .error (.sys c a s.act)
    | .ok (e, s) => match tableTargets t rest s with
      | .error z => .error z
      | .ok (l, s) => .ok ((x, t + 2 * e.signExtend 64) :: l, s)

/-- The checks of BRX and CALLX in their order, and the target of each active lane (R120). A header word that cannot be read
stops with its own address and every active lane in the record (DESIGN CHOICE, log 65: R119 names the faults of R34 alone). -/
def State.jumpTargets (s : State) (uniform : Bool) (a : Nat) (off : Int) : Except Stop (List (Nat × DWord) × State) :=
  let t := s.target off
  let x := s.rd a
  if t.toNat % 4 ≠ 0 then .error (.trap (TrapInfo.at cALIGN s.act t))
  else match s.codeWord s.cur.wid t with
  | .error c => .error (.sys c t s.act)
  | .ok (n, s) =>
    if n.extractLsb' 16 16 ≠ 0 then .error (s.trapAct cBRXR)
    else if uniform && !x.isU then .error (s.trapAct cSHAPE)
    else if poisonLanes s.act x ≠ 0 then .error (poisonStop (poisonLanes s.act x) 0)
    else
      let bad := (LaneSet.toList s.act).filter fun i => decide (n.toNat ≤ (x.lane i).val.toNat)
      if !bad.isEmpty then .error (.trap (TrapInfo.at cBRXR (LaneSet.ofList bad) 0))
      else
        let ls := (LaneSet.toList s.act).map fun i => (i, (x.lane i).val)
        match State.tableTargets t (ls.map (·.2)).eraseDups s with
        | .error e => .error e
        | .ok (l, s) => .ok (ls.map fun e => (e.1, ((l.find? fun m => m.1 == e.2).map (·.2)).getD 0), s)

/-- BRX (R120). -/
def execBrx (h : Hdr) (a : BitVec 6) (o : BitVec 16) (s : State) : Answer :=
  .next (match s.jumpTargets false a.toNat o.toInt with
    | .error e => s.stopWith e
    | .ok (l, s) =>
      let z := s.touchRows [a.toNat]
      let s := z.2
      let tgt (i : Nat) : DWord := ((l.find? fun e => e.1 == i).map (·.2)).getD 0
      let one := (l.headD (0, 0)).2
      State.lateBy (if l.all fun e => e.2 == one then (s.debitW 1).retireTo h 8 one
      else s.diverge h tgt (fun j => tgt (State.lowestLane (s.act &&& sliceLanes (fun _ => 0xF#4) [j])))
        (fun ps => (ps.headD ⟨0, one, false, 0, []⟩).go)
        (fun stay s' => (s'.debitW 1).retireTo h 8 stay)) z.1)

/-- CALLX (R120). -/
def execCallx (h : Hdr) (a : BitVec 6) (o : BitVec 16) (s : State) : Answer :=
  .next (match s.jumpTargets true a.toNat o.toInt with
    | .error e => s.stopWith e
    | .ok (l, s) => (s.linkReg.debitW 1).retireTo h 8 (l.headD (0, 0)).2)

end Sys2Proof.Machine
end

