-- ==== Sys2Proof/Machine/Issue.lean ====
section
/-! DEFINITION. Turn-taking and issue (R36-R38, R410, R411; log 3): which turn comes next, when a gang may issue, what is
fetched for it, and the parking before a switch-marked instruction. -/

namespace Sys2Proof.Machine

/-- Has the warp a variable-latency result that is not written (R37)? -/
def Warp.hasLate (w : Warp) : Bool := w.pend.any fun e => e.vis.isNone

/-- Does the warp wait only for results of R189? -/
def Warp.lateMem (w : Warp) : Bool := (w.pend.filter fun e => e.vis.isNone).all fun e => e.mem

/-- Does the gang stand at a REGANG (R97, R110), or is it parked at a CKPT (R431)? -/
def Gang.standing (g : Gang) : Bool :=
  match g.wait with
  | some (.regang _) | some (.ckpt _) => true
  | _ => false

/-- Does the gang wait at a WAITC? Then its whole warp stands there (R289). -/
def Gang.atWaitc (e : Gang) : Bool :=
  match e.wait with
  | some (.eng _ _ _) => true
  | _ => false

/-- Is the gang at an instruction boundary (R141): does it stand at no instruction that has issued? -/
def Gang.atBoundary (g : Gang) : Bool :=
  match g.wait with
  | none | some (.remote _) => true
  | _ => false

/-- Is the wait of the gang's instruction, which has issued, over? A crew-remote access that waits has not issued (R231). -/
def Gang.ending (g : Gang) : Bool :=
  g.met && match g.wait with
  | some (.remote _) | none => false
  | some _ => true

namespace State

/-- Is a warp resident and running, on a core that SNAP does not stop (R410)? -/
def running (s : State) (wid : Nat) : Bool :=
  let w := s.getWarp wid
  let on := if isMgmt wid then (s.getDie (dieOf wid)).mgRun
    else (match s.getTeam? w.team with
      | some t => t.status == .resident
      | none => false) && !(s.getCore (coreOf wid)).snap && !(s.getCluster (clusterOf (coreOf wid))).gate
  on && !w.ended && !w.halted && w.fault.isNone

/-- Does the power allowance withhold the warp's role (R411)? -/
def withheld (s : State) (wid : Nat) : Bool :=
  !isMgmt wid && decide ((s.getWarp wid).role.toNat < s.level (clusterOf (coreOf wid)))

/-- May gang g of the warp be chosen, leaving its gap and its unit aside (R410)? One that waits may once what it waits for
has come about; where its instruction has issued, that ends it, which the power allowance does not withhold. -/
def mayIssue (s : State) (wid g : Nat) : Bool :=
  let w := s.getWarp wid
  match w.gangs.find? g with
  | none => false
  | some e =>
    s.running wid && w.activeOf e != 0 &&
    (!w.hm || w.trap.gang.toNat == g) &&
    (match w.rowReq with
      | some r => !w.granted.isEmpty && r.gang == g
      | none => true) &&
    !e.standing && (e.wait.isNone || e.met) && !(w.gangs.any fun x => x.1 != g && x.2.atWaitc) &&
    (e.ending || ((w.parked.isNone || !w.hasLate) && !s.withheld wid))

/-- First cycle at which the gang may issue: a gang that the last instruction created is not held by its gap (R36, R124);
one whose instruction has issued takes none. -/
def issueCycle (s : State) (wid g : Nat) : Nat :=
  let w := s.getWarp wid
  let e := State.gangOf w g
  let gap := if e.exempt = w.nextIssue then 0 else w.nextIssue
  let f := if isMgmt wid then 0 else (s.getCore (coreOf wid)).schedFree.get (schedOf wid) 0
  if e.ending then 0 else max (max gap e.nextAt) f

/-- The warp parks before a switch-marked instruction (R37). -/
def park (s : State) (wid : Nat) : State :=
  s.modWarp wid fun w => match w.parked with
    | some _ => w
    | none => { w with parked := some (s.gtime, w.lateMem) }

/-- A TIMER that is due becomes pending before the warp issues (R141). -/
def timerDue (s : State) (wid : Nat) : Bool :=
  let w := s.getWarp wid
  decide (w.deadline.toNat ≤ s.wtime w) && w.deadline != BitVec.allOnes 64

/-! ## What the scheduler picks (R18, R410) -/

/-- The instruction before a gang: the one it holds, or the one at its program counter. -/
def instrAt (s : State) (wid g : Nat) : Except (BitVec 8) (Fetched × State) :=
  match (State.gangOf (s.getWarp wid) g).held with
  | some x => .ok (decoded wid x, s)
  | none => s.fetch wid g (State.gangOf (s.getWarp wid) g).pc

/-- Its word and its length. -/
def before (s : State) (wid g : Nat) : Option (Word × Nat) :=
  match s.instrAt wid g with
  | .ok (f, _) => some (f.word, f.len)
  | .error _ => none

/-- Does the next instruction of a gang go to the copy engine, the reservation table or the special-function unit, and
has its warp the role of that unit: FEED, MXI or NORM (R410)? -/
def roleFirst (s : State) (x : Nat × Nat) : Bool :=
  let w := s.getWarp x.1
  match s.before x.1 x.2 with
  | none => false
  | some (word, len) =>
    let m := bits word.toNat 4 6
    len == 4 && ((w.role == 1 && (m == 0x34 || (m == 0x3B && bits word.toNat 16 3 == 0))) ||
      (w.role == 3 && m == 0x38) || (w.role == 2 && m == 0x29))

/-- How long a gang of a warp has been ready at cycle c, in cycles in which it was not withheld (R410, R411). -/
def ageOf (s : State) (c wid g : Nat) : Int :=
  let w := s.getWarp wid
  s.ageAt wid c - max (State.gangOf w g).since w.readyAt

/-- The keys of R410 for a gang that issues at cycle c: boosted, by its role, age of the team, logical index of the warp,
gang entry. -/
def pickKey (s : State) (c : Nat) (x : Nat × Nat) : List Nat :=
  let w := s.getWarp x.1
  [(!((State.gangOf w x.2).boosted || decide (256 ≤ s.ageOf c x.1 x.2))).toNat, (!s.roleFirst x).toNat,
    ((s.getTeam? w.team).map (·.age)).getD 0, w.index, x.2]

/-- Is a list of keys before another? -/
def keyBefore : List Nat → List Nat → Bool
  | a :: r, b :: t => decide (a < b) || (a == b && keyBefore r t)
  | _, _ => false

/-- Every gang that may be chosen, with its warp. -/
def readyGangs (s : State) : List (Nat × Nat) :=
  s.warps.flatMap fun e => (e.2.gangs.filter fun g => s.mayIssue e.1 g.1).map fun g => (e.1, g.1)

/-- Is the wait of the instruction of gang g over? -/
def endsWait (s : State) (wid g : Nat) : Bool := (State.gangOf (s.getWarp wid) g).ending

/-- The gangs that scheduler q of a core may pick in the present cycle. -/
def choices (s : State) (core q : Nat) : List (Nat × Nat) :=
  s.readyGangs.filter fun x => coreOf x.1 == core && schedOf x.1 == q && !s.endsWait x.1 x.2 &&
    decide (s.issueCycle x.1 x.2 ≤ s.nowOf x.1)

/-- Has gang g of warp wid the first keys among those that its scheduler may pick (R410)? -/
def picked (s : State) (wid g : Nat) : Bool :=
  let now := s.nowOf wid
  isMgmt wid ||
    !(s.choices (coreOf wid) (schedOf wid)).any fun x => keyBefore (s.pickKey now x) (s.pickKey now (wid, g))

/-- The gang that scheduler q of a core picks in the present cycle. -/
def pickOf (s : State) (core q : Nat) : Option (Nat × Nat) :=
  (s.choices core q).find? fun x => s.picked x.1 x.2

/-- The shared unit that a word of a length is bound for (R18, R27), numbered as in `Core.unitFree`. -/
def unitOf (x : Word × Nat) : Option Nat :=
  let n := x.1.toNat
  let m := bits n 4 6
  if x.2 ≠ 4 then none
  else if 0x2C ≤ m ∧ m ≤ 0x33 then some 0
  else if m == 0x3A then some 1
  else if m == 0x34 || (m == 0x3B && bits n 16 3 == 0) then some 2
  else if m == 0x36 then some 3
  else if m == 0x38 || (m == 0x39 && bits n 28 4 != 0) then some 4
  else none

/-- The scheduler whose request a shared unit takes before that of gang g of warp wid in the present cycle: of the other
schedulers whose pick is bound for it, the first after the one granted last, if that comes before the gang's own (R18). -/
def rival (s : State) (wid g : Nat) : Option (Nat × Nat) :=
  if isMgmt wid || s.endsWait wid g then none
  else match (s.before wid g).bind unitOf with
    | none => none
    | some u =>
      let core := coreOf wid
      let last := (s.getCore core).granted.get u 3
      let order := (List.range 4).map fun k => (last + 1 + k) % 4
      (order.takeWhile (· != schedOf wid)).findSome? fun q =>
        (s.pickOf core q).filter fun y => (s.before y.1 y.2).bind unitOf == some u

/-! ## Issue -/

/-- The turn of a gang whose instruction has issued and whose wait is over: it executes what is left of it. -/
def endTurn (s : State) (wid g : Nat) : Option Instr × State :=
  let s := s.modWarp wid fun w => w.settle (s.nowOf wid)
  let e := State.gangOf (s.getWarp wid) g
  match e.held with
  | none => (none, s)
  | some x => (some (decoded wid x).instr, { s with cur := { wid, g, pc := e.pc, word := x.1, len := x.2 } })

/-- A gang that its scheduler has picked: the instruction to execute, if it issues, and the state at its issue. -/
def issuePicked (s : State) (wid g : Nat) : Option Instr × State :=
  let s := s.modWarp wid fun w => w.settle (s.nowOf wid)
  let w := s.getWarp wid
  let e := State.gangOf w g
  let at' (word : Word) (len : Nat) : Cur := { wid, g, pc := e.pc, word, len }
  match s.instrAt wid g with
  | .error c =>
    let s := { s with cur := at' 0 0 }
    (none, s.sysFault c e.pc s.act)
  | .ok (f, s) =>
    if w.hasLate && f.marked then (none, s.park wid)
    else if w.hasLate && decide (23 ≤ w.count) then (some (.forcedSwitch wid), s)
    else (some f.instr, { s.useCopies wid e.pc with cur := at' f.word f.len })

/-- The turn of a gang to issue: it has no effect where the gang is not ready at the first cycle at which it may issue, its
scheduler picks another, or a shared unit takes another scheduler's request first (R18, R410). A gang whose instruction has
issued and whose wait is over ends it. -/
def issueTurn (s : State) (wid g : Nat) : Option Instr × State :=
  let t := s.advanceTo wid (s.issueCycle wid g)
  if s.mayIssue wid g && s.endsWait wid g then s.endTurn wid g
  else if !s.mayIssue wid g || !t.mayIssue wid g || !t.picked wid g || (t.rival wid g).isSome then (none, s)
  else if t.timerDue wid then (some (.timerPending wid), { t with agenda := .issue wid g :: t.agenda })
  else if (t.getWarp wid).timerTakeable then (some (.timerTrap wid g), t)
  else t.issuePicked wid g

/-- The gang that can issue earliest; of several the one that R410 picks. -/
def earliest (s : State) : List (Nat × Nat) → Option (Nat × Nat)
  | [] => none
  | x :: rest =>
    match earliest s rest with
    | none => some x
    | some y =>
      let cycle (z : Nat × Nat) : Nat := max (s.nowOf z.1) (s.issueCycle z.1 z.2)
      let start (z : Nat × Nat) : Nat := max s.gu (s.startOf (s.clockOf z.1).1 (s.clockOf z.1).2 (cycle z))
      if start y < start x || (start x == start y && keyBefore (s.pickKey (cycle y) y) (s.pickKey (cycle x) x)) then some y
      else some x

/-- The gang whose turn it is by itself: the earliest, or the one whose request a shared unit takes before. -/
def nextIssuer (s : State) : Option (Nat × Nat) :=
  (s.earliest s.readyGangs).map fun x => ((s.advanceTo x.1 (s.issueCycle x.1 x.2)).rival x.1 x.2).getD x

/-! ## Acquires in two moments (R261; log 71) -/

/-- The scope of an acquire that reads its locations at their homes. -/
def acquireScope : Instr → Option Nat
  | .ld _ _ _ _ _ _ r => if r = 3 then some scopePkg else none
  | .atom _ _ _ _ _ c r | .atomx _ _ _ _ _ c r =>
    if scopePkg ≤ c.toNat + 1 && (r = 1 || r = 3) then some (c.toNat + 1) else none
  | _ => none

/-- The invalidation of the acquire at which a gang that may issue stands, ahead of its read (R261). -/
def openAcquire (s : State) (wid g : Nat) : State :=
  if !s.mayIssue wid g then s
  else match s.instrAt wid g with
    | .error _ => s
    | .ok (f, _) => match acquireScope f.instr with
      | none => s
      | some scope => (s.shed (dieOf wid) fun line _ => reached (dieOf wid) scope line).modWarp wid fun w =>
          { w with gangs := w.gangs.set g { State.gangOf w g with opened := true } }

/-! ## Fetching ahead and loop buffers (R34, R116) -/

/-- A warp fetches an instruction ahead of its PC, which never faults (R34). -/
def fetchAheadTurn (s : State) (wid : Nat) (addr : DWord) : State :=
  match s.readCode wid addr with
  | .error _ => s
  | .ok (x, s) => s.modWarp wid fun w => { w with copies := w.copies ++ [⟨addr, x.1, x.2⟩] }

/-- The instructions from an address to `last`, at most n of them. -/
def readBody (s : State) (wid : Nat) (last : DWord) : Nat → DWord → Option (List CodeCopy × State)
  | 0, _ => none
  | n + 1, a => match s.readCode wid a with
    | .error _ => none
    | .ok (x, s) =>
      let c : CodeCopy := ⟨a, x.1, x.2⟩
      if a = last then some ([c], s)
      else match readBody s wid last n (a + BitVec.ofNat 64 x.2) with
        | some (l, s) => some (c :: l, s)
        | none => none

end State

/-- Does some record of a warp run from a loop buffer? -/
def Warp.usesBuffer (w : Warp) : Bool :=
  w.gangs.any (fun e => e.2.loops.any (·.buf)) || w.joins.any (fun e => e.2.loops.any (·.buf)) ||
    w.releases.any fun r => r.loops.any (·.buf)

namespace State

/-- The loop on top of a gang's stack runs from the loop buffer of its scheduler. -/
def bufferTop (s : State) (wid g : Nat) : State :=
  s.modWarp wid fun w => { w with gangs := w.gangs.set g { State.gangOf w g with
    loops := match (State.gangOf w g).loops with
      | r :: rest => { r with buf := true } :: rest
      | [] => [] } }

/-- The loop buffer of a scheduler, which no warp of it uses, takes the body of the loop that gang g runs, of at most 32
instructions (R16, R116). -/
def fillLoop (s : State) (wid g : Nat) : State :=
  let used := s.warps.any fun e => coreOf e.1 == coreOf wid && schedOf e.1 == schedOf wid && e.2.usesBuffer
  match (State.gangOf (s.getWarp wid) g).loops with
  | [] => s
  | r :: _ =>
    if used || isMgmt wid then s
    else match s.readBody wid r.last 32 r.start with
      | none => s
      | some (code, t) =>
        let b : LoopBuf := { part := t.partOf wid, start := r.start, last := r.last, code, filled := t.fresh }
        ({ t.modCore (coreOf wid) fun k => { k with loopBuf := k.loopBuf.set (schedOf wid) b } with
            fresh := t.fresh + 1 }).bufferTop wid g

/-- A gang runs its loop from the loop buffer of its scheduler, which holds the body (R116). -/
def useLoop (s : State) (wid g : Nat) : State :=
  match (State.gangOf (s.getWarp wid) g).loops, s.loopBufOf wid with
  | r :: _, some b => if bufferFor (s.partOf wid) (s.getWarp wid).synced r b then s.bufferTop wid g else s
  | _, _ => s

/-! ## Pages (R15, R23, R220; log 11) -/

/-- Is a page 64 KiB, 2 MiB or 512 MiB, aligned to its size, and a page of memory that there is (R10)? -/
def pageFits (p : Page) : Bool :=
  (p.size == 2 ^ 16 || p.size == 2 ^ 21 || p.size == 2 ^ 29) && p.va % p.size == 0 && p.pa % p.size == 0 &&
    canonical (BitVec.ofNat 64 p.va) && Config.backed p.pa p.size

/-- A page that the runtime installs is not executable (R479). -/
def mapped (p : Page) : Page := { p with exec := false, svn := none }

/-- A page is installed, in the place of one at its address; one that is no page of the part has no effect. -/
def installPage (s : State) (p : Page) : State :=
  if pageFits p then { s with pages := p :: s.pages.filter fun q => !(q.part == p.part && q.va == p.va) } else s

/-- The second-level buffer of a cluster takes the page that holds an address; a full one, of 4096 entries, gives up another
(R15; log 63). -/
def walk (s : State) (cl part : Nat) (va : DWord) : State :=
  match s.pages.find? (holdsAddr part va) with
  | none => s
  | some p => s.modCluster cl fun k =>
      if clusterOf 768 ≤ cl then k
      else { k with tlb := p :: (if k.tlb.length < 4096 then k.tlb
        else k.tlb.eraseIdx (Config.pageVictim va.toNat % k.tlb.length)) }

/-- Is an entry an access whose translation passed through a page (R224)? -/
def passedPage (p : Page) (e : StoreEntry) : Bool :=
  match e.op with
  | .dev pa _ | .rel _ pa _ | .atom _ _ _ pa _ _ _ => decide (p.pa ≤ pa ∧ pa < p.pa + p.size)
  | .clearLine l | .writeBack l => decide (p.pa ≤ 64 * l ∧ 64 * l < p.pa + p.size)
  | _ => false

/-- Every access of the page's partition that has passed its translation completes (R224). -/
def settlePage (s : State) (p : Page) : State :=
  let wids := s.warps.keys.filter fun wid => s.partOf wid == p.part
  let s := wids.foldl (fun s wid => s.drainUntil wid (passedPage p)) s
  wids.foldl (fun s wid => s.flushWhere (orderCore wid) fun e => e.wid == wid && passedPage p e) s

/-- A page leaves every second-level buffer (R224). -/
def purgePage (s : State) (part va : Nat) : State :=
  { s with clusters := s.clusters.map fun e => (e.1, { e.2 with tlb := e.2.tlb.filter fun p => !(p.part == part && p.va == va) }) }

end State
end Sys2Proof.Machine
end

