-- ==== Sys2Proof/Machine/Traps.lean ====
section
/-! DEFINITION. Traps, handlers and soft interrupts (spec/05), with the timer, SNAP and SIGNAL. -/

namespace Sys2Proof.Machine

/-! ## Stopping a core (R130) -/

namespace State

/-- The clock of a warp stops (R130, R141). -/
def freezeWarp (s : State) (wid : Nat) : State :=
  s.modWarp wid fun w => { w with frozen := some (s.wtime w) }

/-- The clock of a warp goes on from where it stopped, and it is ready again (R410). -/
def thawWarp (s : State) (wid : Nat) : State :=
  s.modWarp wid fun w => match w.frozen with
    | some t => { w with wstart := (s.gtime : Int) - t, frozen := none, readyAt := s.ageClock wid }
    | none => w

/-- Warp numbers of a core whose warps have not ended. -/
def widsOn (s : State) (core : Nat) : List Nat := ((s.warpsOn core).filter fun e => !e.2.ended).map (·.1)

/-- SNAP becomes 1: results in flight become visible, %wtime stops, and STOPPED reads 1 (R130). -/
def snapCore (s : State) (core : Nat) : State :=
  if (s.getCore core).snap then s
  else
    let s := s.modCore core fun k => { k with snap := true }
    (s.widsOn core).foldl (fun s wid => (s.finishResults wid).freezeWarp wid) s

/-- SNAP becomes 0, unless FATAL is 1 (R130). -/
def resumeCore (s : State) (core : Nat) : State :=
  let k := s.getCore core
  if !k.snap || k.fatal then s
  else (s.widsOn core).foldl thawWarp (s.setCore core { k with snap := false })

end State

/-! ## TRAP, SYS, BRK, RTRAP, UNIMP (R48, R136-R139) -/

/-- A trap that names the active lanes and resumes at the next instruction (R125). -/
def State.trapNext (s : State) (cause : BitVec 8) : State :=
  s.takeTrap { TrapInfo.at cause s.act 0 with skip := BitVec.ofNat 64 s.cur.len }

/-- UNIMP (R48). -/
def execUnimp (_ : Word) (s : State) : Answer := .next (s.stopWith (s.trapAct cUNIMP))

/-- An instruction that traps after it has issued is counted, and its gap runs (R36, R38, R460). -/
def State.issued (s : State) (h : Hdr) : State := (s.debitW 1).usedIssue.countIssue h

/-- TRAP (R136). -/
def execTrapImm (h : Hdr) (_ : BitVec 10) (s : State) : Answer := .next ((s.issued h).trapNext cTRAP)

/-- SYS (R136). -/
def execSysImm (h : Hdr) (_ : BitVec 10) (s : State) : Answer := .next ((s.issued h).sysFault cSYSREQ 0 s.act)

/-- BRK (R138). -/
def execBrk (h : Hdr) (s : State) : Answer :=
  .next (
    if s.w.tmask.getLsbD 1 then (s.debitW 1).retire h
    else if !isMgmt s.cur.wid && (s.getCore (coreOf s.cur.wid)).brkstop then
      ((s.debitW 1).retire h).snapCore (coreOf s.cur.wid)
    else (s.issued h).trapNext cBRK)

/-- RTRAP (R139). -/
def execRtrap (h : Hdr) (s : State) : Answer :=
  .next (if s.w.hm then (s.debitW 1).returnFromTrap h else s.stopWith (s.trapAct cPERM))

/-! ## TVEC, the timer, TMASK (R140-R142) -/

/-- TVEC (R140). -/
def execTvec (h : Hdr) (a : BitVec 6) (s : State) : Answer :=
  .next (s.plainStep h fun s => match s.rdU64 a.toNat with
    | .error e => .error e
    | .ok v =>
      if v.getLsbD 0 then .error (.trap (TrapInfo.at cALIGN s.act v))
      else .ok (s.modW fun w => { w with tvec := v }))

/-- TVEC.DL (R140). -/
def execTvecDl (h : Hdr) (a : BitVec 6) (s : State) : Answer :=
  .next (s.plainStep h fun s => match s.rdU64 a.toNat with
    | .error e => .error e
    | .ok v => .ok (s.modW fun w => { w with deadline := v }))

/-- TMASK (R142). -/
def execTmask (h : Hdr) (d a : BitVec 6) (s : State) : Answer :=
  .next (s.effStep h (.alu 2 2 1) 1 [] (fun s => match s.rdU a.toNat with
    | .error e => .error e
    | .ok v => .ok ([s.res d.toNat (.u (s.w.tmask.zeroExtend 32) false)],
        s.modW fun w => Warp.heeded { w with tmask := v.extractLsb' 0 2 })))

/-- TIMER_PENDING (R141). -/
def execTimerPending (wid : Nat) (s : State) : Answer :=
  .next (
    if s.timerDue wid then
      s.modWarp wid fun w => Warp.heeded { w with timerPending := true, deadline := BitVec.allOnes 64 }
    else s)

/-- TIMER_TRAP (R141): taken in gang g, at its PC, with length 0 and word 0. -/
def execTimerTrap (wid g : Nat) (s : State) : Answer :=
  .next (
    let w := s.getWarp wid
    match w.gangs.find? g with
    | none => s
    | some e =>
      if w.timerTakeable && e.atBoundary then
        (s.modWarp wid fun w => { w.withdrawn with timerPending := false }).enterTrap wid g e.pc 0 0
          (TrapInfo.at cTIMER (w.activeOf e) 0)
      else s)

/-! ## TINFO, TSET, GETX, SETX (R143-R147) -/

/-- A handler instruction: PERM outside handler mode (R132). -/
def State.inHandler (s : State) : Except Stop Unit := if s.w.hm then .ok () else .error (s.trapAct cPERM)

/-- The value that a TINFO selector reads; a word selector gives its low half (R143). -/
def TrapRec.info (t : TrapRec) (sel : Nat) : DWord :=
  match sel with
  | 0 => BitVec.ofNat 64 (t.cause.toNat + t.sub.toNat * 2 ^ 8 + (if t.cause = cTIMER then 2 ^ 16 else 0))
  | 1 => t.len.zeroExtend 64
  | 2 => t.pc
  | 3 => t.word.zeroExtend 64
  | 4 => t.flanes
  | 5 => t.faddr
  | 6 => t.resume
  | 7 => if t.cause = cFPX then t.fpxc.zeroExtend 64 else 0
  | 8 => t.gang.zeroExtend 64
  | _ => if t.cause = cENG then BitVec.ofNat 64 (t.engClass.toNat + t.engLeft.toNat * 2 ^ 8) else 0

/-- Does a TINFO selector name a pair (R143)? -/
def infoPair (sel : Nat) : Bool := sel == 2 || sel == 4 || sel == 5 || sel == 6

/-- TINFO (R143). -/
def execTinfo (h : Hdr) (d b : BitVec 6) (s : State) : Answer :=
  .next (s.regStep h (.late false) [] fun s => match s.inHandler with
    | .error e => .error e
    | .ok _ =>
      let v := s.w.trap.info b.toNat
      let lo := s.res d.toNat (.u (loWord v) false)
      .ok (if infoPair b.toNat then [lo, s.res (d.toNat + 1) (.u (hiWord v) false)] else [lo]))

/-- TSET (R144). -/
def execTset (h : Hdr) (a : BitVec 6) (s : State) : Answer :=
  .next (s.plainStep h fun s => match s.inHandler with
    | .error e => .error e
    | .ok _ => match s.rdU64 a.toNat with
      | .error e => .error e
      | .ok v =>
        if v.getLsbD 0 then .error (.trap (TrapInfo.at cALIGN s.act v))
        else .ok (s.modW fun w => { w with trap := { w.trap with resume := v } }))

/-- An index word of GETX and SETX (R145). -/
structure RegIndex where
  cls : Nat
  num : Nat
  lane : Nat
  deriving DecidableEq, Repr

/-- Registers of a class (R145). -/
def classSize (cls : Nat) : Nat :=
  match cls with
  | 0 => 64
  | 1 => 8
  | 2 | 3 => 16
  | 4 => 1
  | _ => 0

namespace State

/-- The index in register n: SHAPE when it is not U, PERM when it is bad (R145, R146). -/
def regIndex (s : State) (n : Nat) : Except Stop RegIndex :=
  match s.uniform (s.rd n) with
  | .error e => .error e
  | .ok v =>
    let x : RegIndex := ⟨(v.extractLsb' 8 3).toNat, (v.extractLsb' 0 6).toNat, (v.extractLsb' 16 6).toNat⟩
    if v &&& 0xFFC0F8C0#32 ≠ 0 ∨ classSize x.cls ≤ x.num ∨ s.width ≤ x.lane then .error (s.trapAct cPERM)
    else .ok x

/-- A register of the interrupted program (R145, R146). -/
def programReg (s : State) (x : RegIndex) : Shaped :=
  match x.cls with
  | 0 => (s.w.late s.now).wReg x.num
  | 1 => match s.rdp x.num with
    | .u b => .u (if b then 1 else 0) false
    | .v m => vLanes s.width fun i => ⟨if m.getLsbD i then 1 else 0, false⟩
  | 2 => .u (loWord (s.rdb x.num)) false
  | 3 => .u (hiWord (s.rdb x.num)) false
  | _ => .u (s.w.trap.savedFmt.zeroExtend 32) false

/-- GETX's result (R146). -/
def getxRes (s : State) (d a b : Nat) : Except Stop (List Res) :=
  match s.inHandler with
  | .error e => .error e
  | .ok _ => match s.regIndex a with
    | .error e => .error e
    | .ok x =>
      let v := s.programReg x
      match b with
      | 0 => .ok [s.resWhole d v]
      | 1 => .ok [s.res d (.u (if x.cls ≤ 1 then BitVec.ofNat 32 v.code else 0) false)]
      | 2 => .ok [s.res d v.base]
      | 3 => .ok [s.res d v.stride]
      | _ =>
        if 2 ≤ x.cls then .error (s.trapAct cPERM)
        else .ok [s.res d (.u (v.lane x.lane).val (v.lane x.lane).poison)]

/-- Register n as a uniform word that may be poisoned: SHAPE. -/
def uniformReg (s : State) (n : Nat) : Except Stop Shaped :=
  match s.uniform (s.rd n) with
  | .error e => .error e
  | .ok _ => .ok (s.rd n)

/-- SETX's result (R147), and what it leaves in the saved FMT. -/
def setxRes (s : State) (d a b : Nat) : Except Stop (List Res × State) :=
  match s.inHandler with
  | .error e => .error e
  | .ok _ => match s.regIndex d with
    | .error e => .error e
    | .ok x =>
      if b = 0 then
        let v := s.rd a
        match x.cls with
        | 0 => .ok ([{ dest := .w x.num, val := .shaped v, mode := .whole }], s)
        | 1 =>
          let p := if v.isU then Pred.u ((v.lane 0).val.getLsbD 0)
            else .v (LaneSet.ofList ((List.range s.width).filter fun i => (v.lane i).val.getLsbD 0))
          .ok ([{ dest := .p x.num, val := .pred p, mode := .whole }], s)
        | c => match s.rdU a with
          | .error e => .error e
          | .ok v =>
            let half (dst : Dest) : List Res := [{ dest := dst, val := .base (v.zeroExtend 64), mode := .whole }]
            if c = 2 then .ok (half (.bLo x.num), s)
            else if c = 3 then .ok (half (.bHi x.num), s)
            else .ok ([], s.modW fun w => { w with trap := { w.trap with savedFmt := v.extractLsb' 0 17 } })
      else if 2 ≤ x.cls then .error (s.trapAct cPERM)
      else match s.uniformReg a with
        | .error e => .error e
        | .ok v =>
          let one := BitVec.twoPow 64 x.lane
          if one &&& s.present = 0 then .error (s.trapAct cPERM)
          else if x.cls = 0 then .ok ([{ dest := .w x.num, val := .shaped v, mode := .masked one }], s)
          else .ok ([{ dest := .p x.num, val := .pred (.u ((v.lane 0).val.getLsbD 0)), mode := .masked one }], s)

/-- Where SETX runs: the vector pipe for a whole copy of a V register, which a GETX sees two cycles later all the same
(R147). -/
def setxUnit (s : State) (d a b : Nat) : UnitUse :=
  match s.setxRes d a b with
  | .ok ([r], _) =>
    if b = 0 && (s.rd a).isV && r.dest.key.1 == 0 then .span s.presentCycles 2 else .sched 2
  | _ => .sched 2

/-- The w register that the index in register n names, of which GETX reads the row (R190). -/
def indexed (s : State) (n : Nat) : List Nat :=
  match s.regIndex n with
  | .ok x => if x.cls = 0 then [x.num] else []
  | .error _ => []

end State

/-- GETX (R146). -/
def execGetx (h : Hdr) (d a b : BitVec 6) (s : State) : Answer :=
  .next (s.regStep h (.late false) (s.indexed a.toNat) fun s => s.getxRes d.toNat a.toNat b.toNat)

/-- SETX (R147). -/
def execSetx (h : Hdr) (d a b : BitVec 6) (s : State) : Answer :=
  .next (s.effStep h (s.setxUnit d.toNat a.toNat b.toNat) 1 [a.toNat] fun s => s.setxRes d.toNat a.toNat b.toNat)

/-! ## SIGNAL and WFE (R149, R467) -/

/-- The management core that a target word names by its coordinate, not redirected (R52, R149). -/
def signalDie (t : Word) : Option Nat :=
  if t.extractLsb' 16 15 ≠ 0 ∨ t.extractLsb' 0 14 ≠ 60#14 then none else some (t.extractLsb' 14 2).toNat

/-- The wake that a SIGNAL asks for, or PERM (R149). -/
def State.signalOp (s : State) (t v : Word) : Except Stop StoreOp :=
  if t.getLsbD 31 then
    let q := (t.extractLsb' 0 12).toNat
    if t.extractLsb' 12 19 ≠ 0 then .error (s.trapAct cPERM)
    else if !isMgmt s.cur.wid && !(s.getPart (s.partOf s.cur.wid)).holdsQueue q then .error (s.trapAct cPERM)
    else .ok (.signal false q v)
  else match signalDie t with
    | some d => .ok (.signal true d v)
    | none => .error (s.trapAct cPERM)

/-- Two uniform words: SHAPE of both, then POISON of both. -/
def State.rdTwoU (s : State) (a b : Nat) : Except Stop (Word × Word) :=
  match s.uniform (s.rd a), s.uniform (s.rd b) with
  | .ok x, .ok y =>
    if (s.rd a).poison0 || (s.rd b).poison0 then .error (poisonStop s.act 0) else .ok (x, y)
  | _, _ => .error (s.trapAct cSHAPE)

/-- SIGNAL (R149): the wake takes its place behind the warp's stores. One of 0 changes no wake register, and is a release all the
same (R259). -/
def execSignal (h : Hdr) (a b : BitVec 6) (s : State) : Answer :=
  .next (s.plainStep h fun s => match s.rdTwoU a.toNat b.toNat with
    | .error e => .error e
    | .ok (t, v) => match s.signalOp t v with
      | .error e => .error e
      | .ok op => .ok (s.queueStores s.cur.wid [op]))

/-- WFE (R467). -/
def execWfe (h : Hdr) (d : BitVec 6) (s : State) : Answer :=
  .next (
    let v := (s.getDie (dieOf s.cur.wid)).wakeReg
    let rs := [s.res d.toNat (.u v false)]
    let t := (s.modDie (dieOf s.cur.wid) fun k => { k with wakeReg := 0 }).acquire s.cur.wid State.scopePkg
    if v = 0 then (if s.gang.wait.isSome then s.waitOn .wfe else s.issueWait h .wfe)
    else if s.gang.wait.isSome then s.endWith (some 2) 12 rs t
    else s.effStep h (.sched 2) 12 [] fun _ => .ok (rs, t))

/-! ## Events of the issue path (R38, R40, R179, R181, R189, R410) -/

/-- FORCED_SWITCH (R38): the warp parks before its 24th unmarked instruction. -/
def execForcedSwitch (wid : Nat) (s : State) : Answer :=
  .next (if (s.getWarp wid).hasLate && decide (23 ≤ (s.getWarp wid).count) then s.park wid else s)

/-- A result of variable latency is written at cycle `vis`: the last one unparks the warp (R37), and where only results of
memory are left, the warp is stalled on memory from now on (R189). -/
def Warp.written (w : Warp) (id vis gtime : Nat) (ready : Int) : Warp :=
  let w : Warp := { w with pend := w.pend.map fun (e : PendWrite) => if e.id == id then { e with vis := some vis } else e }
  match w.parked with
  | none => w
  | some (_, mem) =>
    if !w.hasLate then { w with parked := none, readyAt := ready }
    else if !mem && w.lateMem then { w with parked := some (gtime, true) } else w

/-- VARIABLE_LATENCY_RESULT (R40): the result is written, 20 cycles late when its row is drowsy (R190). -/
def execVariableLatencyResult (wid id : Nat) (s : State) : Answer :=
  .next (
    match (s.getWarp wid).pend.find? fun e => e.id == id && e.vis.isNone && e.ready with
    | none => s
    | some e =>
      let z := s.wakeFor wid [e.dest]
      let t := z.2.modWarp wid fun w => w.written id (s.nowOf wid + z.1) s.gtime (s.whenIn wid z.1).age
      if z.1 = 0 then t else t.modWarp wid fun w => { w with nextIssue := max w.nextIssue (s.nowOf wid + z.1) })

/-- ROW_GRANT (R179). -/
def execRowGrant (core : Nat) (s : State) : Answer := .next ((s.grantOne core).getD s)

/-- AGED_REQUEST (R179). -/
def execAgedRequest (wid : Nat) (s : State) : Answer :=
  .next (s.modWarp wid fun w => match w.rowReq with
    | some r => if r.since + 1024 ≤ s.nowOf wid then { w with rowReq := some { r with aged := true } } else w
    | none => w)

/-- A wait that leaves a gang not runnable (R181). -/
def Gang.idle (g : Gang) : Bool :=
  !g.met && match g.wait with
  | some (.tb _ _) | some (.bar _ _) | some (.gbar _) | some (.again _) | some (.gbarw _) | some (.counter _ _) => true
  | _ => false

/-- Is a warp runnable (R181)? -/
def State.runnable (s : State) (wid : Nat) : Bool :=
  let w := s.getWarp wid
  !w.ended && w.fault.isNone && !(s.getCore (coreOf wid)).snap && !w.gangs.all fun e => e.2.idle

/-- A later warp with at least as many borrowed rows goes before (R181). -/
def mostBorrowed : List (Nat × Warp) → Option (Nat × Warp)
  | [] => none
  | e :: rest =>
    match mostBorrowed rest with
    | none => some e
    | some f => if f.2.bRows < e.2.bRows then some e else some f

/-- DEADLOCK_BREAKER (R181): VROW on the waiting warp with the largest B. -/
def execDeadlockBreaker (core : Nat) (s : State) : Answer :=
  .next (
    let run := (s.warpsOn core).filter fun e => s.runnable e.1
    let stuck := run.filter fun e => e.2.waiting.isSome
    if stuck.isEmpty || stuck.length != run.length then s
    else match mostBorrowed stuck with
      | none => s
      | some (wid, w) =>
        let g := (w.rowReq.map (·.gang)).getD 0
        let e := State.gangOf w g
        let f := (s.before wid g).getD (0, 0)
        (s.modWarp wid fun w => { w with rowReq := none, granted := [] }).enterTrap wid g e.pc f.1
          (BitVec.ofNat 3 f.2) (TrapInfo.at cVROW (w.activeOf e) 0))

/-- The %gtime since which a warp is stalled on memory (R189): parked for results of memory alone, or standing at a WAITC
of any of its gangs (R289). -/
def Warp.stalledSince (w : Warp) : Option Nat :=
  let parked : Option Nat := match w.parked with
    | some (t, true) => if w.hasLate then some t else none
    | _ => none
  w.gangs.foldl (fun m e => match e.2.wait with
    | some (.eng _ _ t) => if e.2.met then m else some (min t (m.getD t))
    | _ => m) parked

/-- BANK_DROWSY (R189). -/
def execBankDrowsy (core bank : Nat) (s : State) : Answer :=
  .next (
    let holders := (s.warpsOn core).filter fun e =>
      (e.2.rows.map (·.row) ++ e.2.granted).any fun r => r / 64 == bank
    if holders.all fun e => match e.2.stalledSince with
        | some t => decide (t + 1000 ≤ s.gtime)
        | none => false
    then s.modCore core fun k => { k with awake := k.awake &&& ~~~BitVec.twoPow 32 bank }
    else s)

/-- BOOST (R410, R411): 256 cycles ready, of which withheld ones do not count. -/
def execBoost (wid g : Nat) (s : State) : Answer :=
  .next (
    let e := State.gangOf (s.getWarp wid) g
    if s.mayIssue wid g && decide (256 ≤ s.ageOf (s.nowOf wid) wid g) then
      s.modWarp wid fun w => { w with gangs := w.gangs.set g { e with boosted := true } }
    else s)

end Sys2Proof.Machine
end

