-- ==== Sys2Proof/Machine/LoadStore.lean ====
section
/-! DEFINITION. The load-store path: lane addresses, their checks and requests (spec/09 R223-R231), the scratchpad
accesses, memory poison, FENCE and cache maintenance. LD and ST stand in MemOps.lean. -/

namespace Sys2Proof.Machine

/-! ## Lanes and checks -/

/-- A lane and its address or scratchpad offset. -/
abbrev LaneAddr := Nat × DWord

namespace State

/-- The active lanes, ascending. -/
def actLanes (s : State) : List Nat := LaneSet.toList s.act

/-- `bB + SignExtend64(wO[i])` for some lanes (R227). -/
def baseAddrs (s : State) (b o : Nat) (lanes : List Nat) : List LaneAddr :=
  lanes.map fun i => (i, s.rdb b + ((s.rd o).lane i).val.signExtend 64)

/-- The register number n as an unsigned offset, for some lanes (R234). -/
def offAddrs (s : State) (o : Nat) (lanes : List Nat) : List LaneAddr :=
  lanes.map fun i => (i, ((s.rd o).lane i).val.zeroExtend 64)

/-- Lanes of a lane set in a list of lane addresses. -/
def addrOf (as : List LaneAddr) (i : Nat) : DWord := ((as.find? fun e => e.1 == i).map (·.2)).getD 0

/-- POISON when an active lane of some registers is poisoned; the fault address is the lowest such lane's (R125,
R204). -/
def noPoison (s : State) (regs : List Nat) (as : List LaneAddr) : Except Stop Unit :=
  let m := regs.foldl (fun m n => m ||| poisonLanes s.act (s.rd n)) 0
  if m = 0 then .ok () else .error (poisonStop m (addrOf as (lowestLane m)))

end State

/-- A trap of the lanes that fail a check, with the lowest one's address (R125). -/
def laneCheck (cause : BitVec 8) (as : List LaneAddr) (bad : LaneAddr → Bool) : Except Stop Unit :=
  match as.filter bad with
  | [] => .ok ()
  | (i, a) :: rest => .error (.trap (TrapInfo.at cause (LaneSet.ofList (i :: rest.map (·.1))) a))

/-- ALIGN for a size of n bytes (R227). -/
def aligned (as : List LaneAddr) (n : Nat) : Except Stop Unit := laneCheck cALIGN as fun e => e.2.toNat % n != 0

/-- Where a translated address lies: in memory, or in the management window at an offset (R220, R448). -/
inductive Place where
  | mem (pa : Nat)
  | win (off : Nat)
  deriving DecidableEq, Repr

/-- Bytes of the management window: four dies of 2^24 (R448). -/
def windowBytes : Nat := 4 * 2 ^ 24

namespace State

/-- One lane's translation (R223, R449); a window register takes only loads and stores of 4 bytes. -/
def place (s : State) (need : Need) (n : Nat) (a : DWord) : Except (BitVec 8) Place :=
  if isMgmt s.cur.wid && decide (Config.window ≤ a.toNat ∧ a.toNat < Config.window + windowBytes) then
    if need = .any || (n = 4 && (need = .read || need = .write)) then .ok (.win (a.toNat - Config.window)) else .error cPROT
  else match s.translate (orderCore s.cur.wid) (s.partOf s.cur.wid) need a with
    | .ok pa => .ok (.mem pa)
    | .error c => .error c

/-- Every lane translated: the code and address of the lowest failing lane, and every failing lane named (R223). -/
def placeAll (s : State) (need : Need) (n : Nat) (as : List LaneAddr) : Except Stop (List (Nat × Place)) :=
  let rs := as.map fun e => (e, s.place need n e.2)
  let bad := rs.filter fun r => match r.2 with
    | .error _ => true
    | .ok _ => false
  match bad with
  | ((_, a), .error c) :: _ => .error (.sys c a (LaneSet.ofList (bad.map (·.1.1))))
  | _ => .ok (rs.filterMap fun r => match r.2 with
    | .ok p => some (r.1.1, p)
    | .error _ => none)

/-- The load-store path takes some requests, and is busy for some cycles (R18, R229, R235, R460). -/
def usePath (s : State) (cycles reqs : Nat) : State := (s.takeUnit 0 cycles).debitW (2 * reqs)

/-- A load-store instruction with no register result that reads some registers; it issues once the path takes it (R18). -/
def pathStep (h : Hdr) (srcs : List Nat) (f : State → Except Stop State) (s : State) : State :=
  s.whenTaken 0 fun s => match f s with
    | .error e => s.stopWith e
    | .ok t =>
      let z := t.touchRows srcs
      (z.2.retire h).lateBy z.1

/-- A load-store instruction with variable-latency results; it issues once the path takes it (R18). -/
def pathRegStep (h : Hdr) (srcs : List Nat) (f : State → Except Stop (List Res × State)) (s : State) : State :=
  s.whenTaken 0 (effStep h (.late true) 1 srcs f)

end State

/-- Do addresses rise by n from lane to lane, inactive lanes counted (R225)? -/
def contiguous (n : Nat) (as : List LaneAddr) : Bool :=
  as.all fun e => as.head?.all fun f => e.2 == f.2 + BitVec.ofNat 64 (n * (e.1 - f.1))

/-- The number of requests that an access of device memory makes (R225); a range is split only at a page boundary. -/
def State.requestCount (s : State) (o : Shaped) (n : Nat) (as : List LaneAddr) : Nat :=
  let lines := ((as.map fun e => e.2.toNat / 64).eraseDups).length
  let page (a : DWord) : Option Nat := (s.pageOf (orderCore s.cur.wid) (s.partOf s.cur.wid) a).map (·.va)
  match o with
  | .u _ _ => 1
  | .a _ t _ =>
    if t = BitVec.ofNat 32 n && contiguous n as then ((as.map fun e => page e.2).eraseDups).length else lines
  | .v _ => lines

/-- The distinct lines of memory that some lanes reach. -/
def placeLines (ps : List (Nat × Place)) : List Nat :=
  (ps.filterMap fun p => match p.2 with
    | .mem pa => some (pa / 64)
    | .win _ => none).eraseDups

/-- The cycles of a scratchpad access: the most distinct words in one bank (R235). -/
def bankCycles (as : List (Nat × LaneAddr)) (n : Nat) : Nat :=
  let words := (as.flatMap fun e => (List.range (max 1 (n / 4))).map fun k => (e.1, e.2.2.toNat / 4 + k)).eraseDups
  (List.range 32).foldl (fun m b => max m (words.filter fun w => w.2 % 32 == b).length) 1

/-! ## Data of an access (R221, R227) -/

/-- Data registers of a size code: 1, 2 or 4 (R227). -/
def dataRegs (n : Nat) : Nat := max 1 (n / 4)

/-- Words of bytes, low first. -/
def bytesWords : Nat → List Byte → List Word
  | 0, _ => []
  | k + 1, bs => BitVec.ofNat 32 (leNat (bs.take 4)) :: bytesWords k (bs.drop 4)

/-- The register words that n loaded bytes give: sign or zero extension below 4 bytes (R227). -/
def loadWords (n : Nat) (sx : Bool) (bs : List Byte) : List Word :=
  if n < 4 then
    let v := leNat (bs.take n)
    [if sx && decide (2 ^ (8 * n - 1) ≤ v) then BitVec.ofNat 32 (2 ^ 32 - 2 ^ (8 * n) + v) else BitVec.ofNat 32 v]
  else bytesWords (dataRegs n) bs

/-- The pieces of an access, in units of 8 bytes or less (R222). They are performed in rising order, and a load reads them all at
one moment (DESIGN CHOICE, log 77). -/
def units : List Byte → List (Nat × List Byte)
  | bs => if bs.length ≤ 8 then [(0, bs)] else [(0, bs.take 8), (8, bs.drop 8)]

namespace State

/-- The bytes that lane i stores from registers D up (R227). -/
def storeBytes (s : State) (d n i : Nat) : List Byte :=
  ((List.range (dataRegs n)).flatMap fun k => wordBytes ((s.rd (d + k)).lane i).val).take n

/-- Load results: U from one lane when the offset is U, V otherwise (R71, R229). -/
def loadRes (s : State) (d m : Nat) (uniform : Bool) (vals : List (Nat × List Lane)) : List Res :=
  (List.range m).map fun k =>
    let at' (l : List Lane) : Lane := l.getD k ⟨0, false⟩
    s.res (d + k)
      (if uniform then
        let x := at' ((vals.head?.map (·.2)).getD [])
        .u x.val x.poison
      else vLanes s.width fun i => match vals.find? fun e => e.1 == i with
        | some e => at' e.2
        | none => ⟨0, false⟩)

end State

/-- The lanes that access memory: one of them stands for all when the offset is U (R225). -/
def oneLane (u : Bool) (xs : List α) (last : Bool) : List α :=
  if u then (if last then xs.getLast?.toList else xs.head?.toList) else xs

/-! ## Scratchpad accesses (R230-R235) -/

/-- The team that a crew-remote access reaches (R231). -/
inductive Member where
  /-- No member of the crew, or not on that quarter: PERM. -/
  | bad
  /-- Not started, or swapped out: the access stalls. -/
  | stalled
  | here (team : Nat)
  deriving DecidableEq, Repr

namespace State

/-- The member of rank `rank` of team `t`'s crew, named with quarter `ci` (R231, R442). -/
def member (s : State) (t : Team) (rank ci : Nat) : Member :=
  match List.find? (fun (e : Nat × Team) => e.2.launch == t.launch && e.2.crew == t.crew && e.2.rank == rank)
      s.teams with
  | some e =>
    if e.2.quarter ≠ ci then .bad else if e.2.status = .out then .stalled else .here e.1
  | none => match s.getLaunch? t.launch with
    | some l => if rank < l.tpc then .stalled else .bad
    | none => .bad

/-- The team that lane offset word `v` reaches, for RM and CI (R231, R234). -/
def spTarget (s : State) (rm : Bool) (ci : Nat) (v : Word) : Member :=
  match s.team? with
  | none => .bad
  | some t =>
    if !rm then .here s.w.team
    else if v &&& 0xF0E00000#32 ≠ 0 then .bad
    else s.member t (v.extractLsb' 24 4).toNat ci

/-- The ranks that the active lanes of register n name (R231). -/
def namedRanks (s : State) (n : Nat) : List Nat :=
  (s.actLanes.map fun i => (((s.rd n).lane i).val.extractLsb' 24 4).toNat).eraseDups

/-- Allocation size of a team. -/
def spSize (s : State) (team : Nat) : Nat := ((s.getTeam? team).map (·.size)).getD 0

/-- The checked lanes of a scratchpad access: for each its team and offset; none while a member is not there (R231,
R234). -/
def spLanes (s : State) (rm : Bool) (ci o n : Nat) (data : List Nat) :
    Except Stop (Option (List (Nat × LaneAddr))) :=
  let lanes := s.actLanes
  let as := lanes.map fun i =>
    let v := ((s.rd o).lane i).val
    (i, if rm then (v.extractLsb' 0 21).zeroExtend 64 else v.zeroExtend 64)
  match s.noPoison [o] as with
  | .error e => .error e
  | .ok _ => match s.noPoison data as with
    | .error e => .error e
    | .ok _ => match aligned as n with
      | .error e => .error e
      | .ok _ =>
        let ms := as.map fun e => (s.spTarget rm ci ((s.rd o).lane e.1).val, e)
        if ms.any fun m => m.1 == .bad then .error (s.trapAct cPERM)
        else if ms.any fun m => m.1 == .stalled then .ok none
        else
          let ts := ms.filterMap fun m => match m.1 with
            | .here t => some (t, m.2)
            | _ => none
          if ts.any fun t => decide (s.spSize t.1 < t.2.2.toNat + n) then .error (s.trapAct cPERM)
          else .ok (some ts)

/-- The lanes of an LDSP of lane address `a` in team `t`: words with their poison (R234, R237). -/
def spLoadLane (s : State) (t : Nat) (a n : Nat) (sx : Bool) : List Lane :=
  if n < 4 then
    let x := s.loadSpWord s.cur.wid t (a / 4)
    let bs := (wordBytes x.val).drop (a % 4)
    (loadWords n sx bs).map fun v => ⟨v, x.poison⟩
  else (List.range (dataRegs n)).map fun k => s.loadSpWord s.cur.wid t (a / 4 + k)

end State

/-- LDSP (R234). -/
def execLdsp (h : Hdr) (d o : BitVec 6) (c : BitVec 2) (m : BitVec 1) (z : BitVec 3) (x : BitVec 1) (s : State) :
    Answer :=
  let n := 2 ^ z.toNat
  let u (s : State) := (s.rd o.toNat).isU
  .next (match s.spLanes (m == 1) c.toNat o.toNat n [] with
    | .ok none => s.waitOn (.remote (s.namedRanks o.toNat))
    | _ => s.pathRegStep h [o.toNat] fun s => match s.spLanes (m == 1) c.toNat o.toNat n [] with
      | .error e => .error e
      | .ok ts? =>
        let ts := oneLane (u s) (ts?.getD []) false
        let t := s.drainUntil s.cur.wid fun e => ts.any fun a =>
          (List.range (dataRegs n)).any fun k => State.atomSpOver a.1 (a.2.2.toNat / 4 + k) e
        let vals := ts.map fun a => (a.2.1, t.spLoadLane a.1 a.2.2.toNat n (x == 1))
        .ok (s.loadRes d.toNat (dataRegs n) (u s) vals, t.usePath (bankCycles ts n) 1))

/-- STSP (R234): the lanes' stores enter the warp's store queue in ascending order. -/
def execStsp (h : Hdr) (d o : BitVec 6) (c : BitVec 2) (m : BitVec 1) (z : BitVec 3) (s : State) : Answer :=
  let n := 2 ^ z.toNat
  let data := (List.range (dataRegs n)).map (d.toNat + ·)
  .next (match s.spLanes (m == 1) c.toNat o.toNat n data with
    | .ok none => s.waitOn (.remote (s.namedRanks o.toNat))
    | _ => s.pathStep h (o.toNat :: data) fun s => match s.spLanes (m == 1) c.toNat o.toNat n data with
      | .error e => .error e
      | .ok ts? =>
        let ts := oneLane (s.rd o.toNat).isU (ts?.getD []) true
        let ops := ts.flatMap fun a => (units (s.storeBytes d.toNat n a.2.1)).map fun p =>
          if m == 1 then StoreOp.spRemote a.1 (a.2.2.toNat + p.1) p.2 else .sp a.1 (a.2.2.toNat + p.1) p.2
        .ok ((s.queueStores s.cur.wid ops).usePath (bankCycles ts n) 1))

/-! ## Poison in memory (R238, R239) -/

namespace State

/-- The lanes whose offset register is not poisoned. -/
def cleanLanes (s : State) (o : Nat) : List Nat := s.actLanes.filter fun i => !((s.rd o).lane i).poison

/-- The device line or scratchpad word of each checked lane of PTEST and PCLR (R239). -/
def poisonUnits (s : State) (dev : Bool) (b o : Nat) (need : Need) : Except Stop (List (Nat × Nat)) :=
  if dev then
    match s.placeAll need 64 (s.baseAddrs b o (s.cleanLanes o)) with
    | .error e => .error e
    | .ok ps => .ok (ps.filterMap fun p => match p.2 with
      | .mem pa => some (p.1, pa / 64)
      | .win _ => none)
  else
    let us := (s.offAddrs o (s.cleanLanes o)).map fun e => (e.1, e.2.toNat / 4)
    if us.any fun u => decide (s.spSize s.w.team < 4 * u.2 + 4) then .error (s.trapAct cPERM) else .ok us

/-- Is a device line poisoned, as the warp sees it? -/
def linePoison (s : State) (line : Nat) : Bool × State :=
  let r := s.loadDev s.cur.wid (64 * line) 64
  (r.2.1, r.2.2)

end State

/-- The poison of some lines or scratchpad words, in turn. -/
def State.unitPoison (dev : Bool) : List Nat → State → List (Nat × Bool) × State
  | [], s => ([], s)
  | u :: rest, s =>
    let x := if dev then s.linePoison u else ((s.loadSpWord s.cur.wid s.w.team u).poison, s)
    let r := State.unitPoison dev rest x.2
    ((u, x.1) :: r.1, r.2)

/-- Does lane i test poisoned: its unit is, or its offset was (R239)? -/
def lanePoison (us : List (Nat × Nat)) (ps : List (Nat × Bool)) (i : Nat) : Bool :=
  match us.find? fun e => e.1 == i with
  | some e => ps.any fun y => y.1 == e.2 && y.2
  | none => true

/-- PTEST (R239). -/
def execPtest (h : Hdr) (d a : BitVec 6) (b : BitVec 4) (m : BitVec 1) (s : State) : Answer :=
  .next (s.pathRegStep h [a.toNat] (fun s => match s.poisonUnits (m == 1) b.toNat a.toNat .read with
    | .error e => .error e
    | .ok us =>
      let ls := (us.map (·.2)).eraseDups
      let r := State.unitPoison (m == 1) ls s
      let o := s.rd a.toNat
      let vals : List (Nat × List Lane) := s.actLanes.map fun i =>
        (i, [⟨if lanePoison us r.1 i then 1 else 0, (o.lane i).poison⟩])
      .ok (s.loadRes d.toNat 1 o.isU vals, r.2.usePath (max 1 ls.length) (max 1 ls.length))))

/-- PCLR (R239). -/
def execPclr (h : Hdr) (a : BitVec 6) (b : BitVec 4) (m : BitVec 1) (s : State) : Answer :=
  .next (s.pathStep h [a.toNat] fun s => match s.poisonUnits (m == 1) b.toNat a.toNat .write with
    | .error e => .error e
    | .ok us =>
      let ls := (us.map (·.2)).eraseDups
      let ops := ls.map fun u => if m == 1 then StoreOp.clearLine u else .clearWord s.w.team u
      .ok ((s.queueStores s.cur.wid ops).usePath (max 1 ls.length) (max 1 ls.length)))

/-! ## FENCE (R264) -/

/-- FENCE (R264): kind 1 acquires once earlier atomics have returned, kind 2 takes its place in the store queue, kind 3
does both at once. -/
def execFence (h : Hdr) (e : BitVec 3) (k : BitVec 2) (s : State) : Answer :=
  .next (s.unitStep 0 h fun s =>
    let wid := s.cur.wid
    if k = 1 then .ok ((s.drainUntil wid State.isAtom).acquire wid e.toNat)
    else if k = 2 then .ok (s.queueStores wid [.fence e.toNat])
    else .ok ((s.release wid e.toNat).acquire wid e.toNat))

/-! ## Die-cache hints and maintenance (R248-R250) -/

namespace State

/-- The distinct lines of the lanes with an unpoisoned offset; all of them checked for a valid translation (R249,
R250). -/
def maintainLines (s : State) (b o : Nat) : Except Stop (List Nat) :=
  match s.placeAll .any 64 (s.baseAddrs b o (s.cleanLanes o)) with
  | .error e => .error e
  | .ok ps => .ok (placeLines ps)

end State

/-- PREF (R248): the die cache fetches the lines that may be read. -/
def execPref (h : Hdr) (a b : BitVec 6) (s : State) : Answer :=
  .next (s.pathStep h [a.toNat] fun s =>
    let as := s.baseAddrs b.toNat a.toNat (s.cleanLanes a.toNat)
    let lines := (as.filterMap fun e => match s.place .read 64 e.2 with
      | .ok (.mem pa) => some (pa / 64)
      | _ => none).eraseDups
    let n := max 1 ((as.map fun e => e.2.toNat / 64).eraseDups).length
    .ok ((lines.foldl (fun s l => s.fetchLine (dieOf s.cur.wid) l) s).usePath n n))

/-- CWB (R249): the write-backs take their place in the store queue. -/
def execCwb (h : Hdr) (a b : BitVec 6) (s : State) : Answer :=
  .next (s.pathStep h [a.toNat] fun s => match s.maintainLines b.toNat a.toNat with
    | .error e => .error e
    | .ok ls => .ok ((s.queueStores s.cur.wid (ls.map .writeBack)).usePath (max 1 ls.length) (max 1 ls.length)))

/-- Does an instruction read earlier, with bytes in a line, agree with memory in one of its halves alone? It was read while
the line was being rewritten, and is neither the old instruction nor the new one. -/
def State.halfOld (s : State) (core part line : Nat) (c : CodeCopy) : Bool :=
  c.len == 4 && match s.translate core part .exec c.addr, s.translate core part .exec (c.addr + 2) with
    | .ok a, .ok b => (a / 64 == line || b / 64 == line) &&
        (s.homeRead a 2 == leBytes 2 c.word.toNat) != (s.homeRead b 2 == leBytes 2 (c.word.toNat / 2 ^ 16))
    | _, _ => false

/-- A line leaves every instruction cache of the package (R250). Of what was fetched ahead or stands in a loop buffer, an
instruction that is half old and half new goes, so that the old or the new one is run (R8, R116; log 75). -/
def State.invalidateCode (s : State) (line : Nat) : State :=
  { s with
    cores := s.cores.map fun e => (e.1, { e.2 with
      icache := e.2.icache.erase line
      loopBuf := e.2.loopBuf.map fun x => (x.1, { x.2 with code := x.2.code.filter fun c => !s.halfOld e.1 x.2.part line c }) })
    warps := s.warps.map fun e => (e.1, { e.2 with
      copies := e.2.copies.filter fun c => !s.halfOld (State.orderCore e.1) (s.partOf e.1) line c }) }

/-- ICINV (R250). -/
def execIcinv (h : Hdr) (a b : BitVec 6) (s : State) : Answer :=
  .next (s.pathStep h [a.toNat] fun s => match s.maintainLines b.toNat a.toNat with
    | .error e => .error e
    | .ok ls =>
      .ok ((ls.foldl State.invalidateCode (s.release s.cur.wid State.scopePkg)).usePath (max 1 ls.length)
        (max 1 ls.length)))

end Sys2Proof.Machine
end

