-- ==== Sys2Proof/Machine/Counters.lean ====
section
/-! DEFINITION. Completion counters, error words, grid barriers and the end of teams, as the dispatcher keeps them
(spec/05 R134, R135; spec/17 R394, R395, R403; spec/18 R415-R417). -/

namespace Sys2Proof.Machine

/-! ## Error words (R135) -/

/-- COUNT of an error word. -/
def errCount (e : DWord) : Nat := (e.extractLsb' 16 16).toNat

/-- An error word with `n` added to COUNT, saturating. -/
def errBump (e : DWord) (n : Nat) : DWord :=
  e.extractLsb' 32 32 ++ BitVec.ofNat 16 (min 0xFFFF (errCount e + n)) ++ e.extractLsb' 0 16

/-- A forwarded word merged into another (R135). -/
def errMerge (old new : DWord) : DWord := if new = 0 then old else if old = 0 then new else errBump old (errCount new)

/-- The word of one error. -/
def errWordOf (addr : DWord) (warp cls : Nat) (sub : BitVec 8) : DWord :=
  addr.extractLsb' 0 32 ++ 1#16 ++ BitVec.ofNat 6 warp ++ BitVec.ofNat 2 cls ++ sub

namespace State

/-! ## Counters (R394, R395) -/

/-- The cause bit of the partition that holds a counter. -/
def raiseFor (s : State) (c k : Nat) : State :=
  match s.counterHolder c with
  | some p => s.raiseCause p k
  | none => s

/-- An error word reaches a counter: ERROR, the merge, and the tenant's interrupt (R134, R135, R471). -/
def counterError (s : State) (c : Nat) (word : DWord) : State :=
  if word = 0 then s
  else (s.modCounter c fun k => { k with error := true, errWord := errMerge k.errWord word }).raiseFor c 2

/-- Every dirty line of every die is written back: a release at SYS of the package's writes (R283). -/
def releaseAll (s : State) : State := (List.range 4).foldl (fun s d => s.writeBackAll d scopeSys) s

/-- The launch that uses a counter. -/
def launchOf (s : State) (c : Nat) : Option (Nat × Launch) :=
  List.find? (fun (e : Nat × Launch) => e.2.ctr == c && e.2.gen == (s.getCounter c).gen) s.launches

/-- The counter completes if SEALED is 1 and OPEN is 0 (R395), and then perhaps its parent; levels rise, so four
counters at most. -/
def tryComplete (s : State) (c : Nat) : Nat → State
  | 0 => s
  | n + 1 =>
    let k := s.getCounter c
    if k.done || !k.sealed || k.open' != 0 then s
    else
      let s := (s.setCounter c { k with done := true }).releaseAll
      let s := match s.launchOf c with
        | some (key, _) => { s with launches := s.launches.erase key }
        | none => s
      match k.parent with
      | none => s.raiseFor c 3
      | some p =>
        let s := s.modCounter p fun q =>
          { q with open' := q.open' - 1, error := q.error || k.error, cancelled := q.cancelled || k.cancelled,
                   errWord := errMerge q.errWord k.errWord }
        let s := if k.errWord = 0 then s else s.raiseFor p 2
        s.tryComplete p n

/-- OPEN of a launch's counter falls (R395). -/
def closeMembers (s : State) (c n : Nat) : State :=
  (s.modCounter c fun k => { k with open' := k.open' - n }).tryComplete c 4

/-! ## Grid barriers (R415-R417) -/

/-- The teams of a launch that have a record. -/
def teamsOf (s : State) (l : Nat) : List (Nat × Team) := s.teams.filter fun e => e.2.launch == l

/-- The generation completes when every live team has arrived (R417). -/
def gridCheck (s : State) (l : Nat) : State :=
  match s.getLaunch? l with
  | none => s
  | some x =>
    if x.garrt = x.glive ∧ 1 ≤ x.garrt then
      let s := s.setLaunch l { x with ggen := x.ggen + 1, garrt := 0 }
      { s with teams := s.teams.map fun e =>
          if e.2.launch = l then (e.1, { e.2 with arrived := [], counted := false }) else e }
    else s

/-- Warps of a team that have not ended, by logical index. -/
def liveWarps (s : State) (t : Team) : List Nat :=
  match t.image with
  | some i => (i.warps.filter fun w => !w.ended).map (·.index)
  | none => (List.range t.nwarps).filter fun k => !(s.getWarp (t.wids.getD k 0)).ended

/-- The team arrives when every live warp of it is in its arrival set (R416). -/
def teamArrive (s : State) (team : Nat) : State :=
  match s.getTeam? team with
  | none => s
  | some t =>
    let live := s.liveWarps t
    if t.counted || live.isEmpty || !live.all t.arrived.contains then s
    else
      let s := s.setTeam team { t with counted := true }
      (s.modLaunch t.launch fun l => { l with garrt := l.garrt + 1 }).gridCheck t.launch

/-! ## The end of a team (R134, R230, R403, R417) -/

/-- Has an engine operation that a warp of the team issued not completed? -/
def hasOps (s : State) (t : Team) : Bool :=
  match t.image with
  | some i => i.warps.any fun w => !w.ops.isEmpty
  | none => t.wids.any fun wid => !(s.getWarp wid).ops.isEmpty

/-- A crew all of whose teams have ended gives up its allocations and its banks (R230, R311). -/
def crewCheck (s : State) (l crew : Nat) : State :=
  match s.getLaunch? l with
  | none => s
  | some x =>
    let mine (t : Team) : Bool := t.launch == l && t.crew == crew
    if (decide (x.nextTeam < (crew + 1) * x.tpc) && !x.cancelled) ||
        s.teams.any fun e => mine e.2 && (e.2.status != .ended || e.2.draining) then s
    else { s with teams := s.teams.filter fun e => !mine e.2,
                  crews := s.crews.filter fun c => !(c.launch == l && c.crew == crew) }

/-- An ended team whose engine operations have all completed frees its slots and barriers; its launch's OPEN falls
(R283, R403). -/
def tryFree (s : State) (team : Nat) : State :=
  match s.getTeam? team with
  | none => s
  | some t =>
    if t.status != .ended || !t.draining || s.hasOps t then s
    else
      let s := { s with warps := s.warps.filter fun e => !(t.wids.contains e.1 && e.2.team == team) }
      let s := s.setTeam team { t with
        draining := false, nbar := 0, bars := [], tag := none, image := none, region := none,
        size := if t.image.isSome then 0 else t.size }
      let c := (s.getLaunch? t.launch).map (·.ctr)
      let s := s.crewCheck t.launch t.crew
      match c with
      | some c => s.closeMembers c 1
      | none => s

/-- No MIGRATE request of a core is pending any more for a team: GO reads 0 (R428). -/
def svDone (s : State) (team : Nat) : State :=
  { s with cores := s.cores.map fun e => (e.1, if e.2.svTeam = some team then { e.2 with svTeam := none } else e.2) }

/-- A team named by a SWITCH of its partition has been saved, or has ended (R475). -/
def switchedOut (s : State) (team part : Nat) : State :=
  if (s.getPart part).switched.contains team then
    s.modPart part fun b => { b with switched := b.switched.filter (· != team) }
  else s

/-- The team ends, once its undecided guarded commands are gone: its error word is forwarded (R134), it leaves the grid
barrier (R417), and its stores are performed. -/
def closeTeam (s : State) (team : Nat) : State :=
  match s.getTeam? team with
  | none => s
  | some t =>
    let s := if t.image.isNone then t.wids.foldl (fun s wid => (s.drainAll wid).flushOrder wid) s else s
    let s := ((s.svDone team).switchedOut team t.part).modTeam team fun t => { t with status := .ended, draining := true, errWord := 0, req := none }
    let s := match s.getLaunch? t.launch with
      | none => s
      | some l => s.counterError l.ctr t.errWord
    let s := s.modLaunch t.launch fun l =>
      { l with glive := l.glive - 1, garrt := if t.counted then l.garrt - 1 else l.garrt }
    (s.gridCheck t.launch).tryFree team

end State
end Sys2Proof.Machine
end

