-- ==== Sys2Proof/Machine/Engine.lean ====
section
/-! DEFINITION. What every engine shares: accepting a command, guards, completion, retirement, and the errors that a
command leaves (spec/05 R134; spec/12 R285-R294), with the end of a warp (R122). -/

namespace Sys2Proof.Machine

/-- Error sub-codes (R126). -/
def eCOPY : BitVec 8 := 1
def eSTALE : BitVec 8 := 2
def eSELC : BitVec 8 := 3
def eDECODE : BitVec 8 := 4
def eBOUNDS : BitVec 8 := 5
def eREPAIR : BitVec 8 := 6
def ePENDING : BitVec 8 := 7
def ePOISON : BitVec 8 := 8

/-- An engine error: sub-code and fault address. -/
abbrev EngFault := BitVec 8 × DWord

/-! ## Tile barriers (R300, R301) -/

/-- One arrival (R301). -/
def TileBar.arrive (b : TileBar) : TileBar :=
  let n := (b.arr + 1) % 2 ^ 16
  if n = b.exp then { b with arr := 0, phase := b.phase + 1 } else { b with arr := n }

/-- Is phase p passed (R301, R417)? -/
def passed (phase p : Word) : Bool := decide (0 < (phase - p).toInt)

/-- Barrier k of a team. -/
def Team.bar (t : Team) (k : Nat) : TileBar := t.bars.get k ⟨0, 0, 0, 0⟩

def Team.setBar (t : Team) (k : Nat) (b : TileBar) : Team := { t with bars := t.bars.set k b }

/-- Guard slot g of a team (R293). -/
def Team.guardSlot (t : Team) (g : Nat) : GuardSlot := t.guards.get g ⟨.unresolved, 0⟩

/-- A warp that has ended: results in flight are discarded, records and entries freed, and its rows, unless it keeps them until
the engine operations of its stopped team have completed (R122, R176, R403). -/
def Warp.afterEnd (w : Warp) (keeps : Bool) : Warp :=
  { w with ended := true, keeps, gangs := [], joins := [], slices := [], releases := [], pend := [],
           rows := if keeps then w.rows else [],
           granted := [], rowReq := none, copies := [], errs := [], parked := none, fault := none }

namespace State

/-! ## The warp that issued a command (R441, R442) -/

/-- Change the warp of a team with a logical index, resident or out. -/
def modTeamWarp (s : State) (team k : Nat) (f : Warp → Warp) : State :=
  match s.getTeam? team with
  | none => s
  | some t => match t.image with
    | some i => s.setTeam team { t with image := some { i with warps := i.warps.mapIdx fun j w => if j = k then f w else w } }
    | none => match t.wids[k]? with
      | some wid => s.modWarp wid f
      | none => s

/-- That warp. -/
def teamWarp? (s : State) (team k : Nat) : Option Warp :=
  match s.getTeam? team with
  | none => none
  | some t => match t.image with
    | some i => i.warps[k]?
    | none => (t.wids[k]?).map s.getWarp

/-! ## Errors and retirement (R134, R286, R287) -/

/-- An error of a retired operation reaches the warp, or its team once the warp has exited, or the launch once the team
has ended (R134). -/
def routeError (s : State) (team k cls : Nat) (e : EngFault) : State :=
  match s.getTeam? team with
  | none => s
  | some t =>
    if t.status = .ended then
      match s.getLaunch? t.launch with
      | some l => s.counterError l.ctr (errWordOf e.2 k cls e.1)
      | none => s
    else match s.teamWarp? team k with
      | some w =>
        if w.ended then s.teamError team k cls e.1 e.2
        else s.modTeamWarp team k fun w => { w with errs := w.errs ++ [⟨cls, e.1, e.2⟩] }
      | none => s

/-- Completed operations at the head of a class retire in class order (R286). -/
def retireOps (s : State) (team k cls : Nat) : Nat → State
  | 0 => s
  | n + 1 =>
    match s.teamWarp? team k with
    | none => s
    | some w => match w.ops.find? fun o => o.cls == cls with
      | none => s
      | some o =>
        if !o.done then s
        else
          let s := s.modTeamWarp team k fun w => { w with ops := w.ops.filter fun p => p.cmd != o.cmd }
          let s := match o.err with
            | some e => s.routeError team k cls e
            | none => s
          s.retireOps team k cls n

/-- An arrival of a command on barrier k of its team lowers PEND (R287, R301). It does not follow a warp's request in one
cycle of the tile-barrier unit: the arrivals of a cycle are counted first. -/
def engineArrive (s : State) (team : Nat) (bar : Option Nat) : State :=
  match bar, s.getTeam? team with
  | some k, some t =>
    if k < t.nbar then
      let b := t.bar k
      (s.advanceTo (64 * t.core) ((s.getCore t.core).unitFree.get 3 0)).setTeam team
        (t.setBar k { b with pend := b.pend - 1 }.arrive)
    else s
  | _, _ => s

/-- The marks that a command still holds are withdrawn, the words as they are (R294). -/
def dropMarks (s : State) (id : Nat) : State :=
  { s with teams := s.teams.map fun e => (e.1, { e.2 with marks := e.2.marks.filter fun m => m.2 != id }) }

/-- The words that a command still holds pending become 0 with poison (R298); in class xf only those pending for no
other command (R339). -/
def failMarks (s : State) (c : Cmd) : State :=
  { s with teams := s.teams.map fun e =>
      let mine := (e.2.marks.filter fun m => m.2 == c.id).map (·.1)
      let rest := e.2.marks.filter fun m => m.2 != c.id
      let words := if c.cls = 2 then mine.filter fun w => !rest.any fun m => m.1 == w else mine
      (e.1, words.foldl (fun t w => t.engWord c.id w ⟨0, true⟩) e.2) }

/-- A COMMAND COMPLETES (R287): its error is recorded, its arrival counted, and what is now at the head of its class
retires. -/
def complete (s : State) (c : Cmd) (err : Option EngFault) : State :=
  let s := s.dropMarks c.id
  let s := s.modTeamWarp c.team c.warp fun w =>
    { w with ops := w.ops.map fun o => if o.cmd = c.id then { o with done := true, err := err } else o }
  let s := s.engineArrive c.team c.bar
  let n := ((s.teamWarp? c.team c.warp).map fun w => w.ops.length).getD 0
  (s.retireOps c.team c.warp c.cls n).tryFree c.team

/-- A command fails: its words still pending become 0 with poison, and it completes with the error (R298). -/
def failCmd (s : State) (c : Cmd) (e : EngFault) : State := (s.failMarks c).complete c (some e)

/-! ## Queues of commands (R292) -/

/-- Every command that an engine holds. -/
def allCmds (s : State) : List Cmd :=
  (s.cores.flatMap fun e => e.2.cpQ ++ e.2.xfQ ++ e.2.kvQ ++ e.2.rpQ) ++ s.clusters.flatMap fun e => e.2.table ++ e.2.mxWait

/-- Change every command that an engine holds, or remove it. -/
def mapCmds (s : State) (f : Cmd → Option Cmd) : State :=
  { s with
    cores := s.cores.map fun e => (e.1, { e.2 with cpQ := e.2.cpQ.filterMap f, xfQ := e.2.xfQ.filterMap f,
                                                   kvQ := e.2.kvQ.filterMap f, rpQ := e.2.rpQ.filterMap f })
    clusters := s.clusters.map fun e => (e.1, { e.2 with table := e.2.table.filterMap f,
                                                         mxWait := e.2.mxWait.filterMap f }) }

/-- A command in its place in acceptance order. -/
def insertCmd (c : Cmd) (l : List Cmd) : List Cmd :=
  l.takeWhile (fun d => decide (d.id < c.id)) ++ c :: l.dropWhile fun d => decide (d.id < c.id)

/-- Commands that wait to enter a cluster's reservation table again do so while it has a free entry of its 16 (R321). -/
def fillTable (s : State) (cl : Nat) : Nat → State
  | 0 => s
  | n + 1 => match (s.getCluster cl).mxWait with
    | [] => s
    | c :: rest =>
      if 16 ≤ (s.getCluster cl).table.length then s
      else (s.modCluster cl fun k => { k with table := insertCmd c k.table, mxWait := rest }).fillTable cl n

/-- A command in its queue with what its execution has come to. -/
def updateCmd (s : State) (c : Cmd) : State := s.mapCmds fun x => some (if x.id = c.id then c else x)

/-- Remove a command from its queue. -/
def removeCmd (s : State) (id : Nat) : State := s.mapCmds fun c => if c.id = id then none else some c

/-- A discarded command: no write and no error, but it arrives and completes (R287, R294). -/
def discard (s : State) (c : Cmd) : State := (s.removeCmd c.id).complete c none

/-- Is the command bound to a slot of a team that is not resolved? -/
def undecidedIn (team : Nat) (c : Cmd) : Bool :=
  c.team == team && match c.guard with
    | .undecided _ _ => true
    | _ => false

/-- A team's commands of unresolved generations are discarded at its end (R294). -/
def discardTeam (s : State) (team : Nat) : State :=
  let waiting := match (s.getTeam? team).bind (·.image) with
    | some i => i.cmds
    | none => []
  ((s.allCmds.filter (undecidedIn team)) ++ waiting).foldl (fun s c => s.discard c) s

/-- THE END OF A TEAM (R134, R294, R403). -/
def endTeam (s : State) (team : Nat) : State :=
  match s.getTeam? team with
  | none => s
  | some t => if t.status = .ended then s else (s.discardTeam team).closeTeam team

/-- Pending errors of a warp that has ended go to the team error word, in class order (R134). -/
def mergeErrs (s : State) (team warp : Nat) (errs : List EngErr) : State :=
  ((List.range 4).flatMap fun c => errs.filter fun e => e.cls == c).foldl
    (fun s e => s.teamError team warp e.cls e.sub e.addr) s

/-- A warp ends (R122, R134): what it held is freed, and its pending errors go to the team error word. -/
def closeWarp (s : State) (wid : Nat) (keeps : Bool) : State :=
  let w := s.getWarp wid
  if w.ended then s else (s.setWarp wid (w.afterEnd keeps)).mergeErrs w.team w.index w.errs

/-- THE END OF A WARP (R122, R416): the team may arrive at its grid barrier, or end with its last warp. -/
def endWarp (s : State) (wid : Nat) : State :=
  let w := s.getWarp wid
  if w.ended then s
  else
    let s := s.closeWarp wid false
    match s.getTeam? w.team with
    | none => s
    | some t => if (s.liveWarps t).isEmpty then s.endTeam w.team else s.teamArrive w.team

/-- Every warp of a team stops at an instruction boundary and the team ends, resident or out (R402, R403). -/
def stopTeam (s : State) (team : Nat) : State :=
  match s.getTeam? team with
  | none => s
  | some t =>
    if t.status = .ended then s
    else match t.image with
      | none => (t.wids.foldl (fun s wid => s.closeWarp wid true) s).endTeam team
      | some i =>
        let s := i.warps.foldl (fun s w => s.mergeErrs team w.index w.errs) s
        (s.modTeam team fun t => { t with image := some { i with warps := i.warps.map fun w => w.afterEnd false } }).endTeam team

/-! ## Acceptance (R291) -/

/-- What an engine instruction asks for. -/
structure Ask where
  cls : Nat
  kind : CmdKind
  /-- Descriptor registers, which must be U. -/
  block : List Nat
  /-- Operand registers, of any shape. -/
  operands : List Nat
  bar : Option Nat
  /-- A BAR field that names no barrier of the team, where that is reported at execution (R338). -/
  badBar : Bool
  /-- Guard slot, 0 for none. -/
  guard : Nat
  /-- A further check of step 3 fails: PERM (R321). -/
  denied : Bool
  deriving DecidableEq, Repr

/-- Operations of a class that the current warp has outstanding (R286). -/
def outstandingOps (w : Warp) (cls : Nat) : Nat := (w.ops.filter fun o => o.cls == cls).length

/-- Is a register poisoned in some lane? -/
def anyPoison (s : State) (n : Nat) : Bool := (List.range s.width).any fun i => ((s.rd n).lane i).poison

/-- The command that an instruction makes, with everything read now (R291). -/
def makeCmd (s : State) (a : Ask) : Cmd :=
  let t := s.team?
  let slot := (t.map fun t => t.guardSlot a.guard).getD ⟨.unresolved, 0⟩
  { id := s.fresh, cls := a.cls, kind := a.kind, wid := s.cur.wid, team := s.w.team, warp := s.w.index,
    die := dieOf s.cur.wid, core := coreOf s.cur.wid, issuedOn := coreOf s.cur.wid, d := a.block.map fun n => ((s.rd n).lane 0).val,
    poison := a.block.any s.anyPoison || match a.kind with
      | .kvg _ => false
      | _ => a.operands.any fun n => poisonLanes s.act (s.rd n) != 0,
    bar := a.bar, badBar := a.badBar,
    guard := if a.guard = 0 then .none else match slot.state with
      | .unresolved => .undecided a.guard slot.gen
      | .yes => .goes
      | .no => .dropped,
    act := s.act,
    lanes := match a.operands with
      | n :: _ => (List.range s.width).map (s.rd n).lane
      | [] => [],
    fmt := s.fmt, cfg := s.w.cfg, sa := s.w.sa, sb := s.w.sb, mxi := s.w.role == 3, seq := s.fresh, since := s.now,
    aged := false, steps := 0, started := false, completeAt := none, err := none, spoil := 0, clean := false, seqRead := none,
    tasks := [], away := [] }

end State

/-- The shared unit that accepts a command: the KV table unit and the repair engine are none (R18, R27). -/
def CmdKind.unit : CmdKind → Option Nat
  | .cpLoad _ | .cpStore _ | .cpFill _ | .kvg _ => some 2
  | .qst _ | .qexp _ | .vdec => some 1
  | .mxloop _ _ | .mxdrain _ _ | .mxlda _ | .mxzero _ => some 4
  | _ => none

/-- The scope at which a command reads device memory, the narrower where it has two; 5 where it reads none (R272). -/
def CmdKind.scope : CmdKind → Nat
  | .cpLoad _ | .cpStore _ | .cpFill _ | .kvg _ => State.scopeDie
  | .kvspl | .kvmap | .kvsd | .rpscan | .rpdone => State.scopePkg
  | _ => 5

namespace State

/-- The instruction does not issue in this cycle (R286, R291). -/
def notIssued (s : State) : State := s.hold (s.now + 1)

/-- The reservation table of a cluster takes no other command in this cycle (R321). -/
def tableTaken (s : State) (cl : Nat) : State := s.modCluster cl fun k => { k with mxTaken := s.now + 1 }

/-- AN ENGINE COMMAND IS ISSUED (R291): SHAPE of its block, PERM of its barrier, then it waits for room, or it is
accepted: counted, bound to its guard, its words marked by `mark`, and queued by `enqueue`; one decided FALSE is
discarded at once. RPDONE takes the place of a FENCE.REL.PKG in the issuer's order (R389). -/
def accept (h : Hdr) (a : Ask) (full : State → Bool) (mark : Cmd → State → State)
    (enqueue : Cmd → State → State) (s : State) : State :=
  let nbar := (s.team?.map (·.nbar)).getD 0
  let pend := match a.bar, s.team? with
    | some k, some t => (t.bar k).pend
    | _, _ => 0
  if a.block.any fun n => !(s.rd n).isU then s.stopWith (s.trapAct cSHAPE)
  else if a.denied || a.bar.any fun k => decide (nbar ≤ k) then s.stopWith (s.trapAct cPERM)
  else if 63 ≤ outstandingOps s.w a.cls ∨ full s ∨ 255 ≤ pend then s.notIssued
  else
    let s := if a.kind = .rpdone then s.queueStores s.cur.wid [.fence scopePkg] else s
    let c := s.makeCmd a
    let s := { s with fresh := s.fresh + 1 }
    let s := s.modW fun w => { w with ops := w.ops ++ [⟨c.id, c.cls, false, none⟩] }
    let s := match a.bar with
      | some k => s.modTeam c.team fun t => t.setBar k { t.bar k with pend := (t.bar k).pend + 1 }
      | none => s
    let s := if c.guard = .dropped then s.complete c none else enqueue c (mark c s)
    let s := match a.kind.unit with
      | some u => s.takeUnit u 1
      | none => s
    let s := if a.kind.unit = some 4 then s.tableTaken (clusterOf c.core) else s
    let z := s.touchRows (a.block ++ a.operands)
    ((z.2.debitW 1).retire h).lateBy z.1

/-- An engine command is issued once the unit that accepts it takes the request (R18, R291). -/
def askEngine (h : Hdr) (a : Ask) (full : State → Bool) (mark : Cmd → State → State) (enqueue : Cmd → State → State)
    (s : State) : State :=
  match a.kind.unit with
  | some u => s.whenTaken u (accept h a full mark enqueue)
  | none => s.accept h a full mark enqueue

end State

/-- The barrier that an EC form's B field names: K + 1, or 0 for none (R297). -/
def ecBar (b : BitVec 6) : Option Nat := if b = 0 then none else some (b.toNat - 1)

/-- Registers h to h + n - 1. -/
def block (h n : Nat) : List Nat := (List.range n).map (h + ·)

/-- A scratchpad as a command of its team reads it: with the words that it had before a move (R441; log 76). -/
def Team.recall (t : Team) (c : Cmd) : Team :=
  c.away.foldl (fun t e =>
    { t with sp := cellsSet t.sp (4 * e.1) (wordBytes e.2.val), spPoison := (t.setSpPoison e.1 e.2.poison).spPoison }) t

namespace State

/-! ## Execution (R272, R292) -/

/-- The k-th command of a queue, if it may start: no held command stands before it, and it is not held (R292). -/
def startable (q : List Cmd) (k : Nat) : Option Cmd :=
  let held (c : Cmd) : Bool := match c.guard with
    | .undecided _ _ => true
    | _ => false
  if (q.take (k + 1)).any held then none else q[k]?

/-- Is an entry of a warp, made before number `seq`, performed before a command that reads device memory at a scope: a
scratchpad store, a FENCE.REL at that scope, or a wider release (R272; log 72)? CLUS is as DIE (R253). -/
def precedes (wid seq scope : Nat) (e : StoreEntry) : Bool :=
  e.wid == wid && decide (e.seq < seq) && match e.op with
    | .sp _ _ _ | .spRemote _ _ _ | .atomSp _ _ _ _ _ | .clearWord _ _ => true
    | .fence k => k != scopeCore && decide (scope ≤ max scopeDie k)
    | .rel k _ _ => decide (scope < k)
    | .atom _ rel k _ _ _ _ => rel && decide (scope < k)
    | .signal mgmt _ _ => decide (scope < if mgmt then scopePkg else scopeSys)
    | _ => false

/-- What its issuer's order puts before a command is performed (R272). -/
def settleStores (s : State) (c : Cmd) : State :=
  match s.getTeam? c.team with
  | none => s
  | some t => match t.image, t.wids[c.warp]? with
    | none, some wid =>
      let f := precedes wid c.seq c.kind.scope
      (s.drainUntil wid f).flushWhere (orderCore wid) fun e => (entryLine e.op).isNone && f e
    | _, _ => s

/-- The access of a command to a physical address, as one that may be lost (R477). -/
def engAccess (c : Cmd) (pa : Nat) : PeerStore := ⟨c.team, c.warp, c.cls, pa⟩

/-- An access of a command to a peer that is down counts in its team's error word (R477). -/
def engLink (s : State) (c : Cmd) (pa : Nat) : State := if s.peerDown pa then s.linkLost (engAccess c pa) else s

/-- The partition of the team that issued a command. -/
def cmdPart (s : State) (c : Cmd) : Nat := ((s.getTeam? c.team).map (·.part)).getD 32

/-- Debit a command's cluster. -/
def debitCmd (s : State) (c : Cmd) (weight : Nat) : State := s.debit (clusterOf c.core) weight

end State
end Sys2Proof.Machine
end

