-- ==== Sys2Proof/Machine/Async.lean ====
section
/-! DEFINITION. WAITC, guard slots and the copy engine (spec/12 R289, R293-R299). -/

namespace Sys2Proof.Machine

/-! ## WAITC (R289, R290) -/

/-- The oldest pending error of a class, and those left (R134). -/
def takeErr (cls : Nat) : List EngErr → Option (EngErr × List EngErr)
  | [] => none
  | e :: rest =>
    if e.cls = cls then some (e, rest)
    else match takeErr cls rest with
      | some (x, l) => some (x, e :: l)
      | none => none

/-- Class kv's engines write at PKG, the others at DIE or CORE (R272). -/
def classScope (cls : Nat) : Nat := if cls = 3 then State.scopePkg else State.scopeDie

/-- WAITC (R289). The trap record counts the errors of the class that are left modulo 256 (DESIGN CHOICE, log 66: R143 does
not say what ENGX reads past 255). -/
def execWaitc (h : Hdr) (a : BitVec 6) (i : BitVec 10) (s : State) : Answer :=
  .next (
    let cls := a.toNat
    let w := s.w
    let start := match s.gang.wait with
      | some (.eng _ _ t) => t
      | _ => s.gtime
    if i.toNat < State.outstandingOps w cls then
      (if s.gang.wait.isSome then s.waitOn (.eng cls i.toNat start) else s.issueWait h (.eng cls i.toNat start))
    else match takeErr cls w.errs with
      | some (e, rest) =>
        let left := (rest.filter fun x => x.cls == cls).length
        (s.modW fun w => { w with errs := rest }).takeTrap
          { cause := cENG, sub := e.sub, flanes := s.act, faddr := e.addr, skip := 0, fpxc := 0,
            engClass := BitVec.ofNat 2 cls, engLeft := BitVec.ofNat 8 left }
      | none =>
        let t := s.acquire s.cur.wid (classScope cls)
        if s.gang.wait.isSome then t.endWait 2 else (t.debitW 1).retire h)

/-! ## Guard slots (R293-R295) -/

namespace State

/-- Every command bound to a slot and generation is decided (R294). -/
def decideGuard (s : State) (team slot : Nat) (gen : BitVec 8) (yes : Bool) : State :=
  let bound (c : Cmd) : Bool := c.team == team && c.guard == .undecided slot gen
  if yes then s.mapCmds fun c => some (if bound c then { c with guard := .goes } else c)
  else (s.allCmds.filter bound).foldl (fun s c => s.discard c) s

end State

/-- GSET (R295). -/
def execGset (h : Hdr) (d : BitVec 6) (k : BitVec 3) (n : BitVec 1) (s : State) : Answer :=
  .next (s.unitStep 3 h fun s => match s.rdp k.toNat, s.team? with
    | .u p, some t =>
      let g := t.guardSlot d.toNat
      if g.state ≠ .unresolved then .error (s.trapAct cPERM)
      else
        let yes := xor p (n == 1)
        let s := s.setTeam s.w.team
          { t with guards := t.guards.set d.toNat { g with state := if yes then .yes else .no } }
        .ok (s.decideGuard s.w.team d.toNat g.gen yes)
    | .v _, _ => .error (s.trapAct cSHAPE)
    | .u _, none => .ok s)

/-- GCLR (R295). -/
def execGclr (h : Hdr) (d : BitVec 6) (s : State) : Answer :=
  .next (s.unitStep 3 h fun s => .ok (s.modTeam s.w.team fun t =>
    let g := t.guardSlot d.toNat
    if g.state = .unresolved then t
    else { t with guards := t.guards.set d.toNat ⟨.unresolved, g.gen + 1⟩ }))

/-! ## The copy engine (R296-R299) -/

/-- A copy, as its descriptor gives it (R296). -/
structure Copy where
  dev : DWord
  fill : Word
  d2 : Word
  rowb : Nat
  dstr : DWord
  rows : Nat
  sstr : Nat
  bad : Bool
  deriving DecidableEq, Repr

/-- Word k of a descriptor. -/
def Cmd.word (c : Cmd) (k : Nat) : Word := c.d.getD k 0

/-- Scratchpad offset that a d2 word names (R296). -/
def d2Offset (d2 : Word) : Nat := (d2.extractLsb' 0 21).toNat

/-- The copy of a CP command; `bad` when a field breaks R298's first check. A RANK or CI that is not zero while RM is 0 breaks it
(DESIGN CHOICE, log 79). -/
def Cmd.copy (c : Cmd) (twoD fill : Bool) : Copy :=
  let d2 := c.word 2
  let d3 := c.word 3
  let d4 := c.word 4
  let d5 := c.word 5
  let dev := c.word 1 ++ c.word 0
  let rowb := (d3.extractLsb' 0 22).toNat
  let sstr := if twoD then (d5.extractLsb' 0 21).toNat else 0
  let dstr := if twoD then d4.signExtend 64 else 0
  let rm := d2.getLsbD 23
  { dev, fill := c.word 0, d2, rowb, dstr, rows := if twoD then (d5.extractLsb' 21 11).toNat else 1, sstr,
    bad := d2.extractLsb' 28 4 != 0 || (!rm && d2.extractLsb' 21 7 != 0) || d3.extractLsb' 22 10 != 0 ||
      rowb % 4 != 0 || d2Offset d2 % 4 != 0 || sstr % 4 != 0 ||
      dstr.toNat % 4 != 0 || (!fill && (dev.toNat % 4 != 0 || !State.canonical dev)) || decide (2 ^ 21 < rowb) }

/-- Scratchpad ranges of the rows: offset and bytes. -/
def Copy.ranges (x : Copy) : List (Nat × Nat) :=
  (List.range x.rows).map fun r => (d2Offset x.d2 + r * x.sstr, x.rowb)

/-- Words that ranges of bytes touch. -/
def rangeWords (rs : List (Nat × Nat)) : List Nat :=
  rs.flatMap fun r => if r.2 = 0 then [] else (List.range ((r.1 + r.2 - 1) / 4 - r.1 / 4 + 1)).map (r.1 / 4 + ·)

/-- Does some range overlap another? -/
def overlaps (xs ys : List (Nat × Nat)) : Bool :=
  xs.any fun x => ys.any fun y => decide (0 < x.2 ∧ 0 < y.2 ∧ x.1 < y.1 + y.2 ∧ y.1 < x.1 + x.2)

namespace State

/-- The team record of a rank of a command's crew, wherever it is. -/
def crewTeam (s : State) (team rank : Nat) : Option Nat :=
  match s.getTeam? team with
  | none => none
  | some t => (s.teams.keys.filter fun k => (s.getTeam? k).any fun u =>
      u.launch == t.launch && u.crew == t.crew && u.rank == rank).min?

/-- The started team whose allocation a d2 word names, wherever it is: none when the word breaks R231 (R296, R298). -/
def targetTeam (s : State) (team : Nat) (d2 : Word) : Option Nat :=
  if !d2.getLsbD 23 then some team
  else match s.crewTeam team (d2.extractLsb' 24 4).toNat with
    | none => none
    | some t => if (s.getTeam? t).any fun x => x.quarter == (d2.extractLsb' 21 2).toNat then some t else none

/-- The team whose allocation a d2 word names (R231, R296). -/
def spTeam (s : State) (team : Nat) (d2 : Word) : Member :=
  if !d2.getLsbD 23 then .here team
  else match s.getTeam? team with
    | none => .bad
    | some t => s.member t (d2.extractLsb' 24 4).toNat (d2.extractLsb' 21 2).toNat

/-- Words marked pending for a command in a team's allocation (R232). -/
def markWords (s : State) (team id : Nat) (words : List Nat) : State := s.modTeam team fun t => t.mark id words

end State

/-- Is the command a copy into a scratchpad, and 2-D? -/
def Cmd.fills (c : Cmd) : Option (Bool × Bool) :=
  match c.kind with
  | .cpLoad twoD => some (twoD, false)
  | .cpFill twoD => some (twoD, true)
  | _ => none

/-- Marks of a LOAD or FILL at acceptance; those of a target that has not started are made when it starts (R298). -/
def Cmd.markCopy (c : Cmd) (s : State) : State :=
  match c.fills with
  | none => s
  | some (twoD, fill) =>
    if c.poison then s
    else
      let x := c.copy twoD fill
      match s.targetTeam c.team x.d2 with
      | some t => s.markWords t c.id (rangeWords x.ranges)
      | none => s

/-- A team starts: the copies that wait for it mark its words (R298). -/
def State.markLate (s : State) (team : Nat) : State :=
  match s.getTeam? team with
  | none => s
  | some t => s.allCmds.foldl (fun s c =>
      let d2 := c.word 2
      let mine := match s.getTeam? c.team with
        | some u => u.launch == t.launch && u.crew == t.crew && d2.getLsbD 23 &&
            (d2.extractLsb' 24 4).toNat == t.rank
        | none => false
      if mine then c.markCopy s else s) s

/-- Scratchpad ranges that a copy-engine command reads and writes, with the team; for KVG its whole team (R298). -/
def State.copyTouch (s : State) (c : Cmd) : Option Nat × List (Nat × Nat) × List (Nat × Nat) :=
  let at' (x : Copy) : Option Nat :=
    s.targetTeam c.team x.d2
  match c.kind with
  | .cpLoad twoD => let x := c.copy twoD false; (at' x, [], x.ranges)
  | .cpFill twoD => let x := c.copy twoD true; (at' x, [], x.ranges)
  | .cpStore twoD => let x := c.copy twoD false; (at' x, x.ranges, [])
  | _ =>
    let all := [(0, 2 ^ 21)]
    (some c.team, all, all)

/-- Must a younger command of one copy engine wait for an older one (R298)? -/
def State.copyConflict (s : State) (old new : Cmd) : Bool :=
  let x := s.copyTouch old
  let y := s.copyTouch new
  !old.poison && !new.poison && x.1 == y.1 &&
    (overlaps x.2.1 y.2.2 || overlaps x.2.2 y.2.1 || overlaps x.2.2 y.2.2)

/-- A scratchpad as a command sees it among younger commands of its own queue: without their marks (R298, R339). -/
def Team.without (t : Team) (ids : List Nat) : Team := { t with marks := t.marks.filter fun m => !ids.contains m.2 }

/-- A run of a copy: the state, the first pending source word, and whether the line being written has been written
clean from its start. -/
structure CopyRun where
  s : State
  pend : Option Nat
  clean : Bool

/-- What a copy moves. -/
inductive CopyDir where
  | load | store | fill
  deriving DecidableEq, Repr

namespace State

/-- A read of n bytes of device memory by a command at DIE scope: bytes and poison, or the faulting code (R272). -/
def engRead (s : State) (c : Cmd) (a : DWord) (n : Nat) : Except (BitVec 8) (List Byte × Bool × State) :=
  match s.translate c.core (s.cmdPart c) .read a with
  | .error e => .error e
  | .ok pa =>
    .ok (s.dieRead c.die pa n, s.diePoison c.die (pa / 64), ((s.saw c.die (pa / 64)).fetchLine c.die (pa / 64)).engLink c pa)

/-- One word of a copy at device address `a` and scratchpad offset `o` of team `t`; none when the device access
fails. -/
def copyWord (c : Cmd) (dir : CopyDir) (fill : Word) (t : Nat) (a : DWord) (o : Nat) (r : CopyRun) : Option CopyRun :=
  match dir with
  | .fill => some { r with s := r.s.modTeam t fun x => x.engWord c.id (o / 4) ⟨fill, false⟩ }
  | .load => match r.s.engRead c a 4 with
    | .error _ => none
    | .ok (bs, p, s) => some { r with s := s.modTeam t fun x => x.engWord c.id (o / 4) ⟨BitVec.ofNat 32 (leNat bs), p⟩ }
  | .store =>
    match r.s.translate c.core (r.s.cmdPart c) .write a with
    | .error _ => none
    | .ok pa =>
      let view := (r.s.getTeam? t).map fun x =>
        (if t = c.team then x.recall c else x).without ((r.s.getCore c.core).cpQ.map (·.id))
      let pending := (view.map fun x => x.pending (o / 4)).getD false
      let x := (view.map fun x => x.spLoad (o / 4)).getD ⟨0, true⟩
      let s := r.s.peerWrite c.die pa (wordBytes x.val) (engAccess c pa)
      let clean := (r.clean || pa % 64 == 0) && !x.poison
      let s := if x.poison then s.dieSetPoison c.die (pa / 64) true
        else if clean && pa % 64 == 60 then s.dieSetPoison c.die (pa / 64) false else s
      some { s, pend := if pending && r.pend.isNone then some o else r.pend, clean }

/-- At most `k` words of a copy from its n-th word on, in row order and ascending in each row: the run, the number of words
moved by then, and the device address of an access that failed (R298). -/
def copyWords (c : Cmd) (dir : CopyDir) (x : Copy) (t : Nat) : Nat → Nat → CopyRun → CopyRun × Nat × Option DWord
  | 0, n, r => (r, n, none)
  | k + 1, n, r =>
    if x.rows * (x.rowb / 4) ≤ n then (r, n, none)
    else
      let row := n / (x.rowb / 4)
      let col := n % (x.rowb / 4)
      let a := x.dev + x.dstr * BitVec.ofNat 64 row + BitVec.ofNat 64 (4 * col)
      match copyWord c dir x.fill t a (d2Offset x.d2 + row * x.sstr + 4 * col)
          (if col = 0 then { r with clean := false } else r) with
      | none => (r, n, some a)
      | some r => copyWords c dir x t k (n + 1) r

/-- The copy engine of a core is busy for n cycles (R299). -/
def busyCopy (s : State) (core n : Nat) : State :=
  s.modCore core fun k => { k with cpFree := s.nowOf (64 * core) + n }

/-- ONE CYCLE OF CP on team `t`'s allocation: it moves at most 128 bytes (R298, R299), which weigh on the allowance as they
move (R460), and completes with its last word. -/
def runCopy (s : State) (c : Cmd) (dir : CopyDir) (x : Copy) (t : Nat) : State :=
  let size := s.spSize t
  if x.ranges.any fun r => decide (size < r.1 + r.2) then (s.removeCmd c.id).failCmd c (eBOUNDS, 0)
  else
    let z := copyWords c dir x t 32 c.steps ⟨s, c.err.map fun e => e.2.toNat, c.clean⟩
    let s := (z.1.s.debitCmd c ((4 * (z.2.1 - c.steps) + 63) / 64)).busyCopy c.core 1
    let err := z.1.pend.map fun o => (ePENDING, BitVec.ofNat 64 o)
    match z.2.2 with
    | some a => (s.removeCmd c.id).failCmd c (eCOPY, a)
    | none =>
      if x.rows * (x.rowb / 4) ≤ z.2.1 then (s.removeCmd c.id).complete c err
      else s.updateCmd { c with started := true, steps := z.2.1, err, clean := z.1.clean }

/-- The copy-engine command k of a core, if it may move bytes now. -/
def copyReady (s : State) (core k : Nat) : Option Cmd :=
  let q := (s.getCore core).cpQ
  if s.nowOf (64 * core) < (s.getCore core).cpFree then none
  else match startable q k with
    | none => none
    | some c => if (q.take k).any fun d => s.copyConflict d c then none else some c

end State

/-- CP's direction and dimension. -/
def CmdKind.copyDir : CmdKind → Option (CopyDir × Bool)
  | .cpLoad d => some (.load, d)
  | .cpStore d => some (.store, d)
  | .cpFill d => some (.fill, d)
  | _ => none

/-- CP_EXECUTION (R298, R299): a cycle of the k-th command of the copy engine's queue, once no older one stands in its way. -/
def execCpExecution (core k : Nat) (s : State) : Answer :=
  .next (match s.copyReady core k with
    | none => s
    | some c => match c.kind.copyDir with
      | none => s
      | some (dir, twoD) =>
        let x := c.copy twoD (dir == .fill)
        let out (e : EngFault) : State := ((s.settleStores c).removeCmd c.id).failCmd c e
        if c.poison then out (ePOISON, 0)
        else if x.bad then out (eCOPY, 0)
        else match s.spTeam c.team x.d2 with
          | .bad => out (eBOUNDS, 0)
          | .stalled => s
          | .here t => (s.settleStores c).runCopy c dir x t)

namespace State

/-- The copy engine's queue of a core is full (R292). -/
def cpFull (s : State) : Bool := decide (64 ≤ (s.getCore (coreOf s.cur.wid)).cpQ.length)

/-- A command enters the copy engine's queue. -/
def cpPush (c : Cmd) (s : State) : State := s.modCore c.core fun k => { k with cpQ := k.cpQ ++ [c] }

/-- CP at issue (R291, R297). -/
def copyAsk (s : State) (h : Hdr) (kind : CmdKind) (hb : Nat) (b : BitVec 6) (u : BitVec 3) : State :=
  s.askEngine h { cls := 0, kind, block := block hb 6, operands := [], bar := ecBar b, badBar := false,
                  guard := u.toNat, denied := false } cpFull Cmd.markCopy cpPush

end State

/-- CP.LOAD (R297, R298); `.STRM` orders nothing. -/
def execCpLoad (h : Hdr) (hb : BitVec 6) (w _ : BitVec 1) (b : BitVec 6) (u : BitVec 3) (s : State) : Answer :=
  .next (s.copyAsk h (.cpLoad (w == 1)) hb.toNat b u)

/-- CP.STORE (R297, R298). -/
def execCpStore (h : Hdr) (hb : BitVec 6) (w _ : BitVec 1) (b : BitVec 6) (u : BitVec 3) (s : State) : Answer :=
  .next (s.copyAsk h (.cpStore (w == 1)) hb.toNat b u)

/-- CP.FILL (R297, R298). -/
def execCpFill (h : Hdr) (hb : BitVec 6) (w _ : BitVec 1) (b : BitVec 6) (u : BitVec 3) (s : State) : Answer :=
  .next (s.copyAsk h (.cpFill (w == 1)) hb.toNat b u)

end Sys2Proof.Machine
end

