-- ==== Sys2Proof/Machine/Atomics.lean ====
section
/-! DEFINITION. The atomics of device memory and of the scratchpad (spec/10 R265-R271). -/

namespace Sys2Proof.Machine

/-- The operation of ATOM (R265). -/
def atomOpOf (p : Nat) : AtomOp :=
  match p with
  | 0 => .add
  | 1 => .minS
  | 2 => .maxS
  | 3 => .minN
  | 4 => .maxN
  | 5 => .andB
  | 6 => .orB
  | _ => .xorB

/-- The operation of ATOMX (R265). -/
def atomxOpOf (p : Nat) : AtomOp :=
  match p with
  | 0 => .exch
  | 1 => .cas
  | 2 => .faddF32
  | 3 => .faddF64
  | 4 => .fminF32
  | 5 => .fmaxF32
  | 6 => .add64
  | _ => .incw

/-- The operation of ATOMSP (R270). -/
def atomSpOpOf (f : Nat) : AtomOp :=
  if f < 8 then atomOpOf f else if f = 8 then .exch else if f = 9 then .cas else .faddF32

/-- Is the unit 8 bytes (R265)? -/
def AtomOp.wide (op : AtomOp) : Bool :=
  match op with
  | .faddF64 | .add64 => true
  | _ => false

/-- Does the operand register name a pair (R265)? -/
def AtomOp.pair (op : AtomOp) : Bool := op.wide || op == .cas

namespace State

/-- What lane i asks of an atomic, from operand register A (R265, R267). -/
def atomLane (s : State) (op : AtomOp) (a i : Nat) : AtomLane :=
  let lo := ((s.rd a).lane i).val
  let hi := ((s.rd (a + 1)).lane i).val
  if op.wide then ⟨i, hi ++ lo, 0⟩
  else ⟨i, lo.zeroExtend 64, if op = .cas then hi.zeroExtend 64 else 0⟩

/-- Registers that the operand field names. -/
def atomRegs (op : AtomOp) (a : Nat) : List Nat := if op.pair then [a, a + 1] else [a]

/-- The results of an atomic, before it is performed: V, but on a management core, for its one lane, U (R29, R269). -/
def atomResults (s : State) (op : AtomOp) (d : Nat) : List Res :=
  let z := if isMgmt s.cur.wid && s.act == 1 then Shaped.zero else vLanes s.width fun _ => ⟨0, false⟩
  if op.wide then [s.res d z, s.res (d + 1) z] else [s.res d z]

/-- The checks of a device atomic, and its lanes by unit (R267). -/
def atomUnits (s : State) (op : AtomOp) (o a : Nat) : Except Stop (List (Nat × List AtomLane)) :=
  let n := if op.wide then 8 else 4
  let as := s.actLanes.map fun i => (i, pairLane (s.rd (2 * o)) (s.rd (2 * o + 1)) i)
  match s.noPoison ([2 * o, 2 * o + 1] ++ atomRegs op a) as with
  | .error e => .error e
  | .ok _ => match aligned as n with
    | .error e => .error e
    | .ok _ => match s.placeAll .readWrite n as with
      | .error e => .error e
      | .ok ps =>
        let at' := ps.filterMap fun p => match p.2 with
          | .mem pa => some (p.1, pa)
          | .win _ => none
        .ok (((at'.map (·.2)).eraseDups).map fun pa =>
          (pa, (at'.filter fun x => x.2 == pa).map fun x => s.atomLane op a x.1))

/-- An atomic on device memory (R267-R269): it enters the warp's store queue; with an acquire it is waited for. -/
def atomStep (h : Hdr) (op : AtomOp) (d o a : Nat) (scope ord : Nat) (s : State) : State :=
  let lines := match s.atomUnits op o a with
    | .ok us => (us.map fun u => u.1 / 64).eraseDups
    | .error _ => []
  s.whenTaken 0 (finStep h .atomic 1 (2 * o :: (2 * o + 1) :: atomRegs op a) (fun s => match s.atomUnits op o a with
    | .error e => .error e
    | .ok us =>
      let rs := s.atomResults op d
      let first := s.fresh + us.length
      let ids := (List.range rs.length).map (first + ·)
      let size := if op.wide then 8 else 4
      let ops := us.map fun u => StoreOp.atom op (decide (2 ≤ ord)) scope u.1 size u.2 ids
      .ok (rs, (s.queueStores s.cur.wid ops).usePath us.length us.length))
    (fun t => if ord = 1 ∨ ord = 3 then (t.drainAll t.cur.wid).acquireAt scope lines else t))

/-- The checks of ATOMSP, and its lanes by word offset (R271). -/
def atomSpUnits (s : State) (op : AtomOp) (o b : Nat) : Except Stop (List (Nat × List AtomLane)) :=
  let as := s.offAddrs o s.actLanes
  match s.noPoison (o :: atomRegs op b) as with
  | .error e => .error e
  | .ok _ => match aligned as 4 with
    | .error e => .error e
    | .ok _ =>
      if as.any fun e => decide (s.spSize s.w.team < e.2.toNat + 4) then .error (s.trapAct cPERM)
      else .ok (((as.map (·.2.toNat)).eraseDups).map fun off =>
        (off, (as.filter fun x => x.2.toNat == off).map fun x => s.atomLane op b x.1))

end State

/-- ATOM (R265-R269). -/
def execAtom (h : Hdr) (d o a : BitVec 5) (p : BitVec 3) (c r : BitVec 2) (s : State) : Answer :=
  .next (s.atomStep h (atomOpOf p.toNat) d.toNat o.toNat a.toNat (c.toNat + 1) r.toNat)

/-- ATOMX (R265-R269). -/
def execAtomx (h : Hdr) (d o a : BitVec 5) (p : BitVec 3) (c r : BitVec 2) (s : State) : Answer :=
  .next (s.atomStep h (atomxOpOf p.toNat) d.toNat o.toNat a.toNat (c.toNat + 1) r.toNat)

/-- ATOMSP (R271): the words' operations enter the warp's store queue. -/
def execAtomsp (h : Hdr) (d a b : BitVec 6) (f : BitVec 4) (s : State) : Answer :=
  let op := atomSpOpOf f.toNat
  .next (
    s.whenTaken 0 <| State.effStep h .atomic 1 (a.toNat :: State.atomRegs op b.toNat) fun s =>
      match s.atomSpUnits op a.toNat b.toNat with
      | .error e => .error e
      | .ok us =>
        let ids := [s.fresh + us.length]
        let ops := us.map fun u => StoreOp.atomSp op s.w.team u.1 u.2 ids
        let as := (s.offAddrs a.toNat s.actLanes).map fun e => (0, e)
        .ok (s.atomResults op d.toNat, (s.queueStores s.cur.wid ops).usePath (bankCycles as 4) 1))

end Sys2Proof.Machine
end

