-- ==== Sys2Proof/Machine/Flags.lean ====
section
/-! DEFINITION. Conditions and exceptions: the integer conditions of R164 and R165, and the floating-point exceptions
that FMT.TEN turns into FPX (R202, R203). The part has no sticky flags. -/

namespace Sys2Proof.Machine

/-- The conditions of CMP, by FN: EQ, NE, LT.S, LE.S, GT.S, GE.S, LT.N, LE.N, GT.N, GE.N (R164). -/
def cmpCond (cond : Nat) (a b : Word) : Bool :=
  match cond with
  | 0 => a == b
  | 1 => a != b
  | 2 => decide (a.toInt < b.toInt)
  | 3 => decide (a.toInt ≤ b.toInt)
  | 4 => decide (b.toInt < a.toInt)
  | 5 => decide (b.toInt ≤ a.toInt)
  | 6 => decide (a.toNat < b.toNat)
  | 7 => decide (a.toNat ≤ b.toNat)
  | 8 => decide (b.toNat < a.toNat)
  | _ => decide (b.toNat ≤ a.toNat)

/-- The CMP condition that CMPI's field names (R165). -/
def cmpiCond (c : Nat) : Nat := if c = 7 then 9 else c

/-- The combine field: set, AND, OR (R164). -/
def combine (m : Nat) (old c : Bool) : Bool :=
  match m with
  | 1 => old && c
  | 2 => old || c
  | _ => c

/-- The trap of R203: lanes of `act` whose exceptions meet TEN. -/
def fpxStop (fmt : BitVec 17) (act : LaneSet) (exc : Nat → FExc) : Option TrapInfo :=
  let ten := tenOf fmt
  let lanes := (LaneSet.toList act).filter fun i => exc i &&& ten ≠ 0
  if lanes.isEmpty then none
  else some { cause := cFPX, sub := 0, flanes := LaneSet.ofList lanes, faddr := 0, skip := 0,
              fpxc := lanes.foldl (fun e i => e ||| exc i) 0, engClass := 0, engLeft := 0 }

/-- Results unless an enabled exception traps (R203), which shows once the unit has computed them. -/
def orFpx (s : State) (exc : Nat → FExc) (rs : List Res) : Except Stop (List Res) :=
  match fpxStop s.fmt s.act exc with
  | some e => .error (.after e rs)
  | none => .ok rs

/-- An F32 operation on words. -/
def wordOp (r : FRes) : Word := BitVec.ofNat 32 r.1
/-- An F64 operation on pairs. -/
def dwordOp (r : FRes) : DWord := BitVec.ofNat 64 r.1

/-- Exceptions of a lane; when every source is U those of the one computation (R203). -/
def excAt (srcs : List Shaped) (f : Nat → FRes) (i : Nat) : FExc := if allU srcs then (f 0).2 else (f i).2

/-- A one-register float result with its trap check (R203, R207). -/
def floatRes (s : State) (d : Nat) (srcs : List Shaped) (f : Nat → FRes) : Except Stop (List Res) :=
  orFpx s (excAt srcs f) [s.res d (byLane s.width srcs fun i => wordOp (f i))]

/-- An F64 result in the pair d, d+1. -/
def floatRes64 (s : State) (d : Nat) (srcs : List Shaped) (f : Nat → FRes) : Except Stop (List Res) :=
  let x := pairBy s.width srcs fun i => dwordOp (f i)
  orFpx s (excAt srcs f) [s.res d x.1, s.res (d + 1) x.2]

end Sys2Proof.Machine
end

