-- ==== Sys2Proof/Machine/Integer.lean ====
section
/-! DEFINITION. Integer, bit-field, 64-bit, compare, select and predicate instructions (spec/06, majors 0x10-0x1F). -/

namespace Sys2Proof.Machine

/-! ## Word operations (R156-R160) -/

/-- Bits 63:32 of the signed, and of the unsigned, product. -/
def mulhSigned (a b : Word) : Word := BitVec.ofInt 32 (a.toInt * b.toInt / 2 ^ 32)
def mulhPlain (a b : Word) : Word := BitVec.ofNat 32 (a.toNat * b.toNat / 2 ^ 32)

/-- An integer clamped to a range. -/
def clampTo (lo hi v : Int) : Int := if v < lo then lo else if hi < v then hi else v

def clampSigned (v : Int) : Word := BitVec.ofInt 32 (clampTo (-2147483648) 2147483647 v)
def clampPlain (v : Int) : Word := BitVec.ofInt 32 (clampTo 0 4294967295 v)

/-- abs(S(a) - S(b)). -/
def absDiff (a b : Word) : Word := BitVec.ofNat 32 (a.toInt - b.toInt).natAbs

/-- Signed byte k of a word. -/
def sbyte (a : Word) (k : Nat) : Int := (a.extractLsb' (8 * k) 8).toInt

/-- The sum of four signed byte products. -/
def dot4 (a b : Word) : Word :=
  BitVec.ofInt 32 (sbyte a 0 * sbyte b 0 + sbyte a 1 * sbyte b 1 + sbyte a 2 * sbyte b 2 + sbyte a 3 * sbyte b 3)

/-- Quotients and remainders of R157, with IDZ 0 for a zero divisor. -/
def divSigned (a b : Word) : Word := if b = 0 then BitVec.allOnes 32 else BitVec.ofInt 32 (a.toInt.tdiv b.toInt)
def remSigned (a b : Word) : Word := if b = 0 then a else BitVec.ofInt 32 (a.toInt.tmod b.toInt)
def divPlain (a b : Word) : Word := if b = 0 then BitVec.allOnes 32 else a / b
def remPlain (a b : Word) : Word := if b = 0 then a else a % b

def minSigned (a b : Word) : Word := if b.toInt < a.toInt then b else a
def maxSigned (a b : Word) : Word := if a.toInt < b.toInt then b else a
def minPlain (a b : Word) : Word := if b.toNat < a.toNat then b else a
def maxPlain (a b : Word) : Word := if a.toNat < b.toNat then b else a

/-- Leading zero bits. -/
def leadingZeros (a : Word) : Word := BitVec.ofNat 32 (if a = 0 then 32 else 31 - a.toNat.log2)
/-- Set bits. -/
def countOnes (a : Word) : Word := BitVec.ofNat 32 ((List.range 32).filter fun i => a.getLsbD i).length
/-- abs(S(a)) mod 2^32. -/
def absWord (a : Word) : Word := if a.toInt < 0 then 0 - a else a

/-- Position and effective length of a field control word (R160). -/
def fieldPos (c : Word) : Nat := c.toNat % 32
def fieldLen (c : Word) : Nat := min (c.toNat / 256 % 64) (32 - fieldPos c)
def fieldMask (n : Nat) : Word := BitVec.ofNat 32 (2 ^ n - 1)

def bfePlain (a c : Word) : Word := (a >>> fieldPos c) &&& fieldMask (fieldLen c)
def bfeSigned (a c : Word) : Word :=
  let v := bfePlain a c
  let n := fieldLen c
  if n = 0 then 0 else if v.getLsbD (n - 1) then v ||| ~~~(fieldMask n) else v
def bfiWord (a f c : Word) : Word :=
  let m := fieldMask (fieldLen c) <<< fieldPos c
  (a &&& ~~~m) ||| ((f <<< fieldPos c) &&& m)

/-- One result byte of PRMT (R160). -/
def prmtByte (a f : Word) (e : BitVec 8) : BitVec 8 :=
  let k := (e.extractLsb' 1 2).toNat
  let v := (if e.getLsbD 0 then f else a).extractLsb' (8 * k) 8
  match (e.extractLsb' 3 2).toNat with
  | 0 => v
  | 1 => 0x00
  | 2 => 0xFF
  | _ => v.reverse

def prmtWord (a f c : Word) : Word :=
  prmtByte a f (c.extractLsb' 24 8) ++ prmtByte a f (c.extractLsb' 16 8) ++
    prmtByte a f (c.extractLsb' 8 8) ++ prmtByte a f (c.extractLsb' 0 8)

/-! ## Shared forms -/

/-- A two-source word operation with the shapes of `g` (R71). -/
def State.wordStep (h : Hdr) (g : Nat → Shaped → Shaped → Shaped) (d a b : Nat) (s : State) : State :=
  s.regStep h (.alu 2 4 1) [a, b] fun s => .ok [s.res d (g s.width (s.rd a) (s.rd b))]

/-- A one-source word operation: U from U, otherwise V. -/
def State.unaryStep (h : Hdr) (f : Word → Word) (d a : Nat) (s : State) : State :=
  s.regStep h (.alu 2 4 1) [a] fun s => .ok [s.res d (map1 s.width f (s.rd a))]

/-- The Other integer row of R71: U from U and U, otherwise V. -/
def plainShape (f : Word → Word → Word) (wd : Nat) (x y : Shaped) : Shaped := map2 wd f x y

/-- Divide and remainder, with IDIV0 when FMT.IDZ is 1 (R157), once the unit has the sources. -/
def State.divStep (h : Hdr) (f : Word → Word → Word) (d a b : Nat) (s : State) : State :=
  s.regStep h (.alu 24 24 1) [a, b] fun s =>
    let y := s.rd b
    let zero := (LaneSet.toList s.act).filter fun i => (y.lane i).val == 0
    let rs := [s.res d (map2 s.width f (s.rd a) y)]
    if s.fmt.getLsbD 16 && !zero.isEmpty then .error (.after (TrapInfo.at cIDIV0 (LaneSet.ofList zero) 0) rs)
    else .ok rs

/-- An immediate form (R163). -/
def State.immStep (h : Hdr) (g : Nat → Shaped → Shaped → Shaped) (d a : Nat) (i : Shaped) (s : State) : State :=
  s.regStep h (.alu 2 4 1) [a] fun s => .ok [s.res d (g s.width (s.rd a) i)]

/-- A 64-bit result from pairs or words (R161, R162). -/
def State.pairStep (h : Hdr) (d : Nat) (srcs : List Nat) (f : State → Nat → DWord) (s : State) : State :=
  s.regStep h (.alu 2 4 1) srcs fun s =>
    let x := pairBy s.width (srcs.map s.rd) (f s)
    .ok [s.res d x.1, s.res (d + 1) x.2]

/-- Lane i of a pair, and of a word, as the instruction reads them. -/
def State.pairAt (s : State) (n i : Nat) : DWord := pairLane (s.rd n) (s.rd (n + 1)) i
def State.wordAt (s : State) (n i : Nat) : Word := ((s.rd n).lane i).val

/-- 64-bit shifts by a whole word (R161). -/
def shl64By (x : DWord) (b : Word) : DWord := if 64 ≤ b.toNat then 0 else x <<< b.toNat
def shr64By (x : DWord) (b : Word) : DWord := if 64 ≤ b.toNat then 0 else x >>> b.toNat
def sar64By (x : DWord) (b : Word) : DWord := x.sshiftRight (min b.toNat 64)

/-- A predicate operation (R167). -/
def State.predStep (h : Hdr) (f : Bool → Bool → Bool) (d a b : Nat) (s : State) : State :=
  s.regStep h (.alu 2 4 1) [] fun s =>
    let x := s.rdp a
    let y := s.rdp b
    .ok [s.resP d (predBy [] [x, y] fun i => f (x.lane i) (y.lane i))]

/-! ## IAR (R156, R157) -/

/-- ADD: (a + b) mod 2^32 (R156). -/
def execAddW (h : Hdr) (d a b : BitVec 6) (s : State) : Answer :=
  .next (s.wordStep h addShaped d.toNat a.toNat b.toNat)

/-- SUB: (a - b) mod 2^32 (R156). -/
def execSubW (h : Hdr) (d a b : BitVec 6) (s : State) : Answer :=
  .next (s.wordStep h subShaped d.toNat a.toNat b.toNat)

/-- MUL: (a × b) mod 2^32 (R156). -/
def execMulW (h : Hdr) (d a b : BitVec 6) (s : State) : Answer :=
  .next (s.wordStep h mulShaped d.toNat a.toNat b.toNat)

/-- MULH.S: the high half of the signed product (R156). -/
def execMulhS (h : Hdr) (d a b : BitVec 6) (s : State) : Answer :=
  .next (s.wordStep h (plainShape mulhSigned) d.toNat a.toNat b.toNat)

/-- MULH.N: the high half of the unsigned product (R156). -/
def execMulhN (h : Hdr) (d a b : BitVec 6) (s : State) : Answer :=
  .next (s.wordStep h (plainShape mulhPlain) d.toNat a.toNat b.toNat)

/-- MAD: (a × b + d) mod 2^32, with the Add row applied to the Scale result and D (R71, R156). -/
def execMad (h : Hdr) (d a b : BitVec 6) (s : State) : Answer :=
  .next (s.regStep h (.alu 2 4 1) [a.toNat, b.toNat, d.toNat] fun s =>
    let x := s.rd a.toNat
    let y := s.rd b.toNat
    let z := s.rd d.toNat
    .ok [s.res d.toNat (addShaped s.width (mulShaped s.width x y) z)])

/-- ADDS.S: the signed sum, clamped (R156). -/
def execAddsS (h : Hdr) (d a b : BitVec 6) (s : State) : Answer :=
  .next (s.wordStep h (plainShape fun a b => clampSigned (a.toInt + b.toInt)) d.toNat a.toNat b.toNat)

/-- ADDS.N: the unsigned sum, clamped (R156). -/
def execAddsN (h : Hdr) (d a b : BitVec 6) (s : State) : Answer :=
  .next (s.wordStep h (plainShape fun a b => clampPlain ((a.toNat : Int) + b.toNat)) d.toNat a.toNat b.toNat)

/-- SUBS.S: the signed difference, clamped (R156). -/
def execSubsS (h : Hdr) (d a b : BitVec 6) (s : State) : Answer :=
  .next (s.wordStep h (plainShape fun a b => clampSigned (a.toInt - b.toInt)) d.toNat a.toNat b.toNat)

/-- SUBS.N: the unsigned difference, clamped (R156). -/
def execSubsN (h : Hdr) (d a b : BitVec 6) (s : State) : Answer :=
  .next (s.wordStep h (plainShape fun a b => clampPlain ((a.toNat : Int) - b.toNat)) d.toNat a.toNat b.toNat)

/-- ABSD: the absolute signed difference (R156). -/
def execAbsd (h : Hdr) (d a b : BitVec 6) (s : State) : Answer :=
  .next (s.wordStep h (plainShape absDiff) d.toNat a.toNat b.toNat)

/-- DIV.S (R157). -/
def execDivS (h : Hdr) (d a b : BitVec 6) (s : State) : Answer :=
  .next (s.divStep h divSigned d.toNat a.toNat b.toNat)

/-- DIV.N (R157). -/
def execDivN (h : Hdr) (d a b : BitVec 6) (s : State) : Answer :=
  .next (s.divStep h divPlain d.toNat a.toNat b.toNat)

/-- REM.S (R157). -/
def execRemS (h : Hdr) (d a b : BitVec 6) (s : State) : Answer :=
  .next (s.divStep h remSigned d.toNat a.toNat b.toNat)

/-- REM.N (R157). -/
def execRemN (h : Hdr) (d a b : BitVec 6) (s : State) : Answer :=
  .next (s.divStep h remPlain d.toNat a.toNat b.toNat)

/-- DP4: the sum of four signed byte products (R156). -/
def execDp4 (h : Hdr) (d a b : BitVec 6) (s : State) : Answer :=
  .next (s.wordStep h (plainShape dot4) d.toNat a.toNat b.toNat)

/-! ## ILG (R158) -/

/-- AND (R158). -/
def execAndW (h : Hdr) (d a b : BitVec 6) (s : State) : Answer :=
  .next (s.wordStep h (plainShape fun a b => a &&& b) d.toNat a.toNat b.toNat)

/-- OR (R158). -/
def execOrW (h : Hdr) (d a b : BitVec 6) (s : State) : Answer :=
  .next (s.wordStep h (plainShape fun a b => a ||| b) d.toNat a.toNat b.toNat)

/-- XOR (R158). -/
def execXorW (h : Hdr) (d a b : BitVec 6) (s : State) : Answer :=
  .next (s.wordStep h (plainShape fun a b => a ^^^ b) d.toNat a.toNat b.toNat)

/-- ANDN: a & ~b (R158). -/
def execAndn (h : Hdr) (d a b : BitVec 6) (s : State) : Answer :=
  .next (s.wordStep h (plainShape fun a b => a &&& ~~~b) d.toNat a.toNat b.toNat)

/-- SHL (R158). -/
def execShlW (h : Hdr) (d a b : BitVec 6) (s : State) : Answer :=
  .next (s.wordStep h shlShaped d.toNat a.toNat b.toNat)

/-- SHR (R158). -/
def execShrW (h : Hdr) (d a b : BitVec 6) (s : State) : Answer :=
  .next (s.wordStep h (plainShape shrWord) d.toNat a.toNat b.toNat)

/-- SAR (R158). -/
def execSarW (h : Hdr) (d a b : BitVec 6) (s : State) : Answer :=
  .next (s.wordStep h (plainShape sarWord) d.toNat a.toNat b.toNat)

/-- ROTL: rotate left by b mod 32 (R158). -/
def execRotl (h : Hdr) (d a b : BitVec 6) (s : State) : Answer :=
  .next (s.wordStep h (plainShape fun a b => a.rotateLeft (b.toNat % 32)) d.toNat a.toNat b.toNat)

/-- MIN.S (R158). -/
def execMinS (h : Hdr) (d a b : BitVec 6) (s : State) : Answer :=
  .next (s.wordStep h (plainShape minSigned) d.toNat a.toNat b.toNat)

/-- MAX.S (R158). -/
def execMaxS (h : Hdr) (d a b : BitVec 6) (s : State) : Answer :=
  .next (s.wordStep h (plainShape maxSigned) d.toNat a.toNat b.toNat)

/-- MIN.N (R158). -/
def execMinN (h : Hdr) (d a b : BitVec 6) (s : State) : Answer :=
  .next (s.wordStep h (plainShape minPlain) d.toNat a.toNat b.toNat)

/-- MAX.N (R158). -/
def execMaxN (h : Hdr) (d a b : BitVec 6) (s : State) : Answer :=
  .next (s.wordStep h (plainShape maxPlain) d.toNat a.toNat b.toNat)

/-- CLZ: leading zero bits (R158). -/
def execClz (h : Hdr) (d a : BitVec 6) (s : State) : Answer :=
  .next (s.unaryStep h leadingZeros d.toNat a.toNat)

/-- POPC: set bits (R158). -/
def execPopc (h : Hdr) (d a : BitVec 6) (s : State) : Answer :=
  .next (s.unaryStep h countOnes d.toNat a.toNat)

/-- BREV: bit k to bit 31 - k (R158). -/
def execBrev (h : Hdr) (d a : BitVec 6) (s : State) : Answer :=
  .next (s.unaryStep h (fun a => a.reverse) d.toNat a.toNat)

/-- ABS.S (R158). -/
def execAbsS (h : Hdr) (d a : BitVec 6) (s : State) : Answer :=
  .next (s.unaryStep h absWord d.toNat a.toNat)

/-! ## 16-bit forms: D is the first source (R42) -/

/-- ADD, 16-bit (R42). -/
def execAdd16 (sw : Bool) (d a : BitVec 5) (s : State) : Answer :=
  .next (s.wordStep (hdr16 sw) addShaped d.toNat d.toNat a.toNat)

/-- SUB, 16-bit (R42). -/
def execSub16 (sw : Bool) (d a : BitVec 5) (s : State) : Answer :=
  .next (s.wordStep (hdr16 sw) subShaped d.toNat d.toNat a.toNat)

/-- MUL, 16-bit (R42). -/
def execMul16 (sw : Bool) (d a : BitVec 5) (s : State) : Answer :=
  .next (s.wordStep (hdr16 sw) mulShaped d.toNat d.toNat a.toNat)

/-- AND, 16-bit (R42). -/
def execAnd16 (sw : Bool) (d a : BitVec 5) (s : State) : Answer :=
  .next (s.wordStep (hdr16 sw) (plainShape fun a b => a &&& b) d.toNat d.toNat a.toNat)

/-- OR, 16-bit (R42). -/
def execOr16 (sw : Bool) (d a : BitVec 5) (s : State) : Answer :=
  .next (s.wordStep (hdr16 sw) (plainShape fun a b => a ||| b) d.toNat d.toNat a.toNat)

/-- XOR, 16-bit (R42). -/
def execXor16 (sw : Bool) (d a : BitVec 5) (s : State) : Answer :=
  .next (s.wordStep (hdr16 sw) (plainShape fun a b => a ^^^ b) d.toNat d.toNat a.toNat)

/-- SHL, 16-bit (R42). -/
def execShl16 (sw : Bool) (d a : BitVec 5) (s : State) : Answer :=
  .next (s.wordStep (hdr16 sw) shlShaped d.toNat d.toNat a.toNat)

/-- SHR, 16-bit (R42). -/
def execShr16 (sw : Bool) (d a : BitVec 5) (s : State) : Answer :=
  .next (s.wordStep (hdr16 sw) (plainShape shrWord) d.toNat d.toNat a.toNat)

/-- SAR, 16-bit (R42). -/
def execSar16 (sw : Bool) (d a : BitVec 5) (s : State) : Answer :=
  .next (s.wordStep (hdr16 sw) (plainShape sarWord) d.toNat d.toNat a.toNat)

/-- MIN.S, 16-bit (R42). -/
def execMinS16 (sw : Bool) (d a : BitVec 5) (s : State) : Answer :=
  .next (s.wordStep (hdr16 sw) (plainShape minSigned) d.toNat d.toNat a.toNat)

/-- MAX.S, 16-bit (R42). -/
def execMaxS16 (sw : Bool) (d a : BitVec 5) (s : State) : Answer :=
  .next (s.wordStep (hdr16 sw) (plainShape maxSigned) d.toNat d.toNat a.toNat)

/-! ## BITF (R160) -/

/-- BFE.N (R160). -/
def execBfeN (h : Hdr) (d a b : BitVec 6) (s : State) : Answer :=
  .next (s.wordStep h (plainShape bfePlain) d.toNat a.toNat b.toNat)

/-- BFE.S (R160). -/
def execBfeS (h : Hdr) (d a b : BitVec 6) (s : State) : Answer :=
  .next (s.wordStep h (plainShape bfeSigned) d.toNat a.toNat b.toNat)

/-- BFI: the field of w(B) under the control word in w(B+1) (R160). -/
def execBfi (h : Hdr) (d a b : BitVec 6) (s : State) : Answer :=
  .next (s.regStep h (.alu 2 4 1) [a.toNat, b.toNat, b.toNat + 1] fun s =>
    .ok [s.res d.toNat (map3 s.width bfiWord (s.rd a.toNat) (s.rd b.toNat) (s.rd (b.toNat + 1)))])

/-- PRMT: bytes of A and w(B) as the control word in w(B+1) steers (R160). -/
def execPrmt (h : Hdr) (d a b : BitVec 6) (s : State) : Answer :=
  .next (s.regStep h (.alu 2 4 1) [a.toNat, b.toNat, b.toNat + 1] fun s =>
    .ok [s.res d.toNat (map3 s.width prmtWord (s.rd a.toNat) (s.rd b.toNat) (s.rd (b.toNat + 1)))])

/-! ## I64 (R161, R162) -/

/-- ADD.64 (R161). -/
def execAdd64 (h : Hdr) (d a b : BitVec 6) (s : State) : Answer :=
  .next (s.pairStep h d.toNat [a.toNat, a.toNat + 1, b.toNat, b.toNat + 1] fun s i => s.pairAt a.toNat i + s.pairAt b.toNat i)

/-- SUB.64 (R161). -/
def execSub64 (h : Hdr) (d a b : BitVec 6) (s : State) : Answer :=
  .next (s.pairStep h d.toNat [a.toNat, a.toNat + 1, b.toNat, b.toNat + 1] fun s i => s.pairAt a.toNat i - s.pairAt b.toNat i)

/-- MULW.S: the exact signed product (R161). -/
def execMulwS (h : Hdr) (d a b : BitVec 6) (s : State) : Answer :=
  .next (s.pairStep h d.toNat [a.toNat, b.toNat] fun s i => BitVec.ofInt 64 ((s.wordAt a.toNat i).toInt * (s.wordAt b.toNat i).toInt))

/-- MULW.N: the exact unsigned product (R161). -/
def execMulwN (h : Hdr) (d a b : BitVec 6) (s : State) : Answer :=
  .next (s.pairStep h d.toNat [a.toNat, b.toNat] fun s i => BitVec.ofNat 64 ((s.wordAt a.toNat i).toNat * (s.wordAt b.toNat i).toNat))

/-- SHL.64 (R161). -/
def execShl64 (h : Hdr) (d a b : BitVec 6) (s : State) : Answer :=
  .next (s.pairStep h d.toNat [a.toNat, a.toNat + 1, b.toNat] fun s i => shl64By (s.pairAt a.toNat i) (s.wordAt b.toNat i))

/-- SHR.64 (R161). -/
def execShr64 (h : Hdr) (d a b : BitVec 6) (s : State) : Answer :=
  .next (s.pairStep h d.toNat [a.toNat, a.toNat + 1, b.toNat] fun s i => shr64By (s.pairAt a.toNat i) (s.wordAt b.toNat i))

/-- SAR.64 (R161). -/
def execSar64 (h : Hdr) (d a b : BitVec 6) (s : State) : Answer :=
  .next (s.pairStep h d.toNat [a.toNat, a.toNat + 1, b.toNat] fun s i => sar64By (s.pairAt a.toNat i) (s.wordAt b.toNat i))

/-- MADW.N: the product plus the pair D, which is a source (R161). -/
def execMadwN (h : Hdr) (d a b : BitVec 6) (s : State) : Answer :=
  .next (s.pairStep h d.toNat [a.toNat, b.toNat, d.toNat, d.toNat + 1] fun s i => 
    BitVec.ofNat 64 ((s.wordAt a.toNat i).toNat * (s.wordAt b.toNat i).toNat) + s.pairAt d.toNat i)

/-! ## Immediates (R163) -/

/-- ADDI (R163). -/
def execAddi (h : Hdr) (d a : BitVec 6) (i : BitVec 10) (s : State) : Answer :=
  .next (s.immStep h addShaped d.toNat a.toNat (immU i))

/-- MULI (R163). -/
def execMuli (h : Hdr) (d a : BitVec 6) (i : BitVec 10) (s : State) : Answer :=
  .next (s.immStep h mulShaped d.toNat a.toNat (immU i))

/-- ANDI (R163). -/
def execAndi (h : Hdr) (d a : BitVec 6) (i : BitVec 10) (s : State) : Answer :=
  .next (s.immStep h (plainShape fun a b => a &&& b) d.toNat a.toNat (immU i))

/-- ORI (R163). -/
def execOri (h : Hdr) (d a : BitVec 6) (i : BitVec 10) (s : State) : Answer :=
  .next (s.immStep h (plainShape fun a b => a ||| b) d.toNat a.toNat (immU i))

/-- XORI (R163). -/
def execXori (h : Hdr) (d a : BitVec 6) (i : BitVec 10) (s : State) : Answer :=
  .next (s.immStep h (plainShape fun a b => a ^^^ b) d.toNat a.toNat (immU i))

/-- SHLI (R163). -/
def execShli (h : Hdr) (d a : BitVec 6) (n : BitVec 5) (s : State) : Answer :=
  .next (s.immStep h shlShaped d.toNat a.toNat (.u (n.zeroExtend 32) false))

/-- SHRI (R163). -/
def execShri (h : Hdr) (d a : BitVec 6) (n : BitVec 5) (s : State) : Answer :=
  .next (s.immStep h (plainShape shrWord) d.toNat a.toNat (.u (n.zeroExtend 32) false))

/-- SARI (R163). -/
def execSari (h : Hdr) (d a : BitVec 6) (n : BitVec 5) (s : State) : Answer :=
  .next (s.immStep h (plainShape sarWord) d.toNat a.toNat (.u (n.zeroExtend 32) false))

/-! ## Compares, select, predicates (R164-R167) -/

/-- A compare into predicate p with a combine (R164). -/
def State.cmpStep (h : Hdr) (cond p m : Nat) (srcs : List Nat) (y : State → Shaped) (a : Nat) (s : State) : State :=
  s.regStep h (.alu 2 4 1) srcs fun s =>
    let x := s.rd a
    let y := y s
    let q := s.rdp p
    let preds := if m = 1 ∨ m = 2 then [q] else []
    .ok [s.resP p (predBy [x, y] preds fun i => combine m (q.lane i) (cmpCond cond (x.lane i).val (y.lane i).val))]

/-- CMP (R164). -/
def execCmp (h : Hdr) (p m : BitVec 3) (a b : BitVec 6) (f : BitVec 4) (s : State) : Answer :=
  .next (s.cmpStep h f.toNat p.toNat m.toNat [a.toNat, b.toNat] (fun s => s.rd b.toNat) a.toNat)

/-- CMPI (R165): always sets; the immediate is sign-extended, then compared as a word. -/
def execCmpi (h : Hdr) (p c : BitVec 3) (a : BitVec 6) (i : BitVec 10) (s : State) : Answer :=
  .next (s.cmpStep h (cmpiCond c.toNat) p.toNat 0 [a.toNat] (fun _ => immU i) a.toNat)

/-- SEL (R166): value and poison of the selected source alone; under a U predicate its shape too, where the table of R71 gives V
when either source is V (DESIGN CHOICE, log 69: the entry of the instruction is followed). -/
def execSel (h : Hdr) (d a b : BitVec 6) (p : BitVec 3) (n : BitVec 1) (s : State) : Answer :=
  .next (s.regStep h (.alu 2 4 1) [a.toNat, b.toNat] fun s =>
    let x := s.rd a.toNat
    let y := s.rd b.toNat
    let neg := n == 1
    .ok [s.res d.toNat (match s.rdp p.toNat with
      | .u c => if c ^^ neg then x else y
      | .v m => vLanes s.width fun i => if m.getLsbD i ^^ neg then x.lane i else y.lane i)])

/-- PAND (R167). -/
def execPand (h : Hdr) (d a b : BitVec 6) (s : State) : Answer :=
  .next (s.predStep h (fun x y => x && y) d.toNat a.toNat b.toNat)

/-- POR (R167). -/
def execPor (h : Hdr) (d a b : BitVec 6) (s : State) : Answer :=
  .next (s.predStep h (fun x y => x || y) d.toNat a.toNat b.toNat)

/-- PXOR (R167). -/
def execPxor (h : Hdr) (d a b : BitVec 6) (s : State) : Answer :=
  .next (s.predStep h (fun x y => x ^^ y) d.toNat a.toNat b.toNat)

/-- PANDN (R167). -/
def execPandn (h : Hdr) (d a b : BitVec 6) (s : State) : Answer :=
  .next (s.predStep h (fun x y => x && !y) d.toNat a.toNat b.toNat)

/-- PTOW (R167): 1 or 0 per lane, no poison. -/
def execPtow (h : Hdr) (d a : BitVec 6) (s : State) : Answer :=
  .next (s.regStep h (.alu 2 4 1) [] fun s =>
    .ok [s.res d.toNat (match s.rdp a.toNat with
      | .u c => .u (if c then 1 else 0) false
      | .v m => vLanes s.width fun i => ⟨if m.getLsbD i then 1 else 0, false⟩)])

/-- WTOP (R167): the word is not 0; poison is ignored. -/
def execWtop (h : Hdr) (d a : BitVec 6) (s : State) : Answer :=
  .next (s.regStep h (.alu 2 4 1) [a.toNat] fun s =>
    let x := s.rd a.toNat
    .ok [s.resP d.toNat (predBy [x] [] fun i => (x.lane i).val != 0)])

end Sys2Proof.Machine
end

