-- ==== Sys2Proof/Machine/CrossLane.lean ====
section
/-! DEFINITION. Shuffle, vote, reductions and prefix sums (spec/06 R168-R174). -/

namespace Sys2Proof.Machine

/-- The tile width T that PART gives (R68, R168). -/
def tileWidth (wide64 : Bool) (part : BitVec 3) : Nat :=
  let c := part.toNat
  if 1 ≤ c ∧ c ≤ 5 then 2 ^ c else if c = 6 ∧ wide64 then 64 else if wide64 then 64 else 32

namespace State

def tile (s : State) : Nat := tileWidth s.w.wide64 s.w.part

/-- Does one tile cover every present lane? -/
def oneTile (s : State) : Bool := decide (s.w.nlanes ≤ s.tile)

/-- The active lanes of lane i's tile, ascending (R168). -/
def tileActs (s : State) (i : Nat) : List Nat :=
  let t := s.tile
  (LaneSet.toList s.act).filter fun j => j / t == i / t

end State

/-! ## SHFL (R169, R170) -/

/-- The source lane of lane i for an index b (R169). -/
def shflSrc (t m i b : Nat) : Nat :=
  let base := i - i % t
  let o := i % t
  match m with
  | 0 => base + b % t
  | 1 => if b < t ∧ b ≤ o then i - b else i
  | 2 => if b < t ∧ o + b < t then i + b else i
  | _ => base + (o ^^^ (b % t))

/-- SHFL with index values in a register or an immediate; every source lane is sampled in the cycle of issue. -/
def State.shuffle (s : State) (d a m : Nat) (idx : Shaped) : List Res :=
  let x := s.rd a
  let f (i : Nat) : Lane :=
    let l := x.lane (shflSrc s.tile m i (idx.lane i).val.toNat)
    ⟨l.val, l.poison || (idx.lane i).poison⟩
  [s.res d (if allU [x, idx] then .u (f 0).val (f 0).poison else vLanes s.width f)]

/-- SHFL with an index register (R169). -/
def execShfl (h : Hdr) (d a b : BitVec 6) (m : BitVec 2) (s : State) : Answer :=
  .next (s.regStep h (.pipe 6) [a.toNat, b.toNat] fun s => .ok (s.shuffle d.toNat a.toNat m.toNat (s.rd b.toNat)))

/-- SHFL with an immediate index (R169). -/
def execShflImm (h : Hdr) (d a i : BitVec 6) (m : BitVec 2) (s : State) : Answer :=
  .next (s.regStep h (.pipe 6) [a.toNat] fun s =>
    .ok (s.shuffle d.toNat a.toNat m.toNat (.u (i.zeroExtend 32) false)))

/-! ## VOTE (R171) -/

/-- A result that is U when one tile covers all present lanes, and V otherwise. -/
def State.tileShape (s : State) (f : Nat → Lane) : Shaped :=
  if s.oneTile then
    let l := f (State.lowestLane s.act)
    .u l.val l.poison
  else vLanes s.width f

/-- 1 or 0 as a lane without poison. -/
def flag (b : Bool) : Lane := ⟨if b then 1 else 0, false⟩

/-- VOTE.ANY (R171). -/
def execVoteAny (h : Hdr) (d : BitVec 6) (p : BitVec 3) (s : State) : Answer :=
  .next (s.regStep h (.pipe 6) [] fun s =>
    let q := s.rdp p.toNat
    .ok [s.res d.toNat (s.tileShape fun i => flag ((s.tileActs i).any q.lane))])

/-- VOTE.ALL (R171). -/
def execVoteAll (h : Hdr) (d : BitVec 6) (p : BitVec 3) (s : State) : Answer :=
  .next (s.regStep h (.pipe 6) [] fun s =>
    let q := s.rdp p.toNat
    .ok [s.res d.toNat (s.tileShape fun i => flag ((s.tileActs i).all q.lane))])

/-- VOTE.BAL (R171): the lanes of the tile in which the predicate holds, as a pair. -/
def execVoteBal (h : Hdr) (d : BitVec 6) (p : BitVec 3) (s : State) : Answer :=
  .next (s.regStep h (.pipe 6) [] fun s =>
    let q := s.rdp p.toNat
    let f (i : Nat) : DWord := LaneSet.ofList ((s.tileActs i).filter q.lane)
    .ok [s.res d.toNat (s.tileShape fun i => ⟨loWord (f i), false⟩),
         s.res (d.toNat + 1) (s.tileShape fun i => ⟨hiWord (f i), false⟩)])

/-- VOTE.EQ (R171). -/
def execVoteEq (h : Hdr) (d a : BitVec 6) (s : State) : Answer :=
  .next (s.regStep h (.pipe 6) [a.toNat] fun s =>
    let x := s.rd a.toNat
    .ok [s.res d.toNat (s.tileShape fun i =>
      let js := s.tileActs i
      flag (js.all fun j => (x.lane j).val == (x.lane (js.headD 0)).val))])

/-- VOTE.MATCH (R171): the lanes of the tile that hold lane i's value. -/
def execVoteMatch (h : Hdr) (d a : BitVec 6) (s : State) : Answer :=
  .next (s.regStep h (.pipe 6) [a.toNat] fun s =>
    let x := s.rd a.toNat
    let f (i : Nat) : DWord := LaneSet.ofList ((s.tileActs i).filter fun j => (x.lane j).val == (x.lane i).val)
    .ok [s.res d.toNat (vLanes s.width fun i => ⟨loWord (f i), false⟩),
         s.res (d.toNat + 1) (vLanes s.width fun i => ⟨hiWord (f i), false⟩)])

/-! ## RED (R172) -/

/-- One level of the tree: neighbours combined, an odd last one kept; exceptions are gathered. -/
def treeLevel (op : DWord → DWord → DWord × FExc) : List DWord → List DWord × FExc
  | a :: b :: rest =>
    let r := op a b
    let t := treeLevel op rest
    (r.1 :: t.1, r.2 ||| t.2)
  | l => (l, FExc.none)

/-- The tree over at most 2^n values (R172). -/
def treeRun (op : DWord → DWord → DWord × FExc) : Nat → List DWord → FExc → DWord × FExc
  | 0, l, e => (l.headD 0, e)
  | n + 1, l, e =>
    match l with
    | [x] => (x, e)
    | _ =>
      let t := treeLevel op l
      treeRun op n t.1 (e ||| t.2)

/-- An integer operation on the low words. -/
def onWords (f : Word → Word → Word) (a b : DWord) : DWord × FExc :=
  ((f (loWord a) (loWord b)).zeroExtend 64, FExc.none)

/-- A float operation on the low words, and on pairs. -/
def onFloats (f : Nat → Nat → FRes) (a b : DWord) : DWord × FExc :=
  let r := f (loWord a).toNat (loWord b).toNat
  (BitVec.ofNat 64 r.1, r.2)
def onDoubles (f : Nat → Nat → FRes) (a b : DWord) : DWord × FExc :=
  let r := f a.toNat b.toNat
  (BitVec.ofNat 64 r.1, r.2)

/-- The operations of RED, by FN (R47, R172). -/
def redOp (env : FEnv) (fn : Nat) : DWord → DWord → DWord × FExc :=
  match fn with
  | 0 => onWords (· + ·)
  | 1 => onWords minSigned
  | 2 => onWords maxSigned
  | 3 => onWords minPlain
  | 4 => onWords maxPlain
  | 5 => onWords fun a b => a &&& b
  | 6 => onWords fun a b => a ||| b
  | 7 => onWords fun a b => a ^^^ b
  | 8 => onFloats (Sys2Proof.Machine.fadd .f32 env)
  | 9 => onFloats (fminmax .f32 env false)
  | 10 => onFloats (fminmax .f32 env true)
  | 11 => onDoubles (Sys2Proof.Machine.fadd .f64 env)
  | _ => fun a b => (a + b, FExc.none)

/-- RED (R172): every active lane of a tile receives the tree over the tile's active lanes. -/
def execRed (h : Hdr) (d a : BitVec 6) (f : BitVec 4) (s : State) : Answer :=
  let fn := f.toNat
  let wide := fn == 11 || fn == 12
  .next (s.regStep h (.pipe 8) (if wide then [a.toNat, a.toNat + 1] else [a.toNat]) fun s =>
    let lo := s.rd a.toNat
    let hi := if wide then s.rd (a.toNat + 1) else Shaped.zero
    let tree (i : Nat) : DWord × FExc :=
      treeRun (redOp (FEnv.ofFmt s.fmt) fn) 7 ((s.tileActs i).map (pairLane lo hi)) FExc.none
    let pz (i : Nat) : Bool := (s.tileActs i).any (poisonAt [lo, hi])
    let out := s.res d.toNat (s.tileShape fun i => ⟨loWord (tree i).1, pz i⟩)
    let rs := if wide then [out, s.res (d.toNat + 1) (s.tileShape fun i => ⟨hiWord (tree i).1, pz i⟩)] else [out]
    orFpx s (fun i => (tree i).2) rs)

/-! ## SCAN (R173) -/

/-- The operations of SCAN, by FN. -/
def scanOp (env : FEnv) (fn : Nat) : Word → Word → Word × FExc :=
  match fn with
  | 0 | 1 => fun a b => (a + b, FExc.none)
  | 2 | 3 => fun a b =>
    let r := Sys2Proof.Machine.fadd .f32 env a.toNat b.toNat
    (wordOp r, r.2)
  | 4 => fun a b => (maxSigned a b, FExc.none)
  | _ => fun a b => (a ||| b, FExc.none)

/-- One lane's result of a scan: value, poison, exceptions. -/
structure ScanOut where
  lane : Nat
  out : Lane
  exc : FExc
  deriving DecidableEq, Repr

/-- The scan over a tile's lanes in order, from an accumulator with the poison and the exceptions of its last step. -/
def scanRun (op : Word → Word → Word × FExc) (excl : Bool) : List (Nat × Lane) → Option (Lane × FExc) → List ScanOut
  | [], _ => []
  | (j, x) :: rest, acc =>
    let next : Lane × FExc := match acc with
      | none => (x, FExc.none)
      | some a => let r := op a.1.val x.val; (⟨r.1, a.1.poison || x.poison⟩, r.2)
    let o : Lane × FExc := if excl then acc.getD (⟨0, false⟩, FExc.none) else next
    ⟨j, o.1, o.2⟩ :: scanRun op excl rest (some next)

/-- SCAN (R173). -/
def execScan (h : Hdr) (d a : BitVec 6) (f : BitVec 4) (s : State) : Answer :=
  let fn := f.toNat
  .next (s.regStep h (.pipe 8) [a.toNat] fun s =>
    let x := s.rd a.toNat
    let excl := fn == 1 || fn == 3
    let bases := ((LaneSet.toList s.act).map fun i => i / s.tile).eraseDups
    let outs := bases.flatMap fun t =>
      scanRun (scanOp (FEnv.ofFmt s.fmt) fn) excl
        (((LaneSet.toList s.act).filter fun i => i / s.tile == t).map fun i => (i, x.lane i)) none
    let at' (i : Nat) : ScanOut := (outs.find? fun o => o.lane == i).getD ⟨i, ⟨0, false⟩, FExc.none⟩
    orFpx s (fun i => (at' i).exc) [s.res d.toNat (vLanes s.width fun i => (at' i).out)])

end Sys2Proof.Machine
end

