-- ==== Sys2Proof/Machine/Exit.lean ====
section
/-! DEFINITION. EXIT and the end of a warp (spec/04 R122). -/

namespace Sys2Proof.Machine

/-- The warp after the active lanes of gang g have exited: the slices release their top entries or leave, records are
settled, waiting groups and standing gangs take what has become free (R101, R103, R110, R122). -/
def Warp.exitLanes (w : Warp) (g : Nat) (act : LaneSet) (at' : When) : Warp :=
  let e := State.gangOf w g
  let rel := (sliceList e.slices).filter fun j => (w.top? j).isSome
  let w := ({ w with exited := w.exited ||| act }).freeGang g
  let w := (w.settleRecords at').serve at'
  let w := w.releaseAll e.loops at' (w.groupsOf rel)
  (w.regangAll at').serve at'

/-- EXIT (R122). -/
def execExit (h : Hdr) (s : State) : Answer :=
  .next (
    let s := s.debitW 1
    let act := s.act
    let s := (s.modW fun w => w.exitLanes s.cur.g act (s.whenMade h)).usedIssue.countIssue h
    if s.present &&& ~~~s.w.exited = 0 then s.endWarp s.cur.wid else s)

end Sys2Proof.Machine
end

