-- ==== Sys2Proof/Machine/FloatOps.lean ====
section
/-! DEFINITION. Floating-point instructions of the vector pipes and shape units (spec/08, majors 0x24-0x28). -/

namespace Sys2Proof.Machine

/-- The environment of the issuing gang (R196). -/
def State.env (s : State) : FEnv := FEnv.ofFmt s.fmt

/-- A lane of a register as a number. -/
def State.fword (s : State) (n i : Nat) : Nat := ((s.rd n).lane i).val.toNat

/-- A lane of a register pair as a number. -/
def State.fdword (s : State) (n i : Nat) : Nat := (s.pairAt n i).toNat

/-- An F32 operation on the lanes of `srcs` (R207); L as R205 gives it. -/
def State.f32Step (h : Hdr) (ls lv : Nat) (d : Nat) (srcs : List Nat) (f : State → Nat → FRes) (s : State) : State :=
  s.regStep h (.alu ls lv 1) srcs fun s => floatRes s d (srcs.map s.rd) (f s)

/-- An F64 operation on pairs, at two passes (R205). -/
def State.f64Step (h : Hdr) (ls lv : Nat) (d : Nat) (srcs : List Nat) (f : State → Nat → FRes) (s : State) : State :=
  s.regStep h (.alu ls lv 2) srcs fun s => floatRes64 s d (srcs.map s.rd) (f s)

/-- The registers of a pair. -/
def pairRegs (n : Nat) : List Nat := [n, n + 1]

/-- A two-operand F32 step. -/
def State.f32Bin (h : Hdr) (op : FFmt → FEnv → Nat → Nat → FRes) (d a b : Nat) (s : State) : State :=
  s.f32Step h 2 4 d [a, b] fun s i => op .f32 s.env (s.fword a i) (s.fword b i)

/-- A two-operand F64 step. -/
def State.f64Bin (h : Hdr) (op : FFmt → FEnv → Nat → Nat → FRes) (d a b : Nat) (s : State) : State :=
  s.f64Step h 2 6 d (pairRegs a ++ pairRegs b) fun s i => op .f64 s.env (s.fdword a i) (s.fdword b i)

/-- FMIN and FMAX as two-operand operations. -/
def fmin2 (f : FFmt) (env : FEnv) (a b : Nat) : FRes := fminmax f env false a b
def fmax2 (f : FFmt) (env : FEnv) (a b : Nat) : FRes := fminmax f env true a b

/-! ## F32 (R207-R211) -/

/-- FADD (R207). -/
def execFadd (h : Hdr) (d a b : BitVec 6) (s : State) : Answer := .next (s.f32Bin h fadd d.toNat a.toNat b.toNat)
/-- FSUB (R207). -/
def execFsub (h : Hdr) (d a b : BitVec 6) (s : State) : Answer := .next (s.f32Bin h fsub d.toNat a.toNat b.toNat)
/-- FMUL (R207). -/
def execFmul (h : Hdr) (d a b : BitVec 6) (s : State) : Answer := .next (s.f32Bin h fmul d.toNat a.toNat b.toNat)
/-- FMIN (R208). -/
def execFmin (h : Hdr) (d a b : BitVec 6) (s : State) : Answer := .next (s.f32Bin h fmin2 d.toNat a.toNat b.toNat)
/-- FMAX (R208). -/
def execFmax (h : Hdr) (d a b : BitVec 6) (s : State) : Answer := .next (s.f32Bin h fmax2 d.toNat a.toNat b.toNat)
/-- FADD.F32, 16-bit (R42). -/
def execFadd16 (sw : Bool) (d a : BitVec 5) (s : State) : Answer :=
  .next (s.f32Bin (hdr16 sw) fadd d.toNat d.toNat a.toNat)
/-- FMUL.F32, 16-bit (R42). -/
def execFmul16 (sw : Bool) (d a : BitVec 5) (s : State) : Answer :=
  .next (s.f32Bin (hdr16 sw) fmul d.toNat d.toNat a.toNat)
/-- FMAX.F32, 16-bit (R42). -/
def execFmax16 (sw : Bool) (d a : BitVec 5) (s : State) : Answer :=
  .next (s.f32Bin (hdr16 sw) fmax2 d.toNat d.toNat a.toNat)
/-- FMIN.F32, 16-bit (R42). -/
def execFmin16 (sw : Bool) (d a : BitVec 5) (s : State) : Answer :=
  .next (s.f32Bin (hdr16 sw) fmin2 d.toNat d.toNat a.toNat)

/-- FFMA (R207): a × b + d, the product exact, one rounding. -/
def execFfma (h : Hdr) (d a b : BitVec 6) (s : State) : Answer :=
  .next (s.f32Step h 2 4 d.toNat [a.toNat, b.toNat, d.toNat] fun s i =>
    ffma .f32 s.env (s.fword a.toNat i) (s.fword b.toNat i) (s.fword d.toNat i))

/-- FDIV (R207). -/
def execFdiv (h : Hdr) (d a b : BitVec 6) (s : State) : Answer :=
  .next (s.f32Step h 24 24 d.toNat [a.toNat, b.toNat] fun s i =>
    fdiv .f32 s.env (s.fword a.toNat i) (s.fword b.toNat i))

/-- FSQRT (R207). -/
def execFsqrt (h : Hdr) (d a : BitVec 6) (s : State) : Answer :=
  .next (s.f32Step h 24 24 d.toNat [a.toNat] fun s i => fsqrt .f32 s.env (s.fword a.toNat i))

/-- FABS (R209). -/
def execFabs (h : Hdr) (d a : BitVec 6) (s : State) : Answer :=
  .next (s.unaryStep h (fun x => x &&& 0x7FFFFFFF#32) d.toNat a.toNat)

/-- FNEG (R209). -/
def execFneg (h : Hdr) (d a : BitVec 6) (s : State) : Answer :=
  .next (s.unaryStep h (fun x => x ^^^ 0x80000000#32) d.toNat a.toNat)

/-- FSCALE (R210). -/
def execFscale (h : Hdr) (d a b : BitVec 6) (s : State) : Answer :=
  .next (s.f32Step h 2 4 d.toNat [a.toNat, b.toNat] fun s i =>
    fscale .f32 s.env (s.fword a.toNat i) (s.wordAt b.toNat i).toInt)

/-- The rounding mode that FRND's B names (R211). -/
def frndMode (env : FEnv) (b : Nat) : Nat := if b = 0 then env.rnd else b - 1

/-- FRND (R211). -/
def execFrnd (h : Hdr) (d a b : BitVec 6) (s : State) : Answer :=
  .next (s.f32Step h 2 4 d.toNat [a.toNat] fun s i =>
    frnd .f32 s.env (frndMode s.env b.toNat) (s.fword a.toNat i))

/-- FCLASS (R209): one bit set. -/
def execFclass (h : Hdr) (d a : BitVec 6) (s : State) : Answer :=
  .next (s.unaryStep h (fun x => BitVec.ofNat 32 (2 ^ fclass .f32 x.toNat)) d.toNat a.toNat)

/-! ## F64 -/

/-- DADD (R207). -/
def execDadd (h : Hdr) (d a b : BitVec 6) (s : State) : Answer := .next (s.f64Bin h fadd d.toNat a.toNat b.toNat)
/-- DSUB (R207). -/
def execDsub (h : Hdr) (d a b : BitVec 6) (s : State) : Answer := .next (s.f64Bin h fsub d.toNat a.toNat b.toNat)
/-- DMUL (R207). -/
def execDmul (h : Hdr) (d a b : BitVec 6) (s : State) : Answer := .next (s.f64Bin h fmul d.toNat a.toNat b.toNat)
/-- DMIN (R208). -/
def execDmin (h : Hdr) (d a b : BitVec 6) (s : State) : Answer := .next (s.f64Bin h fmin2 d.toNat a.toNat b.toNat)
/-- DMAX (R208). -/
def execDmax (h : Hdr) (d a b : BitVec 6) (s : State) : Answer := .next (s.f64Bin h fmax2 d.toNat a.toNat b.toNat)

/-- DFMA (R207). -/
def execDfma (h : Hdr) (d a b : BitVec 6) (s : State) : Answer :=
  .next (s.f64Step h 2 6 d.toNat (pairRegs a.toNat ++ pairRegs b.toNat ++ pairRegs d.toNat) fun s i =>
    ffma .f64 s.env (s.fdword a.toNat i) (s.fdword b.toNat i) (s.fdword d.toNat i))

/-- DDIV (R207). -/
def execDdiv (h : Hdr) (d a b : BitVec 6) (s : State) : Answer :=
  .next (s.f64Step h 24 24 d.toNat (pairRegs a.toNat ++ pairRegs b.toNat) fun s i =>
    fdiv .f64 s.env (s.fdword a.toNat i) (s.fdword b.toNat i))

/-- DSQRT (R207). -/
def execDsqrt (h : Hdr) (d a : BitVec 6) (s : State) : Answer :=
  .next (s.f64Step h 24 24 d.toNat (pairRegs a.toNat) fun s i => fsqrt .f64 s.env (s.fdword a.toNat i))

/-- A sign operation on an F64 pair, which raises nothing and reads no FMT (R209). -/
def State.signStep (h : Hdr) (f : DWord → DWord) (d a : Nat) (s : State) : State :=
  s.regStep h (.alu 2 6 2) (pairRegs a) fun s =>
    let x := pairBy s.width [s.rd a, s.rd (a + 1)] fun i => f (s.pairAt a i)
    .ok [s.res d x.1, s.res (d + 1) x.2]

/-- DABS (R209). -/
def execDabs (h : Hdr) (d a : BitVec 6) (s : State) : Answer :=
  .next (s.signStep h (fun x => x &&& 0x7FFFFFFFFFFFFFFF#64) d.toNat a.toNat)

/-- DNEG (R209). -/
def execDneg (h : Hdr) (d a : BitVec 6) (s : State) : Answer :=
  .next (s.signStep h (fun x => x ^^^ 0x8000000000000000#64) d.toNat a.toNat)

/-- DSCALE (R210): B is a single register. -/
def execDscale (h : Hdr) (d a b : BitVec 6) (s : State) : Answer :=
  .next (s.f64Step h 2 6 d.toNat (pairRegs a.toNat ++ [b.toNat]) fun s i =>
    fscale .f64 s.env (s.fdword a.toNat i) (s.wordAt b.toNat i).toInt)

/-- DRND (R211). -/
def execDrnd (h : Hdr) (d a b : BitVec 6) (s : State) : Answer :=
  .next (s.f64Step h 2 6 d.toNat (pairRegs a.toNat) fun s i =>
    frnd .f64 s.env (frndMode s.env b.toNat) (s.fdword a.toNat i))

/-! ## H2 (R212, R213) -/

/-- The element format: FP16, or BF16 when t is 1. -/
def h2Fmt (t : BitVec 1) : FFmt := if t == 1 then .bf16 else .f16

/-- Element e of a word. -/
def elem (x e : Nat) : Nat := x / 2 ^ (16 * e) % 2 ^ 16

/-- Two element results as one lane: the union of their exceptions. -/
def pair16 (r0 r1 : FRes) : FRes := (r0.1 % 2 ^ 16 + r1.1 * 2 ^ 16, r0.2 ||| r1.2)

/-- A two-operand H2 step. -/
def State.h2Bin (h : Hdr) (op : FFmt → FEnv → Nat → Nat → FRes) (t : BitVec 1) (d a b : Nat) (s : State) : State :=
  s.f32Step h 2 4 d [a, b] fun s i =>
    let r (e : Nat) := op (h2Fmt t) s.env (elem (s.fword a i) e) (elem (s.fword b i) e)
    pair16 (r 0) (r 1)

/-- HADD2 (R213). -/
def execHadd2 (h : Hdr) (d a b : BitVec 6) (t : BitVec 1) (s : State) : Answer :=
  .next (s.h2Bin h fadd t d.toNat a.toNat b.toNat)
/-- HSUB2 (R213). -/
def execHsub2 (h : Hdr) (d a b : BitVec 6) (t : BitVec 1) (s : State) : Answer :=
  .next (s.h2Bin h fsub t d.toNat a.toNat b.toNat)
/-- HMUL2 (R213). -/
def execHmul2 (h : Hdr) (d a b : BitVec 6) (t : BitVec 1) (s : State) : Answer :=
  .next (s.h2Bin h fmul t d.toNat a.toNat b.toNat)
/-- HMIN2 (R213). -/
def execHmin2 (h : Hdr) (d a b : BitVec 6) (t : BitVec 1) (s : State) : Answer :=
  .next (s.h2Bin h fmin2 t d.toNat a.toNat b.toNat)
/-- HMAX2 (R213). -/
def execHmax2 (h : Hdr) (d a b : BitVec 6) (t : BitVec 1) (s : State) : Answer :=
  .next (s.h2Bin h fmax2 t d.toNat a.toNat b.toNat)
/-- HFMA2 (R213): D is a source. -/
def execHfma2 (h : Hdr) (d a b : BitVec 6) (t : BitVec 1) (s : State) : Answer :=
  .next (s.f32Step h 2 4 d.toNat [a.toNat, b.toNat, d.toNat] fun s i =>
    let r (e : Nat) := ffma (h2Fmt t) s.env (elem (s.fword a.toNat i) e) (elem (s.fword b.toNat i) e)
      (elem (s.fword d.toNat i) e)
    pair16 (r 0) (r 1))

/-! ## FCMP (R215) -/

/-- FCMP (R215): poison is ignored; the combine field is that of CMP. -/
def execFcmp (h : Hdr) (p m : BitVec 3) (a b : BitVec 6) (c : BitVec 3) (w : BitVec 1) (s : State) : Answer :=
  let wide := w == 1
  let srcs := if wide then pairRegs a.toNat ++ pairRegs b.toNat else [a.toNat, b.toNat]
  .next (s.regStep h (if wide then .alu 2 6 2 else .alu 2 4 1) srcs fun s =>
    let r (i : Nat) : Bool × FExc :=
      if wide then fcmp .f64 s.env.dni c.toNat (s.fdword a.toNat i) (s.fdword b.toNat i)
      else fcmp .f32 s.env.dni c.toNat (s.fword a.toNat i) (s.fword b.toNat i)
    let q := s.rdp p.toNat
    let preds := if m = 1 ∨ m = 2 then [q] else []
    let regs := srcs.map s.rd
    orFpx s (fun i => if allU regs then (r 0).2 else (r i).2)
      [s.resP p.toNat (predBy regs preds fun i => combine m.toNat (q.lane i) (r i).1)])

/-! ## FCVT (R217) -/

/-- Bits of a type: F32, F64, F16, BF16, E4M3, E5M2, S32, N32 (R47). -/
def cvtBits (t : Nat) : Nat :=
  match t with
  | 1 => 64
  | 2 | 3 => 16
  | 4 | 5 => 8
  | _ => 32

/-- The float format of a type, if it is one. -/
def cvtFmt (t : Nat) : Option FFmt :=
  match t with
  | 0 => some .f32
  | 1 => some .f64
  | 2 => some .f16
  | 3 => some .bf16
  | 4 => some .e4m3fn
  | 5 => some .e5m2
  | _ => none

/-- Range of S32 (6) and N32. -/
def cvtLo (t : Nat) : Int := if t = 6 then -2147483648 else 0
def cvtHi (t : Nat) : Int := if t = 6 then 2147483647 else 4294967295

/-- An integer as the bits of a word. -/
def intBits (v : Int) : Nat := (BitVec.ofInt 32 v).toNat

/-- The integer that 32 bits hold as S32 (6) or N32. -/
def intOf (t n : Nat) : Int := if t = 6 then (BitVec.ofNat 32 n).toInt else n

/-- Convert the bits of a value (R217). -/
def convert (src dst : Nat) (env : FEnv) (n : Nat) : FRes :=
  match cvtFmt src, cvtFmt dst with
  | some f, some g => cvtFF f g env n
  | some f, none =>
    let r := cvtFI f env (cvtLo dst) (cvtHi dst) n
    (intBits r.1, r.2)
  | none, some g => cvtIF g env (intOf src n)
  | none, none =>
    let r := clampInt (cvtLo dst) (cvtHi dst) (intOf src n) FExc.none
    (intBits r.1, r.2)

/-- Where a value of n bits sits when its side is narrow: part p; a 16-bit side that is not narrow sits at 15:0. -/
def cvtShift (n other p : Nat) : Nat := if n ≤ other ∧ n < 32 then n * p else 0

/-- FCVT (R217). -/
def execFcvt (h : Hdr) (d a : BitVec 6) (t x : BitVec 3) (r p : BitVec 2) (s : State) : Answer :=
  let dst := t.toNat
  let src := x.toNat
  let nb := cvtBits dst
  let wide := src == 1 || dst == 1
  let dn := d.toNat
  let an := a.toNat
  let srcs := (if src = 1 then pairRegs an else [an]) ++ (if nb < 32 then [dn] else [])
  .next (s.regStep h (if wide then .alu 2 6 2 else .alu 2 4 1) srcs fun s =>
    let env := if r = 0 then s.env else { s.env with rnd := r.toNat - 1 }
    let get (i : Nat) : Nat :=
      if src = 1 then s.fdword an i
      else s.fword an i / 2 ^ cvtShift (cvtBits src) nb p.toNat % 2 ^ cvtBits src
    let f (i : Nat) : FRes := convert src dst env (get i)
    let regs := srcs.map s.rd
    if nb = 64 then floatRes64 s dn regs f
    else floatRes s dn regs fun i =>
      let y := f i
      if nb < 32 then
        let k := cvtShift nb (cvtBits src) p.toNat
        let old := s.fword dn i
        (old - old / 2 ^ k % 2 ^ nb * 2 ^ k + y.1 % 2 ^ nb * 2 ^ k, y.2)
      else y)

end Sys2Proof.Machine
end

