-- ==== Sys2Proof/Machine/Blocks.lean ====
section
/-! DEFINITION. Blocks of four-bit codes: scale bytes, level tables, and the choice of an encoding (spec/14 R332-R336,
R341). -/

namespace Sys2Proof.Machine

/-- Selectors (R333). -/
def selINT4 : Nat := 0
def selE2M1 : Nat := 1
def selPW2 : Nat := 2
def selNUL : Nat := 3

/-- Does a scale byte hold an odd number of one bits (R334)? -/
def corrupt (b : Byte) : Bool := ((List.range 8).filter fun i => b.getLsbD i).length % 2 == 1

/-- EXP and SEL of a scale byte (R333). -/
def scaleExp (b : Byte) : Nat := (b.extractLsb' 0 5).toNat
def scaleSel (b : Byte) : Nat := (b.extractLsb' 6 2).toNat

/-- Magnitude of level m of selectors 1-3, in units of 2^-6 (R335). -/
def levelMag (sel m : Nat) : Nat :=
  (match sel with
    | 1 => [0, 32, 64, 96, 128, 192, 256, 384]
    | 2 => [0, 1, 2, 4, 8, 16, 32, 64]
    | _ => [0, 8, 16, 24, 40, 56, 80, 112]).getD m 0

/-- The level of a code, as sign and magnitude in units of 2^-6 (R335). -/
def codeLevel (sel : Nat) (c : BitVec 4) : Bool × Nat :=
  if sel = selINT4 then (decide (c.toInt < 0), c.toInt.natAbs * 64)
  else (c.getLsbD 3, levelMag sel (c.extractLsb' 0 3).toNat)

/-- Largest level magnitude, in units of 2^-6 (R335). -/
def levelMax (sel : Nat) : Nat := [448, 384, 64, 112].getD sel 0

/-- Value of a code under a scale byte that is not corrupt and whose EXP is not 31 (R336). -/
def codeValue (b : Byte) (c : BitVec 4) : FVal :=
  let l := codeLevel (scaleSel b) c
  .fin l.1 l.2 ((scaleExp b : Int) - 22)

/-- The scale byte of a selector and exponent, with even parity (R333). -/
def scaleByte (sel e : Nat) : Byte :=
  let b : Byte := BitVec.ofNat 8 (sel * 64 + e)
  if corrupt b then b ||| 0x20#8 else b

/-- |x - v| times 2^-e0, for ±m × 2^e and n × 2^e1, with e0 the smaller exponent. -/
def gap (s : Bool) (m : Nat) (e : Int) (n : Int) (e1 : Int) : Nat :=
  let e0 := min e e1
  (sigAt s m e e0 - n * 2 ^ (e1 - e0).toNat).natAbs

/-- The signed level of a code in units of 2^-6. -/
def codeInt (sel : Nat) (c : BitVec 4) : Int :=
  let l := codeLevel sel c
  if l.1 then -(l.2 : Int) else l.2

/-- Codes in order of rising magnitude of their level, without -0 (R335). -/
def codesOf (sel : Nat) : List (BitVec 4) :=
  if sel = selINT4 then [0, 1, 15, 2, 14, 3, 13, 4, 12, 5, 11, 6, 10, 7, 9, 8]
  else [0, 1, 9, 2, 10, 3, 11, 4, 12, 5, 13, 6, 14, 7, 15]

/-- Nearest of R341 for a finite F32: the code; on a tie the level of smaller magnitude. -/
def nearest (x : Nat) (sel e : Nat) : BitVec 4 :=
  match fdecode .f32 x with
  | .fin s m ex =>
    let d (c : BitVec 4) : Nat := gap s m ex (codeInt sel c) ((e : Int) - 22)
    (codesOf sel).foldl (fun best c => if d c < d best then c else best) 0
  | _ => 0

/-- The F32 bits of a code's value, -0 counting as 0. -/
def codeBits (sel e : Nat) (c : BitVec 4) : Nat :=
  (roundInt .f32 FEnv.zero (codeInt sel c) ((e : Int) - 22) false).1

/-- Error of R341: the tree over the squares of the differences, RNE at every step. -/
def encodeError (xs : List Nat) (vs : List Nat) : Nat :=
  let ds := (xs.zip vs).map fun p =>
    let d := (fsub .f32 FEnv.zero p.1 p.2).1
    BitVec.ofNat 64 (fmul .f32 FEnv.zero d d).1
  (treeRun (onFloats (fadd .f32 FEnv.zero)) 5 ds FExc.none).1.toNat

/-- An encoding: scale byte, codes, and the error as F32. -/
structure Encoding where
  scale : Byte
  codes : List (BitVec 4)
  err : Nat
  deriving DecidableEq, Repr

/-- The candidate of a selector and an exponent. -/
def candidate (xs : List Nat) (sel e : Nat) : Encoding :=
  let cs := xs.map fun x => nearest x sel e
  { scale := scaleByte sel e, codes := cs, err := encodeError xs (cs.map (codeBits sel e)) }

/-- |x| of a finite F32 is at most n × 2^(e-22). -/
def within (x : Nat) (n : Nat) (e : Nat) : Bool :=
  match fdecode .f32 x with
  | .fin _ m ex => cmpVal (.fin false m ex) (.fin false n ((e : Int) - 22)) != .gt
  | _ => false

/-- e0 of R341 for a selector. -/
def firstExp (xs : List Nat) (sel : Nat) : Nat :=
  ((List.range 31).find? fun e => xs.all fun x => within x (levelMax sel) e).getD 30

/-- Encode of R341. Errors are not negative, so their bits order them. -/
def encodeBlock (xs : List Nat) (allowed : List Nat) : Encoding :=
  let finite := xs.all fun x => match fdecode .f32 x with
    | .fin _ _ _ => true
    | _ => false
  if !finite then { scale := 0x3F, codes := xs.map fun _ => 0, err := FFmt.f32.infBits }
  else if xs.all fun x => x % 2 ^ 31 == 0 then { scale := 0, codes := xs.map fun _ => 0, err := 0 }
  else
    let tries := allowed.flatMap fun sel =>
      let e0 := firstExp xs sel
      (if 1 ≤ e0 then [e0, e0 - 1] else [e0]).map (candidate xs sel)
    match tries with
    | [] => { scale := 0, codes := [], err := 0 }
    | t :: rest => rest.foldl (fun best c => if c.err < best.err then c else best) t

/-- The selectors that QSEL allows, and the only one that QSTF takes (R341). -/
def allowedSels (fmt : BitVec 17) (first : Bool) : List Nat :=
  let q := fmt.extractLsb' 11 4
  let l := if q = 0 then [0, 1, 2, 3] else (List.range 4).filter fun k => q.getLsbD k
  if first then l.take 1 else l

/-- The 16 bytes of 32 codes (R332). -/
def codeBytes : List (BitVec 4) → List Byte
  | a :: b :: rest => (b ++ a) :: codeBytes rest
  | [a] => [a.zeroExtend 8]
  | [] => []

/-- FMT.SCP (R67). -/
def scpOf (fmt : BitVec 17) : Bool := fmt.getLsbD 15

/-- A byte of a scratchpad as an engine reads it: a pending word reads 0 (R232). -/
def Team.engByte (t : Team) (off : Nat) : Byte := if t.pending (off / 4) then 0 else cellGet t.sp off

/-- n of them. -/
def Team.engBytesAt (t : Team) (off : Nat) : Nat → List Byte
  | 0 => []
  | n + 1 => t.engByte off :: t.engBytesAt (off + 1) n

/-- What is wrong with a word that an engine reads (R325, R349). -/
def Team.wordFault (t : Team) (word : Nat) : Option EngFault :=
  if t.pending word then some (ePENDING, BitVec.ofNat 64 (4 * word))
  else if t.spPoison.contains word then some (ePOISON, BitVec.ofNat 64 (4 * word))
  else none

end Sys2Proof.Machine
end

