-- ==== Sys2Proof/Machine/Matrix.lean ====
section
/-! DEFINITION. The matrix engine: configuration, accumulator banks, the reservation table, passes and their arithmetic
(spec/13). -/

namespace Sys2Proof.Machine

/-! ## Types and classes (R308, R313) -/

/-- Class of an operand type: 0 H, 1 E, 2 I, 3 Q, 4 D. -/
def mxClass (ty : Nat) : Nat := [0, 0, 1, 1, 2, 2, 3, 4].getD ty 5

/-- A configuration word's fields. -/
def cfgA (c : Word) : Nat := (c.extractLsb' 0 4).toNat
def cfgB (c : Word) : Nat := (c.extractLsb' 4 4).toNat
def cfgSpat (c : Word) : Nat := (c.extractLsb' 12 3).toNat
def cfgSat (c : Word) : Bool := c.getLsbD 15

/-- K values of a step, rows of a quarter, cycles of a step, by class (R308). -/
def mxK (cls : Nat) : Nat := [8, 16, 16, 32, 4].getD cls 0
def mxRows (cls : Nat) : Nat := if cls = 4 then 8 else 32
def mxCycles (cls : Nat) : Nat := if cls = 4 then 16 else 32

/-- N and M of a sparsity pattern; 1 and 1 when dense (R313, R317). -/
def spatN (p : Nat) : Nat := [1, 2, 4, 8, 1, 2, 4].getD p 1
def spatM (p : Nat) : Nat := [1, 4, 8, 16, 4, 8, 16].getD p 1

/-- A reserved or mixed configuration (R314, R326). -/
def cfgReserved (c : Word) : Bool :=
  decide (7 < cfgA c) || decide (7 < cfgB c) || mxClass (cfgA c) != mxClass (cfgB c) || cfgSpat c == 7

/-- Is a word a finite nonzero F32 (R314)? -/
def finiteNonzero (x : Word) : Bool :=
  match fdecode .f32 x.toNat with
  | .fin _ m _ => m != 0
  | _ => false

/-- MXCFG (R314). -/
def execMxcfg (h : Hdr) (a : BitVec 6) (s : State) : Answer :=
  .next (s.plainStep h fun s =>
    let n := a.toNat
    match s.uniform (s.rd n), s.uniform (s.rd (n + 1)), s.uniform (s.rd (n + 2)) with
    | .ok c, .ok sa, .ok sb =>
      if (block n 3).any fun k => (s.rd k).poison0 then .error (poisonStop s.act 0)
      else if c.extractLsb' 16 16 ≠ 0 ∨ c.extractLsb' 8 4 ≠ 0 ∨ cfgReserved c = true ∨
          (cfgSpat c ≠ 0 ∧ mxClass (cfgA c) = 4) ∨ (cfgSat c = true ∧ mxClass (cfgA c) ≠ 2) ∨
          finiteNonzero sa = false ∨ finiteNonzero sb = false then
        .error (s.trapAct cPERM)
      else .ok (s.modW fun w => { w with cfg := c, sa := sa, sb := sb })
    | _, _, _ => .error (s.trapAct cSHAPE))

/-! ## Elements and the update of an accumulator (R318-R320) -/

/-- An element of an operand: a number or an infinity, or a cause of R200 that makes every product with it NaN. -/
inductive MxEl where
  | num (v : FVal)
  | bad (cause : Nat)
  deriving DecidableEq, Repr

/-- An element of a float type. -/
def mxFloat (f : FFmt) (n : Nat) : MxEl :=
  match fdecode f n with
  | .nan _ _ _ => .bad 1
  | v => .num v

/-- Element v of bytes of a type, with the scale bytes of its blocks (R316, R335). -/
def mxEl (ty : Nat) (bytes : List Byte) (scales : List Byte) (v : Nat) : MxEl :=
  let half := leNat [bytes.getD (2 * v) 0, bytes.getD (2 * v + 1) 0]
  let byte := bytes.getD v 0
  match ty with
  | 0 => mxFloat .bf16 half
  | 1 => mxFloat .f16 half
  | 2 => mxFloat .e4m3fn byte.toNat
  | 3 => mxFloat .e5m2 byte.toNat
  | 4 => .num (.fin (decide (byte.toInt < 0)) byte.toInt.natAbs 0)
  | 5 => .num (.fin false byte.toNat 0)
  | _ =>
    let b := scales.getD (v / 32) 0
    if corrupt b then .bad 5
    else if scaleExp b = 31 then .bad 2
    else .num (codeValue b ((bytes.getD (v / 2) 0).extractLsb' (4 * (v % 2)) 4))

/-- The product of two elements, or the cause that arises (R319). -/
def mxProduct : MxEl → MxEl → List Nat × Option FVal
  | .num a, .num b => match mulVal a b with
    | some p => ([], some p)
    | none => ([4], none)
  | .bad c, .bad d => ([c, d], none)
  | .bad c, _ => ([c], none)
  | _, .bad c => ([c], none)

/-- Sign of an infinity. -/
def FVal.infSign : FVal → Option Bool
  | .inf s => some s
  | _ => none

/-- The exact sum of finite values: +0 when they cancel, -0 only when every one is -0 (R318). -/
def sumVal (ps : List FVal) : FVal :=
  let e0 := ps.foldl (fun e v => match v with
    | .fin _ _ x => min e x
    | _ => e) (2000 : Int)
  let n : Int := (ps.map fun v => match v with
    | .fin s m e => sigAt s m e e0
    | _ => 0).sum
  if n = 0 then
    .fin (ps.all fun v => match v with
      | .fin s m _ => s && m == 0
      | _ => false) 0 0
  else .fin (decide (n < 0)) n.natAbs e0

/-- The update of an F32 accumulator by one step's products, with the scale SA × SB where the class has one
(R318, R319). -/
def mxUpdate (c : Word) (scale : Option FVal) (pairs : List (MxEl × MxEl)) : Word :=
  match fdecode .f32 c.toNat with
  | .nan _ _ _ => c ||| 0x00400000#32
  | cv =>
    let rs := pairs.map fun p => mxProduct p.1 p.2
    let prods := rs.filterMap (·.2)
    let scaled (v : FVal) : FVal := match scale with
      | some k => (mulVal k v).getD v
      | none => v
    let infs := (cv :: prods ++ prods.map scaled).filterMap FVal.infSign
    let causes := rs.flatMap (·.1) ++ (if infs.contains true && infs.contains false then [3] else [])
    match [5, 2, 1, 4, 3].find? causes.contains with
    | some k => BitVec.ofNat 32 (genNan .f32 false k)
    | none => match infs with
      | s :: _ => BitVec.ofNat 32 (signOf .f32 s + FFmt.f32.infBits)
      | [] => BitVec.ofNat 32 (addVal .f32 FEnv.zero cv (scaled (sumVal prods))).1

/-- The integer of a class I element. -/
def MxEl.int : MxEl → Int
  | .num (.fin s m _) => if s then -(m : Int) else m
  | _ => 0

/-- The update of an S32 accumulator (R318). -/
def mxUpdateInt (c : Word) (sat : Bool) (pairs : List (MxEl × MxEl)) : Word :=
  let t := c.toInt + (pairs.map fun p => p.1.int * p.2.int).sum
  if sat then BitVec.ofInt 32 (max (-2147483648) (min 2147483647 t)) else BitVec.ofInt 32 t

/-- The update of an F64 accumulator: one DFMA for each product in ascending K (R318, R319). -/
def mxUpdateF64 (c : DWord) (pairs : List (Nat × Nat)) : DWord :=
  pairs.foldl (fun c p => BitVec.ofNat 64 (ffma .f64 FEnv.zero p.1 p.2 c.toNat).1) c

/-! ## Descriptors (R315, R316, R326) -/

/-- Does a word have a bit set from position n up? -/
def above (w : Word) (n : Nat) : Bool := w >>> n != 0

/-- USE and RMAP of a matrix command (R315, R329). -/
def Cmd.mxUse (c : Cmd) : List Nat :=
  let d := match c.kind with
    | .mxloop _ _ => c.word 6
    | .mxzero _ => 0
    | _ => c.word 2
  (List.range 4).filter fun q => d.getLsbD (16 + q)

/-- Rank of the member for a quarter. -/
def Cmd.mxRank (c : Cmd) (q : Nat) : Nat :=
  let d := match c.kind with
    | .mxloop _ _ => c.word 7
    | _ => c.word 2
  (d.extractLsb' (4 * q) 4).toNat

/-- The bank that a command names. -/
def CmdKind.bank? : CmdKind → Option Nat
  | .mxloop _ b | .mxdrain _ b | .mxlda b | .mxzero b => some b
  | _ => none

/-- K-steps of a command. -/
def Cmd.mxSteps (c : Cmd) : Nat := (c.word 6).toNat % 2 ^ 16

/-- Low 21 bits and halves of a descriptor word. -/
def off21 (w : Word) : Nat := w.toNat % 2 ^ 21
def lo16 (w : Word) : Nat := w.toNat % 2 ^ 16
def hi16 (w : Word) : Nat := w.toNat / 2 ^ 16

/-- B values of a stored A value, X of R316. -/
def cfgX (c : Word) : Nat := spatM (cfgSpat c) / spatN (cfgSpat c)

/-- Place of A row i, of its metadata, of B column j, and of scale byte n at step s (R316). -/
def Cmd.aPlace (c : Cmd) (s i : Nat) : Nat := off21 (c.word 0) + s * lo16 (c.word 3) + i * lo16 (c.word 2)
def Cmd.bPlace (c : Cmd) (s j : Nat) : Nat := off21 (c.word 1) + s * hi16 (c.word 3) + j * hi16 (c.word 2)
def Cmd.metaPlace (c : Cmd) (s i : Nat) : Nat := off21 (c.word 5) + (32 * s + i) * (mxK (mxClass (cfgA c.cfg)) / 2)
def Cmd.scalePlace (c : Cmd) (s n : Nat) : Nat := off21 (c.word 4) + s * (32 + 32 * cfgX c.cfg) + n

/-- What step s reads in one quarter, in read order: place, bytes, and whether it is a scale byte (R316, R325). -/
def Cmd.stepItems (c : Cmd) (s : Nat) : List (Nat × Nat × Bool) :=
  let cls := mxClass (cfgA c.cfg)
  let x := cfgX c.cfg
  let rows := List.range (mxRows cls)
  rows.map (fun i => (c.aPlace s i, if cls = 4 then 32 else 16, false)) ++
  (if cfgSpat c.cfg = 0 then [] else rows.map fun i => (c.metaPlace s i, mxK cls / 2, false)) ++
  rows.map (fun j => (c.bPlace s j, if cls = 4 then 32 else 16 * x, false)) ++
  (if cls = 3 then (List.range (32 + 32 * x)).map fun n => (c.scalePlace s n, 1, true) else [])

/-- Size of an element of TYPE in memory (R329). -/
def mxTypeSize (ty : Nat) : Nat := [4, 2, 2, 1, 1, 4, 8].getD ty 0

/-- TYPE, RSTR, rows and columns of a drain or a load (R329, R330). -/
def Cmd.mxType (c : Cmd) : Nat := ((c.word 1).extractLsb' 21 3).toNat
def Cmd.mxStride (c : Cmd) : Nat := off21 (c.word 1)
def Cmd.mxTileRows (c : Cmd) : Nat := if c.mxType = 6 then 8 else 32
def Cmd.mxTileCols (c : Cmd) : Nat := if c.mxType = 6 then 32 else 128

/-- Place and bytes of row i of a drain or a load (R330). -/
def Cmd.rowPlace (c : Cmd) (i : Nat) : Nat × Nat :=
  (off21 (c.word 0) + i * c.mxStride, c.mxTileCols * mxTypeSize c.mxType)

/-- Every row. -/
def Cmd.tileRanges (c : Cmd) : List (Nat × Nat) := (List.range c.mxTileRows).map c.rowPlace

/-- Descriptor checks of MXLOOP but for its extents (R326); NSTEP 0 is checked as any other. -/
def Cmd.loopBad (c : Cmd) : Bool :=
  let cls := mxClass (cfgA c.cfg)
  let m := if cls = 4 then 8 else 4
  above (c.word 0) 21 || above (c.word 1) 21 || above (c.word 4) 21 || above (c.word 5) 21 || above (c.word 6) 20 ||
    above (c.word 7) 16 || cfgReserved c.cfg ||
    [off21 (c.word 0), off21 (c.word 1), lo16 (c.word 2), hi16 (c.word 2), lo16 (c.word 3), hi16 (c.word 3)].any
      (fun n => n % m != 0) ||
    (cls == 3 && off21 (c.word 4) % m != 0) || (cfgSpat c.cfg != 0 && off21 (c.word 5) % m != 0)

/-- Descriptor checks of MXDRAIN and MXLDA but for their extents (R326). -/
def Cmd.moveBad (c : Cmd) : Bool :=
  let m := if c.mxType = 6 then 8 else 4
  above (c.word 0) 21 || above (c.word 1) 25 || above (c.word 2) 20 || c.mxType == 7 ||
    off21 (c.word 0) % m != 0 || c.mxStride % m != 0

/-- Does a command reach beyond an allocation of `size` bytes (R326)? -/
def Cmd.mxBeyond (c : Cmd) (size : Nat) : Bool :=
  match c.kind with
  | .mxloop _ _ =>
    if c.mxSteps = 0 then false
    else (c.stepItems (c.mxSteps - 1)).any fun x => decide (size < x.1 + x.2.1)
  | _ => c.tileRanges.any fun r => decide (size < r.1 + r.2)

/-! ## Crews and banks (R309-R311) -/

namespace State

/-- The crew of a team. -/
def crewOf (s : State) (team : Nat) : Option Crew :=
  match s.getTeam? team with
  | none => none
  | some t => s.crews.find? fun k => k.launch == t.launch && k.crew == t.crew

/-- The crew member of a rank, wherever it runs (R309, R310). -/
def rankMember (s : State) (team rank : Nat) : Member :=
  match s.getTeam? team with
  | none => .bad
  | some t => match s.crewTeam team rank with
    | some k => match s.getTeam? k with
      | some u => if u.status = .out then .stalled else .here k
      | none => .bad
    | none => match s.getLaunch? t.launch with
      | some l => if rank < l.tpc then .stalled else .bad
      | none => .bad

/-- The member for a quarter of a command. -/
def quarterMember (s : State) (c : Cmd) (q : Nat) : Member := s.rankMember c.team (c.mxRank q)

/-- Team and record of a used quarter's member. -/
def quarterTeam (s : State) (c : Cmd) (q : Nat) : Option (Nat × Team) :=
  match s.quarterMember c q with
  | .here k => (s.getTeam? k).map fun t => (k, t)
  | _ => none

/-- The physical bank that a command's bank number names. -/
def physBank (s : State) (c : Cmd) : Nat := (((s.crewOf c.team).map (·.banks)).getD []).getD (c.kind.bank?.getD 0) 0

/-- Slice q of a bank of a cluster. -/
def getSlice (s : State) (cl b q : Nat) : BankSlice := (s.getCluster cl).banks.get (4 * b + q) ⟨[], false⟩
def setSlice (s : State) (cl b q : Nat) (x : BankSlice) : State :=
  s.modCluster cl fun k => { k with banks := k.banks.set (4 * b + q) x }

end State

/-- A word of a slice; an unlisted one is +0 (R311). -/
def BankSlice.word (x : BankSlice) (n : Nat) : Word := x.words.get n 0
def BankSlice.setWord (x : BankSlice) (n : Nat) (v : Word) : BankSlice :=
  { x with words := if v = 0 then x.words.erase n else x.words.set n v }
def BankSlice.dword (x : BankSlice) (n : Nat) : DWord := x.word (n + 1) ++ x.word n
def BankSlice.setDword (x : BankSlice) (n : Nat) (v : DWord) : BankSlice :=
  (x.setWord n (v.extractLsb' 0 32)).setWord (n + 1) (v.extractLsb' 32 32)

/-! ## One K-step (R316-R320, R325, R327) -/

/-- The stored A values of row i with the logical position each one selects (R316, R317). -/
def Cmd.aRow (c : Cmd) (t : Team) (s i : Nat) : List (Nat × MxEl) :=
  let ty := cfgA c.cfg
  let cls := mxClass ty
  let bytes := t.engBytesAt (c.aPlace s i) 16
  let sc := if cls = 3 then t.engBytesAt (c.scalePlace s i) 1 else []
  let idx := if cfgSpat c.cfg = 0 then [] else t.engBytesAt (c.metaPlace s i) (mxK cls / 2)
  (List.range (mxK cls)).map fun v =>
    let n := ((idx.getD (v / 2) 0).extractLsb' (4 * (v % 2)) 4).toNat
    let m := spatM (cfgSpat c.cfg)
    (v / spatN (cfgSpat c.cfg) * m + n % m, mxEl ty bytes sc v)

/-- The B values of column j. -/
def Cmd.bCol (c : Cmd) (t : Team) (s j : Nat) : List MxEl :=
  let ty := cfgB c.cfg
  let cls := mxClass ty
  let x := cfgX c.cfg
  let bytes := t.engBytesAt (c.bPlace s j) (16 * x)
  let sc := if cls = 3 then t.engBytesAt (c.scalePlace s (32 + j * x)) x else []
  (List.range (mxK cls * x)).map (mxEl ty bytes sc)

/-- The four F64 values of a class D row or column. -/
def fourDoubles (t : Team) (off : Nat) : List Nat := (List.range 4).map fun v => leNat (t.engBytesAt (off + 8 * v) 8)

/-- The scale SA × SB of classes E and Q (R318). -/
def Cmd.mxScale (c : Cmd) : Option FVal :=
  let cls := mxClass (cfgA c.cfg)
  if cls = 1 ∨ cls = 3 then mulVal (fdecode .f32 c.sa.toNat) (fdecode .f32 c.sb.toNat) else none

/-- Slice q after step s: local row by local row, over the columns of the used quarters (R309, R312, R318). -/
def Cmd.stepSlice (c : Cmd) (zero : Bool) (s : Nat) (tq : Team) (cols : List (Nat × Team)) (x : BankSlice) : BankSlice :=
  let cls := mxClass (cfgA c.cfg)
  let rows := mxRows cls
  let fresh := zero && s == 0
  (List.range rows).foldl (fun x i =>
    if cls = 4 then
      let a := fourDoubles tq (c.aPlace s i)
      cols.foldl (fun x p => (List.range rows).foldl (fun x j =>
        let n := 2 * (32 * i + (8 * p.1 + j))
        x.setDword n (mxUpdateF64 (if fresh then 0 else x.dword n) (a.zip (fourDoubles p.2 (c.bPlace s j))))) x) x
    else
      let a := c.aRow tq s i
      cols.foldl (fun x p => (List.range rows).foldl (fun x j =>
        let n := 128 * i + (32 * p.1 + j)
        let b := c.bCol p.2 s j
        let old := if fresh then 0 else x.word n
        let pairs := a.map fun v => (v.2, b.getD v.1 (.bad 1))
        x.setWord n (if cls = 2 then mxUpdateInt old (cfgSat c.cfg) pairs else mxUpdate old c.mxScale pairs)) x) x) x

/-- The first wrong item among those that a step reads in one quarter (R325). -/
def itemFault (t : Team) (scp : Bool) (items : List (Nat × Nat × Bool)) : Option EngFault :=
  items.findSome? fun x =>
    match (rangeWords [(x.1, x.2.1)]).findSome? t.wordFault with
    | some e => some e
    | none =>
      if x.2.2 && !scp && corrupt (t.engByte x.1) then some (eSELC, BitVec.ofNat 64 x.1) else none

/-- Does a step read a pending or poisoned word? -/
def itemSpoil (t : Team) (items : List (Nat × Nat × Bool)) : Bool :=
  (rangeWords (items.map fun x => (x.1, x.2.1))).any fun w => (t.wordFault w).isSome

/-- Slices as a mask. -/
def sliceBits (qs : List Nat) : BitVec 4 := qs.foldl (fun m q => m ||| BitVec.twoPow 4 q) 0

namespace State

/-- The members of the used quarters. -/
def usedTeams (s : State) (c : Cmd) : List (Nat × Team) :=
  c.mxUse.filterMap fun q => (s.quarterTeam c q).map fun t => (q, t.2)

/-- One K-step of an MXLOOP in a cluster: the state and the command with what it found. -/
def kStep (s : State) (cl : Nat) (zero : Bool) (c : Cmd) : State × Cmd :=
  let ts := s.usedTeams c
  let k := c.steps
  let b := s.physBank c
  let items := c.stepItems k
  let err := match c.err with
    | some e => some e
    | none => ts.findSome? fun p => itemFault p.2 (scpOf c.fmt) items
  let spoil := if ts.any fun p => itemSpoil p.2 items then sliceBits c.mxUse else 0
  let s := ts.foldl (fun s p => s.setSlice cl b p.1 (c.stepSlice zero k p.2 ts (s.getSlice cl b p.1))) s
  let s := s.debit cl (if mxClass (cfgA c.cfg) = 4 then 24 else 48)
  (s, { c with steps := k + 1, err := err, spoil := c.spoil ||| spoil })

end State

/-! ## MXDRAIN and MXLDA (R330) -/

/-- FCVT's environment for a drain: RNE, DNO 0, NANL 0, F8SAT from SAT. -/
def drainEnv (sat : Bool) : FEnv := { FEnv.zero with f8sat := sat }

/-- The format of a narrow TYPE. -/
def mxFormat (ty : Nat) : Option FFmt :=
  match ty with
  | 1 => some .bf16
  | 2 => some .f16
  | 3 => some .e4m3fn
  | 4 => some .e5m2
  | _ => none

/-- Bytes of row i of a slice as a drain writes them. -/
def drainRow (ty : Nat) (sat : Bool) (x : BankSlice) (i : Nat) : List Byte :=
  if ty = 6 then (List.range 32).flatMap fun j => dwordBytes (x.dword (2 * (32 * i + j)))
  else (List.range 128).flatMap fun j =>
    let w := x.word (128 * i + j)
    match mxFormat ty with
    | some f => leBytes (mxTypeSize ty) (cvtFF .f32 f (drainEnv sat) w.toNat).1
    | none => wordBytes w

/-- A slice with row i loaded from bytes. -/
def loadRow (ty : Nat) (bytes : List Byte) (i : Nat) (x : BankSlice) : BankSlice :=
  let n := mxTypeSize ty
  let val (j : Nat) : Nat := leNat ((bytes.drop (n * j)).take n)
  if ty = 6 then (List.range 32).foldl (fun x j => x.setDword (2 * (32 * i + j)) (BitVec.ofNat 64 (val j))) x
  else (List.range 128).foldl (fun x j =>
    let v := match mxFormat ty with
      | some f => (cvtFF f .f32 FEnv.zero (val j)).1
      | none => val j
    x.setWord (128 * i + j) (BitVec.ofNat 32 v)) x

/-- Write whole or partial words for a command: poison as R237 says, and no longer pending. -/
def Team.drainBytes (t : Team) (id off unit : Nat) (bytes : List Byte) (p : Bool) : Team :=
  let words := rangeWords [(off, bytes.length)]
  if 4 ≤ unit then
    words.foldl (fun t w => t.engWord id w ⟨BitVec.ofNat 32 (leNat ((bytes.drop (4 * w - off)).take 4)), p⟩) t
  else
    let t := t.spBytes off bytes
    words.foldl (fun t w => (if p then t.setSpPoison w true else t).unmark id w) t

namespace State

/-- A slice whose words become +0; its poison bit clears when the command completes (R328, R330, R331). -/
def zeroSlice (s : State) (cl b q : Nat) : State := s.setSlice cl b q { s.getSlice cl b q with words := [] }

/-- MXDRAIN's pass. -/
def drainPass (s : State) (cl : Nat) (zero : Bool) (c : Cmd) : State × Cmd :=
  let b := s.physBank c
  let s := c.mxUse.foldl (fun s q =>
    let x := s.getSlice cl b q
    let s := match s.quarterTeam c q with
      | some (k, _) => s.modTeam k fun t => (List.range c.mxTileRows).foldl (fun t i =>
          t.drainBytes c.id (c.rowPlace i).1 (mxTypeSize c.mxType)
            (drainRow c.mxType ((c.word 1).getLsbD 24) x i) x.poison) t
      | none => s
    if zero then s.zeroSlice cl b q else s) s
  (s, c)

/-- MXLDA's pass. -/
def loadPass (s : State) (cl : Nat) (c : Cmd) : State × Cmd :=
  let b := s.physBank c
  let ts := s.usedTeams c
  let items := c.tileRanges.map fun r => (r.1, r.2, false)
  let err := ts.findSome? fun p => itemFault p.2 true items
  let spoil := sliceBits ((ts.filter fun p => itemSpoil p.2 items).map (·.1))
  let s := ts.foldl (fun s p => s.setSlice cl b p.1 ((List.range c.mxTileRows).foldl (fun x i =>
    loadRow c.mxType (p.2.engBytesAt (c.rowPlace i).1 (c.rowPlace i).2) i x) (s.getSlice cl b p.1))) s
  (s, { c with err := err, spoil := spoil })

/-- MXZERO's pass: every word of the four slices becomes +0 (R328). -/
def zeroPass (s : State) (cl : Nat) (c : Cmd) : State :=
  (List.range 4).foldl (fun s q => s.zeroSlice cl (s.physBank c) q) s

/-! ## The reservation table (R321-R324) -/

/-- Do two commands name the same bank of the same crew (R322)? -/
def sameBank (s : State) (a b : Cmd) : Bool :=
  a.kind.bank? == b.kind.bank? && match s.getTeam? a.team, s.getTeam? b.team with
    | some t, some u => t.launch == u.launch && t.crew == u.crew
    | _, _ => false

/-- Is entry k of a table eligible for a pass (R310, R322)? One whose crew's banks are out with its members waits for them
(R440). An entry that its guard holds back stops only entries that share a bank with it (DESIGN CHOICE, log 80). -/
def eligible (s : State) (table : List Cmd) (k : Nat) : Bool :=
  match table[k]? with
  | none => false
  | some c =>
    (c.guard == .none || c.guard == .goes) && c.completeAt.isNone &&
    (c.mxUse.all fun q => s.quarterMember c q != .stalled) &&
    (c.kind.bank?.isNone || ((s.crewOf c.team).map (·.banks)).any fun b => !b.isEmpty) &&
    (table.take k).all fun d => !s.sameBank d c

/-- Has an entry waited 4096 cycles since its acceptance or its last pass (R323)? -/
def hasWaited (s : State) (cl : Nat) (c : Cmd) : Bool := c.aged || decide (c.since + 4096 ≤ s.nowIn cl)

/-- The entry that the arbiter grants (R323). -/
def pickEntry (s : State) (cl : Nat) : Option Nat :=
  let table := (s.getCluster cl).table
  let ks := (List.range table.length).filter (s.eligible table)
  let keep (f : Cmd → Bool) (l : List Nat) : List Nat :=
    let m := l.filter fun k => (table[k]?).any f
    if m.isEmpty then l else m
  (keep (·.mxi) (keep (s.hasWaited cl) ks)).head?

/-- Put a changed command back into its table. -/
def putCmd (s : State) (cl : Nat) (c : Cmd) : State :=
  s.modCluster cl fun k => { k with table := k.table.map fun d => if d.id = c.id then c else d }

/-- The checks of R326 at the first pass, and the poison of R291. -/
def mxFirst (s : State) (c : Cmd) : Option EngFault :=
  if c.poison then some (ePOISON, 0)
  else
    let members := c.mxUse.map (s.quarterMember c)
    let ts := s.usedTeams c
    let bad := match c.kind with
      | .mxloop _ _ => c.loopBad
      | .mxzero _ => false
      | _ => c.moveBad
    if bad || members.contains .bad || decide ((ts.map fun p => p.2.core).eraseDups.length < ts.length) ||
        ts.any fun p => c.mxBeyond p.2.size then
      some (eBOUNDS, 0)
    else none

/-- The end of a pass of `dur` cycles, or of a K-step of one; a command whose last pass it is completes 24 cycles later
(R324). -/
def endPass (s : State) (cl dur : Nat) (last : Bool) (c : Cmd) : State :=
  let e := s.nowIn cl + dur
  (s.modCluster cl fun k => { k with mxFree := e }).putCmd cl
    { c with started := true, aged := false, since := e, completeAt := if last then some (e + 24) else none }

/-- The next K-step of an MXLOOP, the first of the n that its pass has left: the pass goes on with the others (R323, R324). -/
def stepPass (s : State) (cl : Nat) (zero : Bool) (c : Cmd) (n : Nat) : State :=
  let r := s.kStep cl zero c
  let last := decide (c.mxSteps ≤ r.2.steps)
  (r.1.modCluster cl fun k => { k with mxPass := if last || decide (n ≤ 1) then none else some (c.id, n - 1) }).endPass cl
    (mxCycles (mxClass (cfgA c.cfg))) last r.2

/-- One pass of a command, of an MXLOOP its first K-step (R323, R324, R327-R330). -/
def passOf (s : State) (cl : Nat) (c : Cmd) : State :=
  match (if c.started then none else s.mxFirst c) with
  | some e => (s.dropMarks c.id).endPass cl 0 true { c with err := some e, spoil := 0 }
  | none =>
    let none? := c.mxUse.isEmpty
    match c.kind with
    | .mxloop zero _ =>
      if none? || c.mxSteps = 0 then s.endPass cl 0 true c else s.stepPass cl zero c 4
    | .mxzero _ => ((s.zeroPass cl c).debit cl 8).endPass cl 8 true c
    | .mxdrain zero _ =>
      if none? then s.endPass cl 0 true c
      else
        let r := s.drainPass cl zero c
        (r.1.debit cl 8).endPass cl (16 * (if c.mxType = 6 then 1 else 2 * mxTypeSize c.mxType)) true r.2
    | .mxlda _ =>
      if none? then s.endPass cl 0 true c
      else
        let r := s.loadPass cl c
        (r.1.debit cl 8).endPass cl (16 * (if c.mxType = 6 then 1 else 2 * mxTypeSize c.mxType)) true r.2
    | _ => s

end State

/-- MX_PASS (R323): the engine is free, and the next K-step of its pass begins, or the pass of an eligible entry. At level 4
neither does (R460). -/
def execMxPass (cl : Nat) (s : State) : Answer :=
  .next (
    let k := s.getCluster cl
    if s.nowIn cl < k.mxFree ∨ k.gate ∨ 4 ≤ s.level cl then s
    else match k.mxPass with
      | some (id, n) => match k.table.find? fun c => c.id == id with
        | some c => s.stepPass cl (c.kind == .mxloop true (c.kind.bank?.getD 0)) c n
        | none => s.modCluster cl fun k => { k with mxPass := none }
      | none => match s.pickEntry cl with
        | none => s
        | some i => match k.table[i]? with
          | none => s
          | some c => (s.settleStores c).passOf cl c)

/-- MX_AGING (R323). -/
def execMxAging (cl k : Nat) (s : State) : Answer :=
  .next (match (s.getCluster cl).table[k]? with
    | none => s
    | some c => if c.since + 4096 ≤ s.nowIn cl then s.putCmd cl { c with aged := true } else s)

/-- MX_COMPLETION (R324, R325, R328, R330, R331): the poison bits of the bank's slices become what the command leaves. -/
def execMxCompletion (cl k : Nat) (s : State) : Answer :=
  .next (match (s.getCluster cl).table[k]? with
    | none => s
    | some c => match c.completeAt with
      | none => s
      | some e =>
        if s.nowIn cl < e then s
        else
          let b := s.physBank c
          let ran := match c.err with
            | some x => x.1 != eBOUNDS && !c.poison
            | none => true
          let set (p : Nat → Bool → Bool) (s : State) (qs : List Nat) : State :=
            qs.foldl (fun s q => let x := s.getSlice cl b q
              s.setSlice cl b q { x with poison := p q x.poison }) s
          let s := if !ran then s else match c.kind with
            | .mxloop _ _ => set (fun q p => p || c.spoil.getLsbD q) s c.mxUse
            | .mxlda _ => set (fun q _ => c.spoil.getLsbD q) s c.mxUse
            | .mxdrain true _ => set (fun _ _ => false) s c.mxUse
            | .mxzero _ => set (fun _ _ => false) s (List.range 4)
            | _ => s
          (s.removeCmd c.id).complete c c.err)

/-! ## Issue (R321, R327-R329) -/

/-- Marks of an MXDRAIN at acceptance (R330). -/
def Cmd.markDrain (c : Cmd) (s : State) : State :=
  match c.kind with
  | .mxdrain _ _ =>
    (c.mxUse.filterMap fun q => s.crewTeam c.team (c.mxRank q)).foldl
      (fun s k => s.markWords k c.id (rangeWords c.tileRanges)) s
  | _ => s

namespace State

/-- A team starts: the drains that name it and have taken no pass mark its words (R232, R330). -/
def markLateDrains (s : State) (team : Nat) : State :=
  s.allCmds.foldl (fun s c =>
    match c.kind with
    | .mxdrain _ _ =>
      if c.started then s
      else c.mxUse.foldl (fun s q =>
        if s.crewTeam c.team (c.mxRank q) == some team then s.markWords team c.id (rangeWords c.tileRanges) else s) s
    | _ => s) s

/-- No free entry, commands that wait to enter again, or the table has accepted a command in this cycle (R321). -/
def tableFull (s : State) : Bool :=
  let k := s.getCluster (clusterOf (coreOf s.cur.wid))
  decide (16 ≤ k.table.length) || !k.mxWait.isEmpty || decide (s.now < k.mxTaken)

/-- Banks granted to the current warp's crew. -/
def crewBanks (s : State) : List Nat := ((s.crewOf s.w.team).map (·.banks)).getD []

/-- A matrix command at issue (R291, R321). -/
def mxAsk (s : State) (h : Hdr) (kind : CmdKind) (regs : List Nat) (b : BitVec 6) (u : BitVec 3) : State :=
  s.askEngine h
    { cls := 1, kind, block := regs, operands := [], bar := ecBar b, badBar := false, guard := u.toNat,
      denied := decide (s.crewBanks.length ≤ kind.bank?.getD 0) }
    tableFull Cmd.markDrain
    fun c s => s.modCluster (clusterOf c.core) fun k => { k with table := k.table ++ [c] }

end State

/-- MXLOOP (R327). -/
def execMxloop (h : Hdr) (hb : BitVec 6) (n : BitVec 2) (b : BitVec 6) (u : BitVec 3) (q : BitVec 1) (s : State) :
    Answer :=
  .next (s.mxAsk h (.mxloop (q == 1) n.toNat) (block hb.toNat 8) b u)

/-- MXDRAIN (R329). -/
def execMxdrain (h : Hdr) (hb : BitVec 6) (n : BitVec 2) (b : BitVec 6) (u : BitVec 3) (q : BitVec 1) (s : State) :
    Answer :=
  .next (s.mxAsk h (.mxdrain (q == 1) n.toNat) (block hb.toNat 3) b u)

/-- MXLDA (R329). -/
def execMxlda (h : Hdr) (hb : BitVec 6) (n : BitVec 2) (b : BitVec 6) (u : BitVec 3) (s : State) : Answer :=
  .next (s.mxAsk h (.mxlda n.toNat) (block hb.toNat 3) b u)

/-- MXZERO (R328). -/
def execMxzero (h : Hdr) (n : BitVec 2) (b : BitVec 6) (u : BitVec 3) (s : State) : Answer :=
  .next (s.mxAsk h (.mxzero n.toNat) [] b u)

/-- The word that a selector of MXQ names (R331). -/
def State.mxQuery (s : State) (sel : Nat) : Word :=
  let cl := clusterOf (coreOf s.cur.wid)
  match sel with
  | 0 => s.w.cfg
  | 1 => BitVec.ofNat 32 (16 - (s.getCluster cl).table.length)
  | 2 => BitVec.ofNat 32 (((List.range s.crewBanks.length).flatMap fun b => (List.range 4).map fun q =>
      if (s.getSlice cl (s.crewBanks.getD b 0) q).poison then 2 ^ (4 * b + q) else 0).sum)
  | _ => BitVec.ofNat 32 s.crewBanks.length

/-- MXQ (R331). -/
def execMxq (h : Hdr) (d b : BitVec 6) (s : State) : Answer :=
  .next (s.unitRegStep 4 h (.late false) fun s => .ok ([s.res d.toNat (.u (s.mxQuery b.toNat) false)], s))

end Sys2Proof.Machine
end

