-- ==== Sys2Proof/Machine/Narrow.lean ====
section
/-! DEFINITION. The transform pipe: QST, QSTF, QERR, QCHK, QEXP, QEXPB, VDEC and their execution (spec/14). -/

namespace Sys2Proof.Machine

/-! ## Blocks of a register (R340) -/

/-- The elements of block b: the active lanes' values, +0 in every other lane. -/
def blockElems (act : LaneSet) (lanes : List Lane) (b : Nat) : List Nat :=
  (List.range 32).map fun i => if act.getLsbD (32 * b + i) then ((lanes.getD (32 * b + i) ⟨0, false⟩).val).toNat else 0

/-- The blocks of a warp of width wd that are not skipped. -/
def blocksOf (wd : Nat) (act : LaneSet) : List Nat :=
  (List.range (wd / 32)).filter fun b => act.extractLsb' (32 * b) 32 != 0#32

/-- The encoding of block b of a command's data register (R341). -/
def Cmd.encoded (c : Cmd) (first : Bool) (b : Nat) : Encoding :=
  encodeBlock (blockElems c.act c.lanes b) (allowedSels c.fmt first)

/-- The blocks of a QST. -/
def Cmd.blocks (c : Cmd) : List Nat := blocksOf c.lanes.length c.act

/-! ## Places of a transform command (R344, R348, R352) -/

/-- BAR of a second descriptor word (R338). -/
def barField (w : Word) : Nat := (w.extractLsb' 26 6).toNat

/-- Bytes that a command writes: place and count. -/
def Cmd.xfOut (c : Cmd) : List (Nat × Nat) :=
  match c.kind with
  | .qst _ => c.blocks.flatMap fun b => [(off21 (c.word 0) + 16 * b, 16), (off21 (c.word 1) + b, 1)]
  | .qexp bf16 => [(off21 (c.word 2), (c.word 2).toNat / 2 ^ 21 * (if bf16 then 64 else 128))]
  | .vdec => [(off21 (c.word 1), lo16 (c.word 3)), (off21 (c.word 4), 4)]
  | _ => []

/-- Bytes that a command reads, but for a VDEC's stream and symbols. -/
def Cmd.xfIn (c : Cmd) : List (Nat × Nat) :=
  match c.kind with
  | .qexp _ =>
    let n := (c.word 2).toNat / 2 ^ 21
    [(off21 (c.word 0), 16 * n), (off21 (c.word 1), n)]
  | .vdec => [(off21 (c.word 2), 32)]
  | _ => []

/-- The field checks of a command (R345, R349, R354). -/
def Cmd.xfBad (c : Cmd) : Bool :=
  let d1 := (c.word 1).extractLsb' 21 5 != 0
  above (c.word 0) 21 || d1 || match c.kind with
    | .qst _ => off21 (c.word 0) % 16 != 0
    | .qexp _ => off21 (c.word 0) % 16 != 0 || off21 (c.word 2) % 4 != 0
    | _ => above (c.word 2) 21 || above (c.word 3) 31 || above (c.word 4) 21 || off21 (c.word 0) % 4 != 0 ||
        off21 (c.word 2) % 4 != 0 || off21 (c.word 4) % 4 != 0 || decide (32768 < lo16 (c.word 3))

/-- A range of bytes that lies in an allocation; an empty one always does. -/
def rangeIn (size : Nat) (r : Nat × Nat) : Bool := r.2 == 0 || decide (r.1 + r.2 ≤ size)

/-! ## Acceptance (R338) -/

/-- Marks of a transform command. -/
def Cmd.markXf (c : Cmd) (s : State) : State :=
  if c.badBar || c.poison then s else s.markWords c.team c.id (rangeWords c.xfOut)

namespace State

/-- The transform pipe's queue is full (R337). -/
def xfFull (s : State) : Bool := decide (32 ≤ (s.getCore (coreOf s.cur.wid)).xfQ.length)

/-- The tile barrier that BAR names, and whether BAR names none that is valid (R338). -/
def xfBar (s : State) (w : Word) : Option Nat × Bool :=
  let k := barField w
  if k = 0 then (none, false)
  else match s.team? with
    | some t => if k ≤ t.nbar ∧ (t.bar (k - 1)).exp ≠ 0 then (some (k - 1), false) else (none, true)
    | none => (none, true)

/-- A transform command at issue, with n descriptor registers from register hb (R291, R338). -/
def xfAsk (s : State) (h : Hdr) (kind : CmdKind) (hb n : Nat) (operands : List Nat) : State :=
  let b := s.xfBar ((s.rd (hb + 1)).lane 0).val
  s.askEngine h
    { cls := 2, kind, block := block hb n, operands, bar := b.1, badBar := b.2, guard := 0, denied := false }
    xfFull Cmd.markXf fun c s => s.modCore c.core fun k => { k with xfQ := k.xfQ ++ [c] }

/-! ## Execution (R339) -/

/-- The command that the pipe of a core runs next, if it is the k-th. -/
def xfReady (s : State) (core k : Nat) : Option Cmd := if k = 0 then (s.getCore core).xfQ.head? else none

/-- What the checks of a command find: BOUNDS for a bad barrier, POISON, the fields and the extents (R338, R345, R349,
R354). -/
def xfFault (c : Cmd) (size : Nat) : Option EngFault :=
  if c.badBar then some (eBOUNDS, 0)
  else if c.poison then some (ePOISON, 0)
  else if c.xfBad || !(c.xfOut ++ c.xfIn).all (rangeIn size) then some (eBOUNDS, 0)
  else none

/-- Commands of its queue that are younger than the one that the pipe runs. -/
def xfYounger (s : State) (c : Cmd) : List Nat := ((s.getCore c.core).xfQ.filter fun d => d.id != c.id).map (·.id)

/-- A command of the pipe ends: `f` on the team's scratchpad as the command sees it, without the marks of younger commands,
gives the scratchpad and the outcome (R339). -/
def endXf (s : State) (c : Cmd) (t : Team) (f : Team → Except EngFault (Team × Option EngFault)) : State :=
  let younger := s.xfYounger c
  let s := s.removeCmd c.id
  match f (t.without younger) with
  | .error e => s.failCmd c e
  | .ok (t', err) =>
    let kept := t.marks.filter fun m => younger.contains m.2
    (s.setTeam c.team { t' with marks := t'.marks ++ kept }).complete c err

/-- Run a command of the pipe: once its checks are passed the pipe works on it for some cycles, which weigh on the allowance
as they pass (R460), and then it ends (R338, R339). -/
def runXf (s : State) (c : Cmd) (cycles : Team → Nat) (f : Team → Except EngFault (Team × Option EngFault)) : State :=
  let s := s.settleStores c
  match s.getTeam? c.team with
  | none => (s.removeCmd c.id).complete c none
  | some t => match xfFault c t.size, c.completeAt with
    | some e, _ => (s.removeCmd c.id).failCmd c e
    | none, none =>
      let n := cycles (t.without (s.xfYounger c))
      (s.updateCmd { c with started := true, completeAt := some (s.nowOf (64 * c.core) + n) }).engineWork (clusterOf c.core) n 2
    | none, some e => if s.nowOf (64 * c.core) < e then s else s.endXf c t f

end State

/-! ## QST and QSTF (R344, R345) -/

/-- Write one encoded block: the code bytes, then the scale byte (R343). -/
def Cmd.writeBlock (c : Cmd) (first : Bool) (t : Team) (b : Nat) : Team :=
  let e := c.encoded first b
  let codes := codeBytes e.codes
  let t := (List.range 4).foldl (fun t k =>
    t.engWord c.id (off21 (c.word 0) / 4 + 4 * b + k) ⟨BitVec.ofNat 32 (leNat ((codes.drop (4 * k)).take 4)), false⟩) t
  let o := off21 (c.word 1) + b
  t.engBytes o [e.scale] false

/-- QST (R344). -/
def execQst (h : Hdr) (hb a : BitVec 6) (s : State) : Answer := .next (s.xfAsk h (.qst false) hb.toNat 2 [a.toNat])

/-- QSTF (R344). -/
def execQstf (h : Hdr) (hb a : BitVec 6) (s : State) : Answer := .next (s.xfAsk h (.qst true) hb.toNat 2 [a.toNat])

/-- QST_EXECUTION (R345). -/
def execQstExecution (core k : Nat) (s : State) : Answer :=
  .next (match s.xfReady core k with
    | none => s
    | some c => match c.kind with
      | .qst first => s.runXf c (fun _ => 6 * c.blocks.length) fun t => .ok (c.blocks.foldl (c.writeBlock first) t, none)
      | _ => s)

/-! ## QERR and QCHK (R346, R347) -/

/-- A synchronous instruction keeps the pipe for some cycles (R460). -/
def State.useXf (s : State) (n : Nat) : State :=
  let t := s.takeUnit 1 n
  if isMgmt s.cur.wid then t else t.engineWork (clusterOf (coreOf s.cur.wid)) n 2

/-- QERR (R346). -/
def execQerr (h : Hdr) (d a b : BitVec 6) (s : State) : Answer :=
  .next (s.whenTaken 1 <| State.effStep h (.late false) 1 [a.toNat] fun s =>
    let x := s.rd a.toNat
    let mode := b.toNat
    let lanes := (List.range s.width).map x.lane
    let bs := blocksOf s.width s.act
    let word (i : Nat) : Word :=
      let e := encodeBlock (blockElems s.act lanes (i / 32)) (allowedSels s.fmt (mode % 2 == 1))
      if mode < 2 then BitVec.ofNat 32 e.err else e.scale.zeroExtend 32
    let pz (i : Nat) : Bool := (poisonLanes s.act x).extractLsb' (32 * (i / 32)) 32 != 0#32
    .ok ([s.res d.toNat (vLanes s.width fun i => ⟨word i, pz i⟩)], s.useXf (6 * bs.length)))

/-- The word of QCHK for one word of scale bytes (R347). -/
def chkWord (w : Word) : Word :=
  (List.range 4).foldl (fun m k =>
    let b := w.extractLsb' (8 * k) 8
    if corrupt b then m ||| BitVec.twoPow 32 k
    else if scaleExp b = 31 then m ||| BitVec.twoPow 32 (4 + k) else m) 0

/-- QCHK (R347). -/
def execQchk (h : Hdr) (d a : BitVec 6) (s : State) : Answer :=
  .next (s.whenTaken 1 <| State.effStep h (.late false) 1 [a.toNat] fun s =>
    let x := s.rd a.toNat
    .ok ([s.res d.toNat (vLanes s.width fun i => ⟨chkWord (x.lane i).val, (x.lane i).poison⟩)],
      s.useXf ((slicesIn s.act + 3) / 4)))

/-! ## QEXP and QEXPB (R348, R349) -/

/-- The value of a code under a scale byte in a format (R336, R342, R349). -/
def expandCode (f : FFmt) (b : Byte) (c : BitVec 4) : Nat :=
  if corrupt b then genNan f false 5
  else if scaleExp b = 31 then genNan f false 2
  else (roundVal f FEnv.zero (codeValue b c)).1

/-- A run of an expansion: scratchpad, first fault, and the element that waits for its word's other half. -/
structure ExpRun where
  t : Team
  err : Option EngFault
  half : Nat × Bool

/-- The first of two outcomes. -/
def orFault (a b : Option EngFault) : Option EngFault :=
  match a with
  | some e => some e
  | none => b

/-- Element i of block n: its scale byte is read, then its code, and the element is written (R349). -/
def Cmd.expElem (c : Cmd) (bf16 : Bool) (n i : Nat) (r : ExpRun) : ExpRun :=
  let so := off21 (c.word 1) + n
  let b := r.t.engByte so
  let f := r.t.wordFault (so / 4)
  let sel := if corrupt b && !scpOf c.fmt then some (eSELC, BitVec.ofNat 64 so) else none
  let o := off21 (c.word 0) + 16 * n + i / 2
  let cf := r.t.wordFault (o / 4)
  let code := (r.t.engByte o).extractLsb' (4 * (i % 2)) 4
  let y := expandCode (if bf16 then .bf16 else .f32) b code
  let p := f.isSome || cf.isSome
  let g := 32 * n + i
  let err := orFault r.err (orFault f (orFault sel cf))
  let doff := off21 (c.word 2)
  if !bf16 then { r with t := r.t.engWord c.id (doff / 4 + g) ⟨BitVec.ofNat 32 y, p⟩, err := err }
  else if g % 2 = 0 then { r with half := (y, p), err := err }
  else { r with
    t := r.t.engWord c.id (doff / 4 + g / 2) ⟨BitVec.ofNat 32 (r.half.1 + 2 ^ 16 * y), r.half.2 || p⟩, err := err }

/-- One block (R349). -/
def Cmd.expBlock (c : Cmd) (bf16 : Bool) (r : ExpRun) (n : Nat) : ExpRun :=
  (List.range 32).foldl (fun r i => c.expElem bf16 n i r) r

/-- QEXP (R348). -/
def execQexp (h : Hdr) (hb : BitVec 6) (s : State) : Answer := .next (s.xfAsk h (.qexp false) hb.toNat 3 [])

/-- QEXPB (R348). -/
def execQexpb (h : Hdr) (hb : BitVec 6) (s : State) : Answer := .next (s.xfAsk h (.qexp true) hb.toNat 3 [])

/-- QEXP_EXECUTION (R349). -/
def execQexpExecution (core k : Nat) (s : State) : Answer :=
  .next (match s.xfReady core k with
    | none => s
    | some c => match c.kind with
      | .qexp bf16 =>
        let n := (c.word 2).toNat / 2 ^ 21
        s.runXf c (fun _ => 2 * n) fun t =>
          let r := (List.range n).foldl (c.expBlock bf16) ⟨t, none, (0, false)⟩
          .ok (r.t, r.err)
      | _ => s)

/-! ## VDEC (R350-R355) -/

/-- A code length of a table: CNT, first code, and index of its first symbol (R350). -/
structure CodeRow where
  cnt : Nat
  first : Nat
  base : Nat
  deriving DecidableEq, Repr

/-- The rows of a table from its counts, from length L up; none when a count overflows its length (R350). -/
def codeRows : Nat → Nat → Nat → List Nat → Option (List CodeRow)
  | _, _, _, [] => some []
  | len, code, k, n :: rest =>
    if 2 ^ len < code + n then none
    else (codeRows (len + 1) ((code + n) * 2) (k + n) rest).map fun l => ⟨n, code, k⟩ :: l

/-- What reading one code gives (R354). -/
inductive CodeRead where
  | sym (k p : Nat) (fault : Option EngFault)
  | err (code : Nat) (fault : Option EngFault)

/-- Read one code at stream bit p, with v so far (R351, R354). -/
def readCode (t : Team) (ioff : Nat) : List CodeRow → Nat → Nat → Option EngFault → CodeRead
  | [], _, _, f => .err 1 f
  | r :: rest, p, v, f =>
    let o := ioff + p / 8
    if 32784 ≤ p then .err 2 f
    else if t.size ≤ o then .err 4 f
    else
      let f := orFault f (t.wordFault (o / 4))
      let v := 2 * v + ((t.engByte o).getLsbD (7 - p % 8)).toNat
      if r.first ≤ v ∧ v < r.first + r.cnt then .sym (r.base + v - r.first) (p + 1) f
      else readCode t ioff rest (p + 1) v f

/-- A run of a VDEC: the scratchpad, the symbols written, the bit at which the next code starts, or the last one did where it
failed, the error code, and the first bad word. -/
structure Decoded where
  t : Team
  k : Nat
  p : Nat
  err : Nat
  fault : Option EngFault

/-- Symbol k is written: its word is poisoned if a bit of its code came from a bad word, and is no longer pending for the
command once its last byte is written (R354; log 44). -/
def Cmd.putSym (c : Cmd) (t : Team) (k : Nat) (sym : Byte) (bad : Bool) : Team :=
  let o := off21 (c.word 1) + k
  let t := t.engBytes o [sym] bad
  if o % 4 = 3 ∨ k + 1 = lo16 (c.word 3) then t.unmark c.id (o / 4) else t

/-- Decode up to n symbols, and write each before the next code is read (R354). -/
def Cmd.decodeSyms (c : Cmd) (rows : List CodeRow) (syms : List Byte) : Nat → Decoded → Decoded
  | 0, d => d
  | n + 1, d =>
    match readCode d.t (off21 (c.word 0)) rows d.p 0 none with
    | .err e g => { d with err := e, fault := orFault d.fault g }
    | .sym k q g => c.decodeSyms rows syms n
        { d with t := c.putSym d.t d.k (syms.getD k 0) g.isSome, k := d.k + 1, p := q, fault := orFault d.fault g }

/-- VDEC (R352). -/
def execVdec (h : Hdr) (hb : BitVec 6) (s : State) : Answer := .next (s.xfAsk h .vdec hb.toNat 5 [])

/-- The code table at TOFF: its rows and symbols when it is valid; BOUNDS when a symbol lies beyond S (R350, R354). -/
def Cmd.codeTable (c : Cmd) (t : Team) : Except EngFault (Option (List CodeRow × List Byte)) :=
  let o := off21 (c.word 2)
  let cnts := (List.range 16).map fun l => leNat (t.engBytesAt (o + 2 * l) 2)
  let n := cnts.sum
  if !rangeIn t.size (o + 32, n) then .error (eBOUNDS, 0)
  else
    let clean := (rangeWords [(o, 32 + n)]).all fun w => (t.wordFault w).isNone
    match codeRows 1 0 0 cnts with
    | some rows => .ok (if n ≤ 256 ∧ clean then some (rows, t.engBytesAt (o + 32) n) else none)
    | none => .ok none

/-- The output bytes without a symbol become 0, and a word that holds no symbol is poisoned; then the status word is written
(R354). -/
def Cmd.vdecOut (c : Cmd) (d : Decoded) : Team :=
  let o := off21 (c.word 1) + d.k
  let n := lo16 (c.word 3) - d.k
  let t := d.t.spBytes o (List.replicate n 0)
  let t := (rangeWords [(o, n)]).foldl (fun t w =>
    (if d.k = 0 ∨ (o - 1) / 4 ≠ w then t.setSpPoison w true else t).unmark c.id w) t
  t.engWord c.id (off21 (c.word 4) / 4) ⟨BitVec.ofNat 32 (d.err * 2 ^ 16 + d.k), false⟩

/-- The run of a VDEC on a scratchpad before its last writes, and whether its table is valid; BOUNDS for symbols beyond S
(R354). -/
def Cmd.vdecRun (c : Cmd) (t : Team) : Except EngFault (Decoded × Bool) :=
  let p := ((c.word 3).extractLsb' 16 15).toNat
  match c.codeTable t with
  | .error e => .error e
  | .ok none => .ok (⟨t, 0, p, 3, none⟩, false)
  | .ok (some (rows, syms)) => .ok (c.decodeSyms rows syms (lo16 (c.word 3)) ⟨t, 0, p, 0, none⟩, true)

/-- The cycles that the pipe works on a VDEC: 8 for the table, then one for each 64-bit window of the stream (R355). -/
def Cmd.vdecCycles (c : Cmd) (t : Team) : Nat :=
  match c.vdecRun t with
  | .error _ => 8
  | .ok (d, _) => 8 + ((d.p + 63) / 64 - ((c.word 3).extractLsb' 16 15).toNat / 64)

/-- VDEC_EXECUTION (R354). -/
def execVdecExecution (core k : Nat) (s : State) : Answer :=
  .next (match s.xfReady core k with
    | none => s
    | some c => match c.kind with
      | .vdec => s.runXf c c.vdecCycles fun t => match c.vdecRun t with
        | .error e => .error e
        | .ok (d, valid) => .ok (c.vdecOut d,
            if !valid then some (eDECODE, BitVec.ofNat 64 (off21 (c.word 2)))
            else if d.err ≠ 0 then some (eDECODE, BitVec.ofNat 64 (8 * off21 (c.word 0) + d.p)) else d.fault)
      | _ => s)

end Sys2Proof.Machine
end

