-- ==== Sys2Proof/Machine/Sfu.lean ====
section
/-! DEFINITION. Special functions (spec/08 R218, R219): exact and special cases as stated; elsewhere one of the F32 values
within the stated bound, chosen by a free value of the input (log 10). -/

namespace Sys2Proof.Machine

/-! ## Fixed-point values with 640 fraction bits -/

/-- Fraction bits of the approximations of exact values: enough to tell sin x from x, and cos x from 1, for the least
denormal x. -/
def fxBits : Nat := 640
def fxOne : Nat := 2 ^ fxBits
/-- π/2 and ln 2. -/
def fxHalfPi : Nat := 
  0x1921fb54442d18469898cc51701b839a252049c1114cf98e804177d4c76273644a29410f31c6809bbdf2a33679a748636605614dbe4be286e9fc26adadaa3848bc90b6aecc4bcfd8de89885d34c6fdad6
def fxLn2 : Nat := 
  0xb17217f7d1cf79abc9e3b39803f2f6af40f343267298b62d8a0d175b8baafa2be7b876206debac98559552fb4afa1b10ed2eae35c138214427573b291169b8253e96ca16224ae8c51acbda11317c387e

def fxMul (a b : Nat) : Nat := a * b / fxOne
def fxDiv (a b : Nat) : Nat := a * fxOne / b

/-- Terms z^n / n! of the exponential series from term n, `fuel` of them. -/
def expTerms (z : Nat) : Nat → Nat → Nat → Nat
  | 0, _, _ => 0
  | fuel + 1, n, t => t + expTerms z fuel (n + 1) (fxMul t z / (n + 1))

/-- e^z for z in [0, 1). -/
def fxExp (z : Nat) : Nat := expTerms z 136 0 fxOne

/-- Alternating terms of the sine and cosine series: `n` is the power of the term `t`. -/
def trigTerms (r2 : Nat) : Nat → Nat → Nat → Int
  | 0, _, _ => 0
  | fuel + 1, n, t => t - trigTerms r2 fuel (n + 2) (fxMul t r2 / ((n + 1) * (n + 2)))

/-- sin r and cos r for r in [0, π/2). -/
def fxSin (r : Nat) : Int := trigTerms (fxMul r r) 72 1 r
def fxCos (r : Nat) : Int := trigTerms (fxMul r r) 72 0 fxOne

/-- Terms z^n / n for odd n. -/
def atanhTerms (z2 : Nat) : Nat → Nat → Nat → Nat
  | 0, _, _ => 0
  | fuel + 1, n, t => t / n + atanhTerms z2 fuel (n + 2) (fxMul t z2)

/-- ln m for m in [1, 2). -/
def fxLn (m : Nat) : Nat :=
  let z := fxDiv (m - fxOne) (m + fxOne)
  2 * atanhTerms (fxMul z z) 210 1 z

/-- A value m × 2^e in fixed point, cut off. -/
def fxOf (m : Nat) (e : Int) : Nat :=
  let k := e + fxBits
  if 0 ≤ k then m * 2 ^ k.toNat else m / 2 ^ (-k).toNat

/-! ## Delivering a result -/

/-- Is the positive F32 value of bits `b` within `k` units in the last place of n × 2^-640? R219 does not say what an ulp is: it
is the spacing of the F32 values in the binade of the exact value, and never below 2^-149 (DESIGN CHOICE, log 10). -/
def withinUlps (n k b : Nat) : Bool :=
  let q : Int := max ((n.log2 : Int) - fxBits - 23) (-149)
  match fdecode .f32 b with
  | .fin _ m e =>
    let v : Int := (m * 2 ^ (e + fxBits).toNat : Nat)
    decide ((v - n).natAbs ≤ k * 2 ^ (q + fxBits).toNat)
  | _ => false

/-- The F32 values within k units in the last place of a positive value, ascending. Where the bound reaches across zero, only
those with the sign of the exact value, and of the zeros that one (DESIGN CHOICE, log 10). -/
def candidates (n k : Nat) : List Nat :=
  let b0 := (roundTo .f32 { FEnv.zero with rnd := 1 } false n (-(fxBits : Int)) false).1
  (List.range (4 * k + 4)).filterMap fun j =>
    let b := b0 + j - 2 * k
    if 2 * k ≤ b0 + j ∧ b ≤ FFmt.f32.maxBits ∧ withinUlps n k b then some b else none

/-- The tiny-result rules of R219 on a magnitude; `exact` when it is the exact value. -/
def deliver (env : FEnv) (s exact : Bool) (b : Nat) : FRes :=
  let sign := signOf .f32 s
  if b < 2 ^ 23 then
    if env.dno then (sign, FExc.underflow)
    else (sign + b, if exact then FExc.none else FExc.underflow)
  else (sign + b, FExc.none)

/-- A result that is not exact: one of some magnitudes (log 10). -/
def sfuOf (env : FEnv) (fn : Nat) (x : Word) (s : Bool) (c : List Nat) : FRes :=
  deliver env s false (c.getD (Config.sfuPick fn x % c.length) 0)

/-- The result for a value that is not exact: one of the candidates. -/
def sfuFree (env : FEnv) (fn : Nat) (x : Word) (k : Nat) (s : Bool) (n : Nat) : FRes := sfuOf env fn x s (candidates n k)

/-- An exact power of two 2^e. -/
def sfuPow (env : FEnv) (s : Bool) (e : Int) : FRes :=
  deliver env s true (roundTo .f32 FEnv.zero false 1 e false).1

def infF32 (s : Bool) : Nat := signOf .f32 s + FFmt.f32.infBits

/-- Exponent of a power of two m × 2^e. -/
def pow2? (m : Nat) (e : Int) : Option Int := if m = 2 ^ m.log2 then some (e + m.log2) else none

/-! ## The functions (R219) -/

/-- FRCP of ±m × 2^e, m not 0; above 2^126 it gives a tiny result or zero. -/
def rcpFin (env : FEnv) (x : Word) (s : Bool) (m : Nat) (e : Int) : FRes :=
  match pow2? m e with
  | some p => if p ≤ -128 then (infF32 s, FExc.overflow) else sfuPow env s (-p)
  | none =>
    if e + m.log2 < -128 then (infF32 s, FExc.overflow)
    else sfuOf env 0 x s ((candidates (fxOne * 2 ^ 149 / m / 2 ^ (e + 149).toNat) 1).filter fun b =>
      decide (e + m.log2 < 126) || decide (b < 2 ^ 23))

/-- FRSQ of m × 2^e. -/
def rsqFin (env : FEnv) (x : Word) (m : Nat) (e : Int) : FRes :=
  sfuFree env 1 x 1 false (isqrt (fxOne * fxOne * 2 ^ 149 / m / 2 ^ (e + 149).toNat))

/-- 2^y for a fixed-point fraction y below 1, times 2^i, in fixed point. -/
def exp2Fix (i : Int) (y : Nat) : Nat :=
  let t := fxExp (fxMul y fxLn2)
  if 0 ≤ i then t * 2 ^ i.toNat else t / 2 ^ (-i).toNat

/-- FEXP2 of ±m × 2^e, m not 0. Far below -149 the exact value is as good as 0, and what is within 2 ulp of it is left to the
free value (log 10). -/
def exp2Fin (env : FEnv) (x : Word) (s : Bool) (m : Nat) (e : Int) : FRes :=
  if (16 : Int) < e + m.log2 then
    if s then sfuFree env 2 x 2 false 1 else (infF32 false, FExc.overflow)
  else
    let f := fxOf m e
    let i : Int := (f / fxOne : Nat)
    let r := f % fxOne
    let whole := decide (r = 0) && (decide (0 ≤ e) || decide (m % 2 ^ (-e).toNat = 0))
    let v : Int := if s then -i else i
    if whole && decide (-149 ≤ v) && decide (v ≤ 127) then sfuPow env false v
    else if !s && decide (128 ≤ i) then (infF32 false, FExc.overflow)
    else if s && decide (160 < i) then sfuFree env 2 x 2 false 1
    else
      let n := if s then exp2Fix (-i - 1) (fxOne - r) else exp2Fix i r
      sfuFree env 2 x 2 false n

/-- FLOG2 of m × 2^e. -/
def log2Fin (env : FEnv) (x : Word) (m : Nat) (e : Int) : FRes :=
  match pow2? m e with
  | some p => if p = 0 then (0, FExc.none) else ((roundTo .f32 FEnv.zero (decide (p < 0)) p.natAbs 0 false).1, FExc.none)
  | none =>
    let i : Int := e + m.log2
    let f := fxDiv (fxLn (fxOf m (-(m.log2 : Int)))) fxLn2
    let v : Int := i * fxOne + f
    sfuFree env 3 x 2 (decide (v < 0)) v.natAbs

/-- A free value in -1 to 1, for FSIN and FCOS beyond their domain. Whether a zero among them raises underflow is free too
(log 10). -/
def sfuUnit (env : FEnv) (fn : Nat) (x : Word) : FRes :=
  let p := Config.sfuPick fn x
  let s := p % 2 == 1
  let b := p / 4 % (0x3F800000 + 1)
  if b = 0 then (signOf .f32 s, if p / 2 % 2 = 1 then FExc.underflow else FExc.none) else deliver env s false b

/-- sin, or cos when `cosine`, of ±m × 2^e within the domain: sign and magnitude. -/
def trigFix (cosine s : Bool) (m : Nat) (e : Int) : Int :=
  let f := fxOf m e
  let q := f / fxHalfPi
  let r := f % fxHalfPi
  let q := (if cosine then q + 1 else q) % 4
  let v : Int := match q with
    | 0 => fxSin r
    | 1 => fxCos r
    | 2 => -fxSin r
    | _ => -fxCos r
  if s && !cosine then -v else v

/-- FSIN or FCOS of ±m × 2^e, m not 0. -/
def trigFin (env : FEnv) (x : Word) (cosine s : Bool) (m : Nat) (e : Int) : FRes :=
  let fn := if cosine then 5 else 4
  if 2 ^ 16 * fxOne < fxOf m e then sfuUnit env fn x
  else
    let v := trigFix cosine s m e
    sfuFree env fn x 2 (decide (v < 0)) v.natAbs

/-- FTANH of ±m × 2^e, m not 0. -/
def tanhFin (env : FEnv) (x : Word) (s : Bool) (m : Nat) (e : Int) : FRes :=
  let f := min (fxOf m e) (64 * fxOne)
  let z := 2 * f
  let k := z / fxLn2
  let t := fxExp (z % fxLn2) * 2 ^ k
  sfuFree env 6 x 2 s ((t - fxOne) * fxOne / (t + fxOne))

/-- A special function on the bits of an F32 value (R219). -/
def sfu (fn : Nat) (env : FEnv) (bits : Nat) : FRes :=
  let v := fin .f32 env.dni bits
  let x : Word := BitVec.ofNat 32 bits
  let bad : FRes := (genNan .f32 env.nanl 6, FExc.invalid)
  (nanResult .f32 env.nanl [v]).getD <|
    match fn, v with
    | 0, .inf s => (signOf .f32 s, FExc.none)
    | 0, .fin s m e => if m = 0 then (infF32 s, FExc.divZero) else rcpFin env x s m e
    | 1, .inf s => if s then bad else (0, FExc.none)
    | 1, .fin s m e =>
      if m = 0 then (infF32 s, FExc.divZero) else if s then bad else rsqFin env x m e
    | 2, .inf s => (if s then 0 else infF32 false, FExc.none)
    | 2, .fin s m e => if m = 0 then (0x3F800000, FExc.none) else exp2Fin env x s m e
    | 3, .inf s => if s then bad else (infF32 false, FExc.none)
    | 3, .fin s m e =>
      if m = 0 then (infF32 true, FExc.divZero) else if s then bad else log2Fin env x m e
    | 4, .fin s m e => if m = 0 then (signOf .f32 s, FExc.none) else trigFin env x false s m e
    | 5, .fin s m e => if m = 0 then (0x3F800000, FExc.none) else trigFin env x true s m e
    | 6, .inf s => (signOf .f32 s + 0x3F800000, FExc.none)
    | 6, .fin s m e => if m = 0 then (signOf .f32 s, FExc.none) else tanhFin env x s m e
    | _, _ => bad

/-- A special function on the special-function unit (R205, R219). -/
def State.sfuStep (h : Hdr) (fn d a : Nat) (s : State) : State :=
  s.regStep h (.sfu 12) [a] fun s => floatRes s d [s.rd a] fun i => sfu fn s.env (s.fword a i)

/-- FRCP: 1/x (R219). -/
def execFrcp (h : Hdr) (d a : BitVec 6) (s : State) : Answer := .next (s.sfuStep h 0 d.toNat a.toNat)
/-- FRSQ: 1/√x (R219). -/
def execFrsq (h : Hdr) (d a : BitVec 6) (s : State) : Answer := .next (s.sfuStep h 1 d.toNat a.toNat)
/-- FEXP2: 2^x (R219). -/
def execFexp2 (h : Hdr) (d a : BitVec 6) (s : State) : Answer := .next (s.sfuStep h 2 d.toNat a.toNat)
/-- FLOG2: log2 x (R219). -/
def execFlog2 (h : Hdr) (d a : BitVec 6) (s : State) : Answer := .next (s.sfuStep h 3 d.toNat a.toNat)
/-- FSIN: sin x (R219). -/
def execFsin (h : Hdr) (d a : BitVec 6) (s : State) : Answer := .next (s.sfuStep h 4 d.toNat a.toNat)
/-- FCOS: cos x (R219). -/
def execFcos (h : Hdr) (d a : BitVec 6) (s : State) : Answer := .next (s.sfuStep h 5 d.toNat a.toNat)
/-- FTANH: tanh x (R219). -/
def execFtanh (h : Hdr) (d a : BitVec 6) (s : State) : Answer := .next (s.sfuStep h 6 d.toNat a.toNat)

end Sys2Proof.Machine
end

