-- ==== Sys2Proof/Machine/Kv.lean ====
section
/-! DEFINITION. Key-value block tables: descriptors and entries, the translation buffers, KVG, KVMAP and KVSD
(spec/15). -/

namespace Sys2Proof.Machine

/-! ## Accesses of the KV engines (R272, R487) -/

/-- A part of a command's execution: it gives a value, or ends with an ENG sub-code and address. -/
abbrev KvM (α : Type) : Type := State → Except (EngFault × State) (α × State)

def KvM.ret {α : Type} (a : α) : KvM α := fun s => .ok (a, s)
def KvM.fail {α : Type} (sub : BitVec 8) (addr : DWord) : KvM α := fun s => .error ((sub, addr), s)
def KvM.andThen {α β : Type} (x : KvM α) (f : α → KvM β) : KvM β := fun s => match x s with
  | .error e => .error e
  | .ok (a, s) => f a s

/-- End with a sub-code unless a condition holds. -/
def KvM.require (c : Bool) (sub : BitVec 8) (addr : DWord) : KvM Unit := if c then .ret () else .fail sub addr

/-- Change the state. -/
def KvM.modify (f : State → State) : KvM Unit := fun s => .ok ((), f s)

/-- Run a step for every member of a list, gathering the results. -/
def KvM.each {α β : Type} (f : α → KvM β) : List α → KvM (List β)
  | [] => .ret []
  | a :: rest => (f a).andThen fun b => (KvM.each f rest).andThen fun bs => .ret (b :: bs)

/-- The pieces of n bytes at a that lie in one line each: address, index and count. -/
def linePieces (a : DWord) : Nat → Nat → Nat → List (DWord × Nat × Nat)
  | 0, _, _ => []
  | fuel + 1, i, n =>
    if n = 0 then []
    else
      let x := a + BitVec.ofNat 64 i
      let k := min n (64 - x.toNat % 64)
      (x, i, k) :: linePieces a fuel (i + k) (n - k)

/-- The pieces of n bytes at a. -/
def piecesOf (a : DWord) (n : Nat) : List (DWord × Nat × Nat) := linePieces a (n + 1) 0 n

/-- Bytes of one line, read at their home, or at DIE as the die sees them, with the poison of the line
(R272, R371, R487). -/
def readPiece (c : Cmd) (home : Bool) (a : DWord) (n : Nat) : KvM (List Byte × Bool) := fun s =>
  if home then
    match s.translate c.core (s.cmdPart c) .read a with
    | .error _ => .error ((eCOPY, a), s)
    | .ok pa => .ok ((s.homeRead pa n, s.homePoison (pa / 64)), (s.saw c.die (pa / 64)).engLink c pa)
  else match s.engRead c a n with
    | .error _ => .error ((eCOPY, a), s)
    | .ok (b, p, t) => .ok ((b, p), t)

/-- n bytes, with the poison of their lines. -/
def readBytes (c : Cmd) (home : Bool) (a : DWord) (n : Nat) : KvM (List Byte × Bool) :=
  (KvM.each (fun x => readPiece c home x.1 x.2.2) (piecesOf a n)).andThen fun l =>
    .ret (l.flatMap (·.1), l.any (·.2))

/-- n bytes at their home, ending with POISON on a poisoned line (R487). -/
def cleanBytes (c : Cmd) (a : DWord) (n : Nat) : KvM (List Byte) :=
  (KvM.each (fun x => (readPiece c true x.1 x.2.2).andThen fun r => if r.2 then .fail ePOISON x.1 else .ret r.1)
    (piecesOf a n)).andThen fun l => .ret (l.flatMap id)

/-- A word, read at its home, that must not be poisoned. -/
def cleanWord (c : Cmd) (a : DWord) : KvM Word := (cleanBytes c a 4).andThen fun b => .ret (BitVec.ofNat 32 (leNat b))

/-- A word of a row, with the poison of its line (R371, R487). -/
def rowWord (c : Cmd) (home : Bool) (a : DWord) : KvM Lane :=
  (readBytes c home a 4).andThen fun r => .ret ⟨BitVec.ofNat 32 (leNat r.1), r.2⟩

/-- n words of a row. -/
def rowWords (c : Cmd) (home : Bool) (a : DWord) (n : Nat) : KvM (List Lane) :=
  KvM.each (rowWord c home) ((List.range n).map fun k => a + BitVec.ofNat 64 (4 * k))

/-- Bytes written at their home within one line; the line's poison is set by poisoned data, and cleared when clean
data covers it whole (R236). -/
def homeLine (c : Cmd) (a : DWord) (bytes : List Byte) (p : Bool) : KvM Unit := fun s =>
  match s.translate c.core (s.cmdPart c) .write a with
  | .error _ => .error ((eCOPY, a), s)
  | .ok pa =>
    let s := (s.homeStore c.die pa bytes).engLink c pa
    .ok ((), if p then s.setHomePoison (pa / 64) true
      else if bytes.length = 64 then s.setHomePoison (pa / 64) false else s)

/-- Bytes written at their home, line by line. -/
def homeWriteAll (c : Cmd) (a : DWord) (bytes : List Byte) : KvM Unit :=
  (KvM.each (fun x => homeLine c x.1 ((bytes.drop x.2.1).take x.2.2) false)
    (piecesOf a bytes.length)).andThen fun _ => .ret ()

/-- A command that ran to its outcome: it completes, or fails as R298 says. -/
def State.finishKv (s : State) (c : Cmd) (x : KvM (Option EngFault)) : State :=
  match x s with
  | .error (e, s) => s.failCmd c e
  | .ok (e, s) => s.complete c e

/-! ## Descriptors (R356-R359) -/

/-- A sequence descriptor's fields. -/
structure SeqDesc where
  tptr : DWord
  pool : DWord
  orig : DWord
  ngrp : Nat
  bf16 : Bool
  layers : Nat
  rowb : Nat
  hdim : Nat
  rdim : Nat
  rfreq : Word
  free : DWord
  nfree : Nat
  ok : Bool
  deriving DecidableEq, Repr

def SeqDesc.version (d : SeqDesc) : Nat := d.tptr.toNat / 2 ^ 48
/-- The table's address (R359). -/
def SeqDesc.table (d : SeqDesc) : DWord := d.tptr &&& 0x0000FFFFFFFFFFF0#64
/-- Address of entry e of the table (R359). -/
def SeqDesc.entryAt (d : SeqDesc) (e : Nat) : DWord := d.table + BitVec.ofNat 64 (16 + 16 * e)
/-- Words of a row. -/
def SeqDesc.rowWords (d : SeqDesc) : Nat := d.rowb / 4
/-- The key row of slot t, layer l, group g (R356); its value row lies 16 rows further. -/
def SeqDesc.keyRow (d : SeqDesc) (g l t : Nat) : DWord :=
  d.pool + BitVec.ofNat 64 ((g * d.layers + l) * 32 * d.rowb + t * d.rowb)
def SeqDesc.valueRow (d : SeqDesc) (g l t : Nat) : DWord := d.keyRow g l t + BitVec.ofNat 64 (16 * d.rowb)

/-- n bytes of a list from byte i, as a number. -/
def fieldAt (b : List Byte) (i n : Nat) : Nat := leNat ((b.drop i).take n)

/-- The descriptor that TPTR and the bytes from 0x08 give, with the validity of its geometry (R358). -/
def parseDesc (tptr : DWord) (b : List Byte) : SeqDesc :=
  let at' (off n : Nat) : Nat := fieldAt b (off - 8) n
  let geom := at' 0x1C 4
  let rot := at' 0x20 4
  let bf16 := geom / 2 ^ 24 % 2 == 1
  let layers := geom / 2 ^ 16 % 256
  let rowb := geom % 2 ^ 16
  let hdim := rot / 2 ^ 8 % 2 ^ 12
  let rdim := rot % 256
  let el := if bf16 then 2 else 4
  { tptr, pool := BitVec.ofNat 64 (at' 0x08 8), orig := BitVec.ofNat 64 (at' 0x10 8), ngrp := at' 0x18 4, bf16,
    layers, rowb, hdim, rdim, rfreq := BitVec.ofNat 32 (at' 0x24 4), free := BitVec.ofNat 64 (at' 0x28 8),
    nfree := at' 0x30 4,
    ok := tptr.toNat % 16 == 0 && geom / 2 ^ 25 == 0 && rot / 2 ^ 20 == 0 && at' 0x34 12 == 0 && layers != 0 &&
      at' 0x08 8 % 64 == 0 && at' 0x10 8 % 4 == 0 && rowb != 0 && rowb % 4 == 0 && hdim != 0 && hdim % 2 == 0 && rowb % (hdim * el) == 0 && rdim % 2 == 0 &&
      decide (rdim ≤ hdim) }

/-- SEQ of a command, and the check on it. -/
def Cmd.seqAddr (c : Cmd) : DWord := c.word 1 ++ c.word 0
def seqOk (a : DWord) : Bool := State.canonical a && a.toNat % 64 == 0

/-- TPTR, read at its home. -/
def readTptr (c : Cmd) : KvM DWord := (cleanBytes c c.seqAddr 8).andThen fun b => .ret (BitVec.ofNat 64 (leNat b))

/-- Descriptor bytes 0x08 to 0x3F, read at their home. -/
def readWords (c : Cmd) : KvM (List Byte) := cleanBytes c (c.seqAddr + 8) 56

/-- NENT and NTOK of a table (R359). -/
def readHeader (c : Cmd) (tptr : DWord) : KvM (Nat × Nat) :=
  (cleanBytes c (tptr &&& 0x0000FFFFFFFFFFF0#64) 16).andThen fun b => .ret (fieldAt b 0 4, fieldAt b 4 4)

/-! ## Entries (R360-R363) -/

/-- A table entry, 16 bytes. -/
abbrev Entry := BitVec 128

def Entry.group (e : Entry) : Nat := (e.extractLsb' 0 24).toNat
def Entry.first (e : Entry) : Nat := (e.extractLsb' 24 4).toNat
def Entry.delta (e : Entry) : Int := (e.extractLsb' 32 24).toInt
def Entry.count (e : Entry) : Nat := (e.extractLsb' 56 5).toNat
def Entry.shared (e : Entry) : Bool := e.getLsbD 95
def Entry.state (e : Entry) : Nat := (e.extractLsb' 96 2).toNat
def Entry.level (e : Entry) : Nat := (e.extractLsb' 104 8).toNat

/-- A field of n bits at bit i replaced. -/
def Entry.put (e : Entry) (i n v : Nat) : Entry :=
  let m : Entry := (BitVec.ofNat 128 (2 ^ n - 1)) <<< i
  (e &&& ~~~m) ||| ((BitVec.ofNat 128 v <<< i) &&& m)

/-- Bits that are zero in a well-formed entry (R360). -/
def Entry.zeroBits : Entry :=
  ((0xFFFF#128) <<< 112) ||| ((0x3F#128) <<< 98) ||| ((0x7#128) <<< 61) ||| ((0xF#128) <<< 28)

/-- GROUP, FIRST and COUNT are as R361 says. -/
def Entry.placed (e : Entry) (ngrp : Nat) : Bool :=
  decide (1 ≤ e.count) && decide (e.count ≤ 16) && decide (e.first + e.count ≤ 16) && decide (e.group < ngrp)

/-- A well-formed entry (R361). -/
def Entry.wf (e : Entry) (ngrp : Nat) : Bool := e &&& Entry.zeroBits == 0 && e.placed ngrp

/-- Stale at a layer (R363). -/
def Entry.stale (e : Entry) (layer : Nat) : Bool := (e.state == 1 || e.state == 2) && decide (e.level < layer)

def Entry.ofBytes (b : List Byte) : Entry := BitVec.ofNat 128 (leNat b)
def Entry.bytes (e : Entry) : List Byte := leBytes 16 e.toNat

/-- Entry e of a table, read at its home as one unit. -/
def readEntry (c : Cmd) (d : SeqDesc) (e : Nat) : KvM Entry :=
  (cleanBytes c (d.entryAt e) 16).andThen fun b => .ret (Entry.ofBytes b)

/-- ORIG of a group (R357). -/
def readOrig (c : Cmd) (d : SeqDesc) (g : Nat) : KvM Word := cleanWord c (d.orig + BitVec.ofNat 64 (4 * g))

/-- Logical position of slot t (R362). -/
def position (orig : Word) (e : Entry) (t : Nat) : Word := orig + BitVec.ofNat 32 t + BitVec.ofInt 32 e.delta

/-! ## The translation buffers (R365, R375) -/

/-- Does a shoot-down of a partition's descriptor address name an item? COUNT 0 names everything of the sequence. -/
def KvItem.named (part seq first count : Nat) : KvItem → Bool
  | .entry p q _ i _ _ _ => p == part && q == seq && (count == 0 || (decide (first ≤ i) && decide (i < first + count)))
  | .words p q _ _ => p == part && q == seq && count == 0

/-- Is an item a copy of what lies in n bytes at a physical address? -/
def KvItem.copies (pa n : Nat) : KvItem → Bool
  | .entry _ _ _ _ a _ _ => decide (a < pa + n ∧ pa < a + 16)
  | .words _ _ a _ => decide (a < pa + n ∧ pa < a + 64)

namespace State

/-- Items that `f` takes leave every cluster's buffer. -/
def dropItems (s : State) (f : KvItem → Bool) : State :=
  { s with clusters := s.clusters.map fun e => (e.1, { e.2 with kvtb := e.2.kvtb.filter fun x => !f x }) }

/-- A shoot-down in the buffer of every cluster (R375). -/
def shootDown (s : State) (c : Cmd) (first count : Nat) : State :=
  s.dropItems (KvItem.named (s.cmdPart c) (c.word 1 ++ c.word 0).toNat first count)

/-- Every cached copy of n bytes at an address, in one line, that a command is about to write is removed (R365). -/
def dropCopiesAt (s : State) (c : Cmd) (a : DWord) (n : Nat) : State :=
  match s.translate c.core (s.cmdPart c) .write a with
  | .ok pa => s.dropItems (KvItem.copies pa n)
  | .error _ => s

/-- The physical address that a command reads. -/
def physOf (s : State) (c : Cmd) (a : DWord) : Option Nat := (s.translate c.core (s.cmdPart c) .read a).toOption

/-- Cache an item in a cluster's buffer of 512; the oldest goes. -/
def cacheItem (s : State) (cl : Nat) (x : KvItem) : State :=
  s.modCluster cl fun k => { k with kvtb := (x :: k.kvtb).take 512 }

end State

/-! ## Rotation (R369) -/

/-- f, c and s of pair k. -/
def pairTrig (rfreq : Word) (delta : Int) (k : Nat) : Nat × Nat :=
  let z := FEnv.zero
  let f := (sfu 2 z (fmul .f32 z (cvtIF .f32 z k).1 rfreq.toNat).1).1
  let g := (fmul .f32 z (cvtIF .f32 z delta).1 f).1
  ((sfu 5 z g).1, (sfu 4 z g).1)

/-- The rotated element of a pair, y0 or y1. -/
def rotated (second : Bool) (x0 x1 : Nat) (cs : Nat × Nat) : Nat :=
  let z := FEnv.zero
  if second then (ffma .f32 z x1 cs.1 (fmul .f32 z x0 cs.2).1).1
  else (ffma .f32 z x0 cs.1 ((fmul .f32 z x1 cs.2).1 ^^^ 2 ^ 31)).1

/-- Element i of a row as F32 bits. -/
def rowElem (bf16 : Bool) (ws : List Lane) (i : Nat) : Nat :=
  if bf16 then (ws.getD (i / 2) ⟨0, false⟩).val.toNat / 2 ^ (16 * (i % 2)) % 2 ^ 16 * 2 ^ 16
  else (ws.getD i ⟨0, false⟩).val.toNat

/-- A key row rotated by an entry's DELTA (R369). -/
def rotateRow (d : SeqDesc) (delta : Int) (ws : List Lane) : List Lane :=
  if d.rdim = 0 ∨ delta = 0 then ws
  else
    let elem (i : Nat) : Nat :=
      let p := i % d.hdim
      if d.rdim ≤ p then rowElem d.bf16 ws i
      else
        let e := i - i % 2
        rotated (i % 2 == 1) (rowElem d.bf16 ws e) (rowElem d.bf16 ws (e + 1)) (pairTrig d.rfreq delta (p / 2))
    let narrow (i : Nat) : Nat :=
      if d.rdim ≤ i % d.hdim then elem i / 2 ^ 16 else (cvtFF .f32 .bf16 FEnv.zero (elem i)).1
    (List.range ws.length).map fun k =>
      let w := ws.getD k ⟨0, false⟩
      if d.bf16 then ⟨BitVec.ofNat 32 (narrow (2 * k) + 2 ^ 16 * narrow (2 * k + 1)), w.poison⟩
      else ⟨BitVec.ofNat 32 (elem k),
        w.poison || (decide (k % d.hdim < d.rdim) && (ws.getD (k ^^^ 1) ⟨0, false⟩).poison)⟩

/-! ## KVG (R366-R372) -/

/-- Row pitch in bytes, 128 × RS. -/
def Cmd.pitch (c : Cmd) : Nat := 128 * ((c.word 5).toNat / 2 ^ 24)
/-- Block of gather slot j, slot r, from a base; its row; its position word (R368). -/
def Cmd.kvBlock (c : Cmd) (base j r : Nat) : Nat := base + (16 * j + r) * c.pitch
def Cmd.kvRow (c : Cmd) (base j r : Nat) : Nat := c.kvBlock base j r + 4 * ((j + r) % 32)
def Cmd.kvPos (c : Cmd) (j r : Nat) : Nat := off21 (c.word 4) + 4 * (16 * j + r)

/-- Bases of the rows written: keys, and values unless .K. -/
def Cmd.kvBases (c : Cmd) (keys : Bool) : List Nat :=
  if keys then [off21 (c.word 2)] else [off21 (c.word 2), off21 (c.word 3)]

/-- Gather slots: the active lanes, with every r. -/
def Cmd.kvSlots (c : Cmd) : List (Nat × Nat) := c.act.toList.flatMap fun j => (List.range 16).map fun r => (j, r)

/-- Marks at acceptance (R370): where POFF is no multiple of 4, every word that a position word touches (DESIGN CHOICE,
log 81). -/
def Cmd.markKvg (keys : Bool) (c : Cmd) (s : State) : State :=
  if c.poison then s
  else s.markWords c.team c.id (rangeWords (c.kvSlots.flatMap fun x =>
    (c.kvBases keys).map (fun b => (c.kvBlock b x.1 x.2, c.pitch)) ++ [(c.kvPos x.1 x.2, 4)]))

/-- KVG at issue (R366). -/
def State.kvgAsk (s : State) (h : Hdr) (keys : Bool) (hb : Nat) (b : BitVec 6) (u : BitVec 3) : State :=
  s.askEngine h
    { cls := 3, kind := .kvg keys, block := block hb 6, operands := [hb + 6], bar := ecBar b, badBar := false,
      guard := u.toNat, denied := false }
    State.cpFull (Cmd.markKvg keys) State.cpPush

/-- KVG (R366). -/
def execKvg (h : Hdr) (hb b : BitVec 6) (u : BitVec 3) (q : BitVec 1) (s : State) : Answer :=
  .next (s.kvgAsk h (q == 1) hb.toNat b u)

/-- Field checks of KVG (R370). -/
def Cmd.kvgBad (c : Cmd) (keys : Bool) : Bool :=
  let d5 := c.word 5
  above (c.word 2) 21 || above (c.word 3) 21 || above (c.word 4) 21 || d5.extractLsb' 8 8 != 0 ||
    d5.extractLsb' 0 6 != 0 || d5.extractLsb' 6 2 == 3 || c.pitch == 0 || off21 (c.word 2) % 128 != 0 ||
    (!keys && off21 (c.word 3) % 128 != 0) || off21 (c.word 4) % 4 != 0 || !seqOk c.seqAddr

/-- Descriptor words from the cluster's buffer, or from their home (R365). -/
def kvgWords (c : Cmd) : KvM (List Byte) := fun s =>
  let cl := clusterOf c.core
  match (s.getCluster cl).kvtb.findSome? fun x => match x with
      | .words p q _ b => if p = s.cmdPart c ∧ q = c.seqAddr.toNat then some b else none
      | _ => none with
  | some b => .ok (b, s)
  | none => ((readWords c).andThen fun b s => .ok (b, match s.physOf c c.seqAddr with
      | some pa => s.cacheItem cl (.words (s.cmdPart c) c.seqAddr.toNat pa b)
      | none => s)) s

/-- Entry i and the origin word of its group, from the buffer or from their homes; none when the line of either is
poisoned. A malformed entry has no origin word and is not cached (R365, R370). -/
def kvgEntry (c : Cmd) (d : SeqDesc) (i : Nat) : KvM (Option (Entry × Word)) := fun s =>
  let cl := clusterOf c.core
  match (s.getCluster cl).kvtb.findSome? fun x => match x with
      | .entry p q v k _ img o =>
        if p = s.cmdPart c ∧ q = c.seqAddr.toNat ∧ v = d.version ∧ k = i then some (img, o) else none
      | _ => none with
  | some x => .ok (some x, s)
  | none => ((readBytes c true (d.entryAt i) 16).andThen fun r =>
      let e := Entry.ofBytes r.1
      if r.2 then .ret none
      else if !e.wf d.ngrp then .ret (some (e, 0))
      else (readBytes c true (d.orig + BitVec.ofNat 64 (4 * e.group)) 4).andThen fun o =>
        if o.2 then .ret none
        else fun s =>
          let w := BitVec.ofNat 32 (leNat o.1)
          .ok (some (e, w), match s.physOf c (d.entryAt i) with
            | some pa => s.cacheItem cl (.entry (s.cmdPart c) c.seqAddr.toNat d.version i pa e w)
            | none => s)) s

/-- What a gather slot receives: rows of an entry with an origin word, or 0 with poison and perhaps a sub-code. -/
inductive SlotFate where
  | rows (e : Entry) (orig : Word)
  | spoiled (sub : Option (BitVec 8))
  deriving DecidableEq, Repr

/-- The fate of gather slot j (R370). -/
def slotFate (c : Cmd) (d : SeqDesc) (nent j : Nat) : KvM SlotFate :=
  let x := c.lanes.getD j ⟨0, false⟩
  if x.poison then .ret (.spoiled (some ePOISON))
  else if nent ≤ x.val.toNat then .ret (.spoiled (some eBOUNDS))
  else (kvgEntry c d x.val.toNat).andThen fun r => match r with
    | none => .ret (.spoiled (some ePOISON))
    | some (e, o) =>
      if !e.wf d.ngrp then .ret (.spoiled (some eBOUNDS))
      else if e.stale ((c.word 5).extractLsb' 16 8).toNat then
        match ((c.word 5).extractLsb' 6 2).toNat with
        | 0 => .ret (.spoiled (some eSTALE))
        | 1 => .ret (.spoiled none)
        | _ => .ret (.rows e o)
      else .ret (.rows e o)

/-- Write words of a command into its team's scratchpad. -/
def putWords (c : Cmd) (off : Nat) (ws : List Lane) : KvM Unit :=
  .modify fun s => s.modTeam c.team fun t =>
    (List.range ws.length).foldl (fun t k => t.engWord c.id (off / 4 + k) (ws.getD k ⟨0, false⟩)) t

/-- Words to be written from an offset up. -/
def wordTasks (off : Nat) (ws : List Lane) : List KvTask := ws.zipIdx.map fun x => .word (off + 4 * x.2) x.1

/-- Rows and position word of slot r of gather slot j, read now, as words to be written (R370, R371). -/
def gatherSlot (c : Cmd) (keys : Bool) (d : SeqDesc) (j r : Nat) (src : Option (Entry × Word)) : KvM (List KvTask) :=
  let n := d.rowWords
  let layer := ((c.word 5).extractLsb' 16 8).toNat
  let put (k v : List Lane) (p : Lane) : KvM (List KvTask) :=
    .ret (wordTasks (c.kvRow (off21 (c.word 2)) j r) k ++
      (if keys then [] else wordTasks (c.kvRow (off21 (c.word 3)) j r) v) ++ [.word (c.kvPos j r) p])
  match src with
  | none => put (List.replicate n ⟨0, true⟩) (List.replicate n ⟨0, true⟩) ⟨0, true⟩
  | some (e, o) =>
    if e.count ≤ r then put (List.replicate n ⟨0, false⟩) (List.replicate n ⟨0, false⟩) ⟨BitVec.allOnes 32, false⟩
    else
      let t := e.first + r
      let home := e.state != 0
      (rowWords c home (d.keyRow e.group layer t) n).andThen fun k =>
        (if keys then .ret [] else rowWords c home (d.valueRow e.group layer t) n).andThen fun v =>
          put (rotateRow d e.delta k) v ⟨position o e t, false⟩

/-- What the slots of a lane with a fate are gathered from. -/
def SlotFate.src : SlotFate → Option (Entry × Word)
  | .rows e o => some (e, o)
  | .spoiled _ => none

/-- The error that gather slot j records (R370). -/
def Cmd.slotErr (c : Cmd) (j : Nat) : SlotFate → Option EngFault
  | .spoiled (some sub) =>
    let x := c.lanes.getD j ⟨0, false⟩
    some (sub, if x.poison then 0 else x.val.zeroExtend 64)
  | _ => none

/-- At most n words of what a KVG has still to write: a slot's rows are read when its first word is due. It gives the words
not used of n, and what is left (R299, R372). -/
def gatherWords (c : Cmd) (keys : Bool) (d : SeqDesc) : Nat → List KvTask → KvM (Nat × List KvTask)
  | n, [] => .ret (n, [])
  | 0, l => .ret (0, l)
  | n + 1, .gather j r src :: rest => (gatherSlot c keys d j r src).andThen fun ws =>
      match ws with
      | .word off x :: ws => (putWords c off [x]).andThen fun _ => gatherWords c keys d n (ws ++ rest)
      | _ => gatherWords c keys d n rest
  | n + 1, .word off x :: rest => (putWords c off [x]).andThen fun _ => gatherWords c keys d n rest
  | n + 1, _ :: rest => gatherWords c keys d n rest

/-- Marks left to words of rows and position words (R368). -/
def Cmd.trimMarks (c : Cmd) (keys : Bool) (rowb : Nat) (s : State) : State :=
  let keep := rangeWords (c.kvSlots.flatMap fun x =>
    (c.kvBases keys).map (fun b => (c.kvRow b x.1 x.2, rowb)) ++ [(c.kvPos x.1 x.2, 4)])
  s.modTeam c.team fun t => { t with marks := t.marks.filter fun m => m.2 != c.id || keep.contains m.1 }

/-- What a KVG reads once: TPTR, the descriptor words and NENT, with its checks; it withdraws the marks outside rows
(R370, R371). -/
def startKvg (c : Cmd) (keys : Bool) : KvM (DWord × List Byte × Nat) :=
  if c.poison then .fail ePOISON 0
  else if c.kvgBad keys then .fail eBOUNDS 0
  else (readTptr c).andThen fun tptr => (readHeader c tptr).andThen fun hd => (kvgWords c).andThen fun b =>
    let d := parseDesc tptr b
    let layer := ((c.word 5).extractLsb' 16 8).toNat
    fun s =>
      let size := s.spSize c.team
      let fits := c.kvSlots.all fun x =>
        (c.kvBases keys).all (fun k => decide (c.kvRow k x.1 x.2 + d.rowb ≤ size)) &&
          decide (c.kvPos x.1 x.2 + 4 ≤ size)
      if !d.ok || decide (d.layers ≤ layer) || decide (c.pitch < d.rowb + 124) || !fits then
        .error ((eBOUNDS, 0), s)
      else .ok ((tptr, b, hd.1), c.trimMarks keys d.rowb s)

/-- ONE STEP OF A KVG (R370, R390): it reads its sequence, then for one active lane after another its entry, and writes what it
gathers, at most 128 bytes in a cycle (R299, R372), which weigh on the allowance as they move (R460); then it completes. -/
def stepKvg (c : Cmd) (keys : Bool) (s : State) : State :=
  let fails (e : EngFault) (s : State) : State := (s.removeCmd c.id).failCmd c e
  match c.seqRead with
  | none => match startKvg c keys s with
    | .error (e, s) => fails e s
    | .ok (x, s) => s.updateCmd { c with started := true, seqRead := some x }
  | some x =>
    let d := parseDesc x.1 x.2.1
    if c.tasks.isEmpty then match c.act.toList.drop c.steps with
      | [] => (s.removeCmd c.id).complete c c.err
      | j :: _ => match slotFate c d x.2.2 j s with
        | .error (e, s) => fails e s
        | .ok (f, s) => s.updateCmd { c with steps := c.steps + 1, err := c.err <|> c.slotErr j f,
                                             tasks := (List.range 16).map fun r => .gather j r f.src }
    else match gatherWords c keys d 32 c.tasks s with
      | .error (e, s) => fails e s
      | .ok ((n, l), s) =>
        ((s.debitCmd c ((4 * (32 - n) + 63) / 64)).busyCopy c.core 1).updateCmd { c with tasks := l }

/-- KVG_EXECUTION (R370): a step of the k-th command of the copy engine's queue. -/
def execKvgExecution (core k : Nat) (s : State) : Answer :=
  .next (match s.copyReady core k with
    | none => s
    | some c => match c.kind with
      | .kvg keys => stepKvg c keys (s.settleStores c)
      | _ => s)

/-! ## The KV table unit (R364, R373-R376) -/

namespace State

/-- The KV table unit's queue of a core is full (R364). -/
def kvFull (s : State) : Bool := decide (16 ≤ (s.getCore (coreOf s.cur.wid)).kvQ.length)

/-- A command for the KV table unit at issue, with n descriptor registers (R291). -/
def kvAsk (s : State) (h : Hdr) (kind : CmdKind) (hb n : Nat) (b : BitVec 6) (u : BitVec 3) : State :=
  s.askEngine h
    { cls := 3, kind, block := block hb n, operands := [], bar := ecBar b, badBar := false, guard := u.toNat,
      denied := false }
    kvFull (fun _ s => s) fun c s => s.modCore c.core fun k => { k with kvQ := k.kvQ ++ [c] }

/-- The k-th command of a queue, if it may run: commands on one sequence run in acceptance order (R292, R377). -/
def seqReady (q : List Cmd) (k : Nat) : Option Cmd :=
  match startable q k with
  | none => none
  | some c => if (q.take k).any fun d => d.seqAddr == c.seqAddr then none else some c

end State

/-- KVMAP (R373). -/
def execKvmap (h : Hdr) (hb b : BitVec 6) (u : BitVec 3) (s : State) : Answer :=
  .next (s.kvAsk h .kvmap hb.toNat 8 b u)

/-- KVSD (R375). -/
def execKvsd (h : Hdr) (hb b : BitVec 6) (u : BitVec 3) (s : State) : Answer :=
  .next (s.kvAsk h .kvsd hb.toNat 4 b u)

/-- The version that a command expects is current (R374, R379). -/
def Cmd.versionOk (c : Cmd) (tptr : DWord) : Bool :=
  (c.word 2).getLsbD 20 || decide (tptr.toNat / 2 ^ 48 = lo16 (c.word 2))

/-- The entry image in descriptor words 4 to 7. -/
def Cmd.image (c : Cmd) : Entry := c.word 7 ++ c.word 6 ++ c.word 5 ++ c.word 4

/-- An entry with the fields of MASK taken from an image (R373). -/
def Entry.edit (e img : Entry) (mask : BitVec 4) : Entry :=
  let take (on : Bool) (i n : Nat) (x : Entry) : Entry := if on then x.put i n (img.toNat / 2 ^ i % 2 ^ n) else x
  let x := take (mask.getLsbD 0) 0 28 e
  let x := take (mask.getLsbD 1) 32 24 x
  let x := take (mask.getLsbD 2) 64 32 x
  take (mask.getLsbD 3) 104 8 (take (mask.getLsbD 3) 96 2 x)

/-- KVMAP's execution (R374). -/
def runKvmap (c : Cmd) : KvM (Option EngFault) :=
  if c.poison then .fail ePOISON 0
  else if above (c.word 2) 21 || !seqOk c.seqAddr then .fail eBOUNDS 0
  else (readTptr c).andThen fun tptr => (KvM.require (c.versionOk tptr) eSTALE c.seqAddr).andThen fun _ =>
    (readHeader c tptr).andThen fun hd => (readWords c).andThen fun b =>
      let d := parseDesc tptr b
      let i := (c.word 3).toNat
      let addr := BitVec.ofNat 64 i
      (KvM.require (decide (i < hd.1)) eBOUNDS addr).andThen fun _ => (readEntry c d i).andThen fun e =>
        let new := e.edit c.image ((c.word 2).extractLsb' 16 4)
        (KvM.require (new.wf d.ngrp) eBOUNDS addr).andThen fun _ => fun s =>
          match homeWriteAll c (d.entryAt i) new.bytes (s.dropCopiesAt c (d.entryAt i) 16) with
          | .error e => .error e
          | .ok (_, s) => .ok (none, s)

/-- KVMAP_EXECUTION (R374). -/
def execKvmapExecution (core k : Nat) (s : State) : Answer :=
  .next (match State.seqReady (s.getCore core).kvQ k with
    | none => s
    | some c => match c.kind with
      | .kvmap => ((s.settleStores c).removeCmd c.id).finishKv c (runKvmap c)
      | _ => s)

/-- KVSD's execution (R375). -/
def runKvsd (c : Cmd) : KvM (Option EngFault) :=
  if c.poison then .fail ePOISON 0
  else if !seqOk c.seqAddr then .fail eBOUNDS 0
  else fun s => .ok (none, s.shootDown c (c.word 2).toNat (c.word 3).toNat)

/-- KVSD_EXECUTION (R375). -/
def execKvsdExecution (core k : Nat) (s : State) : Answer :=
  .next (match State.seqReady (s.getCore core).kvQ k with
    | none => s
    | some c => match c.kind with
      | .kvsd => ((s.settleStores c).removeCmd c.id).finishKv c (runKvsd c)
      | _ => s)

/-- KV_ITEM_DROP (R365): the k-th item of a cluster's buffer is dropped. -/
def execKvItemDrop (cl k : Nat) (s : State) : Answer :=
  .next (s.modCluster cl fun c => { c with kvtb := c.kvtb.eraseIdx k })

end Sys2Proof.Machine
end

