-- ==== Sys2Proof/Machine/Splice.lean ====
section
/-! DEFINITION. Splicing and repair: KVSPL, RPSCAN and RPDONE (spec/16). -/

namespace Sys2Proof.Machine

/-! ## KVSPL (R378-R381) -/

/-- KVSPL at issue (R378). -/
def execKvspl (h : Hdr) (hb b : BitVec 6) (u : BitVec 3) (s : State) : Answer :=
  .next (s.kvAsk h .kvspl hb.toNat 10 b u)

/-- Addresses of KVSPL. -/
def Cmd.dlist (c : Cmd) : DWord := c.word 5 ++ c.word 4
def Cmd.newt (c : Cmd) : DWord := c.word 8 ++ c.word 7

/-- Field checks of KVSPL (R379). -/
def Cmd.splBad (c : Cmd) : Bool :=
  above (c.word 2) 21 || (c.word 2).extractLsb' 16 4 != 0 || above (c.word 6) 16 || lo16 (c.word 6) == 0 ||
    !seqOk c.seqAddr || !State.canonical c.newt || c.newt.toNat % 16 != 0 || decide (2 ^ 48 ≤ c.newt.toNat)

/-- An entry with its DELTA changed by n (R379). -/
def Entry.shift (e : Entry) (n : Nat) : Entry := e.put 32 24 (BitVec.ofInt 24 (e.delta + n)).toNat

/-- Does a shift lie in the range of DELTA? -/
def deltaOk (d : Int) : Bool := decide (-8388608 ≤ d) && decide (d ≤ 8388607)

/-- Entries of a table before and after token position t, of which the first is at position p; an entry that t falls
inside is split (R379). -/
def splitTable (t : Nat) : Nat → List Entry → List Entry × List Entry
  | _, [] => ([], [])
  | p, e :: rest =>
    let r := splitTable t (p + e.count) rest
    if p + e.count ≤ t then (e :: r.1, r.2)
    else if t ≤ p then (r.1, e :: r.2)
    else
      let k := t - p
      (e.put 56 5 k :: r.1, (e.put 24 4 (e.first + k)).put 56 5 (e.count - k) :: r.2)

/-- The entry that a document image gives (R379). -/
def docEntry (img : Entry) (delta : Int) : Entry :=
  let e : Entry := ((0 : Entry).put 0 28 (img.toNat % 2 ^ 28)).put 56 5 img.count
  ((e.put 64 32 (img.toNat / 2 ^ 64 % 2 ^ 32)).put 32 24 (BitVec.ofInt 24 delta).toNat).put 96 2 1

/-- Index of the first member that fails a test. -/
def firstBad {α : Type} (f : α → Bool) (l : List α) : Option Nat := l.findIdx? fun x => !f x

/-- End with BOUNDS at the index of the first member that fails a test. -/
def KvM.requireAll {α : Type} (f : α → Bool) (l : List α) : KvM Unit :=
  match firstBad f l with
  | some i => .fail eBOUNDS (BitVec.ofNat 64 i)
  | none => .ret ()

/-- The n bytes written at an address hold no defined value (R380, R487; log 12). -/
def State.freeBytes (s : State) (c : Cmd) (a : DWord) (n : Nat) : State :=
  (List.range n).foldl (fun s i => match s.translate c.core (s.cmdPart c) .write (a + BitVec.ofNat 64 i) with
    | .ok pa => s.homeStore c.die pa [Config.freeByte pa c.id]
    | .error _ => s) s

/-- Publish a new table (R379, R380); cached copies of what its bytes held go before (R365). -/
def publish (c : Cmd) (tptr : DWord) (table : List Byte) : KvM (Option EngFault) := fun s =>
  match homeWriteAll c c.newt table ((piecesOf c.newt table.length).foldl (fun s x => s.dropCopiesAt c x.1 x.2.2) s) with
  | .error (e, s) => .error (e, s.freeBytes c c.newt (e.2 - c.newt).toNat)
  | .ok (_, s) =>
    let v := (tptr.toNat / 2 ^ 48 + 1) % 2 ^ 16
    match homeWriteAll c c.seqAddr (leBytes 8 (v * 2 ^ 48 + c.newt.toNat)) s with
    | .error (e, s) => .error (e, s.freeBytes c c.newt table.length)
    | .ok (_, s) => .ok (none, (s.dropCopiesAt c c.seqAddr 64).shootDown c 0 0)

/-- KVSPL's execution (R379). -/
def runKvspl (c : Cmd) : KvM (Option EngFault) :=
  let tpos := (c.word 3).toNat
  let tAddr := BitVec.ofNat 64 tpos
  if c.poison then .fail ePOISON 0
  else if c.splBad then .fail eBOUNDS 0
  else (readTptr c).andThen fun tptr => (readHeader c tptr).andThen fun hd => (readWords c).andThen fun b =>
    let d := parseDesc tptr b
    (KvM.require (c.versionOk tptr) eSTALE c.seqAddr).andThen fun _ =>
    (KvM.require d.ok eBOUNDS 0).andThen fun _ =>
    (KvM.each (readEntry c d) (List.range hd.1)).andThen fun old =>
    (KvM.each (fun k => cleanBytes c (c.dlist + BitVec.ofNat 64 (16 * k)) 16) (List.range (lo16 (c.word 6)))).andThen
      fun docs =>
    let imgs := docs.map Entry.ofBytes
    (KvM.requireAll (fun e => e.wf d.ngrp) old).andThen fun _ =>
    (KvM.requireAll (fun e => e.placed d.ngrp) imgs).andThen fun _ =>
    (KvM.require (decide (tpos ≤ hd.2)) eBOUNDS tAddr).andThen fun _ =>
    let img0 := imgs.headD 0
    (readOrig c d img0.group).andThen fun o =>
    let n := (imgs.map Entry.count).sum
    let delta := (c.word 3 - (o + BitVec.ofNat 32 img0.first)).toInt
    let r := splitTable tpos 0 old
    (KvM.require (decide (hd.2 + n < 2 ^ 32) && deltaOk delta && r.2.all fun e => deltaOk (e.delta + n)) eBOUNDS
      tAddr).andThen fun _ =>
    let new := r.1 ++ imgs.map (docEntry · delta) ++ r.2.map (·.shift n)
    (KvM.require (decide (new.length ≤ (c.word 9).toNat)) eBOUNDS (BitVec.ofNat 64 new.length)).andThen fun _ =>
    publish c tptr (leBytes 4 new.length ++ leBytes 4 (hd.2 + n) ++ leBytes 8 0 ++ new.flatMap Entry.bytes)

/-- KVSPL_EXECUTION (R379). -/
def execKvsplExecution (core k : Nat) (s : State) : Answer :=
  .next (match State.seqReady (s.getCore core).kvQ k with
    | none => s
    | some c => match c.kind with
      | .kvspl => ((s.settleStores c).removeCmd c.id).finishKv c (runKvspl c)
      | _ => s)

/-! ## RPSCAN (R382-R387) -/

/-- Check layer, CAP and offsets of RPSCAN (R382). -/
def Cmd.rpLayer (c : Cmd) : Nat := ((c.word 2).extractLsb' 16 8).toNat
def Cmd.rpCap (c : Cmd) : Nat := lo16 (c.word 2)
def Cmd.foff (c : Cmd) : Nat := off21 (c.word 4)

/-- The position list and the count word (R387). -/
def Cmd.rpOut (c : Cmd) : List (Nat × Nat) := [(off21 (c.word 5), 8 * c.rpCap), (off21 (c.word 6), 4)]

/-- RPSCAN at issue (R382, R387). -/
def execRpscan (h : Hdr) (hb b : BitVec 6) (u : BitVec 3) (s : State) : Answer :=
  .next (s.askEngine h
    { cls := 3, kind := .rpscan, block := block hb.toNat 7, operands := [], bar := ecBar b, badBar := false,
      guard := u.toNat, denied := false }
    (fun s => decide (8 ≤ (s.getCore (coreOf s.cur.wid)).rpQ.length))
    (fun c s => if c.poison then s else s.markWords c.team c.id (rangeWords c.rpOut))
    fun c s => s.modCore c.core fun k => { k with rpQ := k.rpQ ++ [c] })

/-- Field checks of RPSCAN (R387). -/
def Cmd.rpBad (c : Cmd) (size : Nat) : Bool :=
  above (c.word 2) 24 || above (c.word 4) 21 || above (c.word 5) 21 || above (c.word 6) 21 ||
    (fdecode .f32 (c.word 3).toNat).isNan || c.foff % 4 != 0 || off21 (c.word 5) % 8 != 0 ||
    off21 (c.word 6) % 4 != 0 || !seqOk c.seqAddr || !c.rpOut.all (rangeIn size)

/-- A scanned token: entry index and slot (R383). -/
structure Token where
  entry : Nat
  slot : Nat
  deriving DecidableEq, Repr

/-- The tokens of SPLICED entries in scan order (R383). -/
def scanTokens (es : List Entry) : List Token :=
  (es.zipIdx.filter fun x => x.1.state == 1).flatMap fun x =>
    (List.range x.1.count).map fun r => ⟨x.2, x.1.first + r⟩

/-- Offset of token n's fresh key row of layer l; its value row follows (R383). -/
def Cmd.freshRow (c : Cmd) (rowb n l : Nat) : Nat := c.foff + (n * (c.rpLayer + 1) + l) * 2 * rowb

/-- The tree of R172 over F32 values. -/
def f32Tree (xs : List Nat) : Nat :=
  (loWord (treeRun (onFloats (fadd .f32 FEnv.zero)) 17 (xs.map (BitVec.ofNat 64)) FExc.none).1).toNat

/-- The deviation of a token (R384). -/
def deviation (bf16 : Bool) (kf kc : List Lane) : Nat :=
  let z := FEnv.zero
  let n := if bf16 then 2 * kc.length else kc.length
  let sq (x : Nat) : Nat := (fmul .f32 z x x).1
  let num := f32Tree ((List.range n).map fun i => sq (fsub .f32 z (rowElem bf16 kf i) (rowElem bf16 kc i)).1)
  let den := (fadd .f32 z (f32Tree ((List.range n).map fun i => sq (rowElem bf16 kc i))) 0x35800000).1
  let d := (fdiv .f32 z num den).1
  if kc.any (·.poison) || (fdecode .f32 d).isNan then FFmt.f32.infBits else d

/-- The selected tokens, as scan numbers in ascending order: those above the threshold, at most `cap` of the largest,
a tie going to the lower number (R384). Deviations are not negative, so their bits order them. -/
def selectTokens (thr cap : Nat) (ds : List Nat) : List Nat :=
  let high := (List.range ds.length).filter fun n => (fcmp .f32 false 4 (ds.getD n 0) thr).1
  high.filter fun n =>
    let d := ds.getD n 0
    decide ((high.filter fun m =>
      let e := ds.getD m 0
      decide (d < e) || (d == e && decide (m < n))).length < cap)

/-- The shared groups to copy: distinct, among entries that hold a selected token, in table order (R385). -/
def sharedGroups (es : List Entry) (holds : Nat → Bool) : List Nat :=
  ((es.zipIdx.filter fun x => x.1.shared && x.1.state == 1 && holds x.2).map fun x => x.1.group).eraseDups

/-- Pop a group for each group to copy, from `nfree` down: pairs of old and new (R385, R387). -/
def popGroups (c : Cmd) (d : SeqDesc) : Nat → List Nat → KvM (List (Nat × Nat))
  | _, [] => .ret []
  | n, g :: rest =>
    (cleanWord c (d.free + BitVec.ofNat 64 (4 * (n - 1)))).andThen fun w =>
    (KvM.require (decide (w.toNat < d.ngrp)) eBOUNDS 0).andThen fun _ =>
    (readOrig c d w.toNat).andThen fun o => (readOrig c d g).andThen fun p =>
    (KvM.require (o == p) eBOUNDS 0).andThen fun _ =>
    (popGroups c d (n - 1) rest).andThen fun l => .ret ((g, w.toNat) :: l)

/-- The writes that copy every layer block of a group (R387). -/
def copyGroup (d : SeqDesc) (g : Nat × Nat) : List KvTask :=
  (piecesOf (d.keyRow g.1 0 0) (d.layers * 32 * d.rowb)).map fun x =>
    .piece x.1 (d.keyRow g.2 0 0 + BitVec.ofNat 64 x.2.1) x.2.2

/-- The copy of an entry's group, if it was copied (R387): no byte of an old shared group is ever written. -/
def copyOf? (copies : List (Nat × Nat)) (e : Entry) : Option Nat := (copies.find? fun x => x.1 == e.group).map (·.2)

/-- The group that holds an entry's tokens after the copies. -/
def newGroup (copies : List (Nat × Nat)) (e : Entry) : Nat := (copyOf? copies e).getD e.group

/-- The writes of a token's fresh rows into its group (R387). -/
def writeRows (c : Cmd) (d : SeqDesc) (t : Team) (copies : List (Nat × Nat)) (e : Entry) (n slot : Nat) : List KvTask :=
  (List.range (c.rpLayer + 1)).flatMap fun l =>
    let o := c.freshRow d.rowb n l
    [.row (d.keyRow (newGroup copies e) l slot) (cellsGet t.sp o d.rowb),
     .row (d.valueRow (newGroup copies e) l slot) (cellsGet t.sp (o + d.rowb) d.rowb)]

/-- An entry after RPSCAN (R387). -/
def scannedEntry (c : Cmd) (d : SeqDesc) (copies : List (Nat × Nat)) (holds : Bool) (e : Entry) : Entry :=
  if e.state ≠ 1 then e
  else if !holds then (e.put 96 2 3).put 104 8 (d.layers - 1)
  else
    let e := match copyOf? copies e with
      | some g => (e.put 0 24 g).put 95 1 0
      | none => e
    if c.rpLayer + 1 = d.layers then (e.put 96 2 3).put 104 8 (d.layers - 1)
    else (e.put 96 2 2).put 104 8 c.rpLayer

/-- Entry of index i. -/
def entryOf (es : List Entry) (i : Nat) : Entry := es.getD i 0

/-- Write the position list and the count word (R386, R387). -/
def writeList (c : Cmd) (items : List (Word × Word)) : KvM Unit :=
  let words := (List.range c.rpCap).flatMap fun m =>
    let x := items.getD m (0, 0)
    [(⟨x.1, false⟩ : Lane), ⟨x.2, false⟩]
  (putWords c (off21 (c.word 5)) words).andThen fun _ =>
    putWords c (off21 (c.word 6)) [⟨BitVec.ofNat 32 items.length, false⟩]

/-- A write of an RPSCAN or RPDONE: the cached copies of what it writes are removed before (R365); the fresh rows and the list
carry no poison (R387). -/
def runTask (c : Cmd) : KvTask → KvM Unit
  | .piece src dst n => (readPiece c true src n).andThen fun r =>
      (KvM.each (fun y => homeLine c y.1 ((r.1.drop y.2.1).take y.2.2) r.2) (piecesOf dst n)).andThen fun _ => .ret ()
  | .row dst bytes => homeWriteAll c dst bytes
  | .nfree n => fun s => homeWriteAll c (c.seqAddr + 0x30) (leBytes 4 n) (s.dropCopiesAt c (c.seqAddr + 0x30) 4)
  | .entry a _ img => fun s => homeWriteAll c a (Entry.bytes img) (s.dropCopiesAt c a 16)
  | .list items => writeList c items
  | .word off x => putWords c off [x]
  | .gather _ _ _ => .ret ()

/-- The writes of a command that has started, in turn; it completes after the last, or fails at one that fails (R387, R487). -/
def runTasks (c : Cmd) : Nat → List KvTask → State → State
  | _, [], s => (s.removeCmd c.id).complete c none
  | 0, l, s => s.updateCmd { c with started := true, tasks := l }
  | n + 1, x :: rest, s => match runTask c x s with
    | .error (e, s) => (s.removeCmd c.id).failCmd c e
    | .ok (_, s) => runTasks c n rest s

/-- Commands of the KV table units and repair engines that have begun to write. -/
def State.writers (s : State) : List Cmd := s.cores.flatMap fun e => (e.2.kvQ ++ e.2.rpQ).filter (·.started)

/-- Where a command's descriptor lies: its physical address, or where it has none its address in a partition. -/
def State.lineOfSeq (s : State) (c : Cmd) : Option Nat × Nat × DWord :=
  match s.physOf c c.seqAddr with
  | some pa => (some pa, 0, 0)
  | none => (none, s.cmdPart c, c.seqAddr)

/-- Does another command that has begun to write hold the descriptor line of a command's sequence (R364)? -/
def State.heldLine (s : State) (c : Cmd) : Bool := s.writers.any fun d => d.id != c.id && s.lineOfSeq d == s.lineOfSeq c

/-- A step of an RPSCAN or RPDONE: `plan` makes its reads and its checks and gives its writes; each later step makes one. While
another command holds the sequence's descriptor line, it waits (R364). -/
def stepTasks (c : Cmd) (plan : KvM (List KvTask)) (s : State) : State :=
  if c.started then runTasks c 1 c.tasks s
  else if s.heldLine c then s
  else match plan s with
    | .error (e, s) => (s.removeCmd c.id).failCmd c e
    | .ok (l, s) => runTasks c 0 l s

/-- The writes of a scan whose selection is made, in order (R387). -/
def planScan (c : Cmd) (d : SeqDesc) (t : Team) (es : List Entry) (toks : List Token) (origs : List (Nat × Word))
    (sel : List Nat) : KvM (List KvTask) :=
  let tok (n : Nat) : Token := toks.getD n ⟨0, 0⟩
  let holds (i : Nat) : Bool := sel.any fun n => (tok n).entry == i
  let groups := sharedGroups es holds
  (KvM.require (decide (groups.length ≤ d.nfree)) eBOUNDS 0).andThen fun _ =>
  (popGroups c d d.nfree groups).andThen fun copies =>
  let item (n : Nat) : Word × Word :=
    let e := entryOf es (tok n).entry
    let o := ((origs.find? fun x => x.1 == e.group).map (·.2)).getD 0
    (position o e (tok n).slot, BitVec.ofNat 32 (newGroup copies e + 2 ^ 24 * (tok n).slot))
  .ret (copies.flatMap (copyGroup d) ++
    sel.flatMap (fun n => writeRows c d t copies (entryOf es (tok n).entry) n (tok n).slot) ++
    (if toks.isEmpty then [] else [.nfree (d.nfree - copies.length)]) ++
    (es.zipIdx.filter fun x => x.1.state == 1).map (fun x =>
      .entry (d.entryAt x.2) x.2 (scannedEntry c d copies (holds x.2) x.1)) ++
    [.list (sel.map item)])

/-- RPSCAN's reads and checks, and the writes that it will make (R387). The origin words that it reads before its checks are those
of the well-formed SPLICED entries (DESIGN CHOICE, log 81). -/
def planRpscan (c : Cmd) : KvM (List KvTask) := fun s =>
  match (s.getTeam? c.team).map fun t => t.recall c with
  | none => .ok ([], s)
  | some t =>
    (if c.poison then .fail ePOISON 0
    else if c.rpBad t.size then .fail eBOUNDS 0
    else (readTptr c).andThen fun tptr => (readHeader c tptr).andThen fun hd =>
      (KvM.each (readEntry c (parseDesc tptr [])) (List.range hd.1)).andThen fun es => (readWords c).andThen fun b =>
      let d := parseDesc tptr b
      let spliced := es.filter fun e => e.state == 1
      (KvM.each (fun g => (readOrig c d g).andThen fun o => .ret (g, o))
        ((spliced.filter fun e => e.wf d.ngrp).map Entry.group).eraseDups).andThen fun origs =>
      (KvM.requireAll (fun e => e.state != 1 || e.wf d.ngrp) es).andThen fun _ =>
      (KvM.require (d.ok && decide (c.rpLayer < d.layers)) eBOUNDS 0).andThen fun _ =>
      let toks := scanTokens es
      let span := toks.length * (c.rpLayer + 1) * 2 * d.rowb
      (KvM.require (rangeIn t.size (c.foff, span)) eBOUNDS (BitVec.ofNat 64 c.foff)).andThen fun _ =>
      match (rangeWords [(c.foff, span)]).findSome? t.wordFault with
      | some e => .fail e.1 e.2
      | none =>
        (KvM.each (fun x =>
            (rowWords c true (d.keyRow (entryOf es x.1.entry).group c.rpLayer x.1.slot) d.rowWords).andThen fun kc =>
              let o := c.freshRow d.rowb x.2 c.rpLayer
              .ret (deviation d.bf16 ((List.range d.rowWords).map fun k => t.spLoad (o / 4 + k)) kc))
          toks.zipIdx).andThen fun ds =>
        planScan c d t es toks origs (selectTokens (c.word 3).toNat c.rpCap ds)) s

/-- RPSCAN_EXECUTION (R387): a step of the k-th command of the repair engine's queue. -/
def execRpscanExecution (core k : Nat) (s : State) : Answer :=
  .next (match State.seqReady (s.getCore core).rpQ k with
    | none => s
    | some c => match c.kind with
      | .rpscan => stepTasks c (planRpscan c) (s.settleStores c)
      | _ => s)

/-! ## RPDONE (R388, R389) -/

/-- RPDONE at issue (R388). -/
def execRpdone (h : Hdr) (hb b : BitVec 6) (u : BitVec 3) (s : State) : Answer :=
  .next (s.kvAsk h .rpdone hb.toNat 5 b u)

/-- An entry after RPDONE of a layer (R389). -/
def doneEntry (layers l : Nat) (e : Entry) : Entry :=
  let e := e.put 104 8 l
  if l + 1 = layers then e.put 96 2 3 else e

/-- RPDONE's reads and checks after its release, and the entries that it will write (R389). -/
def planRpdone (c : Cmd) : KvM (List KvTask) :=
  let l := (c.word 2).toNat % 2 ^ 8
  let first := (c.word 3).toNat
  let count := (c.word 4).toNat
  if c.poison then .fail ePOISON 0
  else if above (c.word 2) 8 || !seqOk c.seqAddr then .fail eBOUNDS 0
  else (readTptr c).andThen fun tptr => (readHeader c tptr).andThen fun hd => (readWords c).andThen fun b =>
    let d := parseDesc tptr b
    let idx := if count = 0 then List.range hd.1 else (List.range (min count (hd.1 - first))).map (first + ·)
    (KvM.each (fun i => (readEntry c d i).andThen fun e => .ret (i, e)) idx).andThen fun es =>
    (KvM.require (decide (l < d.layers)) eBOUNDS (BitVec.ofNat 64 l)).andThen fun _ =>
    let rs := es.filter fun x => x.2.state == 2
    (KvM.require (!rs.isEmpty) eREPAIR (BitVec.ofNat 64 first)).andThen fun _ =>
    match rs.find? fun x => x.2.level + 1 != l with
    | some x => .fail eREPAIR (BitVec.ofNat 64 x.1)
    | none =>
      (KvM.each (fun x => fun s => match s.translate c.core (s.cmdPart c) .write (d.entryAt x.1) with
          | .ok _ => .ok ((), s)
          | .error _ => .error ((eCOPY, d.entryAt x.1), s)) rs).andThen fun _ =>
      .ret (rs.map fun x => .entry (d.entryAt x.1) x.1 (doneEntry d.layers l x.2))

/-- RPDONE_EXECUTION (R389): its release, which stands in its issuer's order before it, is complete first. -/
def execRpdoneExecution (core k : Nat) (s : State) : Answer :=
  .next (match State.seqReady (s.getCore core).kvQ k with
    | none => s
    | some c => match c.kind with
      | .rpdone => stepTasks c (planRpdone c) (s.settleStores c)
      | _ => s)

/-! ## Commands that hold their sequence (R364, R377) -/

namespace State

/-- Commands that have begun to write make their last writes: while they hold their descriptor line, accesses to it and other
commands on the sequence wait, but for a KVG (R364, R390). -/
def finishWriters (s : State) : State := s.writers.foldl (fun s c => runTasks c c.tasks.length c.tasks s) s

end State

end Sys2Proof.Machine
end

