-- ==== Sys2Proof/Machine/Tags.lean ====
section
/-! DEFINITION. The scratchpad tag table (spec/09 R240-R247). -/

namespace Sys2Proof.Machine

namespace TagTable

/-- Sets, ways and slot size that the geometry word gives (R242). -/
def sets (t : TagTable) : Nat := 2 ^ (t.geometry.extractLsb' 4 4).toNat
def ways (t : TagTable) : Nat := 2 ^ (t.geometry.extractLsb' 0 4).toNat
/-- Slots of the table. -/
def slots (t : TagTable) : Nat := t.sets * t.ways

/-- The table at a granted team's start: 512 sets of 4 ways, slots of 256 bytes, base 0 (R240). -/
def init : TagTable := { geometry := 0x892#32, base := 0, entries := [] }

/-- The slot that holds a key, if one does. -/
def slotOf (t : TagTable) (key : Word) : Option Nat :=
  let first := key.toNat % t.sets * t.ways
  (List.range t.ways).findSome? fun w => match t.entries.find? (first + w) with
    | some e => if e.key = key then some (first + w) else none
    | none => none

/-- The entry of a slot becomes the most recently used of its set: those used after it move down (R240). -/
def touch (t : TagTable) (slot : Nat) : TagTable :=
  match t.entries.find? slot with
  | none => t
  | some x =>
    let set := slot / t.ways
    { t with entries := t.entries.map fun e =>
        if e.1 = slot then (e.1, { e.2 with use := 0 })
        else if e.1 / t.ways = set ∧ e.2.use < x.use then (e.1, { e.2 with use := e.2.use + 1 })
        else e }

/-- An entry becomes invalid: those used before it move up. -/
def invalidate (t : TagTable) (slot : Nat) : TagTable :=
  match t.entries.find? slot with
  | none => t
  | some x =>
    let set := slot / t.ways
    { t with entries := (t.entries.erase slot).map fun e =>
        if e.1 / t.ways = set ∧ x.use < e.2.use then (e.1, { e.2 with use := e.2.use - 1 }) else e }

/-- The slot takes a key, as the most recently used of its set. -/
def put (t : TagTable) (slot : Nat) (key : Word) : TagTable :=
  let t := t.invalidate slot
  let set := slot / t.ways
  let es : SMap TagEntry := t.entries.map fun e => if e.1 / t.ways = set then (e.1, { e.2 with use := e.2.use + 1 }) else e
  { t with entries := es.set slot ⟨key, 0⟩ }

/-- The way that a miss names: the lowest invalid one, else the least recently used (R244). -/
def victim (t : TagTable) (set : Nat) : Nat :=
  let ws := List.range t.ways
  match ws.find? fun w => (t.entries.find? (set * t.ways + w)).isNone with
  | some w => w
  | none => ws.foldl (fun v w =>
      let u (w : Nat) : Nat := ((t.entries.find? (set * t.ways + w)).map (·.use)).getD 0
      if u v < u w then w else v) 0

/-- TAGLK for the lanes in turn: results and the table left (R244). -/
def lookup (t : TagTable) : List (Nat × Word) → List (Nat × Word) × TagTable
  | [] => ([], t)
  | (i, k) :: rest =>
    match t.slotOf k with
    | some slot =>
      let r := (t.touch slot).lookup rest
      ((i, BitVec.ofNat 32 slot) :: r.1, r.2)
    | none =>
      let r := t.lookup rest
      ((i, 0x80000000#32 ||| BitVec.ofNat 32 (t.victim (k.toNat % t.sets) * 2 ^ 16)) :: r.1, r.2)

/-- TAGSET of one lane (R245): any other way with the key is invalidated. -/
def setKey (t : TagTable) (key : Word) (slot : Nat) : TagTable :=
  let t := match t.slotOf key with
    | some old => if old = slot then t else t.invalidate old
    | none => t
  t.put slot key

/-- Does a geometry word keep R242? -/
def goodGeometry (g : Word) : Bool :=
  let ls := (g.extractLsb' 8 4).toNat
  let lt := (g.extractLsb' 4 4).toNat
  let lw := (g.extractLsb' 0 4).toNat
  g.extractLsb' 12 20 == 0 && (ls == 0 || decide (8 ≤ ls)) && decide (lt ≤ 11) && decide (lw ≤ 4) &&
    decide (lt + lw ≤ 11)

/-- The slot size of a geometry word (R242). -/
def slotBytes (g : Word) : Nat :=
  let ls := (g.extractLsb' 8 4).toNat
  if ls = 0 then 2 ^ 16 else 2 ^ ls

end TagTable

namespace State

/-- The team's tag table: PERM without the grant (R240). -/
def tagTable (s : State) : Except Stop TagTable :=
  match s.team?.bind (·.tag) with
  | some t => .ok t
  | none => .error (s.trapAct cPERM)

def setTag (s : State) (t : TagTable) : State := s.modTeam s.w.team fun x => { x with tag := some t }

/-- Active lanes with the value of register n. -/
def laneWords (s : State) (n : Nat) : List (Nat × Word) := s.actLanes.map fun i => (i, ((s.rd n).lane i).val)

/-- A tag instruction with no register result. -/
def tagStep (h : Hdr) (srcs : List Nat) (f : State → TagTable → Except Stop TagTable) (s : State) : State :=
  s.pathStep h srcs fun s => match s.tagTable with
    | .error e => .error e
    | .ok t => match f s t with
      | .error e => .error e
      | .ok t => .ok ((s.setTag t).usePath 1 1)

end State

/-- TAGLK (R244). -/
def execTaglk (h : Hdr) (d a : BitVec 6) (s : State) : Answer :=
  .next (s.pathRegStep h [a.toNat] fun s => match s.tagTable with
    | .error e => .error e
    | .ok t =>
      let x := s.rd a.toNat
      let r := t.lookup (s.laneWords a.toNat)
      let vals : List (Nat × List Lane) := r.1.map fun e => (e.1, [⟨e.2, (x.lane e.1).poison⟩])
      .ok (s.loadRes d.toNat 1 x.isU vals, (s.setTag r.2).usePath 1 1))

/-- TAGSET (R245). -/
def execTagset (h : Hdr) (a b : BitVec 6) (s : State) : Answer :=
  .next (s.tagStep h [a.toNat, b.toNat] fun s t =>
    let ks := (s.laneWords a.toNat).zip (s.laneWords b.toNat)
    if ks.any fun e => decide (t.slots ≤ e.2.2.toNat) ||
        decide (e.1.2.toNat % t.sets ≠ e.2.2.toNat / t.ways) then .error (s.trapAct cPERM)
    else .ok (ks.foldl (fun t e => t.setKey e.1.2 e.2.2.toNat) t))

/-- TAGINV (R246): by KEY, by SLOT, or ALL. -/
def execTaginv (h : Hdr) (a b : BitVec 6) (s : State) : Answer :=
  .next (s.tagStep h [a.toNat] fun s t =>
    let ks := s.laneWords a.toNat
    if b = 0 then
      .ok (ks.foldl (fun t e => match t.slotOf e.2 with
        | some slot => t.invalidate slot
        | none => t) t)
    else if b = 1 then
      if ks.any fun e => decide (t.slots ≤ e.2.toNat) then .error (s.trapAct cPERM)
      else .ok (ks.foldl (fun t e => t.invalidate e.2.toNat) t)
    else .ok { t with entries := [] })

/-- TAGCFG (R243). A team without the grant takes PERM (R240) before the shapes of the registers are checked (DESIGN CHOICE,
log 70: the rules state no order). -/
def execTagcfg (h : Hdr) (a b : BitVec 6) (s : State) : Answer :=
  .next (s.tagStep h [] fun s _ => match s.uniform (s.rd a.toNat), s.uniform (s.rd b.toNat) with
    | .ok g, .ok base =>
      let t : TagTable := { geometry := g, base, entries := [] }
      if !TagTable.goodGeometry g || decide (base.toNat % TagTable.slotBytes g ≠ 0) ||
          decide (s.spSize s.w.team < base.toNat + t.slots * TagTable.slotBytes g) then .error (s.trapAct cPERM)
      else .ok t
    | _, _ => .error (s.trapAct cSHAPE))

end Sys2Proof.Machine
end

