-- ==== Sys2Proof/Machine/Launch.lean ====
section
/-! DEFINITION. Launch records, completion counters, cancels, and the admission and start of teams (spec/17
R391-R407); their placement by the dispatcher stands in Preempt.lean. -/

namespace Sys2Proof.Machine

/-! ## Records (R391, R392) -/

/-- Bits lo to lo + n - 1 of the word at an offset of a record or header. -/
def recBits (b : List Byte) (off lo n : Nat) : Nat := fieldAt b off 4 / 2 ^ lo % 2 ^ n

def recKind (b : List Byte) : Nat := recBits b 0 0 8
def recCtr (b : List Byte) : Nat := recBits b 4 0 10
def recLevel (b : List Byte) : Nat := recBits b 4 10 2
def recNcrew (b : List Byte) : Nat := recBits b 0x18 0 24
def recTpc (b : List Byte) : Nat := recBits b 0x1C 0 5
def recNbank (b : List Byte) : Nat := recBits b 0x20 8 3
def recNbar (b : List Byte) : Nat := recBits b 0x20 0 6
def recTagT (b : List Byte) : Bool := recBits b 0 13 1 == 1
def recQpin (b : List Byte) : DWord := BitVec.ofNat 64 (fieldAt b 0x28 8)
def recEntry (b : List Byte) : DWord := BitVec.ofNat 64 (fieldAt b 8 8)

/-- The parent, when HASPARENT is 1. -/
def recParent (b : List Byte) : Option Nat := if recBits b 4 26 1 = 1 then some (recBits b 4 16 10) else none

/-- Counters and GENs of the WAITs with VALID 1. -/
def recWaits (b : List Byte) : List (Nat × BitVec 16) :=
  (List.range 4).filterMap fun j =>
    let o := 0x30 + 4 * j
    if recBits b o 15 1 = 1 then some (recBits b o 0 10, BitVec.ofNat 16 (recBits b o 16 16)) else none

/-- A ZERO field or a field that KIND does not use is not zero, or KIND is above 2 (R392, R396). -/
def recMalformed (b : List Byte) : Bool :=
  decide (2 < recKind b) || recBits b 0 14 18 != 0 || recBits b 4 27 5 != 0 || recBits b 4 12 4 != 0 ||
  (if recKind b = 0 then
    recLevel b != 0 || recBits b 0x18 24 8 != 0 || recBits b 0x1C 27 5 != 0 || recBits b 0x1C 5 11 != 0 ||
      recBits b 0x20 11 21 != 0 || recBits b 0x20 6 2 != 0 || fieldAt b 0x24 4 != 0 ||
      ((List.range 16).any fun r => (recQpin b).getLsbD (4 * r + 2)) ||
      ((List.range 4).any fun j => recBits b (0x30 + 4 * j) 10 5 != 0) || fieldAt b 0x40 64 != 0
  else
    recBits b 0 8 6 != 0 || fieldAt b 8 120 != 0 ||
      (recKind b != 1 && (recLevel b != 0 || recBits b 4 16 11 != 0)))

/-- A kernel header (R391). -/
structure Header where
  borrow : Bool
  wide64 : Bool
  vrows : Nat
  lanes : Nat
  scratch : Nat
  live : DWord
  deriving DecidableEq, Repr

/-- The header that 16 bytes hold; none when a ZERO field is not zero. -/
def parseHeader (b : List Byte) : Option Header :=
  if recBits b 0 20 12 ≠ 0 ∨ recBits b 4 22 10 ≠ 0 then none
  else some { borrow := recBits b 0 19 1 == 1, wide64 := recBits b 0 18 1 == 0, vrows := recBits b 0 11 7,
              lanes := recBits b 0 0 11, scratch := recBits b 4 0 22, live := BitVec.ofNat 64 (fieldAt b 8 8) }

/-- The scratchpad of a core, 2 MiB (R16, R230). -/
def scratchBytes : Nat := 2 ^ 21

/-- Allocation size: SCRATCH rounded up to 4 KiB (R230). -/
def allocSize (scratch : Nat) : Nat := (scratch + 4095) / 4096 * 4096

/-- Warps of a team of n lanes (R25). -/
def warpsFor (wide64 : Bool) (n : Nat) : Nat := if wide64 then (n + 63) / 64 else (n + 31) / 32

/-- Team lanes: LANES of the record, or the header's when it is 0 (R393). -/
def teamLanes (b : List Byte) (h : Header) : Nat := if recBits b 0x1C 16 11 = 0 then h.lanes else recBits b 0x1C 16 11

/-- The quarter to which a rank is pinned (R392). -/
def pinOf (qpin : DWord) (rank : Nat) : Option Nat :=
  if qpin.getLsbD (4 * rank + 3) then some (qpin.extractLsb' (4 * rank) 2).toNat else none

/-- Teams of a launch that one empty core can hold (R397, bound 0x48). -/
def teamsPerCore (b : List Byte) (h : Header) : Nat :=
  let m := warpsFor h.wide64 (teamLanes b h)
  let per (cap need : Nat) : Nat := if need = 0 then 16 else cap / need
  min (min (min 16 (64 / m)) (min (per 2048 (h.vrows * m)) (per 32 (recNbar b))))
    (min (per scratchBytes (allocSize h.scratch)) (if recTagT b then 1 else 16))

namespace State

/-! ## Checks (R396, R397) -/

/-- Does partition p hold counter c? -/
def grantedCtr (s : State) (p c : Nat) : Bool := (s.getPart p).holdsCounter c

/-- The kernel header at ENTRY - 16, as the dispatcher reads it at its home (R391). -/
def readHeaderAt (s : State) (p : Nat) (entry : DWord) : Option Header :=
  if entry.toNat % 16 ≠ 0 ∨ !canonical entry then none
  else match s.translate outsideCores p .read (entry - 16) with
    | .error _ => none
    | .ok pa => parseHeader (s.homeRead pa 16)

/-- The first bound that a LAUNCH breaks, in the order of R397; 0 when none is broken. -/
def boundCode (s : State) (p : Nat) (b : List Byte) : Option Header → Nat
  | none => 0x42
  | some h =>
    let n := teamLanes b h
    let m := warpsFor h.wide64 n
    let k := teamsPerCore b h
    let tpc := recTpc b
    if n = 0 ∨ 1024 < n ∨ 64 < h.vrows ∨ scratchBytes < h.scratch then 0x43
    else if recNcrew b = 0 ∨ tpc = 0 ∨ 16 < tpc ∨ 2 ^ 24 - 1 < recNcrew b * tpc then 0x44
    else if 2048 < h.vrows * m then 0x45
    else if 32 < recNbar b then 0x46
    else if 4 < recNbank b then 0x47
    else if 4 * k < tpc ∨ (List.range 4).any (fun q =>
        decide (k < ((List.range tpc).filter fun r => pinOf (recQpin b) r == some q).length)) then 0x48
    else if (recWaits b).any fun w => !s.grantedCtr p w.1 then 0x4A
    else 0

/-- Is the parent granted, in use, open and one level up (R396)? -/
def parentOk (s : State) (p parent level : Nat) : Bool :=
  let k := s.getCounter parent
  s.grantedCtr p parent && !k.done && !k.sealed && k.level == level + 1

/-- The code of the first check that a record fails, 0 when it passes (R396). -/
def recordCode (s : State) (p : Nat) (b : List Byte) : Nat :=
  let k := s.getCounter (recCtr b)
  if recMalformed b then 0x41
  else if !s.grantedCtr p (recCtr b) then 0x49
  else if recKind b = 2 then (if k.done || k.level == 0 then 0x49 else 0)
  else if !k.done then 0x49
  else if (recParent b).any fun q => !s.parentOk p q (recLevel b) then 0x49
  else if recKind b = 0 then s.boundCode p b (s.readHeaderAt p (recEntry b))
  else 0

/-! ## Cancels (R401-R403) -/

end State

/-- Does a gang stand where its warp may be parked (R432)? One whose wait is over does not wait any more. -/
def Gang.parks (g : Gang) : Bool :=
  !g.met && match g.wait with
    | some .wfe | some (.remote _) | none => false
    | _ => true

/-- Is a warp parked (R432)? Slices that wait at a JOIN belong to no gang. -/
def Warp.atRest (w : Warp) : Bool :=
  w.ended || (!w.hm && w.rowReq.isNone && w.gangs.all fun e => e.2.parks)

/-- Precedence of a request (R427). -/
def ReqKind.rank : ReqKind → Nat
  | .yield => 1
  | .slice => 2
  | .progress => 3
  | .priority => 4
  | .migrate => 5
  | .host => 6
  | .cancel => 7

namespace State

/-- Is a resident team parked (R432)? -/
def teamParked (s : State) (t : Team) : Bool := t.wids.all fun wid => (s.getWarp wid).atRest

/-- The request that a team's gangs parked for is dropped: those at a CKPT resume past it, and the warps issue again
(R427, R431). -/
def unpark (s : State) (t : Team) : State :=
  t.wids.foldl (fun s wid => s.modWarp wid fun w =>
    { w with
      halted := false
      gangs := w.gangs.map fun e => (e.1, match e.2.wait with
        | some (.ckpt _) => e.2.moved e.2.pc (s.whenIn wid 0)
        | _ => e.2) }) s

/-- A resident team is asked to give way; of two requests the one of higher precedence is kept, and the other is dropped
(R427). -/
def request (s : State) (team : Nat) (k : ReqKind) : State :=
  match s.getTeam? team with
  | none => s
  | some t =>
    let new : Team := { t with req := some (k, s.gtime) }
    if t.status != .resident then s
    else match t.req with
      | some (old, _) => if old.rank < k.rank then ((s.svDone team).unpark t).setTeam team new else s
      | none => s.setTeam team new

/-- Has the team a cancel request? -/
def hasCancel (t : Team) : Bool :=
  match t.req with
  | some (.cancel, _) => t.status == .resident
  | _ => false

/-- Teams with a cancel request end as soon as they are parked (R403). -/
def endCancelled (s : State) : State :=
  s.teams.foldl (fun s e => match s.getTeam? e.1 with
    | some t => if hasCancel t && s.teamParked t then s.stopTeam e.1 else s
    | none => s) s

/-- The teams of a launch that have not ended are dropped or asked to end, and the unplaced ones are dropped (R402). -/
def cancelLaunch (s : State) (l : Nat) : State :=
  match s.getLaunch? l with
  | none => s
  | some x =>
    let total := x.ncrew * x.tpc
    let left := total - x.nextTeam
    let s := s.setLaunch l { x with nextTeam := total, cancelled := true, glive := x.glive - left }
    let s := (s.teamsOf l).foldl (fun s e => match s.getTeam? e.1 with
      | some t => match t.status with
        | .out => s.stopTeam e.1
        | .resident => s.request e.1 .cancel
        | .ended => s
      | none => s) s
    let s := (s.gridCheck l).endCancelled
    let s := ((s.crews.filter fun c => c.launch == l).map (·.crew)).foldl (fun s c => s.crewCheck l c) s
    s.closeMembers x.ctr left

/-- `Cancel` of R402, over the levels of R394. -/
def cancelCtr (s : State) (c : Nat) : Nat → State
  | 0 => s
  | n + 1 =>
    let s := s.modCounter c fun k => { k with cancelled := true }
    let kids := (s.counters.filter fun e => !e.2.done && e.2.parent == some c).map (·.1)
    let s := kids.foldl (fun s k => s.cancelCtr k n) s
    match s.launchOf c with
    | some (l, _) => s.cancelLaunch l
    | none => s

/-- A cancel of the unit that a counter and a GEN name (R401). -/
def cancelUnit (s : State) (c : Nat) (gen : BitVec 16) : State :=
  let k := s.getCounter c
  if k.done || k.gen != gen then s else s.cancelCtr c 4

/-! ## Applying a record (R396, R398) -/

/-- The PARENT field of a record. -/
def parentBits (b : List Byte) : BitVec 10 := BitVec.ofNat 10 (recBits b 4 16 10)

/-- A counter is claimed (R396). -/
def claim (s : State) (c level : Nat) (parent : Option Nat) (parentField : BitVec 10) (n : Nat) (sealed : Bool) : State :=
  s.modCounter c fun k =>
    { gen := k.gen + 1, parent, parentField, level, error := false, cancelled := false, done := false, sealed, open' := n,
      errWord := 0 }

/-- The launch that a record makes (R393, R400, R415). -/
def launchFrom (s : State) (p q : Nat) (b : List Byte) (h : Header) : Launch :=
  { ctr := recCtr b, gen := (s.getCounter (recCtr b)).gen, part := p, queue := q, prio := recBits b 0 8 3,
    cascade := recBits b 0 12 1 == 1,
    after := if recBits b 0 11 1 = 1 then (s.getQueue q).lastLaunch else none, waits := recWaits b,
    entry := recEntry b, args := BitVec.ofNat 64 (fieldAt b 0x10 8), ncrew := recNcrew b, tpc := recTpc b,
    lanes := teamLanes b h, wide64 := h.wide64, floor := h.vrows, borrow := h.borrow,
    scratch := allocSize h.scratch, live := h.live, nbank := recNbank b, nbar := recNbar b, tagT := recTagT b,
    qpin := recQpin b, cores := [], nextTeam := 0, cancelled := false, ggen := 0, glive := recNcrew b * recTpc b,
    garrt := 0 }

/-- A launch is kept under a fresh number, and is the last of its queue. -/
def addLaunch (s : State) (q : Nat) (l : Launch) : State :=
  let s := s.modQueue q fun k => { k with lastLaunch := some (l.ctr, l.gen) }
  { s.setLaunch s.fresh l with fresh := s.fresh + 1 }

/-- A refused record: its own counter, claimed, in error and complete, or else the queue's error register (R398). -/
def refuse (s : State) (p q c code : Nat) : State :=
  if s.grantedCtr p c && (s.getCounter c).done then
    ((s.claim c 0 none 0 0 true).counterError c (errWordOf 0 0 0 (BitVec.ofNat 8 code))).tryComplete c 4
  else s.setQref q (BitVec.ofNat 8 code)

/-- A record that passes every check takes effect (R396). -/
def acceptRecord (s : State) (p q : Nat) (b : List Byte) : State :=
  let c := recCtr b
  if recKind b = 2 then (s.modCounter c fun k => { k with sealed := true }).tryComplete c 4
  else
    let s := if recKind b = 0 then
        let s := s.claim c 0 (recParent b) (parentBits b) (recNcrew b * recTpc b) true
        match s.readHeaderAt p (recEntry b) with
        | some h => s.addLaunch q (s.launchFrom p q b h)
        | none => s
      else s.claim c (recLevel b) (recParent b) (parentBits b) 0 false
    match recParent b with
    | none => s
    | some r =>
      let s := s.modCounter r fun k => { k with open' := k.open' + 1 }
      if (s.getCounter r).cancelled then s.cancelCtr c 4 else s

/-- A record of partition p is applied to queue q: its code, and the state (R396, R398). -/
def applyRecord (s : State) (p q : Nat) (b : List Byte) : Nat × State :=
  let code := s.recordCode p b
  (code, if code = 0 then s.acceptRecord p q b else s.refuse p q (recCtr b) code)

/-- The next record of a queue and its partition, when the dispatcher serves the queue (R399, R472). -/
def nextRecord (s : State) (q : Nat) : Option (Nat × List Byte) :=
  let k := s.getQueue q
  match s.queueHolder q with
  | some p =>
    if k.enable && k.rptr != k.wptr then
      some (p, s.homeRead (hostAddr k.base + 128 * (k.rptr.toNat % 2 ^ k.log2)) 128)
    else none
  | none => none

/-- The dispatcher applies the next record of a queue if its KIND is one of those asked for; it acquires at SYS before
it reads (R399). -/
def serveQueue (s : State) (q : Nat) (kinds : Nat → Bool) : State :=
  match s.nextRecord q with
  | some (p, b) =>
    if kinds (recKind b) then
      let s := (s.invalidate 0 scopeSys).modQueue q fun k => { k with rptr := k.rptr + 1 }
      (s.applyRecord p q b).2
    else s
  | none => s

/-! ## Eligibility (R400) -/

/-- Is a unit done, or its counter claimed again? -/
def unitOver (s : State) (w : Nat × BitVec 16) : Bool :=
  (s.getCounter w.1).done || (s.getCounter w.1).gen != w.2

/-- Must the launch be cancelled without starting: CASCADE, and a waited counter completed cancelled or in error? The launch that
ORDER waits for is none (DESIGN CHOICE, log 82). -/
def doomed (s : State) (l : Launch) : Bool :=
  l.cascade && decide (l.nextTeam = 0) && l.waits.any fun w =>
    let k := s.getCounter w.1
    k.gen == w.2 && k.done && (k.error || k.cancelled)

/-- Is a launch eligible for placement? -/
def eligibleLaunch (s : State) (l : Launch) : Bool :=
  l.waits.all s.unitOver && (match l.after with
    | some w => s.unitOver w
    | none => true) && !s.doomed l

/-- Launches that CASCADE stops are cancelled (R400). -/
def cascade (s : State) : State :=
  s.launches.foldl (fun s e => match s.getLaunch? e.1 with
    | some l => if s.doomed l && !l.cancelled then s.cancelCtr l.ctr 4 else s
    | none => s) s

/-! ## Admission (R405, R406, R443) -/

end State

/-- What a team needs of a core: warps, rows at once, rows beyond the floors, scratchpad, barriers, the tag table. -/
structure Demand where
  warps : Nat
  rows : Nat
  size : Nat
  nbar : Nat
  tagT : Bool
  deriving DecidableEq, Repr

namespace State

/-- Does the team occupy its core's slots (R403, R405)? -/
def occupies (core : Nat) (t : Team) : Bool :=
  t.core == core && t.image.isNone && (t.status == .resident || t.draining)

/-- Teams that hold slots of a core. -/
def teamsOn (s : State) (core : Nat) : List Team := s.teams.vals.filter (occupies core)

/-- Scratchpad bytes of a core that are allocated: a team's until its crew has ended, or held words land (R230, R434). -/
def scratchUsed (s : State) (core : Nat) : Nat :=
  ((s.teams.vals.filter fun t => t.core == core && match t.image with
    | some i => !i.held.isEmpty && !i.late
    | none => true).map (·.size)).sum

/-- Warp slots of a core in use. -/
def slotsUsed (s : State) (core : Nat) : List Nat := (s.warps.keys.filter fun wid => coreOf wid == core)

/-- Free warp slots of a scheduler, as warp numbers. -/
def freeSlots (used : List Nat) (core sched : Nat) : List Nat :=
  ((List.range 16).map fun j => 64 * core + 16 * sched + j).filter fun wid => !used.contains wid

/-- The slot that a warp takes: of the scheduler with the most free slots, the lowest-numbered on a tie (R405). -/
def bindOne (used : List Nat) (core : Nat) : Option Nat :=
  let best := (List.range 4).foldl (fun b q =>
    if (freeSlots used core b).length < (freeSlots used core q).length then q else b) 0
  (freeSlots used core best).head?

/-- Slots for n warps, bound in turn. -/
def bindWarps (core : Nat) : Nat → List Nat → List Nat
  | 0, _ => []
  | n + 1, used => match bindOne used core with
    | some wid => wid :: bindWarps core n (wid :: used)
    | none => []

/-- The lowest free team slot of a core (R428). -/
def freeTeamSlot (s : State) (core : Nat) : Option Nat :=
  (List.range 16).find? fun k => !(s.teamsOn core).any fun t => t.slot == k

/-- Can the core admit the team (R405)? -/
def admits (s : State) (core : Nat) (d : Demand) : Bool :=
  let ts := s.teamsOn core
  (s.freeTeamSlot core).isSome && decide ((s.slotsUsed core).length + d.warps ≤ 64) &&
    decide (d.rows ≤ s.freeRows core) && decide (s.scratchUsed core + d.size ≤ scratchBytes) &&
    decide ((ts.map (·.nbar)).sum + d.nbar ≤ 32) && !(d.tagT && ts.any fun t => t.tag.isSome)

/-- Banks of a cluster that no crew holds (R311). -/
def freeBanks (s : State) (cl : Nat) : List Nat :=
  (List.range 4).filter fun b => !s.crews.any fun c => c.cluster == cl && c.banks.contains b

/-- May the dispatcher use a core for a team of a partition: its own, and not closed but for a crew that is bound to the
cluster (R404, R462)? -/
def mayUse (s : State) (p core : Nat) (bound : Bool) : Bool :=
  (s.getPart p).holdsCore core && (bound || !(s.getCluster (clusterOf core)).req) &&
    !(s.getCluster (clusterOf core)).gate

/-- The crew record of a launch and crew number. -/
def crewRec (s : State) (l crew : Nat) : Option Crew := s.crews.find? fun k => k.launch == l && k.crew == crew

/-- Are the banks that a crew needs at hand on a cluster (R311, R440)? -/
def banksAt (s : State) (k : Option Crew) (cl nbank : Nat) : Bool :=
  match k with
  | some c => !c.banks.isEmpty || decide (nbank ≤ (s.freeBanks cl).length)
  | none => decide (nbank ≤ (s.freeBanks cl).length)

/-- What a team of a launch needs. -/
def launchDemand (l : Launch) : Demand :=
  { warps := warpsFor l.wide64 l.lanes, rows := l.floor * warpsFor l.wide64 l.lanes, size := l.scratch,
    nbar := l.nbar, tagT := l.tagT }

/-- May the next team of launch `key` start on a core (R405, R406)? -/
def mayStart (s : State) (key core : Nat) : Bool :=
  match s.getLaunch? key with
  | none => false
  | some l =>
    let crew := s.crewRec key (l.nextTeam / l.tpc)
    decide (l.nextTeam < l.ncrew * l.tpc) && s.mayUse l.part core crew.isSome &&
      crew.all (fun k => k.cluster == clusterOf core) && s.banksAt crew (clusterOf core) l.nbank &&
      (match pinOf l.qpin (l.nextTeam % l.tpc) with
        | some q => quarterOf core == q
        | none => true) &&
      s.admits core (launchDemand l)

/-! ## The start of a team (R393, R407) -/

/-- Warp k of a team, in slot `wid`, as R60 and R98 start it. -/
def startWarp (s : State) (team k : Nat) (l : Launch) (wid : Nat) : Warp :=
  let wd := if l.wide64 then 64 else 32
  let n := min wd (l.lanes - wd * k)
  let slices := (List.range 16).filter fun j => decide (4 * j < n)
  { Warp.init with
    team, index := k, wide64 := l.wide64, nlanes := n, b := [(0, l.args)],
    gangs := [(0, { Gang.launch (sliceSet slices) l.entry with nextAt := s.nowOf wid, since := s.ageClock wid })],
    slices := slices.map fun j => (j, ⟨(lowLanes n).extractLsb' (4 * j) 4, []⟩),
    wstart := s.gtime, floor := l.floor, borrow := l.borrow }

/-- The crew's first member gives it its cluster and its banks, zeroed (R311, R406). -/
def startCrew (s : State) (key crew core : Nat) (l : Launch) : State :=
  if (s.crewRec key crew).isSome then s
  else
    let cl := clusterOf core
    let banks := (s.freeBanks cl).take l.nbank
    let s := banks.foldl (fun s b => (List.range 4).foldl (fun s q => s.setSlice cl b q ⟨[], false⟩) s) s
    { s with crews := s.crews ++ [⟨key, crew, cl, banks⟩] }

/-- The team record at its start (R230, R240, R293, R300, R393). -/
def startRecord (s : State) (key core : Nat) (l : Launch) (wids : List Nat) (logCore : Nat) : Team :=
  { launch := key, index := l.nextTeam, crew := l.nextTeam / l.tpc, rank := l.nextTeam % l.tpc, part := l.part,
    nlanes := l.lanes, wide64 := l.wide64, nwarps := wids.length, status := .resident, core,
    slot := (s.freeTeamSlot core).getD 0, quarter := quarterOf core, wids, logCore, age := s.fresh,
    size := l.scratch, sp := [], spPoison := [], marks := [], written := [], owed := [], nbar := l.nbar,
    bars := (List.range l.nbar).map fun k => (k, ⟨wids.length, 0, 0, 0⟩), guards := [], errWord := 0,
    tagT := l.tagT, tag := if l.tagT then some TagTable.init else none, nbank := l.nbank, req := none, target := 0,
    placedAt := s.gtime, blocked := none, arrived := [], counted := false, hostHeld := false, region := none, image := none,
    draining := false }

/-- A warp that starts on a core stopped by SNAP stands still there (R130). -/
def snapWarp (s : State) (core wid : Nat) : State := if (s.getCore core).snap then s.freezeWarp wid else s

/-- THE START OF A TEAM: the next team of launch `key` starts on a core that admits it, as an acquire at PKG (R283,
R407), and the words of commands that wait for it are marked. A clean copy of host or peer memory stays (log 78); a core counts
for the launch when a team first starts there, not when one is restored there (log 83): both DESIGN CHOICE. -/
def startTeam (s : State) (key core : Nat) : State :=
  match s.getLaunch? key with
  | none => s
  | some l =>
    let s := s.startCrew key (l.nextTeam / l.tpc) core l
    let cores := if l.cores.contains core then l.cores else l.cores ++ [core]
    let wids := bindWarps core (warpsFor l.wide64 l.lanes) (s.slotsUsed core)
    let team := s.fresh
    let s := (s.setTeam team (s.startRecord key core l wids (cores.idxOf core))).setLaunch key
      { l with nextTeam := l.nextTeam + 1, cores }
    let s := { s with fresh := s.fresh + 1 }
    let s := wids.zipIdx.foldl (fun s x => (s.setWarp x.1 (s.startWarp team x.2 l x.1)).snapWarp core x.1) s
    ((s.invalidate (dieOfCore core) scopePkg).markLate team).markLateDrains team

end State

/-! ## Events of the dispatcher -/

/-- LAUNCH (R396): the next record of a queue is a LAUNCH, or one of no KIND, which is refused. -/
def execLaunch (q : Nat) (s : State) : Answer := .next (s.serveQueue q fun k => k == 0 || decide (2 < k))

/-- OPEN (R396). -/
def execOpenCtr (q : Nat) (s : State) : Answer := .next (s.serveQueue q (· == 1))

/-- SEAL (R396). -/
def execSeal (q : Nat) (s : State) : Answer := .next (s.serveQueue q (· == 2))

/-- CANCEL_TIMEOUT (R403): 200 µs after the request the team ends where it stands. -/
def execCancelTimeout (team : Nat) (s : State) : Answer :=
  .next (match s.getTeam? team with
    | some t => match t.req with
      | some (.cancel, since) =>
        if t.status == .resident && decide (since + 200000 ≤ s.gtime) then s.stopTeam team else s
      | _ => s
    | none => s)

end Sys2Proof.Machine
end

