-- ==== Sys2Proof/Machine/Grid.lean ====
section
/-! DEFINITION. Grid barriers, and the instructions by which a warp speaks to the dispatcher: GBAR, GBARA, GBARW, CCWAIT,
CNCL and LNCH (spec/17 R412-R414; spec/18). -/

namespace Sys2Proof.Machine

namespace State

/-- GEN of the grid barrier of the current warp's launch (R415). -/
def gridGen (s : State) : Word :=
  match s.team? with
  | some t => match s.getLaunch? t.launch with
    | some l => l.ggen
    | none => 0
  | none => 0

/-- Is the current warp's arrival for GEN already counted (R416)? -/
def gridCounted (s : State) : Bool := (s.team?.map fun t => t.arrived.contains s.w.index).getD false

/-- The current warp arrives at the grid barrier, once its release at PKG has completed (R416, R418). -/
def gridArrive (s : State) : State :=
  let s := s.release s.cur.wid scopePkg
  (s.modTeam s.w.team fun t => { t with arrived := t.arrived ++ [s.w.index] }).teamArrive s.w.team

/-- An instruction issues that waits for generation g, or returns at once as an acquire at PKG (R421). -/
def gridWait (s : State) (h : Hdr) (g : Word) (x : Wait) : State :=
  if passed s.gridGen g then ((s.acquire s.cur.wid scopePkg).debitW 1).retire h else s.issueWait h x

/-- The wait for generation g ends, as an acquire at PKG, or goes on; the gang issues 3 cycles later (R423). -/
def gridOver (s : State) (g : Word) (x : Wait) : State :=
  if passed s.gridGen g then (s.acquire s.cur.wid scopePkg).endWait 3 else s.waitOn x

/-- The wait of R416 begins when the instruction issues, or goes on. -/
def waitAgain (s : State) (h : Hdr) : State :=
  match s.gang.wait with
  | some (.again _) => s.waitOn (.again s.gridGen)
  | _ => s.issueWait h (.again s.gridGen)

end State

/-- GBAR (R421): it arrives, after the wait of R416 if it must, and waits for the generation that it found. -/
def execGbar (h : Hdr) (s : State) : Answer :=
  .next (
    if s.w.hm then s.stopWith (s.trapAct cPERM)
    else match s.gang.wait with
      | some (.gbar g) => s.gridOver g (.gbar g)
      | some (.again _) =>
        if s.gridCounted then s.waitAgain h else s.gridArrive.gridOver s.gridGen (.gbar s.gridGen)
      | _ =>
        if s.gridCounted then s.waitAgain h
        else (s.gridArrive.gridWait h s.gridGen (.gbar s.gridGen)).notBefore 3)

/-- GBARA (R421): it arrives, after the wait of R416 if it must. -/
def execGbara (h : Hdr) (d : BitVec 6) (s : State) : Answer :=
  .next (
    let rs (s : State) : List Res := [s.res d.toNat (.u s.gridGen false)]
    if s.w.hm then s.stopWith (s.trapAct cPERM)
    else if s.gridCounted then s.waitAgain h
    else match s.gang.wait with
      | some (.again _) => s.endWith none 3 (rs s) s.gridArrive
      | _ => s.effStep h (.late false) 1 [] fun s => .ok (rs s, s.gridArrive))

/-- GBARW (R421): the generation is read when it issues, not while it waits. -/
def execGbarw (h : Hdr) (a : BitVec 6) (s : State) : Answer :=
  .next (
    if s.w.hm then s.stopWith (s.trapAct cPERM)
    else match s.gang.wait with
      | some (.gbarw g) => s.gridOver g (.gbarw g)
      | _ => match s.rdU a.toNat with
        | .error e => s.stopWith e
        | .ok g => s.gridWait h g (.gbarw g))

namespace State

/-- The counter and GEN that register n names: SHAPE, POISON, then PERM (R413, R414). -/
def counterArg (s : State) (n : Nat) : Except Stop (Nat × BitVec 16) :=
  match s.rdU n with
  | .error e => .error e
  | .ok v =>
    let c := (v.extractLsb' 0 10).toNat
    if v.extractLsb' 10 6 ≠ 0 ∨ !s.grantedCtr (s.partOf s.cur.wid) c then .error (s.trapAct cPERM)
    else .ok (c, v.extractLsb' 16 16)

/-- The outcome of a unit that is over (R413). -/
def unitOutcome (s : State) (c : Nat) (gen : BitVec 16) : Word :=
  let k := s.getCounter c
  if k.gen != gen then 8 else BitVec.ofNat 32 (4 * k.error.toNat + 2 * k.cancelled.toNat + 1)

end State

/-- CCWAIT (R413): it waits for the counter and GEN that it read when it issued. -/
def execCcwait (h : Hdr) (d a : BitVec 6) (s : State) : Answer :=
  .next (
    let rs (s : State) (c : Nat) (gen : BitVec 16) : List Res := [s.res d.toNat (.u (s.unitOutcome c gen) false)]
    match s.gang.wait with
    | some (.counter c gen) =>
      if s.unitOver (c, gen) then s.endWith (some 1) 1 (rs s c gen) (s.acquire s.cur.wid State.scopeSys)
      else s.waitOn (.counter c gen)
    | _ => match s.counterArg a.toNat with
      | .error e => s.stopWith e
      | .ok (c, gen) =>
        if s.unitOver (c, gen) then
          s.effStep h (.sched 1) 1 [] fun s => .ok (rs s c gen, s.acquire s.cur.wid State.scopeSys)
        else s.issueWait h (.counter c gen))

/-- CNCL (R414). -/
def execCncl (h : Hdr) (a : BitVec 6) (s : State) : Answer :=
  .next (s.plainStep h fun s => match s.counterArg a.toNat with
    | .error e => .error e
    | .ok (c, gen) => .ok (s.cancelUnit c gen))

namespace State

/-- Two uniform registers and a third: SHAPE of all, then POISON of all (R412). -/
def lnchArgs (s : State) (a b : Nat) : Except Stop (DWord × Word) :=
  match s.uniform (s.rd a), s.uniform (s.rd (a + 1)), s.uniform (s.rd b) with
  | .ok lo, .ok hi, .ok q =>
    if (s.rd a).poison0 || (s.rd (a + 1)).poison0 || (s.rd b).poison0 then .error (poisonStop s.act 0)
    else .ok (hi ++ lo, q)
  | _, _, _ => .error (s.trapAct cSHAPE)

/-- The 128 bytes of a record, read at PKG after a release at PKG (R412). -/
def readRecord (s : State) (r : DWord) : Except Stop (List Byte × State) :=
  match s.translate (orderCore s.cur.wid) (s.partOf s.cur.wid) .read r with
  | .error c => .error (.sys c r s.act)
  | .ok pa =>
    let s := s.release s.cur.wid scopePkg
    let x := s.loadHome s.cur.wid pa 64
    let y := x.2.2.loadHome s.cur.wid (pa + 64) 64
    .ok (x.1 ++ y.1, y.2.2)

end State

/-- LNCH (R412): nothing of the warp issues before its result, which its next instruction sees. -/
def execLnch (h : Hdr) (d a b : BitVec 6) (s : State) : Answer :=
  .next (s.effStep h (.sched 1) 1 [] fun s => match s.lnchArgs a.toNat b.toNat with
    | .error e => .error e
    | .ok (r, v) =>
      let p := s.partOf s.cur.wid
      let q := (v.extractLsb' 0 12).toNat
      if r.toNat % 128 ≠ 0 ∨ v.extractLsb' 12 20 ≠ 0 ∨ !(s.getPart p).holdsQueue q then .error (s.trapAct cPERM)
      else match s.readRecord r with
        | .error e => .error e
        | .ok (bytes, s) =>
          let x := s.applyRecord p q bytes
          let gen := (x.2.getCounter (recCtr bytes)).gen
          .ok ([s.res d.toNat (.u (gen ++ BitVec.ofNat 16 x.1) false)], x.2))

end Sys2Proof.Machine
end

