-- ==== Sys2Proof/Machine/Image.lean ====
section
/-! DEFINITION. The live table and the bytes of a save image (spec/19 R429, R437-R440). -/

namespace Sys2Proof.Machine

/-! ## Live entries (R429) -/

/-- An entry of a live table. -/
structure LiveEntry where
  wmask : BitVec 64
  pmask : BitVec 7
  tbmask : BitVec 32
  /-- First offset and length of each used range. -/
  ranges : List (Nat × Nat)
  deriving DecidableEq, Repr

/-- The entry that 80 bytes hold; none when it is malformed for an allocation of `size` bytes and `nbar` barriers. -/
def parseLive (b : List Byte) (size nbar : Nat) : Option LiveEntry :=
  let n := recBits b 8 8 4
  let words := (List.range n).map fun j => fieldAt b (0x10 + 8 * j) 8
  let ranges := words.map fun w => (w % 2 ^ 21, w / 2 ^ 32 % 2 ^ 22)
  let tb := fieldAt b 0x0C 4
  if recBits b 8 12 20 ≠ 0 ∨ recBits b 8 7 1 ≠ 0 ∨ 8 < n ∨
      words.any (fun w => w / 2 ^ 54 != 0 || w / 2 ^ 21 % 2 ^ 11 != 0) ∨
      ranges.any (fun r => decide (size < r.1 + r.2)) ∨ 2 ^ nbar ≤ tb then none
  else some { wmask := BitVec.ofNat 64 (fieldAt b 0 8), pmask := BitVec.ofNat 7 (recBits b 8 0 7),
              tbmask := BitVec.ofNat 32 tb, ranges }

/-! ## Coded data (R440) -/

/-- Bytes filled with zeros to a length. -/
def padTo (n : Nat) (b : List Byte) : List Byte := b ++ List.replicate (n - b.length) 0

/-- A length rounded up to 8. -/
def round8 (n : Nat) : Nat := (n + 7) / 8 * 8

/-- The tag of a chunk after the word `prev`. -/
def chunkTag (prev : Word) (ws : List Word) : Nat :=
  if ws.all (· == 0) then 0 else if ws.all (· == prev) then 1 else 2

/-- The tags of the chunks of a group, and its literal bytes. -/
def codeGroup : Word → List (List Word) → List Nat × List Byte
  | _, [] => ([], [])
  | prev, c :: rest =>
    let r := codeGroup (c.getLastD 0) rest
    let t := chunkTag prev c
    (t :: r.1, (if t = 2 then c.flatMap wordBytes else []) ++ r.2)

/-- Tags in bits 2j+1:2j of a word. -/
def tagWord (ts : List Nat) : Nat := ts.zipIdx.foldl (fun n x => n + x.1 * 4 ^ x.2) 0

/-- `n` chunks of 64 bytes, word i given by `f`, coded in groups of 16 chunks. -/
def codeData (n : Nat) (f : Nat → Word) : List Byte :=
  (List.range ((n + 15) / 16)).flatMap fun g =>
    let chunks := (List.range (min 16 (n - 16 * g))).map fun j => (List.range 16).map fun i => f (256 * g + 16 * j + i)
    let r := codeGroup (if g = 0 then 0 else f (256 * g - 1)) chunks
    leBytes 4 (tagWord r.1) ++ r.2

/-- The bytes of an image that are read with poison (R236): does one lie among n bytes of which the first stands where `left`
bytes of the image are left? -/
abbrev Spoiled := Nat → Nat → Bool

/-- The sixteen words of a literal chunk. -/
def literal (bad : Spoiled) (tagBad : Bool) (b : List Byte) : List Lane :=
  (bytesWords 16 b).zipIdx.map fun x => ⟨x.1, tagBad || bad (b.length - 4 * x.2) 4⟩

/-- The words of the chunks of a group whose tags are given, with poison where their bytes or their tag have it (R236), and the
bytes after it; none at tag 3. -/
def decodeGroup (bad : Spoiled) (tagBad : Bool) : Lane → List Nat → List Byte → Option (List Lane × List Byte)
  | _, [], b => some ([], b)
  | prev, t :: ts, b =>
    let c : Option (List Lane × List Byte) :=
      if t = 0 then some (List.replicate 16 ⟨0, tagBad⟩, b)
      else if t = 1 then some (List.replicate 16 ⟨prev.val, prev.poison || tagBad⟩, b)
      else if t = 2 then some (literal bad tagBad b, b.drop 64)
      else none
    match c with
    | none => none
    | some (ws, b) => match decodeGroup bad tagBad (ws.getLastD ⟨0, false⟩) ts b with
      | none => none
      | some (l, b) => some (ws ++ l, b)

/-- `n` groups of 16 chunks decoded, and the bytes after them. -/
def decodeGroups (bad : Spoiled) : Nat → Lane → List Byte → Option (List Lane × List Byte)
  | 0, _, b => some ([], b)
  | n + 1, prev, b =>
    let tags := (List.range 16).map fun j => leNat (b.take 4) / 4 ^ j % 4
    match decodeGroup bad (bad b.length 4) prev tags (b.drop 4) with
    | none => none
    | some (ws, b) => match decodeGroups bad n (ws.getLastD ⟨0, false⟩) b with
      | none => none
      | some (l, b) => some (ws ++ l, b)

/-- A granule read back: its number and its words with their poison. -/
structure Granule where
  num : Nat
  words : List Lane
  deriving DecidableEq, Repr

/-- `n` granule records read back; none at tag 3. -/
def readGranules (bad : Spoiled) : Nat → List Byte → Option (List Granule)
  | 0, _ => some []
  | n + 1, b =>
    let head := leNat (b.take 8)
    match decodeGroups bad 4 ⟨0, false⟩ (b.drop 8) with
    | none => none
    | some (ws, _) =>
      let rest := b.drop (8 + head / 2 ^ 32)
      let m := if head / 2 ^ 9 % 2 = 1 then rest.take 128 else []
      let spoilt (k : Nat) : Bool := bad b.length 8 || (m.getD (k / 8) 0).getLsbD (k % 8) ||
        (!m.isEmpty && bad (rest.length - k / 8) 1)
      let words := ws.zipIdx.map fun x => (⟨x.1.val, x.1.poison || spoilt x.2⟩ : Lane)
      (readGranules bad n (rest.drop m.length)).map (⟨head % 512, words⟩ :: ·)

/-- `n` bank slices read back, poisoned where a byte of theirs is read with poison; none at tag 3. -/
def readSlices (bad : Spoiled) : Nat → List Byte → Option (List BankSlice)
  | 0, _ => some []
  | n + 1, b =>
    match decodeGroups bad 16 ⟨0, false⟩ (b.drop 8) with
    | none => none
    | some (ws, rest) =>
      let words : SMap Word := (ws.zipIdx.filter fun x => x.1.val != 0).map fun x => (x.2, x.1.val)
      (readSlices bad n rest).map (⟨words, leNat (b.take 8) % 2 == 1 || bad b.length 8 || ws.any (·.poison)⟩ :: ·)

/-! ## Register records (R439) -/

/-- `VALUE:32 | ZERO:23 | POISON:1 | SHAPE:2 | NUM:6`. -/
def recHead (n shape : Nat) (p : Bool) (v : Word) : List Byte :=
  leBytes 8 (n + shape * 2 ^ 6 + p.toNat * 2 ^ 8 + v.toNat * 2 ^ 32)

/-- A register's record, in a warp of width `wd`. -/
def regRecord (wd n : Nat) (x : Shaped) : List Byte :=
  match x with
  | .u v p => recHead n 0 p v
  | .a b t p => recHead n 1 p b ++ padTo 8 (wordBytes t)
  | .v _ =>
    recHead n 2 false 0 ++ dwordBytes (LaneSet.ofList ((List.range wd).filter fun i => (x.lane i).poison)) ++
      codeData (wd / 16) fun i => (x.lane i).val

/-- `n` register records of a warp of width `wd` read back, with poison where a byte of theirs is read with it; none at tag 3
(R236, R439, R440). -/
def readRegs (bad : Spoiled) (wd : Nat) : Nat → List Byte → Option (List (Nat × Shaped))
  | 0, _ => some []
  | n + 1, b =>
    let k := leNat (b.take 1) % 64
    let p := leNat ((b.drop 1).take 1) % 2 == 1
    let v := BitVec.ofNat 32 (leNat ((b.drop 4).take 4))
    let next (x : Shaped) (b : List Byte) := (readRegs bad wd n b).map ((k, x) :: ·)
    match leNat (b.take 1) / 64 with
    | 0 => next (.u v (p || bad b.length 8)) (b.drop 8)
    | 1 => next (.a v (BitVec.ofNat 32 (leNat ((b.drop 8).take 4))) (p || bad b.length 16)) (b.drop 16)
    | _ =>
      let m := leNat ((b.drop 8).take 8)
      let c := b.drop 16
      match decodeGroup bad (bad b.length 20) ⟨0, false⟩ ((List.range (wd / 16)).map fun j => leNat (c.take 4) / 4 ^ j % 4)
          (c.drop 4) with
      | none => none
      | some (ws, rest) => next (.v (ws.zipIdx.map fun x => ⟨x.1.val, x.1.poison || m.testBit x.2⟩)) rest

/-! ## Warp sections (R438) -/

/-- Four loop records of 24 bytes. -/
def loopBytes (l : List LoopRec) : List Byte :=
  padTo 96 (l.flatMap fun r => padTo 24 (dwordBytes r.start ++ dwordBytes r.last ++ wordBytes r.count))

/-- How a gang stands, and the phase or generation it waits for. -/
def Gang.stand (g : Gang) : Stand × Nat :=
  match g.wait with
  | some (.ckpt n) => (.ckpt, n)
  | some (.bar _ p) => (.bar, p.toNat)
  | some (.gbar p) | some (.again p) => (.grid, p.toNat)
  | some (.tb _ _) | some (.gbarw _) | some (.counter _ _) | some (.eng _ _ _) => (.withdrawn, 0)
  | _ => (.stopped, 0)

def Stand.code : Stand → Nat
  | .ckpt => 0
  | .bar => 1
  | .grid => 2
  | .withdrawn => 3
  | .stopped => 4

/-- Word 0 of a control block: of several gangs the lowest entry gives the stand (log 13). -/
def standBytes (w : Warp) (whole : Bool) : List Byte :=
  let x : Stand × Nat := match w.gangs with
    | e :: _ => e.2.stand
    | [] => (.stopped, 0)
  leBytes 8 (w.index + w.hm.toNat * 2 ^ 6 + whole.toNat * 2 ^ 7 + x.1.code * 2 ^ 8 +
    (if x.1 = .ckpt then x.2 * 2 ^ 16 else x.2 * 2 ^ 32))

/-- The pending errors of a class: retired ones, then the outstanding operations' in class order. -/
def errBytes (w : Warp) (cls : Nat) : List Byte :=
  let entry (sub : BitVec 8) (place : Nat) (retired : Bool) (a : DWord) : List Byte :=
    leBytes 8 (sub.toNat + place * 2 ^ 8 + retired.toNat * 2 ^ 14 + a.toNat % 2 ^ 32 * 2 ^ 32)
  let old := (w.errs.filter fun e => e.cls == cls).map fun e => entry e.sub 0 true e.addr
  let new := (w.ops.filter fun o => o.cls == cls).zipIdx.filterMap fun x => x.1.err.map fun e => entry e.1 x.2 false e.2
  padTo 512 ((old ++ new).take 64).flatten

/-- The trap record, saved FMT and LOOPS, and the trap bank. -/
def trapBytes (w : Warp) : List Byte :=
  let t := w.trap
  padTo 512 (leBytes 1 t.cause.toNat ++ leBytes 1 t.sub.toNat ++ dwordBytes t.pc ++ wordBytes t.word ++
    leBytes 1 t.len.toNat ++ dwordBytes t.flanes ++ dwordBytes t.faddr ++ dwordBytes t.resume ++
    leBytes 1 t.gang.toNat ++ leBytes 1 t.fpxc.toNat ++ leBytes 1 t.engClass.toNat ++ leBytes 1 t.engLeft.toNat ++
    leBytes 3 t.savedFmt.toNat ++ loopBytes t.savedLoops ++
    (List.range 8).flatMap fun k => regRecord w.width k (w.tReg k))

/-- Entry e of the split table. -/
def gangBytes (w : Warp) (e : Nat) : List Byte :=
  padTo 128 (match w.gangs.find? e with
    | none => []
    | some g =>
      leBytes 2 g.slices.toNat ++ dwordBytes g.pc ++ leBytes 3 g.fmt.toNat ++ leBytes 1 g.inner.toNat ++
        leBytes 1 (match g.wait with
          | some (.regang _) => 1
          | _ => 0) ++ leBytes 1 1 ++ leBytes 1 g.loops.length ++ loopBytes g.loops)

/-- Record k of the join table. -/
def joinBytes (w : Warp) (k : Nat) : List Byte :=
  padTo 128 (match w.joins.find? k with
    | none => []
    | some r =>
      dwordBytes r.jpc ++ leBytes 2 r.members.toNat ++ leBytes 2 r.arrived.toNat ++ dwordBytes r.masks ++
        leBytes 3 r.fmt.toNat ++ leBytes 1 r.parent.toNat ++ leBytes 1 1 ++ leBytes 1 r.loops.length ++
        loopBytes r.loops)

/-- The mask and mask stack of slice j. -/
def sliceBytes (w : Warp) (j : Nat) : List Byte :=
  let x := w.slice j
  padTo 136 (padTo 8 (leBytes 1 x.mask.toNat ++ leBytes 1 x.stack.length) ++
    x.stack.flatMap fun d =>
      padTo 16 (leBytes 1 d.mask.toNat ++ leBytes 1 d.tag.toNat ++ leBytes 3 d.fmt.toNat ++ dwordBytes d.pc))

/-- p0-p6, and the byte that says which are V. -/
def predBytes (w : Warp) : List Byte :=
  padTo 64 ((List.range 7).flatMap fun k => dwordBytes (w.pReg k).mask) |>.set 56
    (BitVec.ofNat 8 ((List.range 7).foldl (fun n k => n + (w.pReg k).isV.toNat * 2 ^ k) 0))

/-- The section of a warp: its control block, then its register records. -/
def warpSection (w : Warp) (named : Option (BitVec 64)) : List Byte :=
  let ops (c : Nat) : Nat := (w.ops.filter fun o => o.cls == c).length
  let recs := (lanes64.filter fun k => named.all fun m => m.getLsbD k).map fun k => regRecord w.width k (w.wReg k)
  let b := standBytes w named.isNone ++ leBytes 8 (w.frozen.getD 0) ++ dwordBytes w.deadline ++ dwordBytes w.tvec ++
    leBytes 4 (w.part.toNat + w.role.toNat * 2 ^ 8 + w.tmask.toNat * 2 ^ 16 + w.timerPending.toNat * 2 ^ 24) ++
    leBytes 4 (ops 0 + ops 1 * 2 ^ 8 + ops 2 * 2 ^ 16 + ops 3 * 2 ^ 24) ++
    padTo 24 (wordBytes w.cfg ++ wordBytes w.sa ++ wordBytes w.sb) ++
    ((List.range 16).flatMap fun k => dwordBytes (w.bReg k)) ++ predBytes w ++ trapBytes w ++
    ((List.range 4).flatMap (errBytes w)) ++ ((List.range 16).flatMap (gangBytes w)) ++
    ((List.range 16).flatMap (joinBytes w)) ++ ((List.range 16).flatMap (sliceBytes w)) ++
    leBytes 4 recs.length ++ [0, 0, 0, 0] ++ recs.flatten
  padTo (round8 b.length) b

/-- The registers that the warp sections of an image give back, of warps of width `wd`; none at tag 3 (R439, R440). -/
def readWarps (bad : Spoiled) (wd : Nat) : List Warp → List Byte → Option (List (SMap Shaped))
  | [], _ => some []
  | _ :: ws, b =>
    let n := leNat ((b.drop 0x2380).take 4)
    match readRegs bad wd n (b.drop 0x2388) with
    | none => none
    | some l =>
      let used := round8 (0x2388 + (l.map fun e => (regRecord wd e.1 e.2).length).sum)
      (readWarps bad wd ws (b.drop used)).map ((l.foldl (fun (m : SMap Shaped) e => m.set e.1 e.2) []) :: ·)

/-! ## Team, scratchpad and bank sections (R437, R440) -/

/-- The team section. -/
def teamSection (t : Team) : List Byte :=
  let b := leBytes 4 t.size ++ leBytes 4 (t.nbar + t.tag.isSome.toNat * 2 ^ 6) ++ dwordBytes t.errWord ++
    ((List.range 8).flatMap fun g =>
      let x := t.guardSlot g
      if g = 0 then [0, 0]
      else leBytes 2 ((match x.state with
        | .unresolved => 0
        | .yes => 1
        | .no => 2) + x.gen.toNat * 2 ^ 8)) ++
    ((List.range 32).flatMap fun k =>
      let x := t.bar k
      padTo 16 (leBytes 2 x.exp ++ leBytes 2 x.arr ++ wordBytes x.phase ++ leBytes 1 x.pend)) ++
    (match t.tag with
      | none => []
      | some g => wordBytes g.geometry ++ wordBytes g.base ++ (List.range 2048).flatMap fun k =>
          match g.entries.find? k with
          | some e => wordBytes e.key ++ leBytes 4 (1 + e.use * 2 ^ 4)
          | none => List.replicate 8 0)
  padTo (round8 b.length) b

/-- A granule record of some words of a scratchpad; the others are coded as 0. -/
def granuleBytes (t : Team) (keep : Nat → Bool) (g : Nat) : List Byte :=
  let data := codeData 64 fun i => if keep (1024 * g + i) then t.spWord (1024 * g + i) else 0
  let bad := (List.range 1024).map fun i => keep (1024 * g + i) && t.spPoison.contains (1024 * g + i)
  leBytes 8 (g + (bad.any id).toNat * 2 ^ 9 + data.length * 2 ^ 32) ++ data ++
    (if bad.any id then (List.range 128).map fun k =>
      BitVec.ofNat 8 ((List.range 8).foldl (fun n i => n + (bad.getD (8 * k + i) false).toNat * 2 ^ i) 0)
    else [])

/-- A scratchpad section, or a late section: the words that `keep` names of some granules. -/
def scratchSection (t : Team) (keep : Nat → Bool) (gs : List Nat) : List Byte :=
  let b := leBytes 4 gs.length ++ [0, 0, 0, 0] ++ gs.flatMap (granuleBytes t keep)
  padTo (round8 b.length) b

/-- The bank section. -/
def bankSection (bs : List (Nat × List BankSlice)) : List Byte :=
  let b := bs.flatMap fun e => e.2.flatMap fun x =>
    leBytes 8 x.poison.toNat ++ codeData 256 fun i => x.words.get i 0
  padTo (round8 b.length) b

/-! ## The whole image (R437) -/

/-- Granules that hold some of a list of words. -/
def granulesOf (words : List Nat) : List Nat := words.foldl (fun l w => setInsert l (w / 1024)) []

/-- The image of a team that is out: its header and sections. FULL says that every warp was saved whole (DESIGN CHOICE,
log 13). -/
def imageBytes (t : Team) (ctr : Nat) (gen : BitVec 16) (i : Image) : List Byte :=
  let team := teamSection t
  let warps := (i.warps.zip i.saved).flatMap fun x => warpSection x.1 x.2
  let scratch := if i.granules.isEmpty then [] else scratchSection t (fun w => !i.held.contains w) i.granules
  let banks := bankSection i.banks
  let late := if i.late && !i.held.isEmpty then scratchSection t i.held.contains (granulesOf i.held) else []
  let o1 := 64 + team.length
  let o2 := o1 + warps.length
  let o3 := o2 + scratch.length
  let o4 := o3 + banks.length
  let off (n o : Nat) : List Byte := leBytes 4 (if n = 0 then 0 else o)
  padTo 64 (leBytes 4 (1 + i.warps.length * 2 ^ 8 + (i.saved.all (·.isNone)).toNat * 2 ^ 16 +
      (i.saved.any (·.isNone)).toNat * 2 ^ 17 +
      (!i.banks.isEmpty).toNat * 2 ^ 18) ++
    leBytes 4 t.index ++ leBytes 4 (ctr + gen.toNat * 2 ^ 16) ++ leBytes 4 (o4 + late.length) ++
    off team.length 64 ++ off warps.length o1 ++ off scratch.length o2 ++ off banks.length o3 ++ off late.length o4) ++
  team ++ warps ++ scratch ++ banks ++ late

/-- The most bytes that a full image of a team can take (R427). -/
def fullImage (t : Team) : Nat :=
  let coded (chunks : Nat) : Nat := 64 * chunks + 4 * ((chunks + 15) / 16)
  let scratch := 8 + t.size / 4096 * (8 + coded 64 + 128)
  64 + 544 + (if t.tag.isSome then 8 + 8 * 2048 else 0) + t.nwarps * (0x2380 + 8 + 64 * (16 + coded 4 + 4)) +
    2 * round8 scratch + t.nbank * 4 * (8 + coded 256)

end Sys2Proof.Machine
end

