-- ==== Sys2Proof/Machine/Preempt.lean ====
section
/-! DEFINITION. Requests to give way, checkpoints, saves and restores (spec/19), and the order in which the dispatcher
places teams (spec/17 R404-R408; spec/18 R425, R426). -/

namespace Sys2Proof.Machine

/-- The number of a request (R427). -/
def ReqKind.code : ReqKind → Nat
  | .priority => 1
  | .slice => 2
  | .progress => 3
  | .migrate => 4
  | .cancel => 5
  | .host => 6
  | .yield => 7

/-- The kind pending on a team, 0 for none. -/
def Team.reqCode (t : Team) : Nat := (t.req.map fun r => r.1.code).getD 0

namespace State

/-! ## The save pool (R427; log 13) -/

/-- Regions of a partition's save pool in use. -/
def poolUsed (s : State) (p : Nat) : List (Nat × Nat) :=
  (s.teams.vals.filter fun t => t.part == p).filterMap (·.region)

/-- Where n bytes of memory fit in the save pool of a partition. -/
def poolFind (s : State) (p n : Nat) : Option Nat :=
  let b := s.getPart p
  let used := s.poolUsed p
  (b.saveBase.toNat :: used.map fun r => r.1 + r.2).find? fun a =>
    decide (a + n ≤ b.saveBase.toNat + b.saveSize.toNat) && Config.backed a n &&
      used.all fun r => decide (a + n ≤ r.1) || decide (r.1 + r.2 ≤ a)

/-- A request before which the dispatcher reserves space for the full image; it is not made without (R427). -/
def requestSpace (s : State) (team : Nat) (k : ReqKind) : State :=
  match s.getTeam? team with
  | none => s
  | some t =>
    if t.region.isSome then s.request team k
    else
      let n := (fullImage t + 7) / 8 * 8
      match s.poolFind t.part n with
      | none => s
      | some a => (s.modTeam team fun t => { t with region := some (a, n) }).request team k

/-! ## Teams that are out (R404, R426, R443) -/

/-- Could the wait of a gang end (R426)? -/
def waitOver (s : State) (l : Launch) (g : Gang) : Bool :=
  match g.wait with
  | some (.gbar p) | some (.again p) | some (.gbarw p) => passed l.ggen p
  | some (.counter c gen) => s.unitOver (c, gen)
  | _ => true

/-- Is a team that is out ready to run again (R426, R427)? -/
def readyOut (s : State) (t : Team) : Bool :=
  t.status == .out && !t.hostHeld && match t.image, s.getLaunch? t.launch with
    | some i, some l => i.kind != .progress || i.warps.all fun w => w.gangs.all fun e => s.waitOver l e.2
    | _, _ => false

/-- What a team that is out needs of a core (R192, R443). -/
def restoreDemand (t : Team) (i : Image) : Demand :=
  { warps := t.nwarps,
    rows := (((i.warps.zip i.borrowed).filter fun x => !x.1.ended).map fun x => x.1.floor + x.2).sum,
    size := t.size, nbar := t.nbar, tagT := t.tag.isSome }

/-- Does another member of the crew hold something of the crew's cluster (R275)? -/
def crewHeld (s : State) (team : Nat) (t : Team) : Bool :=
  s.teams.any fun e => e.1 != team && e.2.launch == t.launch && e.2.crew == t.crew &&
    (e.2.status == .resident || (e.2.status == .ended && e.2.image.isNone))

/-- May a team that is out be restored on a core (R275, R405, R443, R462)? -/
def mayRestore (s : State) (team core : Nat) : Bool :=
  match s.getTeam? team with
  | none => false
  | some t => match t.image with
    | none => false
    | some i =>
      let k := s.crewRec t.launch t.crew
      let there := k.any fun c => c.cluster == clusterOf core
      (!s.crewHeld team t || there) && s.mayUse t.part core (there && s.crewHeld team t) &&
        s.banksAt k (clusterOf core) t.nbank && s.admits core (restoreDemand t i)

/-! ## The order of placement (R404) -/

/-- What a launch offers for placement: the ready team of lowest index, or else its next team if it is eligible. -/
def offerOf (s : State) (key : Nat) (l : Launch) : Option (Option Nat) :=
  let ready := (s.teamsOf key).filter fun e => s.readyOut e.2
  match ready with
  | e :: rest => some (some (rest.foldl (fun b x => if x.2.index < b.2.index then x else b) e).1)
  | [] => if l.nextTeam < l.ncrew * l.tpc && s.eligibleLaunch l then some none else none

/-- May a core take what launch `key` offers? -/
def takes (s : State) (key : Nat) (o : Option Nat) (core : Nat) : Bool :=
  match o with
  | some team => s.mayRestore team core
  | none => s.mayStart key core

/-- Can some core take it? -/
def placeable (s : State) (key : Nat) (o : Option Nat) : Bool := (List.range 768).any (s.takes key o)

/-- Higher priority first, then the partition whose turn it is; launches stand in the order they were applied. -/
def launchBefore (s : State) (a b : Launch) : Bool :=
  let turn (l : Launch) : Nat := (l.part + 31 - s.host.served) % 32
  decide (b.prio < a.prio) || (a.prio == b.prio && decide (turn a < turn b))

/-- The first of launches by the keys of R404. -/
def firstBy (s : State) : List (Nat × Launch) → Option (Nat × Launch)
  | [] => none
  | x :: rest => match firstBy s rest with
    | none => some x
    | some y => if s.launchBefore y.2 x.2 then some y else some x

/-- The launch whose offer is placed next, with the offer (R404): one that cannot be placed is passed over. -/
def nextPlacement (s : State) : Option (Nat × Option Nat) :=
  let able := s.launches.filter fun e => match s.offerOf e.1 e.2 with
    | some o => s.placeable e.1 o
    | none => false
  (s.firstBy able).bind fun e => (s.offerOf e.1 e.2).map fun o => (e.1, o)

/-- The partition of a launch has been served. -/
def served (s : State) (key : Nat) : State :=
  match s.getLaunch? key with
  | some l => { s with host := { s.host with served := l.part } }
  | none => s

/-! ## Requests of the dispatcher (R408, R425) -/

/-- The machine as it would be once every team with a pending request had left its core: the last member of a crew to leave
frees its banks (R440). -/
def afterRequests (s : State) : State :=
  let going := (s.teams.filter fun e => e.2.status == .resident && e.2.req.isSome).map (·.1)
  let member (c : Crew) (gone : Bool) : Bool := s.teams.any fun e =>
    e.2.launch == c.launch && e.2.crew == c.crew && e.2.status == .resident && going.contains e.1 == gone
  { s with teams := s.teams.filter fun e => !going.contains e.1,
           warps := s.warps.filter fun e => !going.contains e.2.team,
           crews := s.crews.map fun c => if member c true && !member c false then { c with banks := [] } else c }

/-- Priority of a team. -/
def prioOf (s : State) (t : Team) : Nat := ((s.getLaunch? t.launch).map (·.prio)).getD 0

/-- Does a team of the partition of higher priority wait, which would not fit once the teams already asked had left
(R408)? -/
def waitsAbove (s : State) (p prio : Nat) : Bool :=
  let later := s.afterRequests
  s.launches.any fun e => e.2.part == p && decide (prio < e.2.prio) && match s.offerOf e.1 e.2 with
    | some o => !s.placeable e.1 o && !later.placeable e.1 o
    | none => false

/-- Does team a give way before team b: lower priority, then the younger launch? -/
def yieldsFirst (s : State) (a b : Team) : Bool :=
  decide (s.prioOf a < s.prioOf b) || (s.prioOf a == s.prioOf b && decide (b.launch < a.launch))

/-- Resident teams of a partition with no request. -/
def unasked (s : State) (p : Nat) : List (Nat × Team) :=
  s.teams.filter fun e => e.2.part == p && e.2.status == .resident && e.2.req.isNone

/-- Has a launch of the partition that `ok` takes a team that is not placed (R408, R446)? -/
def hasUnplaced (s : State) (p : Nat) (ok : Launch → Bool) : Bool :=
  s.launches.any fun e => e.2.part == p && ok e.2 && !e.2.cancelled && decide (e.2.nextTeam < e.2.ncrew * e.2.tpc)

/-- Is every live gang of every warp at a grid wait that goes on (R425)? -/
def blockedNow (s : State) (t : Team) : Bool :=
  let ws := (t.wids.map s.getWarp).filter fun w => !w.ended
  !ws.isEmpty && ws.all fun w => w.gangs.all fun e => !e.2.met && match e.2.wait with
    | some (.gbar _) | some (.again _) | some (.gbarw _) | some (.counter _ _) => true
    | _ => false

end State

/-- PRIORITY (R408): the request is made of the team that gives way first. -/
def execPriorityReq (team : Nat) (s : State) : Answer :=
  .next (match s.getTeam? team with
    | none => s
    | some t =>
      if t.status == .resident && t.req.isNone && s.waitsAbove t.part (s.prioOf t) &&
          (s.unasked t.part).all fun e => e.1 == team || !s.yieldsFirst e.2 t then s.requestSpace team .priority
      else s)

/-- SLICE (R408): the request is made of the team placed first of those that have run 2 ms. -/
def execSliceReq (team : Nat) (s : State) : Answer :=
  .next (match s.getTeam? team with
    | none => s
    | some t =>
      if t.status == .resident && t.req.isNone && decide (t.placedAt + 2000000 ≤ s.gtime) &&
          s.hasUnplaced t.part (fun l => l.prio == s.prioOf t && s.eligibleLaunch l) &&
          (s.unasked t.part).all fun e => s.prioOf e.2 != s.prioOf t || decide (t.placedAt ≤ e.2.placedAt) then
        s.requestSpace team .slice
      else s)

/-- PROGRESS (R425): the team has been blocked for 20 µs while its launch has a team that is not placed. -/
def execProgressReq (team : Nat) (s : State) : Answer :=
  .next (match s.getTeam? team with
    | none => s
    | some t => match t.blocked, s.getLaunch? t.launch with
      | some since, some l =>
        let more := decide (l.nextTeam < l.ncrew * l.tpc) || (s.teamsOf t.launch).any fun e => e.2.status == .out
        if t.status == .resident && decide (since + 20000 ≤ s.gtime) && more then s.requestSpace team .progress else s
      | _, _ => s)

/-! ## SVREQ (R428) -/

/-- Field SLOT of a write, and its TARGET. -/
def svSlot (v : Word) : BitVec 4 := v.extractLsb' 24 4

/-- The resident team in a team slot of a core. -/
def State.teamInSlot (s : State) (core slot : Nat) : Option (Nat × Team) :=
  List.find? (fun (e : Nat × Team) => e.2.core == core && e.2.slot == slot && e.2.status == .resident) s.teams

/-- GO: the MIGRATE request of the core has not been dropped, and the team it named has not been restored. -/
def State.svGo (s : State) (core : Nat) : Bool := (s.getCore core).svTeam.isSome

/-! ## CKPT and PREQ (R431, R446) -/

/-- CKPT (R431): with a request pending the gang parks, past this instruction. -/
def execCkpt (h : Hdr) (i : BitVec 16) (s : State) : Answer :=
  .next (
    let s' := (s.debitW 1).retire h
    if s.w.hm || ((s.team?.map fun t => t.reqCode).getD 0 == 0) then s'
    else s'.modGang fun g => { g with wait := some (.ckpt i.toNat) })

/-- The kind pending on the current team, as a result (R446). -/
def State.preqRes (s : State) (d : BitVec 6) : List Res :=
  [s.res d.toNat (.u (BitVec.ofNat 32 ((s.team?.map fun t => t.reqCode).getD 0)) false)]

/-- PREQ QUERY (R446). -/
def execPreqQuery (h : Hdr) (d : BitVec 6) (s : State) : Answer :=
  .next (s.regStep h (.sched 2) [] fun s => .ok (s.preqRes d))

/-- A YIELD request, when a team of the partition of no lower priority is unplaced, or swapped out and ready (R446). -/
def State.yieldRequest (s : State) : State :=
  match s.team? with
  | none => s
  | some t =>
    let work := s.hasUnplaced t.part (fun l => decide (s.prioOf t ≤ l.prio)) || s.teams.any fun e =>
      e.2.part == t.part && decide (s.prioOf t ≤ s.prioOf e.2) && s.readyOut e.2
    if t.req.isNone && work then s.requestSpace s.w.team .yield else s

/-- PREQ YIELD (R446). -/
def execPreqYield (h : Hdr) (d : BitVec 6) (s : State) : Answer :=
  .next (s.effStep h (.sched 2) 1 [] fun s =>
    let t := s.yieldRequest
    .ok (t.preqRes d, t))

/-! ## Full saves (R433) -/

/-- FULL_SAVE (R433): every warp of the team stops where it stands; row requests are withdrawn. -/
def execFullSave (team : Nat) (s : State) : Answer :=
  .next (match s.getTeam? team with
    | none => s
    | some t => match t.req with
      | some (k, since) =>
        if t.status == .resident && k != .cancel && decide (since + 200000 ≤ s.gtime) && !s.teamParked t then
          t.wids.foldl (fun s wid => s.modWarp wid fun w =>
            { w with halted := true, rowReq := none, granted := [], parked := none }) s
        else s
      | none => s)

/-! ## Saving (R432, R434, R435) -/

namespace State

/-- Pieces of 16 bytes from an address, as the save engine reads them for a partition; none when one cannot be read. -/
def readPieces (s : State) (p : Nat) (a : DWord) : Nat → Option (List Byte)
  | 0 => some []
  | n + 1 =>
    match s.translate outsideCores p .read a with
    | .error _ => none
    | .ok pa => (s.readPieces p (a + 16) n).map (s.homeRead pa 16 ++ ·)

/-- Entry n of the live table of a team's kernel (R429). -/
def liveEntry (s : State) (t : Team) (n : Nat) : Option LiveEntry :=
  match s.getLaunch? t.launch with
  | none => none
  | some l =>
    if l.live = 0 ∨ l.live.toNat % 16 ≠ 0 then none
    else match s.readPieces t.part l.live 1 with
      | none => none
      | some h =>
        if fieldAt h 0 4 ≤ n then none
        else (s.readPieces t.part (l.live + BitVec.ofNat 64 (16 + 80 * n)) 5).bind fun b => parseLive b t.size t.nbar

/-- The entries that a warp's gangs name; none when it is saved whole, as one of its gangs, or slices at a JOIN, stand anywhere
but at a CKPT (R432). -/
def namedBy (s : State) (t : Team) (w : Warp) : Option (List LiveEntry) :=
  if w.joins.any (fun e => e.2.arrived != 0) || !w.releases.isEmpty then none
  else w.gangs.foldr (fun e r => match e.2.wait, r with
    | some (.ckpt n), some l => (s.liveEntry t n).map (· :: l)
    | _, _ => none) (some [])

/-- What each warp of a parked team is saved by; a full save and a PROGRESS save keep every warp whole (R425, R433). -/
def savedBy (s : State) (t : Team) : List (Option (List LiveEntry)) :=
  let whole := !s.teamParked t || match t.req with
    | some (.progress, _) => true
    | _ => false
  t.wids.map fun wid => if whole then none else s.namedBy t (s.getWarp wid)

/-- The barriers that may take engine arrivals across the save; every one in a whole save (R434). -/
def tbUnion (by' : List (Option (List LiveEntry))) : BitVec 32 :=
  by'.foldl (fun m x => match x with
    | none => BitVec.allOnes 32
    | some l => l.foldl (fun m e => m ||| e.tbmask) m) 0

/-- Has an MX command whose USE names the team taken a pass without completing (R434)? -/
def inPass (s : State) (team : Nat) : Bool :=
  s.clusters.any fun k => k.2.table.any fun c => c.started && c.mxUse.any fun q => (s.quarterTeam c q).any fun e => e.1 == team

/-- May the save of a team go on (R434)? -/
def saveReady (s : State) (t : Team) (team : Nat) : Bool :=
  t.status == .resident && (match t.req with
    | some (k, _) => k != .cancel
    | none => false) &&
  (s.teamParked t || t.wids.all fun wid => (s.getWarp wid).halted) &&
  ((List.range t.nbar).all fun k => (tbUnion (s.savedBy t)).getLsbD k || (t.bar k).pend == 0) && !s.inPass team

end State

/-- The warp of an image: what is not named is dropped, and nothing is in flight (R435). A restored warp counts its unmarked
instructions of R38 from 0 (DESIGN CHOICE, log 13: no rule keeps the count or names the restore). -/
def Warp.imaged (w : Warp) (by' : Option (List LiveEntry)) : Warp :=
  let w := { w with copies := [], rows := [], rowReq := none, granted := [], parked := none, halted := false,
                    count := 0, pend := [], storeQ := [],
                    gangs := w.gangs.map fun e => (e.1, { e.2 with opened := false }) }
  match by' with
  | none => w
  | some l =>
    let wm := l.foldl (fun m e => m ||| e.wmask) 0#64
    let pm := l.foldl (fun m e => m ||| e.pmask) 0#7
    { w with w := w.w.filter fun e => wm.getLsbD e.1, p := w.p.filter fun e => pm.getLsbD e.1 }

/-- Granules that are saved: those written that overlap a range of an entry, or all written ones, and not wholly pending (R435);
an empty range overlaps none. -/
def Team.savedGranules (t : Team) (by' : List (Option (List LiveEntry))) (held : List Nat) : List Nat :=
  let ranges := by'.flatMap fun x => (x.getD []).flatMap (·.ranges)
  let whole := by'.any (·.isNone)
  t.written.filter fun g =>
    (whole || ranges.any fun r => decide (0 < r.2 ∧ r.1 < 4096 * (g + 1) ∧ 4096 * g < r.1 + r.2)) &&
      !(List.range 1024).all fun i => held.contains (1024 * g + i)

namespace State

/-- The banks that the last member of a crew to leave takes along (R440). -/
def takeBanks (s : State) (team : Nat) (t : Team) : List (Nat × List BankSlice) × State :=
  match s.crewRec t.launch t.crew with
  | none => ([], s)
  | some k =>
    let others := s.teams.any fun e => e.1 != team && e.2.launch == t.launch && e.2.crew == t.crew &&
      e.2.status == .resident
    if others || k.banks.isEmpty then ([], s)
    else
      (k.banks.zipIdx.map fun x => (x.2, (List.range 4).map fun q => s.getSlice k.cluster x.1 q),
        { s with crews := s.crews.map fun c =>
            if c.launch = t.launch ∧ c.crew = t.crew then { c with banks := [] } else c })

/-- The save engine moves n bytes for a core: 1 for each 64 is taken off the allowance of its cluster as it works, at 64 bytes a
cycle (R460; log 13). -/
def debitSave (s : State) (core n : Nat) : State := s.engineWork (clusterOf core) ((n + 63) / 64) 1

/-- The image is written into the team's region of the save pool (R236, R437). -/
def writeImage (s : State) (team : Nat) : State :=
  match s.getTeam? team with
  | none => s
  | some t => match t.image, t.region, s.getLaunch? t.launch with
    | some i, some r, some l =>
      let b := imageBytes t l.ctr l.gen i
      (s.engineWrite r.1 b).debitSave t.core b.length
    | _, _, _ => s

/-- The late section is written, after the others (R441). -/
def writeLate (s : State) (team : Nat) : State :=
  match s.getTeam? team with
  | none => s
  | some t => match t.image, t.region, s.getLaunch? t.launch with
    | some i, some r, some l =>
      (s.engineWrite r.1 (imageBytes t l.ctr l.gen i)).debitSave t.core
        (scratchSection t i.held.contains (granulesOf i.held)).length
    | _, _, _ => s

/-- The save engine reads the rows of a warp: their banks wake, and the reads complete 20 cycles late when one was drowsy
(R190). -/
def readRows (s : State) (wid : Nat) : State :=
  let z := s.wakeBanks (coreOf wid) ((s.getWarp wid).rows.map (·.row))
  z.2.advanceTo wid (s.nowOf wid + z.1)

/-- SAVE (R434, R435): what was issued is finished and released, the image is made, and the core's resources freed. What is not
saved of the scratchpad is lost at the restore: the team's commands in flight still read it (R441; log 76). -/
def saveNow (s : State) (team : Nat) (t : Team) (kind : ReqKind) : State :=
  let by' := s.savedBy t
  let s := t.wids.foldl (fun s wid => (((s.finishResults wid).release wid scopePkg).readRows wid).freezeWarp wid) s
  match s.getTeam? team with
  | none => s
  | some t =>
    let held := (t.marks.map (·.1)).foldl setInsert []
    let gs := t.savedGranules by' held
    let ws := t.wids.map s.getWarp
    let cmds := sortBy (fun c : Cmd => c.id) (s.allCmds.filter (undecidedIn team))
    let s := s.mapCmds fun c => if undecidedIn team c then none else some c
    let b := s.takeBanks team t
    let image : Image :=
      { kind, warps := (ws.zip by').map fun x => x.1.imaged x.2,
        saved := by'.map fun x => x.map fun l => l.foldl (fun m e => m ||| e.wmask) 0#64, granules := gs, held,
        late := false, borrowed := ws.map Warp.bRows, cmds, banks := b.1 }
    let s := b.2.setTeam team
      { t with status := .out, image := some image, req := none, blocked := none, hostHeld := kind == .host,
               region := match t.region with
                 | some r => some r
                 | none => (s.poolFind t.part (round8 (fullImage t))).map fun a => (a, round8 (fullImage t)) }
    ({ s with warps := s.warps.filter fun e => !t.wids.contains e.1 }.switchedOut team t.part).writeImage team

/-- The words of P have all landed: they form the late section, and the held allocation is freed (R441). -/
def landLate (s : State) (team : Nat) : State :=
  match s.getTeam? team with
  | none => s
  | some t => match t.image with
    | none => s
    | some i =>
      if i.late || i.held.isEmpty || i.held.any t.pending then s
      else (s.setTeam team { t with image := some { i with late := true } }).writeLate team

/-! ## Restoring (R442-R445) -/

/-- Bytes of a team's image as they stand in the save pool. -/
def readImage (s : State) (t : Team) : Option (List Byte) := t.region.map fun r => s.homeRead r.1 r.2

/-- Those of them that are read with poison (R236). -/
def spoiltImage (s : State) (t : Team) : Spoiled := fun left n => match t.region with
  | none => false
  | some r =>
    let a := r.1 + r.2 - left
    s.poison.any fun l => decide (a < 64 * l + 64 ∧ 64 * l < a + n)

end State

/-- The granules that an image holds in the section whose offset stands at `at'`; none at tag 3 (R440). -/
def sectionGranules (bad : Spoiled) (b : List Byte) (at' : Nat) : Option (List Granule) :=
  let o := fieldAt b at' 4
  if o = 0 then some [] else readGranules bad (fieldAt b o 4) (b.drop (o + 8))

/-- The bank slices that an image holds; none at tag 3. -/
def sectionSlices (bad : Spoiled) (b : List Byte) (banks : Nat) : Option (List BankSlice) :=
  let o := fieldAt b 0x1C 4
  if o = 0 then some [] else readSlices bad (4 * banks) (b.drop o)

/-- The registers of the warps of an image as its warp sections hold them; none at tag 3 (R439, R440). -/
def sectionRegs (bad : Spoiled) (b : List Byte) (ws : List Warp) : Option (List (SMap Shaped)) :=
  let o := fieldAt b 0x14 4
  let wd := match ws with
    | w :: _ => w.width
    | [] => 0
  if o = 0 then some (ws.map fun (w : Warp) => w.w) else readWarps bad wd ws (b.drop o)

/-- Those words of a granule that `f` takes are written into a scratchpad. -/
def Team.putGranule (t : Team) (f : Nat → Bool) (g : Granule) : Team :=
  g.words.zipIdx.foldl (fun t x =>
    let w := 1024 * g.num + x.2
    if !f w || decide (t.size < 4 * w + 4) then t
    else { t.setSpPoison w x.1.poison with sp := cellsSet t.sp (4 * w) (wordBytes x.1.val) }) t

/-- The scratchpad of a restored team: zero, the granules of the image, then its late section, or else the held words that have
landed, while the others stay pending; then the crew-remote stores that wait for its new place (R442, R444). -/
def Team.refill (t : Team) (held : List Nat) (gs late : List Granule) : Team :=
  let landed (w : Nat) : Bool := held.contains w && !t.pending w
  let t := { t with sp := t.sp.filter fun c => landed (c.1 / 4), spPoison := t.spPoison.filter landed }
  let t := gs.foldl (fun t g => t.putGranule (fun w => !held.contains w) g) t
  let t := late.foldl (fun t g => t.putGranule held.contains g) t
  { t.owed.foldl (fun t x => t.spStore x.1 x.2) t with owed := [] }

/-- The words of a team that is out which a restore from some granules does not give back (R435, R444). -/
def Team.lost (t : Team) (i : Image) (gs : List Granule) : SMap Lane :=
  let gone (w : Nat) : Bool := !i.held.contains w && gs.all fun g => g.num != w / 1024
  ((((t.sp.map fun (c : Host.Cell) => c.1 / 4) ++ t.spPoison).foldl setInsert []).filter gone).map fun w => (w, ⟨t.spWord w, t.spPoison.contains w⟩)

/-- A command of a team with words that a restore loses, but for those that it lost before (R441; log 76). -/
def Cmd.keepAway (c : Cmd) (lost : SMap Lane) : Cmd :=
  { c with away := lost.foldl (fun m e => if (m.find? e.1).isSome then m else m.set e.1 e.2) c.away }

/-- A gang as it goes on from a moment after a restore: at BAR, grid waits and REGANG it waits again, elsewhere it issues
(R444). -/
def Gang.resumed (g : Gang) (at' : When) : Gang :=
  match g.wait with
  | some (.bar _ _) | some (.gbar _) | some (.again _) | some (.regang _) =>
    { g with met := false, nextAt := at'.cycle, exempt := at'.exempt, since := at'.age, boosted := false }
  | _ => g.moved g.pc at'

namespace State

/-- A crew that has no banks takes some on a cluster, with what an image of a member keeps of them (R440). -/
def giveBanks (s : State) (key crew cl : Nat) : State :=
  match s.getLaunch? key, s.crewRec key crew with
  | some l, some k =>
    if l.nbank = 0 ∨ !k.banks.isEmpty then s
    else
      let banks := (s.freeBanks cl).take l.nbank
      let kept := s.teams.vals.findSome? fun t =>
        if t.launch = key ∧ t.crew = crew then t.image.bind fun i => if i.banks.isEmpty then none else some (t, i.banks)
        else none
      let slice (j q : Nat) : BankSlice := match kept with
        | none => ⟨[], false⟩
        | some (t, bs) => match (s.readImage t).bind fun b => sectionSlices (s.spoiltImage t) b bs.length with
          | some (x :: xs) => (x :: xs).getD (4 * j + q) ⟨[], false⟩
          | _ => ((bs.getD j (0, [])).2).getD q ⟨[], false⟩
      let s := banks.zipIdx.foldl (fun s x =>
        (List.range 4).foldl (fun s q => s.setSlice cl x.1 q (slice x.2 q)) s) s
      let s := { s with crews := s.crews.map fun (c : Crew) =>
        if c.launch = key ∧ c.crew = crew then { c with banks, cluster := cl } else c }
      { s with teams := s.teams.map fun (e : Nat × Team) =>
          if e.2.launch = key ∧ e.2.crew = crew then
            (e.1, { e.2 with image := e.2.image.map fun i => { i with banks := [] } }) else e }
  | _, _ => s

/-- A command enters the reservation table of a cluster again, in acceptance order, once an entry is free (R321, R444). -/
def enterAgain (s : State) (cl : Nat) (c : Cmd) : State :=
  (s.modCluster cl fun x => { x with mxWait := insertCmd c x.mxWait }).fillTable cl 1

/-- The crew's cluster becomes another one, and the commands that wait for its members move there (log 32). -/
def moveCrew (s : State) (key crew cl : Nat) : State :=
  match s.crewRec key crew with
  | none => s
  | some k =>
    if k.cluster = cl then s
    else
      let mine (c : Cmd) : Bool := match s.getTeam? c.team with
        | some t => t.launch == key && t.crew == crew
        | none => false
      let old := s.getCluster k.cluster
      let there (c : Cmd) : Cmd := { c with
        since := s.nowIn cl - (s.nowIn k.cluster - c.since)
        completeAt := c.completeAt.map fun e => s.nowIn cl + (e - s.nowIn k.cluster) }
      let s := s.modCluster k.cluster fun x =>
        { x with table := x.table.filter fun c => !mine c, mxWait := x.mxWait.filter fun c => !mine c }
      let s := ((old.table ++ old.mxWait).filter mine).foldl (fun s c => s.enterAgain cl (there c)) s
      { s with crews := s.crews.map fun c => if c.launch = key ∧ c.crew = crew then { c with cluster := cl } else c }

/-- A withdrawn guarded command enters the queue of its class on the team's new core, in acceptance order, ahead of the later
commands there (R444); its wait for a pass counts from now. -/
def requeue (s : State) (c : Cmd) : State :=
  match c.kind with
  | .cpLoad _ | .cpStore _ | .cpFill _ | .kvg _ => s.modCore c.core fun k => { k with cpQ := insertCmd c k.cpQ }
  | .qst _ | .qexp _ | .vdec => s.modCore c.core fun k => { k with xfQ := insertCmd c k.xfQ }
  | .mxloop _ _ | .mxdrain _ _ | .mxlda _ | .mxzero _ =>
    s.enterAgain (clusterOf c.core) { c with since := s.nowIn (clusterOf c.core) }
  | .rpscan => s.modCore c.core fun k => { k with rpQ := insertCmd c k.rpQ }
  | .kvspl | .kvmap | .kvsd | .rpdone => s.modCore c.core fun k => { k with kvQ := insertCmd c k.kvQ }

/-- A warp of an image stands on a core again, with the rows of its V registers, whose banks wake (R190, R443, R445); it
discards its loop-buffer copies (R444). -/
def putWarp (s : State) (core wid : Nat) (w : Warp) : State :=
  let vs := (w.w.filter fun e => e.2.isV).map (·.1)
  let rows := pickRows (s.getCore core).awake vs.length (s.usedRows core)
  let z := s.wakeBanks core rows
  let s := z.2.setWarp wid w
  let at' := s.whenIn wid z.1
  let w := Warp.sync { w with rows := (vs.zip rows).map fun x => ⟨x.1, x.2, 0, false⟩, nextIssue := at'.cycle,
                              readyAt := at'.age, gangs := w.gangs.map fun e => (e.1, e.2.resumed at') } s.fresh
  let s := { s.setWarp wid w with fresh := s.fresh + 1 }
  if w.ended || (s.getCore core).snap then s else s.thawWarp wid

/-- RESTORE (R444) of a team on a core that may take it. An image that holds tag 3 is refused, and the team ends with
error code 0x23 (R440). -/
def restoreNow (s : State) (team core : Nat) (t : Team) (i : Image) : State :=
  let bytes := s.readImage t
  let spoilt := s.spoiltImage t
  let gs := match bytes with
    | some b => sectionGranules spoilt b 0x18
    | none => some (i.granules.map fun g =>
        ⟨g, (List.range 1024).map fun k => ⟨t.spWord (1024 * g + k), t.spPoison.contains (1024 * g + k)⟩⟩)
  let late := match bytes with
    | some b => sectionGranules spoilt b 0x20
    | none => some []
  let regs := match bytes with
    | some b => sectionRegs spoilt b i.warps
    | none => some (i.warps.map fun (w : Warp) => w.w)
  match gs, late, regs with
  | none, _, _ | _, none, _ | _, _, none => (s.teamError team 0 0 0x23 0).stopTeam team
  | some gs, some late, some regs =>
    if bytes.any fun b => (sectionSlices spoilt b i.banks.length).isNone then (s.teamError team 0 0 0x23 0).stopTeam team
    else
      let s := (s.moveCrew t.launch t.crew (clusterOf core)).giveBanks t.launch t.crew (clusterOf core)
      let wids := bindWarps core t.nwarps (s.slotsUsed core)
      let slot := (s.freeTeamSlot core).getD 0
      let s := s.setTeam team
        { t.refill i.held gs late with
          status := .resident, core, slot, wids, image := none, region := none, req := none, placedAt := s.gtime,
          blocked := none, hostHeld := false }
      let s := (wids.zip (i.warps.zip regs)).foldl (fun s x => s.putWarp core x.1 { x.2.1 with w := x.2.2 }) s
      let s := (s.svDone team).debitSave core ((bytes.map fun b => fieldAt b 0x0C 4).getD 0)
      let lost := t.lost i gs
      let s := s.mapCmds fun c => some (if c.team = team ∧ c.cls ≠ 1 then c.keepAway lost else c)
      let s := i.cmds.foldl (fun s c =>
        s.requeue { c.keepAway lost with core, die := dieOfCore core, wid := wids.getD c.warp 0 }) s
      s.invalidate (dieOfCore core) scopePkg

/-- SAVE, and for MIGRATE the restore on its target at once, or FAIL (R427, R428). -/
def saveTeam (s : State) (team : Nat) : State :=
  match s.getTeam? team with
  | none => s
  | some t => match t.req with
    | none => s
    | some (kind, _) =>
      if !s.saveReady t team then s
      else
        let s := s.saveNow team t kind
        if kind != .migrate then s
        else match s.getTeam? team with
          | some u => match u.image with
            | some i =>
              if s.mayRestore team t.target then s.restoreNow team t.target u i
              else s.modCore t.core fun k => { k with svFail := true }
            | none => s
          | none => s

end State

/-- SAVE (R434). -/
def execSaveTeam (team : Nat) (s : State) : Answer := .next (s.saveTeam team)

/-- RESTORE (R444): of the team that the dispatcher places next (R404). -/
def execRestoreTeam (team core : Nat) (s : State) : Answer :=
  .next (match s.getTeam? team with
    | none => s
    | some t => match t.image with
      | some i =>
        if s.nextPlacement == some (t.launch, some team) && s.mayRestore team core then
          (s.restoreNow team core t i).served t.launch
        else s
      | none => s)

/-- TEAM_PLACEMENT (R404, R407): the next team of the launch that the dispatcher serves next starts on a core. -/
def execTeamPlacement (l core : Nat) (s : State) : Answer :=
  .next (if s.nextPlacement == some (l, none) && s.mayStart l core then
      let crew := ((s.getLaunch? l).map fun x => x.nextTeam / x.tpc).getD 0
      ((s.giveBanks l crew (clusterOf core)).startTeam l core).served l
    else s)

/-! ## What happens between turns (R400, R403, R425, R434, R441) -/

namespace State

/-- A team's blocked time is kept, and a team that is parked with a request stands still from then on. -/
def watchTeam (s : State) (team : Nat) : State :=
  match s.getTeam? team with
  | none => s
  | some t =>
    if t.status != .resident then s.landLate team
    else
      let s := s.setTeam team { t with blocked := if s.blockedNow t then some (t.blocked.getD s.gtime) else none }
      if t.req.isSome && s.teamParked t then
        t.wids.foldl (fun s wid => s.modWarp wid fun w => { w with halted := true }) s
      else s

/-- What the dispatcher and the save engine do as soon as it may be done. -/
def settleTeams (s : State) : State :=
  let s := s.cascade.endCancelled
  s.teams.keys.foldl watchTeam s

end State
end Sys2Proof.Machine
end

