-- ==== Sys2Proof/Machine/Power.lean ====
section
/-! DEFINITION. Power, current and thermal control (spec/20): budget, floors and shares, epochs, lending and recall, the
quiesce and gating of a cluster, wake sources and sensors. -/

namespace Sys2Proof.Machine

/-- Clusters of the package, and of a die (R13). -/
def clusterCount : Nat := 192
def dieClusters (die : Nat) : List Nat := (List.range 48).map fun n => 48 * die + n

namespace State

/-! ## Budget, floors and shares (R452-R454) -/

/-- The partition a cluster belongs to: the lowest-numbered that holds a core of it (R454). -/
def clusterPart (s : State) (cl : Nat) : Option Nat :=
  (List.range 32).find? fun p => (List.range 4).any fun q => (s.getPart p).holdsCore (4 * cl + q)

/-- The budget B, with CAP_LOW once each time the clamp begins to apply (R452). -/
def setBudget (s : State) : State :=
  let cap := s.host.pcap.toNat
  let low := decide (cap < 2200 ∧ cap < s.host.f0)
  let b := if 2200 ≤ cap then 2200 else if low then s.host.f0 else cap
  let t := { s with host := { s.host with budget := b, capLow := low } }
  if low && !s.host.capLow then t.raiseEvent 0 else t

/-- The scaled floors, with FLOOR_SHORT once each time the scaling begins to apply to a tenant (R453). -/
def setFloors (s : State) : State :=
  let sum := ((List.range 32).map fun p => (s.getPart p).pflr.toNat).sum
  (List.range 32).foldl (fun s p =>
    let b := s.getPart p
    let flr := b.pflr.toNat
    let f := if s.host.budget < sum then flr * s.host.budget * 16 / sum else 16 * flr
    let short := decide (f < 16 * flr)
    if f = b.floor16 ∧ short = b.short then s
    else
      let t := s.setPart p { b with floor16 := f, short }
      if short && !b.short then t.raiseCause p 5 else t) s

/-- Every cluster's share, in 1/16 W (R454). -/
def setShares (s : State) : State :=
  let owners := (List.range clusterCount).map s.clusterPart
  let n := (owners.filter (·.isSome)).length
  let floors := ((List.range 32).map fun p => (s.getPart p).floor16).sum
  let r := 16 * (s.host.budget - s.host.f0) - floors
  (owners.zipIdx).foldl (fun s x =>
    let share := match x.1 with
      | none => 0
      | some p =>
        let np := (owners.filter (· == some p)).length
        ((s.getPart p).floor16 * n + r * np) / (np * n)
    if (s.getCluster x.2).share = share then s else s.modCluster x.2 fun k => { k with share }) s

/-- B, the floors and the shares are recomputed (R452-R454). -/
def rebalance (s : State) : State := s.setBudget.setFloors.setShares

/-! ## The allowance counter and REFILL (R456, R459) -/

/-- The counters of a cluster brought up to the present cycle. -/
def settleC (s : State) (cl : Nat) : State := s.modCluster cl fun k => k.upTo (s.nowIn cl)

/-- Clock of a cluster's quadrant, in 100 MHz. -/
def clusterClock (s : State) (cl : Nat) : Nat := s.clock (cl / 48) (s.quadrantOf cl)

/-- REFILL from the cluster's power and its clock: floor(640 × P / f) (R456). -/
def setRefill (s : State) (cl : Nat) : State :=
  let f := s.clusterClock cl
  (s.settleC cl).modCluster cl fun k => { k with refill := 400 * (k.share - k.lent + k.borrowed) / f }

/-! ## Epochs (R456-R458) -/

/-- What a cluster lends at an epoch boundary; one in a recall lends nothing (R456, R457). -/
def lends (k : Cluster) : Nat :=
  if k.recallAt.isSome then 0 else if k.gated then k.share else if k.full then k.share / 2 else 0

/-- Steps 1 to 3 of R456 for the clusters of a die: what each lends and borrows. -/
def lendPool (s : State) (die : Nat) : State × Nat :=
  let cls := dieClusters die
  let pool := (cls.map fun c => lends (s.getCluster c)).sum
  let needy (c : Nat) : Bool := !(s.getCluster c).gated && decide (1 ≤ max (s.getCluster c).level (s.level c))
  let nb := (cls.filter needy).length
  let gets (c : Nat) : Nat := if needy c then min (pool / nb) (s.getCluster c).share else 0
  let taken := (cls.map gets).sum
  (cls.foldl (fun t c => t.modCluster c fun k =>
      { k with lent := if pool = 0 then 0 else lends (s.getCluster c) * taken / pool, borrowed := gets c,
               recallAt := none }) s, pool - taken)

/-- Step of the clock of quadrant q of a die (R458), whose cycles so far are kept. -/
def stepClock (s : State) (die left q : Nat) : State :=
  let act := (dieClusters die).filter fun c => s.quadrantOf c == q && !(s.getCluster c).gated
  let sum := (act.map fun c => (s.getCluster c).share).sum
  let up := decide (sum ≤ 20 * left) && act.all fun c => decide (max (s.getCluster c).level (s.level c) < 2)
  s.modDie die fun d =>
    let f := d.qclk.getD q 21
    { d with qclk := d.qclk.set q (if up then min 25 (f + 1) else max 21 (f - 1)),
             qcyc := d.qcyc.set q (s.cycleOf die q, s.gu) }

/-- The epoch that begins: whether C stands at its top, and the level in force. -/
def openEpoch (s : State) (cl : Nat) : State :=
  let c := s.allowance cl
  let l := s.level cl
  s.modCluster cl fun k => { k with full := decide (c = 65535), level := l }

/-- The recalled power leaves the borrowers of the die, in proportion to what they hold, and LENT reads 0 (R457). -/
def recallPower (s : State) (cl : Nat) : State :=
  let cls := dieClusters (cl / 48)
  let lent := (s.getCluster cl).lent
  let total := (cls.map fun c => (s.getCluster c).borrowed).sum
  let s := cls.foldl (fun s c =>
    let b := (s.getCluster c).borrowed
    if b = 0 ∨ total = 0 then s
    else (s.modCluster c fun k => { k with borrowed := b - (b * lent + total - 1) / total }).setRefill c) s
  (s.modCluster cl fun k => { k with lent := 0, recallAt := none }).setRefill cl

/-- Has a recall of the cluster begun (R457), on a die whose management core is not in reset (R482)? -/
def recalling (s : State) (cl : Nat) : Bool :=
  let k := (s.getCluster cl).upTo (s.nowIn cl)
  (s.getDie (cl / 48)).mgRun && (k.recallAt.isSome || (!k.gated && decide (0 < k.lent) && !k.full))

end State

/-- EPOCH (R456, R458), every 1 µs; while the die's management core is in reset, REFILL and the clocks keep their values
(R482). -/
def execEpoch (die : Nat) (s : State) : Answer :=
  .next (
    if s.gtime < (s.getDie die).epochAt + 1000 then s
    else if !(s.getDie die).mgRun then s.modDie die fun d => { d with epochAt := s.gtime / 1000 * 1000 }
    else
      let cls := dieClusters die
      let s := cls.foldl State.settleC s.setShares
      let x := s.lendPool die
      let s := (List.range 4).foldl (fun s q => s.stepClock die x.2 q) x.1
      let s := cls.foldl State.setRefill s
      let s := cls.foldl State.openEpoch s
      s.modDie die fun d => { d with epochAt := s.gtime / 1000 * 1000 })

/-- RECALL (R457). -/
def execRecall (cl : Nat) (s : State) : Answer := .next (if s.recalling cl then s.recallPower cl else s)

/-- POWER_MEASUREMENT (R452): the idle floor that the part measured, every 1 ms. -/
def execPowerMeasurement (f0 : Nat) (s : State) : Answer :=
  .next (
    if s.gtime < s.host.measuredAt + 1000000 then s
    else { s with host := { s.host with f0, measuredAt := s.gtime } }.rebalance)

/-- A write of PCAP (R452). -/
def State.writePcap (s : State) (v : Word) : State :=
  { s with host := { s.host with pcap := v.extractLsb' 0 16 } }.rebalance

/-- PCAP (R452). -/
def execPcap (v : Word) (s : State) : Answer := .next (s.writePcap v)

/-- ALLOWANCE_REFILL (R459): the counters as they stand in the present cycle. -/
def execAllowanceRefill (s : State) : Answer := .next ((List.range clusterCount).foldl State.settleC s)

/-! ## Quiesce, retention and gating (R462-R464) -/

namespace State

/-- Is a crew bound to the cluster: has it a member there (R275, R462)? -/
def crewThere (s : State) (cl : Nat) : Bool :=
  s.crews.any fun c => c.cluster == cl && s.teams.any fun e =>
    e.2.launch == c.launch && e.2.crew == c.crew && e.2.status != .out

/-- Commands that have not completed: those that engines hold, and those withdrawn into an image (R434). -/
def openCmds (s : State) : List Cmd := s.allCmds ++ s.teams.flatMap fun e => (e.2.image.map (·.cmds)).getD []

/-- Does a core of the cluster hold a team, or a team's held words, or is an operation outstanding that a warp of its cores
issued, wherever it stands by now: then a redirect table there holds its team's entry (R441, R442, R462)? -/
def workThere (s : State) (cl : Nat) : Bool :=
  (s.openCmds.any fun c => clusterOf c.issuedOn == cl || clusterOf c.core == cl) ||
  (List.range 4).any fun q =>
    let core := 4 * cl + q
    !(s.teamsOn core).isEmpty ||
      s.teams.any fun e => e.2.core == core && match e.2.image with
        | some i => !i.held.isEmpty && !i.late
        | none => false

/-- IDLE (R462). -/
def clusterIdle (s : State) (cl : Nat) : Bool :=
  (s.getCluster cl).closed && !s.crewThere cl && (s.getCluster cl).table.isEmpty && !s.workThere cl

/-- The retention state of a cluster (R463): the partition of each core, its BRKSTOP bit, and the trim of the sensor. -/
def retained (s : State) (cl : Nat) : Retention :=
  { owners := (List.range 4).map fun q => s.coreHolder (4 * cl + q),
    brkstop := (List.range 4).map fun q => (s.getCore (4 * cl + q)).brkstop
    trim := (s.getCluster cl).trim }

/-- A core belongs to a partition, or to none. -/
def assignCore (s : State) (core : Nat) (owner : Option Nat) : State :=
  (List.range 32).foldl (fun s p =>
    let b := s.getPart p
    let m := b.pcore.get (core / 32) 0
    let bit := BitVec.twoPow 32 (core % 32)
    let m' := if owner = some p then m ||| bit else m &&& ~~~bit
    if m' = m then s else s.setPart p { b with pcore := b.pcore.set (core / 32) m' }) s

/-- The retention state becomes what is given (R463). -/
def setRetained (s : State) (cl : Nat) (r : Retention) : State :=
  (((List.range 4).foldl (fun s q =>
    (s.assignCore (4 * cl + q) (r.owners.getD q none)).modCore (4 * cl + q) fun k =>
      { k with brkstop := r.brkstop.getD q false }) s).modCluster cl fun k => { k with trim := r.trim }).setShares

/-- The instruction caches and translation buffers of a cluster are invalidated (R463). -/
def invalidateCluster (s : State) (cl : Nat) : State :=
  ((List.range 4).foldl (fun s q => s.modCore (4 * cl + q) fun k => { k with icache := [] }) s).modCluster cl
    fun k => { k with kvtb := [], tlb := [] }

/-- A write of QREQ (R462, R464). -/
def writeQreq (s : State) (cl : Nat) (v : Word) : State :=
  if v.getLsbD 0 then s.modCluster cl fun k => { k with req := true, closed := true }
  else if (s.getCluster cl).gate then s
  else s.modCluster cl fun k => { k with req := false, closed := false }

/-- A refused write of RSAVE sets ERR (R464). -/
def refuseRsave (s : State) (cl : Nat) : State := s.modCluster cl fun k => { k with err := true }

/-- RSAVE.SAVE (R464). -/
def startSave (s : State) (cl : Nat) : State :=
  let k := s.getCluster cl
  if s.clusterIdle cl && !k.gate && k.busy.isNone then
    s.setCluster cl { k with busy := some (true, s.gtime), saved := none, err := false }
  else s.refuseRsave cl

/-- RSAVE.RESTORE (R464). -/
def startRestore (s : State) (cl : Nat) : State :=
  let k := s.getCluster cl
  if k.saved.isSome && k.good && !k.gate && k.busy.isNone then
    s.setCluster cl { k with busy := some (false, s.gtime), err := false }
  else s.refuseRsave cl

/-- A write of RSAVE: each bit must be written alone, and a write of 0 has no effect. -/
def writeRsave (s : State) (cl : Nat) (v : Word) : State :=
  match v.getLsbD 0, v.getLsbD 1 with
  | true, false => s.startSave cl
  | false, true => s.startRestore cl
  | true, true => s.refuseRsave cl
  | false, false => s

/-- A write of CLKG (R464): the counter is full when the cluster wakes (R459). -/
def writeClkg (s : State) (cl : Nat) (v : Word) : State :=
  let k := s.getCluster cl
  if v.getLsbD 0 then
    if !k.gate && s.clusterIdle cl && k.busy.isNone then s.setCluster cl { k with gate := true, asked := [] }
    else s
  else if k.gate && k.good then
    s.modCluster cl fun k => { k.upTo (s.nowIn cl) with gate := false, c := 65535, c0 := 65535 }
  else s

/-- A write of RAIL (R463, R464). -/
def writeRail (s : State) (cl : Nat) (v : Word) : State :=
  let k := s.getCluster cl
  if v.getLsbD 0 then
    if !k.railOff && k.gate then
      let s := (s.setCluster cl { k with railOff := true, ramp := true, good := false }).invalidateCluster cl
      if k.saved.isSome then s else s.setRetained cl { owners := [], brkstop := [], trim := 0 }
    else s
  else if k.railOff && k.lent == 0 then s.setCluster cl { k with railOff := false, ramp := true }
  else s

/-- A write of LENDT MODE (R457, R464). -/
def writeLendt (s : State) (cl : Nat) (v : Word) : State :=
  let k := s.getCluster cl
  let mode := (v.extractLsb' 0 2).toNat
  if mode = 2 then (if k.railOff then s.setCluster cl { k with gated := true } else s)
  else if mode = 0 ∧ k.gated then s.setCluster cl { k with gated := false, recallAt := some s.gtime }
  else s

/-! ## Wake sources (R465) -/

/-- The cycle that a die's management core is in. -/
def mgmtCycle (s : State) (d : Nat) : Nat := s.nowOf (mgmtWid d)

/-- A source fires. It is latched at the end of the cycle, so that a write to WAKE in that cycle takes effect for it, and a
write that clears its bit leaves it set. -/
def fireWake (s : State) (cl src : Nat) : State :=
  s.modCluster cl fun k => if k.gate then { k with firing := k.firing ++ [(src, s.mgmtCycle (cl / 48))] } else k

/-- An armed source that has fired is latched while the clock is stopped, and sets the wake bit. -/
def latchWake (s : State) (cl src : Nat) : State :=
  let k := s.getCluster cl
  if k.arm.getLsbD src && k.gate then
    (s.setCluster cl { k with src := k.src ||| BitVec.twoPow 3 src }).wakeDie (cl / 48) (BitVec.twoPow 32 k.wbit.toNat)
  else s

/-- The sources that fired in cycles that are over are latched. -/
def latchWakes (s : State) (cl : Nat) : State :=
  let due (x : Nat × Nat) : Bool := decide (x.2 < s.mgmtCycle (cl / 48))
  let l := (s.getCluster cl).firing
  (l.filter due).foldl (fun s x => s.latchWake cl x.1)
    (s.modCluster cl fun k => { k with firing := l.filter fun x => !due x })

/-- A write of WAKE: the timer counts from this write, also where it fired in this cycle. -/
def writeWake (s : State) (cl : Nat) (v : Word) : State :=
  s.modCluster cl fun k =>
    { k with ticks := v.extractLsb' 16 16, wbit := v.extractLsb' 8 5, arm := v.extractLsb' 0 3,
             firing := k.firing.filter fun x => x.1 != 2, asked := [],
             wakeAt := if v.extractLsb' 16 16 = 0 then none else some s.gtime }

/-- Does a cluster sleep with DEMAND armed? -/
def awaitsDemand (k : Cluster) : Bool := k.gate && k.arm.getLsbD 0

/-- The eligible teams of a partition that no open core can admit, as `Cluster.asked` names them. -/
def heldTeams (s : State) (part : Nat) : List (Nat × Option Nat × Nat) :=
  s.launches.filterMap fun e => match s.offerOf e.1 e.2 with
    | some o => if e.2.part = part && !s.placeable e.1 o then some (e.1, o, e.2.nextTeam) else none
    | none => none

/-- DEMAND fires for a sleeping cluster when one of the teams held `now` is one for which it has not fired (log 74). -/
def demandOf (s : State) (cl : Nat) (k : Cluster) (now : List (Nat × Option Nat × Nat)) : State :=
  let t := s.modCluster cl fun k => { k with asked := now }
  if now.all fun x => k.asked.contains x then t else t.fireWake cl 0

/-- The same for every cluster that awaits it. -/
def demand (s : State) : State :=
  (s.clusters.filter fun e => awaitsDemand e.2).foldl
    (fun t e => t.demandOf e.1 e.2 ((s.clusterPart e.1).elim [] s.heldTeams)) s

/-- Wake sources that fired are latched, and DEMAND fires. -/
def wakes (s : State) : State := (s.clusters.keys.foldl latchWakes s).demand

end State

/-- QREQ (R462). -/
def execQreq (cl : Nat) (v : Word) (s : State) : Answer := .next (s.byFirmware fun s => s.writeQreq cl v)

/-- RSAVE_SAVE (R464). -/
def execRsaveSave (cl : Nat) (s : State) : Answer := .next (s.byFirmware fun s => s.startSave cl)

/-- RSAVE_RESTORE (R464). -/
def execRsaveRestore (cl : Nat) (s : State) : Answer := .next (s.byFirmware fun s => s.startRestore cl)

/-- RSAVE_DONE (R463): the latches are written, or loaded back. -/
def execRsaveDone (cl : Nat) (s : State) : Answer :=
  .next (
    let k := s.getCluster cl
    match k.busy with
    | some (true, _) =>
      (s.setCluster cl { k with busy := none, saved := some (s.retained cl) }).invalidateCluster cl
    | some (false, _) =>
      let t := match k.saved with
        | some r => s.setRetained cl r
        | none => s
      t.modCluster cl fun k => { k with busy := none, saved := none }
    | none => s)

/-- CLKG (R464). -/
def execClkg (cl : Nat) (v : Word) (s : State) : Answer := .next (s.byFirmware fun s => s.writeClkg cl v)

/-- RAIL (R464). -/
def execRail (cl : Nat) (v : Word) (s : State) : Answer := .next (s.byFirmware fun s => s.writeRail cl v)

/-- RAIL_RAMP_DONE (R464): a closed switch first brings the rail into regulation, then the change is over. -/
def execRailRampDone (cl : Nat) (s : State) : Answer :=
  .next (
    let k := s.getCluster cl
    if !k.ramp then s
    else if !k.railOff && !k.good then s.setCluster cl { k with good := true }
    else s.setCluster cl { k with ramp := false })

/-- LENDT (R464). -/
def execLendt (cl : Nat) (v : Word) (s : State) : Answer := .next (s.byFirmware fun s => s.writeLendt cl v)

/-- WAKE (R465). -/
def execWake (cl : Nat) (v : Word) (s : State) : Answer := .next (s.byFirmware fun s => s.writeWake cl v)

/-- WAKE_TIMER (R465). -/
def execWakeTimer (cl : Nat) (s : State) : Answer :=
  .next (
    let k := s.getCluster cl
    match k.wakeAt with
    | some t =>
      if t + 1000 * k.ticks.toNat ≤ s.gtime then (s.setCluster cl { k with wakeAt := none }).fireWake cl 2 else s
    | none => s)

/-- A write of HWAKE (R465, R474). -/
def State.writeHwake (s : State) (cl : Nat) (v : Word) : State := if v.getLsbD 0 then s.fireWake cl 1 else s

/-- HWAKE (R465, R474). -/
def execHwake (cl : Nat) (v : Word) (s : State) : Answer := .next (s.writeHwake cl v)

/-! ## Sensors (R461, R466) -/

namespace State

/-- A new temperature crosses TRIPM: the THEV bit and the wake bit, once until it has fallen 2 degrees below. -/
def tripTemp (s : State) (cl : Nat) (old new : Int) : State :=
  let d := s.getDie (cl / 48)
  let n := cl % 48
  let trip : Int := d.tripm.toNat
  if old < trip ∧ trip ≤ new ∧ !d.tripped.getLsbD n then
    (s.setDie (cl / 48) { d with thev := d.thev ||| BitVec.twoPow 48 n, tripped := d.tripped ||| BitVec.twoPow 48 n }).wakeDie
      (cl / 48) (BitVec.twoPow 32 d.wbit.toNat)
  else if new < trip - 32 then s.setDie (cl / 48) { d with tripped := d.tripped &&& ~~~BitVec.twoPow 48 n }
  else s

end State

/-- TEMP (R450, R461, R466): a sample of a cluster's sensor. -/
def execTempSample (cl : Nat) (t : BitVec 16) (s : State) : Answer :=
  .next (
    let k := (s.getCluster cl).upTo (s.nowIn cl)
    let hot := if 1680 ≤ t.toInt then true else if t.toInt < 1600 then false else k.hot
    (s.setCluster cl { k with temp := t, hot, level := if hot then max 2 k.level else k.level }).tripTemp cl k.temp.toInt
      t.toInt)

end Sys2Proof.Machine
end

