-- ==== Sys2Proof/Machine/Window.lean ====
section
/-! DEFINITION. The management window: the registers of dies, clusters and cores (spec/20 R448-R451; spec/05 R130;
spec/07 R191; spec/19 R428). -/

namespace Sys2Proof.Machine

/-- A register of the window, of die `d` (R448). -/
inductive WinReg where
  /-- Offset in the die block. -/
  | die (off : Nat)
  /-- Cluster n, offset in its block. -/
  | cluster (n off : Nat)
  /-- Core k of the die, offset in its block. -/
  | core (k off : Nat)
  | none
  deriving DecidableEq, Repr

/-- Where a window offset points: its die and register. -/
def winReg (off : Nat) : Nat × WinReg :=
  let block := off / 2 ^ 12 % 2 ^ 12
  let r := off % 2 ^ 12
  (off / 2 ^ 24, if block = 0 then .die r
    else if 0x100 ≤ block ∧ block < 0x130 then .cluster (block - 0x100) r
    else if 0x200 ≤ block ∧ block < 0x2C0 then .core (block - 0x200) r
    else .none)

namespace State

/-- A register of the die block (R451). -/
def readDie (s : State) (d off : Nat) : Word :=
  let k := s.getDie d
  if off = 0 then BitVec.ofNat 32 (leNat (k.qclk.map (BitVec.ofNat 8 ·)))
  else if off = 4 then BitVec.ofNat 32 (k.tripm.toNat + k.wbit.toNat * 2 ^ 12)
  else if off = 8 then k.thev.extractLsb' 0 32
  else if off = 0xC then (k.thev.extractLsb' 32 16).zeroExtend 32
  else if 0x100 ≤ off ∧ off < 0x100 + 4 * 48 ∧ off % 4 = 0 then
    let c := s.getCluster (48 * d + (off - 0x100) / 4)
    BitVec.ofNat 32 ((if c.gated then 2 else 0) + c.share % 2 ^ 14 * 2 ^ 2 + c.lent % 2 ^ 16 * 2 ^ 16)
  else if 0x200 ≤ off ∧ off < 0x228 ∧ off % 4 = 0 then
    BitVec.ofNat 32 (leNat ((k.mgfault.drop (off - 0x200)).take 4))
  else 0

/-- A register of a cluster block (R450). -/
def readCluster (s : State) (cl off : Nat) : Word :=
  let k := s.getCluster cl
  let n : Nat :=
    if off = 0 then k.req.toNat
    else if off = 4 then k.closed.toNat + 2 * (s.clusterIdle cl).toNat
    else if off = 0xC then k.busy.isSome.toNat + 2 * k.saved.isSome.toNat + 4 * k.err.toNat
    else if off = 0x10 then k.gate.toNat
    else if off = 0x14 then k.railOff.toNat
    else if off = 0x18 then k.good.toNat + 2 * k.ramp.toNat
    else if off = 0x1C then k.ticks.toNat * 2 ^ 16 + k.wbit.toNat * 2 ^ 8 + k.arm.toNat
    else if off = 0x20 then k.src.toNat
    else if off = 0x24 then k.temp.toNat
    else if off = 0x28 then s.level cl % 8 * 2 ^ 16 + s.allowance cl % 2 ^ 16
    else if off = 0x2C then min k.refill (2 ^ 16 - 1)
    else 0
  BitVec.ofNat 32 n

/-- CDBG of a core (R130): STOPPED is 1 as soon as SNAP is, since its results in flight are then visible. -/
def readCdbg (s : State) (core : Nat) : Word :=
  let k := s.getCore core
  BitVec.ofNat 32 (k.snap.toNat + 2 * k.snap.toNat + 4 * k.fatal.toNat + 8 * k.brkstop.toNat)

/-- VRSTAT of a core (R191). -/
def readVrstat (s : State) (core : Nat) : Word :=
  let ws := s.warpsOn core
  let waits := (ws.filter fun e => e.2.waiting.isSome).length
  BitVec.ofNat 32 ((ws.map fun e => e.2.nRows).sum + s.resRows core * 2 ^ 12 + waits * 2 ^ 24)

/-- SVREQ of a core (R428). -/
def readSvreq (s : State) (core : Nat) : Word :=
  let k := s.getCore core
  BitVec.ofNat 32 (k.svTarget.toNat + k.svFail.toNat * 2 ^ 23 + k.svSlot.toNat * 2 ^ 24 + k.svKind.toNat * 2 ^ 28 +
    (s.svGo core).toNat * 2 ^ 31)

/-- TSTAT of a core (R428). -/
def readTstat (s : State) (core : Nat) : Word :=
  BitVec.ofNat 32 ((List.range 16).foldl (fun n k => n + (s.teamInSlot core k).isSome.toNat * 2 ^ k) 0)

/-- A register of a core's block. -/
def readCoreReg (s : State) (core off : Nat) : Word :=
  if off = 0 then s.readCdbg core else if off = 4 then s.readVrstat core else if off = 8 then s.readSvreq core
  else if off = 0xC then s.readTstat core else 0

/-- A read of the window (R449): an offset that names no register reads 0. -/
def windowRead (s : State) (off : Nat) : Word :=
  let x := winReg off
  match x.2 with
  | .die o => s.readDie x.1 o
  | .cluster n o => s.readCluster (48 * x.1 + n) o
  | .core k o => s.readCoreReg (192 * x.1 + k) o
  | .none => 0

/-- A write of CDBG (R130): FATAL and STOPPED are read only. -/
def writeCdbg (s : State) (core : Nat) (v : Word) : State :=
  let s := s.modCore core fun k => { k with brkstop := v.getLsbD 3 }
  if v.getLsbD 0 then s.snapCore core else s.resumeCore core

/-- A write of SVREQ (R428). -/
def writeSvreq (s : State) (core : Nat) (v : Word) : State :=
  if v.extractLsb' 28 3 ≠ 4 ∨ v.getLsbD 31 = false ∨ s.svGo core then s
  else match s.teamInSlot core (svSlot v).toNat, s.coreAt (v.extractLsb' 0 16) with
    | some (team, _), some target =>
      let s := s.modCore core fun k =>
        { k with svKind := 4, svSlot := svSlot v, svFail := false, svTarget := v.extractLsb' 0 16 }
      let s := s.request team .migrate
      match (s.getTeam? team).bind (·.req) with
      | some (.migrate, _) =>
        (s.modCore core fun k => { k with svTeam := some team }).modTeam team fun t => { t with target }
      | _ => s
    | _, _ => s

/-- A write to the die block (R451). -/
def writeDie (s : State) (d off : Nat) (v : Word) : State :=
  if off = 4 then s.modDie d fun k => { k with tripm := v.extractLsb' 0 12, wbit := v.extractLsb' 12 5 }
  else if off = 8 then s.modDie d fun k => { k with thev := k.thev &&& ~~~v.zeroExtend 48 }
  else if off = 0xC then s.modDie d fun k => { k with thev := k.thev &&& ~~~((v.extractLsb' 0 16).zeroExtend 48 <<< 32) }
  else if 0x100 ≤ off ∧ off < 0x100 + 4 * 48 ∧ off % 4 = 0 then s.writeLendt (48 * d + (off - 0x100) / 4) v
  else s

/-- A write to a cluster block (R450, R464). -/
def writeCluster (s : State) (cl off : Nat) (v : Word) : State :=
  if off = 0 then s.writeQreq cl v
  else if off = 8 then s.writeRsave cl v
  else if off = 0x10 then s.writeClkg cl v
  else if off = 0x14 then s.writeRail cl v
  else if off = 0x1C then s.writeWake cl v
  else if off = 0x20 then s.modCluster cl fun k => { k with src := k.src &&& ~~~v.extractLsb' 0 3 }
  else s

/-- A write to the window (R449): one to no register, or to a read-only one, is ignored. -/
def windowWrite (s : State) (off : Nat) (v : Word) : State :=
  let x := winReg off
  match x.2 with
  | .die o => s.writeDie x.1 o v
  | .cluster n o => s.writeCluster (48 * x.1 + n) o v
  | .core k o =>
    if o = 0 then s.writeCdbg (192 * x.1 + k) v else if o = 8 then s.writeSvreq (192 * x.1 + k) v else s
  | .none => s

end State

/-- MIGRATE (R428): a write of SVREQ. -/
def execMigrateReq (core : Nat) (v : Word) (s : State) : Answer :=
  .next (s.byFirmware fun s => s.writeSvreq core v)

/-- CDBG (R130). -/
def execCdbg (core : Nat) (v : Word) (s : State) : Answer := .next (s.writeCdbg core v)

end Sys2Proof.Machine
end

