-- ==== Sys2Proof/Machine/Host.lean ====
section
/-! DEFINITION. The host's registers: the partition blocks, the queues, the fault queue and the answers of the system
handler, the package registers and the partition configuration (spec/05 R133; spec/21 R469-R475). -/

namespace Sys2Proof.Machine

/-- The DONE, SEALED, OPEN and other fields of a counter as its status word (R394). -/
def Counter.status (k : Counter) : DWord :=
  k.gen ++ 0#5 ++ BitVec.ofBool k.parent.isSome ++ k.parentField ++ 0#2 ++ BitVec.ofNat 2 k.level ++
    BitVec.ofBool k.error ++ BitVec.ofBool k.cancelled ++ BitVec.ofBool k.done ++ BitVec.ofBool k.sealed ++
    BitVec.ofNat 24 k.open'

/-- A 64-bit register with its low half, its high half or all of it written. -/
def putHalf (old : DWord) (hi : Bool) (size : Nat) (v : DWord) : DWord :=
  if hi then loWord v ++ loWord old else if size = 8 then v else hiWord old ++ loWord v

namespace State

/-! ## Answers of the system handler (R133, R473) -/

/-- The record in a slot of a partition's ring that is not answered. -/
def faultIn (s : State) (p slot : Nat) : Option FaultEntry :=
  (s.getPart p).outstanding.find? fun e => e.slot == slot

/-- A slot is answered; a record that waits may take it once FQRPTR has passed it (R473). -/
def answered (s : State) (p slot : Nat) : State :=
  let s := s.modPart p fun b => { b with outstanding := b.outstanding.filter fun e => e.slot != slot }
  s.refillFaults p (s.getPart p).waiting.length

/-- Does the warp of a record still stand parked with it? -/
def stillParked (s : State) (e : FaultEntry) : Bool :=
  ((s.teamWarp? e.team e.warp).map fun w => w.fault == some e.rec').getD false

/-- KILL-TEAM: the team's error word receives the record as one error, and the team ends (R133, R135). -/
def killFor (s : State) (e : FaultEntry) : State :=
  (s.teamError e.team e.warp 0 e.rec'.code e.rec'.faddr).stopTeam e.team

end State

/-- The warp goes on at its instruction; past a SYS, with the loop end test when it stood at a LAST (R133, R136). -/
def Warp.replayed (w : Warp) (r : FaultRec) (now : When) : Warp :=
  let e := State.gangOf w r.gang
  let e := if r.code = cSYSREQ then
      let t := loopTest r.pc e.loops
      { e with loops := t.1, pc := t.2.getD (r.pc + 4) }
    else e
  { w with fault := none, readyAt := now.age + 1,
           gangs := w.gangs.set r.gang { e.stopped with nextAt := max e.nextAt (now.cycle + 1), since := now.age + 1 } }

/-- A record as a warp trap (R125, R133). -/
def FaultRec.trap (r : FaultRec) : TrapInfo :=
  { cause := r.code, sub := r.sub, flanes := r.flanes, faddr := r.faddr,
    skip := if r.code = cTRAP ∨ r.code = cBRK ∨ r.code = cSYSREQ then 4 else 0,
    fpxc := r.fpxc, engClass := r.engClass, engLeft := r.engLeft }

namespace State

/-- The present moment for a warp of a team; none that counts for a team that is out. -/
def momentOf (s : State) (team k : Nat) : When :=
  match (s.getTeam? team).bind fun t => if t.image.isSome then none else t.wids[k]? with
  | some wid => s.whenIn wid 0
  | none => ⟨0, 0, 0⟩

/-- REPLAY (R133). -/
def replay (s : State) (e : FaultEntry) : State :=
  s.modTeamWarp e.team e.warp fun w => w.replayed e.rec' (s.momentOf e.team e.warp)

/-- DELIVER: the record becomes a warp trap, entered by R131 once the results in flight are visible, or else the answer
is KILL-TEAM (R133). -/
def deliver (s : State) (e : FaultEntry) : State :=
  if ((s.teamWarp? e.team e.warp).map fun w => w.routed e.rec'.code).getD true then s.killFor e
  else
    let r := e.rec'
    let s := match s.getTeam? e.team with
      | some t => match t.image, t.wids[e.warp]? with
        | none, some wid => s.finishResults wid
        | _, _ => s
      | none => s
    let t := s.modTeamWarp e.team e.warp fun w =>
      { w with fault := none, readyAt := (s.momentOf e.team e.warp).age }.enterHandler (s.momentOf e.team e.warp) s.fresh
        r.gang r.pc r.word r.len r.trap
    { t with fresh := s.fresh + 1 }

/-- KILL-LAUNCH: the launch is cancelled as by CNCL (R133, R401). -/
def killLaunchOf (s : State) (e : FaultEntry) : State :=
  match (s.getTeam? e.team).bind fun t => s.getLaunch? t.launch with
  | some l => s.cancelUnit l.ctr l.gen
  | none => s

/-- An answer: 0 REPLAY, 1 DELIVER, 2 KILL-TEAM, 3 KILL-LAUNCH. One for a slot with no record outstanding is ignored
(R473); one whose warp is gone has no further effect. -/
def answer (s : State) (p slot act : Nat) : State :=
  match s.faultIn p slot with
  | none => s
  | some e =>
    let t :=
      if !s.stillParked e then s
      else match act with
        | 0 => s.replay e
        | 1 => s.deliver e
        | 2 => s.killFor e
        | _ => s.killLaunchOf e
    t.answered p slot

/-- A write of FREPLY (R470, R473). -/
def writeFreply (s : State) (p : Nat) (v : Word) : State :=
  let slot := (v.extractLsb' 0 16).toNat
  if v.extractLsb' 16 4 ≤ 3#4 ∧ (s.faultIn p slot).isSome then
    (s.modPart p fun b => { b with freply := v }).answer p slot (v.extractLsb' 16 4).toNat
  else s

/-! ## Queues and counters of a partition (R470, R472) -/

/-- A write of CCANCEL (R401, R470); a counter of another partition ignores it (R469). -/
def writeCcancel (s : State) (p : Nat) (v : Word) : State :=
  let c := (v.extractLsb' 0 10).toNat
  if (s.getPart p).holdsCounter c then s.cancelUnit c (v.extractLsb' 16 16) else s

/-- A change of queue q by the partition that holds it (R469). -/
def ownQueue (s : State) (p q : Nat) (f : State → State) : State := if (s.getPart p).holdsQueue q then f s else s

/-- A write of QBASE (R472): ignored while ENABLE is 1. -/
def writeQbase (s : State) (q : Nat) (hi : Bool) (size : Nat) (v : DWord) : State :=
  s.modQueue q fun k => if k.enable then k else { k with base := putHalf k.base hi size v &&& ~~~127#64 }

/-- A write of QCFG (R472). -/
def writeQcfg (s : State) (q : Nat) (v : Word) : State :=
  s.modQueue q fun k =>
    let l := (v.extractLsb' 0 5).toNat
    if k.enable then { k with enable := v.getLsbD 8 }
    else if 4 ≤ l ∧ l ≤ 16 then { k with log2 := l, enable := v.getLsbD 8 }
    else k

/-- A write of WPTR (R472). -/
def writeWptr (s : State) (q : Nat) (v : Word) : State :=
  let k := s.getQueue q
  if 2 ^ k.log2 < (v - k.rptr).toNat then s.setQref q 0x51 else s.setQueue q { k with wptr := v }

/-- A write of RPTR: only while ENABLE is 0 (R470). -/
def writeRptr (s : State) (q : Nat) (v : Word) : State :=
  s.modQueue q fun k => if k.enable then k else { k with rptr := v }

/-- A read of QREF returns it and clears it (R470). -/
def readQref (s : State) (p q : Nat) : State :=
  if (s.getPart p).holdsQueue q then
    (s.modQueue q fun k => { k with qref := 0 }).send (.reg ((s.getQueue q).qref.zeroExtend 32))
  else s.send (.reg 0)

/-- A read of QWAKE returns it and clears it (R149, R470). -/
def readQwake (s : State) (p q : Nat) : State :=
  if (s.getPart p).holdsQueue q then (s.modQueue q fun k => { k with wake := 0 }).send (.reg (s.getQueue q).wake)
  else s.send (.reg 0)

/-! ## The partition block (R470) -/

/-- A write of FQCFG: records that wait enter a ring that it has made larger (R473). -/
def writeFqcfg (s : State) (p : Nat) (v : Word) : State :=
  let l := (v.extractLsb' 0 5).toNat
  if 4 ≤ l ∧ l ≤ 12 then
    let s := s.modPart p fun b => { b with fqlog2 := l }
    s.refillFaults p (s.getPart p).waiting.length
  else s

/-- A write of FQRPTR: slots that it passes are free once answered (R473). -/
def writeFqrptr (s : State) (p : Nat) (v : Word) : State :=
  let s := s.modPart p fun b => { b with fqrptr := v }
  s.refillFaults p (s.getPart p).waiting.length

/-- A write to the registers of a queue, by offset in its 32 bytes. -/
def writeQueueReg (s : State) (q r size : Nat) (v : DWord) : State :=
  if r = 0 then s.writeQbase q false size v
  else if r = 4 then s.writeQbase q true 4 v
  else if r = 8 then s.writeQcfg q (loWord v)
  else if r = 0xC then s.writeWptr q (loWord v)
  else if r = 0x10 then s.writeRptr q (loWord v)
  else s

/-- A write to BAR 0 of virtual function p. -/
def writeVf (s : State) (p off size : Nat) (v : DWord) : State :=
  let w := loWord v
  if off = 0 then s.modPart p fun b => { b with pint := b.pint &&& ~~~w.extractLsb' 0 6 }
  else if off = 4 then s.modPart p fun b => { b with pintm := w.extractLsb' 0 6 }
  else if off = 8 then s.modPart p fun b => { b with pvec := w &&& 0x3FFFFFFF#32 }
  else if off = 0x10 then s.modPart p fun b => { b with fqbase := putHalf b.fqbase false size v &&& ~~~63#64 }
  else if off = 0x14 then s.modPart p fun b => { b with fqbase := putHalf b.fqbase true 4 v }
  else if off = 0x18 then s.writeFqcfg p w
  else if off = 0x20 then s.writeFqrptr p w
  else if off = 0x24 then s.writeFreply p w
  else if off = 0x28 then s.writeCcancel p w
  else if 0x10000 ≤ off ∧ off < 0x10000 + 32 * 4096 then
    s.ownQueue p ((off - 0x10000) / 32) fun s => s.writeQueueReg ((off - 0x10000) / 32) (off % 32) size v
  else s

/-- A register of a queue, but for those that a read clears. -/
def readQueueReg (k : Queue) (r : Nat) : Word :=
  if r = 0 then loWord k.base else if r = 4 then hiWord k.base
  else if r = 8 then BitVec.ofNat 32 (k.log2 + 256 * k.enable.toNat)
  else if r = 0xC then k.wptr else if r = 0x10 then k.rptr
  else if r = 0x14 then k.qref.zeroExtend 32 else if r = 0x18 then k.wake else 0

/-- A 32-bit read of BAR 0 of virtual function p (R470): what another partition holds, and an offset that names no
register, read 0. -/
def readVf (s : State) (p off : Nat) : Word :=
  let b := s.getPart p
  if off = 0 then b.pint.zeroExtend 32 else if off = 4 then b.pintm.zeroExtend 32 else if off = 8 then b.pvec
  else if off = 0xC then BitVec.ofNat 32 b.floor16
  else if off = 0x10 then loWord b.fqbase else if off = 0x14 then hiWord b.fqbase
  else if off = 0x18 then BitVec.ofNat 32 b.fqlog2 else if off = 0x1C then b.fqwptr
  else if off = 0x20 then b.fqrptr else if off = 0x24 then b.freply
  else if 0x1000 ≤ off ∧ off < 0x1000 + 16 * 1024 then
    let c := (off - 0x1000) / 16
    let k := s.getCounter c
    if !b.holdsCounter c then 0
    else if off % 16 = 0 then loWord k.status else if off % 16 = 4 then hiWord k.status
    else if off % 16 = 8 then loWord k.errWord else if off % 16 = 12 then hiWord k.errWord else 0
  else if 0x10000 ≤ off ∧ off < 0x10000 + 32 * 4096 then
    let q := (off - 0x10000) / 32
    if b.holdsQueue q then readQueueReg (s.getQueue q) (off % 32) else 0
  else 0

/-! ## Partition configuration (R469, R475) -/

/-- BUSY: an applied, uncompleted counter, or a resident or swapped-out team. -/
def partBusy (s : State) (p : Nat) : Bool :=
  (s.counters.any fun e => !e.2.done && (s.getPart p).holdsCounter e.1) ||
    s.teams.any fun e => e.2.part == p && e.2.status != .ended

/-- OUT: every team resident at the last SWITCH has been saved or has ended. -/
def partOut (s : State) (p : Nat) : Bool := (s.getPart p).switched.isEmpty

/-- PCTL.SWITCH: a HOST request of every resident team of the partition (R427, R475). -/
def switchPart (s : State) (p : Nat) : State :=
  let ts := ((s.teams.filter fun e => e.2.part == p && e.2.status == .resident).map (·.1))
  (ts.foldl (fun s t => s.requestSpace t .host) s).modPart p fun b => { b with switched := ts }

/-- PCTL.RESUME: teams held by HOST requests may be placed again (R404). -/
def resumePart (s : State) (p : Nat) : State :=
  { s with teams := s.teams.map fun (e : Nat × Team) => (e.1, if e.2.part = p then { e.2 with hostHeld := false } else e.2) }

end State

/-- Do two ranges, given by first and length, meet? -/
def rangesMeet (a n b m : Nat) : Bool := decide (0 < n ∧ 0 < m ∧ a < b + m ∧ b < a + n)

/-- A partition block with one register written, unless the write breaks what R475 states for it alone; none when the
offset names no register that may be written. -/
def Partition.putReg (b : Partition) (r size : Nat) (v : DWord) : Option (Except Unit Partition) :=
  let w := loWord v
  let wide (old : DWord) (f : DWord → Partition) : Option (Except Unit Partition) :=
    let n := putHalf old (r % 8 == 4) size v
    some (if n.toNat % 65536 = 0 then .ok (f n) else .error ())
  let grant (width : Nat) (f : Partition) : Option (Except Unit Partition) :=
    some (if grantFirst width w + grantCount width w ≤ 2 ^ width then .ok f else .error ())
  if r = 4 then some (.ok { b with pflr := w.extractLsb' 0 16 })
  else if r = 8 then grant 12 { b with pque := w &&& 0x1FFF0FFF#32 }
  else if r = 0xC then grant 10 { b with pctr := w &&& 0x07FF03FF#32 }
  else if r = 0x10 ∨ r = 0x14 then wide b.saveBase fun n => { b with saveBase := n }
  else if r = 0x18 ∨ r = 0x1C then wide b.saveSize fun n => { b with saveSize := n }
  else if 0x40 ≤ r ∧ r < 0x100 ∧ r % 4 = 0 then
    let j := (r - 0x40) / 16
    if r % 16 < 8 then wide (b.winBase.get j 0) fun n => { b with winBase := b.winBase.set j n }
    else wide (b.winSize.get j 0) fun n => { b with winSize := b.winSize.set j n }
  else if 0x100 ≤ r ∧ r < 0x160 ∧ r % 4 = 0 then some (.ok { b with pcore := b.pcore.set ((r - 0x100) / 4) w })
  else none

/-- The windows of a partition: base and size. -/
def Partition.windows (b : Partition) : List (Nat × Nat) :=
  (List.range 16).map fun j => ((b.winBase.get j 0).toNat, (b.winSize.get j 0).toNat)

/-- Do two partitions hold a queue, counter, core or window range in common (R475)? -/
def Partition.clash (a b : Partition) : Bool :=
  rangesMeet (grantFirst 12 a.pque) (grantCount 12 a.pque) (grantFirst 12 b.pque) (grantCount 12 b.pque) ||
  rangesMeet (grantFirst 10 a.pctr) (grantCount 10 a.pctr) (grantFirst 10 b.pctr) (grantCount 10 b.pctr) ||
  (List.range 24).any (fun m => a.pcore.get m 0 &&& b.pcore.get m 0 != 0) ||
  a.windows.any fun x => b.windows.any fun y => rangesMeet x.1 x.2 y.1 y.2

namespace State

/-- A refused write changes nothing and sets ERR; a taken one clears it (R475). -/
def refusePart (s : State) (p : Nat) : State := s.modPart p fun b => { b with err := true }

/-- A write to register r of the configuration block of partition p (R475); floors and shares follow it (R453, R454). -/
def writeConfig (s : State) (p r size : Nat) (v : DWord) : State :=
  if r = 0 then
    let s := s.modPart p fun b => { b with err := false }
    let s := if v.getLsbD 0 then s.switchPart p else s
    if v.getLsbD 1 then s.resumePart p else s
  else match (s.getPart p).putReg r size v with
    | none => s
    | some (.error _) => s.refusePart p
    | some (.ok b) =>
      if s.partBusy p || (List.range 32).any (fun o => o != p && b.clash (s.getPart o)) then s.refusePart p
      else (s.setPart p { b with err := false }).rebalance

/-- A register of the configuration block. -/
def readConfig (s : State) (p r : Nat) : Word :=
  let b := s.getPart p
  let half (x : DWord) : Word := if r % 8 = 4 then hiWord x else loWord x
  if r = 0 then BitVec.ofNat 32 (256 * (s.partBusy p).toNat + 512 * (s.partOut p).toNat + 1024 * b.err.toNat)
  else if r = 4 then b.pflr.zeroExtend 32 else if r = 8 then b.pque else if r = 0xC then b.pctr
  else if r = 0x10 ∨ r = 0x14 then half b.saveBase
  else if r = 0x18 ∨ r = 0x1C then half b.saveSize
  else if 0x40 ≤ r ∧ r < 0x100 ∧ r % 4 = 0 then
    let j := (r - 0x40) / 16
    half (if r % 16 < 8 then b.winBase.get j 0 else b.winSize.get j 0)
  else if 0x100 ≤ r ∧ r < 0x160 ∧ r % 4 = 0 then b.pcore.get ((r - 0x100) / 4) 0
  else 0

/-! ## The physical function (R474) -/

/-- A write to BAR 0 of the physical function. -/
def writePf (s : State) (off size : Nat) (v : DWord) : State :=
  let w := loWord v
  if off = 0 then s.writePcap w
  else if off = 4 then { s with host := { s.host with pevt := s.host.pevt &&& ~~~w.extractLsb' 0 5 } }
  else if 0x10000 ≤ off ∧ off < 0x14000 then
    let r := (off - 0x10000) % 0x1000
    if r < 0x300 ∧ r % 4 = 0 then s.writeCdbg (192 * ((off - 0x10000) / 0x1000) + r / 4) w else s
  else if 0x20000 ≤ off ∧ off < 0x20400 then
    let r := (off - 0x20000) % 0x100
    if r < 0xC0 ∧ r % 4 = 0 then s.writeHwake (48 * ((off - 0x20000) / 0x100) + r / 4) w else s
  else if 0x100000 ≤ off ∧ off < 0x120000 then
    s.writeConfig ((off - 0x100000) / 0x1000) ((off - 0x100000) % 0x1000) size v
  else s

/-- A 32-bit read of BAR 0 of the physical function. -/
def readPf (s : State) (off : Nat) : Word :=
  if off = 0 then s.host.pcap.zeroExtend 32
  else if off = 4 then s.host.pevt.zeroExtend 32
  else if off = 8 then BitVec.ofNat 32 s.host.osvn
  else if off = 0xC then BitVec.ofNat 32 s.host.fsvn
  else if off = 0x10 then s.host.fwstat.zeroExtend 32
  else if off = 0x14 then s.host.hbeat
  else if 0x1000 ≤ off ∧ off < 0x5000 then s.readDie ((off - 0x1000) / 0x1000) ((off - 0x1000) % 0x1000)
  else if 0x10000 ≤ off ∧ off < 0x14000 then
    let d := (off - 0x10000) / 0x1000
    let r := (off - 0x10000) % 0x1000
    if r % 4 ≠ 0 then 0
    else if r < 0x300 then s.readCdbg (192 * d + r / 4)
    else if 0x800 ≤ r ∧ r < 0xB00 then s.readVrstat (192 * d + (r - 0x800) / 4) else 0
  else if 0x100000 ≤ off ∧ off < 0x120000 then
    s.readConfig ((off - 0x100000) / 0x1000) ((off - 0x100000) % 0x1000)
  else 0

end State

/-! ## Events -/

/-- PCTL_SWITCH (R475): a write of PCTL, which is taken. -/
def execPctlSwitch (p : Nat) (s : State) : Answer := .next (s.writeConfig p 0 4 1)

/-- PCTL_RESUME (R475). -/
def execPctlResume (p : Nat) (s : State) : Answer := .next (s.writeConfig p 0 4 2)

/-- REPLAY (R133). -/
def execReplayAns (p slot : Nat) (s : State) : Answer := .next (s.answer p slot 0)

/-- DELIVER (R133). -/
def execDeliverAns (p slot : Nat) (s : State) : Answer := .next (s.answer p slot 1)

/-- KILL_TEAM (R133). -/
def execKillTeam (p slot : Nat) (s : State) : Answer := .next (s.answer p slot 2)

/-- KILL_LAUNCH (R133). -/
def execKillLaunch (p slot : Nat) (s : State) : Answer := .next (s.answer p slot 3)

/-- CCANCEL (R470). -/
def execCcancel (p : Nat) (v : Word) (s : State) : Answer := .next (s.writeCcancel p v)

/-- WPTR (R472). -/
def execWptr (p q : Nat) (v : Word) (s : State) : Answer := .next (s.ownQueue p q fun s => s.writeWptr q v)

/-- QCFG (R472). -/
def execQcfg (p q : Nat) (v : Word) (s : State) : Answer := .next (s.ownQueue p q fun s => s.writeQcfg q v)

/-- QREF (R470). -/
def execQref (p q : Nat) (s : State) : Answer := .next (s.readQref p q)

/-- QWAKE (R470). -/
def execQwake (p q : Nat) (s : State) : Answer := .next (s.readQwake p q)

/-- REGISTER_WRITE (R449, R470, R474, R475). -/
def execRegisterWrite (r : RegSpace) (off size : Nat) (v : DWord) (s : State) : Answer :=
  .next (match r with
    | .window => s.byFirmware fun s => s.windowWrite off (loWord v)
    | .vf p => s.writeVf p off size v
    | .pf => s.writePf off size v)

end Sys2Proof.Machine
end

