-- ==== Sys2Proof/Machine/MemOps.lean ====
section
/-! DEFINITION. LD and ST, on device memory and on the management window (spec/09 R225-R229; spec/20 R449). -/

namespace Sys2Proof.Machine

namespace State

/-- The checks of an LD or ST in their order, and the place of each active lane: POISON of the offset, then of the data,
ALIGN, then translation (R227). -/
def devPlaces (s : State) (b o n : Nat) (data : List Nat) (need : Need) : Except Stop (List LaneAddr × List (Nat × Place)) :=
  let as := s.baseAddrs b o s.actLanes
  match s.noPoison [o] as with
  | .error e => .error e
  | .ok _ => match s.noPoison data as with
    | .error e => .error e
    | .ok _ => match aligned as n with
      | .error e => .error e
      | .ok _ => match s.placeAll need n as with
        | .error e => .error e
        | .ok ps => .ok (as, ps)

/-- One lane's load: its result registers with the poison of the line (R227); a window register carries none (R449). -/
def loadLane (s : State) (n : Nat) (sx home : Bool) : Place → List Lane × State
  | .mem pa =>
    let r := if home then s.loadHome s.cur.wid pa n else s.loadDev s.cur.wid pa n
    ((loadWords n sx r.1).map fun v => ⟨v, r.2.1⟩, r.2.2)
  | .win off => ([⟨s.windowRead off, false⟩], s)

/-- The loads of some lanes, in turn. -/
def loadLanes (n : Nat) (sx home : Bool) : List (Nat × Place) → State → List (Nat × List Lane) × State
  | [], s => ([], s)
  | (i, p) :: rest, s =>
    let x := s.loadLane n sx home p
    let y := loadLanes n sx home rest x.2
    ((i, x.1) :: y.1, y.2)

/-- The scope of an order qualifier: 2 for DIE, 3 for PKG (R228). -/
def ordScope (r : Nat) : Nat := if r = 3 then scopePkg else scopeDie

end State

/-- LD (R227, R229): with .ACQ it is an acquire at its scope, made before it reads (R261). -/
def execLd (h : Hdr) (d o : BitVec 6) (b : BitVec 4) (z : BitVec 3) (x : BitVec 1) (r : BitVec 2) (s : State) : Answer :=
  let n := 2 ^ z.toNat
  .next (s.pathRegStep h [o.toNat] fun s => match s.devPlaces b.toNat o.toNat n [] .read with
    | .error e => .error e
    | .ok (as, ps) =>
      let u := (s.rd o.toNat).isU
      let t := if 2 ≤ r.toNat then s.acquireAt (State.ordScope r.toNat) (placeLines ps) else s
      let y := State.loadLanes n (x == 1) (r == 3) (oneLane u ps false) t
      let reqs := s.requestCount (s.rd o.toNat) n as
      .ok (s.loadRes d.toNat (dataRegs n) u y.1, y.2.usePath reqs reqs))

/-- ST (R227-R229): its bytes enter the warp's store queue in ascending lane order, as a release with .REL; a window
register is written at once (R449). -/
def execSt (h : Hdr) (d o : BitVec 6) (b : BitVec 4) (z : BitVec 3) (r : BitVec 2) (s : State) : Answer :=
  let n := 2 ^ z.toNat
  let data := (List.range (dataRegs n)).map (d.toNat + ·)
  .next (s.pathStep h (o.toNat :: data) fun s => match s.devPlaces b.toNat o.toNat n data .write with
    | .error e => .error e
    | .ok (as, ps) =>
      let op (pa : Nat) (bytes : List Byte) : StoreOp :=
        if 2 ≤ r.toNat then .rel (State.ordScope r.toNat) pa bytes else .dev pa bytes
      let put (t : State) (p : Nat × Place) : State := match p.2 with
        | .mem pa => t.queueStores s.cur.wid ((units (s.storeBytes d.toNat n p.1)).map fun x => op (pa + x.1) x.2)
        | .win off =>
          let t := if 2 ≤ r.toNat then t.release s.cur.wid (State.ordScope r.toNat) else t
          t.windowWrite off ((s.rd d.toNat).lane p.1).val
      let reqs := s.requestCount (s.rd o.toNat) n as
      .ok (((oneLane (s.rd o.toNat).isU ps true).foldl put s).usePath reqs reqs))

end Sys2Proof.Machine
end

