-- ==== Sys2Proof/Machine/Keccak.lean ====
section
/-! DEFINITION. SHA3-256, the hash by which firmware is measured and the partition configuration reported (spec/21 R478,
R481, R483): the function of FIPS 202, which the spec names (log 17). -/

namespace Sys2Proof.Machine

namespace Keccak

/-- Lane (x, y) of a state of 25 lanes. -/
def lane (a : List (BitVec 64)) (x y : Nat) : BitVec 64 := a.getD (x % 5 + 5 * (y % 5)) 0

/-- A state from its lanes. -/
def build (f : Nat → Nat → BitVec 64) : List (BitVec 64) := (List.range 25).map fun i => f (i % 5) (i / 5)

/-- The lanes other than (0, 0), in the order in which rho visits them: from (x, y) to (y, 2 x + 3 y). -/
def visits : Nat → Nat → Nat → List (Nat × Nat)
  | 0, _, _ => []
  | n + 1, x, y => (x, y) :: visits n y ((2 * x + 3 * y) % 5)

/-- How far rho turns lane (x, y): the t-th lane that it visits, from 0, by the sum of 1 to t + 1. -/
def turn (x y : Nat) : Nat :=
  if x % 5 + y % 5 = 0 then 0 else (List.range ((visits 24 1 0).idxOf (x % 5, y % 5) + 2)).sum % 64

/-- A step of the shift register of iota, whose polynomial is x^8 + x^6 + x^5 + x^4 + 1. -/
def shifted (r : Nat) : Nat := if 128 ≤ r then 2 * r ^^^ 0x171 else 2 * r

/-- Its state after n steps. -/
def register : Nat → Nat
  | 0 => 1
  | n + 1 => shifted (register n)

/-- What iota adds in round i: bit 2^l - 1 is output bit 7 i + l of the shift register. -/
def iota (i : Nat) : BitVec 64 :=
  BitVec.ofNat 64 ((List.range 7).map fun l => register (7 * i + l) % 2 * 2 ^ (2 ^ l - 1)).sum

/-- The parity of column x. -/
def parity (a : List (BitVec 64)) (x : Nat) : BitVec 64 :=
  lane a x 0 ^^^ lane a x 1 ^^^ lane a x 2 ^^^ lane a x 3 ^^^ lane a x 4

/-- One round: theta, rho and pi, chi, iota. -/
def round (a : List (BitVec 64)) (i : Nat) : List (BitVec 64) :=
  let c := (List.range 5).map (parity a)
  let t := build fun x y => lane a x y ^^^ (c.getD ((x + 4) % 5) 0 ^^^ (c.getD ((x + 1) % 5) 0).rotateLeft 1)
  let b := build fun x y => (lane t (x + 3 * y) x).rotateLeft (turn (x + 3 * y) x)
  let n := build fun x y => lane b x y ^^^ (~~~lane b (x + 1) y &&& lane b (x + 2) y)
  (lane n 0 0 ^^^ iota i) :: n.drop 1

/-- The permutation of 24 rounds. -/
def permute (a : List (BitVec 64)) : List (BitVec 64) := (List.range 24).foldl round a

/-- Bytes in one block of SHA3-256. -/
def rate : Nat := 136

/-- A message with the suffix 01 and the padding 10*1. -/
def pad (m : List Byte) : List Byte :=
  let q := rate - m.length % rate
  if q = 1 then m ++ [0x86#8] else m ++ 0x06#8 :: List.replicate (q - 2) 0#8 ++ [0x80#8]

/-- A block is absorbed. -/
def absorb (a : List (BitVec 64)) (block : List Byte) : List (BitVec 64) :=
  permute (a.zipIdx.map fun x =>
    if x.2 < 17 then x.1 ^^^ BitVec.ofNat 64 (leNat ((block.drop (8 * x.2)).take 8)) else x.1)

/-- `n` blocks are absorbed. -/
def absorbAll : Nat → List Byte → List (BitVec 64) → List (BitVec 64)
  | 0, _, a => a
  | n + 1, m, a => absorbAll n (m.drop rate) (absorb a (m.take rate))

end Keccak

/-- SHA3-256 of a byte string, 32 bytes. -/
def sha3 (m : List Byte) : List Byte :=
  let p := Keccak.pad m
  ((Keccak.absorbAll (p.length / Keccak.rate) p (List.replicate 25 0)).take 4).flatMap dwordBytes

end Sys2Proof.Machine
end

