-- ==== Sys2Proof/Machine/System.lean ====
section
/-! DEFINITION. Firmware, code objects and attestation, containment of errors, host and peer accesses, links, and power-up
(spec/21 R468, R474-R485; spec/02 R53, R54; spec/10 R256, R257, R274). -/

namespace Sys2Proof.Machine

/-! ## Stores and die caches (R256, R257) -/

/-- STORE_PERFORM (R256): entry k of a core order is performed, if no older one touches its line. -/
def execStorePerform (core k : Nat) (s : State) : Answer := .next (s.storeLeaves core k)

/-- DIE_CACHE_WRITEBACK (R257): a line's dirty bytes enter its home order; with `drop` the die cache then gives the line
up. -/
def execDieCacheWriteback (die line : Nat) (drop : Bool) (s : State) : Answer :=
  .next (
    let t := s.writeBackLine die line
    if drop then t.dropLine die line else t)

/-! ## Firmware (R481, R482) -/

namespace State

/-- The management cores are in reset: they stop, and the wake registers are lost (R482). -/
def resetMgmt (s : State) : State :=
  (List.range 4).foldl (fun s d => s.modDie d fun k => { k with mgRun := false, wakeReg := 0 }) s

/-- A management core at firmware entry (R31, R60, R448). -/
def enterFirmware (s : State) (img : FwImage) (d : Nat) : State :=
  let s := s.setWarp (mgmtWid d)
    { Warp.init with
      nlanes := 1, b := [(0, BitVec.ofNat 64 Config.window)],
      gangs := [(0, { Gang.launch 1 img.entry with nextAt := s.nowOf (mgmtWid d), since := s.nowOf (mgmtWid d) })], slices := [(0, ⟨1, []⟩)],
      wstart := s.gtime }
  s.modDie d fun k => { k with mgRun := true, mgfault := List.replicate 40 0#8 }

/-- FWSTAT: RUN, VERIFY-FAIL, SVN-FAIL (R474). -/
def setFwstat (s : State) (v : BitVec 3) : State := { s with host := { s.host with fwstat := v } }

/-- No cache holds an old copy of the lines of a freshly placed image (R479, R481). -/
def freshLines (s : State) (pa n : Nat) : State :=
  let old (line : Nat) : Bool := decide (pa / 64 ≤ line ∧ 64 * line < pa + n)
  { s with cores := s.cores.map fun e => (e.1, { e.2 with icache := e.2.icache.filter fun x => !old x.1 }),
           dies := s.dies.map fun e => (e.1, { e.2 with cache := e.2.cache.filter fun x => !old x.1 }) }

/-- The image stands in memory, on pages of the management cores (log 33). -/
def placeFirmware (s : State) (img : FwImage) : State :=
  (List.range ((img.body.length + 65535) / 65536)).foldl (fun s k =>
    s.installPage { part := 32, va := img.va + 65536 * k, size := 65536, pa := img.pa + 65536 * k,
                    read := true, write := true, exec := true, svn := none })
    ((s.homeWrite img.pa img.body).freshLines img.pa img.body.length)

/-- FIRMWARE_LOAD (R481), of an image that memory can hold. -/
def loadFirmware (s : State) (img : FwImage) : State :=
  if !Config.backed img.pa img.body.length then s else
  let s := s.resetMgmt
  if !Config.verifies img.body img.sig then s.setFwstat 2#3
  else if Config.firmwareSvn img.body < s.host.fsvn then s.setFwstat 4#3
  else
    let s := (s.setFwstat 1#3).placeFirmware img
    let s := { s with host := { s.host with measurement := sha3 img.body, fwSvn := Config.firmwareSvn img.body, hbeat := 0,
                                            hbeatAt := s.gtime } }
    (List.range 4).foldl (fun s d => s.enterFirmware img d) s

end State

/-- FIRMWARE_LOAD (R481). -/
def execFirmwareLoad (img : FwImage) (s : State) : Answer := .next (s.loadFirmware img)

/-- The primary management core, while it runs, writes its heartbeat (R474, R482): the spec does not say by which access
(log 52). A miss until now is one. -/
def State.beat (s : State) (v : Word) : State :=
  if (s.getDie 0).mgRun then { s.fwdog with host := { s.fwdog.host with hbeat := v, hbeatAt := s.gtime } } else s

/-- FWDOG (R482): the heartbeat of loaded firmware is 100 ms late. -/
def execFwdog (s : State) : Answer := .next s.fwdog

/-! ## Attestation (R483) -/

/-- The configuration of a partition, register by register in the order of their offsets (R475; log 34). -/
def State.configBytes (s : State) (p : Nat) : List Byte :=
  let wide (l : List Nat) : List Byte := l.flatMap fun r => wordBytes (s.readConfig p r) ++ wordBytes (s.readConfig p (r + 4))
  (([4, 8, 0xC].flatMap fun r => wordBytes (s.readConfig p r)) ++ wide [0x10, 0x18]) ++
    wide ((List.range 24).map fun k => 0x40 + 8 * k) ++ (List.range 24).flatMap fun m => wordBytes (s.readConfig p (0x100 + 4 * m))

/-- The signed bytes of a report. -/
def State.reportBody (s : State) (nonce : List Byte) : List Byte :=
  nonce ++ s.host.measurement ++ leBytes 4 s.host.fwSvn ++ leBytes 4 (s.host.fsvn % 128 + 256 * (s.host.osvn % 128)) ++
    sha3 ((List.range 32).flatMap s.configBytes)

/-- ATTESTATION_REQUEST (R483), with a nonce of 32 bytes. -/
def execAttestationRequest (nonce : List Byte) (s : State) : Answer :=
  .next (if nonce.length = 32 then
      s.send (.report (s.reportBody nonce ++ leBytes 3309 (Config.signature (s.reportBody nonce)).toNat))
    else s)

/-! ## Code objects (R53, R54, R478-R480) -/

/-- Bytes of a signature. -/
def sigBytes : Nat := 3309
/-- The bytes that an object's signature covers, and the signature. -/
def objSigned (o : CodeObject) : List Byte := o.bytes.take (o.bytes.length - sigBytes)
def objSig (o : CodeObject) : List Byte := o.bytes.drop (o.bytes.length - sigBytes)
/-- SVN, relocation entries, and the offset of their table in the object. -/
def objSvn (o : CodeObject) : Nat := fieldAt o.bytes 8 4
def objNRelocs (o : CodeObject) : Nat := fieldAt o.bytes 0xC 4
def objRelocAt (o : CodeObject) : Nat := fieldAt o.bytes 0x18 8
/-- The image, which follows the header of 0x50 bytes. -/
def objImage (o : CodeObject) : List Byte := (o.bytes.drop 0x50).take (fieldAt o.bytes 0x10 8)
/-- The relocation entries (R54). -/
def objRelocs (o : CodeObject) : List DWord :=
  (List.range (objNRelocs o)).map fun k => BitVec.ofNat 64 (fieldAt o.bytes (objRelocAt o + 8 * k) 8)

/-- Is the header the one that R478 describes, with the image and the relocation table in the signed bytes? The table's offset
counts from the start of the object (log 34). -/
def objHeaderOk (o : CodeObject) : Bool :=
  let b := o.bytes
  decide (0x50 + sigBytes ≤ b.length) && fieldAt b 0 4 == 0x53594F31 && fieldAt b 4 4 % 256 == 1 &&
    decide (fieldAt b 4 4 < 512) && decide (objSvn o ≤ 64) && fieldAt b 0x44 12 == 0 &&
    decide (0x50 + fieldAt b 0x10 8 ≤ (objSigned o).length) &&
    decide (objRelocAt o + 8 * objNRelocs o ≤ (objSigned o).length)

/-- A marked coordinate as the loader rewrites it for the sites of a die; none when the image is refused (R53). -/
def relocCoord (sites : Nat → List Nat) (x : Nat) : Option Nat :=
  let unit := x % 64
  let col := x / 64 % 16
  let row := x / 1024 % 16
  let die := x / 16384 % 4
  if unit = 60 then (if row = 0 ∧ col = 0 then some x else none)
  else if 14 ≤ col then none
  else
    let n := row / 2 * 7 + col / 2
    if 48 ≤ n then none
    else
      let site := (sites die).getD n 0
      some (die * 16384 + (2 * (site / 7) + row % 2) * 1024 + (2 * (site % 7) + col % 2) * 64 + unit)

/-- Offset of the halfword that a relocation entry names; none when the loader refuses the image (R54). The spec does not say
what the loader does with a ZERO field that is not zero: it is ignored (DESIGN CHOICE, log 34). -/
def relocOffset (size : Nat) (e : DWord) : Option Nat :=
  let off := (loWord e).toNat
  let at' := if e.getLsbD 32 then off else off + 2
  if e.getLsbD 33 || decide (size ≤ off) || decide (size < at' + 2) then none else some at'

/-- The image after its relocations (R53, R54), made one after another, each on what the earlier ones left; the halfword that an
entry names is rewritten whatever instruction stands there (DESIGN CHOICE, log 34). -/
def relocate (sites : Nat → List Nat) : List DWord → List Byte → Option (List Byte)
  | [], b => some b
  | e :: rest, b => match relocOffset b.length e with
    | none => none
    | some o => match relocCoord sites (fieldAt b o 2) with
      | none => none
      | some c => relocate sites rest (b.take o ++ leBytes 2 c ++ b.drop (o + 2))

namespace State

/-- The k-th page of an object, with execute permission. -/
def boundPage (o : CodeObject) (k : Nat) : Page :=
  { part := o.part, va := o.va + k * o.pageSize, size := o.pageSize, pa := o.pa + k * o.pageSize,
    read := true, write := false, exec := true, svn := some (objSvn o) }

/-- The pages of an object. -/
def bindPages (s : State) (o : CodeObject) : State :=
  (List.range (((objImage o).length + o.pageSize - 1) / o.pageSize)).foldl (fun s k => s.installPage (boundPage o k)) s

/-- BIND (R479): signature, SVN, then the image is relocated and placed, on pages of the part. -/
def bind (s : State) (o : CodeObject) : State :=
  if !objHeaderOk o || !Config.verifies (objSigned o) (objSig o) || decide (objSvn o < s.host.osvn) ||
      !pageFits (boundPage o 0) || !Config.backed o.pa (objImage o).length then s
  else match relocate (fun d => (s.getDie d).sites) (objRelocs o) (objImage o) with
    | none => s
    | some b =>
      ((s.homeWrite o.pa b).freshLines o.pa b.length).bindPages o

/-- Does a page hold code of an object whose SVN is below v? -/
def stalePage (v : Nat) (p : Page) : Bool := p.svn.any fun n => decide (n < v)

/-- The objects whose SVN is below v are unbound: by a shoot-down, which every access that passed their translations precedes,
their pages lose execute permission, those too that only a cluster's buffer still holds (R224, R480). -/
def unbind (s : State) (v : Nat) : State :=
  let old := (s.pages ++ s.clusters.flatMap fun e => e.2.tlb).filter (stalePage v)
  let s := old.foldl settlePage s
  let s := old.foldl (fun s p => s.purgePage p.part p.va) s
  { s with pages := s.pages.map fun p => if stalePage v p then { p with exec := false, svn := none } else p }

/-- OSVN_ADVANCE (R480): it never decreases, and stale objects are unbound before it advances. -/
def advanceOsvn (s : State) (v : Nat) : State :=
  if v ≤ s.host.osvn ∨ 64 < v then s
  else
    let s := s.unbind v
    { s with host := { s.host with osvn := v } }

end State

/-- BIND (R479). -/
def execBindObject (o : CodeObject) (s : State) : Answer := .next (s.bind o)

/-- OSVN_ADVANCE (R480). -/
def execOsvnAdvance (v : Nat) (s : State) : Answer := .next (s.advanceOsvn v)

/-- PAGE_SHOOTDOWN (R224): every access that passed the page's translation completes, and the translation is gone. -/
def execPageShootdown (part va : Nat) (s : State) : Answer :=
  .next (
    let t := (s.pages.filter fun p => p.part == part && p.va == va).foldl State.settlePage s
    { t.purgePage part va with pages := t.pages.filter fun p => !(p.part == part && p.va == va) })

/-! ## Links (R468, R477) -/

/-- LINK_DOWN (R477). -/
def execLinkDown (peer : Nat) (s : State) : Answer :=
  .next (if s.host.down.contains peer then s else { s with host := { s.host with down := s.host.down ++ [peer] } })

/-! ## Containment (R130, R484) -/

namespace State

/-- A warp of a core with FATAL is parked with a record of its first gang, unless it is parked already (R127; log 35). -/
def fatalWarp (s : State) (wid : Nat) : State :=
  match (s.getWarp wid).gangs with
  | e :: _ => if (s.getWarp wid).fault.isSome then s
      else s.parkFault wid (s.faultRec wid e.1 cFATAL 0 false e.2.pc 0 0 0 ((s.getWarp wid).activeOf e.2))
  | [] => s

/-- FATAL on a core: SNAP is set with it, and its warps are parked with their records (R127, R130). -/
def fatalCore (s : State) (core : Nat) : State :=
  (s.widsOn core).foldl fatalWarp ((s.modCore core fun k => { k with fatal := true }).snapCore core)

/-- A team is killed for a FATAL of its core: its error word receives the code (R133, R484; log 35). -/
def killFatal (s : State) (team : Nat) : State := (s.teamError team 0 0 cFATAL 0).stopTeam team

/-- An error of a core unit: FATAL on that core, PEVT.FATAL, and the teams on the core are killed (R484). -/
def coreFatal (s : State) (core : Nat) : State :=
  let s := (s.fatalCore core).raiseEvent 3
  ((s.teams.filter fun e => e.2.core == core && e.2.status == .resident).map (·.1)).foldl killFatal s

/-- An error of the dispatcher or the fabric: FATAL on every core, and PEVT.FATAL (R484). -/
def packageFatal (s : State) : State := ((List.range 768).foldl fatalCore s).raiseEvent 3

end State

/-- FATAL (R484). -/
def execFatalErr (core : Option Nat) (s : State) : Answer :=
  .next (match core with
    | some c => s.coreFatal c
    | none => s.packageFatal)

/-- LINK_RETRY_EXHAUSTED (R468): a package error (R484). -/
def execLinkRetryExhausted (s : State) : Answer := .next s.packageFatal

namespace State

/-- An uncorrectable error in state of a warp that holds no poison: the ECC system fault in gang g (R127, R484). -/
def eccFault (s : State) (wid g : Nat) : State :=
  let w := s.getWarp wid
  match w.gangs.find? g with
  | none => s
  | some e =>
    if w.ended || w.fault.isSome then s
    else s.parkFault wid (s.faultRec wid g cECC 0 false e.pc 0 0 0 (w.activeOf e))

/-- An uncorrectable error in an engine operation that is not held back by its guard: it fails (R134, R484; log 68). An RPDONE
that has begun to write has no error (R389). -/
def opError (s : State) (cmd : Nat) : State :=
  match s.allCmds.find? fun c => c.id == cmd && (c.guard == .none || c.guard == .goes) && !(c.kind == .rpdone && c.started) with
  | some c => (s.removeCmd cmd).failCmd c (BitVec.ofNat 8 (1 + (Config.engSub cmd).val), Config.engAddr cmd)
  | none => s

end State

/-- A line of memory is found uncorrectable (R236, R485). -/
def State.badLine (s : State) (n : Nat) : State := if Config.backed (64 * n) 64 then s.setHomePoison n true else s

/-- UNCORRECTABLE_ERROR (R127, R236, R237, R484). -/
def execUncorrectableError (place : ErrorPlace) (s : State) : Answer :=
  .next (match place with
    | .line n => s.badLine n
    | .scratchWord team word => s.modTeam team fun t => if 4 * word < t.size then t.setSpPoison word true else t
    | .warpState wid g => s.eccFault wid g
    | .engineOp cmd => s.opError cmd)

/-- PATROL_SCRUB (R485): the lines that it finds uncorrectable are poisoned; it never clears poison. -/
def execPatrolScrub (lines : List Nat) (s : State) : Answer :=
  .next (lines.foldl State.badLine s)

/-- DRAM_CALIBRATION (R485): it reaches programs only as latency. -/
def execDramCalibration (_ : Nat) (s : State) : Answer := .next s

/-- TELEMETRY_SAMPLE (R485): every 1 ms; it changes no value. -/
def execTelemetrySample (s : State) : Answer :=
  .next (if s.gtime < s.host.sampledAt + 1000000 then s else { s with host := { s.host with sampledAt := s.gtime } })

/-! ## The reset of a core (R130, R343, R380, R387) -/

/-- The first k bytes of an encoded block are written; a block that is not whole has its scale byte written as 0x20
(R343). -/
def Cmd.tornBlock (c : Cmd) (first : Bool) (k : Nat) (t : Team) (b : Nat) : Team :=
  if 17 ≤ k then c.writeBlock first t b
  else
    let e := c.encoded first b
    let t := (((codeBytes e.codes).take k).zipIdx).foldl (fun t x => t.engBytes (off21 (c.word 0) + 16 * b + x.2) [x.1] false) t
    t.engBytes (off21 (c.word 1) + b) [0x20#8] false

/-- The blocks of a torn QST, of which n bytes had been written, and the outcome (R343). -/
def Cmd.tornBlocks (c : Cmd) (first : Bool) : Nat → List Nat → Team → Team × Option EngFault
  | _, [], t => (t, none)
  | n, b :: rest, t =>
    let r := c.tornBlocks first (n - 17) rest (c.tornBlock first n t b)
    (r.1, if n < 17 then some (eSELC, BitVec.ofNat 64 (off21 (c.word 1) + b)) else r.2)

namespace State

/-- A QST in flight is torn by the reset of its pipe (R343). -/
def tearQst (s : State) (c : Cmd) (first : Bool) : State :=
  match s.getTeam? c.team with
  | none => s
  | some t => s.endXf c t fun t => .ok (c.tornBlocks first (Config.tornAt c.id % (17 * c.blocks.length)) c.blocks t)

/-- The reset of the transform pipe: the QST on which it works is in flight (log 12). -/
def resetPipe (s : State) (core : Nat) : State :=
  match (s.getCore core).xfQ.head? with
  | some c => match c.kind with
    | .qst first => if c.started then s.tearQst c first else s
    | _ => s
  | none => s

/-- A KVSPL in flight either published its table before its unit was reset, and runs on, or is stopped: TPTR is
unchanged, the bytes at NEWT are undefined, and it fails as by R487 (R380; logs 12, 36). -/
def resetTable (s : State) (core : Nat) : State :=
  match (s.getCore core).kvQ.head? with
  | some c => match c.kind with
    | .kvspl =>
      if Config.tornAt c.id % 2 = 0 ∨ c.poison ∨ c.splBad then s
      else ((s.removeCmd c.id).freeBytes c c.newt (16 + 16 * (c.word 9).toNat)).failCmd c (eCOPY, c.newt)
    | _ => s
  | none => s

/-- An RPSCAN in flight is stopped after the writes that it has made, or runs on (R387; logs 12, 36). -/
def resetRepair (s : State) (core : Nat) : State :=
  match (s.getCore core).rpQ.head? with
  | some c => if Config.tornAt c.id % 2 = 0 then s else (s.removeCmd c.id).failCmd c (eCOPY, 0)
  | none => s

end State

/-- CORE_RESET (R130, R484): by the runtime, after FATAL. -/
def execCoreReset (core : Nat) (s : State) : Answer :=
  .next (if (s.getCore core).fatal then
      (((s.modCore core fun k => { k with fatal := false }).resetPipe core).resetTable core).resetRepair core
    else s)

/-! ## Accesses of the host and of peers (R274, R476) -/

/-- What an atomic of the host or a peer writes (R274). -/
def atomicResult (a : MemAccess) (old : Nat) : Option (List Byte) :=
  match a with
  | .addAtomic _ n v => some (leBytes n (old + v.toNat))
  | .swapAtomic _ n v => some (leBytes n v.toNat)
  | .casAtomic _ n c v => if old = c.toNat % 2 ^ (8 * n) then some (leBytes n v.toNat) else none
  | _ => none

/-- Address and bytes of an access. -/
def accessSpan (a : MemAccess) : Nat × Nat :=
  match a with
  | .read pa n => (pa, n)
  | .write pa b => (pa, b.length)
  | .addAtomic pa n _ => (pa, n)
  | .swapAtomic pa n _ => (pa, n)
  | .casAtomic pa n _ _ => (pa, n)

/-- Are the bytes the access writes given whatever memory holds? -/
def storedData (a : MemAccess) : Option (List Byte) :=
  match a with
  | .write _ b => some b
  | _ => none

namespace State

/-- An access to memory is performed at the home of its lines; a read and an atomic return what the memory held. -/
def outside (s : State) (a : MemAccess) : State :=
  let x := accessSpan a
  let old := s.homeRead x.1 x.2
  if !Config.backed x.1 x.2 then s else
  match storedData a with
  | some b => s.homeWrite x.1 b
  | none =>
    let t := match atomicResult a (leNat old) with
      | some b => s.homeWrite x.1 b
      | none => s
    t.send (.data old)

end State

/-- HOST_ACCESS (R274, R468). -/
def execHostAccess (a : MemAccess) (s : State) : Answer := .next (s.outside a)

/-- PEER_ACCESS (R476): this part's memory, unless every port to the peer is down (R477). -/
def execPeerAccess (peer : Nat) (a : MemAccess) (s : State) : Answer :=
  .next (if s.host.down.contains peer || decide (Config.hostBase ≤ (accessSpan a).1) then s else s.outside a)

/-! ## Power-up (R394, R450, R475) -/

/-- POWER_UP: everything takes its reset value but the fuses (R12, R474), what the host and the peers hold, the messages
already sent and the model's agenda. -/
def execPowerUp (s : State) : Answer :=
  .next { State.reset with
    dies := s.dies.map fun e => (e.1, { Die.init with sites := e.2.sites })
    host := { HostRegs.init with osvn := s.host.osvn, fsvn := s.host.fsvn, down := s.host.down, messages := s.host.messages }
    mem := s.mem.filter fun c => decide (Config.hostBase ≤ c.1)
    poison := s.poison.filter fun l => decide (Config.hostBase ≤ 64 * l)
    agenda := s.agenda
    fresh := s.fresh }

end Sys2Proof.Machine
end

