-- ==== Sys2Proof/Machine/TileBarrier.lean ====
section
/-! DEFINITION. Tile barriers (spec/12 R300-R307). -/

namespace Sys2Proof.Machine

namespace State

/-- Barrier k of the team: PERM when it is not granted, or, if asked, when EXP is 0 (R301). -/
def grantedBar (s : State) (k : Nat) (valid : Bool) : Except Stop TileBar :=
  match s.team? with
  | none => .error (s.trapAct cPERM)
  | some t =>
    if t.nbar ≤ k then .error (s.trapAct cPERM)
    else if valid && (t.bar k).exp == 0 then .error (s.trapAct cPERM)
    else .ok (t.bar k)

/-- The team's barrier k becomes b. -/
def setBar (s : State) (k : Nat) (b : TileBar) : State := s.modTeam s.w.team fun t => t.setBar k b

/-- A warp's arrival on barrier k, a release at CORE (R259, R301). -/
def arriveAt (s : State) (k : Nat) : State :=
  let s := s.release s.cur.wid scopeCore
  s.modTeam s.w.team fun t => t.setBar k (t.bar k).arrive

end State

/-- TBINIT (R302). Of several traps, PERM for the barrier comes first (DESIGN CHOICE, log 70). -/
def execTbinit (h : Hdr) (a k : BitVec 6) (s : State) : Answer :=
  .next (s.unitStep 3 h fun s => match s.grantedBar k.toNat false with
    | .error e => .error e
    | .ok b => match s.rdU a.toNat with
      | .error e => .error e
      | .ok v =>
        if v = 0 ∨ 65535 < v.toNat ∨ b.arr ≠ 0 ∨ b.pend ≠ 0 then .error (s.trapAct cPERM)
        else .ok (s.setBar k.toNat { b with exp := v.toNat }))

/-- TBARR (R303). -/
def execTbarr (h : Hdr) (d k : BitVec 6) (s : State) : Answer :=
  .next (s.unitRegStep 3 h (.sched 4) fun s => match s.grantedBar k.toNat true with
    | .error e => .error e
    | .ok b => .ok ([s.res d.toNat (.u b.phase false)], s.arriveAt k.toNat))

/-- The phase that register n names: the barrier's checks, then SHAPE and POISON (R301, R304). -/
def State.phaseArg (s : State) (k n : Nat) (valid : Bool) : Except Stop (TileBar × Word) :=
  match s.grantedBar k valid with
  | .error e => .error e
  | .ok b => match s.rdU n with
    | .error e => .error e
    | .ok p => .ok (b, p)

/-- Is phase p of barrier k of the current team passed (R301)? -/
def State.barPassed (s : State) (k : Nat) (p : Word) : Bool :=
  passed ((s.team?.map fun t => (t.bar k).phase).getD 0) p

/-- TBWAIT or BAR issues: it waits for phase p of barrier k, or returns at once as an acquire at CORE (R304, R305). -/
def State.barrierWait (s : State) (h : Hdr) (k : Nat) (p : Word) (x : Wait) : State :=
  if s.barPassed k p then ((s.acquire s.cur.wid scopeCore).debitW 1).retire h else s.issueWait h x

/-- The wait on barrier k for phase p ends, as an acquire at CORE, or goes on; the gang issues 3 cycles later (R307). -/
def State.barrierOver (s : State) (k : Nat) (p : Word) (x : Wait) : State :=
  if s.barPassed k p then (s.acquire s.cur.wid scopeCore).endWait 3 else s.waitOn x

/-- TBWAIT (R304): EXP is checked when it issues, not while it waits (R306). Of several traps, PERM for the
barrier comes first (DESIGN CHOICE, log 70). -/
def execTbwait (h : Hdr) (a k : BitVec 6) (s : State) : Answer :=
  .next (match s.gang.wait with
    | some (.tb _ p) => s.barrierOver k.toNat p (.tb k.toNat p)
    | _ => s.whenTaken 3 fun s => match s.phaseArg k.toNat a.toNat true with
      | .error e => s.stopWith e
      | .ok (_, p) => (s.takeUnit 3 1).barrierWait h k.toNat p (.tb k.toNat p))

/-- TBTRY (R304). Of several traps, PERM for the barrier comes first (DESIGN CHOICE, log 70). -/
def execTbtry (h : Hdr) (d a k : BitVec 6) (s : State) : Answer :=
  .next (s.unitRegStep 3 h (.sched 4) fun s => match s.phaseArg k.toNat a.toNat true with
    | .error e => .error e
    | .ok (b, p) =>
      if passed b.phase p then .ok ([s.res d.toNat (.u 1 false)], s.acquire s.cur.wid State.scopeCore)
      else .ok ([s.res d.toNat (.u 0 false)], s))

/-- BAR (R305): it arrives once, and waits for the phase it found. -/
def execBar (h : Hdr) (k : BitVec 6) (s : State) : Answer :=
  .next (match s.gang.wait with
    | some (.bar _ p) => s.barrierOver k.toNat p (.bar k.toNat p)
    | _ => s.whenTaken 3 fun s => match s.grantedBar k.toNat true with
      | .error e => s.stopWith e
      | .ok b => (((s.takeUnit 3 1).arriveAt k.toNat).barrierWait h k.toNat b.phase (.bar k.toNat b.phase)).notBefore 3)

/-- TBINV (R306). -/
def execTbinv (h : Hdr) (k : BitVec 6) (s : State) : Answer :=
  .next (s.unitStep 3 h fun s => match s.grantedBar k.toNat false with
    | .error e => .error e
    | .ok b =>
      if b.pend ≠ 0 then .error (s.trapAct cPERM)
      else .ok ((s.release s.cur.wid State.scopeCore).setBar k.toNat { b with exp := 0, arr := 0, phase := b.phase + 1 }))

end Sys2Proof.Machine
end

