-- ==== Sys2Proof/Machine/Dispatch.lean ====
section
/-! DEFINITION. The meaning of each instruction and event, one arm for each constructor. -/

namespace Sys2Proof.Machine

def exec (i : Instr) (s : State) : Host.Outcome State Fault Refusal :=
  match i with
  | .nop h => Sys2Proof.Machine.execNop h s
  | .exit h => Sys2Proof.Machine.execExit h s
  | .join h => Sys2Proof.Machine.execJoin h s
  | .loopx h => Sys2Proof.Machine.execLoopx h s
  | .isync h => Sys2Proof.Machine.execIsync h s
  | .ret h a => Sys2Proof.Machine.execRet h a s
  | .regang h a => Sys2Proof.Machine.execRegang h a s
  | .bra h o => Sys2Proof.Machine.execBra h o s
  | .brc h p n o => Sys2Proof.Machine.execBrc h p n o s
  | .brcAny h p n o => Sys2Proof.Machine.execBrcAny h p n o s
  | .brcAll h p n o => Sys2Proof.Machine.execBrcAll h p n o s
  | .call h o => Sys2Proof.Machine.execCall h o s
  | .split h o => Sys2Proof.Machine.execSplit h o s
  | .loopReg h c e => Sys2Proof.Machine.execLoopReg h c e s
  | .loopImm h c e => Sys2Proof.Machine.execLoopImm h c e s
  | .brx h a o => Sys2Proof.Machine.execBrx h a o s
  | .callx h a o => Sys2Proof.Machine.execCallx h a o s
  | .trapImm h im => Sys2Proof.Machine.execTrapImm h im s
  | .sysImm h im => Sys2Proof.Machine.execSysImm h im s
  | .rtrap h => Sys2Proof.Machine.execRtrap h s
  | .brk h => Sys2Proof.Machine.execBrk h s
  | .tinfo h d b => Sys2Proof.Machine.execTinfo h d b s
  | .tset h a => Sys2Proof.Machine.execTset h a s
  | .tvec h a => Sys2Proof.Machine.execTvec h a s
  | .tvecDl h a => Sys2Proof.Machine.execTvecDl h a s
  | .getx h d a b => Sys2Proof.Machine.execGetx h d a b s
  | .setx h d a b => Sys2Proof.Machine.execSetx h d a b s
  | .tmask h d a => Sys2Proof.Machine.execTmask h d a s
  | .signal h a b => Sys2Proof.Machine.execSignal h a b s
  | .wfe h d => Sys2Proof.Machine.execWfe h d s
  | .ckpt h im => Sys2Proof.Machine.execCkpt h im s
  | .mov h d a => Sys2Proof.Machine.execMov h d a s
  | .shqK h d a => Sys2Proof.Machine.execShqK h d a s
  | .shqB h d a => Sys2Proof.Machine.execShqB h d a s
  | .shqS h d a => Sys2Proof.Machine.execShqS h d a s
  | .shas h a b => Sys2Proof.Machine.execShas h a b s
  | .shfU h d a => Sys2Proof.Machine.execShfU h d a s
  | .shfA h d a => Sys2Proof.Machine.execShfA h d a s
  | .shfV h d a => Sys2Proof.Machine.execShfV h d a s
  | .spr h d b => Sys2Proof.Machine.execSpr h d b s
  | .partW h a => Sys2Proof.Machine.execPartW h a s
  | .roleW h a => Sys2Proof.Machine.execRoleW h a s
  | .sfmt h a => Sys2Proof.Machine.execSfmt h a s
  | .gfmt h d => Sys2Proof.Machine.execGfmt h d s
  | .movbTo h d a => Sys2Proof.Machine.execMovbTo h d a s
  | .movbFrom h d a => Sys2Proof.Machine.execMovbFrom h d a s
  | .widen h d im => Sys2Proof.Machine.execWiden h d im s
  | .movl h d im => Sys2Proof.Machine.execMovl h d im s
  | .movh h d im => Sys2Proof.Machine.execMovh h d im s
  | .addW h d a b => Sys2Proof.Machine.execAddW h d a b s
  | .subW h d a b => Sys2Proof.Machine.execSubW h d a b s
  | .mulW h d a b => Sys2Proof.Machine.execMulW h d a b s
  | .mulhS h d a b => Sys2Proof.Machine.execMulhS h d a b s
  | .mulhN h d a b => Sys2Proof.Machine.execMulhN h d a b s
  | .mad h d a b => Sys2Proof.Machine.execMad h d a b s
  | .addsS h d a b => Sys2Proof.Machine.execAddsS h d a b s
  | .addsN h d a b => Sys2Proof.Machine.execAddsN h d a b s
  | .subsS h d a b => Sys2Proof.Machine.execSubsS h d a b s
  | .subsN h d a b => Sys2Proof.Machine.execSubsN h d a b s
  | .absd h d a b => Sys2Proof.Machine.execAbsd h d a b s
  | .divS h d a b => Sys2Proof.Machine.execDivS h d a b s
  | .divN h d a b => Sys2Proof.Machine.execDivN h d a b s
  | .remS h d a b => Sys2Proof.Machine.execRemS h d a b s
  | .remN h d a b => Sys2Proof.Machine.execRemN h d a b s
  | .dp4 h d a b => Sys2Proof.Machine.execDp4 h d a b s
  | .andW h d a b => Sys2Proof.Machine.execAndW h d a b s
  | .orW h d a b => Sys2Proof.Machine.execOrW h d a b s
  | .xorW h d a b => Sys2Proof.Machine.execXorW h d a b s
  | .andn h d a b => Sys2Proof.Machine.execAndn h d a b s
  | .shlW h d a b => Sys2Proof.Machine.execShlW h d a b s
  | .shrW h d a b => Sys2Proof.Machine.execShrW h d a b s
  | .sarW h d a b => Sys2Proof.Machine.execSarW h d a b s
  | .rotl h d a b => Sys2Proof.Machine.execRotl h d a b s
  | .minS h d a b => Sys2Proof.Machine.execMinS h d a b s
  | .maxS h d a b => Sys2Proof.Machine.execMaxS h d a b s
  | .minN h d a b => Sys2Proof.Machine.execMinN h d a b s
  | .maxN h d a b => Sys2Proof.Machine.execMaxN h d a b s
  | .clz h d a => Sys2Proof.Machine.execClz h d a s
  | .popc h d a => Sys2Proof.Machine.execPopc h d a s
  | .brev h d a => Sys2Proof.Machine.execBrev h d a s
  | .absS h d a => Sys2Proof.Machine.execAbsS h d a s
  | .bfeN h d a b => Sys2Proof.Machine.execBfeN h d a b s
  | .bfeS h d a b => Sys2Proof.Machine.execBfeS h d a b s
  | .bfi h d a b => Sys2Proof.Machine.execBfi h d a b s
  | .prmt h d a b => Sys2Proof.Machine.execPrmt h d a b s
  | .add64 h d a b => Sys2Proof.Machine.execAdd64 h d a b s
  | .sub64 h d a b => Sys2Proof.Machine.execSub64 h d a b s
  | .mulwS h d a b => Sys2Proof.Machine.execMulwS h d a b s
  | .mulwN h d a b => Sys2Proof.Machine.execMulwN h d a b s
  | .shl64 h d a b => Sys2Proof.Machine.execShl64 h d a b s
  | .shr64 h d a b => Sys2Proof.Machine.execShr64 h d a b s
  | .sar64 h d a b => Sys2Proof.Machine.execSar64 h d a b s
  | .madwN h d a b => Sys2Proof.Machine.execMadwN h d a b s
  | .cmp h p m a b f => Sys2Proof.Machine.execCmp h p m a b f s
  | .sel h d a b p n => Sys2Proof.Machine.execSel h d a b p n s
  | .pand h d a b => Sys2Proof.Machine.execPand h d a b s
  | .por h d a b => Sys2Proof.Machine.execPor h d a b s
  | .pxor h d a b => Sys2Proof.Machine.execPxor h d a b s
  | .pandn h d a b => Sys2Proof.Machine.execPandn h d a b s
  | .ptow h d a => Sys2Proof.Machine.execPtow h d a s
  | .wtop h d a => Sys2Proof.Machine.execWtop h d a s
  | .cmpi h p c a im => Sys2Proof.Machine.execCmpi h p c a im s
  | .addi h d a im => Sys2Proof.Machine.execAddi h d a im s
  | .muli h d a im => Sys2Proof.Machine.execMuli h d a im s
  | .andi h d a im => Sys2Proof.Machine.execAndi h d a im s
  | .ori h d a im => Sys2Proof.Machine.execOri h d a im s
  | .xori h d a im => Sys2Proof.Machine.execXori h d a im s
  | .shli h d a n => Sys2Proof.Machine.execShli h d a n s
  | .shri h d a n => Sys2Proof.Machine.execShri h d a n s
  | .sari h d a n => Sys2Proof.Machine.execSari h d a n s
  | .shfl h d a b m => Sys2Proof.Machine.execShfl h d a b m s
  | .shflImm h d a im m => Sys2Proof.Machine.execShflImm h d a im m s
  | .voteAny h d p => Sys2Proof.Machine.execVoteAny h d p s
  | .voteAll h d p => Sys2Proof.Machine.execVoteAll h d p s
  | .voteBal h d p => Sys2Proof.Machine.execVoteBal h d p s
  | .voteEq h d a => Sys2Proof.Machine.execVoteEq h d a s
  | .voteMatch h d a => Sys2Proof.Machine.execVoteMatch h d a s
  | .red h d a f => Sys2Proof.Machine.execRed h d a f s
  | .scan h d a f => Sys2Proof.Machine.execScan h d a f s
  | .fadd h d a b => Sys2Proof.Machine.execFadd h d a b s
  | .fsub h d a b => Sys2Proof.Machine.execFsub h d a b s
  | .fmul h d a b => Sys2Proof.Machine.execFmul h d a b s
  | .ffma h d a b => Sys2Proof.Machine.execFfma h d a b s
  | .fmin h d a b => Sys2Proof.Machine.execFmin h d a b s
  | .fmax h d a b => Sys2Proof.Machine.execFmax h d a b s
  | .fabs h d a => Sys2Proof.Machine.execFabs h d a s
  | .fneg h d a => Sys2Proof.Machine.execFneg h d a s
  | .fdiv h d a b => Sys2Proof.Machine.execFdiv h d a b s
  | .fsqrt h d a => Sys2Proof.Machine.execFsqrt h d a s
  | .fscale h d a b => Sys2Proof.Machine.execFscale h d a b s
  | .frnd h d a b => Sys2Proof.Machine.execFrnd h d a b s
  | .fclass h d a => Sys2Proof.Machine.execFclass h d a s
  | .dadd h d a b => Sys2Proof.Machine.execDadd h d a b s
  | .dsub h d a b => Sys2Proof.Machine.execDsub h d a b s
  | .dmul h d a b => Sys2Proof.Machine.execDmul h d a b s
  | .dfma h d a b => Sys2Proof.Machine.execDfma h d a b s
  | .dmin h d a b => Sys2Proof.Machine.execDmin h d a b s
  | .dmax h d a b => Sys2Proof.Machine.execDmax h d a b s
  | .dabs h d a => Sys2Proof.Machine.execDabs h d a s
  | .dneg h d a => Sys2Proof.Machine.execDneg h d a s
  | .ddiv h d a b => Sys2Proof.Machine.execDdiv h d a b s
  | .dsqrt h d a => Sys2Proof.Machine.execDsqrt h d a s
  | .dscale h d a b => Sys2Proof.Machine.execDscale h d a b s
  | .drnd h d a b => Sys2Proof.Machine.execDrnd h d a b s
  | .hadd2 h d a b t => Sys2Proof.Machine.execHadd2 h d a b t s
  | .hsub2 h d a b t => Sys2Proof.Machine.execHsub2 h d a b t s
  | .hmul2 h d a b t => Sys2Proof.Machine.execHmul2 h d a b t s
  | .hfma2 h d a b t => Sys2Proof.Machine.execHfma2 h d a b t s
  | .hmin2 h d a b t => Sys2Proof.Machine.execHmin2 h d a b t s
  | .hmax2 h d a b t => Sys2Proof.Machine.execHmax2 h d a b t s
  | .fcmp h p m a b c w => Sys2Proof.Machine.execFcmp h p m a b c w s
  | .fcvt h d a t x r p => Sys2Proof.Machine.execFcvt h d a t x r p s
  | .frcp h d a => Sys2Proof.Machine.execFrcp h d a s
  | .frsq h d a => Sys2Proof.Machine.execFrsq h d a s
  | .fexp2 h d a => Sys2Proof.Machine.execFexp2 h d a s
  | .flog2 h d a => Sys2Proof.Machine.execFlog2 h d a s
  | .fsin h d a => Sys2Proof.Machine.execFsin h d a s
  | .fcos h d a => Sys2Proof.Machine.execFcos h d a s
  | .ftanh h d a => Sys2Proof.Machine.execFtanh h d a s
  | .ld h d o b z x r => Sys2Proof.Machine.execLd h d o b z x r s
  | .st h d o b z r => Sys2Proof.Machine.execSt h d o b z r s
  | .ldsp h d o c m z x => Sys2Proof.Machine.execLdsp h d o c m z x s
  | .stsp h d o c m z => Sys2Proof.Machine.execStsp h d o c m z s
  | .atom h d o a p c r => Sys2Proof.Machine.execAtom h d o a p c r s
  | .atomx h d o a p c r => Sys2Proof.Machine.execAtomx h d o a p c r s
  | .fence h e k => Sys2Proof.Machine.execFence h e k s
  | .pref h a b => Sys2Proof.Machine.execPref h a b s
  | .taglk h d a => Sys2Proof.Machine.execTaglk h d a s
  | .tagset h a b => Sys2Proof.Machine.execTagset h a b s
  | .taginv h a b => Sys2Proof.Machine.execTaginv h a b s
  | .tagcfg h a b => Sys2Proof.Machine.execTagcfg h a b s
  | .ptest h d a b m => Sys2Proof.Machine.execPtest h d a b m s
  | .pclr h a b m => Sys2Proof.Machine.execPclr h a b m s
  | .cwb h a b => Sys2Proof.Machine.execCwb h a b s
  | .icinv h a b => Sys2Proof.Machine.execIcinv h a b s
  | .atomsp h d a b f => Sys2Proof.Machine.execAtomsp h d a b f s
  | .cpLoad h hb w t b u => Sys2Proof.Machine.execCpLoad h hb w t b u s
  | .cpStore h hb w t b u => Sys2Proof.Machine.execCpStore h hb w t b u s
  | .cpFill h hb w t b u => Sys2Proof.Machine.execCpFill h hb w t b u s
  | .waitc h a im => Sys2Proof.Machine.execWaitc h a im s
  | .tbinit h a k => Sys2Proof.Machine.execTbinit h a k s
  | .tbarr h d k => Sys2Proof.Machine.execTbarr h d k s
  | .tbwait h a k => Sys2Proof.Machine.execTbwait h a k s
  | .tbtry h d a k => Sys2Proof.Machine.execTbtry h d a k s
  | .bar h k => Sys2Proof.Machine.execBar h k s
  | .gset h d k n => Sys2Proof.Machine.execGset h d k n s
  | .gclr h d => Sys2Proof.Machine.execGclr h d s
  | .tbinv h k => Sys2Proof.Machine.execTbinv h k s
  | .gbar h => Sys2Proof.Machine.execGbar h s
  | .gbara h d => Sys2Proof.Machine.execGbara h d s
  | .gbarw h a => Sys2Proof.Machine.execGbarw h a s
  | .ccwait h d a => Sys2Proof.Machine.execCcwait h d a s
  | .cncl h a => Sys2Proof.Machine.execCncl h a s
  | .lnch h d a b => Sys2Proof.Machine.execLnch h d a b s
  | .preqQuery h d => Sys2Proof.Machine.execPreqQuery h d s
  | .preqYield h d => Sys2Proof.Machine.execPreqYield h d s
  | .mxloop h hb n b u q => Sys2Proof.Machine.execMxloop h hb n b u q s
  | .mxdrain h hb n b u q => Sys2Proof.Machine.execMxdrain h hb n b u q s
  | .mxlda h hb n b u => Sys2Proof.Machine.execMxlda h hb n b u s
  | .mxzero h n b u => Sys2Proof.Machine.execMxzero h n b u s
  | .mxcfg h a => Sys2Proof.Machine.execMxcfg h a s
  | .mxq h d b => Sys2Proof.Machine.execMxq h d b s
  | .qst h hb a => Sys2Proof.Machine.execQst h hb a s
  | .qstf h hb a => Sys2Proof.Machine.execQstf h hb a s
  | .qerr h d a b => Sys2Proof.Machine.execQerr h d a b s
  | .qexp h hb => Sys2Proof.Machine.execQexp h hb s
  | .qexpb h hb => Sys2Proof.Machine.execQexpb h hb s
  | .vdec h hb => Sys2Proof.Machine.execVdec h hb s
  | .qchk h d a => Sys2Proof.Machine.execQchk h d a s
  | .kvg h hb b u q => Sys2Proof.Machine.execKvg h hb b u q s
  | .kvspl h hb b u => Sys2Proof.Machine.execKvspl h hb b u s
  | .kvmap h hb b u => Sys2Proof.Machine.execKvmap h hb b u s
  | .kvsd h hb b u => Sys2Proof.Machine.execKvsd h hb b u s
  | .rpscan h hb b u => Sys2Proof.Machine.execRpscan h hb b u s
  | .rpdone h hb b u => Sys2Proof.Machine.execRpdone h hb b u s
  | .mov16 sw d a => Sys2Proof.Machine.execMov16 sw d a s
  | .add16 sw d a => Sys2Proof.Machine.execAdd16 sw d a s
  | .sub16 sw d a => Sys2Proof.Machine.execSub16 sw d a s
  | .mul16 sw d a => Sys2Proof.Machine.execMul16 sw d a s
  | .and16 sw d a => Sys2Proof.Machine.execAnd16 sw d a s
  | .or16 sw d a => Sys2Proof.Machine.execOr16 sw d a s
  | .xor16 sw d a => Sys2Proof.Machine.execXor16 sw d a s
  | .shl16 sw d a => Sys2Proof.Machine.execShl16 sw d a s
  | .shr16 sw d a => Sys2Proof.Machine.execShr16 sw d a s
  | .sar16 sw d a => Sys2Proof.Machine.execSar16 sw d a s
  | .minS16 sw d a => Sys2Proof.Machine.execMinS16 sw d a s
  | .maxS16 sw d a => Sys2Proof.Machine.execMaxS16 sw d a s
  | .fadd16 sw d a => Sys2Proof.Machine.execFadd16 sw d a s
  | .fmul16 sw d a => Sys2Proof.Machine.execFmul16 sw d a s
  | .fmax16 sw d a => Sys2Proof.Machine.execFmax16 sw d a s
  | .fmin16 sw d a => Sys2Proof.Machine.execFmin16 sw d a s
  | .unimp w => Sys2Proof.Machine.execUnimp w s
  | .forcedSwitch wid => Sys2Proof.Machine.execForcedSwitch wid s
  | .variableLatencyResult wid id => Sys2Proof.Machine.execVariableLatencyResult wid id s
  | .storePerform core k => Sys2Proof.Machine.execStorePerform core k s
  | .dieCacheWriteback die line drop => Sys2Proof.Machine.execDieCacheWriteback die line drop s
  | .rowGrant core => Sys2Proof.Machine.execRowGrant core s
  | .agedRequest wid => Sys2Proof.Machine.execAgedRequest wid s
  | .deadlockBreaker core => Sys2Proof.Machine.execDeadlockBreaker core s
  | .bankDrowsy core bank => Sys2Proof.Machine.execBankDrowsy core bank s
  | .boost wid g => Sys2Proof.Machine.execBoost wid g s
  | .timerPending wid => Sys2Proof.Machine.execTimerPending wid s
  | .timerTrap wid g => Sys2Proof.Machine.execTimerTrap wid g s
  | .cpExecution core k => Sys2Proof.Machine.execCpExecution core k s
  | .kvgExecution core k => Sys2Proof.Machine.execKvgExecution core k s
  | .qstExecution core k => Sys2Proof.Machine.execQstExecution core k s
  | .qexpExecution core k => Sys2Proof.Machine.execQexpExecution core k s
  | .vdecExecution core k => Sys2Proof.Machine.execVdecExecution core k s
  | .mxPass cl => Sys2Proof.Machine.execMxPass cl s
  | .mxAging cl k => Sys2Proof.Machine.execMxAging cl k s
  | .mxCompletion cl k => Sys2Proof.Machine.execMxCompletion cl k s
  | .kvsplExecution core k => Sys2Proof.Machine.execKvsplExecution core k s
  | .kvmapExecution core k => Sys2Proof.Machine.execKvmapExecution core k s
  | .kvsdExecution core k => Sys2Proof.Machine.execKvsdExecution core k s
  | .rpscanExecution core k => Sys2Proof.Machine.execRpscanExecution core k s
  | .rpdoneExecution core k => Sys2Proof.Machine.execRpdoneExecution core k s
  | .launch q => Sys2Proof.Machine.execLaunch q s
  | .openCtr q => Sys2Proof.Machine.execOpenCtr q s
  | .seal q => Sys2Proof.Machine.execSeal q s
  | .teamPlacement l core => Sys2Proof.Machine.execTeamPlacement l core s
  | .cancelTimeout team => Sys2Proof.Machine.execCancelTimeout team s
  | .priorityReq team => Sys2Proof.Machine.execPriorityReq team s
  | .sliceReq team => Sys2Proof.Machine.execSliceReq team s
  | .progressReq team => Sys2Proof.Machine.execProgressReq team s
  | .migrateReq core v => Sys2Proof.Machine.execMigrateReq core v s
  | .fullSave team => Sys2Proof.Machine.execFullSave team s
  | .saveTeam team => Sys2Proof.Machine.execSaveTeam team s
  | .restoreTeam team core => Sys2Proof.Machine.execRestoreTeam team core s
  | .cdbg core v => Sys2Proof.Machine.execCdbg core v s
  | .qreq cl v => Sys2Proof.Machine.execQreq cl v s
  | .rsaveSave cl => Sys2Proof.Machine.execRsaveSave cl s
  | .rsaveRestore cl => Sys2Proof.Machine.execRsaveRestore cl s
  | .rsaveDone cl => Sys2Proof.Machine.execRsaveDone cl s
  | .clkg cl v => Sys2Proof.Machine.execClkg cl v s
  | .rail cl v => Sys2Proof.Machine.execRail cl v s
  | .railRampDone cl => Sys2Proof.Machine.execRailRampDone cl s
  | .lendt cl v => Sys2Proof.Machine.execLendt cl v s
  | .recall cl => Sys2Proof.Machine.execRecall cl s
  | .wake cl v => Sys2Proof.Machine.execWake cl v s
  | .wakeTimer cl => Sys2Proof.Machine.execWakeTimer cl s
  | .tempSample cl t => Sys2Proof.Machine.execTempSample cl t s
  | .epoch die => Sys2Proof.Machine.execEpoch die s
  | .powerMeasurement f0 => Sys2Proof.Machine.execPowerMeasurement f0 s
  | .pcap v => Sys2Proof.Machine.execPcap v s
  | .hwake cl v => Sys2Proof.Machine.execHwake cl v s
  | .pctlSwitch p => Sys2Proof.Machine.execPctlSwitch p s
  | .pctlResume p => Sys2Proof.Machine.execPctlResume p s
  | .replayAns p slot => Sys2Proof.Machine.execReplayAns p slot s
  | .deliverAns p slot => Sys2Proof.Machine.execDeliverAns p slot s
  | .killTeam p slot => Sys2Proof.Machine.execKillTeam p slot s
  | .killLaunch p slot => Sys2Proof.Machine.execKillLaunch p slot s
  | .ccancel p v => Sys2Proof.Machine.execCcancel p v s
  | .wptr p q v => Sys2Proof.Machine.execWptr p q v s
  | .qcfg p q v => Sys2Proof.Machine.execQcfg p q v s
  | .qref p q => Sys2Proof.Machine.execQref p q s
  | .qwake p q => Sys2Proof.Machine.execQwake p q s
  | .registerWrite r off size v => Sys2Proof.Machine.execRegisterWrite r off size v s
  | .firmwareLoad img => Sys2Proof.Machine.execFirmwareLoad img s
  | .fwdog => Sys2Proof.Machine.execFwdog s
  | .attestationRequest nonce => Sys2Proof.Machine.execAttestationRequest nonce s
  | .bindObject o => Sys2Proof.Machine.execBindObject o s
  | .osvnAdvance v => Sys2Proof.Machine.execOsvnAdvance v s
  | .linkDown peer => Sys2Proof.Machine.execLinkDown peer s
  | .linkRetryExhausted => Sys2Proof.Machine.execLinkRetryExhausted s
  | .fatalErr core => Sys2Proof.Machine.execFatalErr core s
  | .uncorrectableError place => Sys2Proof.Machine.execUncorrectableError place s
  | .patrolScrub lines => Sys2Proof.Machine.execPatrolScrub lines s
  | .dramCalibration channel => Sys2Proof.Machine.execDramCalibration channel s
  | .telemetrySample => Sys2Proof.Machine.execTelemetrySample s
  | .hostAccess a => Sys2Proof.Machine.execHostAccess a s
  | .peerAccess peer a => Sys2Proof.Machine.execPeerAccess peer a s
  | .powerUp => Sys2Proof.Machine.execPowerUp s
  | .coreReset core => Sys2Proof.Machine.execCoreReset core s
  | .allowanceRefill => Sys2Proof.Machine.execAllowanceRefill s
  | .kvItemDrop cl k => Sys2Proof.Machine.execKvItemDrop cl k s
  | .pageShootdown part va => Sys2Proof.Machine.execPageShootdown part va s

end Sys2Proof.Machine
end

