-- ==== Sys2Proof/Machine/Turns.lean ====
section
/-! DEFINITION. The turn that a step takes (log 3), and the state in which a word stands where the next step fetches
(log 4). -/

namespace Sys2Proof.Machine

/-- May a turn fall between the writes of an RPSCAN or RPDONE (R364, R387, R390)? -/
def Turn.amidWrites : Turn → Bool
  | .idle _ => true
  | .event i => match i with
    | .kvgExecution _ _ | .rpscanExecution _ _ | .rpdoneExecution _ _ | .uncorrectableError _ | .coreReset _ => true
    | _ => false
  | _ => false

/-! ## What happens by itself when the agenda is empty -/

/-- What the part may do by itself in a state. -/
abbrev Try := State → Answer

/-- The state that the first one that changes it gives. -/
def firstChange (s : State) : List Try → Option State
  | [] => none
  | x :: rest => match x s with
    | .next t => if t = s then firstChange s rest else some t
    | _ => firstChange s rest

namespace State

/-- Results that can be written, and stores that can be performed. -/
def storeTries (s : State) : List Try :=
  (s.warps.flatMap fun e => (e.2.pend.filter fun r => r.vis.isNone && r.ready).map fun r =>
    execVariableLatencyResult e.1 r.id) ++
  ((s.warps.filter fun e => !e.2.storeQ.isEmpty).map fun e => fun s => .next (s.drainOne e.1)) ++
  (s.cores.filter fun e => !e.2.order.isEmpty).map fun e => execStorePerform e.1 0

/-- Executions of engine commands that are queued. -/
def engineTries (s : State) : List Try :=
  (s.cores.flatMap fun e =>
    (e.2.cpQ.take 1).flatMap (fun _ => [execCpExecution e.1 0, execKvgExecution e.1 0]) ++
    (e.2.xfQ.take 1).flatMap (fun _ => [execQstExecution e.1 0, execQexpExecution e.1 0, execVdecExecution e.1 0]) ++
    (e.2.kvQ.take 1).flatMap (fun _ => [execKvsplExecution e.1 0, execKvmapExecution e.1 0, execKvsdExecution e.1 0,
      execRpdoneExecution e.1 0]) ++
    (e.2.rpQ.take 1).map (fun _ => execRpscanExecution e.1 0)) ++
  s.clusters.flatMap fun e =>
    (e.2.table.zipIdx.flatMap fun x => [execMxCompletion e.1 x.2, execMxAging e.1 x.2]) ++
    (e.2.table.take 1).map fun _ => execMxPass e.1

/-- Row requests and timers. -/
def warpTries (s : State) : List Try :=
  ((s.warps.filter fun e => s.running e.1 && s.timerDue e.1).map fun e => execTimerPending e.1) ++
  (s.warps.filter fun e => e.2.rowReq.isSome).flatMap fun e =>
    [execAgedRequest e.1, execRowGrant (coreOf e.1), execDeadlockBreaker (coreOf e.1)]

/-- Records of the queues that the dispatcher serves. -/
def queueTries (s : State) : List Try := s.queues.flatMap fun e => [execLaunch e.1, execOpenCtr e.1, execSeal e.1]

/-- Saves, and teams that are due to stop or are asked to give way. -/
def teamTries (s : State) : List Try :=
  (s.teams.filter fun e => e.2.status == .resident).flatMap fun e =>
    [execSaveTeam e.1, execCancelTimeout e.1,
     execFullSave e.1, execPriorityReq e.1,
     execProgressReq e.1, execSliceReq e.1]

/-- The placement that the dispatcher makes next. -/
def placeTries (s : State) : List Try :=
  match s.nextPlacement with
  | none => []
  | some (l, o) => match (List.range 768).find? (s.takes l o) with
    | none => []
    | some core => match o with
      | none => [execTeamPlacement l core]
      | some team => [execRestoreTeam team core]

/-- Power: epochs, recalls, ramps, saves of retention state, wake timers. -/
def powerTries (s : State) : List Try :=
  ((List.range 4).map fun d => execEpoch d) ++
  s.clusters.flatMap fun e =>
    (if s.recalling e.1 then [execRecall e.1] else []) ++
    (if e.2.busy.isSome then [execRsaveDone e.1] else []) ++
    (if e.2.ramp then [execRailRampDone e.1] else []) ++
    (if e.2.wakeAt.isSome then [execWakeTimer e.1] else [])

/-- Everything the part does by itself, in one order of many (log 3). -/
def ownTries (s : State) : List Try :=
  execFwdog :: s.storeTries ++ s.engineTries ++ s.warpTries ++ s.queueTries ++ s.teamTries ++ s.placeTries ++ s.powerTries

/-- What happens when the agenda is empty: the first of these that changes something, then the gang that issues next, or
else a cycle passes. -/
def defaultTurn (s : State) : Option Instr × State :=
  match firstChange s s.ownTries with
  | some t => (none, t)
  | none => match s.nextIssuer with
    | some x =>
      let r := s.issueTurn x.1 x.2
      if r = (none, s) then (none, s.tick 1) else r
    | none => (none, s.tick 1)

/-! ## What happens between turns -/

/-- Has what a gang of a warp waits for come about? -/
def came (s : State) (w : Warp) : Wait → Bool
  | .tb k p | .bar k p => passed (((s.getTeam? w.team).map fun t => (t.bar k).phase).getD 0) p
  | .gbar p | .again p | .gbarw p =>
    passed ((((s.getTeam? w.team).bind fun t => s.getLaunch? t.launch).map (·.ggen)).getD 0) p
  | .counter c gen => s.unitOver (c, gen)
  | .eng cls n _ => decide (outstandingOps w cls ≤ n)
  | .wfe => false
  | .remote ranks => ranks.all fun r => s.rankMember w.team r != .stalled
  | .ckpt _ | .regang _ => false

/-- The same for a warp number: a management core also waits for its wake register (R467). -/
def cameFor (s : State) (wid : Nat) (w : Warp) (x : Wait) : Bool :=
  s.came w x || (x == .wfe && (s.getDie (dieOf wid)).wakeReg != 0)

/-- The gangs of a warp whose waits have come about are ready from now on (R410); a stopped warp stands still. -/
def meetWaits (s : State) (wid : Nat) : State :=
  let w := s.getWarp wid
  let due (g : Gang) : Bool := !g.met && g.wait.any (s.cameFor wid w)
  if w.halted || !w.gangs.any fun e => due e.2 then s
  else s.setWarp wid { w with gangs := w.gangs.map fun e =>
    (e.1, if due e.2 then { e.2 with met := true, since := s.ageClock wid, boosted := false } else e.2) }

/-- Cores with a queued row request. -/
def rowCores (s : State) : List Nat :=
  ((s.warps.filter fun e => !isMgmt e.1 && e.2.waiting.isSome).map fun e => coreOf e.1).eraseDups

/-- Lines that a die cache holds between turns (R14): 256 MiB, less room for the lines that one turn brings in. -/
def cacheLines : Nat := 2 ^ 22 - 2 ^ 16

/-- A die cache gives up n lines, with their dirty bytes written back (R14, R257; log 63). -/
def giveUpLines (s : State) (d : Nat) : Nat → State
  | 0 => s
  | n + 1 =>
    let lines := (s.getDie d).cache.keys
    match lines[Config.cacheVictim d s.gu lines.length % lines.length]? with
    | none => s
    | some line => (s.expelLine d line).giveUpLines d n

/-- A die cache that is nearly full makes room (R14). -/
def cacheRoom (s : State) (d : Nat) : State := s.giveUpLines d ((s.getDie d).cache.length - cacheLines)

/-- What happens between turns, as soon as it may: waits end, the dispatcher and the save engine act (R400, R403, R425, R441),
queued requests for rows that fit are granted (R179), commands enter a reservation table again (R321), wake sources are
latched (R465), die caches make room (R14). -/
def between (s : State) : State :=
  let s := (s.warps.keys.foldl meetWaits s).settleTeams
  let s := s.rowCores.foldl granting s
  let s := ((s.clusters.filter fun e => !e.2.mxWait.isEmpty).map (·.1)).foldl (fun s cl => s.fillTable cl 16) s
  (s.dies.keys.foldl cacheRoom s).wakes

/-- A turn: the instruction or event that it executes, if any, and the state before it. -/
def runTurn (s : State) : Turn → Option Instr × State
  | .issue wid g => s.issueTurn wid g
  | .event i => if i.isEvent then (some i, s) else (none, s)
  | .idle n => (none, s.tick n)
  | .drain wid => (none, s.drainOne wid)
  | .fetchAhead wid addr => (none, s.fetchAheadTurn wid addr)
  | .fillLoop wid g => (none, s.fillLoop wid g)
  | .useLoop wid g => (none, s.useLoop wid g)
  | .evictCode core line => (none, s.modCore core fun k => { k with icache := k.icache.erase line })
  | .mapPage p => (none, s.installPage (mapped p))
  | .walk cl part va => (none, s.walk cl part va)
  | .evictPage cl k => (none, s.modCluster cl fun x => { x with tlb := x.tlb.eraseIdx k })
  | .trimSensor cl v => (none, s.modCluster cl fun k => { k with trim := v })
  | .heartbeat v => (none, s.beat v)
  | .openAcquire wid g => (none, s.openAcquire wid g)

/-- The next turn of the agenda, or the default one. -/
def takeTurn (s : State) : Option Instr × State :=
  match s.agenda with
  | t :: rest =>
    let s := { s with agenda := rest }
    ((if t.amidWrites then s else s.finishWriters).between).runTurn t
  | [] => s.finishWriters.between.defaultTurn

/-! ## Placing a word (log 4) -/

/-- Virtual and physical address of the word that a placed program starts with. -/
def placeAddr : Nat := 0x10000

/-- The page of a placed program, for a partition. -/
def placePage (part : Nat) : Page :=
  { part, va := placeAddr, size := 65536, pa := placeAddr, read := true, write := true, exec := true, svn := none }

/-- The launch of a placed program: one team of one warp with one lane. -/
def placeLaunch : Launch :=
  { ctr := 0, gen := 1, part := 0, queue := 0, prio := 0, cascade := false, after := none, waits := [],
    entry := BitVec.ofNat 64 placeAddr, args := 0, ncrew := 1, tpc := 1, lanes := 1, wide64 := true, floor := 0,
    borrow := true, scratch := 0, live := 0, nbank := 0, nbar := 1, tagT := false, qpin := 0, cores := [0],
    nextTeam := 1, cancelled := false, ggen := 0, glive := 1, garrt := 0 }

/-- Its team. -/
def placeTeam (now : Nat) : Team :=
  { launch := 0, index := 0, crew := 0, rank := 0, part := 0, nlanes := 1, wide64 := true, nwarps := 1,
    status := .resident, core := 0, slot := 0, quarter := 0, wids := [0], logCore := 0, age := 0, size := 0, sp := [],
    spPoison := [], marks := [], written := [], owed := [], nbar := 1, bars := [(0, ⟨1, 0, 0, 0⟩)], guards := [], errWord := 0,
    tagT := false, tag := none, nbank := 0, req := none, target := 0, placedAt := now, blocked := none, arrived := [],
    counted := false, hostHeld := false, region := none, image := none, draining := false }

/-- A warp with one lane whose one gang stands at the placed word. -/
def placeWarp (start : Nat) : Warp :=
  { Warp.init with nlanes := 1, gangs := [(0, Gang.launch 1 (BitVec.ofNat 64 placeAddr))], slices := [(0, ⟨1, []⟩)],
                   wstart := start }

/-- Cluster 0 as it wakes (R459). -/
def placeCluster (now : Nat) : Cluster := { Cluster.init with c := 65535, c0 := 65535, cAt := now }

/-- A word stands in memory, uncached, at the placed address, on a page of a partition. -/
def placeBytes (s : State) (part : Nat) (bytes : List Byte) : State :=
  let s := (s.installPage (placePage part)).homeWrite placeAddr bytes
  { s with cores := s.cores.map fun e => (e.1, { e.2 with icache := e.2.icache.erase (placeAddr / 64) }) }

/-- The machine with a word where warp 0, or for WFE the management core of die 0, issues next. -/
def placeWord (s : State) (nbits n : Nat) : State :=
  let bytes := tableBytes nbits n
  if isWfe (leNat bytes) && leNat bytes % 2 == 1 then
    let s := (s.placeBytes 32 bytes).setWarp (mgmtWid 0) (placeWarp s.gtime)
    { s.modDie 0 (fun d => { d with mgRun := true }) with agenda := [.issue (mgmtWid 0) 0] }
  else
    let s := s.placeBytes 0 bytes
    let s := s.setCore 0 Core.init
    let s := s.setCluster 0 (placeCluster (s.nowIn 0))
    let s := { s with warps := s.warps.filter fun e => coreOf e.1 != 0 }
    let s := s.modPart 0 fun p => { p with winBase := p.winBase.set 0 0, winSize := p.winSize.set 0 0x20000 }
    let s := (s.setLaunch 0 placeLaunch).setTeam 0 (placeTeam s.gtime)
    let s := s.modCounter 0 fun c => { c with gen := 1, done := false, open' := 1 }
    let s := s.setWarp 0 (placeWarp s.gtime)
    { s with agenda := [.issue 0 0] }

end State
end Sys2Proof.Machine
end

