-- ==== Sys2Proof/Machine/Step.lean ====
section
/-! DEFINITION. One step of the machine: one turn, and the instruction or event that it executes. -/

namespace Sys2Proof.Machine

/-- One step (log 3): the turn of the agenda, then the instruction or event of that turn. -/
def step (s : State) : Host.Outcome State Fault Refusal :=
  match s.takeTurn with
  | (some i, s') => exec i s'
  | (none, s') => .next s'

/-- The machine with a word of the opcode table where the next step fetches and runs it (log 4). -/
def State.withFetchWord (s : State) (nbits w : Nat) : State := s.placeWord nbits w

end Sys2Proof.Machine
end

