-- ==== Sys2Proof/Claims.lean ====
section
/-! DEFINITION. The terms in which statements are made: what a register holds once every result in flight is visible, the
states in which an instruction issues plainly, and what it leaves alone. -/

namespace Sys2Proof.Claim

open Sys2Proof.Machine

/-! ## Registers -/

/-- The warp of the current instruction, once every result in flight is visible (R39). -/
def warp (s : State) : Warp := s.w.issued

/-- Register number n as the current instruction names it (R45, R65). -/
def reg (s : State) (n : Nat) : Shaped := (warp s).named n

/-- Lane i of register number n. -/
def lane (s : State) (n i : Nat) : Lane := (reg s n).lane i

/-- The word in lane i of register number n, and its poison. -/
def word (s : State) (n i : Nat) : Word := (lane s n i).val
def poison (s : State) (n i : Nat) : Bool := (lane s n i).poison

/-- Lane i of the pair n, n + 1 (R153), and its poison. -/
def dword (s : State) (n i : Nat) : DWord := word s (n + 1) i ++ word s n i
def poison2 (s : State) (n i : Nat) : Bool := poison s n i || poison s (n + 1) i

/-- Lane i of predicate n (R63), and base register n. -/
def pred (s : State) (n i : Nat) : Bool := ((warp s).pReg n).lane i
def base (s : State) (n : Nat) : DWord := (warp s).bReg n

/-- Lane i is active. -/
def active (s : State) (i : Nat) : Bool := s.act.getLsbD i

/-! ## When an instruction issues plainly -/

/-- The answer gives rows. -/
def isRows : State.RowAnswer → Bool
  | .rows _ => true
  | _ => false

/-- No result of the warp is in flight, the units of its scheduler are free, and those that the schedulers share take a
request (R18, R39, R74; a management core has its own). -/
structure Settled (s : State) : Prop where
  settled : s.w.pend = []
  units : ∀ u, isMgmt s.cur.wid = true ∨ s.slotFree u ≤ s.now
  shared : ∀ u, isMgmt s.cur.wid = true ∨ (s.getCore (coreOf s.cur.wid)).unitFree.get u 0 ≤ s.now

/-- And the row pool gives the rows that an instruction may ask for (R178). -/
structure Ready (s : State) : Prop extends Settled s where
  room : ∀ n, n < 17 → isRows (s.requestRows s.cur.wid n) = true

/-! ## What an instruction does to registers -/

/-- A result in register number n: an active lane takes the new value, any other present lane keeps the old one (R184). -/
def Lanes (s t : State) (n : Nat) (f : Nat → Lane) : Prop :=
  ∀ i < s.width, s.present.getLsbD i = true → lane t n i = if s.act.getLsbD i then f i else lane s n i

/-- A result in predicate n (R152); p7 reads true whatever is written to it (R63). -/
def PredLanes (s t : State) (n : Nat) (f : Nat → Bool) : Prop :=
  ∀ i < s.width, s.present.getLsbD i = true →
    pred t n i = if n = 7 then true else if s.act.getLsbD i then f i else pred s n i

/-! ## What it leaves alone -/

/-- Every byte of memory reads as before, at home and at every die; no line's poison changes. -/
def SameMemory (s t : State) : Prop :=
  ∀ d a, t.homeRead a 1 = s.homeRead a 1 ∧ t.dieRead d a 1 = s.dieRead d a 1 ∧
    t.homePoison (a / 64) = s.homePoison (a / 64) ∧ t.diePoison d (a / 64) = s.diePoison d (a / 64)

/-- Every register of the warp but the destinations in `ds` keeps its value: w and trap-bank registers, predicates and base
registers. -/
structure SameRegs (s t : State) (ds : List Dest) : Prop where
  words : ∀ n, .w n ∉ ds → (warp t).wReg n = (warp s).wReg n
  banks : ∀ n, .t n ∉ ds → (warp t).tReg n = (warp s).tReg n
  preds : ∀ n, .p n ∉ ds → (warp t).pReg n = (warp s).pReg n
  bases : ∀ n, .b n ∉ ds → .bLo n ∉ ds → .bHi n ∉ ds → (warp t).bReg n = (warp s).bReg n

/-- The rest of a warp but for its gang entries, its place in the schedule and its rows: the special registers (PART, ROLE,
TVEC, the deadline, TMASK, CFG, SA, SB), handler mode and the trap record; mask stacks, join records, releases and exited
lanes; its identity and its standing. -/
structure SameSpecial (a b : Warp) : Prop where
  team : b.team = a.team
  index : b.index = a.index
  wide64 : b.wide64 = a.wide64
  nlanes : b.nlanes = a.nlanes
  exited : b.exited = a.exited
  part : b.part = a.part
  role : b.role = a.role
  tvec : b.tvec = a.tvec
  deadline : b.deadline = a.deadline
  tmask : b.tmask = a.tmask
  hm : b.hm = a.hm
  cfg : b.cfg = a.cfg
  sa : b.sa = a.sa
  sb : b.sb = a.sb
  trap : b.trap = a.trap
  joins : b.joins = a.joins
  slices : b.slices = a.slices
  releases : b.releases = a.releases
  timerPending : b.timerPending = a.timerPending
  wstart : b.wstart = a.wstart
  frozen : b.frozen = a.frozen
  floor : b.floor = a.floor
  borrow : b.borrow = a.borrow
  fault : b.fault = a.fault
  synced : b.synced = a.synced
  keeps : b.keeps = a.keeps
  ended : b.ended = a.ended
  halted : b.halted = a.halted

/-- A core but for the occupancy of its units, its awake banks and its instruction cache. -/
structure SameCore (a b : Core) : Prop where
  brkstop : b.brkstop = a.brkstop
  fatal : b.fatal = a.fatal
  snap : b.snap = a.snap
  order : b.order = a.order
  cpQ : b.cpQ = a.cpQ
  xfQ : b.xfQ = a.xfQ
  kvQ : b.kvQ = a.kvQ
  rpQ : b.rpQ = a.rpQ
  loopBuf : b.loopBuf = a.loopBuf
  cpFree : b.cpFree = a.cpFree
  svTeam : b.svTeam = a.svTeam
  svKind : b.svKind = a.svKind
  svSlot : b.svSlot = a.svSlot
  svFail : b.svFail = a.svFail
  svTarget : b.svTarget = a.svTarget

/-- A cluster but for its allowance counter and what is kept of it for the epoch. -/
structure SameCluster (a b : Cluster) : Prop where
  req : b.req = a.req
  closed : b.closed = a.closed
  saved : b.saved = a.saved
  err : b.err = a.err
  busy : b.busy = a.busy
  gate : b.gate = a.gate
  railOff : b.railOff = a.railOff
  ramp : b.ramp = a.ramp
  good : b.good = a.good
  ticks : b.ticks = a.ticks
  wbit : b.wbit = a.wbit
  arm : b.arm = a.arm
  wakeAt : b.wakeAt = a.wakeAt
  src : b.src = a.src
  firing : b.firing = a.firing
  asked : b.asked = a.asked
  trim : b.trim = a.trim
  temp : b.temp = a.temp
  hot : b.hot = a.hot
  refill : b.refill = a.refill
  share : b.share = a.share
  lent : b.lent = a.lent
  borrowed : b.borrowed = a.borrowed
  gated : b.gated = a.gated
  recallAt : b.recallAt = a.recallAt
  table : b.table = a.table
  mxWait : b.mxWait = a.mxWait
  mxTaken : b.mxTaken = a.mxTaken
  mxFree : b.mxFree = a.mxFree
  mxPass : b.mxPass = a.mxPass
  banks : b.banks = a.banks
  kvtb : b.kvtb = a.kvtb
  tlb : b.tlb = a.tlb

/-- A die but for its cache, of which `SameMemory` speaks. -/
structure SameDie (a b : Die) : Prop where
  sites : b.sites = a.sites
  qclk : b.qclk = a.qclk
  wbit : b.wbit = a.wbit
  tripm : b.tripm = a.tripm
  thev : b.thev = a.thev
  tripped : b.tripped = a.tripped
  mgfault : b.mgfault = a.mgfault
  wakeReg : b.wakeReg = a.wakeReg
  mgRun : b.mgRun = a.mgRun
  qcyc : b.qcyc = a.qcyc
  epochAt : b.epochAt = a.epochAt
  wrote : b.wrote = a.wrote
  heard : b.heard = a.heard
  seen : b.seen = a.seen

/-- Everything outside the warp but time, the units of its core and the allowance of its cluster: other warps, teams with
their scratchpads and barriers, launches, counters, queues, partitions, the host's registers, pages and memory; and the
warp's own store queue, outstanding operations and errors. -/
structure SameOutside (s t : State) : Prop where
  cur : t.cur = s.cur
  warps : ∀ i, i ≠ s.cur.wid → t.getWarp i = s.getWarp i
  teams : t.teams = s.teams
  launches : t.launches = s.launches
  crews : t.crews = s.crews
  counters : t.counters = s.counters
  queues : t.queues = s.queues
  parts : t.parts = s.parts
  host : t.host = s.host
  pages : t.pages = s.pages
  cores : ∀ i, SameCore (s.getCore i) (t.getCore i)
  clusters : ∀ i, SameCluster (s.getCluster i) (t.getCluster i)
  dies : ∀ i, SameDie (s.getDie i) (t.getDie i)
  memory : SameMemory s t
  tags : t.tags = s.tags
  storeQ : t.w.storeQ = s.w.storeQ
  ops : t.w.ops = s.w.ops
  errs : t.w.errs = s.w.errs

/-- Where the gang goes on after the instruction in sequence: START of the hardware loop that repeats, or the next
address (R113). -/
def nextPc (s : State) : DWord := (loopTest s.cur.pc s.gang.loops).2.getD s.seqPc

/-- The gang goes on at `pc` with loop stack `loops`, waits for nothing and holds no instruction; its slices, FMT and innermost join record, and every other gang
entry, as before. -/
structure GoesTo (s t : State) (pc : DWord) (loops : List LoopRec) : Prop where
  pc : t.gang.pc = pc
  loops : t.gang.loops = loops
  wait : t.gang.wait = none
  held : t.gang.held = none
  opened : t.gang.opened = false
  slices : t.gang.slices = s.gang.slices
  fmt : t.gang.fmt = s.gang.fmt
  inner : t.gang.inner = s.gang.inner
  others : ∀ g, g ≠ s.cur.g → State.gangOf t.w g = State.gangOf s.w g

/-- THE FRAME of an instruction whose results go to `ds` and whose gang goes on at `pc` with loop stack `loops`. -/
structure KeepsTo (s t : State) (ds : List Dest) (pc : DWord) (loops : List LoopRec) : Prop where
  regs : SameRegs s t ds
  special : SameSpecial s.w t.w
  goes : GoesTo s t pc loops
  outside : SameOutside s t

/-- The frame of an instruction that goes on in sequence, through the end test of R113. -/
def Keeps (s t : State) (ds : List Dest) : Prop :=
  KeepsTo s t ds (nextPc s) (loopTest s.cur.pc s.gang.loops).1

/-- The gang stands at its instruction, which has no result yet. -/
structure Stays (s t : State) (x : Wait) : Prop where
  wait : t.gang.wait = some x
  pc : t.gang.pc = s.gang.pc
  regs : SameRegs s t []
  special : SameSpecial s.w t.w

/-- The instruction has issued: its gap runs, and it counts among those since the last switch (R36, R38). -/
def Issued (s t : State) (h : Hdr) : Prop :=
  t.w.nextIssue = s.now + h.gap.toNat + 1 ∧ t.w.count = if h.sw = true ∨ 23 ≤ s.w.count then 0 else s.w.count + 1

/-! ## Register results -/

/-- What an instruction with register results gives: the registers and predicates it reads; for each register it writes,
the lanes; for each predicate it writes, the bits; the exceptions of each lane (R203); and whether its results may be U
at all. -/
structure Effect where
  srcs : List Nat := []
  preds : List Nat := []
  outs : List (Nat × (Nat → Lane)) := []
  pouts : List (Nat × (Nat → Bool)) := []
  exc : Nat → FExc := fun _ => 0
  one : Bool := true

/-- Every register and predicate that is read is U (R70). -/
def Effect.uniform (e : Effect) (s : State) : Prop :=
  e.one = true ∧ (∀ n ∈ e.srcs, (reg s n).isU = true) ∧ ∀ n ∈ e.preds, ((warp s).pReg n).isV = false

/-- The destinations of an effect. -/
def Effect.dests (e : Effect) (s : State) : List Dest := e.outs.map (fun o => s.dst o.1) ++ e.pouts.map fun o => .p o.1

/-- The instruction completes with an effect: it writes exactly those lanes, keeps everything else, and goes on in
sequence; from U sources under a full mask every result is U (R70, R184, R152). -/
def Does (i : Instr) (s : State) (e : Effect) : Prop :=
  ∃ t, exec i s = .next t ∧ (∀ o ∈ e.outs, Lanes s t o.1 o.2) ∧ (∀ o ∈ e.pouts, PredLanes s t o.1 o.2) ∧
    Keeps s t (e.dests s) ∧
    (e.uniform s → s.act = s.present →
      (∀ o ∈ e.outs, (reg t o.1).isU = true) ∧ ∀ o ∈ e.pouts, ((warp t).pReg o.1).isV = false)

/-- What an effect needs besides `Ready`: no active lane raises an exception that FMT.TEN enables (R203), and a result for a
trap-bank register is U: made from U sources under a full mask (R65). -/
def Allowed (s : State) (e : Effect) : Prop :=
  (∀ i, s.act.getLsbD i = true → e.exc i &&& tenOf s.fmt = 0) ∧
    (s.w.hm = true → ∀ o ∈ e.outs, 56 ≤ o.1 → e.uniform s ∧ s.act = s.present)

/-! ## Other effects -/

/-- What an instruction does: the states and operands on which it has its own effect, and that effect, with what it leaves
alone. -/
structure Contract where
  pre : State → Prop := fun _ => True
  post : State → State → Prop

/-- The instruction completes with its own effect wherever it has one. -/
def Fulfils (i : Instr) (s : State) (c : Contract) : Prop :=
  c.pre s → ∃ t, exec i s = .next t ∧ c.post s t

/-- Everything is kept but for what `f` puts back: a field that the instruction writes. -/
def KeepsBut (s t : State) (f : Warp → Warp) : Prop := Keeps s (t.modW f) []

/-- Register n is U and not poisoned: what an instruction needs of a uniform operand. -/
abbrev Uniform (s : State) (n : Nat) : Prop := (reg s n).isU = true ∧ poison s n 0 = false

/-- Registers n and n + 1 are. -/
abbrev Uniform2 (s : State) (n : Nat) : Prop := Uniform s n ∧ Uniform s (n + 1)

end Sys2Proof.Claim
end

