-- ==== Sys2Proof/Claims/Integer.lean ====
section
/-! DEFINITION. The results of spec/06 as tables: for each instruction the registers it reads and the value of each lane, in
the words of the rules. -/

namespace Sys2Proof.Claim

open Sys2Proof.Machine

/-- The poison of a result lane: the OR over the registers read (R72). -/
def poisons (s : State) (srcs : List Nat) (i : Nat) : Bool := srcs.any fun n => poison s n i

/-- One register result, with the value `f i` in lane i. -/
def out1 (s : State) (d : Nat) (srcs : List Nat) (f : Nat → Word) : Effect :=
  { srcs, outs := [(d, fun i => ⟨f i, poisons s srcs i⟩)] }

/-- A result from the words of A and B. -/
def word2 (s : State) (d a b : Nat) (f : Word → Word → Word) : Effect :=
  out1 s d [a, b] fun i => f (word s a i) (word s b i)

/-- A result from the word of A. -/
def word1 (s : State) (d a : Nat) (f : Word → Word) : Effect := out1 s d [a] fun i => f (word s a i)

/-- A result in the pair d, d + 1, the low word in d (R153, R162). -/
def out2 (s : State) (d : Nat) (srcs : List Nat) (f : Nat → DWord) : Effect :=
  { srcs, outs := [(d, fun i => ⟨(f i).extractLsb' 0 32, poisons s srcs i⟩),
                   (d + 1, fun i => ⟨(f i).extractLsb' 32 32, poisons s srcs i⟩)] }

/-- An exact integer clamped to lo … hi (R156). -/
def clamped (lo hi x : Int) : Word := BitVec.ofInt 32 (max lo (min hi x))

/-- S8 of byte k (R156). -/
def signedByte (a : Word) (k : Nat) : Int := (a.extractLsb' (8 * k) 8).toInt

/-- The IAR operations but divide and remainder, by FN (R156). -/
def iarWord : Instr → Option (BitVec 6 × BitVec 6 × BitVec 6 × (Word → Word → Word))
  | .addW _ d a b => some (d, a, b, fun a b => a + b)
  | .subW _ d a b => some (d, a, b, fun a b => a - b)
  | .mulW _ d a b => some (d, a, b, fun a b => a * b)
  | .mulhS _ d a b => some (d, a, b, fun a b => (a.signExtend 64 * b.signExtend 64).extractLsb' 32 32)
  | .mulhN _ d a b => some (d, a, b, fun a b => (a.zeroExtend 64 * b.zeroExtend 64).extractLsb' 32 32)
  | .addsS _ d a b => some (d, a, b, fun a b => clamped (-2 ^ 31) (2 ^ 31 - 1) (a.toInt + b.toInt))
  | .addsN _ d a b => some (d, a, b, fun a b => clamped 0 (2 ^ 32 - 1) (a.toNat + b.toNat))
  | .subsS _ d a b => some (d, a, b, fun a b => clamped (-2 ^ 31) (2 ^ 31 - 1) (a.toInt - b.toInt))
  | .subsN _ d a b => some (d, a, b, fun a b => clamped 0 (2 ^ 32 - 1) (a.toNat - b.toNat))
  | .absd _ d a b => some (d, a, b, fun a b => BitVec.ofInt 32 |a.toInt - b.toInt|)
  | .dp4 _ d a b => some (d, a, b, fun a b =>
      BitVec.ofInt 32 ((List.range 4).map fun k => signedByte a k * signedByte b k).sum)
  | _ => none

/-- The results of IAR and of its 16-bit and immediate forms (R42, R156, R163): MAD reads D too, a 16-bit form reads D
first, an immediate is sign-extended. -/
def iarEffect (i : Instr) (s : State) : Option Effect :=
  match i with
  | .mad _ d a b => some (out1 s d.toNat [a.toNat, b.toNat, d.toNat] fun i =>
      word s a.toNat i * word s b.toNat i + word s d.toNat i)
  | .add16 _ d a => some (word2 s d.toNat d.toNat a.toNat fun a b => a + b)
  | .sub16 _ d a => some (word2 s d.toNat d.toNat a.toNat fun a b => a - b)
  | .mul16 _ d a => some (word2 s d.toNat d.toNat a.toNat fun a b => a * b)
  | .addi _ d a im => some (word1 s d.toNat a.toNat fun a => a + im.signExtend 32)
  | .muli _ d a im => some (word1 s d.toNat a.toNat fun a => a * im.signExtend 32)
  | i => (iarWord i).map fun x => word2 s x.1.toNat x.2.1.toNat x.2.2.1.toNat x.2.2.2

/-- The quotient and remainder of R157 with IDZ 0: truncated toward zero; 0xFFFFFFFF and the dividend by zero. -/
def quotient (signed : Bool) (a b : Word) : Word :=
  if b = 0 then BitVec.allOnes 32
  else if signed then BitVec.ofInt 32 (a.toInt.tdiv b.toInt) else BitVec.ofNat 32 (a.toNat / b.toNat)
def remainder (signed : Bool) (a b : Word) : Word :=
  if b = 0 then a else a - quotient signed a b * b

/-- Divide and remainder (R157). -/
def divWord : Instr → Option (BitVec 6 × BitVec 6 × BitVec 6 × (Word → Word → Word))
  | .divS _ d a b => some (d, a, b, quotient true)
  | .divN _ d a b => some (d, a, b, quotient false)
  | .remS _ d a b => some (d, a, b, remainder true)
  | .remN _ d a b => some (d, a, b, remainder false)
  | _ => none

/-- The active lanes whose divisor is zero (R157). -/
def zeroLanes (s : State) (b : Nat) : LaneSet :=
  LaneSet.ofList ((LaneSet.toList s.act).filter fun i => word s b i == 0)

/-- The ILG operations, by FN (R158): a shift amount is the whole of b. -/
def ilgWord : Instr → Option (BitVec 6 × BitVec 6 × BitVec 6 × (Word → Word → Word))
  | .andW _ d a b => some (d, a, b, fun a b => a &&& b)
  | .orW _ d a b => some (d, a, b, fun a b => a ||| b)
  | .xorW _ d a b => some (d, a, b, fun a b => a ^^^ b)
  | .andn _ d a b => some (d, a, b, fun a b => a &&& ~~~b)
  | .shlW _ d a b => some (d, a, b, fun a b => a <<< b.toNat)
  | .shrW _ d a b => some (d, a, b, fun a b => a >>> b.toNat)
  | .sarW _ d a b => some (d, a, b, fun a b => a.sshiftRight b.toNat)
  | .rotl _ d a b => some (d, a, b, fun a b => (a <<< (b.toNat % 32)) ||| (a >>> (32 - b.toNat % 32)))
  | .minS _ d a b => some (d, a, b, fun a b => if a.toInt ≤ b.toInt then a else b)
  | .maxS _ d a b => some (d, a, b, fun a b => if a.toInt ≤ b.toInt then b else a)
  | .minN _ d a b => some (d, a, b, fun a b => if a.toNat ≤ b.toNat then a else b)
  | .maxN _ d a b => some (d, a, b, fun a b => if a.toNat ≤ b.toNat then b else a)
  | _ => none

/-- The results of ILG and of its 16-bit and immediate forms (R42, R158, R163). -/
def ilgEffect (i : Instr) (s : State) : Option Effect :=
  match i with
  | .clz _ d a => some (word1 s d.toNat a.toNat fun a => BitVec.ofNat 32 (32 - Nat.size a.toNat))
  | .popc _ d a => some (word1 s d.toNat a.toNat fun a => BitVec.ofNat 32 ((List.range 32).countP fun k => a.getLsbD k))
  | .brev _ d a => some (word1 s d.toNat a.toNat fun a => BitVec.ofBoolListLE ((List.range 32).map fun k => a.getLsbD (31 - k)))
  | .absS _ d a => some (word1 s d.toNat a.toNat fun a => BitVec.ofInt 32 |a.toInt|)
  | .and16 _ d a => some (word2 s d.toNat d.toNat a.toNat fun a b => a &&& b)
  | .or16 _ d a => some (word2 s d.toNat d.toNat a.toNat fun a b => a ||| b)
  | .xor16 _ d a => some (word2 s d.toNat d.toNat a.toNat fun a b => a ^^^ b)
  | .shl16 _ d a => some (word2 s d.toNat d.toNat a.toNat fun a b => a <<< b.toNat)
  | .shr16 _ d a => some (word2 s d.toNat d.toNat a.toNat fun a b => a >>> b.toNat)
  | .sar16 _ d a => some (word2 s d.toNat d.toNat a.toNat fun a b => a.sshiftRight b.toNat)
  | .minS16 _ d a => some (word2 s d.toNat d.toNat a.toNat fun a b => if a.toInt ≤ b.toInt then a else b)
  | .maxS16 _ d a => some (word2 s d.toNat d.toNat a.toNat fun a b => if a.toInt ≤ b.toInt then b else a)
  | .andi _ d a im => some (word1 s d.toNat a.toNat fun a => a &&& im.signExtend 32)
  | .ori _ d a im => some (word1 s d.toNat a.toNat fun a => a ||| im.signExtend 32)
  | .xori _ d a im => some (word1 s d.toNat a.toNat fun a => a ^^^ im.signExtend 32)
  | .shli _ d a n => some (word1 s d.toNat a.toNat fun a => a <<< n.toNat)
  | .shri _ d a n => some (word1 s d.toNat a.toNat fun a => a >>> n.toNat)
  | .sari _ d a n => some (word1 s d.toNat a.toNat fun a => a.sshiftRight n.toNat)
  | i => (ilgWord i).map fun x => word2 s x.1.toNat x.2.1.toNat x.2.2.1.toNat x.2.2.2

/-- Position p and effective length n' of a field control word (R160). -/
def fieldP (c : Word) : Nat := (c.extractLsb' 0 5).toNat
def fieldN (c : Word) : Nat := min (c.extractLsb' 8 6).toNat (32 - fieldP c)

/-- Result byte of PRMT for a steering byte: the source bytes interleave A and F (R160). -/
def steered (a f : Word) (e : BitVec 8) : BitVec 8 :=
  let v := ((List.range 4).flatMap fun k => [a.extractLsb' (8 * k) 8, f.extractLsb' (8 * k) 8]).getD (e.toNat % 8) 0
  [v, 0x00, 0xFF, v.reverse].getD (e.toNat / 8 % 4) 0

/-- The results of BITF (R160): BFI and PRMT read the pair w(B), w(B + 1). -/
def bitfEffect (i : Instr) (s : State) : Option Effect :=
  match i with
  | .bfeN _ d a b => some (word2 s d.toNat a.toNat b.toNat fun a c =>
      BitVec.ofNat 32 (a.toNat / 2 ^ fieldP c % 2 ^ fieldN c))
  | .bfeS _ d a b => some (word2 s d.toNat a.toNat b.toNat fun a c =>
      BitVec.ofInt 32 (Int.bmod (a.toNat / 2 ^ fieldP c : Nat) (2 ^ fieldN c)))
  | .bfi _ d a b => some (out1 s d.toNat [a.toNat, b.toNat, b.toNat + 1] fun i =>
      let c := word s (b.toNat + 1) i
      BitVec.ofBoolListLE ((List.range 32).map fun k =>
        if fieldP c ≤ k ∧ k < fieldP c + fieldN c then (word s b.toNat i).getLsbD (k - fieldP c)
        else (word s a.toNat i).getLsbD k))
  | .prmt _ d a b => some (out1 s d.toNat [a.toNat, b.toNat, b.toNat + 1] fun i =>
      let e := fun k => steered (word s a.toNat i) (word s b.toNat i) ((word s (b.toNat + 1) i).extractLsb' (8 * k) 8)
      e 3 ++ e 2 ++ e 1 ++ e 0)
  | _ => none

/-- The results of I64 in the pair D (R161). -/
def i64Effect (i : Instr) (s : State) : Option Effect :=
  match i with
  | .add64 _ d a b => some (out2 s d.toNat [a.toNat, a.toNat + 1, b.toNat, b.toNat + 1] fun i =>
      dword s a.toNat i + dword s b.toNat i)
  | .sub64 _ d a b => some (out2 s d.toNat [a.toNat, a.toNat + 1, b.toNat, b.toNat + 1] fun i =>
      dword s a.toNat i - dword s b.toNat i)
  | .mulwS _ d a b => some (out2 s d.toNat [a.toNat, b.toNat] fun i =>
      (word s a.toNat i).signExtend 64 * (word s b.toNat i).signExtend 64)
  | .mulwN _ d a b => some (out2 s d.toNat [a.toNat, b.toNat] fun i =>
      (word s a.toNat i).zeroExtend 64 * (word s b.toNat i).zeroExtend 64)
  | .shl64 _ d a b => some (out2 s d.toNat [a.toNat, a.toNat + 1, b.toNat] fun i =>
      dword s a.toNat i <<< (word s b.toNat i).toNat)
  | .shr64 _ d a b => some (out2 s d.toNat [a.toNat, a.toNat + 1, b.toNat] fun i =>
      dword s a.toNat i >>> (word s b.toNat i).toNat)
  | .sar64 _ d a b => some (out2 s d.toNat [a.toNat, a.toNat + 1, b.toNat] fun i =>
      (dword s a.toNat i).sshiftRight (word s b.toNat i).toNat)
  | .madwN _ d a b => some (out2 s d.toNat [a.toNat, b.toNat, d.toNat, d.toNat + 1] fun i =>
      (word s a.toNat i).zeroExtend 64 * (word s b.toNat i).zeroExtend 64 + dword s d.toNat i)
  | _ => none

/-- The conditions of CMP by FN, and of CMPI by its field (R164, R165). -/
def conditions : List (Word → Word → Bool) :=
  [fun a b => a == b, fun a b => a != b, fun a b => a.slt b, fun a b => a.sle b, fun a b => b.slt a, fun a b => b.sle a,
   fun a b => a.ult b, fun a b => a.ule b, fun a b => b.ult a, fun a b => b.ule a]
def conditionsImm : List (Word → Word → Bool) :=
  [fun a b => a == b, fun a b => a != b, fun a b => a.slt b, fun a b => a.sle b, fun a b => b.slt a, fun a b => b.sle a,
   fun a b => a.ult b, fun a b => b.ule a]

/-- The results of CMP, CMPI, SEL and PRED (R164-R167). CMP with AND or OR reads its predicate; SEL takes value and poison of
the selected source alone. -/
def predEffect (i : Instr) (s : State) : Option Effect :=
  match i with
  | .cmp _ p m a b f => (conditions[f.toNat]?).bind fun c =>
      let r := fun i => c (word s a.toNat i) (word s b.toNat i)
      if m = 0 then some { srcs := [a.toNat, b.toNat], pouts := [(p.toNat, r)] }
      else if m = 1 then
        some { srcs := [a.toNat, b.toNat], preds := [p.toNat], pouts := [(p.toNat, fun i => pred s p.toNat i && r i)] }
      else if m = 2 then
        some { srcs := [a.toNat, b.toNat], preds := [p.toNat], pouts := [(p.toNat, fun i => pred s p.toNat i || r i)] }
      else none
  | .cmpi _ p c a im => (conditionsImm[c.toNat]?).map fun c =>
      { srcs := [a.toNat], pouts := [(p.toNat, fun i => c (word s a.toNat i) (im.signExtend 32))] }
  | .sel _ d a b p n => some
      { srcs := [a.toNat, b.toNat], preds := [p.toNat],
        outs := [(d.toNat, fun i => if pred s p.toNat i ^^ (n == 1) then lane s a.toNat i else lane s b.toNat i)] }
  | .pand _ d a b => some
      { srcs := [], preds := [a.toNat, b.toNat],
        pouts := [(d.toNat, fun i => pred s a.toNat i && pred s b.toNat i)] }
  | .por _ d a b => some
      { srcs := [], preds := [a.toNat, b.toNat],
        pouts := [(d.toNat, fun i => pred s a.toNat i || pred s b.toNat i)] }
  | .pxor _ d a b => some
      { srcs := [], preds := [a.toNat, b.toNat],
        pouts := [(d.toNat, fun i => pred s a.toNat i ^^ pred s b.toNat i)] }
  | .pandn _ d a b => some
      { srcs := [], preds := [a.toNat, b.toNat],
        pouts := [(d.toNat, fun i => pred s a.toNat i && !pred s b.toNat i)] }
  | .ptow _ d a => some
      { srcs := [], preds := [a.toNat],
        outs := [(d.toNat, fun i => ⟨if pred s a.toNat i then 1 else 0, false⟩)] }
  | .wtop _ d a => some { srcs := [a.toNat], pouts := [(d.toNat, fun i => word s a.toNat i != 0)] }
  | _ => none

end Sys2Proof.Claim
end

