-- ==== Sys2Proof/Claims/Memory.lean ====
section
/-! DEFINITION. Loads, stores, atomics, fences, cache maintenance and the tag table (spec/09, spec/10) as tables. -/

namespace Sys2Proof.Claim

open Sys2Proof.Machine

/-! ## Places -/

/-- The die of the warp. -/
def here (s : State) : Nat := dieOf s.cur.wid

/-- Nothing of the warp stands in its store queue, and nothing in the order of its core (R255, R256). -/
abbrev Drained (s : State) : Prop := s.w.storeQ = [] ∧ (s.getCore (State.orderCore s.cur.wid)).order = []

/-- No atomic of the warp stands in its store queue. -/
abbrev NoAtoms (s : State) : Prop := ∀ e ∈ s.w.storeQ, State.isAtom e = false

/-- bB + SignExtend64(wO[i]) (R227). -/
def addr (s : State) (b o i : Nat) : DWord := base s b + (word s o i).signExtend 64

/-- The physical address of memory that an access of n bytes reaches, when it may be made and is not lost with its peer. -/
def phys (s : State) (need : State.Need) (n : Nat) (a : DWord) : Option Nat :=
  match s.place need n a with
  | .ok (.mem pa) => if s.peerDown pa then none else some pa
  | _ => none

/-- The register of the management window that an access reaches (R449). -/
def windowOf (s : State) (need : State.Need) (n : Nat) (a : DWord) : Option Nat :=
  match s.place need n a with
  | .ok (.win off) => some off
  | _ => none

/-- Every active lane reaches memory at an aligned address, with no poison in its offset (R227). -/
def Reaches (s : State) (need : State.Need) (n b o : Nat) : Prop :=
  ∀ i, active s i = true →
    poison s o i = false ∧ (addr s b o i).toNat % n = 0 ∧ (phys s need n (addr s b o i)).isSome = true

/-- The physical address of lane i. -/
def place (s : State) (need : State.Need) (n b o i : Nat) : Nat := (phys s need n (addr s b o i)).getD 0

/-- Registers of a size: 1, 2 or 4 (R227). -/
def sizeRegs (n : Nat) : Nat := if n = 8 then 2 else if n = 16 then 4 else 1

/-- Register k of a load of n bytes that hold the number v (R227). -/
def loaded (n : Nat) (sx : Bool) (v k : Nat) : Word :=
  if n = 1 then if sx then (BitVec.ofNat 8 v).signExtend 32 else BitVec.ofNat 32 (v % 2 ^ 8)
  else if n = 2 then if sx then (BitVec.ofNat 16 v).signExtend 32 else BitVec.ofNat 32 (v % 2 ^ 16)
  else BitVec.ofNat 32 (v / 2 ^ (32 * k))

/-- The n bytes that lane i stores from registers d up (R227). -/
def storedBytes (s : State) (d n i : Nat) : List Byte :=
  (List.range n).map fun j => (word s (d + j / 4) i).extractLsb' (8 * (j % 4)) 8

/-- Stores are made in units of at most 8 bytes (R222). -/
def pieces (bytes : List Byte) : List (Nat × List Byte) :=
  if bytes.length ≤ 8 then [(0, bytes)] else [(0, bytes.take 8), (8, bytes.drop 8)]

/-- The active lanes in ascending order; the highest alone when the offset is U (R225). -/
def storing (s : State) (o : Nat) : List Nat :=
  let ls := (List.range 64).filter (active s)
  if (reg s o).isU then ls.getLast?.toList else ls

/-- Store-queue entries with the next numbers. -/
def numbered (s : State) (ops : List StoreOp) : List StoreEntry := ops.zipIdx.map fun x => ⟨s.fresh + x.2, s.cur.wid, x.1⟩

/-- The entries are appended to the warp's store queue, and the rest is kept. -/
def Queues (s t : State) (ops : List StoreOp) (ds : List Dest) : Prop :=
  t.w.storeQ = s.w.storeQ ++ numbered s ops ∧ Keeps s (t.modW fun w => { w with storeQ := s.w.storeQ }) ds

/-- The frame but for memory, die caches and what is known of writes to homes (log 71). -/
def KeepsButMemory (s t : State) (ds : List Dest) : Prop :=
  Keeps s { t with mem := s.mem, poison := s.poison, dies := s.dies, tags := s.tags } ds

/-- The frame but for what the accesses of the warp's die have observed (log 71). -/
def KeepsButSeen (s t : State) (ds : List Dest) : Prop :=
  Keeps s (t.modDie (here s) fun k => { k with seen := (s.getDie (here s)).seen }) ds

/-- The copies of a die, but for which writes they have missed. -/
def copiesOf (k : Die) : List (Nat × CLine) := k.cache.map fun e => (e.1, { e.2 with missed := [] })

/-- What the die of the warp sees at an address when an acquire at PKG has ended, of a line that it did not read at its home:
what it sees after the invalidation, which a gang whose invalidation was made before the acquire began to read makes only of
copies that have missed a write known by then (R258, R261; log 71). -/
def seesFresh (s t : State) (a : Nat) : Prop :=
  t.dieRead (here s) a 1 =
    if s.gang.opened = true ∧ ¬ (∃ c, s.getLine? (here s) (a / 64) = some c ∧
        State.reached (here s) State.scopePkg (a / 64) = true ∧ State.stale (t.getDie (here s)).heard c = true) then
      s.dieRead (here s) a 1
    else (s.invalidate (here s) State.scopePkg).dieRead (here s) a 1

/-- A result of m registers from d up in the trap bank is U under a full mask (R65). -/
abbrev BankOk (s : State) (d m : Nat) (u : Bool) : Prop :=
  s.w.hm = true → 56 < d + m → u = true ∧ s.act = s.present

/-- Destinations d to d + m - 1. -/
def dests (s : State) (d m : Nat) : List Dest := (List.range m).map fun k => s.dst (d + k)

/-- What a die sees of a byte, as a number of n of them. -/
def dieNat (s : State) (d pa n : Nat) : Nat := leNat (s.dieRead d pa n)
def homeNat (s : State) (pa n : Nat) : Nat := leNat (s.homeRead pa n)

/-- A die caches only lines of other homes, and its dirty bytes are valid: in every state that a run reaches (R257). -/
def CachesOk (s : State) : Prop :=
  ∀ d l c, (s.getDie d).cache.find? l = some c → State.foreign d l = true ∧ c.dirty &&& ~~~c.valid = 0

/-! ## LD and ST (R227, R228, R261) -/

/-- A load that is not an acquire at PKG: what the die sees, with the poison of the line; what happens before the writes that
it observes is carried along by the die's releases from now on (R262; log 71). -/
def plainLoad (s t : State) (d o b n : Nat) (sx : Bool) : Prop :=
  (∀ k < sizeRegs n, Lanes s t (d + k) fun i =>
    ⟨loaded n sx (dieNat s (here s) (place s .read n b o i) n) k, s.diePoison (here s) (place s .read n b o i / 64)⟩) ∧
  (∀ i, active s i = true → ∀ k < 4, (s.sight (here s) (place s .read n b o i / 64)).getD k 0 ≤
    (t.getDie (here s)).seen.getD k 0) ∧
  KeepsButSeen s t (dests s d (sizeRegs n))

/-- A load with .ACQ.PKG: what the homes of its lines hold once the die's dirty bytes of them are written back; of every
other line, the die sees what it sees after an acquire at PKG, and no home has changed; the die knows the writes that happen
before what it read. -/
def freshLoad (s t : State) (d o b n : Nat) (sx : Bool) : Prop :=
  (∀ k < sizeRegs n, Lanes s t (d + k) fun i =>
    ⟨loaded n sx (homeNat (s.writeBackLine (here s) (place s .read n b o i / 64)) (place s .read n b o i) n) k,
      (s.writeBackLine (here s) (place s .read n b o i / 64)).homePoison (place s .read n b o i / 64)⟩) ∧
  (∀ a, (∀ i, active s i = true → place s .read n b o i / 64 ≠ a / 64) →
    t.homeRead a 1 = s.homeRead a 1 ∧ seesFresh s t a) ∧
  (∀ i, active s i = true → ∀ k < 4,
    (if s.gang.opened = true then (s.tags.get (place s .read n b o i / 64) []).getD k 0 else (s.getDie k).wrote) ≤
      (t.getDie (here s)).heard.getD k 0) ∧
  (∀ e, e ≠ here s → copiesOf (t.getDie e) = copiesOf (s.getDie e)) ∧
  KeepsButMemory s t (dests s d (sizeRegs n))

/-- The store operations of an ST (R227, R228). -/
def stOps (s : State) (d o b n ord : Nat) : List StoreOp :=
  (storing s o).flatMap fun i => (pieces (storedBytes s d n i)).map fun x =>
    if ord < 2 then StoreOp.dev (place s .write n b o i + x.1) x.2
    else .rel (if ord = 3 then State.scopePkg else State.scopeDie) (place s .write n b o i + x.1) x.2

/-- The byte that the warp itself would now load from a physical address. -/
def seen (s : State) (a : Nat) : List Byte := (s.loadView s.cur.wid a 1 false).1

/-- After an ST the warp sees at each address the byte of the highest lane that stored there, and elsewhere what it saw. -/
def seesStores (s t : State) (d o b n : Nat) : Prop :=
  ∀ a, seen t a =
    match (storing s o).reverse.find? (fun i => decide (place s .write n b o i ≤ a ∧ a < place s .write n b o i + n)) with
    | some i => [(storedBytes s d n i).getD (a - place s .write n b o i) 0]
    | none => seen s a

/-- The data registers of a store hold no poison in an active lane. -/
def cleanData (s : State) (d m : Nat) : Prop := ∀ k < m, ∀ i, active s i = true → poison s (d + k) i = false

/-! ## Scratchpad (R230, R231, R234) -/

/-- The offset of lane i: the whole word, or its low 21 bits when the access is crew-remote. -/
def spOff (s : State) (o : Nat) (m : BitVec 1) (i : Nat) : Nat :=
  if m = 1 then (word s o i).toNat % 2 ^ 21 else (word s o i).toNat

/-- The team that lane i reaches. -/
def spHere (s : State) (o : Nat) (c : BitVec 2) (m : BitVec 1) (i : Nat) : Option Nat :=
  match s.spTarget (m == 1) c.toNat (word s o i) with
  | .here t => some t
  | _ => none

/-- Every active lane reaches an allocation at an aligned offset inside it. -/
def SpReaches (s : State) (n o : Nat) (c : BitVec 2) (m : BitVec 1) : Prop :=
  ∀ i, active s i = true → poison s o i = false ∧ spOff s o m i % n = 0 ∧
    ∃ k, spHere s o c m i = some k ∧ spOff s o m i + n ≤ s.spSize k

/-- The word with number w of an allocation as the warp loads it. -/
def spSeen (s : State) (k w : Nat) : Lane := s.loadSpWord s.cur.wid k w

/-- Register k of an LDSP in lane i (R234, R237). -/
def spLoaded (s : State) (n o : Nat) (c : BitVec 2) (m : BitVec 1) (sx : Bool) (k i : Nat) : Lane :=
  let x := spSeen s ((spHere s o c m i).getD 0) (spOff s o m i / 4 + k)
  ⟨if n < 4 then loaded n sx (x.val.toNat / 2 ^ (8 * (spOff s o m i % 4))) 0 else x.val, x.poison⟩

/-- The store operations of an STSP. -/
def stspOps (s : State) (d n o : Nat) (c : BitVec 2) (m : BitVec 1) : List StoreOp :=
  (storing s o).flatMap fun i => (pieces (storedBytes s d n i)).map fun x =>
    if m = 1 then StoreOp.spRemote ((spHere s o c m i).getD 0) (spOff s o m i + x.1) x.2
    else .sp ((spHere s o c m i).getD 0) (spOff s o m i + x.1) x.2

/-! ## Atomics (R265-R271) -/

/-- The value that an operation leaves at a unit, if it writes one (R265, R266, R270). -/
def atomNew (op : AtomOp) (old x y : Nat) : Option Nat :=
  match op with
  | .add => some ((old + x) % 2 ^ 32)
  | .minS => some (if (BitVec.ofNat 32 old).toInt ≤ (BitVec.ofNat 32 x).toInt then old else x)
  | .maxS => some (if (BitVec.ofNat 32 old).toInt ≤ (BitVec.ofNat 32 x).toInt then x else old)
  | .minN => some (min old x)
  | .maxN => some (max old x)
  | .andB => some (old &&& x)
  | .orB => some (old ||| x)
  | .xorB => some (old ^^^ x)
  | .exch => some x
  | .cas => if old = x then some y else none
  | .faddF32 => some (fadd .f32 FEnv.zero old x).1
  | .faddF64 => some (fadd .f64 FEnv.zero old x).1
  | .fminF32 => some (fminmax .f32 FEnv.zero false old x).1
  | .fmaxF32 => some (fminmax .f32 FEnv.zero true old x).1
  | .add64 => some ((old + x) % 2 ^ 64)
  | .incw => some (if x ≤ old then 0 else old + 1)

/-- Bytes of the unit; the operand of lane i, and the second one of CAS. -/
def atomSize (op : AtomOp) : Nat := if op = .faddF64 ∨ op = .add64 then 8 else 4
def atomX (s : State) (op : AtomOp) (a i : Nat) : Nat :=
  if atomSize op = 8 then (dword s a i).toNat else (word s a i).toNat
def atomY (s : State) (op : AtomOp) (a i : Nat) : Nat := if op = .cas then (word s (a + 1) i).toNat else 0

/-- The lanes of one unit in turn: what lane i finds there, and what the last leaves (R267). -/
def atomTurn (s : State) (op : AtomOp) (a : Nat) : List Nat → Nat → List (Nat × Nat) × Nat
  | [], v => ([], v)
  | i :: rest, v =>
    let r := atomTurn s op a rest ((atomNew op v (atomX s op a i) (atomY s op a i)).getD v)
    ((i, v) :: r.1, r.2)

/-- The operands that an atomic reads hold no poison in an active lane. -/
def atomClean (s : State) (op : AtomOp) (a : Nat) : Prop :=
  ∀ i, active s i = true → poison s a i = false ∧ (atomSize op = 8 ∨ op = .cas → poison s (a + 1) i = false)

/-- The place of an atomic of a scope: the home of the unit from PKG up and for host and peer memory, the die otherwise
(R268). -/
def atHome (scope pa : Nat) : Bool := decide (State.scopePkg ≤ scope) || (Config.homeDie pa).isNone

/-- What a unit holds at its place, and whether its line is poisoned. -/
def unitNat (s : State) (scope pa n : Nat) : Nat :=
  if atHome scope pa then homeNat (s.writeBackLine (here s) (pa / 64)) pa n else dieNat s (here s) pa n
def unitPoison (s : State) (scope pa : Nat) : Bool :=
  if atHome scope pa then (s.writeBackLine (here s) (pa / 64)).homePoison (pa / 64) else s.diePoison (here s) (pa / 64)

/-- Every active lane reaches the one unit at physical address pa. -/
def OneUnit (s : State) (n o pa : Nat) : Prop :=
  s.act ≠ 0 ∧ ∀ i, active s i = true → poison s (2 * o) i = false ∧ poison s (2 * o + 1) i = false ∧
    (dword s (2 * o) i).toNat % n = 0 ∧ phys s .readWrite n (dword s (2 * o) i) = some pa

/-- An atomic on one unit with an acquire (R267, R269): the lanes find in turn what the one before left; a poisoned line is
not written, and every lane takes its value with poison. -/
def atomDone (s t : State) (op : AtomOp) (d a scope pa : Nat) : Prop :=
  let n := atomSize op
  let v := unitNat s scope pa n
  let r := atomTurn s op a ((List.range 64).filter (active s)) v
  let olds (i : Nat) : Nat := ((r.1.find? fun e => e.1 == i).map (·.2)).getD 0
  (∀ k < n / 4, Lanes s t (d + k) fun i =>
    if unitPoison s scope pa then ⟨BitVec.ofNat 32 (v / 2 ^ (32 * k)), true⟩
    else ⟨BitVec.ofNat 32 (olds i / 2 ^ (32 * k)), false⟩) ∧
  unitNat t scope pa n = (if unitPoison s scope pa then v else r.2) ∧
  (∀ e, ¬ (pa ≤ e ∧ e < pa + n) → t.homeRead e 1 = s.homeRead e 1 ∨ t.homeRead e 1 = s.dieRead (here s) e 1) ∧
  t.w.storeQ = [] ∧ SameRegs s t (dests s d (n / 4)) ∧ SameSpecial s.w t.w ∧ t.gang.pc = nextPc s

/-- An atomic on one unit without an acquire: it stands in the store queue with its lanes in ascending order. -/
def atomQueued (s t : State) (op : AtomOp) (d a scope pa : Nat) (rel : Bool) : Prop :=
  let n := atomSize op
  Queues s t
    [.atom op rel scope pa n (((List.range 64).filter (active s)).map fun i =>
        ⟨i, BitVec.ofNat 64 (atomX s op a i), BitVec.ofNat 64 (atomY s op a i)⟩)
      ((List.range (n / 4)).map fun k => s.fresh + 1 + k)]
    (dests s d (n / 4)) ∧
  ∀ k < n / 4, ∃ e ∈ t.w.pend, e.id = s.fresh + 1 + k ∧ e.dest = s.dst (d + k) ∧ e.ready = false ∧ e.vis = none

def atomContract (op : AtomOp) (d o a scope ord : Nat) : Contract :=
  { pre := fun s => (ord = 1 ∨ ord = 3 → Drained s ∧ CachesOk s) ∧ atomClean s op a ∧ ∃ pa, OneUnit s (atomSize op) o pa
    post := fun s t => ∀ pa, OneUnit s (atomSize op) o pa →
      if ord = 1 ∨ ord = 3 then atomDone s t op d a scope pa else atomQueued s t op d a scope pa (decide (ord = 2)) }

/-! ## Poison and maintenance (R238, R239, R248-R250) -/

/-- The line that lane i names. -/
def lineOf' (s : State) (need : State.Need) (b o i : Nat) : Nat := (phys s need 64 (addr s b o i)).getD 0 / 64

/-- The active lanes whose offset is not poisoned. -/
def named (s : State) (o : Nat) : List Nat := (List.range 64).filter fun i => active s i && !poison s o i

/-- Each of them names a line of memory, or, of the scratchpad, a word of the allocation. -/
abbrev NamesLines (s : State) (need : State.Need) (b o : Nat) : Prop :=
  ∀ i ∈ named s o, (phys s need 64 (addr s b o i)).isSome = true
abbrev NamesWords (s : State) (o : Nat) : Prop :=
  ∀ i ∈ named s o, 4 * ((word s o i).toNat / 4) + 4 ≤ s.spSize s.w.team

/-- The distinct lines or words, in the order of their first lanes. -/
def linesOf (s : State) (need : State.Need) (b o : Nat) : List Nat := ((named s o).map (lineOf' s need b o)).eraseDups
def wordsOf (s : State) (o : Nat) : List Nat := ((named s o).map fun i => (word s o i).toNat / 4).eraseDups

/-! ## The tables -/

/-- Loads, stores, atomics, fences and maintenance. -/
def memoryContract (i : Instr) : Option Contract :=
  match i with
  | .ld _ d o b z x r =>
    let n := 2 ^ z.toNat
    some
      { pre := fun s => z.toNat ≤ 4 ∧ Drained s ∧ Reaches s .read n b.toNat o.toNat ∧
          BankOk s d.toNat (sizeRegs n) (reg s o.toNat).isU
        post := fun s t =>
          if r = 3 then freshLoad s t d.toNat o.toNat b.toNat n (x == 1)
          else plainLoad s t d.toNat o.toNat b.toNat n (x == 1) }
  | .st _ d o b z r =>
    let n := 2 ^ z.toNat
    some
      { pre := fun s => z.toNat ≤ 4 ∧ Reaches s .write n b.toNat o.toNat ∧ cleanData s d.toNat (sizeRegs n)
        post := fun s t =>
          Queues s t (stOps s d.toNat o.toNat b.toNat n r.toNat) [] ∧ seesStores s t d.toNat o.toNat b.toNat n }
  | .ldsp _ d o c m z x =>
    let n := 2 ^ z.toNat
    some
      { pre := fun s => z.toNat ≤ 4 ∧ NoAtoms s ∧ SpReaches s n o.toNat c m ∧
          BankOk s d.toNat (sizeRegs n) (reg s o.toNat).isU
        post := fun s t =>
          (∀ k < sizeRegs n, Lanes s t (d.toNat + k) (spLoaded s n o.toNat c m (x == 1) k)) ∧
            Keeps s t (dests s d.toNat (sizeRegs n)) }
  | .stsp _ d o c m z =>
    let n := 2 ^ z.toNat
    some
      { pre := fun s => z.toNat ≤ 4 ∧ SpReaches s n o.toNat c m ∧ cleanData s d.toNat (sizeRegs n)
        post := fun s t => Queues s t (stspOps s d.toNat n o.toNat c m) [] }
  | .atom _ d o a p c r => some (atomContract (atomOpOf p.toNat) d.toNat o.toNat a.toNat (c.toNat + 1) r.toNat)
  | .atomx _ d o a p c r => some (atomContract (atomxOpOf p.toNat) d.toNat o.toNat a.toNat (c.toNat + 1) r.toNat)
  | .atomsp _ d a b f =>
    let op := atomSpOpOf f.toNat
    some
      { pre := fun s => atomClean s op b.toNat ∧ s.act ≠ 0 ∧ (s.w.hm = true → d.toNat < 56) ∧
          ∃ off, off % 4 = 0 ∧ off + 4 ≤ s.spSize s.w.team ∧
            ∀ i, active s i = true → poison s a.toNat i = false ∧ (word s a.toNat i).toNat = off
        post := fun s t => ∀ off, (∀ i, active s i = true → (word s a.toNat i).toNat = off) →
          Queues s t [.atomSp op s.w.team off (((List.range 64).filter (active s)).map fun i =>
            ⟨i, BitVec.ofNat 64 (atomX s op b.toNat i), BitVec.ofNat 64 (atomY s op b.toNat i)⟩) [s.fresh + 1]]
            [s.dst d.toNat] ∧
          ∃ e ∈ t.w.pend, e.id = s.fresh + 1 ∧ e.dest = s.dst d.toNat ∧ e.ready = false ∧ e.vis = none }
  | .fence _ e k => some
      { pre := fun s => k ≠ 0 ∧ e.toNat ≤ 4 ∧ (k = 1 → NoAtoms s)
        post := fun s t =>
          if k = 2 then Queues s t [.fence e.toNat] []
          else if k = 1 then
            (∀ a, t.homeRead a 1 = s.homeRead a 1 ∧
              t.dieRead (here s) a 1 = (s.invalidate (here s) e.toNat).dieRead (here s) a 1) ∧
            (∀ d, d ≠ here s → (t.getDie d).cache = (s.getDie d).cache) ∧ KeepsButMemory s t []
          else
            t.w.storeQ = [] ∧ SameRegs s t [] ∧ t.gang.pc = nextPc s ∧
            (1 ≤ e.toNat → (∀ x ∈ (t.getCore (State.orderCore s.cur.wid)).order, x.wid ≠ s.cur.wid) ∧
              ∀ l c, (t.getDie (here s)).cache.find? l = some c → State.reached (here s) e.toNat l = true →
                c.dirty = 0 ∧ c.pdirty = false) }
  | .pref _ a b => some
      { post := fun s t => Keeps s t [] ∧ ∀ i ∈ named s a.toNat,
          (phys s .read 64 (addr s b.toNat a.toNat i)).isSome = true →
          State.foreign (here s) (lineOf' s .read b.toNat a.toNat i) = true →
          ((t.getDie (here s)).cache.find? (lineOf' s .read b.toNat a.toNat i)).isSome = true }
  | .cwb _ a b => some
      { pre := fun s => NamesLines s .any b.toNat a.toNat
        post := fun s t => Queues s t ((linesOf s .any b.toNat a.toNat).map .writeBack) [] }
  | .icinv _ a b => some
      { pre := fun s => NamesLines s .any b.toNat a.toNat ∧ Drained s
        post := fun s t => t.w.storeQ = [] ∧ SameRegs s t [] ∧ t.gang.pc = nextPc s ∧
          ∀ c l, (t.getCore c).icache.find? l =
            if l ∈ linesOf s .any b.toNat a.toNat then none else (s.getCore c).icache.find? l }
  | .ptest _ d a b m => some
      { pre := fun s => Drained s ∧ (s.w.hm = true → 56 ≤ d.toNat → (reg s a.toNat).isU = true ∧ s.act = s.present) ∧
          if m = 1 then NamesLines s .read b.toNat a.toNat else NamesWords s a.toNat
        post := fun s t =>
          Lanes s t d.toNat (fun i => ⟨if poison s a.toNat i ||
              (if m = 1 then s.diePoison (here s) (lineOf' s .read b.toNat a.toNat i)
               else (spSeen s s.w.team ((word s a.toNat i).toNat / 4)).poison) then 1 else 0, poison s a.toNat i⟩) ∧
          KeepsButSeen s t [s.dst d.toNat] }
  | .pclr _ a b m => some
      { pre := fun s => if m = 1 then NamesLines s .write b.toNat a.toNat else NamesWords s a.toNat
        post := fun s t => Queues s t
          (if m = 1 then (linesOf s .write b.toNat a.toNat).map .clearLine
           else (wordsOf s a.toNat).map fun w => .clearWord s.w.team w) [] }
  | _ => none

/-- Loads and stores of a management core in its window (R449): a load gives the register, a store writes it. -/
def windowContract (i : Instr) : Option Contract :=
  match i with
  | .ld _ d o b z _ r =>
    some
      { pre := fun s => z = 2 ∧ Drained s ∧ s.act = s.present ∧ s.present = 1 ∧ poison s o.toNat 0 = false ∧
          r ≠ 3 ∧ (addr s b.toNat o.toNat 0).toNat % 4 = 0 ∧
          (windowOf s .read 4 (addr s b.toNat o.toNat 0)).isSome = true ∧ BankOk s d.toNat 1 (reg s o.toNat).isU
        post := fun s t =>
          Lanes s t d.toNat (fun _ => ⟨s.windowRead ((windowOf s .read 4 (addr s b.toNat o.toNat 0)).getD 0), false⟩) ∧
            Keeps s t [s.dst d.toNat] }
  | .st _ d o b z r =>
    some
      { pre := fun s => z = 2 ∧ s.act = s.present ∧ s.present = 1 ∧ poison s o.toNat 0 = false ∧ poison s d.toNat 0 = false ∧
          r.toNat < 2 ∧ (addr s b.toNat o.toNat 0).toNat % 4 = 0 ∧
          (windowOf s .write 4 (addr s b.toNat o.toNat 0)).isSome = true
        post := fun s t =>
          let u := s.windowWrite ((windowOf s .write 4 (addr s b.toNat o.toNat 0)).getD 0) (word s d.toNat 0)
          t.clusters = u.clusters ∧ t.dies = u.dies ∧ t.cores = u.cores ∧ t.teams = u.teams ∧ t.parts = u.parts ∧
            SameRegs s t [] ∧ t.gang.pc = nextPc s }
  | _ => none

/-- The tag table of the team (R240). -/
def table (s : State) : Option TagTable := s.team?.bind (·.tag)

/-- The active lanes with the words of register n, ascending. -/
def keys (s : State) (n : Nat) : List (Nat × Word) := ((List.range 64).filter (active s)).map fun i => (i, word s n i)

/-- The team's table becomes `x`, and everything else is kept. -/
def Tags (s t : State) (x : TagTable) (ds : List Dest) : Prop :=
  table t = some x ∧ Keeps s { t with teams := s.teams } ds ∧
    ∀ k, k ≠ s.w.team → t.getTeam? k = s.getTeam? k

/-- The tag instructions (R243-R246). -/
def tagContract (i : Instr) : Option Contract :=
  match i with
  | .taglk _ d a => some
      { pre := fun s => (table s).isSome = true ∧
          (s.w.hm = true → 56 ≤ d.toNat → (reg s a.toNat).isU = true ∧ s.act = s.present)
        post := fun s t => ∀ x, table s = some x →
          Lanes s t d.toNat (fun i => ⟨(((x.lookup (keys s a.toNat)).1.find? fun e => e.1 == i).map (·.2)).getD 0,
            poison s a.toNat i⟩) ∧
          Tags s t (x.lookup (keys s a.toNat)).2 [s.dst d.toNat] }
  | .tagset _ a b => some
      { pre := fun s => ∃ x, table s = some x ∧ ∀ i, active s i = true → (word s b.toNat i).toNat < x.slots ∧
          (word s a.toNat i).toNat % x.sets = (word s b.toNat i).toNat / x.ways
        post := fun s t => ∀ x, table s = some x →
          Tags s t (((List.range 64).filter (active s)).foldl (fun x i =>
            x.setKey (word s a.toNat i) (word s b.toNat i).toNat) x) [] }
  | .taginv _ a b => some
      { pre := fun s => b.toNat ≤ 2 ∧ ∃ x, table s = some x ∧
          (b = 1 → ∀ i, active s i = true → (word s a.toNat i).toNat < x.slots)
        post := fun s t => ∀ x, table s = some x →
          Tags s t (if b = 2 then { x with entries := [] }
            else ((List.range 64).filter (active s)).foldl (fun x i =>
              match (if b = 1 then some (word s a.toNat i).toNat else x.slotOf (word s a.toNat i)) with
              | some k => x.invalidate k
              | none => x) x) [] }
  | .tagcfg _ a b => some
      { pre := fun s => (table s).isSome = true ∧ (reg s a.toNat).isU = true ∧ (reg s b.toNat).isU = true ∧
          TagTable.goodGeometry (word s a.toNat 0) = true ∧
          (word s b.toNat 0).toNat % TagTable.slotBytes (word s a.toNat 0) = 0 ∧
          (word s b.toNat 0).toNat + 2 ^ ((word s a.toNat 0).extractLsb' 4 4).toNat *
            2 ^ ((word s a.toNat 0).extractLsb' 0 4).toNat * TagTable.slotBytes (word s a.toNat 0) ≤ s.spSize s.w.team
        post := fun s t => Tags s t ⟨word s a.toNat 0, word s b.toNat 0, []⟩ [] }
  | _ => none

end Sys2Proof.Claim
end

