-- ==== Sys2Proof/Claims/Control.lean ====
section
/-! DEFINITION. Control flow (spec/04) as tables: where a gang or a lane goes on, and what a split, a join, a loop or an
exit leaves. -/

namespace Sys2Proof.Claim

open Sys2Proof.Machine

/-- PC + 2 × a signed halfword offset (R35). -/
def away (s : State) (off : Int) : DWord := s.cur.pc + BitVec.ofInt 64 (2 * off)

/-- A transfer of the whole gang: the frame, with the loop stack as it is (R113: no end test after a taken transfer). -/
def Jumps (s t : State) (pc : DWord) (ds : List Dest) : Prop := KeepsTo s t ds pc s.gang.loops

/-- The branch condition c(i) of a lane (R107). -/
def holds (s : State) (p : BitVec 3) (n : BitVec 1) (i : Nat) : Bool := pred s p.toNat i ^^ (n == 1)

/-- Some active lane takes the branch; some does not (R107). -/
def someTake (s : State) (p : BitVec 3) (n : BitVec 1) : Bool := (List.range 64).any fun i => active s i && holds s p n i
def someFall (s : State) (p : BitVec 3) (n : BitVec 1) : Bool := (List.range 64).any fun i => active s i && !holds s p n i

/-- The halfword, and the word, of instruction memory that the fetch path reads at an address (R34, R119); the word with the
state after it, in which the instruction cache may hold another line. -/
def halfAt (s : State) (a : DWord) : Option (BitVec 16) := (s.codeHalf s.cur.wid a).toOption.map (·.1)
def wordAt (s : State) (a : DWord) : Option (Word × State) := (s.codeWord s.cur.wid a).toOption

/-- The target that a jump table at `t` gives index x, if the index is in range and both words can be read (R119). -/
def tableTarget (s : State) (t : DWord) (x : Word) : Option DWord :=
  (wordAt s t).bind fun n => (wordAt n.2 (t + 4 + 4 * x.zeroExtend 64)).bind fun e =>
    if t.toNat % 4 = 0 ∧ n.1.toNat < 2 ^ 16 ∧ x.toNat < n.1.toNat then some (t + 2 * e.1.signExtend 64) else none

/-- The targets that a jump table at `t` of n entries gives some indexes, each word read once, in turn (R119). -/
def tableWalk (t : DWord) (n : Nat) : List Word → State → Option (List (Word × DWord))
  | [], _ => some []
  | x :: rest, s => (wordAt s (t + 4 + 4 * x.zeroExtend 64)).bind fun e =>
      if x.toNat < n then (tableWalk t n rest e.2).map fun l => (x, t + 2 * e.1.signExtend 64) :: l else none

/-- The target of each active lane of BRX (R119, R120): the table at `t` is aligned and its header and words can be read, no
active lane of the index is poisoned, and each is in range. -/
def laneTargets (s : State) (a : Nat) (t : DWord) : Option (Nat → DWord) :=
  (wordAt s t).bind fun n =>
    if t.toNat % 4 = 0 ∧ n.1.toNat < 2 ^ 16 ∧ ∀ i ∈ LaneSet.toList s.act, poison s a i = false then
      (tableWalk t n.1.toNat ((LaneSet.toList s.act).map (word s a)).eraseDups n.2).map fun l i =>
        ((l.find? fun e => e.1 == word s a i).map (·.2)).getD 0
    else none

/-- LOOP with count n and the body's last instruction at L (R112). -/
def loopPost (s t : State) (n : Word) (e : BitVec 15) : Prop :=
  let l := s.cur.pc + BitVec.ofNat 64 (2 * e.toNat)
  if n = 0 then ∀ hw, halfAt s l = some hw → Jumps s t (l + (if hw.getLsbD 0 then 4 else 2)) []
  else KeepsTo s t [] (s.cur.pc + 4) (⟨s.cur.pc + 4, l, n, false⟩ :: s.gang.loops)

/-- LOOP has its effect: the stack has room, or the count is 0 and the length of the last instruction can be read. -/
abbrev loopPre (s : State) (n : Word) (e : BitVec 15) : Prop :=
  if n = 0 then (halfAt s (s.cur.pc + BitVec.ofNat 64 (2 * e.toNat))).isSome = true else s.gang.loops.length < 4

/-- The warp before an instruction with the path tables of the warp after it. -/
def pathsOf (s t : State) : Warp :=
  { s.w with exited := t.w.exited, joins := t.w.joins, slices := t.w.slices, releases := t.w.releases }

/-- Registers and everything outside the warp are kept; split table, join table and mask stacks may change. -/
structure OnlyPaths (s t : State) : Prop where
  regs : SameRegs s t []
  outside : SameOutside s t

/-- The records of the chain from a record through its parents (R108). -/
def chain (w : Warp) : Nat → BitVec 5 → Nat
  | 0, _ => 0
  | fuel + 1, k => match w.joins.find? k.toNat with
    | some r => 1 + chain w fuel r.parent
    | none => 0

/-- No slice of the gang has a top deferred entry tagged with the gang's INNER: nothing is released (R101). -/
def nothingDeferred (s : State) : Prop :=
  ∀ j < 16, s.gang.slices.getLsbD j = true → ∀ d, (s.w.slice j).stack.head? = some d → d.tag ≠ s.gang.inner

/-- The warp once it has discarded what it has fetched ahead and the loop-buffer copies that it uses (R116, R117, R131). -/
def dropped (s : State) : Warp := s.w.sync s.fresh

/-- The branches, calls, loops and returns that move the whole gang (R106-R121), NOP and ISYNC (R117, R123). -/
def transferContract (i : Instr) : Option Contract :=
  match i with
  | .nop _ => some { post := fun s t => Keeps s t [] }
  | .isync _ => some
      { post := fun s t => t.w.copies = [] ∧ t.w.synced = s.fresh ∧
          (∀ e, ∀ r ∈ (State.gangOf t.w e).loops, r.buf = false) ∧
          (∀ k r, t.w.joins.find? k = some r → ∀ l ∈ r.loops, l.buf = false) ∧
          Keeps (s.modW fun _ => dropped s) t [] }
  | .bra _ o => some { post := fun s t => Jumps s t (away s o.toInt) [] }
  | .brc _ p n o => some
      { pre := fun s => someTake s p n = false ∨ someFall s p n = false ∨ away s o.toInt = s.seqPc
        post := fun s t =>
          if someFall s p n = false then Jumps s t (away s o.toInt) [] else Keeps s t [] }
  | .brcAny _ p n o => some
      { post := fun s t =>
          if someTake s p n = true then Jumps s t (away s o.toInt) [] else Keeps s t [] }
  | .brcAll _ p n o => some
      { post := fun s t =>
          if someFall s p n = false then Jumps s t (away s o.toInt) [] else Keeps s t [] }
  | .call _ o => some
      { post := fun s t => base t 15 = s.cur.pc + 4 ∧ Jumps s t (away s o.toInt) [.b 15] }
  | .ret _ a => some
      { pre := fun s => (base s a.toNat).getLsbD 0 = false
        post := fun s t => Jumps s t (base s a.toNat) [] }
  | .brx _ a o => some
      { pre := fun s => s.act ≠ 0 ∧ ∃ f pc, laneTargets s a.toNat (away s o.toInt) = some f ∧
          ∀ i, active s i = true → f i = pc
        post := fun s t => ∀ f pc, laneTargets s a.toNat (away s o.toInt) = some f → (∀ i, active s i = true → f i = pc) →
          Jumps s t pc [] }
  | .callx _ a o => some
      { pre := fun s => Uniform s a.toNat ∧ s.act ≠ 0 ∧ (tableTarget s (away s o.toInt) (word s a.toNat 0)).isSome = true
        post := fun s t => base t 15 = s.cur.pc + 4 ∧
          ∀ pc, tableTarget s (away s o.toInt) (word s a.toNat 0) = some pc → Jumps s t pc [.b 15] }
  | .loopReg _ c e => some
      { pre := fun s => Uniform s c.toNat ∧ loopPre s (word s c.toNat 0) e
        post := fun s t => loopPost s t (word s c.toNat 0) e }
  | .loopImm _ c e => some
      { pre := fun s => loopPre s (c.zeroExtend 32) e
        post := fun s t => loopPost s t (c.zeroExtend 32) e }
  | .loopx _ => some
      { post := fun s t => KeepsTo s t [] ((loopTest s.cur.pc s.gang.loops.tail).2.getD s.seqPc)
          (loopTest s.cur.pc s.gang.loops.tail).1 }
  | _ => none

/-- SPLIT opens the lowest free record (R108). -/
def splitPost (s t : State) (o : BitVec 16) (k : Nat) : Prop :=
  t.w.joins.find? k = some
      { jpc := away s o.toInt, members := sliceSet ((sliceList s.gang.slices).filter s.w.liveSlice), arrived := 0,
        masks := sliceLanes (fun j => (s.w.slice j).mask) (sliceList s.gang.slices), fmt := s.gang.fmt,
        loops := s.gang.loops, parent := s.gang.inner } ∧
    t.gang.inner = BitVec.ofNat 5 k ∧ (∀ j, j ≠ k → t.w.joins.find? j = s.w.joins.find? j) ∧
    Keeps s ((t.modW fun w => { w with joins := s.w.joins }).modGang fun g => { g with inner := s.gang.inner }) []

/-- The gang that a join record makes (R103). -/
structure Fused (t : State) (e : Nat) (r : JoinRec) : Prop where
  slices : (State.gangOf t.w e).slices = r.members
  pc : (State.gangOf t.w e).pc = (loopTest r.jpc r.loops).2.getD (r.jpc + 4)
  loops : (State.gangOf t.w e).loops = (loopTest r.jpc r.loops).1
  fmt : (State.gangOf t.w e).fmt = r.fmt
  inner : (State.gangOf t.w e).inner = r.parent
  wait : (State.gangOf t.w e).wait = none
  masks : ∀ j < 16, r.members.getLsbD j = true → (t.w.slice j).mask = (r.masks &&& ~~~t.w.exited).extractLsb' (4 * j) 4

/-- SPLIT, JOIN, REGANG of one gang, and EXIT (R108-R110, R122). -/
def pathContract (i : Instr) : Option Contract :=
  match i with
  | .split _ o => some
      { pre := fun s => s.w.hm = false ∧ chain s.w 16 s.gang.inner < 8 ∧ ∃ k < 16, s.w.joins.find? k = none
        post := fun s t => ∃ k < 16, s.w.joins.find? k = none ∧ (∀ j < k, s.w.joins.find? j ≠ none) ∧ splitPost s t o k }
  | .join _ => some
      { pre := fun s => s.w.hm = false ∧ s.w.releases = [] ∧ nothingDeferred s ∧ s.gang.inner.toNat < 16 ∧
          (s.w.gangs.find? s.cur.g).isSome = true ∧ s.cur.g < 16 ∧
          ∃ r, s.w.joins.find? s.gang.inner.toNat = some r ∧ r.jpc = s.cur.pc ∧ r.members ≠ 0 ∧
            ∀ j < 16, r.members.getLsbD j = true → (r.masks &&& ~~~s.w.exited).extractLsb' (4 * j) 4 ≠ 0
        post := fun s t => OnlyPaths s t ∧ t.w.exited = s.w.exited ∧
          ∀ r, s.w.joins.find? s.gang.inner.toNat = some r →
            if r.arrived ||| s.gang.slices = r.members then
              t.w.joins.find? s.gang.inner.toNat = none ∧ ∃ e < 16, Fused t e r
            else
              t.w.joins.find? s.gang.inner.toNat = some { r with arrived := r.arrived ||| s.gang.slices } ∧
                t.w.gangs.find? s.cur.g = none }
  | .regang _ a => some
      { pre := fun s => s.w.hm = false ∧ Uniform s a.toNat ∧ s.w.releases = [] ∧ nothingDeferred s ∧ s.cur.g < 16 ∧
          s.gang.slices ≠ 0 ∧ s.gang.slices &&& ~~~((word s a.toNat 0).extractLsb' 0 16) = 0 ∧
          (∀ j < 16, (word s a.toNat 0).getLsbD j = true → s.w.liveSlice j = true → s.gang.slices.getLsbD j = true) ∧
          ∀ e ∈ s.w.gangs, ∀ m, e.2.wait ≠ some (.regang m)
        post := fun s t => OnlyPaths s t ∧ GoesTo s t ((loopTest s.cur.pc s.gang.loops).2.getD (s.cur.pc + 4))
          (loopTest s.cur.pc s.gang.loops).1 }
  | .exit _ => some
      { pre := fun s => s.w.ended = false
        post := fun s t =>
          if s.present &&& ~~~(s.w.exited ||| s.act) = 0 then t.w.ended = true
          else t.w.exited = s.w.exited ||| s.act ∧ OnlyPaths s t ∧ SameSpecial (pathsOf s t) t.w }
  | _ => none

/-- Where a lane resumes: at the PC of the gang that holds its slice when it is in the slice's current mask, otherwise at that
of the topmost deferred entry with its lane (R97, R99). -/
def laneAt (w : Warp) (i : Nat) : Option DWord :=
  if (w.slice (i / 4)).mask.getLsbD (i % 4) then
    ((List.range 16).find? fun e => (State.gangOf w e).slices.getLsbD (i / 4)).map fun e => (State.gangOf w e).pc
  else ((w.slice (i / 4)).stack.find? fun d => d.mask.getLsbD (i % 4)).map (·.pc)

/-- The slices of the gang in which some active lane takes the branch, and in which some does not. -/
def takers (s : State) (p : BitVec 3) (n : BitVec 1) (c : Bool) (j : Nat) : Bool :=
  (List.range 4).any fun k => active s (4 * j + k) && holds s p n (4 * j + k) == c

/-- A per-lane BRC whose lanes disagree has a free entry if a slice is wholly taken, and room on the stack of every mixed
slice (R100, R107). -/
structure CanDiverge (s : State) (p : BitVec 3) (n : BitVec 1) (o : BitVec 16) : Prop where
  user : s.w.hm = false
  entry : (s.w.gangs.find? s.cur.g).isSome = true ∧ s.cur.g < 16
  own : ∀ e < 16, e ≠ s.cur.g → (State.gangOf s.w e).slices &&& s.gang.slices = 0
  taken : someTake s p n = true
  fallen : someFall s p n = true
  far : away s o.toInt ≠ s.seqPc
  free : (∃ j < 16, takers s p n true j = true ∧ takers s p n false j = false) → ∃ e < 16, s.w.gangs.find? e = none
  room : ∀ j < 16, takers s p n true j = true → takers s p n false j = true → (s.w.slice j).stack.length < 8

/-- What Diverge leaves (R100): each active lane resumes at its own target; every other lane that has not exited resumes where
it did; the gangs and deferred entries made carry FMT and INNER of the diverging gang. -/
structure Diverged (s t : State) (p : BitVec 3) (n : BitVec 1) (o : BitVec 16) : Prop where
  taken : ∀ i < 64, active s i = true → holds s p n i = true → laneAt t.w i = some (away s o.toInt)
  fallen : ∀ i < 64, active s i = true → holds s p n i = false → laneAt t.w i = some (nextPc s)
  others : ∀ i < 64, active s i = false → s.w.exited.getLsbD i = false → s.present.getLsbD i = true →
    laneAt t.w i = laneAt s.w i
  fmt : ∀ e < 16, (State.gangOf t.w e).slices &&& s.gang.slices ≠ 0 → (State.gangOf t.w e).fmt = s.gang.fmt ∧
    (State.gangOf t.w e).inner = s.gang.inner
  deferred : ∀ j < 16, ∃ l, (t.w.slice j).stack = l ++ (s.w.slice j).stack ∧
    ∀ d ∈ l, d.tag = s.gang.inner ∧ d.fmt = s.gang.fmt ∧ d.pc = away s o.toInt
  paths : OnlyPaths s t
  special : SameSpecial (pathsOf s t) t.w ∧ t.w.joins = s.w.joins ∧ t.w.exited = s.w.exited ∧ t.w.releases = s.w.releases

/-! ## Divergence of BRX (R100, R120) -/

/-- The active lanes of a slice, ascending; the slices that have one; and the number of different targets in a slice. -/
def lanesOf (s : State) (j : Nat) : List Nat := ((List.range 4).map (4 * j + ·)).filter fun i => active s i
def activeSlices (s : State) : List Nat := (List.range 16).filter fun j => !(lanesOf s j).isEmpty
def ways (s : State) (f : Nat → DWord) (j : Nat) : Nat := ((lanesOf s j).map f).eraseDups.length

/-- The first path of a slice, the target of its lowest active lane, and the number of different first paths. -/
def firstPath (s : State) (f : Nat → DWord) (j : Nat) : DWord := f ((lanesOf s j).headD 0)
def groups (s : State) (f : Nat → DWord) : Nat := ((activeSlices s).map (firstPath s f)).eraseDups.length

/-- Free entries of the split table. -/
def freeEntries (w : Warp) : Nat := ((List.range 16).filter fun e => (w.gangs.find? e).isNone).length

/-- Diverge needs more entries of the split table than are free, or more than 8 on the mask stack of a slice (R100). -/
def LacksRoom (s : State) (f : Nat → DWord) : Prop :=
  freeEntries s.w + 1 < groups s f ∨ ∃ j ∈ activeSlices s, 8 < (s.w.slice j).stack.length + (ways s f j - 1)

/-- A BRX with these targets can diverge: outside a handler, with targets that differ, and room for every path. -/
structure CanScatter (s : State) (f : Nat → DWord) : Prop where
  user : s.w.hm = false
  entry : (s.w.gangs.find? s.cur.g).isSome = true ∧ s.cur.g < 16
  own : ∀ e < 16, e ≠ s.cur.g → (State.gangOf s.w e).slices &&& s.gang.slices = 0
  differ : ∃ i j, active s i = true ∧ active s j = true ∧ f i ≠ f j
  room : ¬ LacksRoom s f

/-- What Diverge leaves of a BRX (R100): each active lane resumes at its target, the group of the lowest slice in the gang's own
entry; every other lane that has not exited resumes where it did; what is made carries FMT and INNER of the gang. -/
structure Scattered (s t : State) (f : Nat → DWord) : Prop where
  lanes : ∀ i < 64, active s i = true → laneAt t.w i = some (f i)
  keeps : t.gang.pc = f ((LaneSet.toList s.act).headD 0)
  others : ∀ i < 64, active s i = false → s.w.exited.getLsbD i = false → s.present.getLsbD i = true →
    laneAt t.w i = laneAt s.w i
  fmt : ∀ e < 16, (State.gangOf t.w e).slices &&& s.gang.slices ≠ 0 → (State.gangOf t.w e).fmt = s.gang.fmt ∧
    (State.gangOf t.w e).inner = s.gang.inner
  deferred : ∀ j < 16, ∃ l, (t.w.slice j).stack = l ++ (s.w.slice j).stack ∧ l.length = ways s f j - 1 ∧
    ∀ d ∈ l, d.tag = s.gang.inner ∧ d.fmt = s.gang.fmt ∧ ∃ i ∈ lanesOf s j, f i = d.pc
  paths : OnlyPaths s t
  special : SameSpecial (pathsOf s t) t.w ∧ t.w.joins = s.w.joins ∧ t.w.exited = s.w.exited ∧ t.w.releases = s.w.releases

end Sys2Proof.Claim
end

