-- ==== Sys2Proof/Claims/System.lean ====
section
/-! DEFINITION. Traps, the return from one, and the instructions of spec/05 and spec/19 that read and write what a handler,
a checkpoint or a wake needs, as tables. -/

namespace Sys2Proof.Claim

open Sys2Proof.Machine

/-! ## Taking a trap (R125, R131) -/

/-- The warp takes its traps itself: it is not in its handler, it has a handler, and no atomic of it stands in its store
queue (R131). -/
structure Takes (s : State) : Prop where
  user : s.w.hm = false
  vector : s.w.tvec ≠ 0
  noAtoms : ∀ e ∈ s.w.storeQ, State.isAtom e = false

/-- The trap record that a trap of the current instruction fills, whether the warp or the system handler takes it (R131). -/
structure Recorded (s t : State) (c : TrapInfo) : Prop where
  cause : t.w.trap.cause = c.cause ∧ t.w.trap.sub = c.sub
  lanes : t.w.trap.flanes = c.flanes ∧ t.w.trap.faddr = c.faddr
  at' : t.w.trap.pc = s.cur.pc ∧ t.w.trap.word = s.cur.word ∧ t.w.trap.len = BitVec.ofNat 3 s.cur.len
  resume : t.w.trap.resume = s.cur.pc + c.skip
  gang : t.w.trap.gang = BitVec.ofNat 4 s.cur.g
  more : t.w.trap.fpxc = c.fpxc ∧ t.w.trap.engClass = c.engClass ∧ t.w.trap.engLeft = c.engLeft

/-- What taking a trap leaves (R131): handler mode, the trap record, and the gang at TVEC with FMT 0 and no loops; nothing
fetched ahead is left (R116), and everything else is as before. -/
structure Enters (s t : State) (c : TrapInfo) : Prop where
  mode : t.w.hm = true
  record : Recorded s t c
  saved : t.w.trap.savedFmt = s.gang.fmt ∧ t.w.trap.savedLoops = unbuffered s.gang.loops
  fresh : t.gang.pc = s.w.tvec ∧ t.gang.fmt = 0 ∧ t.gang.loops = [] ∧ t.gang.wait = none ∧ t.gang.held = none
  ahead : t.w.copies = []
  same : t.gang.slices = s.gang.slices ∧ t.gang.inner = s.gang.inner
  others : ∀ g, g ≠ s.cur.g → State.gangOf t.w g = State.gangOf (dropped s) g
  regs : SameRegs s t []
  special : SameSpecial (dropped s) { t.w with hm := s.w.hm, trap := s.w.trap }
  outside : SameOutside s t

/-- The instruction takes a trap. -/
def Traps (i : Instr) (s : State) (c : TrapInfo) : Prop := ∃ t, exec i s = .next t ∧ Enters s t c

/-- A trap that names the active lanes, to resume at the instruction. -/
def precise (s : State) (cause : BitVec 8) : TrapInfo := TrapInfo.at cause s.act 0

/-- The same, to resume at the next instruction. -/
def pastIt (s : State) (cause : BitVec 8) : TrapInfo := { precise s cause with skip := BitVec.ofNat 64 s.cur.len }

/-! ## The fault queue (R127, R133, R473) -/

/-- The record of a system fault of the current instruction of a compute core (R133). -/
def recordOf (s : State) (code : BitVec 8) (faddr : DWord) (lanes : LaneSet) : FaultRec :=
  { code, sub := 0, hm := s.w.hm, warpTrap := false, coord := s.coordOf (coreOf s.cur.wid), slot := s.cur.wid % 64,
    gang := s.cur.g, pc := s.cur.pc, word := s.cur.word, len := BitVec.ofNat 3 s.cur.len, faddr, flanes := lanes,
    team := (s.team?.map (·.index)).getD 0, warp := s.w.index, fpxc := 0, engClass := 0, engLeft := 0 }

/-- The warp is parked with a record, and the record is in its partition's ring with the cause bit set, or waits for room
there (R133, R471, R473). -/
structure Parks (s t : State) (r : FaultRec) : Prop where
  parked : t.w.fault = some r
  ring : (s.getPart (s.partOf s.cur.wid)).waiting = [] → (s.getPart (s.partOf s.cur.wid)).ringRoom = true →
    (t.getPart (s.partOf s.cur.wid)).fqwptr = (s.getPart (s.partOf s.cur.wid)).fqwptr + 1 ∧
    (t.getPart (s.partOf s.cur.wid)).outstanding = (s.getPart (s.partOf s.cur.wid)).outstanding ++
      [⟨(s.getPart (s.partOf s.cur.wid)).fqwptr.toNat % 2 ^ (s.getPart (s.partOf s.cur.wid)).fqlog2, s.w.team, s.w.index, r⟩] ∧
    (t.getPart (s.partOf s.cur.wid)).pint.getLsbD 1 = true
  waits : ((s.getPart (s.partOf s.cur.wid)).waiting ≠ [] ∨ (s.getPart (s.partOf s.cur.wid)).ringRoom = false) →
    (t.getPart (s.partOf s.cur.wid)).waiting = (s.getPart (s.partOf s.cur.wid)).waiting ++ [⟨0, s.w.team, s.w.index, r⟩]
  regs : SameRegs s t []
  pc : t.gang.pc = s.gang.pc
  others : ∀ i, i ≠ s.cur.wid → t.getWarp i = s.getWarp i
  teams : t.teams = s.teams

/-- What a system fault of a management core leaves (R31): the core stops, MGFAULT names the code, HM and the PC (R133), and
PEVT.MGSTOP is set. -/
structure StopsMgmt (s t : State) (code : BitVec 8) : Prop where
  stops : (t.getDie (dieOf s.cur.wid)).mgRun = false
  head : (t.getDie (dieOf s.cur.wid)).mgfault.take 4 = leBytes 4 (code.toNat + if s.w.hm = true then 2 ^ 16 else 0)
  place : ((t.getDie (dieOf s.cur.wid)).mgfault.drop 8).take 8 = leBytes 8 s.cur.pc.toNat
  event : t.host.pevt.getLsbD 4 = true
  regs : SameRegs s t []
  pc : t.gang.pc = s.gang.pc

/-! ## Handler instructions (R139, R143-R147) -/

/-- Where RTRAP goes on, and the loop stack it leaves (R139). -/
def returns (r : TrapRec) : DWord × List LoopRec :=
  if r.len ≠ 0 ∧ r.resume = r.pc + r.len.zeroExtend 64 then
    ((loopTest r.pc r.savedLoops).2.getD r.resume, (loopTest r.pc r.savedLoops).1)
  else (r.resume, r.savedLoops)

/-- What TINFO reads of the trap record, and whether it is a pair (R143). -/
def infoValue (r : TrapRec) (sel : Nat) : DWord × Bool :=
  match sel with
  | 0 => (BitVec.ofNat 64 (r.cause.toNat + 256 * r.sub.toNat + if r.cause = cTIMER then 65536 else 0), false)
  | 1 => (BitVec.ofNat 64 r.len.toNat, false)
  | 2 => (r.pc, true)
  | 3 => (BitVec.ofNat 64 r.word.toNat, false)
  | 4 => (r.flanes, true)
  | 5 => (r.faddr, true)
  | 6 => (r.resume, true)
  | 7 => (if r.cause = cFPX then BitVec.ofNat 64 r.fpxc.toNat else 0, false)
  | 8 => (BitVec.ofNat 64 r.gang.toNat, false)
  | _ => (if r.cause = cENG then BitVec.ofNat 64 (r.engClass.toNat + 256 * r.engLeft.toNat) else 0, false)

/-- Fields of an index word: class, number, lane; and the numbers that a class has (R145). -/
def idxClass (v : Word) : Nat := (v.extractLsb' 8 3).toNat
def idxNum (v : Word) : Nat := (v.extractLsb' 0 6).toNat
def idxLane (v : Word) : Nat := (v.extractLsb' 16 6).toNat
def idxCount (c : Nat) : Nat := if c = 0 then 64 else if c = 1 then 8 else if c = 2 ∨ c = 3 then 16 else if c = 4 then 1 else 0

/-- A good index word (R145). -/
abbrev GoodIndex (s : State) (v : Word) : Prop :=
  v &&& 0xFFC0F8C0#32 = 0 ∧ idxNum v < idxCount (idxClass v) ∧ idxLane v < s.width

/-- The register of the interrupted program that an index word names (R145). -/
def program (s : State) (v : Word) : Shaped :=
  if idxClass v = 0 then (warp s).wReg (idxNum v)
  else if idxClass v = 1 then
    match (warp s).pReg (idxNum v) with
    | .u b => .u (if b then 1 else 0) false
    | .v m => vLanes s.width fun i => ⟨if m.getLsbD i then 1 else 0, false⟩
  else if idxClass v = 2 then .u ((base s (idxNum v)).extractLsb' 0 32) false
  else if idxClass v = 3 then .u ((base s (idxNum v)).extractLsb' 32 32) false
  else .u (s.w.trap.savedFmt.zeroExtend 32) false

/-- What a selector of GETX but WHOLE gives: the shape code of R88, base, stride, one lane (R146). -/
def getxWord (s : State) (v : Word) (sel : Nat) : Option Lane :=
  let x := program s v
  if sel = 1 then some ⟨if idxClass v ≤ 1 then (if x.isU then 0 else if x.isA then 1 else 2) else 0, false⟩
  else if sel = 2 then some (x.lane 0)
  else if sel = 3 then some (match x with
    | .a _ t p => ⟨t, p⟩
    | _ => ⟨0, false⟩)
  else if sel = 4 ∧ idxClass v ≤ 1 then some (x.lane (idxLane v))
  else none

/-- The machine once the warp's TIMER may have become takeable by a change `f` of its special registers: a pending one that
HM and TMASK let through withdraws requests for rows and the waits that are not over (R141, R180, R422). -/
def heeds (s : State) (f : Warp → Warp) : State := s.modW fun w => { (f w).heeded with hm := w.hm, tmask := w.tmask }

/-! ## The table -/

/-- Traps, handlers, checkpoints and wakes. -/
def systemContract (i : Instr) : Option Contract :=
  match i with
  | .unimp _ => some { pre := Takes, post := fun s t => Enters s t (precise s cUNIMP) }
  | .trapImm _ _ => some { pre := Takes, post := fun s t => Enters s t (pastIt s cTRAP) }
  | .sysImm _ _ => some
      { post := fun s t =>
          (isMgmt s.cur.wid = false → Parks s t (recordOf s cSYSREQ 0 s.act)) ∧
          (isMgmt s.cur.wid = true → StopsMgmt s t cSYSREQ) }
  | .brk _ => some
      { pre := fun s => s.w.tmask.getLsbD 1 = true ∨
          (isMgmt s.cur.wid = false ∧ (s.getCore (coreOf s.cur.wid)).brkstop = true) ∨ Takes s
        post := fun s t =>
          if s.w.tmask.getLsbD 1 = true then Keeps s t []
          else if isMgmt s.cur.wid = false ∧ (s.getCore (coreOf s.cur.wid)).brkstop = true then
            (t.getCore (coreOf s.cur.wid)).snap = true ∧ t.gang.pc = nextPc s
          else Enters s t (pastIt s cBRK) }
  | .rtrap _ => some
      { pre := fun s => s.w.hm = true ∧ ∀ e ∈ s.w.storeQ, State.isAtom e = false
        post := fun s t => t.w.hm = false ∧ t.gang.fmt = s.w.trap.savedFmt ∧ SameRegs s t [] ∧ SameOutside s t ∧
          SameSpecial s.w { t.w with hm := true } ∧
          GoesTo (heeds s fun w => { w with hm := false }) (t.modGang fun g => { g with fmt := s.gang.fmt }) (returns s.w.trap).1 (returns s.w.trap).2 }
  | .tinfo _ d b => some
      { pre := fun s => s.w.hm = true ∧
          (56 ≤ d.toNat + (if (infoValue s.w.trap b.toNat).2 then 1 else 0) → s.act = s.present)
        post := fun s t => Lanes s t d.toNat (fun _ => ⟨(infoValue s.w.trap b.toNat).1.extractLsb' 0 32, false⟩) ∧
          if (infoValue s.w.trap b.toNat).2 = true then
            Lanes s t (d.toNat + 1) (fun _ => ⟨(infoValue s.w.trap b.toNat).1.extractLsb' 32 32, false⟩) ∧
              Keeps s t [s.dst d.toNat, s.dst (d.toNat + 1)]
          else Keeps s t [s.dst d.toNat] }
  | .tset _ a => some
      { pre := fun s => s.w.hm = true ∧ Uniform2 s a.toNat ∧ (dword s a.toNat 0).getLsbD 0 = false
        post := fun s t => t.w.trap = { s.w.trap with resume := dword s a.toNat 0 } ∧
          KeepsBut s t fun w => { w with trap := s.w.trap } }
  | .tvec _ a => some
      { pre := fun s => Uniform2 s a.toNat ∧ (dword s a.toNat 0).getLsbD 0 = false
        post := fun s t => t.w.tvec = dword s a.toNat 0 ∧ KeepsBut s t fun w => { w with tvec := s.w.tvec } }
  | .tvecDl _ a => some
      { pre := fun s => Uniform2 s a.toNat
        post := fun s t => t.w.deadline = dword s a.toNat 0 ∧ KeepsBut s t fun w => { w with deadline := s.w.deadline } }
  | .tmask _ d a => some
      { pre := fun s => Uniform s a.toNat ∧ (s.w.hm = true → 56 ≤ d.toNat → s.act = s.present)
        post := fun s t => t.w.tmask = (word s a.toNat 0).extractLsb' 0 2 ∧
          Lanes s t d.toNat (fun _ => ⟨s.w.tmask.zeroExtend 32, false⟩) ∧
          Keeps (heeds s fun w => { w with tmask := (word s a.toNat 0).extractLsb' 0 2 })
            (t.modW fun w => { w with tmask := s.w.tmask }) [s.dst d.toNat] }
  | .getx _ d a b => some
      { pre := fun s => s.w.hm = true ∧ (reg s a.toNat).isU = true ∧ GoodIndex s (word s a.toNat 0) ∧
          (56 ≤ d.toNat → b ≠ 0 ∧ s.act = s.present) ∧ (b = 0 ∨ (getxWord s (word s a.toNat 0) b.toNat).isSome = true)
        post := fun s t => Keeps s t [s.dst d.toNat] ∧
          (b = 0 → reg t d.toNat = program s (word s a.toNat 0)) ∧
          ∀ x, getxWord s (word s a.toNat 0) b.toNat = some x → Lanes s t d.toNat fun _ => x }
  | .setx _ d a b => some
      { pre := fun s => s.w.hm = true ∧ (reg s d.toNat).isU = true ∧ GoodIndex s (word s d.toNat 0) ∧
          (if b = 0 then 2 ≤ idxClass (word s d.toNat 0) → Uniform s a.toNat
           else idxClass (word s d.toNat 0) ≤ 1 ∧ (reg s a.toNat).isU = true ∧
             s.present.getLsbD (idxLane (word s d.toNat 0)) = true)
        post := fun s t =>
          let v := word s d.toNat 0
          let n := idxNum v
          if b ≠ 0 then
            if idxClass v = 0 then
              (∀ i < s.width, s.present.getLsbD i = true →
                ((warp t).wReg n).lane i = if i = idxLane v then lane s a.toNat 0 else ((warp s).wReg n).lane i) ∧
              Keeps s t [.w n]
            else
              (∀ i < s.width, s.present.getLsbD i = true → n ≠ 7 →
                pred t n i = if i = idxLane v then (word s a.toNat 0).getLsbD 0 else pred s n i) ∧
              Keeps s t [.p n]
          else if idxClass v = 0 then (warp t).wReg n = reg s a.toNat ∧ Keeps s t [.w n]
          else if idxClass v = 1 then
            (∀ i < s.width, n ≠ 7 → pred t n i = (word s a.toNat i).getLsbD 0) ∧ Keeps s t [.p n]
          else if idxClass v = 2 then
            base t n = (base s n).extractLsb' 32 32 ++ word s a.toNat 0 ∧ Keeps s t [.bLo n]
          else if idxClass v = 3 then base t n = word s a.toNat 0 ++ (base s n).extractLsb' 0 32 ∧ Keeps s t [.bHi n]
          else t.w.trap = { s.w.trap with savedFmt := (word s a.toNat 0).extractLsb' 0 17 } ∧
            KeepsBut s t fun w => { w with trap := s.w.trap } }
  | .wfe _ d => some
      { pre := fun s => isMgmt s.cur.wid = true ∧ (s.w.hm = true → 56 ≤ d.toNat → s.act = s.present)
        post := fun s t =>
          ((s.getDie (dieOf s.cur.wid)).wakeReg ≠ 0 →
            Lanes s t d.toNat (fun _ => ⟨(s.getDie (dieOf s.cur.wid)).wakeReg, false⟩) ∧
            (t.getDie (dieOf s.cur.wid)).wakeReg = 0 ∧ SameRegs s t [s.dst d.toNat] ∧ SameSpecial s.w t.w ∧
            t.gang.pc = nextPc s) ∧
          ((s.getDie (dieOf s.cur.wid)).wakeReg = 0 → Stays s t .wfe) }
  | .ckpt _ k => some
      { post := fun s t =>
          if s.w.hm = true ∨ (s.team?.bind (·.req)).isNone then Keeps s t []
          else t.gang.wait = some (.ckpt k.toNat) ∧ Keeps s (t.modGang fun g => { g with wait := none }) [] }
  | .signal _ a b => some
      { pre := fun s => Uniform s a.toNat ∧ Uniform s b.toNat ∧
          if (word s a.toNat 0).getLsbD 31 then
            (word s a.toNat 0).extractLsb' 12 19 = 0 ∧ (isMgmt s.cur.wid = true ∨
              (s.getPart (s.partOf s.cur.wid)).holdsQueue ((word s a.toNat 0).extractLsb' 0 12).toNat = true)
          else (word s a.toNat 0).extractLsb' 16 15 = 0 ∧ (word s a.toNat 0).extractLsb' 0 14 = 60
        post := fun s t =>
          let v := word s a.toNat 0
          (t.w.storeQ = s.w.storeQ ++
            [⟨s.fresh, s.cur.wid, if v.getLsbD 31 then .signal false (v.extractLsb' 0 12).toNat (word s b.toNat 0)
              else .signal true (v.extractLsb' 14 2).toNat (word s b.toNat 0)⟩]) ∧
          Keeps s (t.modW fun w => { w with storeQ := s.w.storeQ }) [] }
  | .preqQuery _ d => some
      { pre := fun s => s.w.hm = true → 56 ≤ d.toNat → s.act = s.present
        post := fun s t => Lanes s t d.toNat (fun _ => ⟨BitVec.ofNat 32 ((s.team?.map Team.reqCode).getD 0), false⟩) ∧
          Keeps s t [s.dst d.toNat] }
  | _ => none

end Sys2Proof.Claim
end

