-- ==== Sys2Proof/Claims/Records.lean ====
section
/-! DEFINITION. What applying a record leaves, from a queue's ring or from LNCH, and what a request to give way needs
(spec/17 R391-R400, R412; spec/19 R427). -/

namespace Sys2Proof.Claim

open Sys2Proof.Machine

/-- The parent of a record, if it has one, is not cancelled: the record is not cancelled at once (R396, R402). -/
def ParentRuns (s : State) (b : List Byte) : Prop := ∀ r, recParent b = some r → (s.getCounter r).cancelled = false

/-- What applying a record leaves of the counters: the record's own, one more member of its parent, the others as they
were (R396). -/
structure Counted (s t : State) (b : List Byte) (k : Counter) : Prop where
  own : t.getCounter (recCtr b) = k
  parent : ∀ r, recParent b = some r → t.getCounter r = { s.getCounter r with open' := (s.getCounter r).open' + 1 }
  others : ∀ c, c ≠ recCtr b → recParent b ≠ some c → t.getCounter c = s.getCounter c

/-- A counter as a record claims it (R396). -/
def claimed (s : State) (b : List Byte) (level n : Nat) (sealed : Bool) : Counter :=
  { gen := (s.getCounter (recCtr b)).gen + 1, parent := recParent b, level, error := false, cancelled := false,
    done := false, sealed, open' := n, errWord := 0, parentField := BitVec.ofNat 10 (recBits b 4 16 10) }

/-- The launch that a record and its kernel's header make (R391-R393, R400, R415). -/
structure Launched (s : State) (q p : Nat) (b : List Byte) (h : Header) (l : Launch) : Prop where
  unit : l.ctr = recCtr b ∧ l.gen = (s.getCounter (recCtr b)).gen + 1 ∧ l.part = p ∧ l.queue = q
  teams : l.ncrew = recNcrew b ∧ l.tpc = recTpc b ∧ l.nextTeam = 0 ∧ l.cores = [] ∧ l.cancelled = false
  lanes : l.lanes = (if recBits b 0x1C 16 11 = 0 then h.lanes else recBits b 0x1C 16 11) ∧ l.wide64 = h.wide64
  space : l.floor = h.vrows ∧ l.borrow = h.borrow ∧ l.scratch = (h.scratch + 4095) / 4096 * 4096 ∧ l.live = h.live ∧
    l.nbank = recNbank b ∧ l.nbar = recNbar b ∧ l.tagT = recTagT b ∧ l.qpin = recQpin b
  start : l.entry = recEntry b ∧ l.args = BitVec.ofNat 64 (fieldAt b 0x10 8) ∧ l.prio = recBits b 0 8 3
  waits : l.waits = recWaits b ∧ l.cascade = (recBits b 0 12 1 == 1) ∧
    l.after = if recBits b 0 11 1 = 1 then (s.getQueue q).lastLaunch else none
  grid : l.ggen = 0 ∧ l.garrt = 0 ∧ l.glive = recNcrew b * recTpc b

/-- A record that passes every check takes effect (R396): a LAUNCH claims its counter and makes a launch, an OPEN claims its
counter as a group, a SEAL seals, and completes a group that has no member open (R395). -/
structure Applied (s t : State) (q p : Nat) (b : List Byte) : Prop where
  launch : recKind b = 0 → Counted s t b (claimed s b 0 (recNcrew b * recTpc b) true) ∧
    (t.getQueue q).lastLaunch = some (recCtr b, (s.getCounter (recCtr b)).gen + 1) ∧
    ∃ h l, s.readHeaderAt p (recEntry b) = some h ∧ t.getLaunch? s.fresh = some l ∧ Launched s q p b h l ∧
      ∀ k, k ≠ s.fresh → t.getLaunch? k = s.getLaunch? k
  group : recKind b = 1 → Counted s t b (claimed s b (recLevel b) 0 false) ∧ t.launches = s.launches
  seals : recKind b = 2 → (t.getCounter (recCtr b)).sealed = true ∧
    ((s.getCounter (recCtr b)).open' = 0 → (t.getCounter (recCtr b)).done = true) ∧
    ((s.getCounter (recCtr b)).open' ≠ 0 → (∀ c, t.getCounter c =
      if c = recCtr b then { s.getCounter c with sealed := true } else s.getCounter c) ∧ t.launches = s.launches)

/-- A record is refused with a code (R398): its own counter, when it is granted and not in use, is claimed and complete, in
error; otherwise the queue's error register holds the code; no other counter changes. -/
structure Refused (s t : State) (q p : Nat) (b : List Byte) (code : Nat) : Prop where
  own : (s.getPart p).holdsCounter (recCtr b) = true → (s.getCounter (recCtr b)).done = true →
    t.getCounter (recCtr b) =
      { gen := (s.getCounter (recCtr b)).gen + 1, parent := none, level := 0, error := true, cancelled := false, done := true,
        sealed := true, open' := 0, errWord := errWordOf 0 0 0 (BitVec.ofNat 8 code), parentField := 0 }
  queue : (s.getPart p).holdsCounter (recCtr b) = false ∨ (s.getCounter (recCtr b)).done = false →
    (t.getQueue q).qref = BitVec.ofNat 8 code ∧ ∀ c, t.getCounter c = s.getCounter c
  others : ∀ c, c ≠ recCtr b → t.getCounter c = s.getCounter c

/-- Space for a team's full image is reserved, or can be (R427). -/
def HasSpace (s : State) (u : Team) : Prop :=
  u.region.isSome = true ∨ (s.poolFind u.part ((fullImage u + 7) / 8 * 8)).isSome = true

/-- The region of a team's image after a request: the one it had, or a new one in its partition's save pool, apart from those
in use (R427). -/
def Reserved (s : State) (u : Team) (r : Nat × Nat) : Prop :=
  u.region = some r ∨ (u.region = none ∧ r.2 = (fullImage u + 7) / 8 * 8 ∧
    r.1 + r.2 ≤ (s.getPart u.part).saveBase.toNat + (s.getPart u.part).saveSize.toNat ∧
    ∀ x ∈ s.poolUsed u.part, r.1 + r.2 ≤ x.1 ∨ x.1 + x.2 ≤ r.1)

end Sys2Proof.Claim
end

