-- ==== Sys2Proof/Claims/Async.lean ====
section
/-! DEFINITION. Engine commands, tile barriers, guards, grid barriers and the instructions that speak to the dispatcher
(spec/12-18) as tables. -/

namespace Sys2Proof.Claim

open Sys2Proof.Machine

/-! ## Acceptance of engine commands (R286, R291, R292) -/

/-- What an engine instruction asks for: class, kind, descriptor registers, operand register, tile barrier, a BAR field of a
descriptor that names no valid one (R338), guard slot. -/
structure Want where
  cls : Nat
  kind : CmdKind
  block : List Nat
  operand : Option Nat := none
  bar : Option Nat := none
  badBar : Bool := false
  guard : Nat := 0

/-- Registers hb to hb + n - 1. -/
def regs (hb : BitVec 6) (n : Nat) : List Nat := (List.range n).map (hb.toNat + ·)

/-- The B field of an engine instruction names barrier B - 1, and 0 none (R297). -/
def barOf (b : BitVec 6) : Option Nat := if b = 0 then none else some (b.toNat - 1)

/-- BAR of a transform command, in its second descriptor word: 0 names none, k barrier k - 1, which must be granted and
valid (R338). -/
def xfBarOf (s : State) (hb : BitVec 6) : Option Nat × Bool :=
  let k := ((word s (hb.toNat + 1) 0).extractLsb' 26 6).toNat
  if k = 0 then (none, false)
  else if s.team?.any fun u => decide (k ≤ u.nbar) && (u.bar (k - 1)).exp != 0 then (some (k - 1), false)
  else (none, true)

/-- The engine instructions (R297, R327-R329, R344, R348, R352, R366, R373, R375, R378, R382, R388). -/
def wants (i : Instr) (s : State) : Option Want :=
  let xf (hb : BitVec 6) (kind : CmdKind) (n : Nat) (operand : Option Nat) : Want :=
    { cls := 2, kind, block := regs hb n, operand, bar := (xfBarOf s hb).1, badBar := (xfBarOf s hb).2 }
  match i with
  | .cpLoad _ hb w _ b u => some { cls := 0, kind := .cpLoad (w == 1), block := regs hb 6, bar := barOf b, guard := u.toNat }
  | .cpStore _ hb w _ b u => some { cls := 0, kind := .cpStore (w == 1), block := regs hb 6, bar := barOf b, guard := u.toNat }
  | .cpFill _ hb w _ b u => some { cls := 0, kind := .cpFill (w == 1), block := regs hb 6, bar := barOf b, guard := u.toNat }
  | .mxloop _ hb n b u q => some { cls := 1, kind := .mxloop (q == 1) n.toNat, block := regs hb 8, bar := barOf b, guard := u.toNat }
  | .mxdrain _ hb n b u q => some { cls := 1, kind := .mxdrain (q == 1) n.toNat, block := regs hb 3, bar := barOf b, guard := u.toNat }
  | .mxlda _ hb n b u => some { cls := 1, kind := .mxlda n.toNat, block := regs hb 3, bar := barOf b, guard := u.toNat }
  | .mxzero _ n b u => some { cls := 1, kind := .mxzero n.toNat, block := [], bar := barOf b, guard := u.toNat }
  | .qst _ hb a => some (xf hb (.qst false) 2 (some a.toNat))
  | .qstf _ hb a => some (xf hb (.qst true) 2 (some a.toNat))
  | .qexp _ hb => some (xf hb (.qexp false) 3 none)
  | .qexpb _ hb => some (xf hb (.qexp true) 3 none)
  | .vdec _ hb => some (xf hb .vdec 5 none)
  | .kvg _ hb b u q =>
    some { cls := 3, kind := .kvg (q == 1), block := regs hb 6, operand := some (hb.toNat + 6), bar := barOf b, guard := u.toNat }
  | .kvspl _ hb b u => some { cls := 3, kind := .kvspl, block := regs hb 10, bar := barOf b, guard := u.toNat }
  | .kvmap _ hb b u => some { cls := 3, kind := .kvmap, block := regs hb 8, bar := barOf b, guard := u.toNat }
  | .kvsd _ hb b u => some { cls := 3, kind := .kvsd, block := regs hb 4, bar := barOf b, guard := u.toNat }
  | .rpscan _ hb b u => some { cls := 3, kind := .rpscan, block := regs hb 7, bar := barOf b, guard := u.toNat }
  | .rpdone _ hb b u => some { cls := 3, kind := .rpdone, block := regs hb 5, bar := barOf b, guard := u.toNat }
  | _ => none

/-- The engines: the copy engine, the transform pipe, the matrix engine, the repair engine, the KV table unit. -/
inductive Engine where
  | copy | pipe | matrix | repair | kv
  deriving DecidableEq

/-- The engine that runs commands of a kind. -/
def engineOf (k : CmdKind) : Engine :=
  match k with
  | .cpLoad _ | .cpStore _ | .cpFill _ | .kvg _ => .copy
  | .qst _ | .qexp _ | .vdec => .pipe
  | .mxloop _ _ | .mxdrain _ _ | .mxlda _ | .mxzero _ => .matrix
  | .rpscan => .repair
  | .kvspl | .kvmap | .kvsd | .rpdone => .kv

/-- The commands that an engine holds for the warp's core or cluster (R292, R321, R337, R364). -/
def held (s : State) (e : Engine) : List Cmd :=
  let c := s.getCore (coreOf s.cur.wid)
  match e with
  | .copy => c.cpQ
  | .pipe => c.xfQ
  | .matrix => (s.getCluster (clusterOf (coreOf s.cur.wid))).table
  | .repair => c.rpQ
  | .kv => c.kvQ

/-- Places of each queue. -/
def places (e : Engine) : Nat :=
  match e with
  | .copy => 64
  | .pipe => 32
  | .matrix => 16
  | .repair => 8
  | .kv => 16

/-- The operations of a class that the warp has outstanding. -/
def waiting (w : Warp) (cls : Nat) : Nat := (w.ops.filter fun o => o.cls == cls).length

/-- The command passes the checks at issue, and there is room for it (R291): its descriptor is U; its barrier and bank are
granted; the class counts below 63, the unit has a free place (the reservation table takes one command a cycle, and none
before those that wait to enter it again), and PEND is below 255. -/
structure Accepted (s : State) (a : Want) : Prop where
  user : isMgmt s.cur.wid = false
  uniform : ∀ n ∈ a.block, (reg s n).isU = true
  barrier : ∀ k, a.bar = some k → ∃ u, s.team? = some u ∧ k < u.nbar ∧ (u.bar k).pend < 255
  bank : a.cls = 1 → a.kind.bank?.getD 0 < s.crewBanks.length
  count : waiting s.w a.cls < 63
  room : (held s (engineOf a.kind)).length < places (engineOf a.kind)
  one : a.cls = 1 → (s.getCluster (clusterOf (coreOf s.cur.wid))).mxWait = [] ∧
    (s.getCluster (clusterOf (coreOf s.cur.wid))).mxTaken ≤ s.now

/-- Its guard slot is FALSE already (R294). -/
def Dropped (s : State) (a : Want) : Prop := a.guard ≠ 0 ∧ ∃ u, s.team? = some u ∧ (u.guardSlot a.guard).state = .no

/-- The number that the command takes: RPDONE's release takes one before it (R389). -/
def cmdNumber (s : State) (a : Want) : Nat := if a.kind = .rpdone then s.fresh + 1 else s.fresh

/-- What enters the warp's store queue: for RPDONE, in the place of a FENCE.REL.PKG (R389). -/
def cmdStores (s : State) (a : Want) : List StoreEntry :=
  if a.kind = .rpdone then [⟨s.fresh, s.cur.wid, .fence State.scopePkg⟩] else []

/-- A command is as its instruction found everything at acceptance (R291). -/
structure Carries (s : State) (a : Want) (c : Cmd) : Prop where
  id : c.id = cmdNumber s a ∧ c.seq = c.id
  cls : c.cls = a.cls
  kind : c.kind = a.kind
  issuer : c.team = s.w.team ∧ c.warp = s.w.index ∧ c.wid = s.cur.wid ∧ c.core = coreOf s.cur.wid ∧ c.die = dieOf s.cur.wid ∧
    c.issuedOn = coreOf s.cur.wid
  words : c.d = a.block.map fun n => word s n 0
  lanes : ∀ n, a.operand = some n → c.act = s.act ∧ ∀ i < s.width, c.lanes.getD i ⟨0, false⟩ = lane s n i
  poison : c.poison = true ↔ (∃ n ∈ a.block, ∃ i < s.width, poison s n i = true) ∨
    (∀ k, a.kind ≠ .kvg k) ∧ ∃ n, a.operand = some n ∧ ∃ i < 64, active s i = true ∧ poison s n i = true
  setting : c.fmt = s.gang.fmt ∧ c.cfg = s.w.cfg ∧ c.sa = s.w.sa ∧ c.sb = s.w.sb ∧ c.mxi = (s.w.role == 3)
  bar : c.bar = a.bar ∧ c.badBar = a.badBar
  free : a.guard = 0 → c.guard = .none
  bound : a.guard ≠ 0 → ∀ u, s.team? = some u → c.guard =
    if (u.guardSlot a.guard).state = .yes then .goes else .undecided a.guard (u.guardSlot a.guard).gen
  unrun : c.since = s.now ∧ c.aged = false ∧ c.steps = 0 ∧ c.started = false ∧ c.completeAt = none ∧ c.err = none ∧ c.tasks = [] ∧
    c.away = []

/-- The scratchpad bytes that a command will write, by team, as the descriptor gives them (R298, R330, R338, R370, R387). A
command whose descriptor is poisoned writes none (R298), but for a drain, for which R330 says nothing of poison. -/
def destRanges (s : State) (c : Cmd) : List (Nat × List (Nat × Nat)) :=
  let copy (x : Copy) : List (Nat × List (Nat × Nat)) := (s.targetTeam c.team x.d2).toList.map fun k => (k, x.ranges)
  match c.kind with
  | .cpLoad twoD => if c.poison then [] else copy (c.copy twoD false)
  | .cpFill twoD => if c.poison then [] else copy (c.copy twoD true)
  | .qst _ | .qexp _ | .vdec => if c.poison || c.badBar then [] else [(c.team, c.xfOut)]
  | .kvg keys => if c.poison then [] else [(c.team, c.kvSlots.flatMap fun x =>
      (c.kvBases keys).map (fun b => (c.kvBlock b x.1 x.2, c.pitch)) ++ [(c.kvPos x.1 x.2, 4)])]
  | .rpscan => if c.poison then [] else [(c.team, c.rpOut)]
  | .mxdrain _ _ => c.mxUse.flatMap fun q => (s.crewTeam c.team (c.mxRank q)).toList.map fun k => (k, c.tileRanges)
  | _ => []

/-- Word n is a destination word of the command in team k's allocation u (R232). -/
def Destined (s : State) (c : Cmd) (k : Nat) (u : Team) (n : Nat) : Prop :=
  4 * n + 4 ≤ u.size ∧ ∃ x ∈ destRanges s c, x.1 = k ∧ ∃ r ∈ x.2, 0 < r.2 ∧ r.1 < 4 * n + 4 ∧ 4 * n < r.1 + r.2

/-- A core but for the commands that its engines hold. -/
def SameButQueues (a b : Core) : Prop := SameCore a { b with cpQ := a.cpQ, xfQ := a.xfQ, kvQ := a.kvQ, rpQ := a.rpQ }

/-- The frame of an engine instruction: all but the warp's store queue and outstanding operations, the marks and barriers of
teams, and what the engines of its core and cluster hold. -/
structure KeepsButEngines (s t : State) : Prop where
  rest : Keeps s { t.modW fun w => { w with storeQ := s.w.storeQ, ops := s.w.ops } with
    teams := s.teams, cores := s.cores, clusters := s.clusters } []
  cores : ∀ i, i ≠ coreOf s.cur.wid → SameCore (s.getCore i) (t.getCore i)
  core : SameButQueues (s.getCore (coreOf s.cur.wid)) (t.getCore (coreOf s.cur.wid))
  clusters : ∀ i, i ≠ clusterOf (coreOf s.cur.wid) → SameCluster (s.getCluster i) (t.getCluster i)
  cluster : SameCluster (s.getCluster (clusterOf (coreOf s.cur.wid)))
    { t.getCluster (clusterOf (coreOf s.cur.wid)) with
      table := (s.getCluster (clusterOf (coreOf s.cur.wid))).table
      mxTaken := (s.getCluster (clusterOf (coreOf s.cur.wid))).mxTaken }
  teams : ∀ k u, s.getTeam? k = some u → ∃ v, t.getTeam? k = some v ∧ v = { u with marks := v.marks, bars := v.bars } ∧
    (k ≠ s.w.team → v.bars = u.bars)

/-- The reservation table of the warp's cluster takes no other command in this cycle (R321). -/
def TableTaken (s t : State) : Prop := (t.getCluster (clusterOf (coreOf s.cur.wid))).mxTaken = s.now + 1

/-- What acceptance leaves (R291): the command last in its unit's queue, its class counted, PEND of its barrier one more, its
destination words marked pending for it, and everything else kept. -/
structure Accepts (s t : State) (a : Want) : Prop where
  queued : ∃ c, Carries s a c ∧ held t (engineOf a.kind) = held s (engineOf a.kind) ++ [c] ∧
    ∀ k u, s.getTeam? k = some u → ∃ v, t.getTeam? k = some v ∧
      ∀ m, m ∈ v.marks ↔ m ∈ u.marks ∨ (m.2 = c.id ∧ Destined s c k u m.1)
  others : ∀ e, e ≠ engineOf a.kind → held t e = held s e
  counted : t.w.ops = s.w.ops ++ [⟨cmdNumber s a, a.cls, false, none⟩]
  stores : t.w.storeQ = s.w.storeQ ++ cmdStores s a
  pend : ∀ u, s.team? = some u → ∃ v, t.team? = some v ∧
    ∀ j, v.bar j = if a.bar = some j then { u.bar j with pend := (u.bar j).pend + 1 } else u.bar j
  taken : a.cls = 1 → TableTaken s t
  frame : KeepsButEngines s t

/-- The warp stands in its team's record, as a resident team's warps do, and no operation of it has a number that is not
given out yet. -/
structure Stands (s : State) : Prop where
  team : ∃ u, s.team? = some u ∧ u.image = none ∧ u.status = .resident ∧ u.core = coreOf s.cur.wid ∧
    u.wids[s.w.index]? = some s.cur.wid
  ops : ∀ o ∈ s.w.ops, o.cmd < s.fresh

/-- One arrival (R301). -/
def arrival (b : TileBar) : TileBar :=
  if (b.arr + 1) % 2 ^ 16 = b.exp then ⟨b.exp, 0, b.phase + 1, b.pend⟩ else ⟨b.exp, (b.arr + 1) % 2 ^ 16, b.phase, b.pend⟩

/-- What acceptance leaves of a command whose guard is FALSE (R287, R294): it is discarded at once, so that nothing is queued
and no word is marked; its barrier counts its arrival, and it retires in its place in its class. -/
structure Discards (s t : State) (a : Want) : Prop where
  queues : ∀ e, held t e = held s e
  marks : ∀ k u, s.getTeam? k = some u → ∃ v, t.getTeam? k = some v ∧
    ∀ m, m.2 < s.fresh → (m ∈ v.marks ↔ m ∈ u.marks)
  retired : waiting s.w a.cls = 0 → t.w.ops = s.w.ops
  behind : ∀ o, s.w.ops.find? (fun o => o.cls == a.cls) = some o → o.done = false →
    t.w.ops = s.w.ops ++ [⟨cmdNumber s a, a.cls, true, none⟩]
  stores : t.w.storeQ = s.w.storeQ ++ cmdStores s a
  arrives : ∀ u, s.team? = some u → ∃ v, t.team? = some v ∧
    ∀ j, v.bar j = if a.bar = some j then arrival (u.bar j) else u.bar j
  taken : a.cls = 1 → TableTaken s t
  frame : KeepsButEngines s t

/-! ## Tile barriers, WAITC and guards (R289, R293-R307) -/

/-- Barrier k of the warp's team, when it is granted (R301). -/
def barrier (s : State) (k : Nat) : Option TileBar :=
  match s.team? with
  | some u => if k < u.nbar then some (u.bar k) else none
  | none => none

/-- The frame but for the team's own record. -/
def KeepsButTeam (s t : State) (ds : List Dest) : Prop :=
  Keeps s { t with teams := s.teams } ds ∧ ∀ k, k ≠ s.w.team → t.getTeam? k = s.getTeam? k

/-- Barrier k becomes b; the other barriers, guards and the scratchpad of the team stay. -/
def BarrierIs (s t : State) (k : Nat) (b : TileBar) : Prop :=
  ∀ u, s.team? = some u → ∃ v, t.team? = some v ∧ v.bar k = b ∧ (∀ j, j ≠ k → v.bar j = u.bar j) ∧
    v.guards = u.guards ∧ v.sp = u.sp ∧ v.nbar = u.nbar

/-- Phase p is passed: the phase is ahead of it by 1 to 2^31 - 1, modulo 2^32 (R301, R417). -/
abbrev ahead (phase p : Word) : Prop := 1 ≤ (phase - p).toNat ∧ (phase - p).toNat < 2 ^ 31

/-- What an acquire of the warp at a scope does to what dies see: no home changes, its die sees what it sees once its clean
copies are gone, and other dies keep their copies (R261). -/
def SeesAcquired (s t : State) (scope : Nat) : Prop :=
  (∀ a, t.homeRead a 1 = s.homeRead a 1 ∧ t.dieRead (here s) a 1 = (s.invalidate (here s) scope).dieRead (here s) a 1) ∧
  ∀ d, d ≠ here s → (t.getDie d).cache = (s.getDie d).cache

/-- An acquire of the warp at a scope, and nothing else but results. -/
def Acquires (s t : State) (scope : Nat) (ds : List Dest) : Prop := SeesAcquired s t scope ∧ KeepsButMemory s t ds

/-- A U result that may go to any register: to the trap bank under a full mask (R65). -/
abbrev UniformTo (s : State) (d : Nat) : Prop := s.w.hm = true → 56 ≤ d → s.act = s.present

/-- A U result of a word. -/
def GivesU (s t : State) (d : Nat) (x : Word) : Prop := Lanes s t d fun _ => ⟨x, false⟩

/-- The phase that TBWAIT waits for, once it waits, or else the one that its operand names. -/
def phaseFor (s : State) (n : Nat) : Word :=
  match s.gang.wait with
  | some (.tb _ p) => p
  | _ => word s n 0

/-- Barriers, WAITC and guards. -/
def barrierContract (i : Instr) : Option Contract :=
  match i with
  | .waitc h a im => some
      { pre := fun s => a.toNat < 4 ∧ (waiting s.w a.toNat ≤ im.toNat → ∀ e ∈ s.w.errs, e.cls ≠ a.toNat)
        post := fun s t =>
          (waiting s.w a.toNat ≤ im.toNat → Acquires s t (if a = 3 then State.scopePkg else State.scopeDie) []) ∧
          (im.toNat < waiting s.w a.toNat → ∃ start, Stays s t (.eng a.toNat im.toNat start)) ∧
          (s.gang.wait = none → Issued s t h) }
  | .tbinit _ a k => some
      { pre := fun s => Uniform s a.toNat ∧ word s a.toNat 0 ≠ 0 ∧ (word s a.toNat 0).toNat ≤ 65535 ∧
          ∃ b, barrier s k.toNat = some b ∧ b.arr = 0 ∧ b.pend = 0
        post := fun s t => ∀ b, barrier s k.toNat = some b →
          BarrierIs s t k.toNat { b with exp := (word s a.toNat 0).toNat } ∧ KeepsButTeam s t [] }
  | .tbarr _ d k => some
      { pre := fun s => s.w.storeQ = [] ∧ UniformTo s d.toNat ∧ ∃ b, barrier s k.toNat = some b ∧ b.exp ≠ 0
        post := fun s t => ∀ b, barrier s k.toNat = some b →
          GivesU s t d.toNat b.phase ∧ BarrierIs s t k.toNat (arrival b) ∧ KeepsButTeam s t [s.dst d.toNat] }
  | .tbwait h a k => some
      { pre := fun s => ∃ b, barrier s k.toNat = some b ∧
          ((s.gang.wait = none ∧ Uniform s a.toNat ∧ b.exp ≠ 0) ∨ ∃ j p, s.gang.wait = some (.tb j p))
        post := fun s t => ∀ b, barrier s k.toNat = some b →
          (ahead b.phase (phaseFor s a.toNat) → Keeps s t []) ∧
          (¬ ahead b.phase (phaseFor s a.toNat) → Stays s t (.tb k.toNat (phaseFor s a.toNat))) ∧
          (s.gang.wait = none → Issued s t h) }
  | .tbtry _ d a k => some
      { pre := fun s => Uniform s a.toNat ∧ UniformTo s d.toNat ∧ ∃ b, barrier s k.toNat = some b ∧ b.exp ≠ 0
        post := fun s t => ∀ b, barrier s k.toNat = some b →
          (ahead b.phase (word s a.toNat 0) → GivesU s t d.toNat 1) ∧
          (¬ ahead b.phase (word s a.toNat 0) → GivesU s t d.toNat 0) ∧ Keeps s t [s.dst d.toNat] }
  | .bar h k => some
      { pre := fun s => ∃ b, barrier s k.toNat = some b ∧
          ((s.gang.wait = none ∧ s.w.storeQ = [] ∧ b.exp ≠ 0) ∨ ∃ j p, s.gang.wait = some (.bar j p))
        post := fun s t => ∀ b, barrier s k.toNat = some b →
          (s.gang.wait = none → BarrierIs s t k.toNat (arrival b) ∧ Issued s t h ∧
            ((b.arr + 1) % 2 ^ 16 = b.exp → KeepsButTeam s t []) ∧
            ((b.arr + 1) % 2 ^ 16 ≠ b.exp → Stays s t (.bar k.toNat b.phase))) ∧
          ∀ j p, s.gang.wait = some (.bar j p) →
            (ahead b.phase p → Keeps s t []) ∧ (¬ ahead b.phase p → Stays s t (.bar k.toNat p)) }
  | .tbinv _ k => some
      { pre := fun s => s.w.storeQ = [] ∧ ∃ b, barrier s k.toNat = some b ∧ b.pend = 0
        post := fun s t => ∀ b, barrier s k.toNat = some b →
          BarrierIs s t k.toNat ⟨0, 0, b.phase + 1, 0⟩ ∧ KeepsButTeam s t [] }
  | .gset _ d k n => some
      { pre := fun s => ((warp s).pReg k.toNat).isV = false ∧
          ∃ u, s.team? = some u ∧ u.status = .resident ∧ (u.guardSlot d.toNat).state = .unresolved
        post := fun s t => SameRegs s t [] ∧ SameSpecial s.w t.w ∧ t.gang.pc = nextPc s ∧
          ∀ u, s.team? = some u → ∃ v, t.team? = some v ∧
            v.guardSlot d.toNat = ⟨if pred s k.toNat 0 ^^ (n == 1) then .yes else .no, (u.guardSlot d.toNat).gen⟩ ∧
            (∀ j, j ≠ d.toNat → v.guardSlot j = u.guardSlot j) ∧
            ∀ c ∈ t.allCmds, c.team = s.w.team → c.guard ≠ .undecided d.toNat (u.guardSlot d.toNat).gen }
  | .gclr _ d => some
      { pre := fun s => s.team?.isSome = true
        post := fun s t => KeepsButTeam s t [] ∧ ∀ u, s.team? = some u → ∃ v, t.team? = some v ∧
          v.guardSlot d.toNat = (if (u.guardSlot d.toNat).state = .unresolved then u.guardSlot d.toNat
            else ⟨.unresolved, (u.guardSlot d.toNat).gen + 1⟩) ∧
          (∀ j, j ≠ d.toNat → v.guardSlot j = u.guardSlot j) ∧ v.bars = u.bars ∧ v.sp = u.sp }
  | _ => none

/-! ## Grid barriers and the dispatcher (R412-R421, R446) -/

/-- GEN of the grid barrier of the launch of the warp's team (R415). -/
def gridGen (s : State) : Word := ((s.team?.bind fun u => s.getLaunch? u.launch).map (·.ggen)).getD 0

/-- Nothing of the warp or of its die waits to be written to memory. -/
def Clean (s : State) : Prop :=
  Drained s ∧ ∀ l c, (s.getDie (here s)).cache.find? l = some c → c.dirty = 0 ∧ c.pdirty = false

/-- A release at PKG has completed: nothing of the warp waits in its store queue or in its core's order, and no line of another
home that its die holds is dirty (R260). -/
def Released (s t : State) : Prop :=
  Drained t ∧ ∀ l c, (t.getDie (here s)).cache.find? l = some c → State.reached (here s) State.scopePkg l = true →
    c.dirty = 0 ∧ c.pdirty = false

/-- The frame but for teams and launches. -/
def KeepsButGrid (s t : State) (ds : List Dest) : Prop :=
  KeepsButMemory s { t with teams := s.teams, launches := s.launches } ds

/-- What every instruction of this part keeps whatever it makes memory see: registers but its results, special registers, and
the gang goes on in sequence. -/
structure Passes (s t : State) (ds : List Dest) : Prop where
  regs : SameRegs s t ds
  special : SameSpecial s.w t.w
  goes : GoesTo s t (nextPc s) (loopTest s.cur.pc s.gang.loops).1

/-- A GBAR or GBARA of the warp may arrive: HM is 0, the warp is a live one of a resident team of a launch, and its arrival for
GEN is not counted (R416, R419). -/
structure MayArrive (s : State) (u : Team) (l : Launch) : Prop where
  user : s.w.hm = false
  live : s.w.ended = false
  team : s.team? = some u ∧ u.image = none ∧ s.w.index < u.nwarps ∧ u.wids[s.w.index]? = some s.cur.wid
  launch : s.getLaunch? u.launch = some l
  new : s.w.index ∉ u.arrived ∧ u.counted = false

/-- Every other live warp of the team has arrived (R416). -/
def AllHere (s : State) (u : Team) : Prop := ∀ k ∈ s.liveWarps u, k = s.w.index ∨ k ∈ u.arrived

/-- This arrival completes the generation (R417). -/
def Completes (s : State) (u : Team) (l : Launch) : Prop := AllHere s u ∧ l.garrt + 1 = l.glive

/-- What an arrival leaves (R416, R417): the warp in its team's arrival set; when that set holds every live warp, the team
counted in ARRT; when ARRT is LIVE then, GEN one more, ARRT 0, and every team's arrival set empty. -/
structure Arrives (s t : State) (u : Team) (l : Launch) : Prop where
  lacking : ¬ AllHere s u → t.getLaunch? u.launch = some l ∧
    ∃ v, t.team? = some v ∧ v.arrived = u.arrived ++ [s.w.index] ∧ v.counted = false
  counted : AllHere s u → l.garrt + 1 ≠ l.glive → t.getLaunch? u.launch = some { l with garrt := l.garrt + 1 } ∧
    ∃ v, t.team? = some v ∧ v.arrived = u.arrived ++ [s.w.index] ∧ v.counted = true
  completed : Completes s u l → t.getLaunch? u.launch = some { l with ggen := l.ggen + 1, garrt := 0 } ∧
    ∀ k x, s.getTeam? k = some x → x.launch = u.launch → ∃ v, t.getTeam? k = some v ∧ v.arrived = [] ∧ v.counted = false

/-- A counter argument: granted to the partition, reserved bits zero (R413, R414). -/
def argCtr (v : Word) : Nat := (v.extractLsb' 0 10).toNat
def argGen (v : Word) : BitVec 16 := v.extractLsb' 16 16
abbrev GoodCtr (s : State) (n : Nat) : Prop :=
  Uniform s n ∧ (word s n 0).extractLsb' 10 6 = 0 ∧
    (s.getPart (s.partOf s.cur.wid)).holdsCounter (argCtr (word s n 0)) = true

/-- The unit that a counter and GEN name is over (R413), and its outcome as CCWAIT gives it. -/
def isOver (s : State) (c : Nat) (gen : BitVec 16) : Bool := (s.getCounter c).done || (s.getCounter c).gen != gen
def outcome (s : State) (c : Nat) (gen : BitVec 16) : Word :=
  if (s.getCounter c).gen = gen then
    BitVec.ofNat 32 (1 + (if (s.getCounter c).cancelled then 2 else 0) + if (s.getCounter c).error then 4 else 0)
  else 8

/-- The counter and GEN that a CCWAIT waits for, once it waits, or else those that its operand names. -/
def waitedFor (s : State) (n : Nat) : Nat × BitVec 16 :=
  match s.gang.wait with
  | some (.counter c gen) => (c, gen)
  | _ => (argCtr (word s n 0), argGen (word s n 0))

/-- The partition of the warp. -/
def part (s : State) : Nat := s.partOf s.cur.wid

/-- A team of the partition, of a priority not below the team's, waits to be placed: it is not placed yet, or is out and
ready (R446). -/
def WorkWaits (s : State) (u : Team) : Prop :=
  (∃ e ∈ s.launches, e.2.part = u.part ∧ s.prioOf u ≤ e.2.prio ∧ e.2.cancelled = false ∧ e.2.nextTeam < e.2.ncrew * e.2.tpc) ∨
  ∃ e ∈ s.teams, e.2.part = u.part ∧ s.prioOf u ≤ s.prioOf e.2 ∧ s.readyOut e.2 = true

/-- Grid barriers, counters, launches, yields. -/
def gridContract (i : Instr) : Option Contract :=
  match i with
  | .gbar _ => some
      { pre := fun s => (∃ u l, MayArrive s u l ∧ ∀ g, s.gang.wait ≠ some (.gbar g)) ∨
          s.w.hm = false ∧ ∃ g, s.gang.wait = some (.gbar g) ∧ ahead (gridGen s) g
        post := fun s t =>
          (∀ u l, MayArrive s u l → (∀ g, s.gang.wait ≠ some (.gbar g)) → Arrives s t u l ∧ Released s t ∧
            (Completes s u l → Passes s t [] ∧ (Clean s → SeesAcquired s t State.scopePkg ∧ KeepsButGrid s t [])) ∧
            (¬ Completes s u l → Stays s t (.gbar (gridGen s)))) ∧
          ∀ g, s.gang.wait = some (.gbar g) → Acquires s t State.scopePkg [] }
  | .gbara _ d => some
      { pre := fun s => ∃ u l, MayArrive s u l
        post := fun s t => ∀ u l, MayArrive s u l → Arrives s t u l ∧ Released s t ∧
          GivesU s t d.toNat (gridGen s) ∧ Passes s t [s.dst d.toNat] ∧
          (Clean s → SameMemory s t ∧ KeepsButGrid s t [s.dst d.toNat]) }
  | .gbarw _ a => some
      { pre := fun s => s.w.hm = false ∧ (Uniform s a.toNat ∨ ∃ g, s.gang.wait = some (.gbarw g))
        post := fun s t =>
          let g := match s.gang.wait with
            | some (.gbarw g) => g
            | _ => word s a.toNat 0
          (ahead (gridGen s) g → Acquires s t State.scopePkg []) ∧ (¬ ahead (gridGen s) g → Stays s t (.gbarw g)) }
  | .ccwait _ d a => some
      { pre := fun s => (GoodCtr s a.toNat ∨ ∃ c gen, s.gang.wait = some (.counter c gen)) ∧ UniformTo s d.toNat
        post := fun s t =>
          let x := waitedFor s a.toNat
          (isOver s x.1 x.2 = true → GivesU s t d.toNat (outcome s x.1 x.2) ∧ Acquires s t State.scopeSys [s.dst d.toNat]) ∧
          (isOver s x.1 x.2 = false → Stays s t (.counter x.1 x.2)) }
  | .cncl _ a => some
      { pre := fun s => GoodCtr s a.toNat ∧ s.w.ended = false ∧ s.gang.wait = none ∧
          (s.w.gangs.find? s.cur.g).isSome = true ∧
          (∃ u, s.team? = some u ∧ s.cur.wid ∈ u.wids ∧ u.status = .resident) ∧
          ∀ k u, s.getTeam? k = some u → k ≠ s.w.team → s.cur.wid ∉ u.wids
        post := fun s t =>
          if isOver s (argCtr (word s a.toNat 0)) (argGen (word s a.toNat 0)) = true then Keeps s t []
          else (t.getCounter (argCtr (word s a.toNat 0))).cancelled = true ∧ SameRegs s t [] ∧ t.gang.pc = nextPc s }
  | .lnch _ d a b => some
      { pre := fun s => UniformTo s d.toNat ∧ Uniform2 s a.toNat ∧ Uniform s b.toNat ∧
          (dword s a.toNat 0).toNat % 128 = 0 ∧ (word s b.toNat 0).extractLsb' 12 20 = 0 ∧
          (s.getPart (part s)).holdsQueue ((word s b.toNat 0).extractLsb' 0 12).toNat = true ∧
          ∃ bytes u, s.readRecord (dword s a.toNat 0) = .ok (bytes, u) ∧ ParentRuns u bytes
        post := fun s t => ∀ bytes u, s.readRecord (dword s a.toNat 0) = .ok (bytes, u) →
          let q := ((word s b.toNat 0).extractLsb' 0 12).toNat
          let code := u.recordCode (part s) bytes
          (∀ pa, s.translate (State.orderCore s.cur.wid) (part s) .read (dword s a.toNat 0) = .ok pa → Clean s →
            s.peerDown pa = false → s.peerDown (pa + 64) = false → bytes = s.homeRead pa 128) ∧
          Released s t ∧ Passes s t [s.dst d.toNat] ∧
          GivesU s t d.toNat ((t.getCounter (recCtr bytes)).gen ++ BitVec.ofNat 16 code) ∧
          (code = 0 → Applied u t q (part s) bytes) ∧ (code ≠ 0 → Refused u t q (part s) bytes code) }
  | .preqYield _ d => some
      { pre := fun s => UniformTo s d.toNat ∧ ∀ u, s.team? = some u → u.status = .resident
        post := fun s t => KeepsButTeam s t [s.dst d.toNat] ∧
          (s.team? = none → GivesU s t d.toNat 0) ∧
          ∀ u, s.team? = some u → ∃ v, t.team? = some v ∧
            GivesU s t d.toNat (BitVec.ofNat 32 ((v.req.map fun r => r.1.code).getD 0)) ∧
            v = { u with req := v.req, region := v.region } ∧
            (u.req = none → WorkWaits s u → HasSpace s u →
              v.req = some (.yield, s.gtime) ∧ ∃ r, v.region = some r ∧ Reserved s u r) ∧
            (u.req ≠ none ∨ ¬ WorkWaits s u ∨ ¬ HasSpace s u → v = u) }
  | _ => none

/-! ## Synchronous instructions of the engines (R314, R331, R346, R347) -/

/-- The banks of the warp's crew, and the poison of slice q of bank b (R311). -/
def slicePoison (s : State) (b q : Nat) : Bool :=
  (s.getSlice (clusterOf (coreOf s.cur.wid)) (s.crewBanks.getD b 0) q).poison

/-- MXCFG, MXQ, QERR and QCHK. -/
def engineContract (i : Instr) : Option Contract :=
  match i with
  | .mxcfg _ a => some
      { pre := fun s => Uniform2 s a.toNat ∧ Uniform s (a.toNat + 2) ∧
          (let c := word s a.toNat 0
           c.extractLsb' 16 16 = 0 ∧ c.extractLsb' 8 4 = 0 ∧ cfgReserved c = false ∧
           (cfgSpat c ≠ 0 → mxClass (cfgA c) ≠ 4) ∧ (cfgSat c = true → mxClass (cfgA c) = 2)) ∧
          finiteNonzero (word s (a.toNat + 1) 0) = true ∧ finiteNonzero (word s (a.toNat + 2) 0) = true
        post := fun s t => t.w.cfg = word s a.toNat 0 ∧ t.w.sa = word s (a.toNat + 1) 0 ∧
          t.w.sb = word s (a.toNat + 2) 0 ∧
          KeepsBut s t fun w => { w with cfg := s.w.cfg, sa := s.w.sa, sb := s.w.sb } }
  | .mxq _ d b => some
      { pre := fun s => isMgmt s.cur.wid = false ∧ UniformTo s d.toNat
        post := fun s t => Keeps s t [s.dst d.toNat] ∧
          (b = 0 → GivesU s t d.toNat s.w.cfg) ∧
          (b = 1 → GivesU s t d.toNat (BitVec.ofNat 32 (16 - (s.getCluster (clusterOf (coreOf s.cur.wid))).table.length))) ∧
          (b = 2 → ∃ x, GivesU s t d.toNat x ∧ ∀ k < 16, x.getLsbD k =
            (decide (k / 4 < s.crewBanks.length) && slicePoison s (k / 4) (k % 4))) ∧
          (b = 3 → GivesU s t d.toNat (BitVec.ofNat 32 s.crewBanks.length)) }
  | .qerr _ d a b => some
      { pre := fun s => isMgmt s.cur.wid = false ∧ (s.w.hm = true → d.toNat < 56)
        post := fun s t => Keeps s t [s.dst d.toNat] ∧ Lanes s t d.toNat fun i =>
          let xs := (List.range 32).map fun j => if active s (32 * (i / 32) + j) then
            (word s a.toNat (32 * (i / 32) + j)).toNat else 0
          let e := encodeBlock xs (allowedSels s.fmt (b.getLsbD 0))
          ⟨if b.toNat < 2 then BitVec.ofNat 32 e.err else e.scale.zeroExtend 32,
            (List.range 32).any fun j => active s (32 * (i / 32) + j) && poison s a.toNat (32 * (i / 32) + j)⟩ }
  | .qchk _ d a => some
      { pre := fun s => isMgmt s.cur.wid = false ∧ (s.w.hm = true → d.toNat < 56)
        post := fun s t => Keeps s t [s.dst d.toNat] ∧ ∃ f : Nat → Word, Lanes s t d.toNat (fun i => ⟨f i, poison s a.toNat i⟩) ∧
          ∀ i, ∀ k < 4,
            let x := (word s a.toNat i).extractLsb' (8 * k) 8
            (f i).getLsbD k = corrupt x ∧ (f i).getLsbD (4 + k) = (!corrupt x && scaleExp x == 31) }
  | _ => none

end Sys2Proof.Claim
end

