-- ==== Sys2Proof/Claims/Events.lean ====
section
/-! DEFINITION. Events of the issue path and of the memory system, as tables. -/

namespace Sys2Proof.Claim

open Sys2Proof.Machine

/-! ## Frames of an event: one record changes, and everything else is as it was -/

structure OnlyWarp (s t : State) (wid : Nat) (x : Warp) : Prop where
  it : t.getWarp wid = x
  others : ∀ i, i ≠ wid → t.getWarp i = s.getWarp i
  rest : { t with warps := s.warps } = s

structure OnlyCore (s t : State) (core : Nat) (x : Core) : Prop where
  it : t.getCore core = x
  others : ∀ i, i ≠ core → t.getCore i = s.getCore i
  rest : { t with cores := s.cores } = s

structure OnlyCluster (s t : State) (cl : Nat) (x : Cluster) : Prop where
  it : t.getCluster cl = x
  others : ∀ i, i ≠ cl → t.getCluster i = s.getCluster i
  rest : { t with clusters := s.clusters } = s

structure OnlyTeam (s t : State) (team : Nat) (x : Team) : Prop where
  it : t.getTeam? team = some x
  others : ∀ i, i ≠ team → t.getTeam? i = s.getTeam? i
  rest : { t with teams := s.teams } = s

/-- A management core runs, so that firmware may write registers (R482; log 52). -/
def FirmwareRuns (s : State) : Prop := ∃ d < 4, (s.getDie d).mgRun = true

/-! ## The issue path (R37-R40, R141, R178-R190, R410, R411) -/

/-- A result in flight whose time is not known (R40). -/
def Unwritten (w : Warp) : Prop := ∃ e ∈ w.pend, e.vis = none

/-- The row of a result's register lies in a drowsy bank (R189, R190). -/
def drowsyRow (s : State) (wid : Nat) (d : Dest) : Bool :=
  !isMgmt wid && match d with
    | .w n => (s.getWarp wid).rows.any fun h =>
        h.reg == n && decide (h.row < 2048) && !(s.getCore (coreOf wid)).awake.getLsbD (h.row / 64)
    | _ => false

/-- The cycles by which a result comes late to a drowsy row (R190). -/
def lateness (s : State) (wid : Nat) (d : Dest) : Nat := if drowsyRow s wid d then 20 else 0

/-- The TIMER of a warp is due (R141). -/
def Due (s : State) (wid : Nat) : Prop :=
  (s.getWarp wid).deadline.toNat ≤ s.wtime (s.getWarp wid) ∧ (s.getWarp wid).deadline ≠ BitVec.allOnes 64

/-- A warp keeps its registers. -/
def SameValues (a b : Warp) : Prop := b.w = a.w ∧ b.t = a.t ∧ b.p = a.p ∧ b.b = a.b

/-- A trap is taken in gang g of warp wid at its PC (R131). -/
structure TakenAt (s t : State) (wid g : Nat) (cause : BitVec 8) : Prop where
  mode : (t.getWarp wid).hm = true
  cause : (t.getWarp wid).trap.cause = cause
  at' : (t.getWarp wid).trap.pc = (State.gangOf (s.getWarp wid) g).pc
  resume : (t.getWarp wid).trap.resume = (State.gangOf (s.getWarp wid) g).pc
  pc : (State.gangOf (t.getWarp wid) g).pc = (s.getWarp wid).tvec
  saved : (t.getWarp wid).trap.savedFmt = (State.gangOf (s.getWarp wid) g).fmt
  fresh : (State.gangOf (t.getWarp wid) g).fmt = 0 ∧ (State.gangOf (t.getWarp wid) g).loops = []

/-- Every warp has one record: in every state that a run reaches. -/
abbrev WarpsInOrder (s : State) : Prop := s.warps.keys.Pairwise (· < ·)

/-- The request of e is granted next: of those that wait on the core, oldest first, it fits, and none before it fits or has
waited 1024 cycles (R179). -/
structure GrantNext (s : State) (core : Nat) (before : List (Nat × Warp × RowReq)) (e : Nat × Warp × RowReq)
    (after : List (Nat × Warp × RowReq)) : Prop where
  order : s.queuedReqs core = before ++ e :: after
  fits : e.2.1.needs e.2.2.n ≤ s.freeRows core
  first : ∀ f ∈ before, s.freeRows core < f.2.1.needs f.2.2.n ∧ f.2.2.aged = false ∧ s.nowOf (64 * core) < f.2.2.since + 1024

/-- The events by which instructions issue and registers are written. -/
def issueContract (i : Instr) : Option Contract :=
  match i with
  | .forcedSwitch wid => some
      { pre := fun s => Unwritten (s.getWarp wid) ∧ 23 ≤ (s.getWarp wid).count ∧ (s.getWarp wid).parked = none
        post := fun s t => OnlyWarp s t wid { s.getWarp wid with
          parked := some (s.gtime, ((s.getWarp wid).pend.filter fun e => e.vis.isNone).all (·.mem)) } }
  | .variableLatencyResult wid id => some
      { pre := fun s => ∃ e ∈ (s.getWarp wid).pend, e.id = id ∧ e.vis = none ∧ e.ready = true ∧
          ∀ f ∈ (s.getWarp wid).pend, f.id = id → f.dest = e.dest
        post := fun s t => ∀ e ∈ (s.getWarp wid).pend, e.id = id →
          (t.getWarp wid).pend = (s.getWarp wid).pend.map (fun f => if f.id = id then
            { f with vis := some (s.nowOf wid + lateness s wid e.dest) } else f) ∧
          ((∀ f ∈ (s.getWarp wid).pend, f.id ≠ id → f.vis.isSome = true) → (t.getWarp wid).parked = none ∧
            ((s.getWarp wid).parked.isSome = true → (t.getWarp wid).readyAt = s.ageClock wid + lateness s wid e.dest)) ∧
          (lateness s wid e.dest ≠ 0 →
            (t.getWarp wid).nextIssue = max (s.getWarp wid).nextIssue (s.nowOf wid + lateness s wid e.dest)) ∧
          SameValues (s.getWarp wid) (t.getWarp wid) ∧ SameSpecial (s.getWarp wid) (t.getWarp wid) ∧
          (∀ j, j ≠ wid → t.getWarp j = s.getWarp j) ∧ (∀ c, SameCore (s.getCore c) (t.getCore c)) ∧
          { t with warps := s.warps, cores := s.cores } = s }
  | .rowGrant core => some
      { pre := fun s => ∃ before e after, GrantNext s core before e after ∧ (s.usedRows core).length + e.2.2.n ≤ 2048
        post := fun s t => ∀ before e after, GrantNext s core before e after → ∃ rows,
          OnlyWarp s t e.1 { s.getWarp e.1 with granted := rows, readyAt := s.ageClock e.1 } ∧
          ((s.usedRows core).length + e.2.2.n ≤ 2048 → rows.length = e.2.2.n) ∧ rows.Nodup ∧
            ∀ x ∈ rows, x < 2048 ∧ x ∉ s.usedRows core }
  | .agedRequest wid => some
      { pre := fun s => ∃ r, (s.getWarp wid).rowReq = some r ∧ r.since + 1024 ≤ s.nowOf wid
        post := fun s t => ∀ r, (s.getWarp wid).rowReq = some r →
          OnlyWarp s t wid { s.getWarp wid with rowReq := some { r with aged := true } } }
  | .deadlockBreaker core => some
      { pre := fun s => WarpsInOrder s ∧ (∃ e ∈ s.warpsOn core, s.runnable e.1 = true) ∧
          ∀ e ∈ s.warpsOn core, s.runnable e.1 = true →
            e.2.waiting.isSome = true ∧ (s.getWarp e.1).hm = false ∧ (s.getWarp e.1).tvec ≠ 0
        post := fun s t => ∃ e ∈ s.warpsOn core, s.runnable e.1 = true ∧
          (∀ f ∈ s.warpsOn core, s.runnable f.1 = true →
            f.2.bRows < e.2.bRows ∨ f.2.bRows = e.2.bRows ∧ f.1 ≤ e.1) ∧
          (∀ r, e.2.waiting = some r → TakenAt s t e.1 r.gang cVROW) ∧ (t.getWarp e.1).rowReq = none }
  | .bankDrowsy core bank => some
      { pre := fun s => ∀ e ∈ s.warpsOn core, (∃ x ∈ e.2.rows.map (·.row) ++ e.2.granted, x / 64 = bank) →
          ∃ since, e.2.stalledSince = some since ∧ since + 1000 ≤ s.gtime
        post := fun s t => OnlyCore s t core { s.getCore core with
          awake := (s.getCore core).awake &&& ~~~BitVec.twoPow 32 bank } }
  | .boost wid g => some
      { pre := fun s => s.mayIssue wid g = true ∧ 256 ≤ s.ageOf (s.nowOf wid) wid g
        post := fun s t => (State.gangOf (t.getWarp wid) g) = { State.gangOf (s.getWarp wid) g with boosted := true } ∧
          (∀ e, e ≠ g → State.gangOf (t.getWarp wid) e = State.gangOf (s.getWarp wid) e) ∧
          OnlyWarp s t wid { s.getWarp wid with gangs := (t.getWarp wid).gangs } }
  | .timerPending wid => some
      { pre := fun s => Due s wid
        post := fun s t => (t.getWarp wid).timerPending = true ∧ (t.getWarp wid).deadline = BitVec.allOnes 64 ∧
          SameValues (s.getWarp wid) (t.getWarp wid) ∧ (t.getWarp wid).pend = (s.getWarp wid).pend ∧
          OnlyWarp s t wid (t.getWarp wid) }
  | .timerTrap wid g => some
      { pre := fun s => ∃ e, (s.getWarp wid).gangs.find? g = some e ∧ e.atBoundary = true ∧
          (s.getWarp wid).timerPending = true ∧ (s.getWarp wid).hm = false ∧ (s.getWarp wid).tmask.getLsbD 0 = false ∧
          (s.getWarp wid).tvec ≠ 0 ∧ (s.getWarp wid).pend = [] ∧ ∀ x ∈ (s.getWarp wid).storeQ, State.isAtom x = false
        post := fun s t => TakenAt s t wid g cTIMER ∧ (t.getWarp wid).trap.word = 0 ∧ (t.getWarp wid).trap.len = 0 ∧
          (t.getWarp wid).timerPending = false ∧ SameValues (s.getWarp wid) (t.getWarp wid) }
  | _ => none

/-- The scale on which a gang's 256 cycles are counted goes on by one in each cycle in which its warp's role is not withheld,
and stands still in each in which it is (R410, R411). -/
def CountsUnheld (s : State) : Prop :=
  ∀ wid t, isMgmt wid = false → (s.getCluster (clusterOf (coreOf wid))).cAt ≤ t →
    s.ageAt wid (t + 1) = s.ageAt wid t +
      if (s.getWarp wid).role.toNat < (s.getCluster (clusterOf (coreOf wid))).levelAt t then 0 else 1

/-! ## The memory system (R256, R257, R365, R224) -/

/-- The die whose memory a core order performs on. -/
def dieOfEntry (core : Nat) (e : StoreEntry) : Nat := if isMgmt e.wid then dieOf e.wid else dieOfCore core

/-- A store is seen by a die: the bytes from pa are those stored, every other byte as before. -/
def StoreSeen (s t : State) (d pa : Nat) (bytes : List Byte) : Prop :=
  ∀ a, t.dieRead d a 1 = if pa ≤ a ∧ a < pa + bytes.length then [bytes.getD (a - pa) 0] else s.dieRead d a 1

/-- What an entry does when it leaves its core order. -/
def performed (s t : State) (core : Nat) (e : StoreEntry) : Prop :=
  let d := dieOfEntry core e
  match e.op with
  | .dev pa bytes => pa % 64 + bytes.length ≤ 64 → s.peerDown pa = false → StoreSeen s t d pa bytes
  | .rel scope pa bytes => pa % 64 + bytes.length ≤ 64 → s.peerDown pa = false →
      if State.scopePkg ≤ scope then CachesOk s → t.homeRead pa bytes.length = bytes else StoreSeen s t d pa bytes
  | .clearLine l => s.peerDown (64 * l) = false →
      (∀ a, a / 64 = l → t.dieRead d a 1 = [0]) ∧ t.diePoison d l = false
  | .writeBack l => s.peerDown (64 * l) = false → ∀ c, (s.getDie d).cache.find? l = some c →
      ∀ k < 64, c.dirty.getLsbD k = true → t.homeRead (64 * l + k) 1 = [lineByte c.data k]
  | .spRemote team off bytes => ∀ u, s.getTeam? team = some u → ∃ v, t.getTeam? team = some v ∧
      if u.status = .out then v = { u with owed := u.owed ++ [(off, bytes)] }
      else ∀ k, cellGet v.sp k = if off ≤ k ∧ k < off + bytes.length then bytes.getD (k - off) 0 else cellGet u.sp k
  | _ => True

/-- No older entry of the order touches the line of entry e, or its scratchpad words (R255, R256). -/
def NoneBefore (older : List StoreEntry) (e : StoreEntry) : Prop :=
  (∀ l, State.entryLine e.op = some l → ∀ f ∈ older, State.entryLine f.op ≠ some l) ∧
  ∀ team off bytes, e.op = .spRemote team off bytes → ∀ f ∈ older, State.touchesSp team off bytes.length f = false

/-- A line once its dirty bytes are written back. -/
def cleaned (c : CLine) : CLine := if c.dirty = 0 ∧ c.pdirty = false then c else { c with dirty := 0, pdirty := false, stores := [] }

/-- Events of the memory system. -/
def storeContract (i : Instr) : Option Contract :=
  match i with
  | .storePerform core k => some
      { pre := fun s => ∃ e, (s.getCore core).order[k]? = some e ∧ NoneBefore ((s.getCore core).order.take k) e
        post := fun s t => ∀ e, (s.getCore core).order[k]? = some e →
          (t.getCore core).order = (s.getCore core).order.eraseIdx k ∧ performed s t core e }
  | .dieCacheWriteback die line drop => some
      { pre := fun s => s.peerDown (64 * line) = false ∧ ((s.getDie die).cache.find? line).isSome = true
        post := fun s t => ∀ c, (s.getDie die).cache.find? line = some c →
          (∀ a, t.homeRead a 1 = if a / 64 = line ∧ c.dirty.getLsbD (a % 64) = true then [lineByte c.data (a % 64)]
            else s.homeRead a 1) ∧
          (c.pdirty = true → t.homePoison line = c.poison) ∧
          (t.getDie die).cache.find? line = (if drop then none else some (cleaned c)) ∧
          ∀ l, l ≠ line → (t.getDie die).cache.find? l = (s.getDie die).cache.find? l }
  | .kvItemDrop cl k => some
      { post := fun s t => OnlyCluster s t cl { s.getCluster cl with kvtb := (s.getCluster cl).kvtb.eraseIdx k } }
  | .pageShootdown part va => some
      { post := fun s t => (∀ p, p ∈ t.pages ↔ p ∈ s.pages ∧ ¬ (p.part = part ∧ p.va = va)) ∧
          (∀ cl p, p ∈ (t.getCluster cl).tlb ↔ p ∈ (s.getCluster cl).tlb ∧ ¬ (p.part = part ∧ p.va = va)) ∧
          (∀ p ∈ s.pages, p.part = part → p.va = va → ∀ wid ∈ s.warps.keys, s.partOf wid = part →
            (∀ e ∈ (t.getWarp wid).storeQ, State.passedPage p e = false) ∧
            ∀ e ∈ (t.getCore (State.orderCore wid)).order, e.wid = wid → State.passedPage p e = false) ∧
          ((∀ p ∈ s.pages, p.part = part → p.va = va → ∀ wid,
              (∀ e ∈ (s.getWarp wid).storeQ, State.passedPage p e = false) ∧
              ∀ e ∈ (s.getCore (State.orderCore wid)).order, e.wid = wid → State.passedPage p e = false) →
            { t with pages := s.pages, clusters := s.clusters } = s) }
  | _ => none

end Sys2Proof.Claim
end

