-- ==== Sys2Proof/Claims/Drains.lean ====
section
/-! DEFINITION. What the oldest entry of a warp's store queue does when it leaves the queue, and what a warp reads of a
scratchpad word (spec/09 R232, R237; spec/10 R255, R260-R271; spec/05 R149). -/

namespace Sys2Proof.Claim

open Sys2Proof.Machine

/-! ## Releases (R260, R264) -/

/-- What has been written back of die d at a scope: of each line that the scope reaches, the dirty bytes stand at the home,
and the copy is clean. -/
structure WrittenBack (s t : State) (d scope : Nat) : Prop where
  home : ∀ l c, (s.getDie d).cache.find? l = some c → State.reached d scope l = true → s.peerDown (64 * l) = false →
    ∀ k < 64, c.dirty.getLsbD k = true → t.homeRead (64 * l + k) 1 = [lineByte c.data k]
  clean : ∀ l c, (t.getDie d).cache.find? l = some c → State.reached d scope l = true → c.dirty = 0 ∧ c.pdirty = false
  others : ∀ a, State.reached d scope (a / 64) = false → t.homeRead a 1 = s.homeRead a 1

/-! ## Atomics that were queued (R265-R271) -/

/-- The lanes of one unit of n bytes in turn: what each finds there, and what the last leaves (R267). -/
def laneTurns (op : AtomOp) (n : Nat) : List AtomLane → Nat → List (Nat × Nat) × Nat
  | [], v => ([], v)
  | l :: rest, v =>
    let r := laneTurns op n rest ((atomNew op v (l.a.toNat % 2 ^ (8 * n)) (l.b.toNat % 2 ^ (8 * n))).getD v)
    ((l.lane, v) :: r.1, r.2)

/-- The results of an atomic are filled: register k of lane i takes bits 32k to 32k + 31 of what the lane found, with the
poison of the unit; other lanes and other results stay. A result is ready when no unit of its atomic is still queued. -/
structure Filled (s t : State) (wid : Nat) (res : List Nat) (olds : List (Nat × Nat)) (pz : Bool) : Prop where
  others : ∀ (k : Nat) (e : PendWrite), (s.getWarp wid).pend[k]? = some e → e.id ∉ res → (t.getWarp wid).pend[k]? = some e
  lanes : ∀ (k : Nat) (e : PendWrite) j x, (s.getWarp wid).pend[k]? = some e → res.findIdx? (fun r => r == e.id) = some j → e.val = .shaped x →
    x.isV = true → ∃ y e', (t.getWarp wid).pend[k]? = some e' ∧ e'.id = e.id ∧ e'.dest = e.dest ∧ e'.val = .shaped y ∧
      (∀ i < (s.getWarp wid).width, y.lane i = match olds.find? (fun o => o.1 == i) with
        | some o => ⟨BitVec.ofNat 32 (o.2 / 2 ^ (32 * j)), pz⟩
        | none => x.lane i) ∧
      e'.ready = !(t.getWarp wid).storeQ.any fun q => match q.op with
        | .atom _ _ _ _ _ _ r => r == res
        | .atomSp _ _ _ _ r => r == res
        | _ => false
  size : (t.getWarp wid).pend.length = (s.getWarp wid).pend.length

/-- What a unit holds where an atomic of the scope is performed, for die d, and whether its line is poisoned (R268). -/
def placeNat (s : State) (d scope pa n : Nat) : Nat :=
  if atHome scope pa then homeNat (s.writeBackLine d (pa / 64)) pa n else dieNat s d pa n
def placePoison (s : State) (d scope pa : Nat) : Bool :=
  if atHome scope pa then (s.writeBackLine d (pa / 64)).homePoison (pa / 64) else s.diePoison d (pa / 64)

/-! ## The entry that leaves -/

/-- Nothing else of the warp changes, and no other warp. -/
structure OnlyEntry (s t : State) (wid : Nat) (rest : List StoreEntry) : Prop where
  it : t.getWarp wid = { s.getWarp wid with storeQ := rest, pend := (t.getWarp wid).pend }
  others : ∀ i, i ≠ wid → t.getWarp i = s.getWarp i

/-- It takes its place in the core order, where nothing of it is performed yet (R255, R256). -/
def Ordered (s t : State) (wid : Nat) (e : StoreEntry) : Prop :=
  (t.getCore (State.orderCore wid)).order = (s.getCore (State.orderCore wid)).order ++ [e] ∧ t.mem = s.mem ∧ t.dies = s.dies ∧
    t.teams = s.teams

/-- What it does (R149, R230, R231, R239, R255, R260, R264, R265-R271). -/
def leavesQueue (s t : State) (wid : Nat) (e : StoreEntry) : Prop :=
  let d := dieOf wid
  let core := State.orderCore wid
  let quiet := (s.getCore core).order = []
  let untouched (team off n : Nat) : Prop := ∀ f ∈ (s.getCore core).order, State.touchesSp team off n f = false
  let samePend := (t.getWarp wid).pend = (s.getWarp wid).pend
  let stored (team off : Nat) (bytes : List Byte) : Prop := ∀ u, s.getTeam? team = some u → ∃ v, t.getTeam? team = some v ∧
    (∀ k, cellGet v.sp k = if off ≤ k ∧ k < off + bytes.length then bytes.getD (k - off) 0 else cellGet u.sp k) ∧
    (∀ w, w ∈ v.spPoison ↔ w ∈ u.spPoison ∧ ¬ (4 ≤ bytes.length ∧ off / 4 ≤ w ∧ w < (off + bytes.length) / 4)) ∧
    v.marks = u.marks ∧ ∀ i, i ≠ team → t.getTeam? i = s.getTeam? i
  match e.op with
  | .dev _ _ | .clearLine _ | .writeBack _ => Ordered s t wid e ∧ samePend
  | .rel scope _ _ => (t.getCore core).order = [e] ∧ (quiet → WrittenBack s t d scope) ∧ samePend
  | .sp team off bytes => untouched team off bytes.length → stored team off bytes ∧ t.mem = s.mem ∧ samePend
  | .spRemote team off bytes => samePend ∧ if s.residesOn core team then
      untouched team off bytes.length → stored team off bytes ∧ t.mem = s.mem
    else Ordered s t wid e
  | .clearWord team w => untouched team (4 * w) 4 → samePend ∧ ∀ u, s.getTeam? team = some u → ∃ v,
      t.getTeam? team = some v ∧ (∀ k, cellGet v.sp k = if k / 4 = w then 0 else cellGet u.sp k) ∧
      (∀ x, x ∈ v.spPoison ↔ x ∈ u.spPoison ∧ x ≠ w) ∧ v.marks = u.marks
  | .atom op rel scope pa n ls res =>
    n = atomSize op → pa % n = 0 → s.peerDown pa = false → quiet → CachesOk s →
      let s' := if rel then s.writeBackAll d scope else s
      let v := placeNat s' d scope pa n
      let r := laneTurns op n ls v
      let pz := placePoison s' d scope pa
      (∀ a, a / 64 ≠ pa / 64 → t.homeRead a 1 = s'.homeRead a 1) ∧
      placeNat t d scope pa n = (if pz then v else r.2) ∧
      Filled s t wid res (if pz then ls.map fun l => (l.lane, v) else r.1) pz
  | .atomSp op team off ls res =>
    untouched team off 4 → off % 4 = 0 → atomSize op = 4 → ∀ u, s.getTeam? team = some u →
      let x : Lane := if u.pending (off / 4) then ⟨0, true⟩ else ⟨u.spWord (off / 4), u.spPoison.contains (off / 4)⟩
      let r := laneTurns op 4 ls x.val.toNat
      Filled s t wid res (if x.poison then ls.map fun l => (l.lane, x.val.toNat) else r.1) x.poison ∧
      ∃ v, t.getTeam? team = some v ∧
        (∀ w, w ≠ off / 4 → v.spWord w = u.spWord w ∧ (w ∈ v.spPoison ↔ w ∈ u.spPoison)) ∧
        (x.poison = true → v = u) ∧ (x.poison = false → v.spWord (off / 4) = BitVec.ofNat 32 r.2) ∧ v.marks = u.marks
  | .fence scope => samePend ∧ if scope = State.scopeCore then { t with warps := s.warps } = s
      else (t.getCore core).order = [] ∧ (quiet → WrittenBack s t d scope)
  | .signal mgmt target v => samePend ∧ (t.getCore core).order = [] ∧
      (quiet → WrittenBack s t d (if mgmt then State.scopePkg else State.scopeSys)) ∧
      if mgmt then (t.getDie target).wakeReg = (s.getDie target).wakeReg ||| v
      else ∀ p, s.queueHolder target = some p → (t.getQueue target).wake = (s.getQueue target).wake ||| v ∧
        ((s.getQueue target).wake = 0 → v ≠ 0 → (t.getPart p).pint.getLsbD 4 = true)

/-- The oldest entry of a warp's store queue leaves it (R255). -/
def Leaves (s : State) (wid : Nat) : Prop :=
  ∀ e rest, (s.getWarp wid).storeQ = e :: rest →
    OnlyEntry s (s.drainOne wid) wid rest ∧ leavesQueue s (s.drainOne wid) wid e

/-! ## A scratchpad word as a warp reads it (R232, R237, R255) -/

/-- The byte that an entry puts at offset a of a team's scratchpad. -/
def entryByte (team a : Nat) (e : StoreEntry) : Option Byte :=
  match e.op with
  | .sp u off bytes | .spRemote u off bytes =>
    if u = team ∧ off ≤ a ∧ a < off + bytes.length then some (bytes.getD (a - off) 0) else none
  | .clearWord u w => if u = team ∧ a / 4 = w then some 0 else none
  | _ => none

/-- Does an entry write a whole word, and so end its poison? -/
def entryCleans (team w : Nat) (e : StoreEntry) : Bool :=
  match e.op with
  | .sp u off bytes | .spRemote u off bytes =>
    decide (u = team ∧ 4 ≤ bytes.length ∧ off < 4 * w + 4 ∧ 4 * w < off + bytes.length)
  | .clearWord u x => decide (u = team ∧ x = w)
  | _ => false

/-- A word that is pending for a command reads 0 with poison; any other holds at each byte what the newest store before the
load put there, of the core order and then of the warp's own queue, and is poisoned unless one of them wrote all of it. -/
structure ReadsWord (s : State) (wid team w : Nat) (u : Team) : Prop where
  pending : u.pending w = true → s.loadSpWord wid team w = ⟨0, true⟩
  bytes : u.pending w = false → ∀ k < 4, (s.loadSpWord wid team w).val.extractLsb' (8 * k) 8 =
    (((s.getCore (State.orderCore wid)).order ++ (s.getWarp wid).storeQ).reverse.findSome? (entryByte team (4 * w + k))).getD
      (cellGet u.sp (4 * w + k))
  poison : u.pending w = false → (s.loadSpWord wid team w).poison =
    (u.spPoison.contains w &&
      !((s.getCore (State.orderCore wid)).order ++ (s.getWarp wid).storeQ).any (entryCleans team w))

end Sys2Proof.Claim
end

