-- ==== Sys2Proof/Claims/Engines.lean ====
section
/-! DEFINITION. Execution of the commands of the copy engine and of the transform pipe, as a table (spec/12, spec/14). -/

namespace Sys2Proof.Claim

open Sys2Proof.Machine

/-! ## Commands that run and complete (R285-R292) -/

/-- The command is the oldest of its class that its warp has outstanding, no other of the class has completed, the warp is
resident, and nothing of it waits in its store queue or in its core's order. -/
structure Oldest (s : State) (c : Cmd) (wid : Nat) : Prop where
  team : ∃ u, s.getTeam? c.team = some u ∧ u.image = none ∧ u.status = .resident ∧ u.wids[c.warp]? = some wid
  live : (s.getWarp wid).ended = false
  oldest : ∃ rest, ((s.getWarp wid).ops.filter fun o => o.cls == c.cls) = ⟨c.id, c.cls, false, none⟩ :: rest ∧
    ∀ o ∈ rest, o.done = false ∧ o.cmd ≠ c.id
  quiet : (s.getWarp wid).storeQ = [] ∧ (s.getCore (State.orderCore wid)).order = []

/-- Its completion (R134, R286, R287): it leaves its unit and its class, an error is pending for WAITC, its barrier counts
one arrival. -/
structure Retired (s t : State) (c : Cmd) (wid : Nat) (err : Option EngFault) : Prop where
  gone : ∀ d ∈ t.allCmds, d.id ≠ c.id
  ops : ((t.getWarp wid).ops.filter fun o => o.cls == c.cls) = ((s.getWarp wid).ops.filter fun o => o.cls == c.cls).tail
  errs : (t.getWarp wid).errs = (s.getWarp wid).errs ++ (err.toList.map fun e => ⟨c.cls, e.1, e.2⟩)
  barrier : ∀ k u, c.bar = some k → s.getTeam? c.team = some u → k < u.nbar → ∃ v, t.getTeam? c.team = some v ∧
    v.bar k = arrival { u.bar k with pend := (u.bar k).pend - 1 }
  regs : SameValues (s.getWarp wid) (t.getWarp wid)

/-- It has more to do: it stays at the head of its queue, as c', and nothing of it has retired. -/
structure GoesOn (s t : State) (queue : State → List Cmd) (c' : Cmd) (wid : Nat) : Prop where
  head : (queue t).head? = some c'
  ops : (t.getWarp wid).ops = (s.getWarp wid).ops
  errs : (t.getWarp wid).errs = (s.getWarp wid).errs
  regs : SameValues (s.getWarp wid) (t.getWarp wid)

/-- The command at the head of a queue may run. -/
def Head (q : List Cmd) (c : Cmd) : Prop := (∃ rest, q = c :: rest) ∧ (c.guard = .none ∨ c.guard = .goes)

/-- Word w of a scratchpad with its error poison. -/
def spAt (u : Team) (w : Nat) : Lane := ⟨u.spWord w, u.spPoison.contains w⟩

/-- The physical address that an access of a command reaches, when it may be made and is not lost with its peer. -/
def cmdPhys (s : State) (c : Cmd) (need : State.Need) (a : DWord) : Option Nat :=
  match s.translate c.core (s.cmdPart c) need a with
  | .ok pa => if s.peerDown pa then none else some pa
  | .error _ => none

/-! ## The copy engine (R296-R299) -/

/-- The copy engine of a core may move bytes for the command at the head of its queue in this cycle (R298, R299). -/
structure CopyTurn (s : State) (core k : Nat) (c : Cmd) (wid : Nat) : Prop where
  first : k = 0 ∧ core = c.core
  head : Head (s.getCore core).cpQ c
  free : (s.getCore core).cpFree ≤ s.nowOf (64 * core)
  oldest : Oldest s c wid

/-- Words of a copy, in row order and ascending in each row; device address and scratchpad word of its n-th word (R296,
R298). -/
def copyTotal (x : Copy) : Nat := x.rows * (x.rowb / 4)
def copyDev (x : Copy) (n : Nat) : DWord :=
  x.dev + x.dstr * BitVec.ofNat 64 (n / (x.rowb / 4)) + BitVec.ofNat 64 (4 * (n % (x.rowb / 4)))
def copyAt (x : Copy) (n : Nat) : Nat := (d2Offset x.d2 + n / (x.rowb / 4) * x.sstr) / 4 + n % (x.rowb / 4)

/-- The words that move in a cycle: at most 128 bytes (R299). -/
def Moves (c : Cmd) (x : Copy) (n : Nat) : Prop := c.steps ≤ n ∧ n < c.steps + 32 ∧ n < copyTotal x

/-- The allocation as a command reads it: with the words that it had before a move of its team, and without the marks of the
commands of its own queue (R298, R441; log 76). -/
def copyView (s : State) (c : Cmd) (u : Team) : Team := (u.recall c).without ((s.getCore c.core).cpQ.map (·.id))

/-- A copy within its team that R298 lets run: its fields are in order, its rows lie inside the allocation and apart, every
device word of this cycle is reached, and those of a STORE at places of their own. -/
structure CopyRuns (s : State) (c : Cmd) (dir : CopyDir) (x : Copy) : Prop where
  fields : x.bad = false ∧ c.poison = false ∧ x.d2.getLsbD 23 = false
  inside : ∀ u, s.getTeam? c.team = some u → ∀ r < x.rows, d2Offset x.d2 + r * x.sstr + x.rowb ≤ u.size
  apart : x.rows ≤ 1 ∨ x.rowb ≤ x.sstr
  err : ∀ e, c.err = some e → dir = .store ∧ e.1 = ePENDING
  device : dir ≠ .fill → ∀ n, Moves c x n →
    ∃ pa, cmdPhys s c (if dir = .load then .read else .write) (copyDev x n) = some pa ∧ pa % 4 = 0
  distinct : dir = .store → ∀ n m, Moves c x n → Moves c x m →
    cmdPhys s c .write (copyDev x n) = cmdPhys s c .write (copyDev x m) → n = m

/-- What a cycle of a copy moves: FILL stores its word, LOAD device words with the poison of their lines, STORE scratchpad
words, of which a pending one reads 0 (R298). -/
def copied (s t : State) (c : Cmd) (dir : CopyDir) (x : Copy) : Prop :=
  ∀ u, s.getTeam? c.team = some u → ∃ v, t.getTeam? c.team = some v ∧
    ∀ n, Moves c x n →
      match dir with
      | .fill => spAt v (copyAt x n) = ⟨x.fill, false⟩
      | .load => ∀ pa, cmdPhys s c .read (copyDev x n) = some pa →
          spAt v (copyAt x n) = ⟨BitVec.ofNat 32 (dieNat s c.die pa 4), s.diePoison c.die (pa / 64)⟩
      | .store => ∀ pa, cmdPhys s c .write (copyDev x n) = some pa →
          dieNat t c.die pa 4 = ((copyView s c u).spLoad (copyAt x n)).val.toNat

/-- The error that a copy has found by the end of the cycle: PENDING at the first source word of a STORE that was pending. -/
def copyErr (s : State) (c : Cmd) (dir : CopyDir) (x : Copy) : Option EngFault :=
  match dir, s.getTeam? c.team with
  | .store, some u => c.err <|> (((List.range 32).map (c.steps + ·)).find? fun n =>
      decide (n < copyTotal x) && (copyView s c u).pending (copyAt x n)).map fun n =>
        (ePENDING, BitVec.ofNat 64 (4 * copyAt x n))
  | _, _ => none

/-! ## The transform pipe (R339, R345, R349, R354) -/

/-- A transform command that R339 lets run: no other command of the pipe marks its team's words, and its places lie in the
allocation. -/
structure PipeRuns (s : State) (c : Cmd) (wid : Nat) : Prop where
  head : (s.getCore c.core).xfQ = [c]
  oldest : Oldest s c wid
  clean : c.badBar = false ∧ c.poison = false ∧ c.xfBad = false
  inside : ∀ u, s.getTeam? c.team = some u → (∀ r ∈ c.xfOut ++ c.xfIn, rangeIn u.size r = true) ∧
    ∀ m ∈ u.marks, m.2 = c.id

/-- The pipe starts on the command, or ends it once its cycles are over (R339; log 12). -/
def PipeTurn (s : State) (core k : Nat) (c : Cmd) (wid : Nat) : Prop :=
  k = 0 ∧ core = c.core ∧ PipeRuns s c wid ∧ ∀ e, c.completeAt = some e → e ≤ s.nowOf (64 * core)

/-- The pipe starts on a command that keeps it for n cycles, each of weight 2; nothing is written (R460). -/
def PipeStarts (s t : State) (c : Cmd) (wid n : Nat) : Prop :=
  GoesOn s t (fun s => (s.getCore c.core).xfQ)
    { c with started := true, completeAt := some (s.nowOf (64 * c.core) + n) } wid ∧
  t.getTeam? c.team = s.getTeam? c.team ∧
  t.getCluster (clusterOf c.core) = (s.getCluster (clusterOf c.core)).works (s.nowIn (clusterOf c.core)) n 2

/-- The symbols of n codes that stand in a stream from bit p, in words that are whole, and the bit behind them (R351, R354). -/
def symbolsOf (u : Team) (ioff : Nat) (rows : List CodeRow) : Nat → Nat → Option (List Nat × Nat)
  | 0, p => some ([], p)
  | n + 1, p => match readCode u ioff rows p 0 none with
    | .sym k q none => (symbolsOf u ioff rows n q).map fun x => (k :: x.1, x.2)
    | _ => none

/-- What a VDEC reads, in words that it does not write itself: its table, its symbols and the bit behind them (R352-R354). -/
def vdecReads (u : Team) (c : Cmd) : Option (List Byte × List Nat × Nat) :=
  match c.codeTable u with
  | .ok (some (rows, syms)) =>
    (symbolsOf u (off21 (c.word 0)) rows (lo16 (c.word 3)) ((c.word 3).extractLsb' 16 15).toNat).map (syms, ·)
  | _ => none

/-- The word that QEXP writes for element n, or for the pair of elements 2 n, 2 n + 1 (R336, R349). -/
def expandedWord (u : Team) (c : Cmd) (bf16 : Bool) (n : Nat) : Word :=
  let code (k : Nat) : Nat := expandCode (if bf16 then .bf16 else .f32) (u.engByte (off21 (c.word 1) + k / 32))
    ((u.engByte (off21 (c.word 0) + k / 2)).extractLsb' (4 * (k % 2)) 4)
  if bf16 then BitVec.ofNat 32 (code (2 * n) + 2 ^ 16 * code (2 * n + 1)) else BitVec.ofNat 32 (code n)

/-- The places that a QEXP reads and writes are apart, and what it reads is whole (R349). -/
structure ExpandReads (u : Team) (c : Cmd) : Prop where
  apart : overlaps c.xfIn c.xfOut = false
  whole : ∀ w ∈ rangeWords c.xfIn, u.wordFault w = none
  codes : ∀ n < (c.word 2).toNat / 2 ^ 21, corrupt (u.engByte (off21 (c.word 1) + n)) = false

/-- Execution of the commands of the copy engine but KVG, and of the transform pipe, with the warp that issued them. -/
def executionContract (i : Instr) (c : Cmd) (wid : Nat) : Option Contract :=
  match i with
  | .cpExecution core k =>
    match c.kind.copyDir with
    | some (dir, twoD) =>
      let x := c.copy twoD (dir == .fill)
      some
        { pre := fun s => CopyTurn s core k c wid ∧ CopyRuns s c dir x
          post := fun s t => copied s t c dir x ∧ (t.getCore core).cpFree = s.nowOf (64 * core) + 1 ∧
            if copyTotal x ≤ c.steps + 32 then Retired s t c wid (copyErr s c dir x)
            else ∃ clean, GoesOn s t (fun s => (s.getCore core).cpQ)
              { c with started := true, steps := c.steps + 32, err := copyErr s c dir x, clean } wid }
    | none => none
  | .qstExecution core k =>
    match c.kind with
    | .qst first => some
        { pre := fun s => PipeTurn s core k c wid ∧ overlaps [(off21 (c.word 0), 16 * 2)] [(off21 (c.word 1), 2)] = false
          post := fun s t => if c.completeAt = none then PipeStarts s t c wid (6 * c.blocks.length) else
            Retired s t c wid none ∧ ∀ u, s.getTeam? c.team = some u →
            ∃ v, t.getTeam? c.team = some v ∧ ∀ b ∈ c.blocks,
              (∀ k < 16, cellGet v.sp (off21 (c.word 0) + 16 * b + k) = (codeBytes (c.encoded first b).codes).getD k 0) ∧
              cellGet v.sp (off21 (c.word 1) + b) = (c.encoded first b).scale }
    | _ => none
  | .qexpExecution core k =>
    match c.kind with
    | .qexp bf16 => some
        { pre := fun s => PipeTurn s core k c wid ∧ ∀ u, s.getTeam? c.team = some u → ExpandReads u c
          post := fun s t => if c.completeAt = none then PipeStarts s t c wid (2 * ((c.word 2).toNat / 2 ^ 21)) else
            Retired s t c wid none ∧ ∀ u, s.getTeam? c.team = some u →
            ∃ v, t.getTeam? c.team = some v ∧ ∀ n < (c.word 2).toNat / 2 ^ 21 * (if bf16 then 16 else 32),
              spAt v (off21 (c.word 2) / 4 + n) = ⟨expandedWord u c bf16 n, false⟩ }
    | _ => none
  | .vdecExecution core k =>
    match c.kind with
    | .vdec => some
        { pre := fun s => PipeTurn s core k c wid ∧ overlaps [(off21 (c.word 1), lo16 (c.word 3))] [(off21 (c.word 4), 4)] = false ∧
            ∃ u, s.getTeam? c.team = some u ∧ (vdecReads u c).isSome = true ∧ ∀ w ∈ rangeWords c.xfOut, (w, c.id) ∈ u.marks
          post := fun s t => ∀ u syms l q, s.getTeam? c.team = some u → vdecReads u c = some (syms, l, q) →
            if c.completeAt = none then
              PipeStarts s t c wid (8 + ((q + 63) / 64 - ((c.word 3).extractLsb' 16 15).toNat / 64))
            else Retired s t c wid none ∧ ∃ v, t.getTeam? c.team = some v ∧ l.length = lo16 (c.word 3) ∧
              (∀ k < l.length, cellGet v.sp (off21 (c.word 1) + k) = syms.getD (l.getD k 0) 0) ∧
              v.spWord (off21 (c.word 4) / 4) = BitVec.ofNat 32 (lo16 (c.word 3)) }
    | _ => none
  | _ => none

end Sys2Proof.Claim
end

