-- ==== Sys2Proof/Claims/Dispatcher.lean ====
section
/-! DEFINITION. Events of the dispatcher and of the save engine, as tables: records, placement, requests to give way,
cancels, saves and restores (spec/17, spec/18, spec/19). -/

namespace Sys2Proof.Claim

open Sys2Proof.Machine

/-! ## Records of a queue (R392-R399) -/

/-- Queue q is served, and its next record has the bytes b (R399, R472). -/
structure Record (s : State) (q p : Nat) (b : List Byte) : Prop where
  holder : s.queueHolder q = some p
  enabled : (s.getQueue q).enable = true
  unread : (s.getQueue q).rptr ≠ (s.getQueue q).wptr
  bytes : b = s.homeRead (hostAddr (s.getQueue q).base + 128 * ((s.getQueue q).rptr.toNat % 2 ^ (s.getQueue q).log2)) 128

/-- The record has been read: RPTR passes it (R472). -/
def Read (s t : State) (q : Nat) : Prop := (t.getQueue q).rptr = (s.getQueue q).rptr + 1

/-- A record of a queue is applied, or refused with its code (R396, R398). -/
def recordEffect (q : Nat) (kinds : Nat → Prop) : Contract :=
  { pre := fun s => ∃ p b, Record s q p b ∧ kinds (recKind b) ∧ (s.recordCode p b = 0 → ParentRuns s b)
    post := fun s t => ∀ p b, Record s q p b → Read s t q ∧
      (s.recordCode p b = 0 → Applied s t q p b) ∧ (s.recordCode p b ≠ 0 → Refused s t q p b (s.recordCode p b)) }

/-- The records of a queue. -/
def recordContract (i : Instr) : Option Contract :=
  match i with
  | .launch q => some (recordEffect q fun k => k = 0 ∨ 2 < k)
  | .openCtr q => some (recordEffect q fun k => k = 1)
  | .seal q => some (recordEffect q fun k => k = 2)
  | _ => none

/-! ## Placement and cancels (R401-R407) -/

/-- A warp as a team's start leaves it (R60, R98, R407): one gang of its live slices at ENTRY, b0 holding ARGS, every other
register at its reset value. -/
structure StartsAt (w : Warp) (team k : Nat) (l : Launch) : Prop where
  who : w.team = team ∧ w.index = k ∧ w.wide64 = l.wide64
  lanes : w.nlanes = min (if l.wide64 then 64 else 32) (l.lanes - (if l.wide64 then 64 else 32) * k)
  regs : (∀ n, w.wReg n = .u 0 false) ∧ (∀ n, w.tReg n = .u 0 false) ∧ (∀ n, n ≠ 7 → w.pReg n = .u false) ∧
    ∀ n, w.bReg n = if n = 0 then l.args else 0
  special : w.part = 0 ∧ w.role = 0 ∧ w.tvec = 0 ∧ w.deadline = BitVec.allOnes 64 ∧ w.tmask = 0 ∧ w.hm = false
  gang : ∃ g, w.gangs = [(0, g)] ∧ g.pc = l.entry ∧ g.fmt = 0 ∧ g.loops = [] ∧ g.inner = 31 ∧ g.wait = none ∧
    ∀ j < 16, g.slices.getLsbD j = decide (4 * j < w.nlanes)
  rows : w.floor = l.floor ∧ w.borrow = l.borrow ∧ w.rows = [] ∧ w.granted = []
  idle : w.pend = [] ∧ w.storeQ = [] ∧ w.ops = [] ∧ w.errs = [] ∧ w.ended = false ∧ w.exited = 0 ∧ w.count = 0 ∧
    w.copies = []

/-- A team record at its start (R230, R240, R293, R300, R393, R404). -/
structure TeamStarts (u : Team) (key core : Nat) (l : Launch) : Prop where
  who : u.launch = key ∧ u.index = l.nextTeam ∧ u.crew = l.nextTeam / l.tpc ∧ u.rank = l.nextTeam % l.tpc ∧
    u.part = l.part ∧ u.nlanes = l.lanes
  at' : u.core = core ∧ u.status = .resident ∧ u.image = none ∧ u.quarter = core % 4
  warps : u.wids.length = (if l.wide64 then (l.lanes + 63) / 64 else (l.lanes + 31) / 32) ∧ u.wids.Nodup
  space : u.size = l.scratch ∧ u.sp = [] ∧ u.spPoison = [] ∧ u.errWord = 0
  bars : u.nbar = l.nbar ∧ ∀ k < l.nbar, u.bar k = ⟨u.wids.length, 0, 0, 0⟩
  guards : ∀ k, u.guardSlot k = ⟨.unresolved, 0⟩
  tags : u.tagT = l.tagT ∧ u.tag.isSome = l.tagT
  quiet : u.req = none ∧ u.arrived = [] ∧ u.counted = false ∧ u.region = none

/-- A team has ended, and its record says so as long as its crew has one (R230, R403). -/
def EndsTeam (s t : State) (team : Nat) : Prop :=
  ∀ u v, s.getTeam? team = some u → t.getTeam? team = some v → v.launch = u.launch → v.crew = u.crew → v.status = .ended

/-- Placement, and the cancels that end a team or mark a unit. -/
def placeContract (i : Instr) : Option Contract :=
  match i with
  | .teamPlacement key core => some
      { pre := fun s => s.nextPlacement = some (key, none) ∧ s.mayStart key core = true
        post := fun s t => ∃ l u, s.getLaunch? key = some l ∧ t.getTeam? s.fresh = some u ∧ TeamStarts u key core l ∧
          (∃ l', t.getLaunch? key = some l' ∧ l'.nextTeam = l.nextTeam + 1 ∧ core ∈ l'.cores) ∧
          (∀ k wid, u.wids[k]? = some wid → wid / 64 = core ∧ s.warps.find? wid = none ∧
            StartsAt (t.getWarp wid) s.fresh k l) ∧
          ∀ wid, wid ∉ u.wids → t.getWarp wid = s.getWarp wid }
  | .cancelTimeout team => some
      { pre := fun s => ∃ u since, s.getTeam? team = some u ∧ u.req = some (.cancel, since) ∧ u.status = .resident ∧
          since + 200000 ≤ s.gtime
        post := fun s t => EndsTeam s t team ∧
          ∀ u l, s.getTeam? team = some u → s.getLaunch? u.launch = some l → s.hasOps u = false →
            2 ≤ (s.getCounter l.ctr).open' → (t.getCounter l.ctr).open' = (s.getCounter l.ctr).open' - 1 }
  | .ccancel p v => some
      { pre := fun s => (s.getPart p).holdsCounter (v.extractLsb' 0 10).toNat = true ∧
          (s.getCounter (v.extractLsb' 0 10).toNat).done = false ∧
          (s.getCounter (v.extractLsb' 0 10).toNat).gen = v.extractLsb' 16 16
        post := fun s t => (t.getCounter (v.extractLsb' 0 10).toNat).cancelled = true ∧
          ((∀ e ∈ s.counters, e.2.parent ≠ some (v.extractLsb' 0 10).toNat) → ∀ key l,
            s.launchOf (v.extractLsb' 0 10).toNat = some (key, l) →
            (∀ l', t.getLaunch? key = some l' → l'.cancelled = true ∧ l'.nextTeam = l'.ncrew * l'.tpc) ∧
            ∀ team u, s.getTeam? team = some u → u.launch = key → u.status = .resident → ∀ w, t.getTeam? team = some w →
              w.launch = key → w.crew = u.crew → w.status = .ended ∨ ∃ since, w.req = some (.cancel, since)) }
  | _ => none

/-! ## Requests to give way (R408, R425, R427, R428) -/

/-- A team that has no request is asked to give way: the request, with its time, and its region; nothing else changes. -/
def Asked (s t : State) (team : Nat) (k : ReqKind) : Prop :=
  ∀ u, s.getTeam? team = some u → ∃ r, OnlyTeam s t team { u with req := some (k, s.gtime), region := some r } ∧
    Reserved s u r

/-- A resident team without a request, with space for its image. -/
def Askable (s : State) (team : Nat) (u : Team) : Prop :=
  s.getTeam? team = some u ∧ u.status = .resident ∧ u.req = none ∧ HasSpace s u

/-- Requests. -/
def requestContract (i : Instr) : Option Contract :=
  match i with
  | .priorityReq team => some
      { pre := fun s => ∃ u, Askable s team u ∧ s.waitsAbove u.part (s.prioOf u) = true ∧
          ∀ e ∈ s.unasked u.part, e.1 ≠ team → s.yieldsFirst e.2 u = false
        post := fun s t => Asked s t team .priority }
  | .sliceReq team => some
      { pre := fun s => ∃ u, Askable s team u ∧ u.placedAt + 2000000 ≤ s.gtime ∧
          s.hasUnplaced u.part (fun l => l.prio == s.prioOf u && s.eligibleLaunch l) = true ∧
          ∀ e ∈ s.unasked u.part, s.prioOf e.2 = s.prioOf u → u.placedAt ≤ e.2.placedAt
        post := fun s t => Asked s t team .slice }
  | .progressReq team => some
      { pre := fun s => ∃ u l since, Askable s team u ∧ u.blocked = some since ∧ since + 20000 ≤ s.gtime ∧
          s.getLaunch? u.launch = some l ∧ (l.nextTeam < l.ncrew * l.tpc ∨
            ∃ e ∈ s.teams, e.2.launch = u.launch ∧ e.2.status = .out)
        post := fun s t => Asked s t team .progress }
  | .migrateReq core v => some
      { pre := fun s => FirmwareRuns s ∧ v.extractLsb' 28 3 = 4#3 ∧ v.getLsbD 31 = true ∧ s.svGo core = false ∧
          (s.coreAt (v.extractLsb' 0 16)).isSome = true ∧
          ∃ team u, s.teamInSlot core (v.extractLsb' 24 4).toNat = some (team, u) ∧ s.getTeam? team = some u ∧ u.req = none
        post := fun s t => ∀ team u target, s.teamInSlot core (v.extractLsb' 24 4).toNat = some (team, u) →
          s.coreAt (v.extractLsb' 0 16) = some target →
          t.getTeam? team = some { u with req := some (.migrate, s.gtime), target } ∧
          t.getCore core = { s.getCore core with svTeam := some team, svKind := 4, svSlot := v.extractLsb' 24 4,
                                                 svFail := false, svTarget := v.extractLsb' 0 16 } ∧
          (∀ i, i ≠ team → t.getTeam? i = s.getTeam? i) ∧ (∀ i, i ≠ core → t.getCore i = s.getCore i) ∧
          { t with teams := s.teams, cores := s.cores } = s }
  | .fullSave team => some
      { pre := fun s => ∃ u k since, s.getTeam? team = some u ∧ u.req = some (k, since) ∧ u.status = .resident ∧
          k ≠ .cancel ∧ since + 200000 ≤ s.gtime ∧ s.teamParked u = false
        post := fun s t => ∀ u, s.getTeam? team = some u →
          (∀ wid, t.getWarp wid = if wid ∈ u.wids then
              { s.getWarp wid with halted := true, rowReq := none, granted := [], parked := none }
            else s.getWarp wid) ∧ { t with warps := s.warps } = s }
  | _ => none

/-! ## Saves and restores (R432-R445) -/

/-- The values that an image keeps of a warp: all of them, or the w registers and predicates that its live entries name
(R432, R435). -/
def Kept (by' : Option (List LiveEntry)) (a b : Warp) : Prop :=
  b.t = a.t ∧ b.b = a.b ∧ match by' with
    | none => b.w = a.w ∧ b.p = a.p
    | some l => (∀ n, (∃ e ∈ l, e.wmask.getLsbD n = true) → b.w.find? n = a.w.find? n) ∧
        ∀ n, (∃ e ∈ l, e.pmask.getLsbD n = true) → b.p.find? n = a.p.find? n

/-- The w registers of the warps of an image, as its region of the save pool holds them, with the poison of its lines (R236,
R439). -/
def pooledRegs (s : State) (u : Team) (i : Image) : Option (List (SMap Shaped)) :=
  match s.readImage u with
  | some b => sectionRegs (s.spoiltImage u) b i.warps
  | none => some (i.warps.map fun (w : Warp) => w.w)

/-- An image that can be read back: no chunk has tag 3 (R440). -/
def Readable (s : State) (u : Team) (i : Image) : Prop :=
  (pooledRegs s u i).isSome = true ∧ ∀ b, s.readImage u = some b → (sectionGranules (s.spoiltImage u) b 0x18).isSome = true ∧
    (sectionSlices (s.spoiltImage u) b i.banks.length).isSome = true ∧ (sectionGranules (s.spoiltImage u) b 0x20).isSome = true

/-- A loop stack whose records run from no loop buffer (R116, R444). -/
def fetched (l : List LoopRec) : List LoopRec := l.map fun r => { r with buf := false }

/-- Saves and restores. -/
def saveContract (i : Instr) : Option Contract :=
  match i with
  | .saveTeam team => some
      { pre := fun s => ∃ u k since, s.getTeam? team = some u ∧ u.req = some (k, since) ∧ k ≠ .migrate ∧
          s.saveReady u team = true
        post := fun s t => ∀ u k since, s.getTeam? team = some u → u.req = some (k, since) →
          ∃ (v : Team) (i : Image), t.getTeam? team = some v ∧ v.status = .out ∧ v.image = some i ∧ v.req = none ∧
            v.hostHeld = decide (k = .host) ∧ i.kind = k ∧ i.warps.length = u.wids.length ∧
            (∀ (n wid : Nat), u.wids[n]? = some wid → (s.getWarp wid).pend = [] → (s.getWarp wid).storeQ = [] →
              ∃ (w : Warp) (by' : Option (List LiveEntry)), i.warps[n]? = some w ∧ (s.savedBy u)[n]? = some by' ∧ Kept by' (s.getWarp wid) w ∧
                w.tvec = (s.getWarp wid).tvec ∧ w.trap = (s.getWarp wid).trap ∧ w.hm = (s.getWarp wid).hm) ∧
            ∀ e ∈ t.warps, e.1 ∉ u.wids }
  | .restoreTeam team core => some
      { pre := fun s => ∃ u i, s.getTeam? team = some u ∧ u.image = some i ∧ Readable s u i ∧
          s.nextPlacement = some (u.launch, some team) ∧ s.mayRestore team core = true
        post := fun s t => ∀ u i, s.getTeam? team = some u → u.image = some i →
          ∃ (v : Team), t.getTeam? team = some v ∧ v.status = .resident ∧ v.core = core ∧ v.image = none ∧ v.region = none ∧
            v.req = none ∧ v.placedAt = s.gtime ∧ v.wids.length = u.nwarps ∧ v.wids.Nodup ∧
            ∀ (rs : List (SMap Shaped)), pooledRegs s u i = some rs → ∀ (n wid : Nat) (w : Warp) (r : SMap Shaped),
              v.wids[n]? = some wid → i.warps[n]? = some w → rs[n]? = some r → wid / 64 = core ∧ s.warps.find? wid = none ∧
              SameValues { w with w := r } (t.getWarp wid) ∧ (t.getWarp wid).tvec = w.tvec ∧ (t.getWarp wid).trap = w.trap ∧
              (t.getWarp wid).hm = w.hm ∧ (t.getWarp wid).slices = w.slices ∧
              ∀ g e, w.gangs.find? g = some e → ∃ x, (t.getWarp wid).gangs.find? g = some x ∧ x.pc = e.pc ∧
                x.fmt = e.fmt ∧ x.loops = fetched e.loops ∧ x.slices = e.slices }
  | _ => none

end Sys2Proof.Claim
end

