-- ==== Sys2Proof/Claims/Power.lean ====
section
/-! DEFINITION. Events of power, current and thermal control, as tables (spec/20). -/

namespace Sys2Proof.Claim

open Sys2Proof.Machine

/-! ## Budget, floors and shares (R452-R454) -/

/-- Cores of cluster cl that a partition of the package holds: the lowest-numbered partition owns the cluster (R454). -/
def owner (s : State) (cl : Nat) : Option Nat :=
  (List.range 32).find? fun p => (List.range 4).any fun q => (s.getPart p).holdsCore (4 * cl + q)

/-- The sum of the floors in watts, and of the scaled floors in 1/16 W. -/
def floorSum (s : State) : Nat := ((List.range 32).map fun p => (s.getPart p).pflr.toNat).sum
def scaledSum (s : State) : Nat := ((List.range 32).map fun p => (s.getPart p).floor16).sum

/-- Clusters of a partition, and of all partitions. -/
def clustersOf (s : State) (p : Nat) : Nat := ((List.range 192).filter fun cl => owner s cl == some p).length
def clustersHeld (s : State) : Nat := ((List.range 192).filter fun cl => (owner s cl).isSome).length

/-- Budget, floors and shares are what R452, R453 and R454 make of PCAP, the idle floor, the floors and the grants. -/
structure Balanced (s : State) : Prop where
  budget : s.host.budget = if 2200 ≤ s.host.pcap.toNat then 2200 else max s.host.pcap.toNat s.host.f0
  clamped : s.host.capLow = decide (s.host.pcap.toNat < 2200 ∧ s.host.pcap.toNat < s.host.f0)
  floors : ∀ p < 32, (s.getPart p).floor16 = if s.host.budget < floorSum s
    then (s.getPart p).pflr.toNat * s.host.budget * 16 / floorSum s else 16 * (s.getPart p).pflr.toNat
  shares : ∀ cl < 192, (s.getCluster cl).share = match owner s cl with
    | none => 0
    | some p => ((s.getPart p).floor16 * clustersHeld s +
        (16 * (s.host.budget - s.host.f0) - scaledSum s) * clustersOf s p) / (clustersOf s p * clustersHeld s)

/-- What a change of budget leaves alone. -/
structure BudgetOnly (s t : State) : Prop where
  parts : ∀ p, (t.getPart p).pflr = (s.getPart p).pflr ∧ (t.getPart p).pcore = (s.getPart p).pcore
  clusters : ∀ cl, { t.getCluster cl with share := (s.getCluster cl).share } = s.getCluster cl
  rest : { t with host := s.host, parts := s.parts, clusters := s.clusters } = s

/-- The allowance counter of a cluster n cycles after it was last brought up: each cycle it is refilled, and the engines at work
in that cycle take theirs (R459, R460). -/
def counterAfter (k : Cluster) : Nat → Nat
  | 0 => k.c
  | n + 1 => min 65535 (counterAfter k n + k.refill) - 16 * k.burden (k.cAt + n + 1)

/-- A cluster's counters are brought up to cycle t: its allowance, the same at the start of t, the cycles in which each role was
withheld, and the work that goes on (R411, R459, R460). -/
structure BroughtUp (k x : Cluster) (t : Nat) : Prop where
  c : x.c = counterAfter k (t - k.cAt)
  c0 : x.c0 = min 65535 (counterAfter k (t - 1 - k.cAt))
  cAt : x.cAt = t
  held : x.held = (List.range 4).map fun r => k.heldAt r t
  work : x.work = k.work.filter fun w => decide (t < w.last)
  epoch : k.work = [] → x.full = k.full ∧ x.level = k.level
  rest : SameCluster k x

/-- PCAP, the idle floor, and their events. -/
def budgetContract (i : Instr) : Option Contract :=
  match i with
  | .pcap v => some
      { post := fun s t => t.host.pcap = v.extractLsb' 0 16 ∧ t.host.f0 = s.host.f0 ∧ Balanced t ∧ BudgetOnly s t ∧
          (t.host.capLow = true → s.host.capLow = false → t.host.pevt.getLsbD 0 = true) }
  | .powerMeasurement f0 => some
      { pre := fun s => s.host.measuredAt + 1000000 ≤ s.gtime
        post := fun s t => t.host.f0 = f0 ∧ t.host.pcap = s.host.pcap ∧ t.host.measuredAt = s.gtime ∧ Balanced t ∧
          BudgetOnly s t ∧ (t.host.capLow = true → s.host.capLow = false → t.host.pevt.getLsbD 0 = true) }
  | .allowanceRefill => some
      { post := fun s t => (∀ cl, if cl < 192 ∧ (s.getCluster cl).cAt < s.nowIn cl
          then BroughtUp (s.getCluster cl) (t.getCluster cl) (s.nowIn cl)
          else SameCluster (s.getCluster cl) (t.getCluster cl) ∧ (t.getCluster cl).c = (s.getCluster cl).c) ∧
          { t with clusters := s.clusters } = s }
  | _ => none

/-! ## Lending and recall (R456, R457) -/

/-- Clusters of a die. -/
def ofDie (die : Nat) : List Nat := (List.range 48).map fun n => 48 * die + n

/-- What a cluster lends at an epoch boundary: its share when it is gated, half of it when its counter stood full, and
nothing in a recall (R456, R457). -/
def offers (k : Cluster) : Nat :=
  if k.recallAt.isSome then 0 else if k.gated then k.share else if k.full then k.share / 2 else 0

/-- The highest level of a cluster in the epoch so far. -/
def peak (s : State) (cl : Nat) : Nat := max (s.getCluster cl).level (s.level cl)

/-- Does a cluster borrow (R456)? -/
def borrows (s : State) (cl : Nat) : Bool := !(s.getCluster cl).gated && decide (1 ≤ peak s cl)

/-- The pool of a die, what each borrower takes from it, and what is taken in all (R456). -/
def poolOf (s : State) (die : Nat) : Nat := ((ofDie die).map fun c => offers (s.getCluster c)).sum
def takes (s : State) (die cl : Nat) : Nat :=
  if borrows s cl then min (poolOf s die / ((ofDie die).filter (borrows s)).length) (s.getCluster cl).share else 0
def taken (s : State) (die : Nat) : Nat := ((ofDie die).map (takes s die)).sum

/-- The ACTIVE clusters of quadrant q of a die. -/
def activeIn (s : State) (die q : Nat) : List Nat :=
  (ofDie die).filter fun c => s.quadrantOf c == q && !(s.getCluster c).gated

/-- May the clock of quadrant q rise (R458): is the power left over at least 5% of the shares of its ACTIVE clusters, and
was none of them at level 2 or higher? -/
def Rises (s : State) (die q : Nat) : Prop :=
  ((activeIn s die q).map fun c => (s.getCluster c).share).sum ≤ 20 * (poolOf s die - taken s die) ∧
    ∀ c ∈ activeIn s die q, peak s c < 2

/-- The clock of quadrant q after a boundary (R458), and the cycles it has counted by then. -/
structure Reclocked (s t : State) (die q : Nat) : Prop where
  up : Rises s die q → (t.getDie die).qclk.getD q 21 = min 25 ((s.getDie die).qclk.getD q 21 + 1)
  down : ¬ Rises s die q → (t.getDie die).qclk.getD q 21 = max 21 ((s.getDie die).qclk.getD q 21 - 1)
  counted : (t.getDie die).qcyc.getD q (0, 0) = (s.cycleOf die q, s.gu)

/-- REFILL of a cluster (R456): floor(640 × P / f), with P in watts and f in MHz. -/
def refillOf (s : State) (cl : Nat) : Nat :=
  400 * ((s.getCluster cl).share - (s.getCluster cl).lent + (s.getCluster cl).borrowed) / s.clusterClock cl

/-- The machine at an epoch boundary of a die, with shares as they are due and the counters brought up (R454, R459). -/
def atBoundary (s : State) (die : Nat) : State := (ofDie die).foldl State.settleC s.setShares

/-- Epochs and recalls. -/
def lendingContract (i : Instr) : Option Contract :=
  match i with
  | .epoch die => some
      { pre := fun s => (s.getDie die).epochAt + 1000 ≤ s.gtime
        post := fun s t => (t.getDie die).epochAt = s.gtime / 1000 * 1000 ∧
          ((s.getDie die).mgRun = false → t.clusters = s.clusters ∧
            t.getDie die = { s.getDie die with epochAt := s.gtime / 1000 * 1000 }) ∧
          ((s.getDie die).mgRun = true → (∀ cl ∈ ofDie die,
            (t.getCluster cl).share = (s.setShares.getCluster cl).share ∧
            (t.getCluster cl).borrowed = takes (atBoundary s die) die cl ∧
            (t.getCluster cl).lent = (if poolOf (atBoundary s die) die = 0 then 0
              else offers ((atBoundary s die).getCluster cl) * taken (atBoundary s die) die / poolOf (atBoundary s die) die) ∧
            (t.getCluster cl).recallAt = none ∧ (t.getCluster cl).refill = refillOf t cl) ∧
            ((s.getDie die).qclk.length = 4 → (s.getDie die).qcyc.length = 4 →
              ∀ q < 4, Reclocked (atBoundary s die) t die q)) }
  | .recall cl => some
      { pre := fun s => (s.getDie (cl / 48)).mgRun = true ∧ ((s.getCluster cl).recallAt.isSome = true ∨
          ((s.getCluster cl).gated = false ∧ 0 < (s.getCluster cl).lent ∧ (s.getCluster cl).full = false))
        post := fun s t => (t.getCluster cl).lent = 0 ∧ (t.getCluster cl).recallAt = none ∧
          (∀ c, (t.getCluster c).borrowed = if c ∈ ofDie (cl / 48)
            then (s.getCluster c).borrowed - ((s.getCluster c).borrowed * (s.getCluster cl).lent +
              ((ofDie (cl / 48)).map fun c => (s.getCluster c).borrowed).sum - 1) /
                ((ofDie (cl / 48)).map fun c => (s.getCluster c).borrowed).sum
            else (s.getCluster c).borrowed) ∧
          (t.getCluster cl).refill = refillOf t cl ∧ ∀ c, (t.getCluster c).share = (s.getCluster c).share }
  | .lendt cl v => some
      { pre := FirmwareRuns
        post := fun s t => OnlyCluster s t cl
          (if v.extractLsb' 0 2 = 2#2 ∧ (s.getCluster cl).railOff = true then { s.getCluster cl with gated := true }
          else if v.extractLsb' 0 2 = 0#2 ∧ (s.getCluster cl).gated = true then
            { s.getCluster cl with gated := false, recallAt := some s.gtime }
          else s.getCluster cl) }
  | _ => none

/-! ## Quiesce, retention and gating (R462-R464) -/

/-- IDLE (R462): closed, no crew bound to the cluster, no command in the engine's table, and no work on its cores. -/
def idle (s : State) (cl : Nat) : Bool :=
  (s.getCluster cl).closed && !s.crewThere cl && decide ((s.getCluster cl).table = []) && !s.workThere cl

/-- The instruction caches of the cluster's cores and its translation buffers are empty (R463). -/
def CodeGone (t : State) (cl : Nat) : Prop :=
  (∀ q < 4, (t.getCore (4 * cl + q)).icache = []) ∧ (t.getCluster cl).kvtb = [] ∧ (t.getCluster cl).tlb = []

/-- Registers of a cluster: their writes, and the ends of what they start. -/
def gatingContract (i : Instr) : Option Contract :=
  match i with
  | .qreq cl v => some
      { pre := FirmwareRuns
        post := fun s t => OnlyCluster s t cl
          (if v.getLsbD 0 then { s.getCluster cl with req := true, closed := true }
          else if (s.getCluster cl).gate then s.getCluster cl
          else { s.getCluster cl with req := false, closed := false }) }
  | .rsaveSave cl => some
      { pre := FirmwareRuns
        post := fun s t => OnlyCluster s t cl
          (if idle s cl = true ∧ (s.getCluster cl).gate = false ∧ (s.getCluster cl).busy = none
          then { s.getCluster cl with busy := some (true, s.gtime), saved := none, err := false }
          else { s.getCluster cl with err := true }) }
  | .rsaveRestore cl => some
      { pre := FirmwareRuns
        post := fun s t => OnlyCluster s t cl
          (if (s.getCluster cl).saved.isSome = true ∧ (s.getCluster cl).good = true ∧ (s.getCluster cl).gate = false ∧
              (s.getCluster cl).busy = none
          then { s.getCluster cl with busy := some (false, s.gtime), err := false }
          else { s.getCluster cl with err := true }) }
  | .rsaveDone cl => some
      { pre := fun s => cl < 192 ∧ ∃ since, (s.getCluster cl).busy = some (true, since) ∨
          ((s.getCluster cl).busy = some (false, since) ∧ ∃ r, (s.getCluster cl).saved = some r ∧
            ∀ q < 4, ∀ p, r.owners.getD q none = some p → p < 32)
        post := fun s t => (t.getCluster cl).busy = none ∧ ∀ save since, (s.getCluster cl).busy = some (save, since) →
          if save then CodeGone t cl ∧ ∃ r, (t.getCluster cl).saved = some r ∧ ∀ q < 4,
              r.owners.getD q none = s.coreHolder (4 * cl + q) ∧
              r.brkstop.getD q false = (s.getCore (4 * cl + q)).brkstop ∧ r.trim = (s.getCluster cl).trim
          else (t.getCluster cl).saved = none ∧ ∀ r, (s.getCluster cl).saved = some r →
            (t.getCluster cl).trim = r.trim ∧ ∀ q < 4,
              t.coreHolder (4 * cl + q) = r.owners.getD q none ∧
              (t.getCore (4 * cl + q)).brkstop = r.brkstop.getD q false }
  | .clkg cl v => some
      { pre := FirmwareRuns
        post := fun s t => OnlyCluster s t cl
          (if v.getLsbD 0 then
            if (s.getCluster cl).gate = false ∧ idle s cl = true ∧ (s.getCluster cl).busy = none
            then { s.getCluster cl with gate := true, asked := [] } else s.getCluster cl
          else if (s.getCluster cl).gate ∧ (s.getCluster cl).good
          then { (s.getCluster cl).upTo (s.nowIn cl) with gate := false, c := 65535, c0 := 65535 }
          else s.getCluster cl) }
  | .rail cl v => some
      { pre := fun s => FirmwareRuns s ∧ cl < 192 ∧ if v.getLsbD 0 then (s.getCluster cl).railOff = false ∧ (s.getCluster cl).gate = true
          else (s.getCluster cl).railOff = true ∧ (s.getCluster cl).lent = 0
        post := fun s t => (t.getCluster cl).railOff = v.getLsbD 0 ∧ (t.getCluster cl).ramp = true ∧
          if v.getLsbD 0 then (t.getCluster cl).good = false ∧ CodeGone t cl ∧
            (t.getCluster cl).trim = (if (s.getCluster cl).saved.isSome then (s.getCluster cl).trim else 0) ∧ ∀ q < 4,
            (t.coreHolder (4 * cl + q) = if (s.getCluster cl).saved.isSome then s.coreHolder (4 * cl + q) else none) ∧
            (t.getCore (4 * cl + q)).brkstop = ((s.getCluster cl).saved.isSome && (s.getCore (4 * cl + q)).brkstop)
          else OnlyCluster s t cl { s.getCluster cl with railOff := false, ramp := true } }
  | .railRampDone cl => some
      { pre := fun s => (s.getCluster cl).ramp = true
        post := fun s t => OnlyCluster s t cl (if (s.getCluster cl).railOff = false ∧ (s.getCluster cl).good = false
          then { s.getCluster cl with good := true } else { s.getCluster cl with ramp := false }) }
  | _ => none

/-! ## Wake sources and sensors (R461, R465, R466) -/

/-- A wake source fires in the present cycle of the die's management core, in a cluster whose clock is stopped: `x` is the
cluster as the event leaves it otherwise. The source is latched when that cycle is over (R465). -/
def Fires (s t : State) (cl src : Nat) (x : Cluster) : Prop :=
  OnlyCluster s t cl (if x.gate then { x with firing := x.firing ++ [(src, s.nowOf (49152 + cl / 48))] } else x)

/-- A source that fired is latched if the cluster is armed for it and its clock is stopped, and then sets the wake bit in the
wake register of the die. -/
def Latched (s t : State) (cl src : Nat) : Prop :=
  let k := s.getCluster cl
  let on := k.arm.getLsbD src && k.gate
  OnlyCluster { s with dies := t.dies } t cl (if on then { k with src := k.src ||| BitVec.twoPow 3 src } else k) ∧
    ∀ d, t.getDie d = if on = true ∧ d = cl / 48 then
      { s.getDie d with wakeReg := (s.getDie d).wakeReg ||| BitVec.twoPow 32 k.wbit.toNat } else s.getDie d

/-- Between two turns, a source of a cluster is latched if the cycle in which it fired is over, and stays so if it is not
(R465). -/
structure LatchesWakes (s : State) (cl src at' : Nat) : Prop where
  later : (s.getCluster cl).firing = [(src, at')] → at' < s.nowOf (49152 + cl / 48) → ∃ t,
    t.getCluster cl = { s.getCluster cl with firing := [] } ∧ (∀ i, i ≠ cl → t.getCluster i = s.getCluster i) ∧
    { t with clusters := s.clusters } = s ∧ Latched t (s.latchWakes cl) cl src
  waits : (s.getCluster cl).firing = [(src, at')] → s.nowOf (49152 + cl / 48) ≤ at' →
    (s.latchWakes cl).getCluster cl = s.getCluster cl ∧ (s.latchWakes cl).dies = s.dies

/-- DEMAND fires in a sleeping cluster that is armed for it when an eligible team of its partition that finds no place has
not made it fire since the WAKE write or the clock's stop; it fires once for a team (R465; log 74). -/
structure DemandFires (s : State) (cl : Nat) (k : Cluster) : Prop where
  fires : ∀ id l o, (id, l) ∈ s.launches → s.offerOf id l = some o → s.placeable id o = false →
    s.clusterPart cl = some l.part → (id, o, l.nextTeam) ∉ k.asked →
    (s.demand.getCluster cl).firing = k.firing ++ [(0, s.nowOf (49152 + cl / 48))] ∧
      (id, o, l.nextTeam) ∈ (s.demand.getCluster cl).asked
  once : (∀ id l o, (id, l) ∈ s.launches → s.offerOf id l = some o → s.placeable id o = false →
    s.clusterPart cl = some l.part → (id, o, l.nextTeam) ∈ k.asked) → (s.demand.getCluster cl).firing = k.firing

/-- Wake sources and the temperature sensor. -/
def wakeContract (i : Instr) : Option Contract :=
  match i with
  | .wake cl v => some
      { pre := FirmwareRuns
        post := fun s t => OnlyCluster s t cl { s.getCluster cl with
          ticks := v.extractLsb' 16 16, wbit := v.extractLsb' 8 5, arm := v.extractLsb' 0 3,
          firing := (s.getCluster cl).firing.filter fun x => x.1 != 2, asked := [],
          wakeAt := if v.extractLsb' 16 16 = 0 then none else some s.gtime } }
  | .wakeTimer cl => some
      { pre := fun s => ∃ at', (s.getCluster cl).wakeAt = some at' ∧ at' + 1000 * (s.getCluster cl).ticks.toNat ≤ s.gtime
        post := fun s t => Fires s t cl 2 { s.getCluster cl with wakeAt := none } }
  | .hwake cl v => some
      { pre := fun _ => v.getLsbD 0 = true
        post := fun s t => Fires s t cl 1 (s.getCluster cl) }
  | .tempSample cl x => some
      { post := fun s t =>
          let hot := decide (1680 ≤ x.toInt) || (decide (1600 ≤ x.toInt) && (s.getCluster cl).hot)
          let d := s.getDie (cl / 48)
          let n := cl % 48
          let old := (s.getCluster cl).temp.toInt
          let trips := decide (old < d.tripm.toNat) && decide ((d.tripm.toNat : Int) ≤ x.toInt) && !d.tripped.getLsbD n
          let level := if hot then max 2 (s.getCluster cl).level else (s.getCluster cl).level
          t.getCluster cl = { (s.getCluster cl).upTo (s.nowIn cl) with temp := x, hot, level } ∧
          (∀ i, i ≠ cl → t.getCluster i = s.getCluster i) ∧
          (t.getDie (cl / 48)).thev = (if trips then d.thev ||| BitVec.twoPow 48 n else d.thev) ∧
          (t.getDie (cl / 48)).wakeReg = (if trips then d.wakeReg ||| BitVec.twoPow 32 d.wbit.toNat else d.wakeReg) ∧
          ((t.getDie (cl / 48)).tripped.getLsbD n = if trips then true
            else !decide (x.toInt < (d.tripm.toNat : Int) - 32) && d.tripped.getLsbD n) ∧
          (∀ i, i ≠ cl / 48 → t.getDie i = s.getDie i) ∧ { t with clusters := s.clusters, dies := s.dies } = s }
  | _ => none

end Sys2Proof.Claim
end

