-- ==== Sys2Proof/Claims/Host.lean ====
section
/-! DEFINITION. Events of the host, of firmware and code loading, of containment and of power-up, as tables (spec/05
R133; spec/21). -/

namespace Sys2Proof.Claim

open Sys2Proof.Machine

/-! ## Queues of a partition (R469-R472) -/

structure OnlyQueue (s t : State) (q : Nat) (x : Queue) : Prop where
  it : t.getQueue q = x
  others : ∀ i, i ≠ q → t.getQueue i = s.getQueue i
  rest : { t with queues := s.queues } = s

/-- A message has left the part, and nothing else of the host's registers has changed. -/
def Sent (s t : State) (m : Message) : Prop := t.host = { s.host with messages := s.host.messages ++ [m] }

/-- Cause bit k of partition p is set; when it was 0 and is not masked, its MSI-X message leaves (R471). -/
structure Causes (s t : State) (p k : Nat) : Prop where
  part : t.getPart p = { s.getPart p with pint := (s.getPart p).pint ||| BitVec.twoPow 6 k }
  others : ∀ i, i ≠ p → t.getPart i = s.getPart i
  msg : t.host = if (s.getPart p).pint.getLsbD k = false ∧ (s.getPart p).pintm.getLsbD k = false then
      { s.host with messages := s.host.messages ++
          [.msix (some p) ((s.getPart p).pvec.extractLsb' (5 * k) 5).toNat] }
    else s.host

/-- Queue registers: a queue is written and read by the partition that holds it (R469). -/
def queueContract (i : Instr) : Option Contract :=
  match i with
  | .wptr p q v => some
      { pre := fun s => (s.getPart p).holdsQueue q = true
        post := fun s t =>
          if 2 ^ (s.getQueue q).log2 < (v - (s.getQueue q).rptr).toNat then
            t.getQueue q = { s.getQueue q with qref := 0x51 } ∧
            ((s.getQueue q).qref = 0 → ∀ h, s.queueHolder q = some h → Causes s t h 0)
          else OnlyQueue s t q { s.getQueue q with wptr := v } }
  | .qcfg p q v => some
      { pre := fun s => (s.getPart p).holdsQueue q = true
        post := fun s t => OnlyQueue s t q
          (if (s.getQueue q).enable then { s.getQueue q with enable := v.getLsbD 8 }
          else if 4 ≤ (v.extractLsb' 0 5).toNat ∧ (v.extractLsb' 0 5).toNat ≤ 16 then
            { s.getQueue q with log2 := (v.extractLsb' 0 5).toNat, enable := v.getLsbD 8 }
          else s.getQueue q) }
  | .qref p q => some
      { post := fun s t => if (s.getPart p).holdsQueue q then
            t.getQueue q = { s.getQueue q with qref := 0 } ∧ Sent s t (.reg ((s.getQueue q).qref.zeroExtend 32)) ∧
            ∀ i, i ≠ q → t.getQueue i = s.getQueue i
          else t.queues = s.queues ∧ Sent s t (.reg 0) }
  | .qwake p q => some
      { post := fun s t => if (s.getPart p).holdsQueue q then
            t.getQueue q = { s.getQueue q with wake := 0 } ∧ Sent s t (.reg (s.getQueue q).wake) ∧
            ∀ i, i ≠ q → t.getQueue i = s.getQueue i
          else t.queues = s.queues ∧ Sent s t (.reg 0) }
  | _ => none

/-! ## Answers of the system handler (R133, R473) -/

/-- A record is outstanding in the slot, its warp still stands parked with it, and no record waits for room. -/
structure Outstanding (s : State) (p slot : Nat) (e : FaultEntry) : Prop where
  rec' : s.faultIn p slot = some e
  parked : s.stillParked e = true
  alone : (s.getPart p).waiting = []

/-- The warp of a record, where it is resident. -/
def RecordWarp (s : State) (e : FaultEntry) (wid : Nat) : Prop :=
  ∃ u, s.getTeam? e.team = some u ∧ u.image = none ∧ u.wids[e.warp]? = some wid

/-- The slot is answered. -/
def Answered (t : State) (p slot : Nat) : Prop := ∀ x ∈ (t.getPart p).outstanding, x.slot ≠ slot

/-- REPLAY, DELIVER, KILL-TEAM and KILL-LAUNCH. -/
def answerContract (i : Instr) : Option Contract :=
  match i with
  | .replayAns p slot => some
      { pre := fun s => ∃ e wid, Outstanding s p slot e ∧ RecordWarp s e wid
        post := fun s t => Answered t p slot ∧ ∀ e wid, s.faultIn p slot = some e → RecordWarp s e wid →
          let g := State.gangOf (s.getWarp wid) e.rec'.gang
          (t.getWarp wid).fault = none ∧ (State.gangOf (t.getWarp wid) e.rec'.gang).wait = none ∧
          (State.gangOf (t.getWarp wid) e.rec'.gang).pc = (if e.rec'.code = cSYSREQ
            then (loopTest e.rec'.pc g.loops).2.getD (e.rec'.pc + 4) else g.pc) ∧
          (State.gangOf (t.getWarp wid) e.rec'.gang).slices = g.slices ∧
          SameValues (s.getWarp wid) (t.getWarp wid) ∧ (t.getWarp wid).trap = (s.getWarp wid).trap ∧
          (∀ k, k ≠ e.rec'.gang → State.gangOf (t.getWarp wid) k = State.gangOf (s.getWarp wid) k) ∧
          ∀ i, i ≠ wid → t.getWarp i = s.getWarp i }
  | .deliverAns p slot => some
      { pre := fun s => ∃ e wid, Outstanding s p slot e ∧ RecordWarp s e wid ∧ e.rec'.code ≠ cBANKV ∧
          (s.getWarp wid).hm = false ∧ (s.getWarp wid).tvec ≠ 0
        post := fun s t => Answered t p slot ∧ ∀ e wid, s.faultIn p slot = some e → RecordWarp s e wid →
          (t.getWarp wid).fault = none ∧ (t.getWarp wid).hm = true ∧ (t.getWarp wid).trap.cause = e.rec'.code ∧
          (t.getWarp wid).trap.pc = e.rec'.pc ∧ (t.getWarp wid).trap.word = e.rec'.word ∧
          (t.getWarp wid).trap.flanes = e.rec'.flanes ∧ (t.getWarp wid).trap.faddr = e.rec'.faddr ∧
          (State.gangOf (t.getWarp wid) e.rec'.gang).pc = (s.getWarp wid).tvec ∧
          (t.getWarp wid).trap.savedFmt = (State.gangOf (s.getWarp wid) e.rec'.gang).fmt ∧
          (State.gangOf (t.getWarp wid) e.rec'.gang).fmt = 0 }
  | .killTeam p slot => some
      { pre := fun s => ∃ e, Outstanding s p slot e
        post := fun s t => Answered t p slot ∧ ∀ e, s.faultIn p slot = some e → EndsTeam s t e.team ∧
          ∀ u l, s.getTeam? e.team = some u → u.status ≠ .ended → s.getLaunch? u.launch = some l →
            (t.getCounter l.ctr).error = true }
  | .killLaunch p slot => some
      { pre := fun s => ∃ e u l, Outstanding s p slot e ∧ s.getTeam? e.team = some u ∧ s.getLaunch? u.launch = some l ∧
          (s.getCounter l.ctr).done = false ∧ (s.getCounter l.ctr).gen = l.gen
        post := fun s t => Answered t p slot ∧ ∀ e u l, s.faultIn p slot = some e → s.getTeam? e.team = some u →
          s.getLaunch? u.launch = some l → (t.getCounter l.ctr).cancelled = true }
  | _ => none

/-! ## Registers (R449, R470, R474, R475) -/

/-- The event that a write to a register's offset is: a register of the window, of a virtual function, or of the physical
function. -/
inductive WriteIs : RegSpace → Nat → DWord → Instr → Prop
  | qreq (d n : Nat) (v : DWord) : d < 4 → n < 48 →
      WriteIs .window (d * 2 ^ 24 + (0x100 + n) * 2 ^ 12) v (.qreq (48 * d + n) (loWord v))
  | clkg (d n : Nat) (v : DWord) : d < 4 → n < 48 →
      WriteIs .window (d * 2 ^ 24 + (0x100 + n) * 2 ^ 12 + 0x10) v (.clkg (48 * d + n) (loWord v))
  | rail (d n : Nat) (v : DWord) : d < 4 → n < 48 →
      WriteIs .window (d * 2 ^ 24 + (0x100 + n) * 2 ^ 12 + 0x14) v (.rail (48 * d + n) (loWord v))
  | rsaveSave (d n : Nat) : d < 4 → n < 48 →
      WriteIs .window (d * 2 ^ 24 + (0x100 + n) * 2 ^ 12 + 8) 1 (.rsaveSave (48 * d + n))
  | rsaveRestore (d n : Nat) : d < 4 → n < 48 →
      WriteIs .window (d * 2 ^ 24 + (0x100 + n) * 2 ^ 12 + 8) 2 (.rsaveRestore (48 * d + n))
  | wake (d n : Nat) (v : DWord) : d < 4 → n < 48 →
      WriteIs .window (d * 2 ^ 24 + (0x100 + n) * 2 ^ 12 + 0x1C) v (.wake (48 * d + n) (loWord v))
  | lendt (d n : Nat) (v : DWord) : d < 4 → n < 48 →
      WriteIs .window (d * 2 ^ 24 + 0x100 + 4 * n) v (.lendt (48 * d + n) (loWord v))
  | cdbg (d k : Nat) (v : DWord) : d < 4 → k < 192 →
      WriteIs .window (d * 2 ^ 24 + (0x200 + k) * 2 ^ 12) v (.cdbg (192 * d + k) (loWord v))
  | svreq (d k : Nat) (v : DWord) : d < 4 → k < 192 →
      WriteIs .window (d * 2 ^ 24 + (0x200 + k) * 2 ^ 12 + 8) v (.migrateReq (192 * d + k) (loWord v))
  | ccancel (p : Nat) (v : DWord) : WriteIs (.vf p) 0x28 v (.ccancel p (loWord v))
  | qcfg (p q : Nat) (v : DWord) : q < 4096 → WriteIs (.vf p) (0x10000 + 32 * q + 8) v (.qcfg p q (loWord v))
  | wptr (p q : Nat) (v : DWord) : q < 4096 → WriteIs (.vf p) (0x10000 + 32 * q + 0xC) v (.wptr p q (loWord v))
  | pcap (v : DWord) : WriteIs .pf 0 v (.pcap (loWord v))
  | pfCdbg (d k : Nat) (v : DWord) : d < 4 → k < 192 →
      WriteIs .pf (0x10000 + 0x1000 * d + 4 * k) v (.cdbg (192 * d + k) (loWord v))
  | hwake (d n : Nat) (v : DWord) : d < 4 → n < 48 →
      WriteIs .pf (0x20000 + 0x100 * d + 4 * n) v (.hwake (48 * d + n) (loWord v))
  | pctlSwitch (p : Nat) : p < 32 → WriteIs .pf (0x100000 + 0x1000 * p) 1 (.pctlSwitch p)
  | pctlResume (p : Nat) : p < 32 → WriteIs .pf (0x100000 + 0x1000 * p) 2 (.pctlResume p)

/-- The event that a value written to FREPLY is, for a slot (R470, R473). -/
inductive FreplyIs (p slot : Nat) (v : Word) : Instr → Prop
  | replay : v.extractLsb' 16 4 = 0#4 → FreplyIs p slot v (.replayAns p slot)
  | deliver : v.extractLsb' 16 4 = 1#4 → FreplyIs p slot v (.deliverAns p slot)
  | killTeam : v.extractLsb' 16 4 = 2#4 → FreplyIs p slot v (.killTeam p slot)
  | killLaunch : v.extractLsb' 16 4 = 3#4 → FreplyIs p slot v (.killLaunch p slot)

/-- What a write to a register of the virtual function leaves in the partition, for those that are no event, and while no
record waits for room in the ring (R470, R473). -/
def vfWrite (b : Partition) (off : Nat) (v : Word) : Option Partition :=
  match off with
  | 0x00 => some { b with pint := b.pint &&& ~~~v.extractLsb' 0 6 }
  | 0x04 => some { b with pintm := v.extractLsb' 0 6 }
  | 0x08 => some { b with pvec := v &&& 0x3FFFFFFF#32 }
  | 0x10 => some { b with fqbase := b.fqbase &&& 0xFFFFFFFF00000000#64 ||| (v &&& 0xFFFFFFC0#32).zeroExtend 64 }
  | 0x14 => some { b with fqbase := v ++ loWord b.fqbase }
  | 0x18 => if b.waiting = [] then some (if 4 ≤ (v.extractLsb' 0 5).toNat ∧ (v.extractLsb' 0 5).toNat ≤ 12
      then { b with fqlog2 := (v.extractLsb' 0 5).toNat } else b) else none
  | 0x20 => if b.waiting = [] then some { b with fqrptr := v } else none
  | _ => none

structure OnlyPart (s t : State) (p : Nat) (x : Partition) : Prop where
  it : t.getPart p = x
  others : ∀ i, i ≠ p → t.getPart i = s.getPart i
  rest : { t with parts := s.parts } = s

/-- The precedence of a request (R427). -/
def precedence (k : ReqKind) : Nat :=
  match k with
  | .yield => 1
  | .slice => 2
  | .progress => 3
  | .priority => 4
  | .migrate => 5
  | .host => 6
  | .cancel => 7

/-- A team is asked to give way (R427): where space for its full image is reserved or can be, a resident team without a
request, or with one of lower precedence, takes this one; a request that is as high or higher stays; and without space
nothing is asked. A team that is asked for the first time changes alone. -/
structure AskedOne (k : ReqKind) (s t : State) (team : Nat) : Prop where
  takes : ∀ u, s.getTeam? team = some u → u.status = .resident → HasSpace s u →
    (∀ old since, u.req = some (old, since) → precedence old < precedence k) →
    ∃ r, Reserved s u r ∧ t.getTeam? team = some { u with req := some (k, s.gtime), region := some r }
  keeps : ∀ u old since, s.getTeam? team = some u → u.status = .resident → HasSpace s u → u.req = some (old, since) →
    precedence k ≤ precedence old → ∃ r, Reserved s u r ∧ t.getTeam? team = some { u with region := some r }
  refused : ∀ u, s.getTeam? team = some u → ¬ HasSpace s u → t = s
  others : ∀ i, i ≠ team → t.getTeam? i = s.getTeam? i
  alone : ∀ u, s.getTeam? team = some u → u.req = none → { t with teams := s.teams } = s
  rest : { t with teams := s.teams, warps := s.warps, cores := s.cores } = s

/-- The teams of a list are asked one after another, each with the space that the earlier ones have left. -/
inductive AskedAll (k : ReqKind) : State → List Nat → State → Prop
  | none (s : State) : AskedAll k s [] s
  | next (s u t : State) (team : Nat) (rest : List Nat) :
      AskedOne k s u team → AskedAll k u rest t → AskedAll k s (team :: rest) t

/-- The resident teams of a partition. -/
def residents (s : State) (p : Nat) : List Nat :=
  (s.teams.filter fun e => e.2.part == p && e.2.status == .resident).map (·.1)

/-- PCTL (R427, R475): SWITCH makes a HOST request of every resident team of the partition, and names them; RESUME lets those
that HOST requests hold be placed again. Either write is taken, and clears ERR. -/
def partContract (i : Instr) : Option Contract :=
  match i with
  | .pctlSwitch p => some
      { post := fun s t => ∃ m, AskedAll .host (s.modPart p fun b => { b with err := false }) (residents s p) m ∧
          OnlyPart m t p { s.getPart p with err := false, switched := residents s p } }
  | .pctlResume p => some
      { post := fun s t =>
          (∀ team, t.getTeam? team = (s.getTeam? team).map fun u => if u.part = p then { u with hostHeld := false } else u) ∧
          OnlyPart { s with teams := t.teams } t p { s.getPart p with err := false } }
  | _ => none

/-! ## Registers of the window (R448-R451) -/

/-- A word put together from fields: widths and values, from bit 0 on; what they do not reach is zero. -/
def packed : List (Nat × Nat) → Nat
  | [] => 0
  | (w, v) :: rest => v % 2 ^ w + 2 ^ w * packed rest

/-- Fields of the registers of a cluster block (R450). -/
def clusterFields (s : State) (cl off : Nat) : List (Nat × Nat) :=
  let k := s.getCluster cl
  match off with
  | 0x00 => [(1, k.req.toNat)]
  | 0x04 => [(1, k.closed.toNat), (1, (idle s cl).toNat)]
  | 0x0C => [(1, k.busy.isSome.toNat), (1, k.saved.isSome.toNat), (1, k.err.toNat)]
  | 0x10 => [(1, k.gate.toNat)]
  | 0x14 => [(1, k.railOff.toNat)]
  | 0x18 => [(1, k.good.toNat), (1, k.ramp.toNat)]
  | 0x1C => [(3, k.arm.toNat), (5, 0), (5, k.wbit.toNat), (3, 0), (16, k.ticks.toNat)]
  | 0x20 => [(3, k.src.toNat)]
  | 0x24 => [(16, k.temp.toNat)]
  | 0x28 => [(16, counterAfter k (s.nowIn cl - k.cAt)), (3, k.levelAt (s.nowIn cl))]
  | 0x2C => [(16, min k.refill 65535)]
  | _ => []

/-- Fields of the registers of a die block, but for LENDT and MGFAULT (R451). -/
def dieFields (s : State) (d off : Nat) : List (Nat × Nat) :=
  let k := s.getDie d
  match off with
  | 0x000 => (List.range 4).map fun q => (8, k.qclk.getD q 0)
  | 0x004 => [(12, k.tripm.toNat), (5, k.wbit.toNat)]
  | 0x008 => [(32, (k.thev.extractLsb' 0 32).toNat)]
  | 0x00C => [(16, (k.thev.extractLsb' 32 16).toNat)]
  | _ => []

/-- Fields of LENDT of a cluster (R451), and of the registers of a core's block (R130, R191, R428). -/
def lendtFields (k : Cluster) : List (Nat × Nat) := [(2, if k.gated then 2 else 0), (14, k.share), (16, k.lent)]
def coreFields (s : State) (core off : Nat) : List (Nat × Nat) :=
  let k := s.getCore core
  match off with
  | 0x0 => [(1, k.snap.toNat), (1, k.snap.toNat), (1, k.fatal.toNat), (1, k.brkstop.toNat)]
  | 0x8 => [(16, k.svTarget.toNat), (7, 0), (1, k.svFail.toNat), (4, k.svSlot.toNat), (3, k.svKind.toNat),
      (1, (s.svGo core).toNat)]
  | 0xC => (List.range 16).map fun j => (1, (s.teamInSlot core j).isSome.toNat)
  | _ => []

/-- Offsets of the blocks of clusters and of cores in the window (R448). -/
def clusterAt (d n off : Nat) : Nat := d * 2 ^ 24 + (0x100 + n) * 2 ^ 12 + off
def coreBlock (d k off : Nat) : Nat := d * 2 ^ 24 + (0x200 + k) * 2 ^ 12 + off

/-- What a read of the window gives (R448-R451): an offset that names no register reads 0. -/
structure WindowReads (s : State) : Prop where
  cluster : ∀ d n off, n < 48 → off < 2 ^ 12 →
    s.windowRead (clusterAt d n off) = BitVec.ofNat 32 (packed (clusterFields s (48 * d + n) off))
  die : ∀ d off, off < 0x100 → (s.getDie d).qclk.length = 4 →
    s.windowRead (d * 2 ^ 24 + off) = BitVec.ofNat 32 (packed (dieFields s d off))
  lendt : ∀ d n, n < 48 →
    s.windowRead (d * 2 ^ 24 + 0x100 + 4 * n) = BitVec.ofNat 32 (packed (lendtFields (s.getCluster (48 * d + n))))
  mgfault : ∀ d j, j < 10 → s.windowRead (d * 2 ^ 24 + 0x200 + 4 * j) =
    BitVec.ofNat 32 (packed ((List.range 4).map fun b => (8, ((s.getDie d).mgfault.getD (4 * j + b) 0).toNat)))
  core : ∀ d k off, k < 192 → off < 2 ^ 12 → off ≠ 4 →
    s.windowRead (coreBlock d k off) = BitVec.ofNat 32 (packed (coreFields s (192 * d + k) off))
  vrstat : ∀ d k, k < 192 → s.windowRead (coreBlock d k 4) = BitVec.ofNat 32
    (((s.warpsOn (192 * d + k)).map fun e => e.2.nRows).sum + 2 ^ 12 * s.resRows (192 * d + k) +
      2 ^ 24 * ((s.warpsOn (192 * d + k)).filter fun e => e.2.waiting.isSome).length)
  none' : ∀ d block off, off < 2 ^ 12 → block < 2 ^ 12 → block ≠ 0 → ¬ (0x100 ≤ block ∧ block < 0x130) →
    ¬ (0x200 ≤ block ∧ block < 0x2C0) → s.windowRead (d * 2 ^ 24 + block * 2 ^ 12 + off) = 0

structure OnlyDie (s t : State) (d : Nat) (x : Die) : Prop where
  it : t.getDie d = x
  others : ∀ i, i ≠ d → t.getDie i = s.getDie i
  rest : { t with dies := s.dies } = s

/-- What a write to the window does (R449-R451): it is the event of its register, where a management core runs; WAKESRC, THEV0 and THEV1 clear the bits
written as 1, THCFG takes its fields; read-only registers keep their values. -/
structure WindowWrites (s : State) (v : Word) : Prop where
  event : FirmwareRuns s → ∀ off i, WriteIs .window off (v.zeroExtend 64) i → exec i s = .next (s.windowWrite off v)
  wakesrc : ∀ d n, n < 48 → OnlyCluster s (s.windowWrite (clusterAt d n 0x20) v) (48 * d + n)
    { s.getCluster (48 * d + n) with src := (s.getCluster (48 * d + n)).src &&& ~~~v.extractLsb' 0 3 }
  thcfg : ∀ d, OnlyDie s (s.windowWrite (d * 2 ^ 24 + 4) v) d
    { s.getDie d with tripm := v.extractLsb' 0 12, wbit := v.extractLsb' 12 5 }
  thev0 : ∀ d, OnlyDie s (s.windowWrite (d * 2 ^ 24 + 8) v) d
    { s.getDie d with thev := (s.getDie d).thev &&& ~~~v.zeroExtend 48 }
  thev1 : ∀ d, OnlyDie s (s.windowWrite (d * 2 ^ 24 + 0xC) v) d
    { s.getDie d with thev := (s.getDie d).thev &&& ~~~((v.extractLsb' 0 16).zeroExtend 48 <<< 32) }
  readOnly : ∀ d n off, n < 48 → (off ∈ [0x04, 0x0C, 0x18, 0x24, 0x28, 0x2C] →
      s.windowWrite (clusterAt d n off) v = s) ∧ s.windowWrite (d * 2 ^ 24) v = s

/-! ## Firmware, attestation, code objects (R478-R483) -/

/-- The bytes of a code object from one of its offsets on, as a number. -/
def objField (o : CodeObject) (off n : Nat) : Nat := leNat ((o.bytes.drop off).take n)

/-- The header that R478 describes, with its image and relocation table in the bytes before the signature (log 34). -/
structure HeaderGood (o : CodeObject) : Prop where
  long : 0x50 + 3309 ≤ o.bytes.length
  magic : objField o 0 4 = 0x53594F31
  format : objField o 4 4 = 0x001 ∨ objField o 4 4 = 0x101
  svn : objField o 8 4 ≤ 64
  zero : objField o 0x44 12 = 0
  image : 0x50 + objField o 0x10 8 ≤ o.bytes.length - 3309
  table : objField o 0x18 8 + 8 * objField o 0xC 4 ≤ o.bytes.length - 3309

/-- Its signature is good, its SVN is not below OSVN, its pages are pages of the part, and there is memory for its image (R10,
R479). -/
structure Bindable (s : State) (o : CodeObject) : Prop where
  header : HeaderGood o
  signed : Config.verifies (o.bytes.take (o.bytes.length - 3309)) (o.bytes.drop (o.bytes.length - 3309)) = true
  fresh : s.host.osvn ≤ objField o 8 4
  pages : State.pageFits (State.boundPage o 0) = true
  held : Config.backed o.pa ((o.bytes.drop 0x50).take (objField o 0x10 8)).length = true

/-- A page of an object whose SVN is below v: one of the machine's pages, or one that only a cluster's buffer still holds
(R224, R480). -/
def Stale (s : State) (v : Nat) (q : Page) : Prop :=
  (q ∈ s.pages ∨ ∃ cl, q ∈ (s.getCluster cl).tlb) ∧ ∃ n, q.svn = some n ∧ n < v

/-- No access of a warp that passed a page's translation waits to be performed (R224). -/
def NoneThrough (s : State) (wid : Nat) (q : Page) : Prop :=
  (∀ e ∈ (s.getWarp wid).storeQ, State.passedPage q e = false) ∧
    ∀ e ∈ (s.getCore (State.orderCore wid)).order, e.wid = wid → State.passedPage q e = false

/-- No instruction cache and no die cache holds a line of these bytes (R479, R481). -/
def Uncached (t : State) (pa n : Nat) : Prop :=
  ∀ l, pa / 64 ≤ l → 64 * l < pa + n →
    (∀ c, (t.getCore c).icache.find? l = none) ∧ ∀ d, (t.getDie d).cache.find? l = none

/-- A management core at firmware entry (R31, R60, R448). -/
structure AtFirmware (t : State) (img : FwImage) (d : Nat) : Prop where
  run : (t.getDie d).mgRun = true
  pc : ∃ g, (t.getWarp (mgmtWid d)).gangs = [(0, g)] ∧ g.pc = img.entry ∧ g.fmt = 0 ∧ g.wait = none
  window : (t.getWarp (mgmtWid d)).bReg 0 = BitVec.ofNat 64 Config.window
  one : (t.getWarp (mgmtWid d)).nlanes = 1
  regs : ∀ n, (t.getWarp (mgmtWid d)).wReg n = .u 0 false

/-- Loading. -/
def loadContract (i : Instr) : Option Contract :=
  match i with
  | .firmwareLoad img => some
      { pre := fun _ => Config.backed img.pa img.body.length = true
        post := fun s t => (∀ d < 4, (t.getDie d).wakeReg = 0) ∧
          if Config.verifies img.body img.sig = false then t.host.fwstat = 2 ∧ ∀ d < 4, (t.getDie d).mgRun = false
          else if Config.firmwareSvn img.body < s.host.fsvn
            then t.host.fwstat = 4 ∧ ∀ d < 4, (t.getDie d).mgRun = false
          else t.host.fwstat = 1 ∧ t.host.measurement = sha3 img.body ∧ t.host.fwSvn = Config.firmwareSvn img.body ∧
            t.host.hbeat = 0 ∧ t.host.hbeatAt = s.gtime ∧
            (s.peerDown img.pa = false → t.homeRead img.pa img.body.length = img.body) ∧
            Uncached t img.pa img.body.length ∧ ∀ d < 4, AtFirmware t img d }
  | .fwdog => some
      { pre := fun s => s.host.fwstat.getLsbD 0 = true ∧ s.host.hbeatAt + 100000000 ≤ s.gtime
        post := fun s t => t = { s with host := { s.host with
          hbeatAt := s.gtime, pevt := s.host.pevt ||| 2#5, messages := s.host.messages ++ [.msix none 0] } } }
  | .attestationRequest nonce => some
      { pre := fun _ => nonce.length = 32
        post := fun s t => ∃ body, body = nonce ++ s.host.measurement ++ leBytes 4 s.host.fwSvn ++
            leBytes 4 (s.host.fsvn % 128 + 256 * (s.host.osvn % 128)) ++
            sha3 ((List.range 32).flatMap s.configBytes) ∧ body.length = s.host.measurement.length + 72 ∧
          Sent s t (.report (body ++ leBytes 3309 (Config.signature body).toNat)) ∧ { t with host := s.host } = s }
  | .bindObject o => some
      { post := fun s t => (¬ Bindable s o → t = s) ∧ (Bindable s o →
          let entries := (List.range (objField o 0xC 4)).map fun k =>
            BitVec.ofNat 64 (objField o (objField o 0x18 8 + 8 * k) 8)
          let image := (o.bytes.drop 0x50).take (objField o 0x10 8)
          match relocate (fun d => (s.getDie d).sites) entries image with
          | none => t = s
          | some b => (s.peerDown o.pa = false → t.homeRead o.pa b.length = b) ∧ Uncached t o.pa b.length ∧
            ∀ k, k * o.pageSize < image.length → State.pageFits (State.boundPage o k) = true →
              ⟨o.part, o.va + k * o.pageSize, o.pageSize, o.pa + k * o.pageSize, true, false, true,
                some (objField o 8 4)⟩ ∈ t.pages) }
  | .osvnAdvance v => some
      { pre := fun s => s.host.osvn < v ∧ v ≤ 64
        post := fun s t => t.host.osvn = v ∧
          t.pages = s.pages.map (fun p => match p.svn with
            | some n => if n < v then { p with exec := false, svn := none } else p
            | none => p) ∧
          (∀ q, Stale s v q → (∀ cl, ∀ p ∈ (t.getCluster cl).tlb, ¬ (p.part = q.part ∧ p.va = q.va)) ∧
            ∀ wid ∈ s.warps.keys, s.partOf wid = q.part → NoneThrough t wid q) ∧
          ((∀ q, Stale s v q → ∀ wid, NoneThrough s wid q) →
            t.host = { s.host with osvn := v } ∧
            { t with host := s.host, pages := s.pages, clusters := s.clusters } = s) }
  | _ => none

/-! ## Containment and upkeep (R130, R477, R484, R485) -/

/-- FATAL and SNAP of a core are 1 (R127, R130). -/
def Stopped (t : State) (core : Nat) : Prop := (t.getCore core).fatal = true ∧ (t.getCore core).snap = true

/-- Each warp of a core that had no record is parked with one of FATAL, for its first gang (R127; log 35). -/
def ParkedFatal (s t : State) (core : Nat) : Prop :=
  ∀ wid ∈ s.widsOn core, (s.getWarp wid).gangs ≠ [] → (s.getWarp wid).fault = none →
    ∃ r, (t.getWarp wid).fault = some r ∧ r.code = cFATAL

/-- An engine operation that an error may strike: the oldest of its class of a resident warp, not held back by its guard, and no
RPDONE that has begun to write (R389). -/
def Struck (s : State) (cmd : Nat) (c : Cmd) (wid : Nat) : Prop :=
  s.allCmds.find? (fun d => d.id == cmd && (d.guard == .none || d.guard == .goes) && !(d.kind == .rpdone && d.started)) =
    some c ∧ Oldest s c wid

/-- Errors, links, debugging, and the events that programs see as latency only. -/
def containContract (i : Instr) : Option Contract :=
  match i with
  | .cdbg core v => some
      { post := fun s t => (t.getCore core).brkstop = v.getLsbD 3 ∧ (t.getCore core).fatal = (s.getCore core).fatal ∧
          (t.getCore core).snap = (v.getLsbD 0 || ((s.getCore core).fatal && (s.getCore core).snap)) ∧
          (v.getLsbD 0 = true → (s.getCore core).snap = false → ∀ wid ∈ s.widsOn core,
            (t.getWarp wid).pend = [] ∧ (t.getWarp wid).frozen.isSome = true) }
  | .linkDown peer => some
      { post := fun s t => t.host.down.contains peer = true ∧ (∀ x, x ≠ peer → (x ∈ t.host.down ↔ x ∈ s.host.down)) ∧
          { t with host := { t.host with down := s.host.down } } = s }
  | .linkRetryExhausted => some
      { post := fun s t => (∀ core < 768, Stopped t core ∧ ParkedFatal s t core) ∧ t.host.pevt.getLsbD 3 = true }
  | .fatalErr none => some
      { post := fun s t => (∀ core < 768, Stopped t core ∧ ParkedFatal s t core) ∧ t.host.pevt.getLsbD 3 = true }
  | .fatalErr (some core) => some
      { post := fun s t => Stopped t core ∧ t.host.pevt.getLsbD 3 = true ∧ ∀ team u, s.getTeam? team = some u →
          u.core = core → u.status = .resident → EndsTeam s t team }
  | .uncorrectableError (.line n) => some
      { post := fun s t => (∀ l, t.homePoison l = if l = n ∧ Config.backed (64 * n) 64 = true then true else s.homePoison l) ∧
          { t with poison := s.poison } = s }
  | .uncorrectableError (.scratchWord team w) => some
      { pre := fun s => ∃ u, s.getTeam? team = some u ∧ 4 * w < u.size
        post := fun s t => ∀ u, s.getTeam? team = some u → ∃ v, t.getTeam? team = some v ∧
          (∀ x, x ∈ v.spPoison ↔ x = w ∨ x ∈ u.spPoison) ∧ v.sp = u.sp ∧ ∀ i, i ≠ team → t.getTeam? i = s.getTeam? i }
  | .uncorrectableError (.warpState wid g) => some
      { pre := fun s => (s.getWarp wid).ended = false ∧ (s.getWarp wid).fault = none ∧
          ((s.getWarp wid).gangs.find? g).isSome = true
        post := fun s t => ∃ r, (t.getWarp wid).fault = some r ∧ r.code = cECC ∧ r.gang = g ∧
          r.pc = (State.gangOf (s.getWarp wid) g).pc ∧ SameValues (s.getWarp wid) (t.getWarp wid) ∧
          ∀ i, i ≠ wid → t.getWarp i = s.getWarp i }
  | .uncorrectableError (.engineOp cmd) => some
      { pre := fun s => ∃ c wid, Struck s cmd c wid
        post := fun s t => ∀ c wid, Struck s cmd c wid →
          Retired s t c wid (some (BitVec.ofNat 8 (1 + (Config.engSub cmd).val), Config.engAddr cmd)) }
  | .patrolScrub lines => some
      { post := fun s t => (∀ l, t.homePoison l = ((lines.contains l && Config.backed (64 * l) 64) || s.homePoison l)) ∧
          { t with poison := s.poison } = s }
  | .dramCalibration _ => some { post := fun s t => t = s }
  | .telemetrySample => some
      { post := fun s t => t = { s with host := { s.host with sampledAt :=
          if s.gtime < s.host.sampledAt + 1000000 then s.host.sampledAt else s.gtime } } }
  | .coreReset core => some
      { pre := fun s => (s.getCore core).fatal = true
        post := fun s t => (t.getCore core).fatal = false ∧ (t.getCore core).snap = (s.getCore core).snap ∧
          ((s.getCore core).xfQ = [] → (s.getCore core).kvQ = [] → (s.getCore core).rpQ = [] →
            OnlyCore s t core { s.getCore core with fatal := false }) }
  | _ => none

/-! ## Accesses from outside, and power-up (R274, R394, R450, R474-R476) -/

/-- A copy of a line but for what it has missed. -/
def copyOf (c : CLine) : CLine := { c with missed := [] }

/-- Memory at home differs in these bytes from pa on; no cached copy changes, and nothing else but the messages and the
record of the writes that a home has taken (log 71). -/
structure HomeStores (s t : State) (pa : Nat) (bytes : List Byte) : Prop where
  bytes : ∀ a, t.homeRead a 1 = if pa ≤ a ∧ a < pa + bytes.length then [bytes.getD (a - pa) 0] else s.homeRead a 1
  copies : ∀ d l, ((t.getDie d).cache.find? l).map copyOf = ((s.getDie d).cache.find? l).map copyOf
  dies : ∀ d, { t.getDie d with cache := (s.getDie d).cache } = s.getDie d
  rest : { t with mem := s.mem, host := s.host, dies := s.dies, tags := s.tags } = s

/-- What an access leaves: a read and an atomic return what memory held, and what is stored lies at its place. -/
def outsideDoes (a : MemAccess) (s t : State) : Prop :=
  match a with
  | .read pa n => Sent s t (.data (s.homeRead pa n)) ∧ { t with host := s.host } = s
  | .write pa b => HomeStores s t pa b ∧ t.host = s.host
  | .addAtomic pa n v => HomeStores s t pa (leBytes n (leNat (s.homeRead pa n) + v.toNat)) ∧
      Sent s t (.data (s.homeRead pa n))
  | .swapAtomic pa n v => HomeStores s t pa (leBytes n v.toNat) ∧ Sent s t (.data (s.homeRead pa n))
  | .casAtomic pa n c v => Sent s t (.data (s.homeRead pa n)) ∧
      if leNat (s.homeRead pa n) = c.toNat % 2 ^ (8 * n) then HomeStores s t pa (leBytes n v.toNat)
      else ∀ x, t.homeRead x 1 = s.homeRead x 1

/-- There is memory at the place of an access (R10), and no byte of it lies in the memory of a peer that is down (R477). -/
def Reached (s : State) (a : MemAccess) : Prop :=
  Config.backed (accessSpan a).1 (accessSpan a).2 = true ∧
  ∀ x, (accessSpan a).1 ≤ x → x ≤ (accessSpan a).1 + (accessSpan a).2 → s.peerDown x = false

/-- Accesses of the host and of peers; power-up. -/
def outsideContract (i : Instr) : Option Contract :=
  match i with
  | .hostAccess a => some { pre := fun s => Reached s a, post := outsideDoes a }
  | .peerAccess peer a => some
      { pre := fun s => Reached s a ∧ s.host.down.contains peer = false ∧ (accessSpan a).1 < Config.hostBase
        post := outsideDoes a }
  | .powerUp => some
      { post := fun s t => (∀ c, t.getCounter c = Counter.init) ∧ (∀ p, t.getPart p = Partition.init) ∧
          (∀ c, t.getCluster c = Cluster.init) ∧ (∀ c, t.getCore c = Core.init) ∧
          (∀ q, t.getQueue q = Queue.init) ∧ (∀ d, t.getDie d = { Die.init with sites := (s.getDie d).sites }) ∧
          t.warps = [] ∧ t.teams = [] ∧ t.launches = [] ∧ t.crews = [] ∧ t.pages = [] ∧
          t.host.osvn = s.host.osvn ∧ t.host.fsvn = s.host.fsvn ∧ t.host.pcap = 2200 ∧ t.host.fwstat = 0 ∧
          t.now = 0 ∧ (∀ a, a < Config.hostBase → t.homeRead a 1 = State.reset.homeRead a 1) ∧
          ∀ a, Config.hostBase ≤ a → t.homeRead a 1 = s.homeRead a 1 }
  | _ => none

end Sys2Proof.Claim
end

