-- ==== Sys2Proof/Claims/Matrix.lean ====
section
/-! DEFINITION. Passes, aging and completion of the commands of the matrix engine, as a table (spec/13 R322-R330). -/

namespace Sys2Proof.Claim

open Sys2Proof.Machine

/-- The matrix engine is free for command c (R323, R460): it goes on with its pass, or the arbiter grants it one. -/
structure Engaged (s : State) (cl : Nat) (c : Cmd) : Prop where
  free : (s.getCluster cl).mxFree ≤ s.nowIn cl ∧ (s.getCluster cl).gate = false ∧ s.level cl < 4
  turn : ((s.getCluster cl).mxPass = none ∧ ∃ k, s.pickEntry cl = some k ∧ (s.getCluster cl).table[k]? = some c) ∨
    (c ∈ (s.getCluster cl).table ∧ (∃ z b, c.kind = .mxloop z b) ∧ ∃ n, (s.getCluster cl).mxPass = some (c.id, n))
  once : ∀ d ∈ (s.getCluster cl).table, d.id = c.id → d = c

/-- K-steps that the present pass of an MXLOOP has left, this one among them: a pass is up to four (R323). -/
def passLeft (s : State) (cl : Nat) : Nat :=
  match (s.getCluster cl).mxPass with
  | some x => x.2
  | none => 4

/-- A slice of the command's bank. -/
def bankSlice (s : State) (cl : Nat) (c : Cmd) (q : Nat) : BankSlice := s.getSlice cl (s.physBank c) q

/-- Size of an element of a drain, and the bytes of one of its rows (R329, R330). -/
def drainSize (c : Cmd) : Nat := mxTypeSize c.mxType
def rowBytes (c : Cmd) : Nat := c.mxTileCols * drainSize c

/-- Element (i, j) of a slice as MXDRAIN writes it: the bank bits, or FCVT from F32 with RNE and F8SAT = SAT (R330). -/
def drained (c : Cmd) (x : BankSlice) (i j : Nat) : Nat :=
  let env : FEnv := { FEnv.zero with f8sat := (c.word 1).getLsbD 24 }
  match c.mxType with
  | 6 => (x.word (2 * (32 * i + j) + 1) ++ x.word (2 * (32 * i + j))).toNat
  | 1 => (cvtFF .f32 .bf16 env (x.word (128 * i + j)).toNat).1
  | 2 => (cvtFF .f32 .f16 env (x.word (128 * i + j)).toNat).1
  | 3 => (cvtFF .f32 .e4m3fn env (x.word (128 * i + j)).toNat).1
  | 4 => (cvtFF .f32 .e5m2 env (x.word (128 * i + j)).toNat).1
  | _ => (x.word (128 * i + j)).toNat

/-- Bytes of slice x in the allocation of a member: element (i, j) at OFF + i RSTR + j size, with the slice's poison in words
that are written whole, and no word of them pending for the command (R237, R330). -/
def DrainHolds (c : Cmd) (x : BankSlice) (u v : Team) : Prop :=
  ∀ i < c.mxTileRows,
    let o := off21 (c.word 0) + i * c.mxStride
    (∀ j < c.mxTileCols, leNat (cellsGet v.sp (o + j * drainSize c) (drainSize c)) = drained c x i j % 2 ^ (8 * drainSize c)) ∧
    ∀ w, o / 4 ≤ w → w < (o + rowBytes c) / 4 → (w, c.id) ∉ v.marks ∧
      v.spPoison.contains w = (x.poison || (decide (drainSize c < 4) && u.spPoison.contains w))

/-- What a turn leaves in the four slices of its bank, and of a drain in the scratchpads of the members (R318, R328, R330):
MXZERO zeroes the slices; a K-step of an MXLOOP updates those of the used quarters; MXLDA fills them from scratchpad rows;
MXDRAIN leaves them, or zeroes them (.Z). Poison bits change when the command completes (R331). -/
def passLeaves (s t : State) (cl : Nat) (c : Cmd) : Prop :=
  match c.kind with
  | .mxzero _ => ∀ q < 4, (∀ n, (bankSlice t cl c q).word n = 0) ∧ (bankSlice t cl c q).poison = (bankSlice s cl c q).poison
  | .mxloop zero _ => ∀ q u, (q, u) ∈ s.usedTeams c →
      bankSlice t cl c q = c.stepSlice zero c.steps u (s.usedTeams c) (bankSlice s cl c q)
  | .mxlda _ => ∀ q u, (q, u) ∈ s.usedTeams c → bankSlice t cl c q =
      (List.range c.mxTileRows).foldl (fun x i =>
        loadRow c.mxType (u.engBytesAt (c.rowPlace i).1 (c.rowPlace i).2) i x) (bankSlice s cl c q)
  | .mxdrain zero _ =>
    (∀ q < 4, bankSlice t cl c q = if zero ∧ q ∈ c.mxUse then { bankSlice s cl c q with words := [] } else bankSlice s cl c q) ∧
    ∀ q ∈ c.mxUse, ∀ k u, s.quarterMember c q = .here k → s.getTeam? k = some u →
      ∃ v, t.getTeam? k = some v ∧ DrainHolds c (bankSlice s cl c q) u v
  | _ => True

/-- Cycles of a turn (R324): a K-step, or the whole of another command. -/
def passTime (c : Cmd) : Nat :=
  match c.kind with
  | .mxloop _ _ => if mxClass (cfgA c.cfg) = 4 then 16 else 32
  | .mxzero _ => 8
  | _ => if c.mxType = 6 then 16 else 32 * drainSize c

/-- The turn is the last of its command. -/
def lastTurn (c : Cmd) : Bool :=
  match c.kind with
  | .mxloop _ _ => decide (c.mxSteps ≤ c.steps + 1)
  | _ => true

/-- Every word that a K-step reads in a used quarter is whole, and so is every scale byte, unless SCP allows others (R325). -/
def WholeStep (s : State) (c : Cmd) : Prop :=
  ∀ q u, (q, u) ∈ s.usedTeams c → itemSpoil u (c.stepItems c.steps) = false ∧
    itemFault u (scpOf c.fmt) (c.stepItems c.steps) = none

/-- Passes, aging and completion. -/
def matrixContract (i : Instr) (c : Cmd) (wid : Nat) : Option Contract :=
  match i with
  | .mxPass cl => some
      { pre := fun s => Engaged s cl c ∧ Oldest s c wid ∧ (c.started = false → s.mxFirst c = none) ∧
          (c.mxUse ≠ [] ∨ ∃ b, c.kind = .mxzero b) ∧ c.kind.bank?.isSome = true ∧
          ((∃ z b, c.kind = .mxloop z b) → c.mxSteps ≠ 0) ∧
          ((¬ ∃ z b, c.kind = .mxloop z b) → c.started = false) ∧
          ((∃ z b, c.kind = .mxdrain z b) → rowBytes c ≤ c.mxStride)
        post := fun s t => passLeaves s t cl c ∧ (t.getCluster cl).mxFree = s.nowIn cl + passTime c ∧
          (∃ d ∈ (t.getCluster cl).table, d.id = c.id ∧ d.started = true ∧ d.since = s.nowIn cl + passTime c ∧
            d.completeAt = (if lastTurn c then some (s.nowIn cl + passTime c + 24) else none) ∧
            ((∃ z b, c.kind = .mxloop z b) → d.steps = c.steps + 1 ∧
              (WholeStep s c → d.err = c.err ∧ d.spoil = c.spoil))) ∧
          ((∃ z b, c.kind = .mxloop z b) → (t.getCluster cl).mxPass =
            if lastTurn c ∨ passLeft s cl ≤ 1 then none else some (c.id, passLeft s cl - 1)) }
  | .mxAging cl k => some
      { pre := fun s => (s.getCluster cl).table[k]? = some c ∧ c.since + 4096 ≤ s.nowIn cl
        post := fun s t => OnlyCluster s t cl { s.getCluster cl with
          table := (s.getCluster cl).table.map fun d => if d.id = c.id then { c with aged := true } else d } }
  | .mxCompletion cl k => some
      { pre := fun s => (s.getCluster cl).table[k]? = some c ∧ (∃ e, c.completeAt = some e ∧ e ≤ s.nowIn cl) ∧
          Oldest s c wid ∧ c.cls = 1 ∧ c.kind.bank?.isSome = true
        post := fun s t => Retired s t c wid c.err ∧
          (c.err = none → ∀ q < 4, (bankSlice t cl c q).poison =
            match c.kind with
            | .mxloop _ _ => (bankSlice s cl c q).poison || (c.mxUse.contains q && c.spoil.getLsbD q)
            | .mxlda _ => if c.mxUse.contains q then c.spoil.getLsbD q else (bankSlice s cl c q).poison
            | .mxdrain true _ => !c.mxUse.contains q && (bankSlice s cl c q).poison
            | .mxzero _ => false
            | _ => (bankSlice s cl c q).poison) }
  | _ => none

end Sys2Proof.Claim
end

