-- ==== Sys2Proof/Claims/Runs.lean ====
section
/-! DEFINITION. What a step does around the execution of an instruction: which gang issues, which word stands before it, and
the state in which the instruction executes (R33, R34, R49, R116, R410; log 3). -/

namespace Sys2Proof.Claim

open Sys2Proof.Machine

/-- The machine when the first turn of its agenda is taken, with `rest` to follow: engines that are amid their writes end them
unless the turn may fall there, and what happens between turns has happened. -/
def atTurn (s : State) (rest : List Turn) : State := ({ s with agenda := rest } : State).finishWriters.between

/-- The same for an event, which may fall amid the writes of RPSCAN or RPDONE (R364, R387, R390). -/
def atEvent (s : State) (rest : List Turn) (i : Instr) : State :=
  if Turn.amidWrites (.event i) then ({ s with agenda := rest } : State).between else atTurn s rest

/-- Time has come to the first cycle at which gang g of warp wid may issue (R36, R124). -/
def atCycle (s : State) (wid g : Nat) : State := s.advanceTo wid (s.issueCycle wid g)

/-- The machine when gang g of warp wid issues in the first turn of its agenda: results that are due by then are visible
(R39). -/
def atIssue (s : State) (rest : List Turn) (wid g : Nat) : State :=
  (atCycle (atTurn s rest) wid g).modWarp wid fun w => w.settle ((atCycle (atTurn s rest) wid g).nowOf wid)

/-- The next step issues gang g of warp wid: it is that gang's turn, and it stands at no instruction that has issued and whose
wait is over; it may be chosen, and its scheduler picks it (R410); no shared unit takes another scheduler's request first
(R18); and no TIMER comes before it (R141). -/
structure Issues (s : State) (rest : List Turn) (wid g : Nat) : Prop where
  turn : s.agenda = .issue wid g :: rest
  may : (atTurn s rest).mayIssue wid g = true
  fresh : (atTurn s rest).endsWait wid g = false
  still : (atCycle (atTurn s rest) wid g).mayIssue wid g = true
  picked : (atCycle (atTurn s rest) wid g).picked wid g = true
  granted : (atCycle (atTurn s rest) wid g).rival wid g = none
  early : (atCycle (atTurn s rest) wid g).timerDue wid = false
  timer : ((atCycle (atTurn s rest) wid g).getWarp wid).timerTakeable = false

/-- The next step ends the instruction at which gang g of warp wid waited: it is that gang's turn, the instruction has issued,
and what it waited for has come about (R289, R304, R413, R421, R467; log 42). -/
structure Ends (s : State) (rest : List Turn) (wid g : Nat) : Prop where
  turn : s.agenda = .issue wid g :: rest
  may : (atTurn s rest).mayIssue wid g = true
  ended : (atTurn s rest).endsWait wid g = true

/-- The machine when gang g of warp wid ends its instruction in the first turn of its agenda: results that are due by then are
visible (R39). -/
def atEnd (s : State) (rest : List Turn) (wid : Nat) : State :=
  (atTurn s rest).modWarp wid fun w => w.settle ((atTurn s rest).nowOf wid)

/-- The program counter of a gang. -/
def pcOf (s : State) (wid g : Nat) : DWord := (State.gangOf (s.getWarp wid) g).pc

/-- The instruction word and length that memory holds at an address, one halfword or two by bit 0 of the first (R33), and the
machine after they are fetched: the core's instruction cache may hold one more line. -/
def memoryWord (s : State) (wid : Nat) (pc : DWord) : Option ((Word × Nat) × State) :=
  match s.codeHalf wid pc with
  | .error _ => none
  | .ok (h0, u) =>
    if h0.getLsbD 0 = false then some ((h0.zeroExtend 32, 2), u)
    else match u.codeHalf wid (pc + 2) with
      | .error _ => none
      | .ok (h1, v) => some ((h1 ++ h0, 4), v)

/-- The instruction before a gang: the one it holds because it has not issued yet, or waits at it; one fetched ahead or in a
loop buffer, whose address must translate all the same (R34, R116); or the one that memory holds at its PC. -/
def comes (s : State) (wid g : Nat) : Option ((Word × Nat) × State) :=
  match (State.gangOf (s.getWarp wid) g).held with
  | some x => some (x, s)
  | none => match s.ahead wid g (pcOf s wid g) with
    | some x => match s.mayFetch wid (pcOf s wid g) x.2 with
      | .ok _ => some (x, s)
      | .error _ => none
    | none => memoryWord s wid (pcOf s wid g)

/-- A word has the length that its bit 0 says (R33). -/
def Whole (x : Word × Nat) : Prop := (x.2 = 4 ∧ x.1.getLsbD 0 = true) ∨ (x.2 = 2 ∧ x.1.getLsbD 0 = false)

/-- The bytes of an instruction as they stand in memory (R4). -/
def bytesOf (x : Word × Nat) : List Byte := leBytes x.2 x.1.toNat

/-- The instruction of bytes on the core of warp wid: a word of R30 that the kind of core lacks is UNIMP. -/
def hostedBy (wid : Nat) (i : Instr) (bs : List Byte) : Instr :=
  if bs.length = 4 ∧ (if isMgmt wid then excludedWord (leNat bs) else isWfe (leNat bs)) then .unimp (BitVec.ofNat 32 (leNat bs))
  else i

/-- Nothing holds the warp back: no late result is awaited, or the instruction is not switch-marked and fewer than 23 unmarked
instructions have issued since the last one (R37, R38). -/
def Unheld (s : State) (wid g : Nat) (x : Word × Nat) : Prop :=
  (s.getWarp wid).hasLate = false ∨
    (x.1.getLsbD 1 = false ∧ (s.getWarp wid).count < 23)

/-- The state in which the instruction executes: `cur` names it, and a copy fetched ahead is used up. -/
def running (s u : State) (wid g : Nat) (x : Word × Nat) : State :=
  { u.useCopies wid (pcOf s wid g) with cur := { wid, g, pc := pcOf s wid g, word := x.1, len := x.2 } }

/-- The state in which an instruction that has waited ends: `cur` names it. -/
def ending (s : State) (wid g : Nat) (x : Word × Nat) : State :=
  { s with cur := { wid, g, pc := pcOf s wid g, word := x.1, len := x.2 } }

end Sys2Proof.Claim
end

