-- ==== Sys2Proof/Claims/Shapes.lean ====
section
/-! DEFINITION. Shaped moves, shape queries, special values and the control registers (spec/03) as tables. -/

namespace Sys2Proof.Claim

open Sys2Proof.Machine

/-- The vector pipe of the warp's scheduler is free, so that the instruction issues in this cycle (R74, R83). -/
def pipeFree (s : State) : Bool :=
  isMgmt s.cur.wid || decide ((s.getCore (coreOf s.cur.wid)).pipeFree.get (schedOf s.cur.wid) 0 ≤ s.now)

/-- A number as a word. -/
def num (n : Nat) : Word := BitVec.ofNat 32 n

/-- The one-word special values of a compute core, by selector: a U word, or lane i of an affine one (R83). -/
def special (s : State) (tm : Team) (i sel : Nat) : Option Word :=
  [num i, num (s.width * s.w.index + i), num s.w.index, num tm.nwarps, num tm.index, num tm.crew, num tm.rank,
   num s.w.nlanes, num s.width, num tm.logCore, num (s.coordOf (coreOf s.cur.wid)).toNat, num (s.cur.wid % 64),
   s.w.part.zeroExtend 32, s.w.role.zeroExtend 32][sel]?

/-- The same on the management core of die d (R30). -/
def specialMgmt (s : State) (d sel : Nat) : Option Word :=
  [0, 0, 0, 1, 0, 0, 0, 1, 1, num d, num ((d * 2 ^ 14 + 60) % 2 ^ 16), 0, s.w.part.zeroExtend 32, s.w.role.zeroExtend 32][sel]?

/-- The pair special values (R83): %pmask, %amask, %clk, %wtime, %gtime, %deadline, %tvec. -/
def special2 (s : State) (sel : Nat) : Option DWord :=
  if sel < 16 then none
  else [s.present, s.act, BitVec.ofNat 64 s.now, BitVec.ofNat 64 (s.wtime s.w), BitVec.ofNat 64 s.gtime, s.w.deadline,
    s.w.tvec][sel - 16]?

/-- A U pair result. -/
def pairU (d : Nat) (x : DWord) : List (Nat × (Nat → Lane)) :=
  [(d, fun _ => ⟨x.extractLsb' 0 32, false⟩), (d + 1, fun _ => ⟨x.extractLsb' 32 32, false⟩)]

/-- The moves, queries and reads of spec/03 that write registers under the mask. -/
def moveEffect (i : Instr) (s : State) : Option Effect :=
  match i with
  | .mov _ d a => some { srcs := [a.toNat], outs := [(d.toNat, lane s a.toNat)] }
  | .mov16 _ d a => some { srcs := [a.toNat], outs := [(d.toNat, lane s a.toNat)] }
  | .movl _ d im => some { outs := [(d.toNat, fun _ => ⟨im.signExtend 32, false⟩)] }
  | .movh _ d im => some (word1 s d.toNat d.toNat fun x => im ++ x.extractLsb' 0 16)
  | .shqK _ d a => some
      { outs := [(d.toNat, fun _ => ⟨if (reg s a.toNat).isU then 0 else if (reg s a.toNat).isA then 1 else 2, false⟩)] }
  | .shqB _ d a => some { outs := [(d.toNat, fun _ => lane s a.toNat 0)] }
  | .shqS _ d a => some
      { outs := [(d.toNat, fun _ => match reg s a.toNat with
          | .a _ t p => ⟨t, p⟩
          | _ => ⟨0, false⟩)] }
  | .movbFrom _ d a => some { outs := pairU d.toNat (base s a.toNat) }
  | .gfmt _ d => some { outs := [(d.toNat, fun _ => ⟨s.fmt.zeroExtend 32, false⟩)] }
  | .spr _ d b =>
    if pipeFree s = true then
      if isMgmt s.cur.wid = true then
        if (specialMgmt s (s.cur.wid - 49152) b.toNat).isSome then
          some { outs := [(d.toNat, fun _ => ⟨(specialMgmt s (s.cur.wid - 49152) b.toNat).getD 0, false⟩)] }
        else (special2 s b.toNat).map fun x => { outs := pairU d.toNat x }
      else match s.team? with
        | some tm =>
          if (special s tm 0 b.toNat).isSome then
            some { one := decide (1 < b.toNat), outs := [(d.toNat, fun i => ⟨(special s tm i b.toNat).getD 0, false⟩)] }
          else (special2 s b.toNat).map fun x => { outs := pairU d.toNat x }
        | none => none
    else none
  | _ => none

/-- Register n is wider than the shape that a code of SHAS allows: 0 allows U, 1 allows U and A, and higher ones every shape
(R88). -/
def Wider (s : State) (n code : Nat) : Prop :=
  ((reg s n).isV = true ∧ code < 2) ∨ ((reg s n).isA = true ∧ code < 1)

/-- The rest of spec/03: forced shapes, WIDEN, MOVB.TO, SHAS, PART, ROLE and SFMT. -/
def shapeContract (i : Instr) : Option Contract :=
  match i with
  | .shfU _ d a => some
      { post := fun s t => reg t d.toNat = .u (word s a.toNat 0) (poison s a.toNat 0) ∧ Keeps s t [s.dst d.toNat] }
  | .shfA _ d a => some
      { post := fun s t => Keeps s t [s.dst d.toNat] ∧
          reg t d.toNat =
            if s.present.getLsbD 1 then
              Shaped.affine (word s a.toNat 0) (word s a.toNat 1 - word s a.toNat 0) (poison s a.toNat 0 || poison s a.toNat 1)
            else .u (word s a.toNat 0) (poison s a.toNat 0) }
  | .shfV _ d a => some
      { pre := fun s => s.w.hm = true → d.toNat < 56
        post := fun s t => Keeps s t [s.dst d.toNat] ∧ (reg t d.toNat).isV = true ∧
          ∀ i < s.width, s.present.getLsbD i = true → lane t d.toNat i = lane s a.toNat i }
  | .widen _ d m => some
      { pre := fun s => s.w.hm = true → ∀ k < 16, m.getLsbD k = true → d.toNat + k < 56
        post := fun s t => Keeps s t (((List.range 16).filter fun k => m.getLsbD k).map fun k => s.dst (d.toNat + k)) ∧
          ∀ k < 16, m.getLsbD k = true → (reg t (d.toNat + k)).isV = true ∧
            ∀ i < s.width, lane t (d.toNat + k) i = lane s (d.toNat + k) i }
  | .movbTo _ d a => some
      { pre := fun s => Uniform2 s a.toNat
        post := fun s t => base t d.toNat = dword s a.toNat 0 ∧ Keeps s t [.b d.toNat] }
  | .shas _ a b => some
      { pre := fun s => ¬ Wider s a.toNat b.toNat
        post := fun s t => Keeps s t [] }
  | .partW _ a => some
      { pre := fun s => Uniform s a.toNat
        post := fun s t => t.w.part = (word s a.toNat 0).extractLsb' 0 3 ∧
          KeepsBut s t fun w => { w with part := s.w.part } }
  | .roleW _ a => some
      { pre := fun s => Uniform s a.toNat
        post := fun s t => t.w.role = (word s a.toNat 0).extractLsb' 0 2 ∧
          KeepsBut s t fun w => { w with role := s.w.role } }
  | .sfmt _ a => some
      { pre := fun s => Uniform s a.toNat
        post := fun s t => t.gang.fmt = (word s a.toNat 0).extractLsb' 0 17 ∧
          Keeps s (t.modGang fun g => { g with fmt := s.gang.fmt }) [] }
  | _ => none

/-- The rows Add, Scale and Shift left of R70 for sources that are not V, one of them affine. -/
def affineSum (x y : Shaped) : Option Shaped :=
  match x, y with
  | .u x p, .a b t q => some (.a (b + x) t (p || q))
  | .a b t p, .u x q => some (.a (b + x) t (p || q))
  | .a b t p, .a c v q => some (Shaped.affine (b + c) (t + v) (p || q))
  | _, _ => none
def affineDiff (x y : Shaped) : Option Shaped :=
  match x, y with
  | .a b t p, .u x q => some (.a (b - x) t (p || q))
  | .u x p, .a b t q => some (Shaped.affine (x - b) (-t) (p || q))
  | .a b t p, .a c v q => some (Shaped.affine (b - c) (t - v) (p || q))
  | _, _ => none
def affineProduct (x y : Shaped) : Option Shaped :=
  match x, y with
  | .a b t p, .u x q => some (Shaped.affine (b * x) (t * x) (p || q))
  | .u x p, .a b t q => some (Shaped.affine (b * x) (t * x) (p || q))
  | _, _ => none
def affineShift (x y : Shaped) : Option Shaped :=
  match x, y with
  | .a b t p, .u n q => some (Shaped.affine (b <<< n.toNat) (t <<< n.toNat) (p || q))
  | _, _ => none

/-- MAD: the row Add applied to the result of the row Scale and D (R71), where that result is not V. -/
def affineMad (x y z : Shaped) : Option Shaped :=
  match x, y with
  | .u x p, .u y q => affineSum (.u (x * y) (p || q)) z
  | _, _ => (affineProduct x y).bind fun m =>
      match m, z with
      | .u m p, .u z q => some (.u (m + z) (p || q))
      | _, _ => affineSum m z

/-- The exact shapes of R70 and R71: results of uniform and affine sources under a full mask, a 16-bit form reading D first, an
immediate as a uniform source. -/
def affineResult (i : Instr) (s : State) : Option (Nat × Shaped) :=
  let two (f : Shaped → Shaped → Option Shaped) (d a b : Nat) := (f (reg s a) (reg s b)).map fun x => (d, x)
  let imm (f : Shaped → Shaped → Option Shaped) (d a : Nat) (v : Word) := (f (reg s a) (.u v false)).map fun x => (d, x)
  match i with
  | .addW _ d a b => two affineSum d.toNat a.toNat b.toNat
  | .add16 _ d a => two affineSum d.toNat d.toNat a.toNat
  | .addi _ d a im => imm affineSum d.toNat a.toNat (im.signExtend 32)
  | .subW _ d a b => two affineDiff d.toNat a.toNat b.toNat
  | .sub16 _ d a => two affineDiff d.toNat d.toNat a.toNat
  | .mulW _ d a b => two affineProduct d.toNat a.toNat b.toNat
  | .mul16 _ d a => two affineProduct d.toNat d.toNat a.toNat
  | .muli _ d a im => imm affineProduct d.toNat a.toNat (im.signExtend 32)
  | .shlW _ d a b => two affineShift d.toNat a.toNat b.toNat
  | .shl16 _ d a => two affineShift d.toNat d.toNat a.toNat
  | .shli _ d a n => imm affineShift d.toNat a.toNat (n.zeroExtend 32)
  | .mad _ d a b => (affineMad (reg s a.toNat) (reg s b.toNat) (reg s d.toNat)).map fun x => (d.toNat, x)
  | .mov _ d a => if (reg s a.toNat).isV then none else some (d.toNat, reg s a.toNat)
  | .mov16 _ d a => if (reg s a.toNat).isV then none else some (d.toNat, reg s a.toNat)
  | .spr _ d b =>
    if isMgmt s.cur.wid = true then none
    else if b = 0 then some (d.toNat, .a 0 1 false)
    else if b = 1 then some (d.toNat, .a (num (s.width * s.w.index)) 1 false) else none
  | _ => none

end Sys2Proof.Claim
end

