-- ==== Sys2Proof/Claims/CrossLane.lean ====
section
/-! DEFINITION. The results of the cross-lane instructions (spec/06 R168-R173) as a table. -/

namespace Sys2Proof.Claim

open Sys2Proof.Machine

/-- T: 2^TILE for TILE in 1-5, or 6 in native width, and W otherwise (R168). -/
def tileT (s : State) : Nat :=
  let k := s.w.part.toNat
  if (1 ≤ k ∧ k ≤ 5) ∨ (k = 6 ∧ s.w.wide64 = true) then 2 ^ k else s.width

/-- One tile covers every present lane. -/
def coversAll (s : State) : Bool := decide (s.w.nlanes ≤ tileT s)

/-- Act(i): the active lanes of lane i's tile, ascending (R171). -/
def inTile (s : State) (i : Nat) : List Nat :=
  (List.range 64).filter fun j => s.act.getLsbD j && j / tileT s == i / tileT s

/-- The source lane of SHFL by mode: IDX, UP, DOWN, XOR (R169). -/
def shuffled (T mode i b : Nat) : Nat :=
  let base := i - i % T
  let o := i - base
  [base + b % T, if b < T ∧ b ≤ o then i - b else i, if b < T ∧ o + b < T then i + b else i,
   base + (o ^^^ (b % T))].getD mode i

/-- A set of lanes as a 64-bit value. -/
def asBits (f : Nat → Bool) : DWord := BitVec.ofBoolListLE ((List.range 64).map f)

/-- A pair result without poison. -/
def pairOut (d : Nat) (f : Nat → DWord) : List (Nat × (Nat → Lane)) :=
  [(d, fun i => ⟨(f i).extractLsb' 0 32, false⟩), (d + 1, fun i => ⟨(f i).extractLsb' 32 32, false⟩)]

/-- SHFL and VOTE (R169, R171). A register index is a source; VOTE drops poison. -/
def shuffleEffect (i : Instr) (s : State) : Option Effect :=
  match i with
  | .shfl _ d a b m => some
      { srcs := [a.toNat, b.toNat],
        outs := [(d.toNat, fun i =>
          let x := lane s a.toNat (shuffled (tileT s) m.toNat i (word s b.toNat i).toNat)
          ⟨x.val, x.poison || poison s b.toNat i⟩)] }
  | .shflImm _ d a im m => some
      { srcs := [a.toNat],
        outs := [(d.toNat, fun i => lane s a.toNat (shuffled (tileT s) m.toNat i im.toNat))] }
  | .voteAny _ d p => some
      { one := coversAll s, outs := [(d.toNat, fun i => ⟨if ∃ j ∈ inTile s i, pred s p.toNat j = true then 1 else 0, false⟩)] }
  | .voteAll _ d p => some
      { one := coversAll s, outs := [(d.toNat, fun i => ⟨if ∀ j ∈ inTile s i, pred s p.toNat j = true then 1 else 0, false⟩)] }
  | .voteBal _ d p => some
      { one := coversAll s,
        outs := pairOut d.toNat fun i => asBits fun j => decide (j ∈ inTile s i) && pred s p.toNat j }
  | .voteEq _ d a => some
      { one := coversAll s,
        outs := [(d.toNat, fun i =>
          ⟨if ∀ j ∈ inTile s i, ∀ k ∈ inTile s i, word s a.toNat j = word s a.toNat k then 1 else 0, false⟩)] }
  | .voteMatch _ d a => some
      { one := false,
        outs := pairOut d.toNat fun i => asBits fun j => decide (j ∈ inTile s i) && word s a.toNat j == word s a.toNat i }
  | _ => none

/-- One round of the tree of R172. -/
def pairUp {α : Type} (op : α → α → α) : List α → List α
  | a :: b :: rest => op a b :: pairUp op rest
  | l => l

/-- The tree of R172: rounds until one value is left. -/
def treeOf {α : Type} (op : α → α → α) : Nat → List α → Option α
  | _, [x] => some x
  | 0, _ => none
  | n + 1, l => treeOf op n (pairUp op l)

/-- A float operation on values of n bits that gathers the exceptions of every step. -/
def gather (n : Nat) (f : Nat → Nat → FRes) (x y : Nat × FExc) : Nat × FExc :=
  let r := f x.1 y.1
  (r.1 % 2 ^ n, x.2 ||| y.2 ||| r.2)

/-- The integer reductions, ADD, MIN.S, MAX.S, MIN.N, MAX.N, AND, OR, XOR by FN (R172): wrapping and order-free, so their
tree is any fold. -/
def redWord (f : Nat) : Option (Word × (Word → Word → Word)) :=
  [(0, fun a b => a + b), (0x7FFFFFFF, fun a b => if a.toInt ≤ b.toInt then a else b),
   (0x80000000, fun a b => if a.toInt ≤ b.toInt then b else a),
   (0xFFFFFFFF, fun a b => if a.toNat ≤ b.toNat then a else b), (0, fun a b => if a.toNat ≤ b.toNat then b else a),
   (0xFFFFFFFF, fun a b => a &&& b), (0, fun a b => a ||| b), (0, fun a b => a ^^^ b)][f]?

/-- The float reductions FADD.F32, FMIN.F32, FMAX.F32 by FN. -/
def redFloat (env : FEnv) (f : Nat) : Option (Nat → Nat → FRes) :=
  if f = 8 then some (fadd .f32 env) else if f = 9 then some (fminmax .f32 env false)
  else if f = 10 then some (fminmax .f32 env true) else none

/-- RED (R172): each active lane of a tile receives the reduction of the tile's active lanes, with the OR of their poison. -/
def redEffect (i : Instr) (s : State) : Option Effect :=
  match i with
  | .red _ d a f =>
    let pz := fun i => (inTile s i).any fun j => poison s a.toNat j
    let pz2 := fun i => (inTile s i).any fun j => poison2 s a.toNat j
    match redWord f.toNat, redFloat (FEnv.ofFmt s.fmt) f.toNat with
    | some op, _ => some
      { one := coversAll s,
        outs := [(d.toNat, fun i => ⟨((inTile s i).map (word s a.toNat)).foldl op.2 op.1, pz i⟩)] }
    | none, some op =>
      let v := fun i => (treeOf (gather 32 op) 6 ((inTile s i).map fun j => ((word s a.toNat j).toNat, FExc.none))).getD (0, 0)
      some { one := coversAll s, outs := [(d.toNat, fun i => ⟨BitVec.ofNat 32 (v i).1, pz i⟩)], exc := fun i => (v i).2 }
    | none, none =>
      let w := if f = 11 then fun i =>
          (treeOf (gather 64 (fadd .f64 (FEnv.ofFmt s.fmt))) 6
            ((inTile s i).map fun j => ((dword s a.toNat j).toNat, FExc.none))).getD (0, 0)
        else fun i => ((((inTile s i).map (dword s a.toNat)).sum).toNat, FExc.none)
      if f = 11 ∨ f = 12 then
        some { one := coversAll s
               outs := [(d.toNat, fun i => ⟨(BitVec.ofNat 64 (w i).1).extractLsb' 0 32, pz2 i⟩),
                        (d.toNat + 1, fun i => ⟨(BitVec.ofNat 64 (w i).1).extractLsb' 32 32, pz2 i⟩)]
               exc := fun i => (w i).2 }
      else none
  | _ => none

/-- A serial float sum with the exceptions of its last step (R173). -/
def serial (f : Nat → Nat → FRes) : List Nat → FRes
  | [] => (0, FExc.none)
  | x :: rest => rest.foldl (fun acc y => ((f acc.1 y).1 % 2 ^ 32, (f acc.1 y).2)) (x, FExc.none)

/-- SCAN (R173): a lane's result is made from the active lanes of its tile up to it (INC) or below it (EXC), in order. -/
def scanEffect (i : Instr) (s : State) : Option Effect :=
  match i with
  | .scan _ d a f =>
    let upTo := fun i => (inTile s i).filter fun j => if f = 1 ∨ f = 3 then decide (j < i) else decide (j ≤ i)
    let pz := fun i => (upTo i).any fun j => poison s a.toNat j
    let ws := fun i => (upTo i).map (word s a.toNat)
    let fs := fun i => serial (fadd .f32 (FEnv.ofFmt s.fmt)) ((ws i).map (·.toNat))
    if f = 0 ∨ f = 1 then some { one := false, outs := [(d.toNat, fun i => ⟨(ws i).sum, pz i⟩)] }
    else if f = 2 ∨ f = 3 then
      some { one := false, outs := [(d.toNat, fun i => ⟨BitVec.ofNat 32 (fs i).1, pz i⟩)], exc := fun i => (fs i).2 }
    else if f = 4 then
      some { one := false, outs := [(d.toNat, fun i =>
        ⟨(ws i).foldl (fun a b => if a.toInt ≤ b.toInt then b else a) 0x80000000#32, pz i⟩)] }
    else if f = 5 then some { one := false, outs := [(d.toNat, fun i => ⟨(ws i).foldl (fun a b => a ||| b) 0, pz i⟩)] }
    else none
  | _ => none

end Sys2Proof.Claim
end

