-- ==== Sys2Proof/Claims/Float.lean ====
section
/-! DEFINITION. The results of the floating-point instructions (spec/08) as tables: which operation of R207-R219 is applied to
which operands, element by element, and where the result goes. -/

namespace Sys2Proof.Claim

open Sys2Proof.Machine

/-- The FMT fields that govern the gang's arithmetic (R96, R196). -/
def env (s : State) : FEnv := FEnv.ofFmt s.fmt

/-- Lane i of a register as bits, and of a pair. -/
def bits (s : State) (n i : Nat) : Nat := (word s n i).toNat
def bits64 (s : State) (n i : Nat) : Nat := (dword s n i).toNat

/-- A float result in one register, and in a pair, with its exceptions. -/
def fout (s : State) (d : Nat) (srcs : List Nat) (f : Nat → FRes) : Effect :=
  { out1 s d srcs fun i => BitVec.ofNat 32 (f i).1 with exc := fun i => (f i).2 }
def fout2 (s : State) (d : Nat) (srcs : List Nat) (f : Nat → FRes) : Effect :=
  { out2 s d srcs fun i => BitVec.ofNat 64 (f i).1 with exc := fun i => (f i).2 }

/-- The rounding mode of FRND and DRND: B is 0 for FMT.RND, 1-4 for RNE, RTZ, RDN, RUP (R211). -/
def roundMode (s : State) (b : Nat) : Nat := if b = 0 then (env s).rnd else b - 1

/-- FP32 and the 16-bit float forms (R42, R207-R211). -/
def fp32Effect (i : Instr) (s : State) : Option Effect :=
  let bin := fun (d a b : Nat) (op : FFmt → FEnv → Nat → Nat → FRes) =>
    some (fout s d [a, b] fun i => op .f32 (env s) (bits s a i) (bits s b i))
  let lo := fun (f : FFmt) (e : FEnv) (a b : Nat) => fminmax f e false a b
  let hi := fun (f : FFmt) (e : FEnv) (a b : Nat) => fminmax f e true a b
  match i with
  | .fadd _ d a b => bin d.toNat a.toNat b.toNat fadd
  | .fsub _ d a b => bin d.toNat a.toNat b.toNat fsub
  | .fmul _ d a b => bin d.toNat a.toNat b.toNat fmul
  | .fdiv _ d a b => bin d.toNat a.toNat b.toNat fdiv
  | .fmin _ d a b => bin d.toNat a.toNat b.toNat lo
  | .fmax _ d a b => bin d.toNat a.toNat b.toNat hi
  | .fadd16 _ d a => bin d.toNat d.toNat a.toNat fadd
  | .fmul16 _ d a => bin d.toNat d.toNat a.toNat fmul
  | .fmin16 _ d a => bin d.toNat d.toNat a.toNat lo
  | .fmax16 _ d a => bin d.toNat d.toNat a.toNat hi
  | .ffma _ d a b => some (fout s d.toNat [a.toNat, b.toNat, d.toNat] fun i =>
      ffma .f32 (env s) (bits s a.toNat i) (bits s b.toNat i) (bits s d.toNat i))
  | .fsqrt _ d a => some (fout s d.toNat [a.toNat] fun i => fsqrt .f32 (env s) (bits s a.toNat i))
  | .fscale _ d a b => some (fout s d.toNat [a.toNat, b.toNat] fun i =>
      fscale .f32 (env s) (bits s a.toNat i) (word s b.toNat i).toInt)
  | .frnd _ d a b => some (fout s d.toNat [a.toNat] fun i =>
      frnd .f32 (env s) (roundMode s b.toNat) (bits s a.toNat i))
  | .fabs _ d a => some (word1 s d.toNat a.toNat fun x => 0#1 ++ x.extractLsb' 0 31)
  | .fneg _ d a => some (word1 s d.toNat a.toNat fun x => ~~~(x.extractLsb' 31 1) ++ x.extractLsb' 0 31)
  | .fclass _ d a => some (word1 s d.toNat a.toNat fun x => BitVec.twoPow 32 (fclass .f32 x.toNat))
  | _ => none

/-- FP64, on pairs; the B of DSCALE is a single register (R207-R211). -/
def fp64Effect (i : Instr) (s : State) : Option Effect :=
  let bin := fun (d a b : Nat) (op : FFmt → FEnv → Nat → Nat → FRes) =>
    some (fout2 s d [a, a + 1, b, b + 1] fun i => op .f64 (env s) (bits64 s a i) (bits64 s b i))
  match i with
  | .dadd _ d a b => bin d.toNat a.toNat b.toNat fadd
  | .dsub _ d a b => bin d.toNat a.toNat b.toNat fsub
  | .dmul _ d a b => bin d.toNat a.toNat b.toNat fmul
  | .ddiv _ d a b => bin d.toNat a.toNat b.toNat fdiv
  | .dmin _ d a b => bin d.toNat a.toNat b.toNat fun f e x y => fminmax f e false x y
  | .dmax _ d a b => bin d.toNat a.toNat b.toNat fun f e x y => fminmax f e true x y
  | .dfma _ d a b => some (fout2 s d.toNat [a.toNat, a.toNat + 1, b.toNat, b.toNat + 1, d.toNat, d.toNat + 1] fun i =>
      ffma .f64 (env s) (bits64 s a.toNat i) (bits64 s b.toNat i) (bits64 s d.toNat i))
  | .dsqrt _ d a => some (fout2 s d.toNat [a.toNat, a.toNat + 1] fun i => fsqrt .f64 (env s) (bits64 s a.toNat i))
  | .dscale _ d a b => some (fout2 s d.toNat [a.toNat, a.toNat + 1, b.toNat] fun i =>
      fscale .f64 (env s) (bits64 s a.toNat i) (word s b.toNat i).toInt)
  | .drnd _ d a b => some (fout2 s d.toNat [a.toNat, a.toNat + 1] fun i =>
      frnd .f64 (env s) (roundMode s b.toNat) (bits64 s a.toNat i))
  | .dabs _ d a => some (out2 s d.toNat [a.toNat, a.toNat + 1] fun i => 0#1 ++ (dword s a.toNat i).extractLsb' 0 63)
  | .dneg _ d a => some (out2 s d.toNat [a.toNat, a.toNat + 1] fun i =>
      ~~~((dword s a.toNat i).extractLsb' 63 1) ++ (dword s a.toNat i).extractLsb' 0 63)
  | _ => none

/-- Element e of a lane (R195), and two element results as a lane: the union of their exceptions (R213). -/
def element (x : Word) (e : Nat) : Nat := (x.extractLsb' (16 * e) 16).toNat
def joined (r0 r1 : FRes) : FRes := ((BitVec.ofNat 16 r1.1 ++ BitVec.ofNat 16 r0.1).toNat, r0.2 ||| r1.2)

/-- H2: two 16-bit elements a lane, FP16 or BF16 (R212, R213). -/
def h2Effect (i : Instr) (s : State) : Option Effect :=
  let fmtOf := fun t : BitVec 1 => if t = 1 then FFmt.bf16 else FFmt.f16
  let bin := fun (d a b : Nat) (t : BitVec 1) (op : FFmt → FEnv → Nat → Nat → FRes) =>
    some (fout s d [a, b] fun i =>
      let r := fun e => op (fmtOf t) (env s) (element (word s a i) e) (element (word s b i) e)
      joined (r 0) (r 1))
  match i with
  | .hadd2 _ d a b t => bin d.toNat a.toNat b.toNat t fadd
  | .hsub2 _ d a b t => bin d.toNat a.toNat b.toNat t fsub
  | .hmul2 _ d a b t => bin d.toNat a.toNat b.toNat t fmul
  | .hmin2 _ d a b t => bin d.toNat a.toNat b.toNat t fun f e x y => fminmax f e false x y
  | .hmax2 _ d a b t => bin d.toNat a.toNat b.toNat t fun f e x y => fminmax f e true x y
  | .hfma2 _ d a b t => some (fout s d.toNat [a.toNat, b.toNat, d.toNat] fun i =>
      let r := fun e => ffma (fmtOf t) (env s) (element (word s a.toNat i) e) (element (word s b.toNat i) e)
        (element (word s d.toNat i) e)
      joined (r 0) (r 1))
  | _ => none

/-- Bits of a conversion type: F32, F64, F16, BF16, E4M3, E5M2, S32, N32 (R216). -/
def typeBits (t : BitVec 3) : Nat := [32, 64, 16, 16, 8, 8, 32, 32].getD t.toNat 32

/-- Where a value of n bits lies beside a value of m bits: part p of its register on the narrow side, bit 0 otherwise
(R217). -/
def partBit (n m : Nat) (p : BitVec 2) : Nat := if n ≤ m ∧ n < 32 then n * p.toNat else 0

/-- The n bits from bit k up replaced (R217). -/
def insertBits (old : Word) (y k n : Nat) : Word :=
  BitVec.ofBoolListLE ((List.range 32).map fun j => if k ≤ j ∧ j < k + n then y.testBit (j - k) else old.getLsbD j)

/-- FCVT (R217): extract by part, convert, insert by part. A destination below 32 bits is a source too. -/
def fcvtEffect (i : Instr) (s : State) : Option Effect :=
  match i with
  | .fcvt _ d a t x r p =>
    let n := typeBits t
    let m := typeBits x
    let e := if r = 0 then env s else { env s with rnd := r.toNat - 1 }
    let srcs := (if m = 64 then [a.toNat, a.toNat + 1] else [a.toNat]) ++ (if n < 32 then [d.toNat] else [])
    let y := fun i => convert x.toNat t.toNat e
      (if m = 64 then bits64 s a.toNat i else bits s a.toNat i / 2 ^ partBit m n p % 2 ^ m)
    some (if n = 64 then fout2 s d.toNat srcs y
      else if n < 32 then fout s d.toNat srcs fun i =>
        ((insertBits (word s d.toNat i) (y i).1 (partBit n m p) n).toNat, (y i).2)
      else fout s d.toNat srcs y)
  | _ => none

/-- FCMP (R215): poison is ignored; AND and OR read the predicate. -/
def fcmpEffect (i : Instr) (s : State) : Option Effect :=
  match i with
  | .fcmp _ p m a b c w =>
    let srcs := if w = 1 then [a.toNat, a.toNat + 1, b.toNat, b.toNat + 1] else [a.toNat, b.toNat]
    let r := fun i =>
      if w = 1 then fcmp .f64 (env s).dni c.toNat (bits64 s a.toNat i) (bits64 s b.toNat i)
      else fcmp .f32 (env s).dni c.toNat (bits s a.toNat i) (bits s b.toNat i)
    let exc := fun i => (r i).2
    if m = 0 then some { srcs, pouts := [(p.toNat, fun i => (r i).1)], exc }
    else if m = 1 then
      some { srcs, preds := [p.toNat], pouts := [(p.toNat, fun i => pred s p.toNat i && (r i).1)], exc }
    else if m = 2 then
      some { srcs, preds := [p.toNat], pouts := [(p.toNat, fun i => pred s p.toNat i || (r i).1)], exc }
    else none
  | _ => none

/-- SFU (R219), by FN. -/
def sfuEffect (i : Instr) (s : State) : Option Effect :=
  let un := fun (fn d a : Nat) => some (fout s d [a] fun i => sfu fn (env s) (bits s a i))
  match i with
  | .frcp _ d a => un 0 d.toNat a.toNat
  | .frsq _ d a => un 1 d.toNat a.toNat
  | .fexp2 _ d a => un 2 d.toNat a.toNat
  | .flog2 _ d a => un 3 d.toNat a.toNat
  | .fsin _ d a => un 4 d.toNat a.toNat
  | .fcos _ d a => un 5 d.toNat a.toNat
  | .ftanh _ d a => un 6 d.toNat a.toNat
  | _ => none

end Sys2Proof.Claim
end

