-- ==== Sys2Proof/Claims/Stops.lean ====
section
/-! DEFINITION. Where instructions trap or are parked, as tables: operands that must be uniform (R70, R72), divisors (R157),
floating-point exceptions (R203), handler mode (R132), the path tables (R100), and traps routed to the system handler
(R131). -/

namespace Sys2Proof.Claim

open Sys2Proof.Machine

/-- The registers that an instruction reads as one uniform value before it does anything else (R81, R93, R94, R96, R112,
R140, R142, R149). -/
def uniformSrcs (i : Instr) : Option (List Nat) :=
  match i with
  | .partW _ a => some [a.toNat]
  | .roleW _ a => some [a.toNat]
  | .sfmt _ a => some [a.toNat]
  | .movbTo _ _ a => some [a.toNat, a.toNat + 1]
  | .tvec _ a => some [a.toNat, a.toNat + 1]
  | .tvecDl _ a => some [a.toNat, a.toNat + 1]
  | .tmask _ _ a => some [a.toNat]
  | .signal _ a b => some [a.toNat, b.toNat]
  | .loopReg _ c _ => some [c.toNat]
  | _ => none

/-- SHAPE when one of those registers is not U, POISON when all are U and one is poisoned (R125). -/
def UniformTraps (i : Instr) (s : State) (ns : List Nat) : Prop :=
  ((∃ n ∈ ns, (reg s n).isU = false) → Traps i s (precise s cSHAPE)) ∧
    ((∀ n ∈ ns, (reg s n).isU = true) → (∃ n ∈ ns, poison s n 0 = true) → Traps i s (precise s cPOISON))

/-- Instructions of a handler, which raise PERM outside one (R132). -/
def handlerOnly (i : Instr) : Bool :=
  match i with
  | .rtrap _ | .tinfo _ _ _ | .tset _ _ | .getx _ _ _ _ | .setx _ _ _ _ => true
  | _ => false

/-- Instructions that raise DIVSTK in a handler before any other check (R132). -/
def pathOnly (i : Instr) : Bool :=
  match i with
  | .split _ _ | .join _ | .regang _ _ => true
  | _ => false

/-- Every floating-point instruction that FMT.TEN governs (R203). -/
def floatEffect (i : Instr) (s : State) : Option Effect :=
  fp32Effect i s <|> fp64Effect i s <|> h2Effect i s <|> fcvtEffect i s <|> fcmpEffect i s <|> sfuEffect i s <|>
    redEffect i s <|> scanEffect i s

/-- The active lanes that raise an enabled exception, and the exceptions they raise (R203). -/
def raising (s : State) (e : Effect) : List Nat := (LaneSet.toList s.act).filter fun i => e.exc i &&& tenOf s.fmt != 0
def fpx (s : State) (e : Effect) : TrapInfo :=
  { precise s cFPX with
    flanes := LaneSet.ofList (raising s e), fpxc := (raising s e).foldl (fun x i => x ||| e.exc i) 0 }

/-- The record of a trap that is routed to the system handler (R131, R133). -/
def routedRecord (s : State) (c : TrapInfo) : FaultRec :=
  { recordOf s c.cause c.faddr c.flanes with
    sub := c.sub, warpTrap := true, fpxc := c.fpxc, engClass := c.engClass, engLeft := c.engLeft }

/-- Traps of the warp go to the system handler: it is in its handler, or it has none (R131); no atomic of it stands in its
store queue. -/
structure Routes (s : State) : Prop where
  compute : isMgmt s.cur.wid = false
  away : s.w.hm = true ∨ s.w.tvec = 0
  noAtoms : ∀ e ∈ s.w.storeQ, State.isAtom e = false

/-- What a routed trap leaves (R131, R133): the warp is parked with the record, its trap record names the trap but for what is
saved of the interrupted program, and handler mode is as it was. -/
def RoutedTo (i : Instr) (s : State) (c : TrapInfo) : Prop :=
  ∃ t, exec i s = .next t ∧ Parks s t (routedRecord s c) ∧ Recorded s t c ∧ t.w.hm = s.w.hm ∧
    t.w.trap.savedFmt = s.w.trap.savedFmt ∧ t.w.trap.savedLoops = s.w.trap.savedLoops

/-- A V source under a full mask gives a V result, which a register of the trap bank cannot hold: BANKV (R65). -/
def BankTraps (i : Instr) (s : State) (e : Effect) : Prop :=
  s.w.hm = true → Routes s → s.act = s.present → (∃ n ∈ e.srcs, (reg s n).isV = true) → (∃ o ∈ e.outs, 56 ≤ o.1) →
    RoutedTo i s (precise s cBANKV)

/-- The trap that an instruction raises as its own effect (R48, R136). -/
def ownTrap (i : Instr) (s : State) : Option TrapInfo :=
  match i with
  | .unimp _ => some (precise s cUNIMP)
  | .trapImm _ _ => some (pastIt s cTRAP)
  | _ => none

/-! ## Accesses of device memory (R223, R227) -/

/-- LD and ST: the permission they need, their size, base, offset register, and the data registers that ST stores. -/
def accessOf (i : Instr) : Option (State.Need × Nat × Nat × Nat × List Nat) :=
  match i with
  | .ld _ _ o b z _ _ => if z.toNat ≤ 4 then some (.read, 2 ^ z.toNat, b.toNat, o.toNat, []) else none
  | .st _ d o b z _ => if z.toNat ≤ 4 then
      some (.write, 2 ^ z.toNat, b.toNat, o.toNat, (List.range (sizeRegs (2 ^ z.toNat))).map (d.toNat + ·)) else none
  | _ => none

/-- The active lanes that fail a check, ascending. -/
def failing (s : State) (f : Nat → Bool) : List Nat := (List.range 64).filter fun i => active s i && f i

/-- The address cannot be accessed: it does not translate, or lacks the permission (R223). -/
def unplaced (s : State) (need : State.Need) (n : Nat) (a : DWord) : Bool :=
  match s.place need n a with
  | .error _ => true
  | .ok _ => false

/-- A trap that names some lanes and the address of the lowest (R125). -/
def lanesTrap (s : State) (cause : BitVec 8) (b o : Nat) (l : List Nat) : TrapInfo :=
  { precise s cause with flanes := LaneSet.ofList l, faddr := addr s b o (l.headD 0) }

/-- The checks of an access in their order: POISON of the offset, POISON of the data, ALIGN, and the system fault of the
lowest lane that cannot be placed, naming every such lane. -/
def AccessStops (i : Instr) (s : State) (need : State.Need) (n b o : Nat) (data : List Nat) : Prop :=
  let p := failing s fun k => poison s o k
  let q := failing s fun k => data.any fun r => poison s r k
  let m := failing s fun k => (addr s b o k).toNat % n != 0
  let x := failing s fun k => unplaced s need n (addr s b o k)
  (p ≠ [] → Takes s → Traps i s (lanesTrap s cPOISON b o p)) ∧
  (p = [] → q ≠ [] → Takes s → Traps i s (lanesTrap s cPOISON b o q)) ∧
  (p = [] → q = [] → m ≠ [] → Takes s → Traps i s (lanesTrap s cALIGN b o m)) ∧
  (p = [] → q = [] → m = [] → x ≠ [] → isMgmt s.cur.wid = false →
    ∃ c t, s.place need n (addr s b o (x.headD 0)) = .error c ∧ exec i s = .next t ∧
      Parks s t (recordOf s c (addr s b o (x.headD 0)) (LaneSet.ofList x)))

/-- A misaligned access of a warp whose traps are routed parks it with the record (R131, R133). -/
def AlignRoutes (i : Instr) (s : State) (n b o : Nat) (data : List Nat) : Prop :=
  failing s (fun k => poison s o k) = [] → failing s (fun k => data.any fun r => poison s r k) = [] →
    failing s (fun k => (addr s b o k).toNat % n != 0) ≠ [] →
    RoutedTo i s (lanesTrap s cALIGN b o (failing s fun k => (addr s b o k).toNat % n != 0))

/-! ## Rows (R178, R182) -/

/-- One row more than the warp holds can never be given: it has its floor, and may not borrow, or the pool beyond the floors
of the core is smaller (R178). -/
structure NoRow (s : State) (d : Nat) : Prop where
  compute : isMgmt s.cur.wid = false
  narrow : ((warp s).wReg d).isV = false
  none : ∀ e ∈ s.w.rows, e.reg ≠ d
  granted : s.w.granted = []
  full : s.w.floor ≤ s.w.rows.length
  never : s.w.borrow = false ∨ s.w.floor + (2048 - s.resRows (coreOf s.cur.wid)) < s.w.rows.length + 1

end Sys2Proof.Claim
end

