-- ==== Sys2Proof/Claims/Tables.lean ====
section
/-! DEFINITION. Execution of the commands on key-value block tables, step by step, as a table: KVG, KVMAP, KVSD, KVSPL, RPSCAN
and RPDONE (spec/15, spec/16; logs 12, 44 and 45). -/

namespace Sys2Proof.Claim

open Sys2Proof.Machine

/-! ## What the KV engines read and write (R272, R359, R365, R487) -/

/-- Bytes from an address on, line by line, at their home: every access succeeds, and no line is poisoned. -/
def CleanAt (s : State) (c : Cmd) (a : DWord) (bs : List Byte) : Prop :=
  ∀ x ∈ piecesOf a bs.length, ∃ pa, cmdPhys s c .read x.1 = some pa ∧ s.homePoison (pa / 64) = false ∧
    s.homeRead pa x.2.2 = (bs.drop x.2.1).take x.2.2

/-- n bytes from an address on lie at the places f, each its own, and line for line, as in pages that hold whole lines. -/
structure Spread (s : State) (c : Cmd) (a : DWord) (n : Nat) (f : Nat → Nat) : Prop where
  reach : ∀ i < n, cmdPhys s c .write (a + BitVec.ofNat 64 i) = some (f i)
  apart : ∀ i < n, ∀ j < n, f i = f j → i = j
  whole : ∀ i k, i + k < n → (a + BitVec.ofNat 64 i).toNat % 64 + k < 64 → f (i + k) = f i + k
  line : ∀ i < n, f i % 64 = (a + BitVec.ofNat 64 i).toNat % 64

/-- Bytes stand at the places f, at their home. -/
def StandAt (t : State) (f : Nat → Nat) (bs : List Byte) : Prop := ∀ i < bs.length, t.homeRead (f i) 1 = [bs.getD i 0]

/-- The word of a row at an address, with the poison of its line, as the home or the die of the command has it (R371). -/
def rowLane (s : State) (c : Cmd) (home : Bool) (a : DWord) : Lane :=
  match cmdPhys s c .read a with
  | none => ⟨0, true⟩
  | some pa => if home then ⟨BitVec.ofNat 32 (homeNat s pa 4), s.homePoison (pa / 64)⟩
      else ⟨BitVec.ofNat 32 (dieNat s c.die pa 4), s.diePoison c.die (pa / 64)⟩

/-- The n words of a row can be read. -/
def RowReads (s : State) (c : Cmd) (a : DWord) (n : Nat) : Prop :=
  ∀ k < n, (cmdPhys s c .read (a + BitVec.ofNat 64 (4 * k))).isSome = true

/-- TPTR and the header of the table that it names, NENT and NTOK (R358, R359). -/
structure SeqTable (s : State) (c : Cmd) (tptr : DWord) (nent ntok : Nat) : Prop where
  pointer : CleanAt s c c.seqAddr (leBytes 8 tptr.toNat)
  small : nent < 2 ^ 32 ∧ ntok < 2 ^ 32
  header : ∃ rest, rest.length = 8 ∧
    CleanAt s c (tptr &&& 0x0000FFFFFFFFFFF0#64) (leBytes 4 nent ++ leBytes 4 ntok ++ rest)

/-- Descriptor words 0x08 to 0x3F at their home (R358). -/
def SeqWords (s : State) (c : Cmd) (b : List Byte) : Prop := b.length = 56 ∧ CleanAt s c (c.seqAddr + 8) b

/-- The descriptor words that the buffer of the command's cluster holds for its sequence (R365). -/
def heldWords (s : State) (c : Cmd) : Option (List Byte) :=
  (s.getCluster (clusterOf c.core)).kvtb.findSome? fun x => match x with
    | .words p q _ b => if p = s.cmdPart c ∧ q = c.seqAddr.toNat then some b else none
    | _ => none

/-- The entry of an index and a version that it holds, with its origin word. -/
def heldEntry (s : State) (c : Cmd) (version i : Nat) : Option (Entry × Word) :=
  (s.getCluster (clusterOf c.core)).kvtb.findSome? fun x => match x with
    | .entry p q v k _ e o => if p = s.cmdPart c ∧ q = c.seqAddr.toNat ∧ v = version ∧ k = i then some (e, o) else none
    | _ => none

/-- No cluster's buffer holds a copy of n bytes at a physical address, and nothing has entered one (R365). -/
def NoCopies (s t : State) (pa n : Nat) : Prop :=
  ∀ cl, ∀ x ∈ (t.getCluster cl).kvtb, x ∈ (s.getCluster cl).kvtb ∧ x.copies pa n = false

/-- The dies are as they were, but for what their accesses have observed (log 71). -/
def SameDies (s t : State) : Prop := ∀ d, { t.getDie d with seen := (s.getDie d).seen } = s.getDie d

/-- A KV command at the head of its queue. -/
structure KvTurn (s : State) (q : List Cmd) (core k : Nat) (c : Cmd) (wid : Nat) : Prop where
  first : k = 0 ∧ core = c.core
  head : Head q c
  oldest : Oldest s c wid

/-! ## KVG (R366-R372) -/

/-- A word of the key row of KVG rotated by δ (R369): f, c and s of a pair, and its two results. -/
def turned (d : SeqDesc) (delta : Int) (x : Nat → Lane) (n : Nat) : Lane :=
  let z := FEnv.zero
  let el (i : Nat) : Nat :=
    if d.bf16 then (x (i / 2)).val.toNat / 2 ^ (16 * (i % 2)) % 2 ^ 16 * 2 ^ 16 else (x i).val.toNat
  let angle (k : Nat) : Nat :=
    (fmul .f32 z (cvtIF .f32 z delta).1 (sfu 2 z (fmul .f32 z (cvtIF .f32 z k).1 d.rfreq.toNat).1).1).1
  let cs (k : Nat) : Nat := (sfu 5 z (angle k)).1
  let sn (k : Nat) : Nat := (sfu 4 z (angle k)).1
  let y (i : Nat) : Nat :=
    let k := i % d.hdim / 2
    if i % 2 = 0 then (ffma .f32 z (el i) (cs k) ((fmul .f32 z (el (i + 1)) (sn k)).1 ^^^ 2 ^ 31)).1
    else (ffma .f32 z (el i) (cs k) (fmul .f32 z (el (i - 1)) (sn k)).1).1
  let turns (i : Nat) : Bool := decide (i % d.hdim < d.rdim)
  if d.rdim = 0 ∨ delta = 0 then x n
  else if d.bf16 then
    let half (i : Nat) : Nat := if turns i then (cvtFF .f32 .bf16 z (y i)).1 else el i / 2 ^ 16
    ⟨BitVec.ofNat 32 (half (2 * n) + 2 ^ 16 * half (2 * n + 1)), (x n).poison⟩
  else if turns n then ⟨BitVec.ofNat 32 (y n), (x n).poison || (x (n ^^^ 1)).poison⟩
  else ⟨BitVec.ofNat 32 (el n), (x n).poison⟩

/-- The geometry of a sequence and the places of a KVG on it are valid (R358, R370). -/
structure KvgFits (s : State) (c : Cmd) (keys : Bool) (d : SeqDesc) : Prop where
  geometry : d.ok = true ∧ ((c.word 5).extractLsb' 16 8).toNat < d.layers ∧ d.rowb + 124 ≤ c.pitch
  inside : ∀ u, s.getTeam? c.team = some u → ∀ x ∈ c.kvSlots,
    (∀ b ∈ c.kvBases keys, c.kvRow b x.1 x.2 + d.rowb ≤ u.size) ∧ c.kvPos x.1 x.2 + 4 ≤ u.size

/-- Word w lies, in part at least, in some bytes from an offset. -/
def Within (w off n : Nat) : Prop := 0 < n ∧ off < 4 * w + 4 ∧ 4 * w < off + n

/-- Word w holds a byte of a row, or is a position word, of a KVG (R368). -/
def KvgWord (c : Cmd) (keys : Bool) (rowb w : Nat) : Prop :=
  ∃ x ∈ c.kvSlots, (∃ b ∈ c.kvBases keys, Within w (c.kvRow b x.1 x.2) rowb) ∨ Within w (c.kvPos x.1 x.2) 4

/-- The index word of lane j of a KVG. -/
def kvgIndex (c : Cmd) (j : Nat) : Lane := c.lanes.getD j ⟨0, false⟩

/-- Entry i of a table with the origin word of its group: from the cluster's buffer, or at their homes (R365, R371). -/
def EntryIs (s : State) (c : Cmd) (d : SeqDesc) (i : Nat) (e : Entry) (o : Word) : Prop :=
  e.wf d.ngrp = true ∧ (heldEntry s c d.version i = some (e, o) ∨
    heldEntry s c d.version i = none ∧ CleanAt s c (d.entryAt i) e.bytes ∧
      CleanAt s c (d.orig + BitVec.ofNat 64 (4 * e.group)) (leBytes 4 o.toNat))

/-- A 4-byte or 16-byte unit in a poisoned line of its home. -/
def PoisonedAt (s : State) (c : Cmd) (a : DWord) : Prop :=
  ∃ pa, cmdPhys s c .read a = some pa ∧ s.homePoison (pa / 64) = true

/-- What gather slot j receives (R363, R370, R487). -/
inductive LaneFate (s : State) (c : Cmd) (d : SeqDesc) (nent j : Nat) : SlotFate → Prop where
  | index : (kvgIndex c j).poison = true → LaneFate s c d nent j (.spoiled (some ePOISON))
  | beyond : (kvgIndex c j).poison = false → nent ≤ (kvgIndex c j).val.toNat → LaneFate s c d nent j (.spoiled (some eBOUNDS))
  | line : (kvgIndex c j).poison = false → (kvgIndex c j).val.toNat < nent →
      heldEntry s c d.version (kvgIndex c j).val.toNat = none → PoisonedAt s c (d.entryAt (kvgIndex c j).val.toNat) →
      LaneFate s c d nent j (.spoiled (some ePOISON))
  | malformed (e : Entry) : (kvgIndex c j).poison = false → (kvgIndex c j).val.toNat < nent →
      heldEntry s c d.version (kvgIndex c j).val.toNat = none →
      CleanAt s c (d.entryAt (kvgIndex c j).val.toNat) e.bytes → e.wf d.ngrp = false →
      LaneFate s c d nent j (.spoiled (some eBOUNDS))
  | origin (e : Entry) : (kvgIndex c j).poison = false → (kvgIndex c j).val.toNat < nent →
      heldEntry s c d.version (kvgIndex c j).val.toNat = none →
      CleanAt s c (d.entryAt (kvgIndex c j).val.toNat) e.bytes → e.wf d.ngrp = true →
      PoisonedAt s c (d.orig + BitVec.ofNat 64 (4 * e.group)) → LaneFate s c d nent j (.spoiled (some ePOISON))
  | stale (e : Entry) (o : Word) : (kvgIndex c j).poison = false → (kvgIndex c j).val.toNat < nent →
      EntryIs s c d (kvgIndex c j).val.toNat e o → e.stale ((c.word 5).extractLsb' 16 8).toNat = true →
      (c.word 5).extractLsb' 6 2 = 0 → LaneFate s c d nent j (.spoiled (some eSTALE))
  | quiet (e : Entry) (o : Word) : (kvgIndex c j).poison = false → (kvgIndex c j).val.toNat < nent →
      EntryIs s c d (kvgIndex c j).val.toNat e o → e.stale ((c.word 5).extractLsb' 16 8).toNat = true →
      (c.word 5).extractLsb' 6 2 = 1 → LaneFate s c d nent j (.spoiled none)
  | rows (e : Entry) (o : Word) : (kvgIndex c j).poison = false → (kvgIndex c j).val.toNat < nent →
      EntryIs s c d (kvgIndex c j).val.toNat e o →
      (e.stale ((c.word 5).extractLsb' 16 8).toNat = true → (c.word 5).extractLsb' 6 2 = 2) →
      LaneFate s c d nent j (.rows e o)

/-- What the slots of a lane with a fate are gathered from: an entry with the origin word of its group, or nothing. -/
def gatheredFrom : SlotFate → Option (Entry × Word)
  | .rows e o => some (e, o)
  | .spoiled _ => none

/-- The rows of slot r that are gathered from an entry can be read (R371). -/
def SlotReads (s : State) (c : Cmd) (keys : Bool) (d : SeqDesc) (r : Nat) (src : Option (Entry × Word)) : Prop :=
  ∀ e o, src = some (e, o) → r < e.count →
    RowReads s c (d.keyRow e.group ((c.word 5).extractLsb' 16 8).toNat (e.first + r)) d.rowWords ∧
    (keys = false → RowReads s c (d.valueRow e.group ((c.word 5).extractLsb' 16 8).toNat (e.first + r)) d.rowWords)

/-- The words that slot r of gather slot j receives, with their offsets: key row, value row and position word (R370, R371). -/
def slotWords (s : State) (c : Cmd) (keys : Bool) (d : SeqDesc) (j r : Nat) (src : Option (Entry × Word)) : List (Nat × Lane) :=
  let layer := ((c.word 5).extractLsb' 16 8).toNat
  let place (key value : Nat → Lane) (p : Lane) : List (Nat × Lane) :=
    ((List.range d.rowWords).map fun n => (c.kvRow (off21 (c.word 2)) j r + 4 * n, key n)) ++
    (if keys then [] else (List.range d.rowWords).map fun n => (c.kvRow (off21 (c.word 3)) j r + 4 * n, value n)) ++
    [(c.kvPos j r, p)]
  match src with
  | none => place (fun _ => ⟨0, true⟩) (fun _ => ⟨0, true⟩) ⟨0, true⟩
  | some (e, o) =>
    if e.count ≤ r then place (fun _ => ⟨0, false⟩) (fun _ => ⟨0, false⟩) ⟨0xFFFFFFFF#32, false⟩
    else
      let row (a : DWord) (n : Nat) : Lane := rowLane s c (e.state != 0) (a + BitVec.ofNat 64 (4 * n))
      place (turned d e.delta (row (d.keyRow e.group layer (e.first + r)))) (row (d.valueRow e.group layer (e.first + r)))
        ⟨o + BitVec.ofNat 32 (e.first + r) + BitVec.ofInt 32 e.delta, false⟩

/-- The words that a KVG has still to write for its lane: those of a slot that it has not read yet as they are read now. -/
def wordsLeft (s : State) (c : Cmd) (keys : Bool) (d : SeqDesc) (l : List KvTask) : List (Nat × Lane) :=
  l.flatMap fun x => match x with
    | .gather j r src => slotWords s c keys d j r src
    | .word off v => [(off, v)]
    | _ => []

/-- The writes that a KVG has left are its own, the rows that it has still to read can be read, and the words of this cycle lie at
places of their own. -/
structure Gathers (s : State) (c : Cmd) (keys : Bool) (d : SeqDesc) : Prop where
  own : ∀ x ∈ c.tasks, (∃ j r src, x = .gather j r src ∧ SlotReads s c keys d r src) ∨ ∃ off v, x = .word off v
  apart : (((wordsLeft s c keys d c.tasks).take 32).map fun x => x.1 / 4).Nodup

/-- The error that a gather slot records, at its index (R370). -/
def fateErr (c : Cmd) (j : Nat) : SlotFate → Option EngFault
  | .spoiled (some sub) => some (sub, if (kvgIndex c j).poison then 0 else (kvgIndex c j).val.zeroExtend 64)
  | _ => none

/-- A turn of a KVG: it reads its sequence, and withdraws the marks outside rows; then for one active lane after another it reads
the lane's entry, and writes what it gathers, 32 words in a cycle (R299, R372); then it completes. -/
def kvgContract (core k : Nat) (c : Cmd) (keys : Bool) (wid : Nat) : Contract :=
  match c.seqRead, c.tasks, c.act.toList.drop c.steps with
  | none, _, _ =>
    let starts (s : State) (tptr : DWord) (nent ntok : Nat) (b : List Byte) : Prop :=
      SeqTable s c tptr nent ntok ∧ (heldWords s c = some b ∨ heldWords s c = none ∧ SeqWords s c b) ∧
        KvgFits s c keys (parseDesc tptr b)
    { pre := fun s => CopyTurn s core k c wid ∧ c.poison = false ∧ c.kvgBad keys = false ∧
        ∃ tptr nent ntok b, starts s tptr nent ntok b
      post := fun s t => ∀ tptr nent ntok b, starts s tptr nent ntok b →
        GoesOn s t (fun s => (s.getCore core).cpQ) { c with started := true, seqRead := some (tptr, b, nent) } wid ∧
        heldWords t c = some b ∧ SameDies s t ∧
        { t with teams := s.teams, cores := s.cores, clusters := s.clusters, dies := s.dies } = s ∧
        ∀ u, s.getTeam? c.team = some u → ∃ v, t.getTeam? c.team = some v ∧ { v with marks := u.marks } = u ∧
          ∀ m, m ∈ v.marks ↔ m ∈ u.marks ∧ (m.2 = c.id → KvgWord c keys (parseDesc tptr b).rowb m.1) }
  | some (tptr, b, nent), [], j :: _ =>
    let d := parseDesc tptr b
    { pre := fun s => CopyTurn s core k c wid ∧ ∃ f, LaneFate s c d nent j f
      post := fun s t => ∀ f, LaneFate s c d nent j f →
        GoesOn s t (fun s => (s.getCore core).cpQ) { c with
          steps := c.steps + 1, err := c.err <|> fateErr c j f
          tasks := (List.range 16).map fun r => .gather j r (gatheredFrom f) } wid ∧
        (∀ e o, f = .rows e o → heldEntry t c d.version (kvgIndex c j).val.toNat = some (e, o)) ∧ SameDies s t ∧
        { t with cores := s.cores, clusters := s.clusters, dies := s.dies } = s }
  | some (tptr, b, _), x :: rest, _ =>
    let d := parseDesc tptr b
    { pre := fun s => CopyTurn s core k c wid ∧ c.kvgBad keys = false ∧ d.ok = true ∧ Gathers s c keys d
      post := fun s t => (t.getCore core).cpFree = s.nowOf (64 * core) + 1 ∧
        (∃ l, GoesOn s t (fun s => (s.getCore core).cpQ) { c with tasks := l } wid ∧
          wordsLeft s c keys d l = (wordsLeft s c keys d (x :: rest)).drop 32) ∧
        ∀ u, s.getTeam? c.team = some u → ∃ v, t.getTeam? c.team = some v ∧
          ∀ y ∈ (wordsLeft s c keys d (x :: rest)).take 32, spAt v (y.1 / 4) = y.2 ∧ (y.1 / 4, c.id) ∉ v.marks }
  | some _, [], [] =>
    { pre := fun s => CopyTurn s core k c wid
      post := fun s t => Retired s t c wid c.err }

/-! ## KVSPL (R378-R381) -/

/-- Position of the first token of entry i (R362, R379). -/
def startOf (ent : Nat → Entry) (i : Nat) : Nat := ((List.range i).map fun k => (ent k).count).sum

/-- An entry with DELTA increased by n. -/
def delayed (e : Entry) (n : Nat) : Entry := e.put 32 24 (BitVec.ofInt 24 (e.delta + n)).toNat

/-- The entries of a table up to token position T, and those after it; one that T falls inside is split (R379). -/
def headOf (T nent : Nat) (ent : Nat → Entry) : List Entry :=
  (List.range nent).filterMap fun i =>
    let p := startOf ent i
    if p + (ent i).count ≤ T then some (ent i)
    else if p < T then some ((ent i).put 56 5 (T - p)) else none
def tailOf (T n nent : Nat) (ent : Nat → Entry) : List Entry :=
  (List.range nent).filterMap fun i =>
    let p := startOf ent i
    if p + (ent i).count ≤ T then none
    else if p < T then
      some (delayed (((ent i).put 24 4 ((ent i).first + (T - p))).put 56 5 ((ent i).count - (T - p))) n)
    else some (delayed (ent i) n)

/-- The entry that a document image gives: GROUP, FIRST, COUNT, SHARED and DOC from the image, DELTA δ, STATE SPLICED, LEVEL 0
(R379). -/
def imageEntry (img : Entry) (delta : Int) : Entry :=
  (((((0 : Entry).put 0 28 (img.toNat % 2 ^ 28)).put 56 5 img.count).put 64 32 (img.toNat / 2 ^ 64 % 2 ^ 32)).put 32 24
    (BitVec.ofInt 24 delta).toNat).put 96 2 1

/-- Tokens of the images of a document. -/
def docTokens (c : Cmd) (img : Nat → Entry) : Nat := ((List.range (lo16 (c.word 6))).map fun k => (img k).count).sum

/-- The entries of the new table. -/
def newEntries (c : Cmd) (nent : Nat) (ent img : Nat → Entry) (delta : Int) : List Entry :=
  headOf (c.word 3).toNat nent ent ++ (List.range (lo16 (c.word 6))).map (fun k => imageEntry (img k) delta) ++
    tailOf (c.word 3).toNat (docTokens c img) nent ent

/-- The bytes of the new table: its header and its entries (R359, R379). -/
def newTable (c : Cmd) (nent ntok : Nat) (ent img : Nat → Entry) (delta : Int) : List Byte :=
  leBytes 4 (newEntries c nent ent img delta).length ++ leBytes 4 (ntok + docTokens c img) ++ leBytes 8 0 ++
    (newEntries c nent ent img delta).flatMap Entry.bytes

/-- A splice that passes every check of R379: T lies in the table, the entries and the images are in order, and so are the new
positions; the table has room, lies at places of its own, and can be published. -/
structure Splices (s : State) (c : Cmd) (tptr : DWord) (nent ntok : Nat) (b : List Byte) (ent img : Nat → Entry) (org : Word)
    (f : Nat → Nat) (pb : Nat) : Prop where
  fields : c.poison = false ∧ c.splBad = false ∧ c.versionOk tptr = true
  table : SeqTable s c tptr nent ntok ∧ SeqWords s c b ∧ (parseDesc tptr b).ok = true
  entries : ∀ i < nent, CleanAt s c ((parseDesc tptr b).entryAt i) (ent i).bytes ∧ (ent i).wf (parseDesc tptr b).ngrp = true
  images : ∀ k < lo16 (c.word 6), CleanAt s c (c.dlist + BitVec.ofNat 64 (16 * k)) (img k).bytes ∧
    (img k).placed (parseDesc tptr b).ngrp = true
  origin : CleanAt s c ((parseDesc tptr b).orig + BitVec.ofNat 64 (4 * (img 0).group)) (leBytes 4 org.toNat)
  inside : (c.word 3).toNat ≤ ntok ∧ ntok + docTokens c img < 2 ^ 32
  shift : deltaOk (c.word 3 - (org + BitVec.ofNat 32 (img 0).first)).toInt = true ∧
    ∀ i < nent, (c.word 3).toNat < startOf ent i + (ent i).count → deltaOk ((ent i).delta + docTokens c img) = true
  room : (newEntries c nent ent img (c.word 3 - (org + BitVec.ofNat 32 (img 0).first)).toInt).length ≤ (c.word 9).toNat
  places : Spread s c c.newt
    (newTable c nent ntok ent img (c.word 3 - (org + BitVec.ofNat 32 (img 0).first)).toInt).length f
  head : cmdPhys s c .write c.seqAddr = some pb
  apart : ∀ i < (newTable c nent ntok ent img (c.word 3 - (org + BitVec.ofNat 32 (img 0).first)).toInt).length,
    f i < pb ∨ pb + 8 ≤ f i

/-! ## KVMAP (R373, R374) -/

/-- An edit of entry INDEX that passes every check of R374, with the place of the entry. -/
structure Maps (s : State) (c : Cmd) (tptr : DWord) (nent ntok : Nat) (b : List Byte) (e : Entry) (pa : Nat) : Prop where
  fields : c.poison = false ∧ above (c.word 2) 21 = false ∧ seqOk c.seqAddr = true ∧ c.versionOk tptr = true
  table : SeqTable s c tptr nent ntok ∧ SeqWords s c b ∧ (c.word 3).toNat < nent
  entry : CleanAt s c ((parseDesc tptr b).entryAt (c.word 3).toNat) e.bytes
  valid : (e.edit c.image ((c.word 2).extractLsb' 16 4)).wf (parseDesc tptr b).ngrp = true
  place : cmdPhys s c .write ((parseDesc tptr b).entryAt (c.word 3).toNat) = some pa

/-! ## RPSCAN (R382-R387) -/

/-- The tokens that RPSCAN scans, by entry and slot, in order (R383). -/
def scanned (nent : Nat) (ent : Nat → Entry) : List (Nat × Nat) :=
  (List.range nent).flatMap fun i =>
    if (ent i).state = 1 then (List.range (ent i).count).map fun r => (i, (ent i).first + r) else []

/-- The tree of R172 over F32 values. -/
def tree32 (xs : List Nat) : Nat :=
  (treeOf (fun a b => (fadd .f32 FEnv.zero a b).1 % 2 ^ 32) 17 (xs.map (· % 2 ^ 32))).getD 0

/-- The deviation of fresh key words kf from stored ones kc (R384). -/
def deviates (bf16 : Bool) (words : Nat) (kf kc : Nat → Lane) : Nat :=
  let z := FEnv.zero
  let el (x : Nat → Lane) (i : Nat) : Nat :=
    if bf16 then (x (i / 2)).val.toNat / 2 ^ (16 * (i % 2)) % 2 ^ 16 * 2 ^ 16 else (x i).val.toNat
  let n := if bf16 then 2 * words else words
  let num := tree32 ((List.range n).map fun i =>
    let x := (fsub .f32 z (el kf i) (el kc i)).1
    (fmul .f32 z x x).1)
  let den := (fadd .f32 z (tree32 ((List.range n).map fun i => (fmul .f32 z (el kc i) (el kc i)).1)) 0x35800000).1
  let d := (fdiv .f32 z num den).1
  if ((List.range words).any fun k => (kc k).poison) || (fdecode .f32 d).isNan then 0x7F800000 else d

/-- Token n is selected: its deviation is above the threshold, and fewer than CAP tokens go before it (R384). -/
def chosen (thr cap : Nat) (ds : List Nat) (n : Nat) : Bool :=
  let high (m : Nat) : Bool := (fcmp .f32 false 4 (ds.getD m 0) thr).1
  high n && decide (((List.range ds.length).filter fun m => high m &&
    (decide (ds.getD n 0 < ds.getD m 0) || (ds.getD n 0 == ds.getD m 0 && decide (m < n)))).length < cap)

/-- Offset of the fresh key row of token n and layer l; its value row follows (R383). -/
def freshAt (c : Cmd) (rowb n l : Nat) : Nat := off21 (c.word 4) + (n * (((c.word 2).extractLsb' 16 8).toNat + 1) + l) * 2 * rowb

/-- What an RPSCAN reads: its table, the entries and the origin words of their groups. -/
structure Scan where
  tptr : DWord
  nent : Nat
  ntok : Nat
  b : List Byte
  ent : Nat → Entry
  org : Nat → Word
  /-- The groups on the free list, from its end. -/
  pop : Nat → Nat

namespace Scan

/-- The descriptor. -/
def d (x : Scan) : SeqDesc := parseDesc x.tptr x.b
/-- LE. -/
def le (c : Cmd) : Nat := ((c.word 2).extractLsb' 16 8).toNat
/-- The tokens. -/
def toks (x : Scan) : List (Nat × Nat) := scanned x.nent x.ent
/-- The deviations of the tokens (R384). -/
def devs (x : Scan) (s : State) (c : Cmd) (u : Team) : List Nat :=
  x.toks.zipIdx.map fun y => deviates x.d.bf16 x.d.rowWords
    (fun k => u.spLoad (freshAt c x.d.rowb y.2 (le c) / 4 + k))
    (fun k => rowLane s c true (x.d.keyRow (x.ent y.1.1).group (le c) y.1.2 + BitVec.ofNat 64 (4 * k)))
/-- The selected tokens, ascending. -/
def sel (x : Scan) (s : State) (c : Cmd) (u : Team) : List Nat :=
  (List.range x.toks.length).filter (chosen (c.word 3).toNat (lo16 (c.word 2)) (x.devs s c u))
/-- Entry and slot of token n. -/
def tok (x : Scan) (n : Nat) : Nat × Nat := x.toks.getD n (0, 0)
/-- Entry i holds a selected token. -/
def holds (x : Scan) (sel : List Nat) (i : Nat) : Bool := sel.any fun n => (x.tok n).1 == i
/-- The groups to copy (R385). -/
def groups (x : Scan) (sel : List Nat) : List Nat :=
  (((List.range x.nent).filter fun i => (x.ent i).shared && (x.ent i).state == 1 && x.holds sel i).map
    fun i => (x.ent i).group).eraseDups
/-- The group that a copied group is copied to, and the group that an entry's tokens are in from then on. -/
def copy (x : Scan) (sel : List Nat) (g : Nat) : Option Nat := ((x.groups sel).findIdx? (· == g)).map x.pop
def now (x : Scan) (sel : List Nat) (e : Entry) : Nat := (x.copy sel e.group).getD e.group

/-- The entry that RPSCAN leaves for a SPLICED one (R387): STATE 2 is REPAIRING, 3 REPAIRED. -/
def after (x : Scan) (c : Cmd) (sel : List Nat) (i : Nat) : Entry :=
  let e := x.ent i
  if x.holds sel i = false then (e.put 96 2 3).put 104 8 (x.d.layers - 1)
  else
    let f := match x.copy sel e.group with
      | some g => (e.put 0 24 g).put 95 1 0
      | none => e
    if le c + 1 = x.d.layers then (f.put 96 2 3).put 104 8 (x.d.layers - 1) else (f.put 96 2 2).put 104 8 (le c)

/-- The writes of a scan, in order (R385-R387): copies of groups, fresh rows, NFREE, entries, the list and the count. -/
def writes (x : Scan) (c : Cmd) (u : Team) (sel : List Nat) : List KvTask :=
  let place (n : Nat) : Entry := x.ent (x.tok n).1
  ((x.groups sel).zipIdx.flatMap fun y => (piecesOf (x.d.keyRow y.1 0 0) (x.d.layers * 32 * x.d.rowb)).map fun z =>
    .piece z.1 (x.d.keyRow (x.pop y.2) 0 0 + BitVec.ofNat 64 z.2.1) z.2.2) ++
  (sel.flatMap fun n => (List.range (le c + 1)).flatMap fun l =>
    [.row (x.d.keyRow (x.now sel (place n)) l (x.tok n).2) (cellsGet u.sp (freshAt c x.d.rowb n l) x.d.rowb),
     .row (x.d.valueRow (x.now sel (place n)) l (x.tok n).2)
      (cellsGet u.sp (freshAt c x.d.rowb n l + x.d.rowb) x.d.rowb)]) ++
  (if x.toks = [] then [] else [.nfree (x.d.nfree - (x.groups sel).length)]) ++
  (((List.range x.nent).filter fun i => (x.ent i).state == 1).map fun i => .entry (x.d.entryAt i) i (x.after c sel i)) ++
  [.list (sel.map fun n => (x.org (place n).group + BitVec.ofNat 32 (x.tok n).2 + BitVec.ofInt 32 (place n).delta,
    BitVec.ofNat 32 (x.now sel (place n) + 2 ^ 24 * (x.tok n).2)))]

end Scan

/-- A scan that passes every check of R387 on its team u, with the words that it had before a move (R441). -/
structure Scans (s : State) (c : Cmd) (u : Team) (x : Scan) : Prop where
  fields : c.poison = false ∧ c.rpBad u.size = false
  table : SeqTable s c x.tptr x.nent x.ntok ∧ SeqWords s c x.b ∧ x.d.ok = true ∧ Scan.le c < x.d.layers
  entries : ∀ i < x.nent, CleanAt s c (x.d.entryAt i) (x.ent i).bytes ∧
    ((x.ent i).state = 1 → (x.ent i).wf x.d.ngrp = true ∧
      CleanAt s c (x.d.orig + BitVec.ofNat 64 (4 * (x.ent i).group)) (leBytes 4 (x.org (x.ent i).group).toNat))
  fresh : rangeIn u.size (off21 (c.word 4), x.toks.length * (Scan.le c + 1) * 2 * x.d.rowb) = true ∧
    ∀ w ∈ rangeWords [(off21 (c.word 4), x.toks.length * (Scan.le c + 1) * 2 * x.d.rowb)], u.wordFault w = none
  stored : ∀ y ∈ x.toks, RowReads s c (x.d.keyRow (x.ent y.1).group (Scan.le c) y.2) x.d.rowWords
  free : (x.groups (x.sel s c u)).length ≤ x.d.nfree
  pops : ∀ k g, (x.groups (x.sel s c u))[k]? = some g → x.pop k < x.d.ngrp ∧
    CleanAt s c (x.d.free + BitVec.ofNat 64 (4 * (x.d.nfree - 1 - k))) (leBytes 4 (x.pop k)) ∧
    CleanAt s c (x.d.orig + BitVec.ofNat 64 (4 * x.pop k)) (leBytes 4 (x.org g).toNat)

/-! ## RPDONE (R388, R389) -/

/-- An RPDONE of layer ℓ that passes every check of R389: some entry of its range is REPAIRING, each of those at level ℓ - 1,
and each can be written. -/
structure Repairs (s : State) (c : Cmd) (tptr : DWord) (nent ntok : Nat) (b : List Byte) (ent : Nat → Entry)
    (idx : List Nat) : Prop where
  fields : c.poison = false ∧ above (c.word 2) 8 = false ∧ seqOk c.seqAddr = true
  table : SeqTable s c tptr nent ntok ∧ SeqWords s c b ∧ (c.word 2).toNat % 2 ^ 8 < (parseDesc tptr b).layers
  range : idx = (List.range nent).filter fun i => c.word 4 == 0 ||
    (decide ((c.word 3).toNat ≤ i) && decide (i < (c.word 3).toNat + (c.word 4).toNat))
  entries : ∀ i ∈ idx, CleanAt s c ((parseDesc tptr b).entryAt i) (ent i).bytes
  some' : ∃ i ∈ idx, (ent i).state = 2
  level : ∀ i ∈ idx, (ent i).state = 2 → (ent i).level + 1 = (c.word 2).toNat % 2 ^ 8 ∧
    (cmdPhys s c .write ((parseDesc tptr b).entryAt i)).isSome = true

/-- The entry that RPDONE leaves: LEVEL ℓ, and STATE REPAIRED after the last layer (R389). -/
def repaired (layers l : Nat) (e : Entry) : Entry :=
  if l + 1 = layers then (e.put 104 8 l).put 96 2 3 else e.put 104 8 l

/-! ## The writes of RPSCAN and RPDONE, one in each turn -/

/-- A write that succeeds: its places are reached, and each is its own. -/
def TaskRuns (s : State) (c : Cmd) : KvTask → Prop
  | .piece src dst n => src.toNat % 64 + n ≤ 64 ∧ 0 < n ∧ (cmdPhys s c .read src).isSome = true ∧ ∃ f, Spread s c dst n f
  | .row dst bytes => ∃ f, Spread s c dst bytes.length f
  | .nfree _ => seqOk c.seqAddr = true ∧ (cmdPhys s c .write (c.seqAddr + 0x30)).isSome = true
  | .entry a _ _ => a.toNat % 16 = 0 ∧ (cmdPhys s c .write a).isSome = true
  | .list _ => off21 (c.word 5) % 4 = 0 ∧ off21 (c.word 6) % 4 = 0 ∧
      (off21 (c.word 6) < off21 (c.word 5) ∨ off21 (c.word 5) + 8 * lo16 (c.word 2) ≤ off21 (c.word 6))
  | .gather _ _ _ | .word _ _ => True

/-- What it leaves (R386, R387, R389): a copy at the home with the poison of its line, rows and entries at their homes, no
cached copy of what is written, list words 0 beyond the list. -/
def TaskDone (s t : State) (c : Cmd) : KvTask → Prop
  | .piece src dst n => ∀ pa f, cmdPhys s c .read src = some pa → Spread s c dst n f →
      StandAt t f (s.homeRead pa n) ∧ (s.homePoison (pa / 64) = true → ∀ i < n, t.homePoison (f i / 64) = true)
  | .row dst bytes => ∀ f, Spread s c dst bytes.length f → StandAt t f bytes
  | .nfree n => ∀ pa, cmdPhys s c .write (c.seqAddr + 0x30) = some pa → homeNat t pa 4 = n % 2 ^ 32 ∧ NoCopies s t pa 4
  | .entry a _ img => ∀ pa, cmdPhys s c .write a = some pa → homeNat t pa 16 = img.toNat ∧ NoCopies s t pa 16
  | .list items => ∀ u, s.getTeam? c.team = some u → ∃ v, t.getTeam? c.team = some v ∧
      (∀ m < lo16 (c.word 2), spAt v (off21 (c.word 5) / 4 + 2 * m) = ⟨(items.getD m (0, 0)).1, false⟩ ∧
        spAt v (off21 (c.word 5) / 4 + 2 * m + 1) = ⟨(items.getD m (0, 0)).2, false⟩) ∧
      spAt v (off21 (c.word 6) / 4) = ⟨BitVec.ofNat 32 items.length, false⟩
  | .word off x => ∀ u, s.getTeam? c.team = some u → ∃ v, t.getTeam? c.team = some v ∧ spAt v (off / 4) = x
  | .gather _ _ _ => True

/-- A turn of a command that has begun to write: its next write is made, and the command completes with its last. -/
def writeContract (queue : State → List Cmd) (core k : Nat) (c : Cmd) (wid : Nat) : Contract :=
  match c.tasks with
  | [] => { pre := fun s => KvTurn s (queue s) core k c wid, post := fun s t => Retired s t c wid none }
  | x :: rest =>
    { pre := fun s => KvTurn s (queue s) core k c wid ∧ TaskRuns s c x
      post := fun s t => TaskDone s t c x ∧
        if rest = [] then Retired s t c wid none else GoesOn s t queue { c with started := true, tasks := rest } wid }

/-! ## The table -/

/-- Execution of the commands on block tables, with the warp that issued them. -/
def tableContract (i : Instr) (c : Cmd) (wid : Nat) : Option Contract :=
  match i with
  | .kvgExecution core k =>
    match c.kind with
    | .kvg keys => some (kvgContract core k c keys wid)
    | _ => none
  | .kvsplExecution core k => if c.kind = .kvspl then some
      { pre := fun s => KvTurn s (s.getCore core).kvQ core k c wid ∧
          ∃ tptr nent ntok b ent img org f pb, Splices s c tptr nent ntok b ent img org f pb
        post := fun s t => ∀ tptr nent ntok b ent img org f pb, Splices s c tptr nent ntok b ent img org f pb →
          Retired s t c wid none ∧
          StandAt t f (newTable c nent ntok ent img (c.word 3 - (org + BitVec.ofNat 32 (img 0).first)).toInt) ∧
          homeNat t pb 8 = (tptr.toNat / 2 ^ 48 + 1) % 2 ^ 16 * 2 ^ 48 + c.newt.toNat ∧
          ∀ cl, ∀ x ∈ (t.getCluster cl).kvtb, x ∈ (s.getCluster cl).kvtb ∧
            x.named (s.cmdPart c) c.seqAddr.toNat 0 0 = false ∧
            ∀ i < (newTable c nent ntok ent img (c.word 3 - (org + BitVec.ofNat 32 (img 0).first)).toInt).length,
              x.copies (f i) 1 = false }
      else none
  | .kvmapExecution core k => if c.kind = .kvmap then some
      { pre := fun s => KvTurn s (s.getCore core).kvQ core k c wid ∧ ∃ tptr nent ntok b e pa, Maps s c tptr nent ntok b e pa
        post := fun s t => ∀ tptr nent ntok b e pa, Maps s c tptr nent ntok b e pa → Retired s t c wid none ∧
          homeNat t pa 16 = (e.edit c.image ((c.word 2).extractLsb' 16 4)).toNat ∧ NoCopies s t pa 16 }
      else none
  | .kvsdExecution core k => if c.kind = .kvsd then some
      { pre := fun s => KvTurn s (s.getCore core).kvQ core k c wid ∧ c.poison = false ∧ seqOk c.seqAddr = true
        post := fun s t => Retired s t c wid none ∧ ∀ cl, ∀ x ∈ (t.getCluster cl).kvtb,
          x ∈ (s.getCluster cl).kvtb ∧
            x.named (s.cmdPart c) c.seqAddr.toNat (c.word 2).toNat (c.word 3).toNat = false }
      else none
  | .rpscanExecution core k =>
    if c.kind = .rpscan then
      if c.started then some (writeContract (fun s => (s.getCore core).rpQ) core k c wid)
      else some
        { pre := fun s => KvTurn s (s.getCore core).rpQ core k c wid ∧ s.heldLine c = false ∧
            ∃ u x, s.getTeam? c.team = some u ∧ Scans s c (u.recall c) x
          post := fun s t => ∀ u x, s.getTeam? c.team = some u → Scans s c (u.recall c) x →
            GoesOn s t (fun s => (s.getCore core).rpQ)
              { c with started := true, tasks := x.writes c (u.recall c) (x.sel s c (u.recall c)) } wid ∧ SameDies s t ∧
            { t with cores := s.cores, clusters := s.clusters, dies := s.dies } = s }
    else none
  | .rpdoneExecution core k =>
    if c.kind = .rpdone then
      if c.started then some (writeContract (fun s => (s.getCore core).kvQ) core k c wid)
      else some
        { pre := fun s => KvTurn s (s.getCore core).kvQ core k c wid ∧ s.heldLine c = false ∧
            ∃ tptr nent ntok b ent idx, Repairs s c tptr nent ntok b ent idx
          post := fun s t => ∀ tptr nent ntok b ent idx, Repairs s c tptr nent ntok b ent idx →
            GoesOn s t (fun s => (s.getCore core).kvQ) { c with
              started := true
              tasks := (idx.filter fun i => (ent i).state == 2).map fun i => .entry ((parseDesc tptr b).entryAt i) i
                (repaired (parseDesc tptr b).layers ((c.word 2).toNat % 2 ^ 8) (ent i)) } wid ∧ SameDies s t ∧
            { t with cores := s.cores, clusters := s.clusters, dies := s.dies } = s }
    else none
  | _ => none

end Sys2Proof.Claim
end

