-- ==== Sys2Proof/Certificates/Slice0/Obligations.lean ====
section
/-! DEFINITION. The statements made about the machine, in the terms of Sys2Proof/Claims. -/

open Sys2Proof Sys2Proof.Machine Sys2Proof.Claim

/-! ## Encoding (spec/02) -/

/-- Words written out from the encoding tables decode to the instructions they stand for: some of each form of R44 and of
R42 (`Sys2Proof/Tests/Slice0.lean` has more). -/
def Obligations.WordsDecode : Prop :=
  decodeTableWord 16 0x2944 = some (.add16 false 5 5) ∧
  decodeTableWord 32 0x20C8_0901 = some (.mulW ⟨0, false⟩ 2 8 3) ∧
  decodeTableWord 32 0x20C8_2101 = some (.mulW ⟨0, false⟩ 8 8 3) ∧
  decodeTableWord 32 0x500F_0001 = some (.ret ⟨0, false⟩ 15) ∧
  decodeTableWord 32 0x0000_1011 = some (.bra ⟨0, false⟩ 4) ∧
  decodeTableWord 32 0x0440_0091 = some (.sysImm ⟨0, false⟩ 17) ∧
  decodeTableWord 32 0x0887_16D1 = some (.st ⟨0, false⟩ 5 7 2 2 0)

/-- Every well-formed instruction that has an encoding is decoded from it, with every operand, and with its length (R33,
R41-R47). -/
def Obligations.EncodedDecodes : Prop :=
  ∀ i n w, i.wf = true → i.encode = some (n, w) →
    decodeBytes (leBytes n w) = .ok (i, n) ∧ decodeTableWord (8 * n) w = some i

/-- A word that decodes is the encoding of what it decodes to, which is well-formed: no bit of a word is ignored, and each
word has one meaning (R45-R48). -/
def Obligations.DecodedEncodes : Prop :=
  ∀ bs i n, decodeBytes bs = .ok (i, n) → i.wf = true ∧ i.encode = some (n, leNat (bs.take n))

/-! ## Steps, reset, memory -/

/-- A step executes the instruction that stands before the gang whose turn it is, in the state in which the gang issues: the
one that it has not issued yet, one fetched ahead or in a loop buffer, or the one at its program counter (R33, R34, R36, R49,
R116, R410; log 3); a word that is no instruction, or none on that core, is UNIMP (R30, R48). Where the gang's instruction has
issued and what it waited for has come about, the step executes what is left of it (log 42). -/
def Obligations.StepRunsDecoded : Prop :=
  (∀ s rest wid g x u, Issues s rest wid g → comes (atIssue s rest wid g) wid g = some (x, u) → Whole x →
    Unheld (atIssue s rest wid g) wid g x →
      (∀ i n, decodeBytes (bytesOf x) = .ok (i, n) →
        step s = exec (hostedBy wid i (bytesOf x)) (running (atIssue s rest wid g) u wid g x)) ∧
      ∀ e, decodeBytes (bytesOf x) = .error e → step s = exec (.unimp x.1) (running (atIssue s rest wid g) u wid g x)) ∧
  ∀ s rest wid g x i n, Ends s rest wid g → (State.gangOf ((atEnd s rest wid).getWarp wid) g).held = some x → Whole x →
    decodeBytes (bytesOf x) = .ok (i, n) → step s = exec (hostedBy wid i (bytesOf x)) (ending (atEnd s rest wid) wid g x)

/-- The turn of an event executes it; in an idle turn time passes (log 3: the model's own turns). An idle turn, and some
events, may fall amid the writes of RPSCAN and RPDONE (R364, R387, R390; log 12). -/
def Obligations.StepRunsEvents : Prop :=
  (∀ s rest i, s.agenda = .event i :: rest → i.isEvent = true → step s = exec i (atEvent s rest i)) ∧
  ∀ s rest n, s.agenda = .idle n :: rest → step s = .next (({ s with agenda := rest } : State).between.tick n)

/-- After reset nothing is resident; every counter is DONE with GEN 0 (R394); no queue is enabled, and no partition holds a
queue, a counter, a core, a window of memory or a save pool (R469, R475); every cluster is powered, clocked and open (R450); no core is stopped (R130); no
management core runs (R448). -/
def Obligations.ResetState : Prop :=
  State.reset.warps = [] ∧ State.reset.teams = [] ∧ State.reset.launches = [] ∧
  (∀ c, (State.reset.getCounter c).done = true ∧ (State.reset.getCounter c).gen = 0 ∧
    (State.reset.getCounter c).open' = 0 ∧ (State.reset.getCounter c).sealed = false ∧
    (State.reset.getCounter c).cancelled = false ∧ (State.reset.getCounter c).error = false ∧
    (State.reset.getCounter c).parent = none ∧ (State.reset.getCounter c).level = 0) ∧
  (∀ q, (State.reset.getQueue q).enable = false) ∧
  (∀ p q, (State.reset.getPart p).holdsQueue q = false ∧ (State.reset.getPart p).holdsCounter q = false ∧
    (State.reset.getPart p).holdsCore q = false ∧ (State.reset.getPart p).winSize.get q 0 = 0 ∧
    (State.reset.getPart p).winBase.get q 0 = 0 ∧ (State.reset.getPart p).saveBase = 0 ∧
    (State.reset.getPart p).saveSize = 0) ∧
  (∀ c, (State.reset.getCluster c).good = true ∧ (State.reset.getCluster c).railOff = false ∧
    (State.reset.getCluster c).gate = false ∧ (State.reset.getCluster c).req = false) ∧
  (∀ c, (State.reset.getCore c).snap = false ∧ (State.reset.getCore c).fatal = false ∧
    (State.reset.getCore c).brkstop = false) ∧
  ∀ d, (State.reset.getDie d).mgRun = false

/-- Memory after reset is in canonical form (log 2). -/
def Obligations.ResetMemory : Prop := Memory.wf State.reset.mem = true

/-- Every step keeps memory in canonical form: addresses strictly rise, and no listed byte is what an unlisted one reads
as, so that equal memories are equal data. -/
def Obligations.StepKeepsMemory : Prop := ∀ s t, Memory.wf s.mem = true → step s = .next t → Memory.wf t.mem = true

/-! ## Register results (spec/06, 07, 08): `Claim.Does` gives the results, completion and the frame -/

/-- ADD, SUB, MUL, MULH, MAD, ADDS, SUBS, ABSD, DP4, DIV, REM, ADDI, MULI and the 16-bit forms (R156, R157, R163), with the
traps of R156 and R157: BANKV, and IDIV0 in the lanes that divide by zero when FMT.IDZ is 1. -/
def Obligations.IntegerResults : Prop :=
  (∀ i s e, iarEffect i s = some e → Ready s → (Allowed s e → Does i s e) ∧ BankTraps i s e) ∧
  ∀ i s d a b f, divWord i = some (d, a, b, f) → Ready s →
    (zeroLanes s b.toNat = 0 ∨ s.fmt.getLsbD 16 = false →
      (Allowed s (word2 s d.toNat a.toNat b.toNat f) → Does i s (word2 s d.toNat a.toNat b.toNat f)) ∧
      BankTraps i s (word2 s d.toNat a.toNat b.toNat f)) ∧
    (zeroLanes s b.toNat ≠ 0 → s.fmt.getLsbD 16 = true → Takes s →
      Traps i s { precise s cIDIV0 with flanes := zeroLanes s b.toNat })

/-- Logic, shifts, minimum, maximum, bit counts, and the bit fields and byte permutation of R160, with their immediate and
16-bit forms (R158, R163), and BANKV. -/
def Obligations.LogicResults : Prop :=
  ∀ i s e, (ilgEffect i s <|> bitfEffect i s) = some e → Ready s → (Allowed s e → Does i s e) ∧ BankTraps i s e

/-- The 64-bit operations on pairs (R153, R162). -/
def Obligations.PairResults : Prop := ∀ i s e, i64Effect i s = some e → Ready s → Allowed s e → Does i s e

/-- The shapes of R70 and R71: a sum, difference, product or shift of uniform and affine sources under a full mask, in its word,
immediate and 16-bit forms, MAD, and MOV and the affine special values are affine, in exactly that form. -/
def Obligations.AffineShapes : Prop :=
  ∀ i s d x, affineResult i s = some (d, x) → Ready s → s.act = s.present →
    ∃ t, exec i s = .next t ∧ reg t d = x ∧ Keeps s t [s.dst d]

/-- Compares and predicate logic, SEL, PTOW and WTOP (R152, R164-R170). -/
def Obligations.PredicateResults : Prop := ∀ i s e, predEffect i s = some e → Ready s → Allowed s e → Does i s e

/-- SHFL and VOTE, tile by tile (R168-R171). -/
def Obligations.ShuffleResults : Prop := ∀ i s e, shuffleEffect i s = some e → Ready s → Allowed s e → Does i s e

/-- RED and SCAN: the tree of R172 and the serial sums of R173 over the active lanes of each tile. -/
def Obligations.ReduceResults : Prop :=
  ∀ i s e, (redEffect i s <|> scanEffect i s) = some e → Ready s → Allowed s e → Does i s e

/-- The FP32, 16-bit and H2 arithmetic (R207-R213). -/
def Obligations.FloatResults : Prop :=
  ∀ i s e, (fp32Effect i s <|> h2Effect i s) = some e → Ready s → Allowed s e → Does i s e

/-- The FP64 arithmetic on pairs (R207-R211). -/
def Obligations.DoubleResults : Prop := ∀ i s e, fp64Effect i s = some e → Ready s → Allowed s e → Does i s e

/-- FCVT and FCMP (R215, R217). -/
def Obligations.ConvertResults : Prop :=
  ∀ i s e, (fcvtEffect i s <|> fcmpEffect i s) = some e → Ready s → Allowed s e → Does i s e

/-- The special functions (R219): what `sfu` gives where the rule fixes the value; elsewhere it is within the error bound by
a free value (log 10). -/
def Obligations.SpecialFunctionResults : Prop := ∀ i s e, sfuEffect i s = some e → Ready s → Allowed s e → Does i s e

/-- Moves between registers, immediates, base and special registers, and shape queries (R76-R86, R96). -/
def Obligations.MoveResults : Prop := ∀ i s e, moveEffect i s = some e → Ready s → Allowed s e → Does i s e

/-- The FPX trap of R203: it names exactly the active lanes that raise an enabled exception, and what they raise; without
one every result is written. -/
def Obligations.FpxTraps : Prop :=
  ∀ i s e, floatEffect i s = some e → Ready s →
    (raising s e ≠ [] → Takes s → Traps i s (fpx s e)) ∧ (raising s e = [] → s.w.hm = false → Does i s e)

/-! ## Shapes, control flow, traps (spec/03, 04, 05, 19) -/

/-- SHAS, SHF, WIDEN, MOVB.TO, PART, ROLE and SFMT (R81, R88, R90, R92-R96). -/
def Obligations.ShapeEffects : Prop := ∀ i c s, shapeContract i = some c → Ready s → Fulfils i s c

/-- Branches, calls, loops and returns of a whole gang (R106, R107, R111-R123). That a BRC whose lanes disagree counts as not
taken where its target is the next address, in a handler too, is the model's choice (log 64). -/
def Obligations.TransferEffects : Prop := ∀ i c s, transferContract i = some c → Ready s → Fulfils i s c

/-- BRA, RET, LOOPX and NOP as their rules say, with their encodings (R106, R115, R121, R123). -/
def Obligations.BranchRules : Prop :=
  (∀ (h : Hdr) (o : BitVec 22) s, (Instr.bra h o).encode = some (4, h.nat + 0x10 + 1024 * o.toNat) ∧
    (Ready s → ∃ t, exec (.bra h o) s = .next t ∧ Jumps s t (s.cur.pc + BitVec.ofInt 64 (2 * o.toInt)) [])) ∧
  (∀ (h : Hdr) (a : BitVec 6) s, (Instr.ret h a).encode = some (4, h.nat + 0x5000_0000 + 65536 * a.toNat) ∧
    (Instr.ret h a).wf = decide (a.toNat < 16) ∧
    (Ready s → (base s a.toNat).getLsbD 0 = false → ∃ t, exec (.ret h a) s = .next t ∧ Jumps s t (base s a.toNat) []) ∧
    (Ready s → (base s a.toNat).getLsbD 0 = true → Takes s →
      Traps (.ret h a) s { precise s cALIGN with faddr := base s a.toNat })) ∧
  (∀ (h : Hdr) s, (Instr.loopx h).encode = some (4, h.nat + 0x3000_0000) ∧
    (Ready s → ∃ t, exec (.loopx h) s = .next t ∧ KeepsTo s t [] ((loopTest s.cur.pc s.gang.loops.tail).2.getD s.seqPc)
      (loopTest s.cur.pc s.gang.loops.tail).1)) ∧
  ∀ (h : Hdr) s, (Instr.nop h).encode = some (4, h.nat) ∧
    (Ready s → ∃ t, exec (.nop h) s = .next t ∧ Keeps s t [] ∧ t.w.nextIssue = s.now + h.gap.toNat + 1 ∧
      t.w.count = if h.sw = true ∨ 23 ≤ s.w.count then 0 else s.w.count + 1)

/-- SPLIT, JOIN, REGANG of one gang, and EXIT (R102, R103, R108-R110, R122). That EXIT in a handler does what it does outside
one is the model's reading (log 55). -/
def Obligations.PathEffects : Prop := ∀ i c s, pathContract i = some c → Ready s → Fulfils i s c

/-- A BRC whose lanes disagree, and a BRX whose lanes have different targets, send each lane to its own target, through new
gangs and deferred entries (R100, R107, R120); with no room for them they raise DIVSTK. -/
def Obligations.BrcDiverges : Prop :=
  (∀ h (a : BitVec 6) (o : BitVec 16) s f, Ready s → laneTargets s a.toNat (away s o.toInt) = some f →
    (CanScatter s f → ∃ t, exec (.brx h a o) s = .next t ∧ Scattered s t f) ∧
    (Takes s → (∃ i j, active s i = true ∧ active s j = true ∧ f i ≠ f j) → LacksRoom s f →
      Traps (.brx h a o) s (precise s cDIVSTK))) ∧
  ∀ h p n o s, Ready s →
    (CanDiverge s p n o → ∃ t, exec (.brc h p n o) s = .next t ∧ Diverged s t p n o) ∧
    (Takes s → someTake s p n = true → someFall s p n = true → away s o.toInt ≠ s.seqPc →
      ((∃ j < 16, takers s p n true j = true ∧ takers s p n false j = true ∧ 8 ≤ (s.w.slice j).stack.length) ∨
        ((∃ j < 16, takers s p n true j = true ∧ takers s p n false j = false) ∧
          ∀ e < 16, s.w.gangs.find? e ≠ none)) →
      Traps (.brc h p n o) s (precise s cDIVSTK))

/-- UNIMP, TRAP, SYS, BRK, RTRAP, handler instructions, TVEC, TMASK, SIGNAL, WFE, CKPT and PREQ (R31, R48, R131-R149, R422,
R431, R446, R467). It is the model's choice that GETX and SETX accept a poisoned index (log 27), that SIGNAL of 0 takes its
place in the store queue as any other (log 40), that an instruction that waits has issued when its wait begins (log 42), and
that CKPT makes the loop end test before it parks (log 50). -/
def Obligations.SystemEffects : Prop := ∀ i c s, systemContract i = some c → Ready s → Fulfils i s c

/-- BRK is NOP when TMASK bit 1 is 1, else it stops its core at PC + 4 when CDBG.BRKSTOP is 1, else it raises BRK with resume
PC PC + 4 (R138). TSET sets the resume PC in a handler, and traps otherwise (R144). -/
def Obligations.BrkAndTset : Prop :=
  (∀ h s, Ready s → (∀ e ∈ s.w.storeQ, State.isAtom e = false) →
    (s.w.tmask.getLsbD 1 = true → ∃ t, exec (.brk h) s = .next t ∧ Keeps s t []) ∧
    (s.w.tmask.getLsbD 1 = false → isMgmt s.cur.wid = false → (s.getCore (coreOf s.cur.wid)).brkstop = true →
      ∃ t, exec (.brk h) s = .next t ∧ (t.getCore (coreOf s.cur.wid)).snap = true ∧ SameRegs s t [] ∧
        t.gang.pc = nextPc s) ∧
    (s.w.tmask.getLsbD 1 = false → (isMgmt s.cur.wid = true ∨ (s.getCore (coreOf s.cur.wid)).brkstop = false) →
      (Takes s → s.cur.len = 4 → Traps (.brk h) s { precise s cBRK with skip := 4 }) ∧
      (Routes s → s.cur.len = 4 → RoutedTo (.brk h) s { precise s cBRK with skip := 4 }))) ∧
  ∀ h (a : BitVec 6) s, (Instr.tset h a).encode = some (4, h.nat + 0x3000_00A0 + 65536 * a.toNat) ∧
    (Instr.tset h a).wf = decide (a.toNat % 2 = 0) ∧
    (Ready s →
      (Takes s → Traps (.tset h a) s (precise s cPERM)) ∧
      (s.w.hm = true → Routes s →
        ((reg s a.toNat).isU = false ∨ (reg s (a.toNat + 1)).isU = false → RoutedTo (.tset h a) s (precise s cSHAPE)) ∧
        ((reg s a.toNat).isU = true → (reg s (a.toNat + 1)).isU = true →
          poison2 s a.toNat 0 = true → RoutedTo (.tset h a) s (precise s cPOISON)) ∧
        (Uniform2 s a.toNat → (dword s a.toNat 0).getLsbD 0 = true →
          RoutedTo (.tset h a) s { precise s cALIGN with faddr := dword s a.toNat 0 })) ∧
      (s.w.hm = true → Uniform2 s a.toNat → (dword s a.toNat 0).getLsbD 0 = false →
        ∃ t, exec (.tset h a) s = .next t ∧ t.w.trap = { s.w.trap with resume := dword s a.toNat 0 } ∧
          KeepsBut s t fun w => { w with trap := s.w.trap }))

/-- An operand that must be uniform raises SHAPE when it is not and POISON when it is poisoned, the vector of TVEC raises
ALIGN when it is odd, and SHAS raises SHAPE when its register is wider than it asks (R70, R72, R88, R125, R140). -/
def Obligations.OperandTraps : Prop :=
  (∀ i s ns, uniformSrcs i = some ns → Ready s → Takes s → UniformTraps i s ns) ∧
  (∀ h (a b : BitVec 6) s, Ready s → Takes s → Wider s a.toNat b.toNat → Traps (.shas h a b) s (precise s cSHAPE)) ∧
  ∀ h (a : BitVec 6) s, Ready s → Takes s → Uniform2 s a.toNat → (dword s a.toNat 0).getLsbD 0 = true →
    Traps (.tvec h a) s { precise s cALIGN with faddr := dword s a.toNat 0 }

/-- Outside handler mode the handler instructions raise PERM, and change nothing else (R132). -/
def Obligations.HandlerOnlyTraps : Prop :=
  ∀ i s, handlerOnly i = true → Ready s → Takes s → Traps i s (precise s cPERM)

/-- Routing (R131-R133): in handler mode, or without a handler, UNIMP and TRAP park the warp with a record; so do a V value
for the trap bank (BANKV), a divisor of zero (IDIV0), an enabled floating-point exception (FPX), and an address that is not
aligned (ALIGN); SPLIT, JOIN and REGANG raise DIVSTK in handler mode. -/
def Obligations.RoutedTraps : Prop :=
  (∀ i s c, ownTrap i s = some c → Ready s → Routes s → RoutedTo i s c) ∧
  (∀ i s d a b f, divWord i = some (d, a, b, f) → Ready s → Routes s → zeroLanes s b.toNat ≠ 0 →
    s.fmt.getLsbD 16 = true → RoutedTo i s { precise s cIDIV0 with flanes := zeroLanes s b.toNat }) ∧
  (∀ i s e, floatEffect i s = some e → Ready s → Routes s → raising s e ≠ [] → RoutedTo i s (fpx s e)) ∧
  (∀ h (a : BitVec 6) s, Ready s → Routes s →
    ((base s a.toNat).getLsbD 0 = true → RoutedTo (.ret h a) s { precise s cALIGN with faddr := base s a.toNat }) ∧
    (Uniform2 s a.toNat → (dword s a.toNat 0).getLsbD 0 = true →
      RoutedTo (.tvec h a) s { precise s cALIGN with faddr := dword s a.toNat 0 })) ∧
  (∀ i s need n b o data, accessOf i = some (need, n, b, o, data) → Ready s → Routes s → AlignRoutes i s n b o data) ∧
  (∀ i s, pathOnly i = true → Ready s → Routes s → s.w.hm = true → RoutedTo i s (precise s cDIVSTK)) ∧
  ∀ h (d a : BitVec 6) s, Ready s → Routes s → s.w.hm = true → 56 ≤ d.toNat → (reg s a.toNat).isV = true →
    s.act = s.present → RoutedTo (.mov h d a) s (precise s cBANKV)

/-- GBAR, GBARA and GBARW raise PERM in handler mode; on a management core their words are UNIMP (R419, R30). -/
def Obligations.GridBarrierRefused : Prop :=
  ∀ h (d a : BitVec 6),
    (∀ s, Ready s → Routes s → s.w.hm = true →
      RoutedTo (.gbar h) s (precise s cPERM) ∧ RoutedTo (.gbara h d) s (precise s cPERM) ∧
        RoutedTo (.gbarw h a) s (precise s cPERM)) ∧
    ∀ wid i, isMgmt wid = true → (i = .gbar h ∨ i = .gbara h d ∨ i = .gbarw h a) → ∃ n,
      i.encode = some (4, n) ∧ hostedBy wid i (leBytes 4 n) = .unimp (BitVec.ofNat 32 n)

/-! ## Memory and asynchronous work (spec/09-17) -/

/-- Loads, stores, atomics, fences and cache maintenance (R221-R236, R247-R271). An atomic with an acquire is performed and
gives its results at once; any other, and ATOMSP, is queued (`StoreQueue` says what it does then). It is the model's choice
that a load reads when it issues (log 15), that PREF fetches every line it names (log 30), and that a store whose offset is U
is one store, of the highest lane (log 41). -/
def Obligations.MemoryEffects : Prop := ∀ i c s, memoryContract i = some c → Ready s → Fulfils i s c

/-- LD and ST stop before they change anything: POISON, ALIGN, and XLATE or PROT with the lowest failing lane's code and
address, naming every lane that fails (R125, R223, R227). -/
def Obligations.AccessFaults : Prop :=
  ∀ i s need n b o data, accessOf i = some (need, n, b, o, data) → Ready s → AccessStops i s need n b o data

/-- A value that needs a row which can never be given raises VROW (R178, R182). -/
def Obligations.RowTraps : Prop :=
  ∀ h (d a : BitVec 6) s, Settled s → Takes s → NoRow s d.toNat → (reg s a.toNat).isV = true → s.act = s.present →
    Traps (.mov h d a) s (precise s cVROW)

/-- A management core's loads and stores of the registers in its window (R448, R449), what each register reads, and what
writing it does (R450, R451, R130, R191, R428). -/
def Obligations.WindowEffects : Prop :=
  (∀ i c s, windowContract i = some c → Ready s → Fulfils i s c) ∧ (∀ s, WindowReads s) ∧ ∀ s v, WindowWrites s v

/-- Tag tables (R240-R246). -/
def Obligations.TagEffects : Prop := ∀ i c s, tagContract i = some c → Ready s → Fulfils i s c

/-- Tile barriers, WAITC and guards (R289, R293-R307), with their waits. The scopes of WAITC's acquire, PKG for class 3 and DIE
for the others, are the model's choice (log 29), and so is that an instruction that waits has issued when its wait begins
(log 42). -/
def Obligations.BarrierEffects : Prop := ∀ i c s, barrierContract i = some c → Ready s → Fulfils i s c

/-- Grid barriers, waits on counters, cancel, device-side launch, PREQ.YIELD (R399-R421, R446). What the counter of a refused
record holds is the model's choice (log 47). -/
def Obligations.GridEffects : Prop := ∀ i c s, gridContract i = some c → Ready s → Fulfils i s c

/-- Instructions of the engines that act at once (R314, R331, R346, R347). -/
def Obligations.EngineSyncEffects : Prop := ∀ i c s, engineContract i = some c → Ready s → Fulfils i s c

/-- An asynchronous command is accepted with everything as its instruction found it, and marks the words that it will write
(R232, R281, R291, R292); one whose guard is FALSE by then is discarded, and its barrier counts its arrival (R287, R294). -/
def Obligations.CommandsAccepted : Prop :=
  ∀ i s a, wants i s = some a → Ready s → Accepted s a →
    (¬ Dropped s a → ∃ t, exec i s = .next t ∧ Accepts s t a) ∧
    (Dropped s a → Stands s → ∃ t, exec i s = .next t ∧ Discards s t a)

/-- What the copy engine, the transform pipe, the KV unit and the repair engine do (spec/12, 14, 15, 16): KVG gathers row by
row, RPSCAN picks its tokens and RPDONE ends its repairs entry by entry; a command of the transform pipe begins, and its writes are
made by the time its cycles are over. The parts of a command (log 12), the
readings of the transform pipe's rules (log 44) and those of the KV and repair rules (log 45) are the model's choice. -/
def Obligations.CommandsExecute : Prop :=
  (∀ i c wid k s, executionContract i c wid = some k → Fulfils i s k) ∧
  ∀ i c wid k s, tableContract i c wid = some k → Fulfils i s k

/-- Passes of the matrix engine, one K-step a turn, with the words that MXDRAIN stores (R330); aging and completion
(R322-R330). -/
def Obligations.MatrixPasses : Prop := ∀ i c wid k s, matrixContract i c wid = some k → Fulfils i s k

/-- One K-step updates each word of the tile rows of the used quarters with its row of A and its column of B, from zero at
step 0 of a zeroing loop, and no other word (R309, R312, R316-R320). -/
def Obligations.MatrixStep : Prop :=
  ∀ (c : Cmd) (zero : Bool) (k : Nat) (u : Team) (cols : List (Nat × Team)) (x : BankSlice),
    (cols.map (·.1)).Nodup → (∀ p ∈ cols, p.1 < 4) →
    let y := c.stepSlice zero k u cols x
    let f := zero && k == 0
    if mxClass (cfgA c.cfg) = 4 then
      (∀ i j q v, i < 8 → j < 8 → (q, v) ∈ cols →
        let n := 2 * (32 * i + 8 * q + j)
        y.dword n = mxUpdateF64 (if f then 0 else x.dword n)
          ((fourDoubles u (c.aPlace k i)).zip (fourDoubles v (c.bPlace k j)))) ∧
      ∀ n, (∀ i j q v, i < 8 → j < 8 → (q, v) ∈ cols → n / 2 ≠ 32 * i + 8 * q + j) → y.word n = x.word n
    else
      (∀ i j q v, i < 32 → j < 32 → (q, v) ∈ cols →
        let n := 128 * i + 32 * q + j
        let pairs := (c.aRow u k i).map fun a => (a.2, (c.bCol v k j).getD a.1 (.bad 1))
        y.word n = if mxClass (cfgA c.cfg) = 2 then mxUpdateInt (if f then 0 else x.word n) (cfgSat c.cfg) pairs
          else mxUpdate (if f then 0 else x.word n) c.mxScale pairs) ∧
      ∀ n, (∀ i j q v, i < 32 → j < 32 → (q, v) ∈ cols → n ≠ 128 * i + 32 * q + j) → y.word n = x.word n

/-! ## Events (spec/03, 10, 18-21) -/

/-- Results, rows, timers, boosts and drowsy banks (R37-R40, R141, R178-R190, R410, R411): of the cycles since a gang became
ready only those count in which its role was not withheld. When TIMER becomes pending, that every bank is awake after reset,
which stands let a bank become drowsy, and the scale on which ages are kept are the model's choice (logs 31, 37, 38, 39). -/
def Obligations.IssueEvents : Prop :=
  (∀ i c s, issueContract i = some c → Fulfils i s c) ∧ ∀ s, CountsUnheld s

/-- Stores performed, write-backs, dropped items, page shoot-downs (R224, R251-R263, R272, R365). That a release store is performed at its
home is the model's choice (log 16). -/
def Obligations.StoreEvents : Prop := ∀ i c s, storeContract i = some c → Fulfils i s c

/-- LAUNCH, OPEN and SEAL records (R391-R400). What the counter of a refused record holds, and by what access a kernel's header
is read, are the model's choice (logs 47, 48). -/
def Obligations.RecordEvents : Prop := ∀ i c s, recordContract i = some c → Fulfils i s c

/-- Placement, with every register, guard, barrier and tag of the team as at launch (R60, R98, R230, R294, R300), and the ends
of cancelled teams (R402, R405-R409). -/
def Obligations.PlacementEvents : Prop := ∀ i c s, placeContract i = some c → Fulfils i s c

/-- Requests to give way, and the saves and restores of teams (R408, R425-R445). What of a warp an image holds beyond the
rules' lists, and where it lies, are the model's choice (log 13). -/
def Obligations.PreemptionEvents : Prop :=
  (∀ i c s, requestContract i = some c → Fulfils i s c) ∧ ∀ i c s, saveContract i = some c → Fulfils i s c

/-- The power budget, refills, lending and the clocks (R451-R461): at an epoch boundary each quadrant's clock rises or falls as
R458 says. How parts of the pool and of a recall are rounded is the model's choice (log 53). -/
def Obligations.BudgetEvents : Prop :=
  (∀ i c s, budgetContract i = some c → Fulfils i s c) ∧ ∀ i c s, lendingContract i = some c → Fulfils i s c

/-- Closing, gating, saving and waking clusters (R462-R468): a source that fires is latched when its cycle is over, and DEMAND
fires once for a team of the partition that finds no place (R465; once: log 74). -/
def Obligations.GatingEvents : Prop :=
  (∀ i c s, gatingContract i = some c → Fulfils i s c) ∧ (∀ i c s, wakeContract i = some c → Fulfils i s c) ∧
    (∀ s cl src at', LatchesWakes s cl src at') ∧
    ∀ s cl k, s.clusters.keys.Nodup → s.clusters.find? cl = some k → k.gate = true → k.arm.getLsbD 0 = true → DemandFires s cl k

/-- Queue registers and interrupt causes (R469-R472). -/
def Obligations.QueueEvents : Prop := ∀ i c s, queueContract i = some c → Fulfils i s c

/-- Answers of the system handler (R133, R473). -/
def Obligations.AnswerEvents : Prop := ∀ i c s, answerContract i = some c → Fulfils i s c

/-- Partition control (R427, R475): SWITCH asks every resident team of the partition, in turn, to give way; RESUME lets the held
ones be placed. Both writes are taken in every state. -/
def Obligations.PartitionEvents : Prop := ∀ i c s, partContract i = some c → Fulfils i s c

/-- Firmware, attestation, code objects (R478-R483). Where an image is placed and entered, the bytes of a configuration and the
origin of a relocation table's offset, that an object whose header does not fit it is not bound, and by what access the
heartbeat is written are the model's choice (logs 33, 34, 48, 52). -/
def Obligations.LoadEvents : Prop := ∀ i c s, loadContract i = some c → Fulfils i s c

/-- Errors, links, debugging, telemetry, core reset (R127, R130, R134, R477, R484-R487). Which gang a record of FATAL names and
what the error word of a killed team holds are the model's choice (log 35); the sub-code and address of an engine operation's
error are free values (log 68). -/
def Obligations.ContainmentEvents : Prop := ∀ i c s, containContract i = some c → Fulfils i s c

/-- Accesses of the host and of peers, and power-up (R274, R394, R450, R474, R476). What power-up keeps, and that die caches keep
their copies of what an outside access changes, are the model's choice (logs 60, 61). -/
def Obligations.OutsideEvents : Prop := ∀ i c s, outsideContract i = some c → Fulfils i s c

/-- A register write that is an event is that event, one of the firmware's window while firmware runs, and so is an answer in
FREPLY to a record that is outstanding; a write to another register of a virtual function changes its field and nothing else;
every write completes (R449, R470, R473-R475). What bits below an alignment read, and what a write of an odd size does, are the
model's choice (logs 56, 57). -/
def Obligations.RegisterWrites : Prop :=
  (∀ r off v i s, WriteIs r off v i → (r = .window → FirmwareRuns s) → exec (.registerWrite r off 4 v) s = exec i s) ∧
  (∀ p v i s, FreplyIs p ((loWord v).extractLsb' 0 16).toNat (loWord v) i →
    (s.faultIn p ((loWord v).extractLsb' 0 16).toNat).isSome = true →
    exec (.registerWrite (.vf p) 0x24 4 v) s = exec i (s.modPart p fun b => { b with freply := loWord v })) ∧
  (∀ p off v x s, vfWrite (s.getPart p) off (loWord v) = some x →
    ∃ t, exec (.registerWrite (.vf p) off 4 v) s = .next t ∧ OnlyPart s t p x) ∧
  ∀ r off size v s, ∃ t, exec (.registerWrite r off size v) s = .next t

/-! ## The store queue and the scratchpad (spec/09, spec/10) -/

/-- What the oldest entry of a warp's store queue does when it leaves: stores and maintenance enter the core order or are
performed, queued atomics are performed in lane order and fill their results, FENCE.REL and SIGNAL release (R149, R231, R239,
R255, R260, R264-R271). When it leaves is the model's own turn (log 3); that a release is performed at its home is log 16. -/
def Obligations.StoreQueue : Prop :=
  (∀ s rest wid, s.agenda = .drain wid :: rest → step s = .next ((atTurn s rest).drainOne wid)) ∧ ∀ s wid, Leaves s wid

/-- A scratchpad word as LDSP and PTEST read it: pending, it is 0 with poison; else it holds the newest bytes before the load,
and the poison that no later whole store has ended (R232, R237, R255). -/
def Obligations.ScratchpadReads : Prop :=
  ∀ s wid team w u, s.getTeam? team = some u → ReadsWord s wid team w u
end

