-- ==== Sys2Proof/Laws/Maps.lean ====
section
/-! SUPPORT. Sparse maps: reading after writing, and their canonical form. -/

namespace Sys2Proof.SMap

variable {α : Type}

/-- Every index of a map is above a bound. -/
def above (k : Nat) (m : SMap α) : Prop := ∀ e ∈ m, k < e.1

/-- The canonical form: indices strictly rising. -/
def sorted : SMap α → Prop
  | [] => True
  | (k, _) :: rest => above k rest ∧ sorted rest

@[simp] theorem find?_nil (k : Nat) : find? ([] : SMap α) k = none := rfl

@[simp] theorem find?_set_same (m : SMap α) (k : Nat) (a : α) : find? (set m k a) k = some a := by
  induction m with
  | nil => simp [set, find?]
  | cons e rest ih =>
    obtain ⟨j, b⟩ := e
    unfold set
    split
    · simp [find?]
    · split
      · simp [find?]
      · rename_i h1 h2; simp [find?, h2, ih]

@[simp] theorem find?_set_other (m : SMap α) {k i : Nat} (a : α) (h : k ≠ i) : find? (set m k a) i = find? m i := by
  induction m with
  | nil => simp [set, find?, h]
  | cons e rest ih =>
    obtain ⟨j, b⟩ := e
    unfold set
    split
    · simp [find?, h]
    · split
      · rename_i h1 h2; subst h2; simp [find?, h]
      · simp [find?, ih]

@[simp] theorem get_set_same (m : SMap α) (k : Nat) (a d : α) : get (set m k a) k d = a := by simp [get]

@[simp] theorem get_set_other (m : SMap α) {k i : Nat} (a d : α) (h : k ≠ i) : get (set m k a) i d = get m i d := by
  simp [get, h]

theorem get_set (m : SMap α) (k i : Nat) (a d : α) : get (set m k a) i d = if k = i then a else get m i d := by
  split
  · rename_i h; subst h; simp
  · rename_i h; simp [h]

theorem find?_erase_same (m : SMap α) (k : Nat) : find? (erase m k) k = none := by
  induction m with
  | nil => rfl
  | cons e rest ih =>
    obtain ⟨j, b⟩ := e
    unfold erase
    split
    · exact ih
    · rename_i h; simp [find?, h, ih]

theorem find?_erase_other (m : SMap α) {k i : Nat} (h : k ≠ i) : find? (erase m k) i = find? m i := by
  induction m with
  | nil => rfl
  | cons e rest ih =>
    obtain ⟨j, b⟩ := e
    unfold erase
    split
    · rename_i hj; subst hj; simp [find?, h, ih]
    · simp [find?, ih]

theorem above_set {m : SMap α} {j k : Nat} {a : α} (h : above j m) (hk : j < k) : above j (set m k a) := by
  induction m with
  | nil => intro e he; simp [set] at he; subst he; exact hk
  | cons e rest ih =>
    obtain ⟨i, b⟩ := e
    have hi : j < i := h (i, b) (by simp)
    have hr : above j rest := fun x hx => h x (by simp [hx])
    unfold set
    split
    · intro x hx
      rcases List.mem_cons.1 hx with rfl | hx
      · exact hk
      · exact h x hx
    · split
      · intro x hx
        rcases List.mem_cons.1 hx with rfl | hx
        · exact hk
        · exact hr x hx
      · intro x hx
        rcases List.mem_cons.1 hx with rfl | hx
        · exact hi
        · exact ih hr x hx

/-- Writing keeps the canonical form. -/
theorem sorted_set {m : SMap α} (h : sorted m) (k : Nat) (a : α) : sorted (set m k a) := by
  induction m with
  | nil => simp [set, sorted, above]
  | cons e rest ih =>
    obtain ⟨j, b⟩ := e
    unfold set
    split
    · rename_i hk
      refine ⟨?_, h⟩
      intro x hx
      rcases List.mem_cons.1 hx with rfl | hx
      · exact hk
      · exact Nat.lt_trans hk (h.1 x hx)
    · split
      · rename_i h1 h2; subst h2; exact h
      · rename_i h1 h2
        exact ⟨above_set h.1 (by omega), ih h.2⟩

theorem above_erase {m : SMap α} {j k : Nat} (h : above j m) : above j (erase m k) := by
  induction m with
  | nil => exact h
  | cons e rest ih =>
    obtain ⟨i, b⟩ := e
    have hr : above j rest := fun x hx => h x (by simp [hx])
    unfold erase
    split
    · exact ih hr
    · intro x hx
      rcases List.mem_cons.1 hx with rfl | hx
      · exact h (i, b) (by simp)
      · exact ih hr x hx

/-- Erasing keeps the canonical form. -/
theorem sorted_erase {m : SMap α} (h : sorted m) (k : Nat) : sorted (erase m k) := by
  induction m with
  | nil => exact h
  | cons e rest ih =>
    obtain ⟨j, b⟩ := e
    unfold erase
    split
    · exact ih h.2
    · exact ⟨above_erase h.1, ih h.2⟩

/-- What an entry of a map with an index set, or with one erased, is. -/
theorem mem_set {m : SMap α} {k : Nat} {a : α} {e : Nat × α} (h : e ∈ set m k a) : e = (k, a) ∨ e ∈ m := by
  induction m with
  | nil => simpa [set] using h
  | cons x rest ih =>
    obtain ⟨j, b⟩ := x
    unfold set at h
    split at h
    · simpa using h
    · split at h
      · rcases List.mem_cons.1 h with h | h
        · exact .inl h
        · exact .inr (by simp [h])
      · rcases List.mem_cons.1 h with h | h
        · exact .inr (by simp [h])
        · rcases ih h with h | h
          · exact .inl h
          · exact .inr (by simp [h])

theorem mem_of_mem_erase {m : SMap α} {k : Nat} {e : Nat × α} (h : e ∈ erase m k) : e ∈ m := by
  induction m with
  | nil => exact h
  | cons x rest ih =>
    obtain ⟨j, b⟩ := x
    unfold erase at h
    split at h
    · exact List.mem_cons_of_mem _ (ih h)
    · rcases List.mem_cons.1 h with h | h
      · simp [h]
      · exact List.mem_cons_of_mem _ (ih h)

end Sys2Proof.SMap
end

