-- ==== Sys2Proof/Laws/State.lean ====
section
/-! SUPPORT. What each update of State leaves alone: one lemma per field per update, so that no proof unfolds a record
update. -/

namespace Sys2Proof.Machine

/-! `setWarp` -/
@[simp] theorem State.setWarp_teams (s : State) (i : Nat) (w : Warp) : (s.setWarp i w).teams = s.teams := rfl
@[simp] theorem State.setWarp_launches (s : State) (i : Nat) (w : Warp) : (s.setWarp i w).launches = s.launches := rfl
@[simp] theorem State.setWarp_crews (s : State) (i : Nat) (w : Warp) : (s.setWarp i w).crews = s.crews := rfl
@[simp] theorem State.setWarp_counters (s : State) (i : Nat) (w : Warp) : (s.setWarp i w).counters = s.counters := rfl
@[simp] theorem State.setWarp_queues (s : State) (i : Nat) (w : Warp) : (s.setWarp i w).queues = s.queues := rfl
@[simp] theorem State.setWarp_parts (s : State) (i : Nat) (w : Warp) : (s.setWarp i w).parts = s.parts := rfl
@[simp] theorem State.setWarp_cores (s : State) (i : Nat) (w : Warp) : (s.setWarp i w).cores = s.cores := rfl
@[simp] theorem State.setWarp_clusters (s : State) (i : Nat) (w : Warp) : (s.setWarp i w).clusters = s.clusters := rfl
@[simp] theorem State.setWarp_dies (s : State) (i : Nat) (w : Warp) : (s.setWarp i w).dies = s.dies := rfl
@[simp] theorem State.setWarp_host (s : State) (i : Nat) (w : Warp) : (s.setWarp i w).host = s.host := rfl
@[simp] theorem State.setWarp_pages (s : State) (i : Nat) (w : Warp) : (s.setWarp i w).pages = s.pages := rfl
@[simp] theorem State.setWarp_mem (s : State) (i : Nat) (w : Warp) : (s.setWarp i w).mem = s.mem := rfl
@[simp] theorem State.setWarp_poison (s : State) (i : Nat) (w : Warp) : (s.setWarp i w).poison = s.poison := rfl
@[simp] theorem State.setWarp_tags (s : State) (i : Nat) (w : Warp) : (s.setWarp i w).tags = s.tags := rfl
@[simp] theorem State.setWarp_now (s : State) (i : Nat) (w : Warp) : (s.setWarp i w).now = s.now := rfl
@[simp] theorem State.setWarp_gu (s : State) (i : Nat) (w : Warp) : (s.setWarp i w).gu = s.gu := rfl
@[simp] theorem State.setWarp_cur (s : State) (i : Nat) (w : Warp) : (s.setWarp i w).cur = s.cur := rfl
@[simp] theorem State.setWarp_agenda (s : State) (i : Nat) (w : Warp) : (s.setWarp i w).agenda = s.agenda := rfl
@[simp] theorem State.setWarp_fresh (s : State) (i : Nat) (w : Warp) : (s.setWarp i w).fresh = s.fresh := rfl

/-! `modWarp` -/
@[simp] theorem State.modWarp_teams (s : State) (i : Nat) (f : Warp → Warp) : (s.modWarp i f).teams = s.teams := rfl
@[simp] theorem State.modWarp_launches (s : State) (i : Nat) (f : Warp → Warp) : (s.modWarp i f).launches = s.launches := rfl
@[simp] theorem State.modWarp_crews (s : State) (i : Nat) (f : Warp → Warp) : (s.modWarp i f).crews = s.crews := rfl
@[simp] theorem State.modWarp_counters (s : State) (i : Nat) (f : Warp → Warp) : (s.modWarp i f).counters = s.counters := rfl
@[simp] theorem State.modWarp_queues (s : State) (i : Nat) (f : Warp → Warp) : (s.modWarp i f).queues = s.queues := rfl
@[simp] theorem State.modWarp_parts (s : State) (i : Nat) (f : Warp → Warp) : (s.modWarp i f).parts = s.parts := rfl
@[simp] theorem State.modWarp_cores (s : State) (i : Nat) (f : Warp → Warp) : (s.modWarp i f).cores = s.cores := rfl
@[simp] theorem State.modWarp_clusters (s : State) (i : Nat) (f : Warp → Warp) : (s.modWarp i f).clusters = s.clusters := rfl
@[simp] theorem State.modWarp_dies (s : State) (i : Nat) (f : Warp → Warp) : (s.modWarp i f).dies = s.dies := rfl
@[simp] theorem State.modWarp_host (s : State) (i : Nat) (f : Warp → Warp) : (s.modWarp i f).host = s.host := rfl
@[simp] theorem State.modWarp_pages (s : State) (i : Nat) (f : Warp → Warp) : (s.modWarp i f).pages = s.pages := rfl
@[simp] theorem State.modWarp_mem (s : State) (i : Nat) (f : Warp → Warp) : (s.modWarp i f).mem = s.mem := rfl
@[simp] theorem State.modWarp_poison (s : State) (i : Nat) (f : Warp → Warp) : (s.modWarp i f).poison = s.poison := rfl
@[simp] theorem State.modWarp_tags (s : State) (i : Nat) (f : Warp → Warp) : (s.modWarp i f).tags = s.tags := rfl
@[simp] theorem State.modWarp_now (s : State) (i : Nat) (f : Warp → Warp) : (s.modWarp i f).now = s.now := rfl
@[simp] theorem State.modWarp_gu (s : State) (i : Nat) (f : Warp → Warp) : (s.modWarp i f).gu = s.gu := rfl
@[simp] theorem State.modWarp_cur (s : State) (i : Nat) (f : Warp → Warp) : (s.modWarp i f).cur = s.cur := rfl
@[simp] theorem State.modWarp_agenda (s : State) (i : Nat) (f : Warp → Warp) : (s.modWarp i f).agenda = s.agenda := rfl
@[simp] theorem State.modWarp_fresh (s : State) (i : Nat) (f : Warp → Warp) : (s.modWarp i f).fresh = s.fresh := rfl

/-! `setCore` -/
@[simp] theorem State.setCore_warps (s : State) (i : Nat) (c : Core) : (s.setCore i c).warps = s.warps := rfl
@[simp] theorem State.setCore_teams (s : State) (i : Nat) (c : Core) : (s.setCore i c).teams = s.teams := rfl
@[simp] theorem State.setCore_launches (s : State) (i : Nat) (c : Core) : (s.setCore i c).launches = s.launches := rfl
@[simp] theorem State.setCore_crews (s : State) (i : Nat) (c : Core) : (s.setCore i c).crews = s.crews := rfl
@[simp] theorem State.setCore_counters (s : State) (i : Nat) (c : Core) : (s.setCore i c).counters = s.counters := rfl
@[simp] theorem State.setCore_queues (s : State) (i : Nat) (c : Core) : (s.setCore i c).queues = s.queues := rfl
@[simp] theorem State.setCore_parts (s : State) (i : Nat) (c : Core) : (s.setCore i c).parts = s.parts := rfl
@[simp] theorem State.setCore_clusters (s : State) (i : Nat) (c : Core) : (s.setCore i c).clusters = s.clusters := rfl
@[simp] theorem State.setCore_dies (s : State) (i : Nat) (c : Core) : (s.setCore i c).dies = s.dies := rfl
@[simp] theorem State.setCore_host (s : State) (i : Nat) (c : Core) : (s.setCore i c).host = s.host := rfl
@[simp] theorem State.setCore_pages (s : State) (i : Nat) (c : Core) : (s.setCore i c).pages = s.pages := rfl
@[simp] theorem State.setCore_mem (s : State) (i : Nat) (c : Core) : (s.setCore i c).mem = s.mem := rfl
@[simp] theorem State.setCore_poison (s : State) (i : Nat) (c : Core) : (s.setCore i c).poison = s.poison := rfl
@[simp] theorem State.setCore_tags (s : State) (i : Nat) (c : Core) : (s.setCore i c).tags = s.tags := rfl
@[simp] theorem State.setCore_now (s : State) (i : Nat) (c : Core) : (s.setCore i c).now = s.now := rfl
@[simp] theorem State.setCore_gu (s : State) (i : Nat) (c : Core) : (s.setCore i c).gu = s.gu := rfl
@[simp] theorem State.setCore_cur (s : State) (i : Nat) (c : Core) : (s.setCore i c).cur = s.cur := rfl
@[simp] theorem State.setCore_agenda (s : State) (i : Nat) (c : Core) : (s.setCore i c).agenda = s.agenda := rfl
@[simp] theorem State.setCore_fresh (s : State) (i : Nat) (c : Core) : (s.setCore i c).fresh = s.fresh := rfl

/-! `modCore` -/
@[simp] theorem State.modCore_warps (s : State) (i : Nat) (f : Core → Core) : (s.modCore i f).warps = s.warps := rfl
@[simp] theorem State.modCore_teams (s : State) (i : Nat) (f : Core → Core) : (s.modCore i f).teams = s.teams := rfl
@[simp] theorem State.modCore_launches (s : State) (i : Nat) (f : Core → Core) : (s.modCore i f).launches = s.launches := rfl
@[simp] theorem State.modCore_crews (s : State) (i : Nat) (f : Core → Core) : (s.modCore i f).crews = s.crews := rfl
@[simp] theorem State.modCore_counters (s : State) (i : Nat) (f : Core → Core) : (s.modCore i f).counters = s.counters := rfl
@[simp] theorem State.modCore_queues (s : State) (i : Nat) (f : Core → Core) : (s.modCore i f).queues = s.queues := rfl
@[simp] theorem State.modCore_parts (s : State) (i : Nat) (f : Core → Core) : (s.modCore i f).parts = s.parts := rfl
@[simp] theorem State.modCore_clusters (s : State) (i : Nat) (f : Core → Core) : (s.modCore i f).clusters = s.clusters := rfl
@[simp] theorem State.modCore_dies (s : State) (i : Nat) (f : Core → Core) : (s.modCore i f).dies = s.dies := rfl
@[simp] theorem State.modCore_host (s : State) (i : Nat) (f : Core → Core) : (s.modCore i f).host = s.host := rfl
@[simp] theorem State.modCore_pages (s : State) (i : Nat) (f : Core → Core) : (s.modCore i f).pages = s.pages := rfl
@[simp] theorem State.modCore_mem (s : State) (i : Nat) (f : Core → Core) : (s.modCore i f).mem = s.mem := rfl
@[simp] theorem State.modCore_poison (s : State) (i : Nat) (f : Core → Core) : (s.modCore i f).poison = s.poison := rfl
@[simp] theorem State.modCore_tags (s : State) (i : Nat) (f : Core → Core) : (s.modCore i f).tags = s.tags := rfl
@[simp] theorem State.modCore_now (s : State) (i : Nat) (f : Core → Core) : (s.modCore i f).now = s.now := rfl
@[simp] theorem State.modCore_gu (s : State) (i : Nat) (f : Core → Core) : (s.modCore i f).gu = s.gu := rfl
@[simp] theorem State.modCore_cur (s : State) (i : Nat) (f : Core → Core) : (s.modCore i f).cur = s.cur := rfl
@[simp] theorem State.modCore_agenda (s : State) (i : Nat) (f : Core → Core) : (s.modCore i f).agenda = s.agenda := rfl
@[simp] theorem State.modCore_fresh (s : State) (i : Nat) (f : Core → Core) : (s.modCore i f).fresh = s.fresh := rfl

/-! `setCluster` -/
@[simp] theorem State.setCluster_warps (s : State) (i : Nat) (c : Cluster) : (s.setCluster i c).warps = s.warps := rfl
@[simp] theorem State.setCluster_teams (s : State) (i : Nat) (c : Cluster) : (s.setCluster i c).teams = s.teams := rfl
@[simp] theorem State.setCluster_launches (s : State) (i : Nat) (c : Cluster) : (s.setCluster i c).launches = s.launches := rfl
@[simp] theorem State.setCluster_crews (s : State) (i : Nat) (c : Cluster) : (s.setCluster i c).crews = s.crews := rfl
@[simp] theorem State.setCluster_counters (s : State) (i : Nat) (c : Cluster) : (s.setCluster i c).counters = s.counters := rfl
@[simp] theorem State.setCluster_queues (s : State) (i : Nat) (c : Cluster) : (s.setCluster i c).queues = s.queues := rfl
@[simp] theorem State.setCluster_parts (s : State) (i : Nat) (c : Cluster) : (s.setCluster i c).parts = s.parts := rfl
@[simp] theorem State.setCluster_cores (s : State) (i : Nat) (c : Cluster) : (s.setCluster i c).cores = s.cores := rfl
@[simp] theorem State.setCluster_dies (s : State) (i : Nat) (c : Cluster) : (s.setCluster i c).dies = s.dies := rfl
@[simp] theorem State.setCluster_host (s : State) (i : Nat) (c : Cluster) : (s.setCluster i c).host = s.host := rfl
@[simp] theorem State.setCluster_pages (s : State) (i : Nat) (c : Cluster) : (s.setCluster i c).pages = s.pages := rfl
@[simp] theorem State.setCluster_mem (s : State) (i : Nat) (c : Cluster) : (s.setCluster i c).mem = s.mem := rfl
@[simp] theorem State.setCluster_poison (s : State) (i : Nat) (c : Cluster) : (s.setCluster i c).poison = s.poison := rfl
@[simp] theorem State.setCluster_tags (s : State) (i : Nat) (c : Cluster) : (s.setCluster i c).tags = s.tags := rfl
@[simp] theorem State.setCluster_now (s : State) (i : Nat) (c : Cluster) : (s.setCluster i c).now = s.now := rfl
@[simp] theorem State.setCluster_gu (s : State) (i : Nat) (c : Cluster) : (s.setCluster i c).gu = s.gu := rfl
@[simp] theorem State.setCluster_cur (s : State) (i : Nat) (c : Cluster) : (s.setCluster i c).cur = s.cur := rfl
@[simp] theorem State.setCluster_agenda (s : State) (i : Nat) (c : Cluster) : (s.setCluster i c).agenda = s.agenda := rfl
@[simp] theorem State.setCluster_fresh (s : State) (i : Nat) (c : Cluster) : (s.setCluster i c).fresh = s.fresh := rfl

/-! `modCluster` -/
@[simp] theorem State.modCluster_warps (s : State) (i : Nat) (f : Cluster → Cluster) : (s.modCluster i f).warps = s.warps := rfl
@[simp] theorem State.modCluster_teams (s : State) (i : Nat) (f : Cluster → Cluster) : (s.modCluster i f).teams = s.teams := rfl
@[simp] theorem State.modCluster_launches (s : State) (i : Nat) (f : Cluster → Cluster) : (s.modCluster i f).launches = s.launches := rfl
@[simp] theorem State.modCluster_crews (s : State) (i : Nat) (f : Cluster → Cluster) : (s.modCluster i f).crews = s.crews := rfl
@[simp] theorem State.modCluster_counters (s : State) (i : Nat) (f : Cluster → Cluster) : (s.modCluster i f).counters = s.counters := rfl
@[simp] theorem State.modCluster_queues (s : State) (i : Nat) (f : Cluster → Cluster) : (s.modCluster i f).queues = s.queues := rfl
@[simp] theorem State.modCluster_parts (s : State) (i : Nat) (f : Cluster → Cluster) : (s.modCluster i f).parts = s.parts := rfl
@[simp] theorem State.modCluster_cores (s : State) (i : Nat) (f : Cluster → Cluster) : (s.modCluster i f).cores = s.cores := rfl
@[simp] theorem State.modCluster_dies (s : State) (i : Nat) (f : Cluster → Cluster) : (s.modCluster i f).dies = s.dies := rfl
@[simp] theorem State.modCluster_host (s : State) (i : Nat) (f : Cluster → Cluster) : (s.modCluster i f).host = s.host := rfl
@[simp] theorem State.modCluster_pages (s : State) (i : Nat) (f : Cluster → Cluster) : (s.modCluster i f).pages = s.pages := rfl
@[simp] theorem State.modCluster_mem (s : State) (i : Nat) (f : Cluster → Cluster) : (s.modCluster i f).mem = s.mem := rfl
@[simp] theorem State.modCluster_poison (s : State) (i : Nat) (f : Cluster → Cluster) : (s.modCluster i f).poison = s.poison := rfl
@[simp] theorem State.modCluster_tags (s : State) (i : Nat) (f : Cluster → Cluster) : (s.modCluster i f).tags = s.tags := rfl
@[simp] theorem State.modCluster_now (s : State) (i : Nat) (f : Cluster → Cluster) : (s.modCluster i f).now = s.now := rfl
@[simp] theorem State.modCluster_gu (s : State) (i : Nat) (f : Cluster → Cluster) : (s.modCluster i f).gu = s.gu := rfl
@[simp] theorem State.modCluster_cur (s : State) (i : Nat) (f : Cluster → Cluster) : (s.modCluster i f).cur = s.cur := rfl
@[simp] theorem State.modCluster_agenda (s : State) (i : Nat) (f : Cluster → Cluster) : (s.modCluster i f).agenda = s.agenda := rfl
@[simp] theorem State.modCluster_fresh (s : State) (i : Nat) (f : Cluster → Cluster) : (s.modCluster i f).fresh = s.fresh := rfl

/-! `setDie` -/
@[simp] theorem State.setDie_warps (s : State) (i : Nat) (d : Die) : (s.setDie i d).warps = s.warps := rfl
@[simp] theorem State.setDie_teams (s : State) (i : Nat) (d : Die) : (s.setDie i d).teams = s.teams := rfl
@[simp] theorem State.setDie_launches (s : State) (i : Nat) (d : Die) : (s.setDie i d).launches = s.launches := rfl
@[simp] theorem State.setDie_crews (s : State) (i : Nat) (d : Die) : (s.setDie i d).crews = s.crews := rfl
@[simp] theorem State.setDie_counters (s : State) (i : Nat) (d : Die) : (s.setDie i d).counters = s.counters := rfl
@[simp] theorem State.setDie_queues (s : State) (i : Nat) (d : Die) : (s.setDie i d).queues = s.queues := rfl
@[simp] theorem State.setDie_parts (s : State) (i : Nat) (d : Die) : (s.setDie i d).parts = s.parts := rfl
@[simp] theorem State.setDie_cores (s : State) (i : Nat) (d : Die) : (s.setDie i d).cores = s.cores := rfl
@[simp] theorem State.setDie_clusters (s : State) (i : Nat) (d : Die) : (s.setDie i d).clusters = s.clusters := rfl
@[simp] theorem State.setDie_host (s : State) (i : Nat) (d : Die) : (s.setDie i d).host = s.host := rfl
@[simp] theorem State.setDie_pages (s : State) (i : Nat) (d : Die) : (s.setDie i d).pages = s.pages := rfl
@[simp] theorem State.setDie_mem (s : State) (i : Nat) (d : Die) : (s.setDie i d).mem = s.mem := rfl
@[simp] theorem State.setDie_poison (s : State) (i : Nat) (d : Die) : (s.setDie i d).poison = s.poison := rfl
@[simp] theorem State.setDie_tags (s : State) (i : Nat) (d : Die) : (s.setDie i d).tags = s.tags := rfl
@[simp] theorem State.setDie_gu (s : State) (i : Nat) (d : Die) : (s.setDie i d).gu = s.gu := rfl
@[simp] theorem State.setDie_cur (s : State) (i : Nat) (d : Die) : (s.setDie i d).cur = s.cur := rfl
@[simp] theorem State.setDie_agenda (s : State) (i : Nat) (d : Die) : (s.setDie i d).agenda = s.agenda := rfl
@[simp] theorem State.setDie_fresh (s : State) (i : Nat) (d : Die) : (s.setDie i d).fresh = s.fresh := rfl

/-! `modDie` -/
@[simp] theorem State.modDie_warps (s : State) (i : Nat) (f : Die → Die) : (s.modDie i f).warps = s.warps := rfl
@[simp] theorem State.modDie_teams (s : State) (i : Nat) (f : Die → Die) : (s.modDie i f).teams = s.teams := rfl
@[simp] theorem State.modDie_launches (s : State) (i : Nat) (f : Die → Die) : (s.modDie i f).launches = s.launches := rfl
@[simp] theorem State.modDie_crews (s : State) (i : Nat) (f : Die → Die) : (s.modDie i f).crews = s.crews := rfl
@[simp] theorem State.modDie_counters (s : State) (i : Nat) (f : Die → Die) : (s.modDie i f).counters = s.counters := rfl
@[simp] theorem State.modDie_queues (s : State) (i : Nat) (f : Die → Die) : (s.modDie i f).queues = s.queues := rfl
@[simp] theorem State.modDie_parts (s : State) (i : Nat) (f : Die → Die) : (s.modDie i f).parts = s.parts := rfl
@[simp] theorem State.modDie_cores (s : State) (i : Nat) (f : Die → Die) : (s.modDie i f).cores = s.cores := rfl
@[simp] theorem State.modDie_clusters (s : State) (i : Nat) (f : Die → Die) : (s.modDie i f).clusters = s.clusters := rfl
@[simp] theorem State.modDie_host (s : State) (i : Nat) (f : Die → Die) : (s.modDie i f).host = s.host := rfl
@[simp] theorem State.modDie_pages (s : State) (i : Nat) (f : Die → Die) : (s.modDie i f).pages = s.pages := rfl
@[simp] theorem State.modDie_mem (s : State) (i : Nat) (f : Die → Die) : (s.modDie i f).mem = s.mem := rfl
@[simp] theorem State.modDie_poison (s : State) (i : Nat) (f : Die → Die) : (s.modDie i f).poison = s.poison := rfl
@[simp] theorem State.modDie_tags (s : State) (i : Nat) (f : Die → Die) : (s.modDie i f).tags = s.tags := rfl
@[simp] theorem State.modDie_gu (s : State) (i : Nat) (f : Die → Die) : (s.modDie i f).gu = s.gu := rfl
@[simp] theorem State.modDie_cur (s : State) (i : Nat) (f : Die → Die) : (s.modDie i f).cur = s.cur := rfl
@[simp] theorem State.modDie_agenda (s : State) (i : Nat) (f : Die → Die) : (s.modDie i f).agenda = s.agenda := rfl
@[simp] theorem State.modDie_fresh (s : State) (i : Nat) (f : Die → Die) : (s.modDie i f).fresh = s.fresh := rfl

/-! `setTeam` -/
@[simp] theorem State.setTeam_warps (s : State) (i : Nat) (t : Team) : (s.setTeam i t).warps = s.warps := rfl
@[simp] theorem State.setTeam_launches (s : State) (i : Nat) (t : Team) : (s.setTeam i t).launches = s.launches := rfl
@[simp] theorem State.setTeam_crews (s : State) (i : Nat) (t : Team) : (s.setTeam i t).crews = s.crews := rfl
@[simp] theorem State.setTeam_counters (s : State) (i : Nat) (t : Team) : (s.setTeam i t).counters = s.counters := rfl
@[simp] theorem State.setTeam_queues (s : State) (i : Nat) (t : Team) : (s.setTeam i t).queues = s.queues := rfl
@[simp] theorem State.setTeam_parts (s : State) (i : Nat) (t : Team) : (s.setTeam i t).parts = s.parts := rfl
@[simp] theorem State.setTeam_cores (s : State) (i : Nat) (t : Team) : (s.setTeam i t).cores = s.cores := rfl
@[simp] theorem State.setTeam_clusters (s : State) (i : Nat) (t : Team) : (s.setTeam i t).clusters = s.clusters := rfl
@[simp] theorem State.setTeam_dies (s : State) (i : Nat) (t : Team) : (s.setTeam i t).dies = s.dies := rfl
@[simp] theorem State.setTeam_host (s : State) (i : Nat) (t : Team) : (s.setTeam i t).host = s.host := rfl
@[simp] theorem State.setTeam_pages (s : State) (i : Nat) (t : Team) : (s.setTeam i t).pages = s.pages := rfl
@[simp] theorem State.setTeam_mem (s : State) (i : Nat) (t : Team) : (s.setTeam i t).mem = s.mem := rfl
@[simp] theorem State.setTeam_poison (s : State) (i : Nat) (t : Team) : (s.setTeam i t).poison = s.poison := rfl
@[simp] theorem State.setTeam_tags (s : State) (i : Nat) (t : Team) : (s.setTeam i t).tags = s.tags := rfl
@[simp] theorem State.setTeam_now (s : State) (i : Nat) (t : Team) : (s.setTeam i t).now = s.now := rfl
@[simp] theorem State.setTeam_gu (s : State) (i : Nat) (t : Team) : (s.setTeam i t).gu = s.gu := rfl
@[simp] theorem State.setTeam_cur (s : State) (i : Nat) (t : Team) : (s.setTeam i t).cur = s.cur := rfl
@[simp] theorem State.setTeam_agenda (s : State) (i : Nat) (t : Team) : (s.setTeam i t).agenda = s.agenda := rfl
@[simp] theorem State.setTeam_fresh (s : State) (i : Nat) (t : Team) : (s.setTeam i t).fresh = s.fresh := rfl

/-! `setLaunch` -/
@[simp] theorem State.setLaunch_warps (s : State) (i : Nat) (l : Launch) : (s.setLaunch i l).warps = s.warps := rfl
@[simp] theorem State.setLaunch_teams (s : State) (i : Nat) (l : Launch) : (s.setLaunch i l).teams = s.teams := rfl
@[simp] theorem State.setLaunch_crews (s : State) (i : Nat) (l : Launch) : (s.setLaunch i l).crews = s.crews := rfl
@[simp] theorem State.setLaunch_counters (s : State) (i : Nat) (l : Launch) : (s.setLaunch i l).counters = s.counters := rfl
@[simp] theorem State.setLaunch_queues (s : State) (i : Nat) (l : Launch) : (s.setLaunch i l).queues = s.queues := rfl
@[simp] theorem State.setLaunch_parts (s : State) (i : Nat) (l : Launch) : (s.setLaunch i l).parts = s.parts := rfl
@[simp] theorem State.setLaunch_cores (s : State) (i : Nat) (l : Launch) : (s.setLaunch i l).cores = s.cores := rfl
@[simp] theorem State.setLaunch_clusters (s : State) (i : Nat) (l : Launch) : (s.setLaunch i l).clusters = s.clusters := rfl
@[simp] theorem State.setLaunch_dies (s : State) (i : Nat) (l : Launch) : (s.setLaunch i l).dies = s.dies := rfl
@[simp] theorem State.setLaunch_host (s : State) (i : Nat) (l : Launch) : (s.setLaunch i l).host = s.host := rfl
@[simp] theorem State.setLaunch_pages (s : State) (i : Nat) (l : Launch) : (s.setLaunch i l).pages = s.pages := rfl
@[simp] theorem State.setLaunch_mem (s : State) (i : Nat) (l : Launch) : (s.setLaunch i l).mem = s.mem := rfl
@[simp] theorem State.setLaunch_poison (s : State) (i : Nat) (l : Launch) : (s.setLaunch i l).poison = s.poison := rfl
@[simp] theorem State.setLaunch_tags (s : State) (i : Nat) (l : Launch) : (s.setLaunch i l).tags = s.tags := rfl
@[simp] theorem State.setLaunch_now (s : State) (i : Nat) (l : Launch) : (s.setLaunch i l).now = s.now := rfl
@[simp] theorem State.setLaunch_gu (s : State) (i : Nat) (l : Launch) : (s.setLaunch i l).gu = s.gu := rfl
@[simp] theorem State.setLaunch_cur (s : State) (i : Nat) (l : Launch) : (s.setLaunch i l).cur = s.cur := rfl
@[simp] theorem State.setLaunch_agenda (s : State) (i : Nat) (l : Launch) : (s.setLaunch i l).agenda = s.agenda := rfl
@[simp] theorem State.setLaunch_fresh (s : State) (i : Nat) (l : Launch) : (s.setLaunch i l).fresh = s.fresh := rfl

/-! `setCounter` -/
@[simp] theorem State.setCounter_warps (s : State) (i : Nat) (c : Counter) : (s.setCounter i c).warps = s.warps := rfl
@[simp] theorem State.setCounter_teams (s : State) (i : Nat) (c : Counter) : (s.setCounter i c).teams = s.teams := rfl
@[simp] theorem State.setCounter_launches (s : State) (i : Nat) (c : Counter) : (s.setCounter i c).launches = s.launches := rfl
@[simp] theorem State.setCounter_crews (s : State) (i : Nat) (c : Counter) : (s.setCounter i c).crews = s.crews := rfl
@[simp] theorem State.setCounter_queues (s : State) (i : Nat) (c : Counter) : (s.setCounter i c).queues = s.queues := rfl
@[simp] theorem State.setCounter_parts (s : State) (i : Nat) (c : Counter) : (s.setCounter i c).parts = s.parts := rfl
@[simp] theorem State.setCounter_cores (s : State) (i : Nat) (c : Counter) : (s.setCounter i c).cores = s.cores := rfl
@[simp] theorem State.setCounter_clusters (s : State) (i : Nat) (c : Counter) : (s.setCounter i c).clusters = s.clusters := rfl
@[simp] theorem State.setCounter_dies (s : State) (i : Nat) (c : Counter) : (s.setCounter i c).dies = s.dies := rfl
@[simp] theorem State.setCounter_host (s : State) (i : Nat) (c : Counter) : (s.setCounter i c).host = s.host := rfl
@[simp] theorem State.setCounter_pages (s : State) (i : Nat) (c : Counter) : (s.setCounter i c).pages = s.pages := rfl
@[simp] theorem State.setCounter_mem (s : State) (i : Nat) (c : Counter) : (s.setCounter i c).mem = s.mem := rfl
@[simp] theorem State.setCounter_poison (s : State) (i : Nat) (c : Counter) : (s.setCounter i c).poison = s.poison := rfl
@[simp] theorem State.setCounter_tags (s : State) (i : Nat) (c : Counter) : (s.setCounter i c).tags = s.tags := rfl
@[simp] theorem State.setCounter_now (s : State) (i : Nat) (c : Counter) : (s.setCounter i c).now = s.now := rfl
@[simp] theorem State.setCounter_gu (s : State) (i : Nat) (c : Counter) : (s.setCounter i c).gu = s.gu := rfl
@[simp] theorem State.setCounter_cur (s : State) (i : Nat) (c : Counter) : (s.setCounter i c).cur = s.cur := rfl
@[simp] theorem State.setCounter_agenda (s : State) (i : Nat) (c : Counter) : (s.setCounter i c).agenda = s.agenda := rfl
@[simp] theorem State.setCounter_fresh (s : State) (i : Nat) (c : Counter) : (s.setCounter i c).fresh = s.fresh := rfl

/-! `modCounter` -/
@[simp] theorem State.modCounter_warps (s : State) (i : Nat) (f : Counter → Counter) : (s.modCounter i f).warps = s.warps := rfl
@[simp] theorem State.modCounter_teams (s : State) (i : Nat) (f : Counter → Counter) : (s.modCounter i f).teams = s.teams := rfl
@[simp] theorem State.modCounter_launches (s : State) (i : Nat) (f : Counter → Counter) : (s.modCounter i f).launches = s.launches := rfl
@[simp] theorem State.modCounter_crews (s : State) (i : Nat) (f : Counter → Counter) : (s.modCounter i f).crews = s.crews := rfl
@[simp] theorem State.modCounter_queues (s : State) (i : Nat) (f : Counter → Counter) : (s.modCounter i f).queues = s.queues := rfl
@[simp] theorem State.modCounter_parts (s : State) (i : Nat) (f : Counter → Counter) : (s.modCounter i f).parts = s.parts := rfl
@[simp] theorem State.modCounter_cores (s : State) (i : Nat) (f : Counter → Counter) : (s.modCounter i f).cores = s.cores := rfl
@[simp] theorem State.modCounter_clusters (s : State) (i : Nat) (f : Counter → Counter) : (s.modCounter i f).clusters = s.clusters := rfl
@[simp] theorem State.modCounter_dies (s : State) (i : Nat) (f : Counter → Counter) : (s.modCounter i f).dies = s.dies := rfl
@[simp] theorem State.modCounter_host (s : State) (i : Nat) (f : Counter → Counter) : (s.modCounter i f).host = s.host := rfl
@[simp] theorem State.modCounter_pages (s : State) (i : Nat) (f : Counter → Counter) : (s.modCounter i f).pages = s.pages := rfl
@[simp] theorem State.modCounter_mem (s : State) (i : Nat) (f : Counter → Counter) : (s.modCounter i f).mem = s.mem := rfl
@[simp] theorem State.modCounter_poison (s : State) (i : Nat) (f : Counter → Counter) : (s.modCounter i f).poison = s.poison := rfl
@[simp] theorem State.modCounter_tags (s : State) (i : Nat) (f : Counter → Counter) : (s.modCounter i f).tags = s.tags := rfl
@[simp] theorem State.modCounter_now (s : State) (i : Nat) (f : Counter → Counter) : (s.modCounter i f).now = s.now := rfl
@[simp] theorem State.modCounter_gu (s : State) (i : Nat) (f : Counter → Counter) : (s.modCounter i f).gu = s.gu := rfl
@[simp] theorem State.modCounter_cur (s : State) (i : Nat) (f : Counter → Counter) : (s.modCounter i f).cur = s.cur := rfl
@[simp] theorem State.modCounter_agenda (s : State) (i : Nat) (f : Counter → Counter) : (s.modCounter i f).agenda = s.agenda := rfl
@[simp] theorem State.modCounter_fresh (s : State) (i : Nat) (f : Counter → Counter) : (s.modCounter i f).fresh = s.fresh := rfl

/-! `setQueue` -/
@[simp] theorem State.setQueue_warps (s : State) (i : Nat) (q : Queue) : (s.setQueue i q).warps = s.warps := rfl
@[simp] theorem State.setQueue_teams (s : State) (i : Nat) (q : Queue) : (s.setQueue i q).teams = s.teams := rfl
@[simp] theorem State.setQueue_launches (s : State) (i : Nat) (q : Queue) : (s.setQueue i q).launches = s.launches := rfl
@[simp] theorem State.setQueue_crews (s : State) (i : Nat) (q : Queue) : (s.setQueue i q).crews = s.crews := rfl
@[simp] theorem State.setQueue_counters (s : State) (i : Nat) (q : Queue) : (s.setQueue i q).counters = s.counters := rfl
@[simp] theorem State.setQueue_parts (s : State) (i : Nat) (q : Queue) : (s.setQueue i q).parts = s.parts := rfl
@[simp] theorem State.setQueue_cores (s : State) (i : Nat) (q : Queue) : (s.setQueue i q).cores = s.cores := rfl
@[simp] theorem State.setQueue_clusters (s : State) (i : Nat) (q : Queue) : (s.setQueue i q).clusters = s.clusters := rfl
@[simp] theorem State.setQueue_dies (s : State) (i : Nat) (q : Queue) : (s.setQueue i q).dies = s.dies := rfl
@[simp] theorem State.setQueue_host (s : State) (i : Nat) (q : Queue) : (s.setQueue i q).host = s.host := rfl
@[simp] theorem State.setQueue_pages (s : State) (i : Nat) (q : Queue) : (s.setQueue i q).pages = s.pages := rfl
@[simp] theorem State.setQueue_mem (s : State) (i : Nat) (q : Queue) : (s.setQueue i q).mem = s.mem := rfl
@[simp] theorem State.setQueue_poison (s : State) (i : Nat) (q : Queue) : (s.setQueue i q).poison = s.poison := rfl
@[simp] theorem State.setQueue_tags (s : State) (i : Nat) (q : Queue) : (s.setQueue i q).tags = s.tags := rfl
@[simp] theorem State.setQueue_now (s : State) (i : Nat) (q : Queue) : (s.setQueue i q).now = s.now := rfl
@[simp] theorem State.setQueue_gu (s : State) (i : Nat) (q : Queue) : (s.setQueue i q).gu = s.gu := rfl
@[simp] theorem State.setQueue_cur (s : State) (i : Nat) (q : Queue) : (s.setQueue i q).cur = s.cur := rfl
@[simp] theorem State.setQueue_agenda (s : State) (i : Nat) (q : Queue) : (s.setQueue i q).agenda = s.agenda := rfl
@[simp] theorem State.setQueue_fresh (s : State) (i : Nat) (q : Queue) : (s.setQueue i q).fresh = s.fresh := rfl

/-! `modQueue` -/
@[simp] theorem State.modQueue_warps (s : State) (i : Nat) (f : Queue → Queue) : (s.modQueue i f).warps = s.warps := rfl
@[simp] theorem State.modQueue_teams (s : State) (i : Nat) (f : Queue → Queue) : (s.modQueue i f).teams = s.teams := rfl
@[simp] theorem State.modQueue_launches (s : State) (i : Nat) (f : Queue → Queue) : (s.modQueue i f).launches = s.launches := rfl
@[simp] theorem State.modQueue_crews (s : State) (i : Nat) (f : Queue → Queue) : (s.modQueue i f).crews = s.crews := rfl
@[simp] theorem State.modQueue_counters (s : State) (i : Nat) (f : Queue → Queue) : (s.modQueue i f).counters = s.counters := rfl
@[simp] theorem State.modQueue_parts (s : State) (i : Nat) (f : Queue → Queue) : (s.modQueue i f).parts = s.parts := rfl
@[simp] theorem State.modQueue_cores (s : State) (i : Nat) (f : Queue → Queue) : (s.modQueue i f).cores = s.cores := rfl
@[simp] theorem State.modQueue_clusters (s : State) (i : Nat) (f : Queue → Queue) : (s.modQueue i f).clusters = s.clusters := rfl
@[simp] theorem State.modQueue_dies (s : State) (i : Nat) (f : Queue → Queue) : (s.modQueue i f).dies = s.dies := rfl
@[simp] theorem State.modQueue_host (s : State) (i : Nat) (f : Queue → Queue) : (s.modQueue i f).host = s.host := rfl
@[simp] theorem State.modQueue_pages (s : State) (i : Nat) (f : Queue → Queue) : (s.modQueue i f).pages = s.pages := rfl
@[simp] theorem State.modQueue_mem (s : State) (i : Nat) (f : Queue → Queue) : (s.modQueue i f).mem = s.mem := rfl
@[simp] theorem State.modQueue_poison (s : State) (i : Nat) (f : Queue → Queue) : (s.modQueue i f).poison = s.poison := rfl
@[simp] theorem State.modQueue_tags (s : State) (i : Nat) (f : Queue → Queue) : (s.modQueue i f).tags = s.tags := rfl
@[simp] theorem State.modQueue_now (s : State) (i : Nat) (f : Queue → Queue) : (s.modQueue i f).now = s.now := rfl
@[simp] theorem State.modQueue_gu (s : State) (i : Nat) (f : Queue → Queue) : (s.modQueue i f).gu = s.gu := rfl
@[simp] theorem State.modQueue_cur (s : State) (i : Nat) (f : Queue → Queue) : (s.modQueue i f).cur = s.cur := rfl
@[simp] theorem State.modQueue_agenda (s : State) (i : Nat) (f : Queue → Queue) : (s.modQueue i f).agenda = s.agenda := rfl
@[simp] theorem State.modQueue_fresh (s : State) (i : Nat) (f : Queue → Queue) : (s.modQueue i f).fresh = s.fresh := rfl

/-! `setPart` -/
@[simp] theorem State.setPart_warps (s : State) (i : Nat) (p : Partition) : (s.setPart i p).warps = s.warps := rfl
@[simp] theorem State.setPart_teams (s : State) (i : Nat) (p : Partition) : (s.setPart i p).teams = s.teams := rfl
@[simp] theorem State.setPart_launches (s : State) (i : Nat) (p : Partition) : (s.setPart i p).launches = s.launches := rfl
@[simp] theorem State.setPart_crews (s : State) (i : Nat) (p : Partition) : (s.setPart i p).crews = s.crews := rfl
@[simp] theorem State.setPart_counters (s : State) (i : Nat) (p : Partition) : (s.setPart i p).counters = s.counters := rfl
@[simp] theorem State.setPart_queues (s : State) (i : Nat) (p : Partition) : (s.setPart i p).queues = s.queues := rfl
@[simp] theorem State.setPart_cores (s : State) (i : Nat) (p : Partition) : (s.setPart i p).cores = s.cores := rfl
@[simp] theorem State.setPart_clusters (s : State) (i : Nat) (p : Partition) : (s.setPart i p).clusters = s.clusters := rfl
@[simp] theorem State.setPart_dies (s : State) (i : Nat) (p : Partition) : (s.setPart i p).dies = s.dies := rfl
@[simp] theorem State.setPart_host (s : State) (i : Nat) (p : Partition) : (s.setPart i p).host = s.host := rfl
@[simp] theorem State.setPart_pages (s : State) (i : Nat) (p : Partition) : (s.setPart i p).pages = s.pages := rfl
@[simp] theorem State.setPart_mem (s : State) (i : Nat) (p : Partition) : (s.setPart i p).mem = s.mem := rfl
@[simp] theorem State.setPart_poison (s : State) (i : Nat) (p : Partition) : (s.setPart i p).poison = s.poison := rfl
@[simp] theorem State.setPart_tags (s : State) (i : Nat) (p : Partition) : (s.setPart i p).tags = s.tags := rfl
@[simp] theorem State.setPart_now (s : State) (i : Nat) (p : Partition) : (s.setPart i p).now = s.now := rfl
@[simp] theorem State.setPart_gu (s : State) (i : Nat) (p : Partition) : (s.setPart i p).gu = s.gu := rfl
@[simp] theorem State.setPart_cur (s : State) (i : Nat) (p : Partition) : (s.setPart i p).cur = s.cur := rfl
@[simp] theorem State.setPart_agenda (s : State) (i : Nat) (p : Partition) : (s.setPart i p).agenda = s.agenda := rfl
@[simp] theorem State.setPart_fresh (s : State) (i : Nat) (p : Partition) : (s.setPart i p).fresh = s.fresh := rfl

/-! `modPart` -/
@[simp] theorem State.modPart_warps (s : State) (i : Nat) (f : Partition → Partition) : (s.modPart i f).warps = s.warps := rfl
@[simp] theorem State.modPart_teams (s : State) (i : Nat) (f : Partition → Partition) : (s.modPart i f).teams = s.teams := rfl
@[simp] theorem State.modPart_launches (s : State) (i : Nat) (f : Partition → Partition) : (s.modPart i f).launches = s.launches := rfl
@[simp] theorem State.modPart_crews (s : State) (i : Nat) (f : Partition → Partition) : (s.modPart i f).crews = s.crews := rfl
@[simp] theorem State.modPart_counters (s : State) (i : Nat) (f : Partition → Partition) : (s.modPart i f).counters = s.counters := rfl
@[simp] theorem State.modPart_queues (s : State) (i : Nat) (f : Partition → Partition) : (s.modPart i f).queues = s.queues := rfl
@[simp] theorem State.modPart_cores (s : State) (i : Nat) (f : Partition → Partition) : (s.modPart i f).cores = s.cores := rfl
@[simp] theorem State.modPart_clusters (s : State) (i : Nat) (f : Partition → Partition) : (s.modPart i f).clusters = s.clusters := rfl
@[simp] theorem State.modPart_dies (s : State) (i : Nat) (f : Partition → Partition) : (s.modPart i f).dies = s.dies := rfl
@[simp] theorem State.modPart_host (s : State) (i : Nat) (f : Partition → Partition) : (s.modPart i f).host = s.host := rfl
@[simp] theorem State.modPart_pages (s : State) (i : Nat) (f : Partition → Partition) : (s.modPart i f).pages = s.pages := rfl
@[simp] theorem State.modPart_mem (s : State) (i : Nat) (f : Partition → Partition) : (s.modPart i f).mem = s.mem := rfl
@[simp] theorem State.modPart_poison (s : State) (i : Nat) (f : Partition → Partition) : (s.modPart i f).poison = s.poison := rfl
@[simp] theorem State.modPart_tags (s : State) (i : Nat) (f : Partition → Partition) : (s.modPart i f).tags = s.tags := rfl
@[simp] theorem State.modPart_now (s : State) (i : Nat) (f : Partition → Partition) : (s.modPart i f).now = s.now := rfl
@[simp] theorem State.modPart_gu (s : State) (i : Nat) (f : Partition → Partition) : (s.modPart i f).gu = s.gu := rfl
@[simp] theorem State.modPart_cur (s : State) (i : Nat) (f : Partition → Partition) : (s.modPart i f).cur = s.cur := rfl
@[simp] theorem State.modPart_agenda (s : State) (i : Nat) (f : Partition → Partition) : (s.modPart i f).agenda = s.agenda := rfl
@[simp] theorem State.modPart_fresh (s : State) (i : Nat) (f : Partition → Partition) : (s.modPart i f).fresh = s.fresh := rfl

/-! `modW` -/
@[simp] theorem State.modW_teams (s : State) (f : Warp → Warp) : (s.modW f).teams = s.teams := rfl
@[simp] theorem State.modW_launches (s : State) (f : Warp → Warp) : (s.modW f).launches = s.launches := rfl
@[simp] theorem State.modW_crews (s : State) (f : Warp → Warp) : (s.modW f).crews = s.crews := rfl
@[simp] theorem State.modW_counters (s : State) (f : Warp → Warp) : (s.modW f).counters = s.counters := rfl
@[simp] theorem State.modW_queues (s : State) (f : Warp → Warp) : (s.modW f).queues = s.queues := rfl
@[simp] theorem State.modW_parts (s : State) (f : Warp → Warp) : (s.modW f).parts = s.parts := rfl
@[simp] theorem State.modW_cores (s : State) (f : Warp → Warp) : (s.modW f).cores = s.cores := rfl
@[simp] theorem State.modW_clusters (s : State) (f : Warp → Warp) : (s.modW f).clusters = s.clusters := rfl
@[simp] theorem State.modW_dies (s : State) (f : Warp → Warp) : (s.modW f).dies = s.dies := rfl
@[simp] theorem State.modW_host (s : State) (f : Warp → Warp) : (s.modW f).host = s.host := rfl
@[simp] theorem State.modW_pages (s : State) (f : Warp → Warp) : (s.modW f).pages = s.pages := rfl
@[simp] theorem State.modW_mem (s : State) (f : Warp → Warp) : (s.modW f).mem = s.mem := rfl
@[simp] theorem State.modW_poison (s : State) (f : Warp → Warp) : (s.modW f).poison = s.poison := rfl
@[simp] theorem State.modW_tags (s : State) (f : Warp → Warp) : (s.modW f).tags = s.tags := rfl
@[simp] theorem State.modW_now (s : State) (f : Warp → Warp) : (s.modW f).now = s.now := rfl
@[simp] theorem State.modW_gu (s : State) (f : Warp → Warp) : (s.modW f).gu = s.gu := rfl
@[simp] theorem State.modW_cur (s : State) (f : Warp → Warp) : (s.modW f).cur = s.cur := rfl
@[simp] theorem State.modW_agenda (s : State) (f : Warp → Warp) : (s.modW f).agenda = s.agenda := rfl
@[simp] theorem State.modW_fresh (s : State) (f : Warp → Warp) : (s.modW f).fresh = s.fresh := rfl

/-! `modGang` -/
@[simp] theorem State.modGang_teams (s : State) (f : Gang → Gang) : (s.modGang f).teams = s.teams := rfl
@[simp] theorem State.modGang_launches (s : State) (f : Gang → Gang) : (s.modGang f).launches = s.launches := rfl
@[simp] theorem State.modGang_crews (s : State) (f : Gang → Gang) : (s.modGang f).crews = s.crews := rfl
@[simp] theorem State.modGang_counters (s : State) (f : Gang → Gang) : (s.modGang f).counters = s.counters := rfl
@[simp] theorem State.modGang_queues (s : State) (f : Gang → Gang) : (s.modGang f).queues = s.queues := rfl
@[simp] theorem State.modGang_parts (s : State) (f : Gang → Gang) : (s.modGang f).parts = s.parts := rfl
@[simp] theorem State.modGang_cores (s : State) (f : Gang → Gang) : (s.modGang f).cores = s.cores := rfl
@[simp] theorem State.modGang_clusters (s : State) (f : Gang → Gang) : (s.modGang f).clusters = s.clusters := rfl
@[simp] theorem State.modGang_dies (s : State) (f : Gang → Gang) : (s.modGang f).dies = s.dies := rfl
@[simp] theorem State.modGang_host (s : State) (f : Gang → Gang) : (s.modGang f).host = s.host := rfl
@[simp] theorem State.modGang_pages (s : State) (f : Gang → Gang) : (s.modGang f).pages = s.pages := rfl
@[simp] theorem State.modGang_mem (s : State) (f : Gang → Gang) : (s.modGang f).mem = s.mem := rfl
@[simp] theorem State.modGang_poison (s : State) (f : Gang → Gang) : (s.modGang f).poison = s.poison := rfl
@[simp] theorem State.modGang_tags (s : State) (f : Gang → Gang) : (s.modGang f).tags = s.tags := rfl
@[simp] theorem State.modGang_now (s : State) (f : Gang → Gang) : (s.modGang f).now = s.now := rfl
@[simp] theorem State.modGang_gu (s : State) (f : Gang → Gang) : (s.modGang f).gu = s.gu := rfl
@[simp] theorem State.modGang_cur (s : State) (f : Gang → Gang) : (s.modGang f).cur = s.cur := rfl
@[simp] theorem State.modGang_agenda (s : State) (f : Gang → Gang) : (s.modGang f).agenda = s.agenda := rfl
@[simp] theorem State.modGang_fresh (s : State) (f : Gang → Gang) : (s.modGang f).fresh = s.fresh := rfl

/-! `tick` -/
@[simp] theorem State.tick_warps (s : State) (n : Nat) : (s.tick n).warps = s.warps := rfl
@[simp] theorem State.tick_teams (s : State) (n : Nat) : (s.tick n).teams = s.teams := rfl
@[simp] theorem State.tick_launches (s : State) (n : Nat) : (s.tick n).launches = s.launches := rfl
@[simp] theorem State.tick_crews (s : State) (n : Nat) : (s.tick n).crews = s.crews := rfl
@[simp] theorem State.tick_counters (s : State) (n : Nat) : (s.tick n).counters = s.counters := rfl
@[simp] theorem State.tick_queues (s : State) (n : Nat) : (s.tick n).queues = s.queues := rfl
@[simp] theorem State.tick_parts (s : State) (n : Nat) : (s.tick n).parts = s.parts := rfl
@[simp] theorem State.tick_cores (s : State) (n : Nat) : (s.tick n).cores = s.cores := rfl
@[simp] theorem State.tick_clusters (s : State) (n : Nat) : (s.tick n).clusters = s.clusters := rfl
@[simp] theorem State.tick_dies (s : State) (n : Nat) : (s.tick n).dies = s.dies := rfl
@[simp] theorem State.tick_host (s : State) (n : Nat) : (s.tick n).host = s.host := rfl
@[simp] theorem State.tick_pages (s : State) (n : Nat) : (s.tick n).pages = s.pages := rfl
@[simp] theorem State.tick_mem (s : State) (n : Nat) : (s.tick n).mem = s.mem := rfl
@[simp] theorem State.tick_poison (s : State) (n : Nat) : (s.tick n).poison = s.poison := rfl
@[simp] theorem State.tick_tags (s : State) (n : Nat) : (s.tick n).tags = s.tags := rfl
@[simp] theorem State.tick_cur (s : State) (n : Nat) : (s.tick n).cur = s.cur := rfl
@[simp] theorem State.tick_agenda (s : State) (n : Nat) : (s.tick n).agenda = s.agenda := rfl
@[simp] theorem State.tick_fresh (s : State) (n : Nat) : (s.tick n).fresh = s.fresh := rfl

/-! `advanceTo` -/
@[simp] theorem State.advanceTo_warps (s : State) (wid c : Nat) : (s.advanceTo wid c).warps = s.warps := rfl
@[simp] theorem State.advanceTo_teams (s : State) (wid c : Nat) : (s.advanceTo wid c).teams = s.teams := rfl
@[simp] theorem State.advanceTo_launches (s : State) (wid c : Nat) : (s.advanceTo wid c).launches = s.launches := rfl
@[simp] theorem State.advanceTo_crews (s : State) (wid c : Nat) : (s.advanceTo wid c).crews = s.crews := rfl
@[simp] theorem State.advanceTo_counters (s : State) (wid c : Nat) : (s.advanceTo wid c).counters = s.counters := rfl
@[simp] theorem State.advanceTo_queues (s : State) (wid c : Nat) : (s.advanceTo wid c).queues = s.queues := rfl
@[simp] theorem State.advanceTo_parts (s : State) (wid c : Nat) : (s.advanceTo wid c).parts = s.parts := rfl
@[simp] theorem State.advanceTo_cores (s : State) (wid c : Nat) : (s.advanceTo wid c).cores = s.cores := rfl
@[simp] theorem State.advanceTo_clusters (s : State) (wid c : Nat) : (s.advanceTo wid c).clusters = s.clusters := rfl
@[simp] theorem State.advanceTo_dies (s : State) (wid c : Nat) : (s.advanceTo wid c).dies = s.dies := rfl
@[simp] theorem State.advanceTo_host (s : State) (wid c : Nat) : (s.advanceTo wid c).host = s.host := rfl
@[simp] theorem State.advanceTo_pages (s : State) (wid c : Nat) : (s.advanceTo wid c).pages = s.pages := rfl
@[simp] theorem State.advanceTo_mem (s : State) (wid c : Nat) : (s.advanceTo wid c).mem = s.mem := rfl
@[simp] theorem State.advanceTo_poison (s : State) (wid c : Nat) : (s.advanceTo wid c).poison = s.poison := rfl
@[simp] theorem State.advanceTo_tags (s : State) (wid c : Nat) : (s.advanceTo wid c).tags = s.tags := rfl
@[simp] theorem State.advanceTo_cur (s : State) (wid c : Nat) : (s.advanceTo wid c).cur = s.cur := rfl
@[simp] theorem State.advanceTo_agenda (s : State) (wid c : Nat) : (s.advanceTo wid c).agenda = s.agenda := rfl
@[simp] theorem State.advanceTo_fresh (s : State) (wid c : Nat) : (s.advanceTo wid c).fresh = s.fresh := rfl

/-! `setLine` -/
@[simp] theorem State.setLine_warps (s : State) (d l : Nat) (x : CLine) : (s.setLine d l x).warps = s.warps := rfl
@[simp] theorem State.setLine_teams (s : State) (d l : Nat) (x : CLine) : (s.setLine d l x).teams = s.teams := rfl
@[simp] theorem State.setLine_launches (s : State) (d l : Nat) (x : CLine) : (s.setLine d l x).launches = s.launches := rfl
@[simp] theorem State.setLine_crews (s : State) (d l : Nat) (x : CLine) : (s.setLine d l x).crews = s.crews := rfl
@[simp] theorem State.setLine_counters (s : State) (d l : Nat) (x : CLine) : (s.setLine d l x).counters = s.counters := rfl
@[simp] theorem State.setLine_queues (s : State) (d l : Nat) (x : CLine) : (s.setLine d l x).queues = s.queues := rfl
@[simp] theorem State.setLine_parts (s : State) (d l : Nat) (x : CLine) : (s.setLine d l x).parts = s.parts := rfl
@[simp] theorem State.setLine_cores (s : State) (d l : Nat) (x : CLine) : (s.setLine d l x).cores = s.cores := rfl
@[simp] theorem State.setLine_clusters (s : State) (d l : Nat) (x : CLine) : (s.setLine d l x).clusters = s.clusters := rfl
@[simp] theorem State.setLine_host (s : State) (d l : Nat) (x : CLine) : (s.setLine d l x).host = s.host := rfl
@[simp] theorem State.setLine_pages (s : State) (d l : Nat) (x : CLine) : (s.setLine d l x).pages = s.pages := rfl
@[simp] theorem State.setLine_mem (s : State) (d l : Nat) (x : CLine) : (s.setLine d l x).mem = s.mem := rfl
@[simp] theorem State.setLine_poison (s : State) (d l : Nat) (x : CLine) : (s.setLine d l x).poison = s.poison := rfl
@[simp] theorem State.setLine_tags (s : State) (d l : Nat) (x : CLine) : (s.setLine d l x).tags = s.tags := rfl
@[simp] theorem State.setLine_gu (s : State) (d l : Nat) (x : CLine) : (s.setLine d l x).gu = s.gu := rfl
@[simp] theorem State.setLine_cur (s : State) (d l : Nat) (x : CLine) : (s.setLine d l x).cur = s.cur := rfl
@[simp] theorem State.setLine_agenda (s : State) (d l : Nat) (x : CLine) : (s.setLine d l x).agenda = s.agenda := rfl
@[simp] theorem State.setLine_fresh (s : State) (d l : Nat) (x : CLine) : (s.setLine d l x).fresh = s.fresh := rfl

/-! `dropLine` -/
@[simp] theorem State.dropLine_warps (s : State) (d l : Nat) : (s.dropLine d l).warps = s.warps := rfl
@[simp] theorem State.dropLine_teams (s : State) (d l : Nat) : (s.dropLine d l).teams = s.teams := rfl
@[simp] theorem State.dropLine_launches (s : State) (d l : Nat) : (s.dropLine d l).launches = s.launches := rfl
@[simp] theorem State.dropLine_crews (s : State) (d l : Nat) : (s.dropLine d l).crews = s.crews := rfl
@[simp] theorem State.dropLine_counters (s : State) (d l : Nat) : (s.dropLine d l).counters = s.counters := rfl
@[simp] theorem State.dropLine_queues (s : State) (d l : Nat) : (s.dropLine d l).queues = s.queues := rfl
@[simp] theorem State.dropLine_parts (s : State) (d l : Nat) : (s.dropLine d l).parts = s.parts := rfl
@[simp] theorem State.dropLine_cores (s : State) (d l : Nat) : (s.dropLine d l).cores = s.cores := rfl
@[simp] theorem State.dropLine_clusters (s : State) (d l : Nat) : (s.dropLine d l).clusters = s.clusters := rfl
@[simp] theorem State.dropLine_host (s : State) (d l : Nat) : (s.dropLine d l).host = s.host := rfl
@[simp] theorem State.dropLine_pages (s : State) (d l : Nat) : (s.dropLine d l).pages = s.pages := rfl
@[simp] theorem State.dropLine_mem (s : State) (d l : Nat) : (s.dropLine d l).mem = s.mem := rfl
@[simp] theorem State.dropLine_poison (s : State) (d l : Nat) : (s.dropLine d l).poison = s.poison := rfl
@[simp] theorem State.dropLine_tags (s : State) (d l : Nat) : (s.dropLine d l).tags = s.tags := rfl
@[simp] theorem State.dropLine_gu (s : State) (d l : Nat) : (s.dropLine d l).gu = s.gu := rfl
@[simp] theorem State.dropLine_cur (s : State) (d l : Nat) : (s.dropLine d l).cur = s.cur := rfl
@[simp] theorem State.dropLine_agenda (s : State) (d l : Nat) : (s.dropLine d l).agenda = s.agenda := rfl
@[simp] theorem State.dropLine_fresh (s : State) (d l : Nat) : (s.dropLine d l).fresh = s.fresh := rfl

/-! `shed` -/
@[simp] theorem State.shed_warps (s : State) (d : Nat) (f : Nat → CLine → Bool) : (s.shed d f).warps = s.warps := rfl
@[simp] theorem State.shed_teams (s : State) (d : Nat) (f : Nat → CLine → Bool) : (s.shed d f).teams = s.teams := rfl
@[simp] theorem State.shed_launches (s : State) (d : Nat) (f : Nat → CLine → Bool) : (s.shed d f).launches = s.launches := rfl
@[simp] theorem State.shed_crews (s : State) (d : Nat) (f : Nat → CLine → Bool) : (s.shed d f).crews = s.crews := rfl
@[simp] theorem State.shed_counters (s : State) (d : Nat) (f : Nat → CLine → Bool) : (s.shed d f).counters = s.counters := rfl
@[simp] theorem State.shed_queues (s : State) (d : Nat) (f : Nat → CLine → Bool) : (s.shed d f).queues = s.queues := rfl
@[simp] theorem State.shed_parts (s : State) (d : Nat) (f : Nat → CLine → Bool) : (s.shed d f).parts = s.parts := rfl
@[simp] theorem State.shed_cores (s : State) (d : Nat) (f : Nat → CLine → Bool) : (s.shed d f).cores = s.cores := rfl
@[simp] theorem State.shed_clusters (s : State) (d : Nat) (f : Nat → CLine → Bool) : (s.shed d f).clusters = s.clusters := rfl
@[simp] theorem State.shed_host (s : State) (d : Nat) (f : Nat → CLine → Bool) : (s.shed d f).host = s.host := rfl
@[simp] theorem State.shed_pages (s : State) (d : Nat) (f : Nat → CLine → Bool) : (s.shed d f).pages = s.pages := rfl
@[simp] theorem State.shed_mem (s : State) (d : Nat) (f : Nat → CLine → Bool) : (s.shed d f).mem = s.mem := rfl
@[simp] theorem State.shed_poison (s : State) (d : Nat) (f : Nat → CLine → Bool) : (s.shed d f).poison = s.poison := rfl
@[simp] theorem State.shed_tags (s : State) (d : Nat) (f : Nat → CLine → Bool) : (s.shed d f).tags = s.tags := rfl
@[simp] theorem State.shed_gu (s : State) (d : Nat) (f : Nat → CLine → Bool) : (s.shed d f).gu = s.gu := rfl
@[simp] theorem State.shed_cur (s : State) (d : Nat) (f : Nat → CLine → Bool) : (s.shed d f).cur = s.cur := rfl
@[simp] theorem State.shed_agenda (s : State) (d : Nat) (f : Nat → CLine → Bool) : (s.shed d f).agenda = s.agenda := rfl
@[simp] theorem State.shed_fresh (s : State) (d : Nat) (f : Nat → CLine → Bool) : (s.shed d f).fresh = s.fresh := rfl

/-! `learn` -/
@[simp] theorem State.learn_warps (s : State) (d : Nat) (t : List Nat) : (s.learn d t).warps = s.warps := rfl
@[simp] theorem State.learn_teams (s : State) (d : Nat) (t : List Nat) : (s.learn d t).teams = s.teams := rfl
@[simp] theorem State.learn_launches (s : State) (d : Nat) (t : List Nat) : (s.learn d t).launches = s.launches := rfl
@[simp] theorem State.learn_crews (s : State) (d : Nat) (t : List Nat) : (s.learn d t).crews = s.crews := rfl
@[simp] theorem State.learn_counters (s : State) (d : Nat) (t : List Nat) : (s.learn d t).counters = s.counters := rfl
@[simp] theorem State.learn_queues (s : State) (d : Nat) (t : List Nat) : (s.learn d t).queues = s.queues := rfl
@[simp] theorem State.learn_parts (s : State) (d : Nat) (t : List Nat) : (s.learn d t).parts = s.parts := rfl
@[simp] theorem State.learn_cores (s : State) (d : Nat) (t : List Nat) : (s.learn d t).cores = s.cores := rfl
@[simp] theorem State.learn_clusters (s : State) (d : Nat) (t : List Nat) : (s.learn d t).clusters = s.clusters := rfl
@[simp] theorem State.learn_host (s : State) (d : Nat) (t : List Nat) : (s.learn d t).host = s.host := rfl
@[simp] theorem State.learn_pages (s : State) (d : Nat) (t : List Nat) : (s.learn d t).pages = s.pages := rfl
@[simp] theorem State.learn_mem (s : State) (d : Nat) (t : List Nat) : (s.learn d t).mem = s.mem := rfl
@[simp] theorem State.learn_poison (s : State) (d : Nat) (t : List Nat) : (s.learn d t).poison = s.poison := rfl
@[simp] theorem State.learn_tags (s : State) (d : Nat) (t : List Nat) : (s.learn d t).tags = s.tags := rfl
@[simp] theorem State.learn_gu (s : State) (d : Nat) (t : List Nat) : (s.learn d t).gu = s.gu := rfl
@[simp] theorem State.learn_cur (s : State) (d : Nat) (t : List Nat) : (s.learn d t).cur = s.cur := rfl
@[simp] theorem State.learn_agenda (s : State) (d : Nat) (t : List Nat) : (s.learn d t).agenda = s.agenda := rfl
@[simp] theorem State.learn_fresh (s : State) (d : Nat) (t : List Nat) : (s.learn d t).fresh = s.fresh := rfl

/-! `setHomePoison` -/
@[simp] theorem State.setHomePoison_warps (s : State) (l : Nat) (p : Bool) : (s.setHomePoison l p).warps = s.warps := rfl
@[simp] theorem State.setHomePoison_teams (s : State) (l : Nat) (p : Bool) : (s.setHomePoison l p).teams = s.teams := rfl
@[simp] theorem State.setHomePoison_launches (s : State) (l : Nat) (p : Bool) : (s.setHomePoison l p).launches = s.launches := rfl
@[simp] theorem State.setHomePoison_crews (s : State) (l : Nat) (p : Bool) : (s.setHomePoison l p).crews = s.crews := rfl
@[simp] theorem State.setHomePoison_counters (s : State) (l : Nat) (p : Bool) : (s.setHomePoison l p).counters = s.counters := rfl
@[simp] theorem State.setHomePoison_queues (s : State) (l : Nat) (p : Bool) : (s.setHomePoison l p).queues = s.queues := rfl
@[simp] theorem State.setHomePoison_parts (s : State) (l : Nat) (p : Bool) : (s.setHomePoison l p).parts = s.parts := rfl
@[simp] theorem State.setHomePoison_cores (s : State) (l : Nat) (p : Bool) : (s.setHomePoison l p).cores = s.cores := rfl
@[simp] theorem State.setHomePoison_clusters (s : State) (l : Nat) (p : Bool) : (s.setHomePoison l p).clusters = s.clusters := rfl
@[simp] theorem State.setHomePoison_dies (s : State) (l : Nat) (p : Bool) : (s.setHomePoison l p).dies = s.dies := rfl
@[simp] theorem State.setHomePoison_host (s : State) (l : Nat) (p : Bool) : (s.setHomePoison l p).host = s.host := rfl
@[simp] theorem State.setHomePoison_pages (s : State) (l : Nat) (p : Bool) : (s.setHomePoison l p).pages = s.pages := rfl
@[simp] theorem State.setHomePoison_mem (s : State) (l : Nat) (p : Bool) : (s.setHomePoison l p).mem = s.mem := rfl
@[simp] theorem State.setHomePoison_tags (s : State) (l : Nat) (p : Bool) : (s.setHomePoison l p).tags = s.tags := rfl
@[simp] theorem State.setHomePoison_now (s : State) (l : Nat) (p : Bool) : (s.setHomePoison l p).now = s.now := rfl
@[simp] theorem State.setHomePoison_gu (s : State) (l : Nat) (p : Bool) : (s.setHomePoison l p).gu = s.gu := rfl
@[simp] theorem State.setHomePoison_cur (s : State) (l : Nat) (p : Bool) : (s.setHomePoison l p).cur = s.cur := rfl
@[simp] theorem State.setHomePoison_agenda (s : State) (l : Nat) (p : Bool) : (s.setHomePoison l p).agenda = s.agenda := rfl
@[simp] theorem State.setHomePoison_fresh (s : State) (l : Nat) (p : Bool) : (s.setHomePoison l p).fresh = s.fresh := rfl

/-! `debit` -/
@[simp] theorem State.debit_warps (s : State) (c w : Nat) : (s.debit c w).warps = s.warps := rfl
@[simp] theorem State.debit_teams (s : State) (c w : Nat) : (s.debit c w).teams = s.teams := rfl
@[simp] theorem State.debit_launches (s : State) (c w : Nat) : (s.debit c w).launches = s.launches := rfl
@[simp] theorem State.debit_crews (s : State) (c w : Nat) : (s.debit c w).crews = s.crews := rfl
@[simp] theorem State.debit_counters (s : State) (c w : Nat) : (s.debit c w).counters = s.counters := rfl
@[simp] theorem State.debit_queues (s : State) (c w : Nat) : (s.debit c w).queues = s.queues := rfl
@[simp] theorem State.debit_parts (s : State) (c w : Nat) : (s.debit c w).parts = s.parts := rfl
@[simp] theorem State.debit_cores (s : State) (c w : Nat) : (s.debit c w).cores = s.cores := rfl
@[simp] theorem State.debit_dies (s : State) (c w : Nat) : (s.debit c w).dies = s.dies := rfl
@[simp] theorem State.debit_host (s : State) (c w : Nat) : (s.debit c w).host = s.host := rfl
@[simp] theorem State.debit_pages (s : State) (c w : Nat) : (s.debit c w).pages = s.pages := rfl
@[simp] theorem State.debit_mem (s : State) (c w : Nat) : (s.debit c w).mem = s.mem := rfl
@[simp] theorem State.debit_poison (s : State) (c w : Nat) : (s.debit c w).poison = s.poison := rfl
@[simp] theorem State.debit_tags (s : State) (c w : Nat) : (s.debit c w).tags = s.tags := rfl
@[simp] theorem State.debit_now (s : State) (c w : Nat) : (s.debit c w).now = s.now := rfl
@[simp] theorem State.debit_gu (s : State) (c w : Nat) : (s.debit c w).gu = s.gu := rfl
@[simp] theorem State.debit_cur (s : State) (c w : Nat) : (s.debit c w).cur = s.cur := rfl
@[simp] theorem State.debit_agenda (s : State) (c w : Nat) : (s.debit c w).agenda = s.agenda := rfl
@[simp] theorem State.debit_fresh (s : State) (c w : Nat) : (s.debit c w).fresh = s.fresh := rfl

/-! `usedIssue` -/
@[simp] theorem State.usedIssue_warps (s : State) : (s.usedIssue).warps = s.warps := by unfold State.usedIssue; split <;> rfl
@[simp] theorem State.usedIssue_teams (s : State) : (s.usedIssue).teams = s.teams := by unfold State.usedIssue; split <;> rfl
@[simp] theorem State.usedIssue_launches (s : State) : (s.usedIssue).launches = s.launches := by unfold State.usedIssue; split <;> rfl
@[simp] theorem State.usedIssue_crews (s : State) : (s.usedIssue).crews = s.crews := by unfold State.usedIssue; split <;> rfl
@[simp] theorem State.usedIssue_counters (s : State) : (s.usedIssue).counters = s.counters := by unfold State.usedIssue; split <;> rfl
@[simp] theorem State.usedIssue_queues (s : State) : (s.usedIssue).queues = s.queues := by unfold State.usedIssue; split <;> rfl
@[simp] theorem State.usedIssue_parts (s : State) : (s.usedIssue).parts = s.parts := by unfold State.usedIssue; split <;> rfl
@[simp] theorem State.usedIssue_clusters (s : State) : (s.usedIssue).clusters = s.clusters := by unfold State.usedIssue; split <;> rfl
@[simp] theorem State.usedIssue_dies (s : State) : (s.usedIssue).dies = s.dies := by unfold State.usedIssue; split <;> rfl
@[simp] theorem State.usedIssue_host (s : State) : (s.usedIssue).host = s.host := by unfold State.usedIssue; split <;> rfl
@[simp] theorem State.usedIssue_pages (s : State) : (s.usedIssue).pages = s.pages := by unfold State.usedIssue; split <;> rfl
@[simp] theorem State.usedIssue_mem (s : State) : (s.usedIssue).mem = s.mem := by unfold State.usedIssue; split <;> rfl
@[simp] theorem State.usedIssue_poison (s : State) : (s.usedIssue).poison = s.poison := by unfold State.usedIssue; split <;> rfl
@[simp] theorem State.usedIssue_tags (s : State) : (s.usedIssue).tags = s.tags := by unfold State.usedIssue; split <;> rfl
@[simp] theorem State.usedIssue_now (s : State) : (s.usedIssue).now = s.now := by unfold State.usedIssue; split <;> rfl
@[simp] theorem State.usedIssue_gu (s : State) : (s.usedIssue).gu = s.gu := by unfold State.usedIssue; split <;> rfl
@[simp] theorem State.usedIssue_cur (s : State) : (s.usedIssue).cur = s.cur := by unfold State.usedIssue; split <;> rfl
@[simp] theorem State.usedIssue_agenda (s : State) : (s.usedIssue).agenda = s.agenda := by unfold State.usedIssue; split <;> rfl
@[simp] theorem State.usedIssue_fresh (s : State) : (s.usedIssue).fresh = s.fresh := by unfold State.usedIssue; split <;> rfl

/-! `debitW` -/
@[simp] theorem State.debitW_warps (s : State) (w : Nat) : (s.debitW w).warps = s.warps := by unfold State.debitW; split <;> rfl
@[simp] theorem State.debitW_teams (s : State) (w : Nat) : (s.debitW w).teams = s.teams := by unfold State.debitW; split <;> rfl
@[simp] theorem State.debitW_launches (s : State) (w : Nat) : (s.debitW w).launches = s.launches := by unfold State.debitW; split <;> rfl
@[simp] theorem State.debitW_crews (s : State) (w : Nat) : (s.debitW w).crews = s.crews := by unfold State.debitW; split <;> rfl
@[simp] theorem State.debitW_counters (s : State) (w : Nat) : (s.debitW w).counters = s.counters := by unfold State.debitW; split <;> rfl
@[simp] theorem State.debitW_queues (s : State) (w : Nat) : (s.debitW w).queues = s.queues := by unfold State.debitW; split <;> rfl
@[simp] theorem State.debitW_parts (s : State) (w : Nat) : (s.debitW w).parts = s.parts := by unfold State.debitW; split <;> rfl
@[simp] theorem State.debitW_cores (s : State) (w : Nat) : (s.debitW w).cores = s.cores := by unfold State.debitW; split <;> rfl
@[simp] theorem State.debitW_dies (s : State) (w : Nat) : (s.debitW w).dies = s.dies := by unfold State.debitW; split <;> rfl
@[simp] theorem State.debitW_host (s : State) (w : Nat) : (s.debitW w).host = s.host := by unfold State.debitW; split <;> rfl
@[simp] theorem State.debitW_pages (s : State) (w : Nat) : (s.debitW w).pages = s.pages := by unfold State.debitW; split <;> rfl
@[simp] theorem State.debitW_mem (s : State) (w : Nat) : (s.debitW w).mem = s.mem := by unfold State.debitW; split <;> rfl
@[simp] theorem State.debitW_poison (s : State) (w : Nat) : (s.debitW w).poison = s.poison := by unfold State.debitW; split <;> rfl
@[simp] theorem State.debitW_tags (s : State) (w : Nat) : (s.debitW w).tags = s.tags := by unfold State.debitW; split <;> rfl
@[simp] theorem State.debitW_now (s : State) (w : Nat) : (s.debitW w).now = s.now := by unfold State.debitW; split <;> rfl
@[simp] theorem State.debitW_gu (s : State) (w : Nat) : (s.debitW w).gu = s.gu := by unfold State.debitW; split <;> rfl
@[simp] theorem State.debitW_cur (s : State) (w : Nat) : (s.debitW w).cur = s.cur := by unfold State.debitW; split <;> rfl
@[simp] theorem State.debitW_agenda (s : State) (w : Nat) : (s.debitW w).agenda = s.agenda := by unfold State.debitW; split <;> rfl
@[simp] theorem State.debitW_fresh (s : State) (w : Nat) : (s.debitW w).fresh = s.fresh := by unfold State.debitW; split <;> rfl

/-! `lateBy` -/
@[simp] theorem State.lateBy_teams (s : State) (n : Nat) : (s.lateBy n).teams = s.teams := by unfold State.lateBy; split <;> rfl
@[simp] theorem State.lateBy_launches (s : State) (n : Nat) : (s.lateBy n).launches = s.launches := by unfold State.lateBy; split <;> rfl
@[simp] theorem State.lateBy_crews (s : State) (n : Nat) : (s.lateBy n).crews = s.crews := by unfold State.lateBy; split <;> rfl
@[simp] theorem State.lateBy_counters (s : State) (n : Nat) : (s.lateBy n).counters = s.counters := by unfold State.lateBy; split <;> rfl
@[simp] theorem State.lateBy_queues (s : State) (n : Nat) : (s.lateBy n).queues = s.queues := by unfold State.lateBy; split <;> rfl
@[simp] theorem State.lateBy_parts (s : State) (n : Nat) : (s.lateBy n).parts = s.parts := by unfold State.lateBy; split <;> rfl
@[simp] theorem State.lateBy_cores (s : State) (n : Nat) : (s.lateBy n).cores = s.cores := by unfold State.lateBy; split <;> rfl
@[simp] theorem State.lateBy_clusters (s : State) (n : Nat) : (s.lateBy n).clusters = s.clusters := by unfold State.lateBy; split <;> rfl
@[simp] theorem State.lateBy_dies (s : State) (n : Nat) : (s.lateBy n).dies = s.dies := by unfold State.lateBy; split <;> rfl
@[simp] theorem State.lateBy_host (s : State) (n : Nat) : (s.lateBy n).host = s.host := by unfold State.lateBy; split <;> rfl
@[simp] theorem State.lateBy_pages (s : State) (n : Nat) : (s.lateBy n).pages = s.pages := by unfold State.lateBy; split <;> rfl
@[simp] theorem State.lateBy_mem (s : State) (n : Nat) : (s.lateBy n).mem = s.mem := by unfold State.lateBy; split <;> rfl
@[simp] theorem State.lateBy_poison (s : State) (n : Nat) : (s.lateBy n).poison = s.poison := by unfold State.lateBy; split <;> rfl
@[simp] theorem State.lateBy_tags (s : State) (n : Nat) : (s.lateBy n).tags = s.tags := by unfold State.lateBy; split <;> rfl
@[simp] theorem State.lateBy_now (s : State) (n : Nat) : (s.lateBy n).now = s.now := by unfold State.lateBy; split <;> rfl
@[simp] theorem State.lateBy_gu (s : State) (n : Nat) : (s.lateBy n).gu = s.gu := by unfold State.lateBy; split <;> rfl
@[simp] theorem State.lateBy_cur (s : State) (n : Nat) : (s.lateBy n).cur = s.cur := by unfold State.lateBy; split <;> rfl
@[simp] theorem State.lateBy_agenda (s : State) (n : Nat) : (s.lateBy n).agenda = s.agenda := by unfold State.lateBy; split <;> rfl
@[simp] theorem State.lateBy_fresh (s : State) (n : Nat) : (s.lateBy n).fresh = s.fresh := by unfold State.lateBy; split <;> rfl

/-! `countIssue` -/
@[simp] theorem State.countIssue_teams (s : State) (h : Hdr) : (s.countIssue h).teams = s.teams := rfl
@[simp] theorem State.countIssue_launches (s : State) (h : Hdr) : (s.countIssue h).launches = s.launches := rfl
@[simp] theorem State.countIssue_crews (s : State) (h : Hdr) : (s.countIssue h).crews = s.crews := rfl
@[simp] theorem State.countIssue_counters (s : State) (h : Hdr) : (s.countIssue h).counters = s.counters := rfl
@[simp] theorem State.countIssue_queues (s : State) (h : Hdr) : (s.countIssue h).queues = s.queues := rfl
@[simp] theorem State.countIssue_parts (s : State) (h : Hdr) : (s.countIssue h).parts = s.parts := rfl
@[simp] theorem State.countIssue_cores (s : State) (h : Hdr) : (s.countIssue h).cores = s.cores := rfl
@[simp] theorem State.countIssue_clusters (s : State) (h : Hdr) : (s.countIssue h).clusters = s.clusters := rfl
@[simp] theorem State.countIssue_dies (s : State) (h : Hdr) : (s.countIssue h).dies = s.dies := rfl
@[simp] theorem State.countIssue_host (s : State) (h : Hdr) : (s.countIssue h).host = s.host := rfl
@[simp] theorem State.countIssue_pages (s : State) (h : Hdr) : (s.countIssue h).pages = s.pages := rfl
@[simp] theorem State.countIssue_mem (s : State) (h : Hdr) : (s.countIssue h).mem = s.mem := rfl
@[simp] theorem State.countIssue_poison (s : State) (h : Hdr) : (s.countIssue h).poison = s.poison := rfl
@[simp] theorem State.countIssue_tags (s : State) (h : Hdr) : (s.countIssue h).tags = s.tags := rfl
@[simp] theorem State.countIssue_now (s : State) (h : Hdr) : (s.countIssue h).now = s.now := rfl
@[simp] theorem State.countIssue_gu (s : State) (h : Hdr) : (s.countIssue h).gu = s.gu := rfl
@[simp] theorem State.countIssue_cur (s : State) (h : Hdr) : (s.countIssue h).cur = s.cur := rfl
@[simp] theorem State.countIssue_agenda (s : State) (h : Hdr) : (s.countIssue h).agenda = s.agenda := rfl
@[simp] theorem State.countIssue_fresh (s : State) (h : Hdr) : (s.countIssue h).fresh = s.fresh := rfl

/-! `goOn` -/
@[simp] theorem State.goOn_teams (s : State) (h : Hdr) (d : Nat) (pc : DWord) : (s.goOn h d pc).teams = s.teams := rfl
@[simp] theorem State.goOn_launches (s : State) (h : Hdr) (d : Nat) (pc : DWord) : (s.goOn h d pc).launches = s.launches := rfl
@[simp] theorem State.goOn_crews (s : State) (h : Hdr) (d : Nat) (pc : DWord) : (s.goOn h d pc).crews = s.crews := rfl
@[simp] theorem State.goOn_counters (s : State) (h : Hdr) (d : Nat) (pc : DWord) : (s.goOn h d pc).counters = s.counters := rfl
@[simp] theorem State.goOn_queues (s : State) (h : Hdr) (d : Nat) (pc : DWord) : (s.goOn h d pc).queues = s.queues := rfl
@[simp] theorem State.goOn_parts (s : State) (h : Hdr) (d : Nat) (pc : DWord) : (s.goOn h d pc).parts = s.parts := rfl
@[simp] theorem State.goOn_cores (s : State) (h : Hdr) (d : Nat) (pc : DWord) : (s.goOn h d pc).cores = s.cores := rfl
@[simp] theorem State.goOn_clusters (s : State) (h : Hdr) (d : Nat) (pc : DWord) : (s.goOn h d pc).clusters = s.clusters := rfl
@[simp] theorem State.goOn_dies (s : State) (h : Hdr) (d : Nat) (pc : DWord) : (s.goOn h d pc).dies = s.dies := rfl
@[simp] theorem State.goOn_host (s : State) (h : Hdr) (d : Nat) (pc : DWord) : (s.goOn h d pc).host = s.host := rfl
@[simp] theorem State.goOn_pages (s : State) (h : Hdr) (d : Nat) (pc : DWord) : (s.goOn h d pc).pages = s.pages := rfl
@[simp] theorem State.goOn_mem (s : State) (h : Hdr) (d : Nat) (pc : DWord) : (s.goOn h d pc).mem = s.mem := rfl
@[simp] theorem State.goOn_poison (s : State) (h : Hdr) (d : Nat) (pc : DWord) : (s.goOn h d pc).poison = s.poison := rfl
@[simp] theorem State.goOn_tags (s : State) (h : Hdr) (d : Nat) (pc : DWord) : (s.goOn h d pc).tags = s.tags := rfl
@[simp] theorem State.goOn_now (s : State) (h : Hdr) (d : Nat) (pc : DWord) : (s.goOn h d pc).now = s.now := rfl
@[simp] theorem State.goOn_gu (s : State) (h : Hdr) (d : Nat) (pc : DWord) : (s.goOn h d pc).gu = s.gu := rfl
@[simp] theorem State.goOn_cur (s : State) (h : Hdr) (d : Nat) (pc : DWord) : (s.goOn h d pc).cur = s.cur := rfl
@[simp] theorem State.goOn_agenda (s : State) (h : Hdr) (d : Nat) (pc : DWord) : (s.goOn h d pc).agenda = s.agenda := rfl
@[simp] theorem State.goOn_fresh (s : State) (h : Hdr) (d : Nat) (pc : DWord) : (s.goOn h d pc).fresh = s.fresh := rfl

/-! `noted` -/
@[simp] theorem State.noted_warps (s : State) (d l : Nat) : (s.noted d l).warps = s.warps := by unfold State.noted; dsimp only; split <;> rfl
@[simp] theorem State.noted_teams (s : State) (d l : Nat) : (s.noted d l).teams = s.teams := by unfold State.noted; dsimp only; split <;> rfl
@[simp] theorem State.noted_launches (s : State) (d l : Nat) : (s.noted d l).launches = s.launches := by unfold State.noted; dsimp only; split <;> rfl
@[simp] theorem State.noted_crews (s : State) (d l : Nat) : (s.noted d l).crews = s.crews := by unfold State.noted; dsimp only; split <;> rfl
@[simp] theorem State.noted_counters (s : State) (d l : Nat) : (s.noted d l).counters = s.counters := by unfold State.noted; dsimp only; split <;> rfl
@[simp] theorem State.noted_queues (s : State) (d l : Nat) : (s.noted d l).queues = s.queues := by unfold State.noted; dsimp only; split <;> rfl
@[simp] theorem State.noted_parts (s : State) (d l : Nat) : (s.noted d l).parts = s.parts := by unfold State.noted; dsimp only; split <;> rfl
@[simp] theorem State.noted_cores (s : State) (d l : Nat) : (s.noted d l).cores = s.cores := by unfold State.noted; dsimp only; split <;> rfl
@[simp] theorem State.noted_clusters (s : State) (d l : Nat) : (s.noted d l).clusters = s.clusters := by unfold State.noted; dsimp only; split <;> rfl
@[simp] theorem State.noted_host (s : State) (d l : Nat) : (s.noted d l).host = s.host := by unfold State.noted; dsimp only; split <;> rfl
@[simp] theorem State.noted_pages (s : State) (d l : Nat) : (s.noted d l).pages = s.pages := by unfold State.noted; dsimp only; split <;> rfl
@[simp] theorem State.noted_mem (s : State) (d l : Nat) : (s.noted d l).mem = s.mem := by unfold State.noted; dsimp only; split <;> rfl
@[simp] theorem State.noted_poison (s : State) (d l : Nat) : (s.noted d l).poison = s.poison := by unfold State.noted; dsimp only; split <;> rfl
@[simp] theorem State.noted_gu (s : State) (d l : Nat) : (s.noted d l).gu = s.gu := by unfold State.noted; dsimp only; split <;> rfl
@[simp] theorem State.noted_cur (s : State) (d l : Nat) : (s.noted d l).cur = s.cur := by unfold State.noted; dsimp only; split <;> rfl
@[simp] theorem State.noted_agenda (s : State) (d l : Nat) : (s.noted d l).agenda = s.agenda := by unfold State.noted; dsimp only; split <;> rfl
@[simp] theorem State.noted_fresh (s : State) (d l : Nat) : (s.noted d l).fresh = s.fresh := by unfold State.noted; dsimp only; split <;> rfl

/-! `homeStore` -/
@[simp] theorem State.homeStore_warps (s : State) (d pa : Nat) (b : List Byte) : (s.homeStore d pa b).warps = s.warps := by unfold State.homeStore; split <;> simp
@[simp] theorem State.homeStore_teams (s : State) (d pa : Nat) (b : List Byte) : (s.homeStore d pa b).teams = s.teams := by unfold State.homeStore; split <;> simp
@[simp] theorem State.homeStore_launches (s : State) (d pa : Nat) (b : List Byte) : (s.homeStore d pa b).launches = s.launches := by unfold State.homeStore; split <;> simp
@[simp] theorem State.homeStore_crews (s : State) (d pa : Nat) (b : List Byte) : (s.homeStore d pa b).crews = s.crews := by unfold State.homeStore; split <;> simp
@[simp] theorem State.homeStore_counters (s : State) (d pa : Nat) (b : List Byte) : (s.homeStore d pa b).counters = s.counters := by unfold State.homeStore; split <;> simp
@[simp] theorem State.homeStore_queues (s : State) (d pa : Nat) (b : List Byte) : (s.homeStore d pa b).queues = s.queues := by unfold State.homeStore; split <;> simp
@[simp] theorem State.homeStore_parts (s : State) (d pa : Nat) (b : List Byte) : (s.homeStore d pa b).parts = s.parts := by unfold State.homeStore; split <;> simp
@[simp] theorem State.homeStore_cores (s : State) (d pa : Nat) (b : List Byte) : (s.homeStore d pa b).cores = s.cores := by unfold State.homeStore; split <;> simp
@[simp] theorem State.homeStore_clusters (s : State) (d pa : Nat) (b : List Byte) : (s.homeStore d pa b).clusters = s.clusters := by unfold State.homeStore; split <;> simp
@[simp] theorem State.homeStore_host (s : State) (d pa : Nat) (b : List Byte) : (s.homeStore d pa b).host = s.host := by unfold State.homeStore; split <;> simp
@[simp] theorem State.homeStore_pages (s : State) (d pa : Nat) (b : List Byte) : (s.homeStore d pa b).pages = s.pages := by unfold State.homeStore; split <;> simp
@[simp] theorem State.homeStore_poison (s : State) (d pa : Nat) (b : List Byte) : (s.homeStore d pa b).poison = s.poison := by unfold State.homeStore; split <;> simp
@[simp] theorem State.homeStore_gu (s : State) (d pa : Nat) (b : List Byte) : (s.homeStore d pa b).gu = s.gu := by unfold State.homeStore; split <;> simp
@[simp] theorem State.homeStore_cur (s : State) (d pa : Nat) (b : List Byte) : (s.homeStore d pa b).cur = s.cur := by unfold State.homeStore; split <;> simp
@[simp] theorem State.homeStore_agenda (s : State) (d pa : Nat) (b : List Byte) : (s.homeStore d pa b).agenda = s.agenda := by unfold State.homeStore; split <;> simp
@[simp] theorem State.homeStore_fresh (s : State) (d pa : Nat) (b : List Byte) : (s.homeStore d pa b).fresh = s.fresh := by unfold State.homeStore; split <;> simp

/-! `homeWrite` -/
theorem State.foldl_noted_warps (k : Nat) (l : List Nat) : ∀ s : State, (l.foldl (fun s i => s.noted 4 (k + i)) s).warps = s.warps := by
  induction l with
  | nil => exact fun _ => rfl
  | cons a l ih => exact fun s => (ih _).trans (State.noted_warps s 4 (k + a))
theorem State.foldl_noted_teams (k : Nat) (l : List Nat) : ∀ s : State, (l.foldl (fun s i => s.noted 4 (k + i)) s).teams = s.teams := by
  induction l with
  | nil => exact fun _ => rfl
  | cons a l ih => exact fun s => (ih _).trans (State.noted_teams s 4 (k + a))
theorem State.foldl_noted_launches (k : Nat) (l : List Nat) : ∀ s : State, (l.foldl (fun s i => s.noted 4 (k + i)) s).launches = s.launches := by
  induction l with
  | nil => exact fun _ => rfl
  | cons a l ih => exact fun s => (ih _).trans (State.noted_launches s 4 (k + a))
theorem State.foldl_noted_crews (k : Nat) (l : List Nat) : ∀ s : State, (l.foldl (fun s i => s.noted 4 (k + i)) s).crews = s.crews := by
  induction l with
  | nil => exact fun _ => rfl
  | cons a l ih => exact fun s => (ih _).trans (State.noted_crews s 4 (k + a))
theorem State.foldl_noted_counters (k : Nat) (l : List Nat) : ∀ s : State, (l.foldl (fun s i => s.noted 4 (k + i)) s).counters = s.counters := by
  induction l with
  | nil => exact fun _ => rfl
  | cons a l ih => exact fun s => (ih _).trans (State.noted_counters s 4 (k + a))
theorem State.foldl_noted_queues (k : Nat) (l : List Nat) : ∀ s : State, (l.foldl (fun s i => s.noted 4 (k + i)) s).queues = s.queues := by
  induction l with
  | nil => exact fun _ => rfl
  | cons a l ih => exact fun s => (ih _).trans (State.noted_queues s 4 (k + a))
theorem State.foldl_noted_parts (k : Nat) (l : List Nat) : ∀ s : State, (l.foldl (fun s i => s.noted 4 (k + i)) s).parts = s.parts := by
  induction l with
  | nil => exact fun _ => rfl
  | cons a l ih => exact fun s => (ih _).trans (State.noted_parts s 4 (k + a))
theorem State.foldl_noted_cores (k : Nat) (l : List Nat) : ∀ s : State, (l.foldl (fun s i => s.noted 4 (k + i)) s).cores = s.cores := by
  induction l with
  | nil => exact fun _ => rfl
  | cons a l ih => exact fun s => (ih _).trans (State.noted_cores s 4 (k + a))
theorem State.foldl_noted_clusters (k : Nat) (l : List Nat) : ∀ s : State, (l.foldl (fun s i => s.noted 4 (k + i)) s).clusters = s.clusters := by
  induction l with
  | nil => exact fun _ => rfl
  | cons a l ih => exact fun s => (ih _).trans (State.noted_clusters s 4 (k + a))
theorem State.foldl_noted_host (k : Nat) (l : List Nat) : ∀ s : State, (l.foldl (fun s i => s.noted 4 (k + i)) s).host = s.host := by
  induction l with
  | nil => exact fun _ => rfl
  | cons a l ih => exact fun s => (ih _).trans (State.noted_host s 4 (k + a))
theorem State.foldl_noted_pages (k : Nat) (l : List Nat) : ∀ s : State, (l.foldl (fun s i => s.noted 4 (k + i)) s).pages = s.pages := by
  induction l with
  | nil => exact fun _ => rfl
  | cons a l ih => exact fun s => (ih _).trans (State.noted_pages s 4 (k + a))
theorem State.foldl_noted_poison (k : Nat) (l : List Nat) : ∀ s : State, (l.foldl (fun s i => s.noted 4 (k + i)) s).poison = s.poison := by
  induction l with
  | nil => exact fun _ => rfl
  | cons a l ih => exact fun s => (ih _).trans (State.noted_poison s 4 (k + a))
theorem State.foldl_noted_gu (k : Nat) (l : List Nat) : ∀ s : State, (l.foldl (fun s i => s.noted 4 (k + i)) s).gu = s.gu := by
  induction l with
  | nil => exact fun _ => rfl
  | cons a l ih => exact fun s => (ih _).trans (State.noted_gu s 4 (k + a))
theorem State.foldl_noted_cur (k : Nat) (l : List Nat) : ∀ s : State, (l.foldl (fun s i => s.noted 4 (k + i)) s).cur = s.cur := by
  induction l with
  | nil => exact fun _ => rfl
  | cons a l ih => exact fun s => (ih _).trans (State.noted_cur s 4 (k + a))
theorem State.foldl_noted_agenda (k : Nat) (l : List Nat) : ∀ s : State, (l.foldl (fun s i => s.noted 4 (k + i)) s).agenda = s.agenda := by
  induction l with
  | nil => exact fun _ => rfl
  | cons a l ih => exact fun s => (ih _).trans (State.noted_agenda s 4 (k + a))
theorem State.foldl_noted_fresh (k : Nat) (l : List Nat) : ∀ s : State, (l.foldl (fun s i => s.noted 4 (k + i)) s).fresh = s.fresh := by
  induction l with
  | nil => exact fun _ => rfl
  | cons a l ih => exact fun s => (ih _).trans (State.noted_fresh s 4 (k + a))
theorem State.foldl_noted_mem (k : Nat) (l : List Nat) : ∀ s : State, (l.foldl (fun s i => s.noted 4 (k + i)) s).mem = s.mem := by
  induction l with
  | nil => exact fun _ => rfl
  | cons a l ih => exact fun s => (ih _).trans (State.noted_mem s 4 (k + a))
@[simp] theorem State.homeWrite_warps (s : State) (pa : Nat) (b : List Byte) : (s.homeWrite pa b).warps = s.warps := by unfold State.homeWrite; split <;> simp [State.foldl_noted_warps]
@[simp] theorem State.homeWrite_teams (s : State) (pa : Nat) (b : List Byte) : (s.homeWrite pa b).teams = s.teams := by unfold State.homeWrite; split <;> simp [State.foldl_noted_teams]
@[simp] theorem State.homeWrite_launches (s : State) (pa : Nat) (b : List Byte) : (s.homeWrite pa b).launches = s.launches := by unfold State.homeWrite; split <;> simp [State.foldl_noted_launches]
@[simp] theorem State.homeWrite_crews (s : State) (pa : Nat) (b : List Byte) : (s.homeWrite pa b).crews = s.crews := by unfold State.homeWrite; split <;> simp [State.foldl_noted_crews]
@[simp] theorem State.homeWrite_counters (s : State) (pa : Nat) (b : List Byte) : (s.homeWrite pa b).counters = s.counters := by unfold State.homeWrite; split <;> simp [State.foldl_noted_counters]
@[simp] theorem State.homeWrite_queues (s : State) (pa : Nat) (b : List Byte) : (s.homeWrite pa b).queues = s.queues := by unfold State.homeWrite; split <;> simp [State.foldl_noted_queues]
@[simp] theorem State.homeWrite_parts (s : State) (pa : Nat) (b : List Byte) : (s.homeWrite pa b).parts = s.parts := by unfold State.homeWrite; split <;> simp [State.foldl_noted_parts]
@[simp] theorem State.homeWrite_cores (s : State) (pa : Nat) (b : List Byte) : (s.homeWrite pa b).cores = s.cores := by unfold State.homeWrite; split <;> simp [State.foldl_noted_cores]
@[simp] theorem State.homeWrite_clusters (s : State) (pa : Nat) (b : List Byte) : (s.homeWrite pa b).clusters = s.clusters := by unfold State.homeWrite; split <;> simp [State.foldl_noted_clusters]
@[simp] theorem State.homeWrite_host (s : State) (pa : Nat) (b : List Byte) : (s.homeWrite pa b).host = s.host := by unfold State.homeWrite; split <;> simp [State.foldl_noted_host]
@[simp] theorem State.homeWrite_pages (s : State) (pa : Nat) (b : List Byte) : (s.homeWrite pa b).pages = s.pages := by unfold State.homeWrite; split <;> simp [State.foldl_noted_pages]
@[simp] theorem State.homeWrite_poison (s : State) (pa : Nat) (b : List Byte) : (s.homeWrite pa b).poison = s.poison := by unfold State.homeWrite; split <;> simp [State.foldl_noted_poison]
@[simp] theorem State.homeWrite_gu (s : State) (pa : Nat) (b : List Byte) : (s.homeWrite pa b).gu = s.gu := by unfold State.homeWrite; split <;> simp [State.foldl_noted_gu]
@[simp] theorem State.homeWrite_cur (s : State) (pa : Nat) (b : List Byte) : (s.homeWrite pa b).cur = s.cur := by unfold State.homeWrite; split <;> simp [State.foldl_noted_cur]
@[simp] theorem State.homeWrite_agenda (s : State) (pa : Nat) (b : List Byte) : (s.homeWrite pa b).agenda = s.agenda := by unfold State.homeWrite; split <;> simp [State.foldl_noted_agenda]
@[simp] theorem State.homeWrite_fresh (s : State) (pa : Nat) (b : List Byte) : (s.homeWrite pa b).fresh = s.fresh := by unfold State.homeWrite; split <;> simp [State.foldl_noted_fresh]

/-! `hold` -/
@[simp] theorem State.hold_teams (s : State) (c : Nat) : (s.hold c).teams = s.teams := rfl
@[simp] theorem State.hold_launches (s : State) (c : Nat) : (s.hold c).launches = s.launches := rfl
@[simp] theorem State.hold_crews (s : State) (c : Nat) : (s.hold c).crews = s.crews := rfl
@[simp] theorem State.hold_counters (s : State) (c : Nat) : (s.hold c).counters = s.counters := rfl
@[simp] theorem State.hold_queues (s : State) (c : Nat) : (s.hold c).queues = s.queues := rfl
@[simp] theorem State.hold_parts (s : State) (c : Nat) : (s.hold c).parts = s.parts := rfl
@[simp] theorem State.hold_cores (s : State) (c : Nat) : (s.hold c).cores = s.cores := rfl
@[simp] theorem State.hold_clusters (s : State) (c : Nat) : (s.hold c).clusters = s.clusters := rfl
@[simp] theorem State.hold_dies (s : State) (c : Nat) : (s.hold c).dies = s.dies := rfl
@[simp] theorem State.hold_host (s : State) (c : Nat) : (s.hold c).host = s.host := rfl
@[simp] theorem State.hold_pages (s : State) (c : Nat) : (s.hold c).pages = s.pages := rfl
@[simp] theorem State.hold_mem (s : State) (c : Nat) : (s.hold c).mem = s.mem := rfl
@[simp] theorem State.hold_poison (s : State) (c : Nat) : (s.hold c).poison = s.poison := rfl
@[simp] theorem State.hold_tags (s : State) (c : Nat) : (s.hold c).tags = s.tags := rfl
@[simp] theorem State.hold_now (s : State) (c : Nat) : (s.hold c).now = s.now := rfl
@[simp] theorem State.hold_gu (s : State) (c : Nat) : (s.hold c).gu = s.gu := rfl
@[simp] theorem State.hold_cur (s : State) (c : Nat) : (s.hold c).cur = s.cur := rfl
@[simp] theorem State.hold_agenda (s : State) (c : Nat) : (s.hold c).agenda = s.agenda := rfl
@[simp] theorem State.hold_fresh (s : State) (c : Nat) : (s.hold c).fresh = s.fresh := rfl

/-! `waitOn` -/
@[simp] theorem State.waitOn_teams (s : State) (x : Wait) : (s.waitOn x).teams = s.teams := rfl
@[simp] theorem State.waitOn_launches (s : State) (x : Wait) : (s.waitOn x).launches = s.launches := rfl
@[simp] theorem State.waitOn_crews (s : State) (x : Wait) : (s.waitOn x).crews = s.crews := rfl
@[simp] theorem State.waitOn_counters (s : State) (x : Wait) : (s.waitOn x).counters = s.counters := rfl
@[simp] theorem State.waitOn_queues (s : State) (x : Wait) : (s.waitOn x).queues = s.queues := rfl
@[simp] theorem State.waitOn_parts (s : State) (x : Wait) : (s.waitOn x).parts = s.parts := rfl
@[simp] theorem State.waitOn_cores (s : State) (x : Wait) : (s.waitOn x).cores = s.cores := rfl
@[simp] theorem State.waitOn_clusters (s : State) (x : Wait) : (s.waitOn x).clusters = s.clusters := rfl
@[simp] theorem State.waitOn_dies (s : State) (x : Wait) : (s.waitOn x).dies = s.dies := rfl
@[simp] theorem State.waitOn_host (s : State) (x : Wait) : (s.waitOn x).host = s.host := rfl
@[simp] theorem State.waitOn_pages (s : State) (x : Wait) : (s.waitOn x).pages = s.pages := rfl
@[simp] theorem State.waitOn_mem (s : State) (x : Wait) : (s.waitOn x).mem = s.mem := rfl
@[simp] theorem State.waitOn_poison (s : State) (x : Wait) : (s.waitOn x).poison = s.poison := rfl
@[simp] theorem State.waitOn_tags (s : State) (x : Wait) : (s.waitOn x).tags = s.tags := rfl
@[simp] theorem State.waitOn_now (s : State) (x : Wait) : (s.waitOn x).now = s.now := rfl
@[simp] theorem State.waitOn_gu (s : State) (x : Wait) : (s.waitOn x).gu = s.gu := rfl
@[simp] theorem State.waitOn_cur (s : State) (x : Wait) : (s.waitOn x).cur = s.cur := rfl
@[simp] theorem State.waitOn_agenda (s : State) (x : Wait) : (s.waitOn x).agenda = s.agenda := rfl
@[simp] theorem State.waitOn_fresh (s : State) (x : Wait) : (s.waitOn x).fresh = s.fresh := rfl

/-! `takeUnit` -/
@[simp] theorem State.takeUnit_warps (s : State) (u n : Nat) : (s.takeUnit u n).warps = s.warps := by unfold State.takeUnit; split <;> rfl
@[simp] theorem State.takeUnit_teams (s : State) (u n : Nat) : (s.takeUnit u n).teams = s.teams := by unfold State.takeUnit; split <;> rfl
@[simp] theorem State.takeUnit_launches (s : State) (u n : Nat) : (s.takeUnit u n).launches = s.launches := by unfold State.takeUnit; split <;> rfl
@[simp] theorem State.takeUnit_crews (s : State) (u n : Nat) : (s.takeUnit u n).crews = s.crews := by unfold State.takeUnit; split <;> rfl
@[simp] theorem State.takeUnit_counters (s : State) (u n : Nat) : (s.takeUnit u n).counters = s.counters := by unfold State.takeUnit; split <;> rfl
@[simp] theorem State.takeUnit_queues (s : State) (u n : Nat) : (s.takeUnit u n).queues = s.queues := by unfold State.takeUnit; split <;> rfl
@[simp] theorem State.takeUnit_parts (s : State) (u n : Nat) : (s.takeUnit u n).parts = s.parts := by unfold State.takeUnit; split <;> rfl
@[simp] theorem State.takeUnit_clusters (s : State) (u n : Nat) : (s.takeUnit u n).clusters = s.clusters := by unfold State.takeUnit; split <;> rfl
@[simp] theorem State.takeUnit_dies (s : State) (u n : Nat) : (s.takeUnit u n).dies = s.dies := by unfold State.takeUnit; split <;> rfl
@[simp] theorem State.takeUnit_host (s : State) (u n : Nat) : (s.takeUnit u n).host = s.host := by unfold State.takeUnit; split <;> rfl
@[simp] theorem State.takeUnit_pages (s : State) (u n : Nat) : (s.takeUnit u n).pages = s.pages := by unfold State.takeUnit; split <;> rfl
@[simp] theorem State.takeUnit_mem (s : State) (u n : Nat) : (s.takeUnit u n).mem = s.mem := by unfold State.takeUnit; split <;> rfl
@[simp] theorem State.takeUnit_poison (s : State) (u n : Nat) : (s.takeUnit u n).poison = s.poison := by unfold State.takeUnit; split <;> rfl
@[simp] theorem State.takeUnit_tags (s : State) (u n : Nat) : (s.takeUnit u n).tags = s.tags := by unfold State.takeUnit; split <;> rfl
@[simp] theorem State.takeUnit_now (s : State) (u n : Nat) : (s.takeUnit u n).now = s.now := by unfold State.takeUnit; split <;> rfl
@[simp] theorem State.takeUnit_gu (s : State) (u n : Nat) : (s.takeUnit u n).gu = s.gu := by unfold State.takeUnit; split <;> rfl
@[simp] theorem State.takeUnit_cur (s : State) (u n : Nat) : (s.takeUnit u n).cur = s.cur := by unfold State.takeUnit; split <;> rfl
@[simp] theorem State.takeUnit_agenda (s : State) (u n : Nat) : (s.takeUnit u n).agenda = s.agenda := by unfold State.takeUnit; split <;> rfl
@[simp] theorem State.takeUnit_fresh (s : State) (u n : Nat) : (s.takeUnit u n).fresh = s.fresh := by unfold State.takeUnit; split <;> rfl

/-! `occupy` -/
@[simp] theorem State.occupy_warps (s : State) (o : Occupancy) : (s.occupy o).warps = s.warps := by unfold State.occupy; split <;> (try split) <;> simp only [State.debitW] <;> (try split) <;> rfl
@[simp] theorem State.occupy_teams (s : State) (o : Occupancy) : (s.occupy o).teams = s.teams := by unfold State.occupy; split <;> (try split) <;> simp only [State.debitW] <;> (try split) <;> rfl
@[simp] theorem State.occupy_launches (s : State) (o : Occupancy) : (s.occupy o).launches = s.launches := by unfold State.occupy; split <;> (try split) <;> simp only [State.debitW] <;> (try split) <;> rfl
@[simp] theorem State.occupy_crews (s : State) (o : Occupancy) : (s.occupy o).crews = s.crews := by unfold State.occupy; split <;> (try split) <;> simp only [State.debitW] <;> (try split) <;> rfl
@[simp] theorem State.occupy_counters (s : State) (o : Occupancy) : (s.occupy o).counters = s.counters := by unfold State.occupy; split <;> (try split) <;> simp only [State.debitW] <;> (try split) <;> rfl
@[simp] theorem State.occupy_queues (s : State) (o : Occupancy) : (s.occupy o).queues = s.queues := by unfold State.occupy; split <;> (try split) <;> simp only [State.debitW] <;> (try split) <;> rfl
@[simp] theorem State.occupy_parts (s : State) (o : Occupancy) : (s.occupy o).parts = s.parts := by unfold State.occupy; split <;> (try split) <;> simp only [State.debitW] <;> (try split) <;> rfl
@[simp] theorem State.occupy_dies (s : State) (o : Occupancy) : (s.occupy o).dies = s.dies := by unfold State.occupy; split <;> (try split) <;> simp only [State.debitW] <;> (try split) <;> rfl
@[simp] theorem State.occupy_host (s : State) (o : Occupancy) : (s.occupy o).host = s.host := by unfold State.occupy; split <;> (try split) <;> simp only [State.debitW] <;> (try split) <;> rfl
@[simp] theorem State.occupy_pages (s : State) (o : Occupancy) : (s.occupy o).pages = s.pages := by unfold State.occupy; split <;> (try split) <;> simp only [State.debitW] <;> (try split) <;> rfl
@[simp] theorem State.occupy_mem (s : State) (o : Occupancy) : (s.occupy o).mem = s.mem := by unfold State.occupy; split <;> (try split) <;> simp only [State.debitW] <;> (try split) <;> rfl
@[simp] theorem State.occupy_poison (s : State) (o : Occupancy) : (s.occupy o).poison = s.poison := by unfold State.occupy; split <;> (try split) <;> simp only [State.debitW] <;> (try split) <;> rfl
@[simp] theorem State.occupy_tags (s : State) (o : Occupancy) : (s.occupy o).tags = s.tags := by unfold State.occupy; split <;> (try split) <;> simp only [State.debitW] <;> (try split) <;> rfl
@[simp] theorem State.occupy_now (s : State) (o : Occupancy) : (s.occupy o).now = s.now := by unfold State.occupy; split <;> (try split) <;> simp only [State.debitW] <;> (try split) <;> rfl
@[simp] theorem State.occupy_gu (s : State) (o : Occupancy) : (s.occupy o).gu = s.gu := by unfold State.occupy; split <;> (try split) <;> simp only [State.debitW] <;> (try split) <;> rfl
@[simp] theorem State.occupy_cur (s : State) (o : Occupancy) : (s.occupy o).cur = s.cur := by unfold State.occupy; split <;> (try split) <;> simp only [State.debitW] <;> (try split) <;> rfl
@[simp] theorem State.occupy_agenda (s : State) (o : Occupancy) : (s.occupy o).agenda = s.agenda := by unfold State.occupy; split <;> (try split) <;> simp only [State.debitW] <;> (try split) <;> rfl
@[simp] theorem State.occupy_fresh (s : State) (o : Occupancy) : (s.occupy o).fresh = s.fresh := by unfold State.occupy; split <;> (try split) <;> simp only [State.debitW] <;> (try split) <;> rfl

/-! `modTeam` -/
@[simp] theorem State.modTeam_warps (s : State) (i : Nat) (f : Team → Team) : (s.modTeam i f).warps = s.warps := by unfold State.modTeam; split <;> rfl
@[simp] theorem State.modTeam_launches (s : State) (i : Nat) (f : Team → Team) : (s.modTeam i f).launches = s.launches := by unfold State.modTeam; split <;> rfl
@[simp] theorem State.modTeam_crews (s : State) (i : Nat) (f : Team → Team) : (s.modTeam i f).crews = s.crews := by unfold State.modTeam; split <;> rfl
@[simp] theorem State.modTeam_counters (s : State) (i : Nat) (f : Team → Team) : (s.modTeam i f).counters = s.counters := by unfold State.modTeam; split <;> rfl
@[simp] theorem State.modTeam_queues (s : State) (i : Nat) (f : Team → Team) : (s.modTeam i f).queues = s.queues := by unfold State.modTeam; split <;> rfl
@[simp] theorem State.modTeam_parts (s : State) (i : Nat) (f : Team → Team) : (s.modTeam i f).parts = s.parts := by unfold State.modTeam; split <;> rfl
@[simp] theorem State.modTeam_cores (s : State) (i : Nat) (f : Team → Team) : (s.modTeam i f).cores = s.cores := by unfold State.modTeam; split <;> rfl
@[simp] theorem State.modTeam_clusters (s : State) (i : Nat) (f : Team → Team) : (s.modTeam i f).clusters = s.clusters := by unfold State.modTeam; split <;> rfl
@[simp] theorem State.modTeam_dies (s : State) (i : Nat) (f : Team → Team) : (s.modTeam i f).dies = s.dies := by unfold State.modTeam; split <;> rfl
@[simp] theorem State.modTeam_host (s : State) (i : Nat) (f : Team → Team) : (s.modTeam i f).host = s.host := by unfold State.modTeam; split <;> rfl
@[simp] theorem State.modTeam_pages (s : State) (i : Nat) (f : Team → Team) : (s.modTeam i f).pages = s.pages := by unfold State.modTeam; split <;> rfl
@[simp] theorem State.modTeam_mem (s : State) (i : Nat) (f : Team → Team) : (s.modTeam i f).mem = s.mem := by unfold State.modTeam; split <;> rfl
@[simp] theorem State.modTeam_poison (s : State) (i : Nat) (f : Team → Team) : (s.modTeam i f).poison = s.poison := by unfold State.modTeam; split <;> rfl
@[simp] theorem State.modTeam_tags (s : State) (i : Nat) (f : Team → Team) : (s.modTeam i f).tags = s.tags := by unfold State.modTeam; split <;> rfl
@[simp] theorem State.modTeam_now (s : State) (i : Nat) (f : Team → Team) : (s.modTeam i f).now = s.now := by unfold State.modTeam; split <;> rfl
@[simp] theorem State.modTeam_gu (s : State) (i : Nat) (f : Team → Team) : (s.modTeam i f).gu = s.gu := by unfold State.modTeam; split <;> rfl
@[simp] theorem State.modTeam_cur (s : State) (i : Nat) (f : Team → Team) : (s.modTeam i f).cur = s.cur := by unfold State.modTeam; split <;> rfl
@[simp] theorem State.modTeam_agenda (s : State) (i : Nat) (f : Team → Team) : (s.modTeam i f).agenda = s.agenda := by unfold State.modTeam; split <;> rfl
@[simp] theorem State.modTeam_fresh (s : State) (i : Nat) (f : Team → Team) : (s.modTeam i f).fresh = s.fresh := by unfold State.modTeam; split <;> rfl

/-! `modLaunch` -/
@[simp] theorem State.modLaunch_warps (s : State) (i : Nat) (f : Launch → Launch) : (s.modLaunch i f).warps = s.warps := by unfold State.modLaunch; split <;> rfl
@[simp] theorem State.modLaunch_teams (s : State) (i : Nat) (f : Launch → Launch) : (s.modLaunch i f).teams = s.teams := by unfold State.modLaunch; split <;> rfl
@[simp] theorem State.modLaunch_crews (s : State) (i : Nat) (f : Launch → Launch) : (s.modLaunch i f).crews = s.crews := by unfold State.modLaunch; split <;> rfl
@[simp] theorem State.modLaunch_counters (s : State) (i : Nat) (f : Launch → Launch) : (s.modLaunch i f).counters = s.counters := by unfold State.modLaunch; split <;> rfl
@[simp] theorem State.modLaunch_queues (s : State) (i : Nat) (f : Launch → Launch) : (s.modLaunch i f).queues = s.queues := by unfold State.modLaunch; split <;> rfl
@[simp] theorem State.modLaunch_parts (s : State) (i : Nat) (f : Launch → Launch) : (s.modLaunch i f).parts = s.parts := by unfold State.modLaunch; split <;> rfl
@[simp] theorem State.modLaunch_cores (s : State) (i : Nat) (f : Launch → Launch) : (s.modLaunch i f).cores = s.cores := by unfold State.modLaunch; split <;> rfl
@[simp] theorem State.modLaunch_clusters (s : State) (i : Nat) (f : Launch → Launch) : (s.modLaunch i f).clusters = s.clusters := by unfold State.modLaunch; split <;> rfl
@[simp] theorem State.modLaunch_dies (s : State) (i : Nat) (f : Launch → Launch) : (s.modLaunch i f).dies = s.dies := by unfold State.modLaunch; split <;> rfl
@[simp] theorem State.modLaunch_host (s : State) (i : Nat) (f : Launch → Launch) : (s.modLaunch i f).host = s.host := by unfold State.modLaunch; split <;> rfl
@[simp] theorem State.modLaunch_pages (s : State) (i : Nat) (f : Launch → Launch) : (s.modLaunch i f).pages = s.pages := by unfold State.modLaunch; split <;> rfl
@[simp] theorem State.modLaunch_mem (s : State) (i : Nat) (f : Launch → Launch) : (s.modLaunch i f).mem = s.mem := by unfold State.modLaunch; split <;> rfl
@[simp] theorem State.modLaunch_poison (s : State) (i : Nat) (f : Launch → Launch) : (s.modLaunch i f).poison = s.poison := by unfold State.modLaunch; split <;> rfl
@[simp] theorem State.modLaunch_tags (s : State) (i : Nat) (f : Launch → Launch) : (s.modLaunch i f).tags = s.tags := by unfold State.modLaunch; split <;> rfl
@[simp] theorem State.modLaunch_now (s : State) (i : Nat) (f : Launch → Launch) : (s.modLaunch i f).now = s.now := by unfold State.modLaunch; split <;> rfl
@[simp] theorem State.modLaunch_gu (s : State) (i : Nat) (f : Launch → Launch) : (s.modLaunch i f).gu = s.gu := by unfold State.modLaunch; split <;> rfl
@[simp] theorem State.modLaunch_cur (s : State) (i : Nat) (f : Launch → Launch) : (s.modLaunch i f).cur = s.cur := by unfold State.modLaunch; split <;> rfl
@[simp] theorem State.modLaunch_agenda (s : State) (i : Nat) (f : Launch → Launch) : (s.modLaunch i f).agenda = s.agenda := by unfold State.modLaunch; split <;> rfl
@[simp] theorem State.modLaunch_fresh (s : State) (i : Nat) (f : Launch → Launch) : (s.modLaunch i f).fresh = s.fresh := by unfold State.modLaunch; split <;> rfl

end Sys2Proof.Machine
end

