-- ==== Sys2Proof/Laws/Ops.lean ====
section
/-! SUPPORT. What each shared operation can do, said once: reading registers, writing results, retiring, and the steps
that every instruction with register results goes through. -/

namespace Sys2Proof.Machine

/-! ## The current warp and its gangs -/

namespace State

@[simp] theorem getWarp_setWarp (s : State) (i j : Nat) (w : Warp) :
    (s.setWarp i w).getWarp j = if i = j then w else s.getWarp j := by simp [getWarp, setWarp, SMap.get_set]

@[simp] theorem modW_w (s : State) (f : Warp → Warp) : (s.modW f).w = f s.w := by
  simp [modW, modWarp, w, setWarp, getWarp]

theorem modW_getWarp (s : State) (f : Warp → Warp) {i : Nat} (h : i ≠ s.cur.wid) :
    (s.modW f).getWarp i = s.getWarp i := by simp [modW, modWarp, h.symm]

theorem w_eq {s t : State} (hw : t.warps = s.warps) (hc : t.cur = s.cur) : t.w = s.w := by simp [w, getWarp, hw, hc]

theorem getWarp_eq {s t : State} (hw : t.warps = s.warps) (i : Nat) : t.getWarp i = s.getWarp i := by
  simp [getWarp, hw]

@[simp] theorem advanceTo_w (s : State) (wid c : Nat) : (s.advanceTo wid c).w = s.w := w_eq (by simp) (by simp)
@[simp] theorem tick_w (s : State) (n : Nat) : (s.tick n).w = s.w := w_eq (by simp) (by simp)
@[simp] theorem occupy_w (s : State) (o : Occupancy) : (s.occupy o).w = s.w := w_eq (by simp) (by simp)
@[simp] theorem debitW_w (s : State) (n : Nat) : (s.debitW n).w = s.w := w_eq (by simp) (by simp)
@[simp] theorem usedIssue_w (s : State) : s.usedIssue.w = s.w := w_eq (by simp) (by simp)
@[simp] theorem modCore_w (s : State) (i : Nat) (f : Core → Core) : (s.modCore i f).w = s.w := rfl

/-- A gang entry after gang g is written. -/
theorem gangOf_set (wp : Warp) (g k : Nat) (e : Gang) :
    gangOf { wp with gangs := wp.gangs.set g e } k = if g = k then e else gangOf wp k := by
  simp [gangOf, SMap.get_set]

@[simp] theorem modGang_w (s : State) (f : Gang → Gang) :
    (s.modGang f).w = { s.w with gangs := s.w.gangs.set s.cur.g (f s.gang) } := by simp [modGang, gang]

@[simp] theorem modGang_gang (s : State) (f : Gang → Gang) : (s.modGang f).gang = f s.gang := by
  simp [gang, gangOf]

theorem gang_eq {s t : State} (hw : t.w = s.w) (hc : t.cur = s.cur) : t.gang = s.gang := by simp [gang, hw, hc]

end State

/-! ## Registers (R39) -/

/-- Two warps with the same registers: those a result goes to. -/
structure Warp.SameRegs (a b : Warp) : Prop where
  words : a.w = b.w
  banks : a.t = b.t
  preds : a.p = b.p
  bases : a.b = b.b
  wide64 : a.wide64 = b.wide64
  nlanes : a.nlanes = b.nlanes

theorem Warp.SameRegs.rfl' (a : Warp) : Warp.SameRegs a a := ⟨rfl, rfl, rfl, rfl, rfl, rfl⟩

theorem Warp.SameRegs.trans {a b c : Warp} (h : Warp.SameRegs a b) (k : Warp.SameRegs b c) : Warp.SameRegs a c :=
  ⟨h.words.trans k.words, h.banks.trans k.banks, h.preds.trans k.preds, h.bases.trans k.bases, h.wide64.trans k.wide64, h.nlanes.trans k.nlanes⟩

theorem Warp.SameRegs.symm {a b : Warp} (h : Warp.SameRegs a b) : Warp.SameRegs b a :=
  ⟨h.words.symm, h.banks.symm, h.preds.symm, h.bases.symm, h.wide64.symm, h.nlanes.symm⟩

namespace Warp.SameRegs
variable {a b : Warp} (h : Warp.SameRegs a b)
include h

theorem wReg (n : Nat) : a.wReg n = b.wReg n := by simp [Warp.wReg, h.words]
theorem tReg (n : Nat) : a.tReg n = b.tReg n := by simp [Warp.tReg, h.banks]
theorem pReg (n : Nat) : a.pReg n = b.pReg n := by simp [Warp.pReg, h.preds]
theorem bReg (n : Nat) : a.bReg n = b.bReg n := by simp [Warp.bReg, h.bases]
theorem width : a.width = b.width := by simp [Warp.width, h.wide64]
theorem present : a.present = b.present := by simp [Warp.present, h.nlanes]

/-- A result written into both leaves them the same. -/
theorem apply {e e' : PendWrite} (hd : e.dest = e'.dest) (hv : e.val = e'.val) (hm : e.mode = e'.mode) :
    Warp.SameRegs (a.apply e) (b.apply e') := by
  unfold Warp.apply
  rw [hd, hv, hm]
  cases e'.dest <;> cases e'.val <;> dsimp only <;> (try split) <;>
    exact ⟨by simp [h.words, h.wReg, h.width, h.present], by simp [h.banks, h.tReg, h.width, h.present],
      by simp [h.preds, h.pReg, h.present], by simp [h.bases, h.bReg], by simp [h.wide64], by simp [h.nlanes]⟩

end Warp.SameRegs

/-- Results written in the same order leave the same registers. -/
theorem Warp.SameRegs.foldl {es fs : List PendWrite} {a b : Warp} (h : Warp.SameRegs a b)
    (hl : List.Forall₂ (fun e f => e.dest = f.dest ∧ e.val = f.val ∧ e.mode = f.mode) es fs) :
    Warp.SameRegs (es.foldl Warp.apply a) (fs.foldl Warp.apply b) := by
  induction hl generalizing a b with
  | nil => exact h
  | cons hd _ ih => exact ih (h.apply hd.1 hd.2.1 hd.2.2)

/-- Writing a result touches registers only. -/
theorem Warp.apply_fields (w : Warp) (e : PendWrite) :
    ∃ a t p b, w.apply e = { w with w := a, t := t, p := p, b := b } := by
  unfold Warp.apply
  cases e.dest <;> cases e.val <;> dsimp only <;> (try split) <;> exact ⟨_, _, _, _, rfl⟩

/-- A register that results do not go to keeps its value. -/
theorem Warp.apply_wReg_other (w : Warp) (e : PendWrite) {n : Nat} (h : e.dest ≠ .w n) :
    (w.apply e).wReg n = w.wReg n := by
  unfold Warp.apply
  cases hd : e.dest <;> cases e.val <;> dsimp only <;> (try split) <;> simp_all [Warp.wReg]

theorem Warp.apply_tReg_other (w : Warp) (e : PendWrite) {n : Nat} (h : e.dest ≠ .t n) :
    (w.apply e).tReg n = w.tReg n := by
  unfold Warp.apply
  cases hd : e.dest <;> cases e.val <;> dsimp only <;> (try split) <;> simp_all [Warp.tReg]

theorem Warp.apply_pReg_other (w : Warp) (e : PendWrite) {n : Nat} (h : e.dest ≠ .p n) :
    (w.apply e).pReg n = w.pReg n := by
  unfold Warp.apply
  cases hd : e.dest <;> cases e.val <;> dsimp only <;> (try split) <;> simp_all [Warp.pReg]

theorem Warp.apply_bReg_other (w : Warp) (e : PendWrite) {n : Nat} (h : e.dest.key ≠ (3, n)) :
    (w.apply e).bReg n = w.bReg n := by
  unfold Warp.apply
  cases hd : e.dest <;> cases e.val <;> dsimp only <;> (try split) <;> simp_all [Warp.bReg, Dest.key]

/-! ## The write rules, lane by lane (R184, R152) -/

theorem Shaped.lane_v (wd : Nat) (f : Nat → Lane) {i : Nat} (h : i < wd) :
    (Shaped.v ((List.range wd).map f)).lane i = f i := by
  simp [Shaped.lane, h]

theorem Shaped.lane_merge (wd : Nat) (act : LaneSet) (old new : Shaped) {i : Nat} (h : i < wd) :
    (Shaped.merge wd act old new).lane i = if act.getLsbD i then new.lane i else old.lane i := by
  unfold Shaped.merge; rw [Shaped.lane_v _ _ h]

/-- R184: an active lane takes the new value, and every other present lane keeps the old one. -/
theorem Shaped.lane_write (wd : Nat) (present act : LaneSet) (old new : Shaped) {i : Nat} (h : i < wd)
    (hp : present.getLsbD i = true) :
    (Shaped.write wd present act old new).lane i = if act.getLsbD i then new.lane i else old.lane i := by
  unfold Shaped.write
  split
  · rename_i ha
    subst ha
    cases new with
    | u => simp [hp]
    | a => simp [hp]
    | v => exact Shaped.lane_merge _ _ _ _ h
  · cases old <;> cases new <;> dsimp only <;>
      first
      | exact Shaped.lane_merge _ _ _ _ h
      | (split
         · rename_i he; simp [Shaped.lane, he]
         · exact Shaped.lane_merge _ _ _ _ h)

/-- R152 for the predicates. -/
theorem Pred.lane_mask (x : Pred) {i : Nat} (h : i < 64) : x.mask.getLsbD i = x.lane i := by
  cases x with
  | u b =>
    cases b
    · exact BitVec.getLsbD_zero
    · simp only [Pred.mask, Pred.lane, BitVec.getLsbD_allOnes, h, if_true, decide_true]
  | v m => rfl

theorem Pred.lane_write (present act : LaneSet) (old new : Pred) {i : Nat} (h : i < 64)
    (hp : present.getLsbD i = true) :
    (Pred.write present act old new).lane i = if act.getLsbD i then new.lane i else old.lane i := by
  have hm : ∀ o n : Pred, ((n.mask &&& act) ||| (o.mask &&& ~~~act)).getLsbD i =
      if act.getLsbD i then n.lane i else o.lane i := by
    intro o n
    simp only [BitVec.getLsbD_or, BitVec.getLsbD_and, BitVec.getLsbD_not, Pred.lane_mask _ h, h, decide_true, Bool.true_and]
    cases act.getLsbD i <;> simp
  unfold Pred.write
  split
  · rename_i ha
    subst ha
    cases new with
    | u b => simp [Pred.lane, hp]
    | v m => exact hm old (.v m)
  · cases old with
    | u b =>
      dsimp only
      split
      · rename_i hx
        have := congrArg (fun m : LaneSet => m.getLsbD i) hx
        simp only [BitVec.getLsbD_and, BitVec.getLsbD_xor, Pred.lane_mask _ h] at this
        cases ha : act.getLsbD i <;> simp_all [Pred.lane]
      · exact hm (.u b) new
    | v m => exact hm (.v m) new

/-! ## What a step of one warp leaves alone -/

end Sys2Proof.Machine

namespace Sys2Proof
theorem Claim.SameCore.refl (a : Machine.Core) : Claim.SameCore a a := ⟨rfl, rfl, rfl, rfl, rfl, rfl, rfl, rfl, rfl, rfl, rfl, rfl, rfl, rfl, rfl⟩
theorem Claim.SameCore.trans {a b c : Machine.Core} (h : Claim.SameCore a b) (k : Claim.SameCore b c) : Claim.SameCore a c :=
  ⟨k.brkstop.trans h.brkstop, k.fatal.trans h.fatal, k.snap.trans h.snap, k.order.trans h.order, k.cpQ.trans h.cpQ, k.xfQ.trans h.xfQ, k.kvQ.trans h.kvQ, k.rpQ.trans h.rpQ, k.loopBuf.trans h.loopBuf, k.cpFree.trans h.cpFree, k.svTeam.trans h.svTeam, k.svKind.trans h.svKind, k.svSlot.trans h.svSlot, k.svFail.trans h.svFail, k.svTarget.trans h.svTarget⟩
theorem Claim.SameCluster.refl (a : Machine.Cluster) : Claim.SameCluster a a := ⟨rfl, rfl, rfl, rfl, rfl, rfl, rfl, rfl, rfl, rfl, rfl, rfl, rfl, rfl, rfl, rfl, rfl, rfl, rfl, rfl, rfl, rfl, rfl, rfl, rfl, rfl, rfl, rfl, rfl, rfl, rfl, rfl, rfl⟩
theorem Claim.SameCluster.trans {a b c : Machine.Cluster} (h : Claim.SameCluster a b) (k : Claim.SameCluster b c) : Claim.SameCluster a c :=
  ⟨k.req.trans h.req, k.closed.trans h.closed, k.saved.trans h.saved, k.err.trans h.err, k.busy.trans h.busy, k.gate.trans h.gate, k.railOff.trans h.railOff, k.ramp.trans h.ramp, k.good.trans h.good, k.ticks.trans h.ticks, k.wbit.trans h.wbit, k.arm.trans h.arm, k.wakeAt.trans h.wakeAt, k.src.trans h.src, k.firing.trans h.firing, k.asked.trans h.asked, k.trim.trans h.trim, k.temp.trans h.temp, k.hot.trans h.hot, k.refill.trans h.refill, k.share.trans h.share, k.lent.trans h.lent, k.borrowed.trans h.borrowed, k.gated.trans h.gated, k.recallAt.trans h.recallAt, k.table.trans h.table, k.mxWait.trans h.mxWait, k.mxTaken.trans h.mxTaken, k.mxFree.trans h.mxFree, k.mxPass.trans h.mxPass, k.banks.trans h.banks, k.kvtb.trans h.kvtb, k.tlb.trans h.tlb⟩
end Sys2Proof

namespace Sys2Proof.Machine

/-- Everything outside the current warp but time, the units of its core, the allowance of its cluster and the counter of
fresh numbers. -/
structure State.Quiet (s t : State) : Prop where
  cur : t.cur = s.cur
  warps : ∀ i, i ≠ s.cur.wid → t.getWarp i = s.getWarp i
  cores : ∀ i, Claim.SameCore (s.getCore i) (t.getCore i)
  clusters : ∀ i, Claim.SameCluster (s.getCluster i) (t.getCluster i)
  teams : t.teams = s.teams
  launches : t.launches = s.launches
  crews : t.crews = s.crews
  counters : t.counters = s.counters
  queues : t.queues = s.queues
  parts : t.parts = s.parts
  dies : t.dies = s.dies
  host : t.host = s.host
  pages : t.pages = s.pages
  mem : t.mem = s.mem
  poison : t.poison = s.poison
  tags : t.tags = s.tags

theorem State.Quiet.trans {s t u : State} (h : State.Quiet s t) (k : State.Quiet t u) : State.Quiet s u :=
  ⟨k.cur.trans h.cur, fun i hi => (k.warps i (by rw [h.cur]; exact hi)).trans (h.warps i hi),
    fun i => (h.cores i).trans (k.cores i), fun i => (h.clusters i).trans (k.clusters i),
    k.teams.trans h.teams, k.launches.trans h.launches, k.crews.trans h.crews, k.counters.trans h.counters, k.queues.trans h.queues, k.parts.trans h.parts, k.dies.trans h.dies, k.host.trans h.host, k.pages.trans h.pages, k.mem.trans h.mem, k.poison.trans h.poison, k.tags.trans h.tags⟩

namespace State

/-- Only the current warp differs. -/
theorem Quiet.of_warps {s t : State} (hc : t.cur = s.cur) (hw : ∀ i, i ≠ s.cur.wid → t.getWarp i = s.getWarp i)
    (h1 : t.cores = s.cores) (h2 : t.clusters = s.clusters) (hteams : t.teams = s.teams) (hlaunches : t.launches = s.launches) (hcrews : t.crews = s.crews) (hcounters : t.counters = s.counters) (hqueues : t.queues = s.queues) (hparts : t.parts = s.parts) (hdies : t.dies = s.dies) (hhost : t.host = s.host) (hpages : t.pages = s.pages) (hmem : t.mem = s.mem) (hpoison : t.poison = s.poison) (htags : t.tags = s.tags) : Quiet s t :=
  ⟨hc, hw, fun i => by rw [show t.getCore i = s.getCore i by simp [getCore, h1]]; exact Claim.SameCore.refl _,
    fun i => by rw [show t.getCluster i = s.getCluster i by simp [getCluster, h2]]; exact Claim.SameCluster.refl _,
    hteams, hlaunches, hcrews, hcounters, hqueues, hparts, hdies, hhost, hpages, hmem, hpoison, htags⟩

theorem Quiet.refl (s : State) : Quiet s s :=
  Quiet.of_warps rfl (fun _ _ => rfl) rfl rfl rfl rfl rfl rfl rfl rfl rfl rfl rfl rfl rfl rfl

/-- A change of one core that concerns its units only. -/
theorem modCore_quiet (s : State) (c : Nat) (f : Core → Core) (hf : ∀ k, Claim.SameCore k (f k)) :
    Quiet s (s.modCore c f) :=
  ⟨rfl, fun _ _ => rfl, fun i => by
      simp only [getCore, modCore, setCore, SMap.get_set]
      split
      · rename_i h; subst h; exact hf _
      · exact Claim.SameCore.refl _,
    fun _ => Claim.SameCluster.refl _, rfl, rfl, rfl, rfl, rfl, rfl, rfl, rfl, rfl, rfl, rfl, rfl⟩

/-- Time that passes changes the allowance of a cluster. -/
theorem idleTo_same (k : Cluster) (t : Nat) : Claim.SameCluster k (k.idleTo t) := by
  unfold Cluster.idleTo
  split <;> exact ⟨rfl, rfl, rfl, rfl, rfl, rfl, rfl, rfl, rfl, rfl, rfl, rfl, rfl, rfl, rfl, rfl, rfl, rfl, rfl, rfl, rfl, rfl, rfl, rfl, rfl, rfl, rfl, rfl, rfl, rfl, rfl, rfl, rfl⟩

theorem spend_same (k : Cluster) (n : Nat) : Claim.SameCluster k (k.spend n) :=
  ⟨rfl, rfl, rfl, rfl, rfl, rfl, rfl, rfl, rfl, rfl, rfl, rfl, rfl, rfl, rfl, rfl, rfl, rfl, rfl, rfl, rfl, rfl, rfl, rfl, rfl, rfl, rfl, rfl, rfl, rfl, rfl, rfl, rfl⟩

theorem workOn_same (k : Cluster) (n : Nat) : Claim.SameCluster k (k.workOn n) := by
  induction n generalizing k with
  | zero => exact Claim.SameCluster.refl k
  | succ n ih => exact ((idleTo_same k _).trans (spend_same _ _)).trans (ih _)

/-- So does the work of engines in it. -/
theorem upTo_same (k : Cluster) (t : Nat) : Claim.SameCluster k (k.upTo t) := by
  have keep (u : Cluster) (l : List EngineWork) : Claim.SameCluster u { u with work := l } :=
    ⟨rfl, rfl, rfl, rfl, rfl, rfl, rfl, rfl, rfl, rfl, rfl, rfl, rfl, rfl, rfl, rfl, rfl, rfl, rfl, rfl, rfl, rfl, rfl, rfl, rfl, rfl, rfl, rfl, rfl, rfl, rfl, rfl, rfl⟩
  unfold Cluster.upTo
  split
  · exact idleTo_same k t
  · exact ((workOn_same k _).trans (keep _ _)).trans (idleTo_same _ t)

/-- A debit changes the allowance of a cluster and what is kept of it for the epoch. -/
theorem debit_same (k : Cluster) (t n : Nat) : Claim.SameCluster k (k.debit t n) := by
  exact (upTo_same k t).trans (spend_same _ n)

theorem debit_quiet (s : State) (c n : Nat) : Quiet s (s.debit c n) :=
  ⟨rfl, fun _ _ => rfl, fun _ => Claim.SameCore.refl _, fun i => by
      simp only [debit, getCluster, modCluster, setCluster, SMap.get_set]
      split
      · rename_i h; subst h; exact debit_same _ _ _
      · exact Claim.SameCluster.refl _,
    rfl, rfl, rfl, rfl, rfl, rfl, rfl, rfl, rfl, rfl, rfl, rfl⟩

theorem debitW_quiet (s : State) (n : Nat) : Quiet s (s.debitW n) := by
  unfold debitW; split
  · exact Quiet.refl s
  · exact debit_quiet _ _ _

theorem occupy_quiet (s : State) (o : Occupancy) : Quiet s (s.occupy o) := by
  unfold occupy
  split
  · exact Quiet.refl s
  · dsimp only
    split
    · refine Quiet.trans (modCore_quiet _ _ _ fun _ => ?_) (debitW_quiet _ _)
      exact ⟨rfl, rfl, rfl, rfl, rfl, rfl, rfl, rfl, rfl, rfl, rfl, rfl, rfl, rfl, rfl⟩
    · refine Quiet.trans (modCore_quiet _ _ _ fun _ => ?_) (debitW_quiet _ _)
      exact ⟨rfl, rfl, rfl, rfl, rfl, rfl, rfl, rfl, rfl, rfl, rfl, rfl, rfl, rfl, rfl⟩
    · exact debitW_quiet _ _
    · exact Quiet.refl s

theorem usedIssue_quiet (s : State) : Quiet s s.usedIssue := by
  unfold usedIssue
  split
  · exact Quiet.refl s
  · exact modCore_quiet _ _ _ fun _ => ⟨rfl, rfl, rfl, rfl, rfl, rfl, rfl, rfl, rfl, rfl, rfl, rfl, rfl, rfl, rfl⟩

theorem modW_quiet (s : State) (f : Warp → Warp) : Quiet s (s.modW f) :=
  Quiet.of_warps rfl (fun _ hi => modW_getWarp s f hi) rfl rfl rfl rfl rfl rfl rfl rfl rfl rfl rfl rfl rfl rfl

theorem modGang_quiet (s : State) (f : Gang → Gang) : Quiet s (s.modGang f) := modW_quiet _ _

theorem lateBy_quiet (s : State) (n : Nat) : Quiet s (s.lateBy n) := by
  unfold lateBy; split
  · exact Quiet.refl s
  · exact modW_quiet _ _

theorem wakeBanks_quiet (s : State) (c : Nat) (rows : List Nat) : Quiet s (s.wakeBanks c rows).2 := by
  unfold wakeBanks; split
  · exact Quiet.refl s
  · exact modCore_quiet s c (fun k => { k with awake := k.awake ||| _ }) fun _ => ⟨rfl, rfl, rfl, rfl, rfl, rfl, rfl, rfl, rfl, rfl, rfl, rfl, rfl, rfl, rfl⟩

@[simp] theorem wakeBanks_w (s : State) (c : Nat) (rows : List Nat) : (s.wakeBanks c rows).2.w = s.w := by
  unfold wakeBanks; split <;> rfl

@[simp] theorem wakeBanks_now (s : State) (c : Nat) (rows : List Nat) : (s.wakeBanks c rows).2.now = s.now := by
  unfold wakeBanks; split <;> rfl

theorem goOn_quiet (s : State) (h : Hdr) (n : Nat) (pc : DWord) : Quiet s (s.goOn h n pc) :=
  (modW_quiet s _).trans (modGang_quiet _ _)

theorem retireBy_quiet (s : State) (h : Hdr) (n : Nat) : Quiet s (s.retireBy h n) := by
  unfold retireBy
  dsimp only
  split <;> exact ((modGang_quiet s _).trans (usedIssue_quiet _)).trans (goOn_quiet _ _ _ _)

theorem retireTo_quiet (s : State) (h : Hdr) (n : Nat) (pc : DWord) : Quiet s (s.retireTo h n pc) :=
  (usedIssue_quiet s).trans (goOn_quiet _ _ _ _)

theorem addResults_quiet (s : State) (vis : Option Nat) (mem ready : Bool) (rows : List (Nat × Bool × Nat))
    (rs : List Res) : Quiet s (s.addResults vis mem ready rows rs) := by
  induction rs generalizing s with
  | nil => exact Quiet.refl s
  | cons r rest ih =>
    unfold addResults
    refine Quiet.trans ?_ (ih _)
    exact Quiet.of_warps rfl (fun i hi => by simp [modW, modWarp, getWarp, setWarp, hi.symm]) rfl rfl rfl rfl rfl rfl rfl rfl rfl rfl rfl rfl rfl rfl

end State

/-! ## Results in flight (R39) -/

/-- A result and its entry among the results in flight. -/
def Res.Made (r : Res) (e : PendWrite) : Prop := e.dest = r.dest ∧ e.val = r.val ∧ e.mode = r.mode

/-- No unfinished variable-latency result of these registers is in flight. -/
def Warp.NoRace (w : Warp) (rs : List Res) : Prop :=
  ∀ e ∈ w.pend, e.vis = none → ∀ r ∈ rs, e.dest.key ≠ r.dest.key

theorem Warp.raced_none {w : Warp} {new : PendWrite} (h : ∀ e ∈ w.pend, e.vis = none → e.dest.key ≠ new.dest.key) :
    w.raced new = [new] := by
  have : (w.pend.filter fun e => e.vis.isNone && e.dest.key == new.dest.key) = [] := by
    rw [List.filter_eq_nil_iff]
    intro e he
    have := h e he
    cases hv : e.vis <;> simp_all
  unfold Warp.raced
  simp [this, firstOfEach]

theorem State.holdRow_eq (w : Warp) (id : Nat) (rows : List (Nat × Bool × Nat)) (d : Dest) :
    ∃ rw, State.holdRow w id rows d = { w with rows := rw } := by
  unfold State.holdRow
  split <;> (try split) <;> (try split) <;> exact ⟨_, rfl⟩

theorem State.addResults_w (s : State) (vis : Option Nat) (mem ready : Bool) (rows : List (Nat × Bool × Nat))
    (rs : List Res) (h : s.w.NoRace rs) (hd : vis = none → (rs.map (·.dest.key)).Nodup) :
    ∃ es rw, (s.addResults vis mem ready rows rs).w = { s.w with pend := s.w.pend ++ es, rows := rw } ∧
      List.Forall₂ Res.Made rs es := by
  induction rs generalizing s with
  | nil => exact ⟨[], s.w.rows, by simp [State.addResults], .nil⟩
  | cons r rest ih =>
    unfold State.addResults
    dsimp only
    set s1 : State := { s with fresh := s.fresh + 1 } with hs1
    have hw1 : s1.w = s.w := rfl
    set f : Warp → Warp := fun w => State.launchResult (State.holdRow w s.fresh rows r.dest) s.fresh vis mem ready r with hf
    obtain ⟨rw1, hrw⟩ : ∃ rw1, f s.w = { s.w with pend := s.w.pend ++ [{ r.entry s.fresh with vis, mem, ready }], rows := rw1 } := by
      obtain ⟨rw1, h1⟩ := State.holdRow_eq s.w s.fresh rows r.dest
      refine ⟨rw1, ?_⟩
      simp only [hf, h1, State.launchResult]
      rw [Warp.raced_none]
      exact fun e he hv => h e he hv r (List.mem_cons_self ..)
    have hw2 : (s1.modW f).w = { s.w with pend := s.w.pend ++ [{ r.entry s.fresh with vis, mem, ready }], rows := rw1 } := by
      rw [State.modW_w, hw1, hrw]
    obtain ⟨es, rw2, he, hm⟩ := ih (s1.modW f) (by
      rw [hw2]
      intro e he hv r' hr'
      simp only [List.mem_append, List.mem_singleton] at he
      rcases he with he | rfl
      · exact h e he hv r' (List.mem_cons_of_mem _ hr')
      · have := hd hv
        simp only [List.map_cons, List.nodup_cons, List.mem_map, not_exists, not_and] at this
        exact fun hk => this.1 r' hr' hk.symm) (by
      intro hv
      exact (List.nodup_cons.1 (by simpa using hd hv)).2)
    exact ⟨{ r.entry s.fresh with vis, mem, ready } :: es, rw2, by rw [he, hw2]; simp, .cons ⟨rfl, rfl, rfl⟩ hm⟩

/-- What the registers will hold: the results written in order over what they would have held. -/
theorem Warp.issued_append {w : Warp} {es : List PendWrite} {rw : List RowHold} {rs : List Res}
    (h : List.Forall₂ Res.Made rs es) :
    Warp.SameRegs ({ w with pend := w.pend ++ es, rows := rw } : Warp).issued (w.issued.after rs) := by
  unfold Warp.issued Warp.after
  rw [List.foldl_append]
  have h0 : Warp.SameRegs (w.pend.foldl Warp.apply { w with pend := w.pend ++ es, rows := rw }) (w.pend.foldl Warp.apply w) :=
    Warp.SameRegs.foldl ⟨rfl, rfl, rfl, rfl, rfl, rfl⟩ (List.forall₂_same.2 fun _ _ => ⟨rfl, rfl, rfl⟩)
  have : (List.foldl (fun (w : Warp) (r : Res) => w.apply (r.entry 0)) (List.foldl Warp.apply w w.pend) rs) =
      (rs.map (·.entry 0)).foldl Warp.apply (List.foldl Warp.apply w w.pend) := by rw [List.foldl_map]
  rw [this]
  refine Warp.SameRegs.foldl h0 ?_
  rw [List.forall₂_map_right_iff]
  exact h.flip.imp fun _ _ hm => ⟨hm.1, hm.2.1, hm.2.2⟩

/-- A change of the warp's other fields leaves what its registers will hold. -/
theorem Warp.issued_congr {a b : Warp} (h : Warp.SameRegs a b) (hp : a.pend = b.pend) :
    Warp.SameRegs a.issued b.issued := by
  unfold Warp.issued
  rw [hp]
  exact Warp.SameRegs.foldl h (List.forall₂_same.2 fun _ _ => ⟨rfl, rfl, rfl⟩)

/-! ## Retiring (R36, R38, R113) -/

namespace State

theorem countIssue_w (s : State) (h : Hdr) : ∃ c n r, (s.countIssue h).w =
    { s.w with nextIssue := n, readyAt := r, count := c, rowReq := none, granted := [], parked := none } :=
  ⟨_, _, _, modW_w _ _⟩

theorem goOn_w (s : State) (h : Hdr) (n : Nat) (pc : DWord) : ∃ c ni r m, (s.goOn h n pc).w =
    { s.w with nextIssue := ni, readyAt := r, count := c, rowReq := none, granted := [], parked := none,
               gangs := s.w.gangs.set s.cur.g (s.gang.moved pc m) } := by
  obtain ⟨c, ni, r, hw⟩ := countIssue_w s h
  have hg : (s.countIssue h).gang = s.gang := by unfold gang; rw [hw]; rfl
  unfold goOn
  exact ⟨c, ni, r, _, by rw [modGang_w, hw, hg]; rfl⟩

/-- What retiring in sequence leaves in the warp. -/
theorem retireBy_w (s : State) (h : Hdr) (least : Nat) : ∃ c ni r m g1, (s.retireBy h least).w =
    { s.w with nextIssue := ni, readyAt := r, count := c, rowReq := none, granted := [], parked := none,
               gangs := (s.w.gangs.set s.cur.g g1).set s.cur.g
                 (Gang.moved { s.gang with loops := (loopTest s.cur.pc s.gang.loops).1 }
                   ((loopTest s.cur.pc s.gang.loops).2.getD s.seqPc) m) } := by
  unfold retireBy
  dsimp only
  set u := (s.modGang fun g => { g with loops := (loopTest s.cur.pc s.gang.loops).1 }).usedIssue with hu
  have hw : u.w = { s.w with gangs := s.w.gangs.set s.cur.g { s.gang with loops := (loopTest s.cur.pc s.gang.loops).1 } } := by
    rw [hu, usedIssue_w, modGang_w]
  have hc : u.cur = s.cur := by simp [hu]
  have hg : u.gang = { s.gang with loops := (loopTest s.cur.pc s.gang.loops).1 } := by
    unfold gang gangOf; rw [hw, hc]; simp only [SMap.get_set_same]; rfl
  obtain ⟨c, ni, r, m, he⟩ := goOn_w u h (max least (if leavesLoop s.cur.pc s.gang.loops then 3 else 1))
    ((loopTest s.cur.pc s.gang.loops).2.getD s.seqPc)
  refine ⟨c, ni, r, m, { s.gang with loops := (loopTest s.cur.pc s.gang.loops).1 }, ?_⟩
  rw [he, hw, hg, hc]

theorem lateBy_w (s : State) (n : Nat) : ∃ ni, (s.lateBy n).w = { s.w with nextIssue := ni } := by
  unfold lateBy; split
  · exact ⟨s.w.nextIssue, rfl⟩
  · exact ⟨_, modW_w _ _⟩

/-- Where results go in the warp when an instruction issues: after its other effects (`s`), the results are in flight,
and the gang goes on in sequence. -/
theorem issue_w (s : State) (h : Hdr) (least late : Nat) (vis : Option Nat) (mem ready : Bool)
    (rows : List (Nat × Bool × Nat)) (rs : List Res) (hr : s.w.NoRace rs)
    (hd : vis = none → (rs.map (·.dest.key)).Nodup) :
    ∃ es rw c ni r m g1, List.Forall₂ Res.Made rs es ∧
      (((s.addResults vis mem ready rows rs).retireBy h least).lateBy late).w =
      { s.w with pend := s.w.pend ++ es, rows := rw, nextIssue := ni, readyAt := r, count := c, rowReq := none,
                 granted := [], parked := none,
                 gangs := (s.w.gangs.set s.cur.g g1).set s.cur.g
                   (Gang.moved { s.gang with loops := (loopTest s.cur.pc s.gang.loops).1 }
                     ((loopTest s.cur.pc s.gang.loops).2.getD s.seqPc) m) } := by
  obtain ⟨es, rw, hw, hm⟩ := addResults_w s vis mem ready rows rs hr hd
  have q := addResults_quiet s vis mem ready rows rs
  set u := s.addResults vis mem ready rows rs
  have hg : u.gang = s.gang := by unfold gang gangOf; rw [hw, q.cur]
  have hs : u.seqPc = s.seqPc := by unfold seqPc; rw [q.cur]
  obtain ⟨c, ni, r, m, g1, he⟩ := retireBy_w u h least
  obtain ⟨ni', hl⟩ := lateBy_w (u.retireBy h least) late
  exact ⟨es, rw, c, ni', r, m, g1, hm, by rw [hl, he, hw, hg, hs, q.cur]⟩
end State

/-! ## The steps that instructions with register results go through -/

namespace State

/-- What an instruction does whose unit is free (R74). -/
theorem whenFree_free {s : State} {slot : Slot} (h : isMgmt s.cur.wid = true ∨ s.slotFree slot ≤ s.now) (k : State → State) :
    s.whenFree slot k = k s := by
  unfold whenFree
  rw [if_pos h]

/-- What an instruction does whose shared unit takes its request (R18). -/
theorem whenTaken_free {s : State} {u : Nat}
    (h : isMgmt s.cur.wid = true ∨ (s.getCore (coreOf s.cur.wid)).unitFree.get u 0 ≤ s.now) (k : State → State) :
    s.whenTaken u k = k s := by
  unfold whenTaken
  rw [if_pos h]

/-- What the warp is once an instruction has issued with results `rs` and otherwise left state `s`: the results are in flight,
its gang has gone on in sequence, and its place in the schedule is new. -/
def WarpIssued (s : State) (rs : List Res) (w : Warp) : Prop :=
  ∃ es rw c ni r m g1, List.Forall₂ Res.Made rs es ∧ w =
    { s.w with pend := s.w.pend ++ es, rows := rw, nextIssue := ni, readyAt := r, count := c, rowReq := none,
               granted := [], parked := none,
               gangs := (s.w.gangs.set s.cur.g g1).set s.cur.g
                 (Gang.moved { s.gang with loops := (loopTest s.cur.pc s.gang.loops).1 }
                   ((loopTest s.cur.pc s.gang.loops).2.getD s.seqPc) m) }

theorem NoRace_nil {w : Warp} (h : w.pend = []) (rs : List Res) : w.NoRace rs := by
  intro e he; rw [h] at he; cases he

theorem writeResults_next {s t0 : State} {l : List Nat} {rs : List Res} (h : Hdr) (u : UnitUse) (least : Nat)
    (srcs : List Nat) (hl : s.requestRows s.cur.wid (s.w.rowRes rs).length = .rows l) (hr : t0.w.NoRace rs)
    (hd : (rs.map (·.dest.key)).Nodup) :
    WarpIssued t0 rs (s.writeResults u srcs rs t0 fun t => t.retireBy h least).w ∧
      Quiet t0 (s.writeResults u srcs rs t0 fun t => t.retireBy h least) := by
  unfold writeResults
  dsimp only
  rw [hl]
  dsimp only
  set z : Nat × State := if isMgmt s.cur.wid then (0, t0) else
    t0.wakeBanks (coreOf s.cur.wid) (rowsOf s.w (srcs ++ rs.filterMap fun r => match r.dest with
      | .w n => some n
      | _ => none) ++ l) with hz
  have hzq : Quiet t0 z.2 := by
    rw [hz]; split
    · exact Quiet.refl _
    · exact wakeBanks_quiet _ _ _
  have hzw : z.2.w = t0.w := by rw [hz]; split <;> simp
  set v := z.2.occupy (placeOn s.w s.act u rs) with hv
  have hvq : Quiet t0 v := hzq.trans (occupy_quiet _ _)
  have hvw : v.w = t0.w := by rw [hv, occupy_w, hzw]
  have key : ∀ vis mem ready rows, WarpIssued t0 rs
        (((v.addResults vis mem ready rows rs).retireBy h least).lateBy z.1).w ∧
      Quiet t0 (((v.addResults vis mem ready rows rs).retireBy h least).lateBy z.1) := by
    intro vis mem ready rows
    obtain ⟨es, rw, c, ni, r, m, g1, hm, he⟩ := issue_w v h least z.1 vis mem ready rows rs (by rw [hvw]; exact hr) (fun _ => hd)
    refine ⟨⟨es, rw, c, ni, r, m, g1, hm, ?_⟩, ((hvq.trans (addResults_quiet _ _ _ _ _ _)).trans
      (retireBy_quiet _ _ _)).trans (lateBy_quiet _ _)⟩
    have hg : v.gang = t0.gang := gang_eq hvw hvq.cur
    have hs : v.seqPc = t0.seqPc := by unfold seqPc; rw [hvq.cur]
    rw [he, hvw, hg, hs, hvq.cur]
  cases u with
  | ended l => cases l <;> exact key _ _ _ _
  | _ => exact key _ _ _ _

theorem finStep_next {s t0 : State} {rs : List Res} (h : Hdr) (u : UnitUse) (least : Nat) (srcs : List Nat)
    (f : State → Except Stop (List Res × State)) (hf : f s = .ok (rs, t0))
    (hu : ∀ sl, isMgmt s.cur.wid = true ∨ s.slotFree sl ≤ s.now) (hb : s.w.bankV rs = false)
    (hl : ∃ l, s.requestRows s.cur.wid (s.w.rowRes rs).length = .rows l) (hr : t0.w.NoRace rs)
    (hd : (rs.map (·.dest.key)).Nodup) :
    WarpIssued t0 rs (s.effStep h u least srcs f).w ∧ Quiet t0 (s.effStep h u least srcs f) := by
  obtain ⟨l, hl⟩ := hl
  unfold effStep finStep
  simp only [hf, whenFree_free (hu _), hb]
  exact writeResults_next h u least srcs hl hr hd

theorem regStep_next {s : State} {rs : List Res} (h : Hdr) (u : UnitUse) (srcs : List Nat)
    (f : State → Except Stop (List Res)) (hf : f s = .ok rs) (hu : ∀ sl, isMgmt s.cur.wid = true ∨ s.slotFree sl ≤ s.now)
    (hs : s.w.pend = []) (hb : s.w.bankV rs = false) (hl : ∃ l, s.requestRows s.cur.wid (s.w.rowRes rs).length = .rows l)
    (hd : (rs.map (·.dest.key)).Nodup) :
    WarpIssued s rs (s.regStep h u srcs f).w ∧ Quiet s (s.regStep h u srcs f) :=
  finStep_next (t0 := s) h u 1 srcs _ (by simp only [hf]) hu hb hl (NoRace_nil hs rs) hd

end State
end Sys2Proof.Machine
end

