-- ==== Sys2Proof/Laws/Claims.lean ====
section
/-! SUPPORT. From the laws of the shared operations to the terms of statements: what an instruction that issues does to
registers, and what it leaves alone. -/

namespace Sys2Proof.Claim

open Sys2Proof.Machine

/-! ## Reading registers of a settled warp -/

theorem warp_settled {s : State} (h : s.w.pend = []) : warp s = s.w := by simp [warp, Warp.issued, h]

theorem late_settled {w : Warp} (h : w.pend = []) (n : Nat) : w.late n = w := by simp [Warp.late, h]
theorem view_settled {w : Warp} (h : w.pend = []) (n : Nat) : w.view n = w := by simp [Warp.view, h]

theorem rd_eq {s : State} (h : s.w.pend = []) (n : Nat) : s.rd n = reg s n := by
  simp [State.rd, late_settled h, reg, warp_settled h]

theorem rdp_eq {s : State} (h : s.w.pend = []) (n : Nat) : s.rdp n = (warp s).pReg n := by
  simp [State.rdp, State.v, view_settled h, warp_settled h]

theorem rdb_eq {s : State} (h : s.w.pend = []) (n : Nat) : s.rdb n = base s n := by
  simp [State.rdb, State.v, view_settled h, base, warp_settled h]

/-! ## What results leave in the registers -/

/-- Register numbers name different registers. -/
theorem regDest_inj {hm : Bool} {a b : Nat} (h : regDest hm a = regDest hm b) : a = b := by
  unfold regDest at h
  split at h <;> split at h <;> simp_all <;> omega

theorem regDest_key_inj {hm : Bool} {a b : Nat} (h : (regDest hm a).key = (regDest hm b).key) : a = b := by
  unfold regDest at h
  split at h <;> split at h <;> simp_all [Dest.key] <;> omega

/-- What a destination holds. -/
def inDest (w : Warp) : Dest → Shaped
  | .w n => w.wReg n
  | .t n => w.tReg n
  | _ => Shaped.zero

theorem inDest_dst (w : Warp) (n : Nat) : inDest w (regDest w.hm n) = w.named n := by
  unfold regDest Warp.named
  split <;> rfl

theorem apply_hm (w : Warp) (e : PendWrite) : (w.apply e).hm = w.hm := by
  obtain ⟨_, _, _, _, h⟩ := w.apply_fields e; rw [h]
theorem apply_width (w : Warp) (e : PendWrite) : (w.apply e).width = w.width := by
  obtain ⟨_, _, _, _, h⟩ := w.apply_fields e; rw [h]; rfl
theorem apply_present (w : Warp) (e : PendWrite) : (w.apply e).present = w.present := by
  obtain ⟨_, _, _, _, h⟩ := w.apply_fields e; rw [h]; rfl

theorem after_cons (w : Warp) (r : Res) (rs : List Res) : w.after (r :: rs) = (w.apply (r.entry 0)).after rs := rfl

theorem after_hm (w : Warp) (rs : List Res) : (w.after rs).hm = w.hm := by
  induction rs generalizing w with
  | nil => rfl
  | cons r rest ih => rw [after_cons, ih, apply_hm]

theorem inDest_apply_other (w : Warp) (e : PendWrite) {d : Dest} (h : e.dest ≠ d) : inDest (w.apply e) d = inDest w d := by
  cases d with
  | w n => exact Warp.apply_wReg_other w e h
  | t n => exact Warp.apply_tReg_other w e h
  | _ => rfl

theorem inDest_after_other (w : Warp) (rs : List Res) {d : Dest} (h : ∀ r ∈ rs, r.dest ≠ d) :
    inDest (w.after rs) d = inDest w d := by
  induction rs generalizing w with
  | nil => rfl
  | cons r rest ih =>
    rw [after_cons, ih _ fun r hr => h r (List.mem_cons_of_mem _ hr),
      inDest_apply_other _ _ (by exact h r (List.mem_cons_self ..))]

theorem inDest_apply (w : Warp) (hm : Bool) (n : Nat) (x : Shaped) (act : LaneSet) :
    inDest (w.apply (Res.entry ⟨regDest hm n, .shaped x, .masked act⟩ 0)) (regDest hm n) =
      Shaped.write w.width w.present act (inDest w (regDest hm n)) x := by
  have h : regDest hm n = .t (n - 56) ∨ regDest hm n = .w n := by unfold regDest; split <;> simp
  rcases h with h | h <;> rw [h] <;> simp [Warp.apply, Res.entry, inDest, Warp.wReg, Warp.tReg, Shaped.writeMode]

/-- A result in a list of results for different registers: what its register holds. -/
theorem inDest_after (w : Warp) (hm : Bool) (act : LaneSet) (xs : List (Nat × Shaped)) (hd : (xs.map (·.1)).Nodup)
    {n : Nat} {x : Shaped} (hx : (n, x) ∈ xs) :
    inDest (w.after (xs.map fun x => ⟨regDest hm x.1, .shaped x.2, .masked act⟩)) (regDest hm n) =
      Shaped.write w.width w.present act (inDest w (regDest hm n)) x := by
  induction xs generalizing w with
  | nil => cases hx
  | cons y rest ih =>
    rw [List.map_cons, after_cons]
    rw [List.map_cons, List.nodup_cons] at hd
    rcases List.mem_cons.1 hx with rfl | hx
    · rw [inDest_after_other, inDest_apply]
      intro r hr he
      obtain ⟨z, hz, rfl⟩ := List.mem_map.1 hr
      exact hd.1 (List.mem_map.2 ⟨z, hz, regDest_inj he⟩)
    · rw [ih _ hd.2 hx, apply_width, apply_present, inDest_apply_other]
      intro he
      exact hd.1 (List.mem_map.2 ⟨_, hx, (regDest_inj he).symm⟩)

/-! ## The frame -/

theorem sameMemory_of {s t : State} (hm : t.mem = s.mem) (hp : t.poison = s.poison) (hd : t.dies = s.dies)
    (hh : t.host = s.host) (ht : t.tags = s.tags) : SameMemory s t := by
  have h1 : ∀ a n, t.homeRead a n = s.homeRead a n := by intros; simp [State.homeRead, State.peerDown, hm, hh]
  have h2 : ∀ l, t.homePoison l = s.homePoison l := by intros; simp [State.homePoison, State.peerDown, hp, hh]
  have h3 : ∀ d l, t.fetched d l = s.fetched d l := by
    intros; simp [State.fetched, State.getLine?, State.getDie, h1, h2, hd, ht]
  have h4 : ∀ a, t.peerDown a = s.peerDown a := by intros; simp [State.peerDown, hh]
  intro d a
  refine ⟨h1 _ _, ?_, h2 _, ?_⟩
  · simp only [State.dieRead, h1, h3, h4]
  · simp only [State.diePoison, h2, h3, h4]

theorem SameDie.refl (a : Die) : SameDie a a := ⟨rfl, rfl, rfl, rfl, rfl, rfl, rfl, rfl, rfl, rfl, rfl, rfl, rfl, rfl⟩

theorem sameOutside_of {s t : State} (h : State.Quiet s t) (h1 : t.w.storeQ = s.w.storeQ) (h2 : t.w.ops = s.w.ops)
    (h3 : t.w.errs = s.w.errs) : SameOutside s t :=
  { cur := h.cur, warps := h.warps, teams := h.teams, launches := h.launches, crews := h.crews,
    counters := h.counters, queues := h.queues, parts := h.parts, host := h.host, pages := h.pages,
    cores := h.cores, clusters := h.clusters,
    dies := fun i => by rw [show t.getDie i = s.getDie i by simp [State.getDie, h.dies]]; exact SameDie.refl _
    memory := sameMemory_of h.mem h.poison h.dies h.host h.tags, tags := h.tags, storeQ := h1, ops := h2, errs := h3 }

theorem wReg_after_other (w : Warp) (rs : List Res) {n : Nat} (h : .w n ∉ rs.map (·.dest)) :
    (w.after rs).wReg n = w.wReg n := by
  have := inDest_after_other w rs (d := .w n) fun r hr he => h (List.mem_map.2 ⟨r, hr, he⟩)
  exact this

theorem tReg_after_other (w : Warp) (rs : List Res) {n : Nat} (h : .t n ∉ rs.map (·.dest)) :
    (w.after rs).tReg n = w.tReg n := by
  have := inDest_after_other w rs (d := .t n) fun r hr he => h (List.mem_map.2 ⟨r, hr, he⟩)
  exact this

theorem pReg_after_other (w : Warp) (rs : List Res) {n : Nat} (h : .p n ∉ rs.map (·.dest)) :
    (w.after rs).pReg n = w.pReg n := by
  induction rs generalizing w with
  | nil => rfl
  | cons r rest ih =>
    simp only [List.map_cons, List.mem_cons, not_or] at h
    rw [after_cons, ih _ h.2, Warp.apply_pReg_other]
    exact fun he => h.1 he.symm

theorem bReg_after_other (w : Warp) (rs : List Res) {n : Nat} (h : .b n ∉ rs.map (·.dest))
    (h1 : .bLo n ∉ rs.map (·.dest)) (h2 : .bHi n ∉ rs.map (·.dest)) : (w.after rs).bReg n = w.bReg n := by
  induction rs generalizing w with
  | nil => rfl
  | cons r rest ih =>
    simp only [List.map_cons, List.mem_cons, not_or] at h h1 h2
    rw [after_cons, ih _ h.2 h1.2 h2.2, Warp.apply_bReg_other]
    intro hk
    cases hd : r.dest <;> simp_all [Res.entry, Dest.key]

/-- The registers once an instruction has issued with results `rs`. -/
theorem warp_issued {s t : State} {rs : List Res} (hw : State.WarpIssued s rs t.w) (hs : s.w.pend = []) :
    Warp.SameRegs (warp t) (s.w.after rs) := by
  obtain ⟨es, rw, c, ni, r, m, g1, hm, he⟩ := hw
  have h1 : Warp.SameRegs (warp t) ({ s.w with pend := s.w.pend ++ es, rows := rw } : Warp).issued := by
    unfold warp
    exact Warp.issued_congr (by rw [he]; exact ⟨rfl, rfl, rfl, rfl, rfl, rfl⟩) (by rw [he])
  have h2 := Warp.issued_append (w := s.w) (rw := rw) hm
  rw [show s.w.issued = s.w by simp [Warp.issued, hs]] at h2
  exact h1.trans h2

/-- THE FRAME of an instruction that issues with results `rs` and no other effect. -/
theorem keeps_of {s t : State} {rs : List Res} (hw : State.WarpIssued s rs t.w) (hq : State.Quiet s t)
    (hs : s.w.pend = []) : Keeps s t (rs.map (·.dest)) := by
  have hr := warp_issued hw hs
  obtain ⟨es, rw, c, ni, r, m, g1, hm, he⟩ := hw
  have hg : ∀ k, State.gangOf t.w k = if s.cur.g = k then Gang.moved { s.gang with loops := (loopTest s.cur.pc s.gang.loops).1 }
                 ((loopTest s.cur.pc s.gang.loops).2.getD s.seqPc) m else State.gangOf s.w k := by
    intro k
    unfold State.gangOf
    rw [he]
    simp only [SMap.get_set]
    split <;> rfl
  have hgang : t.gang = Gang.moved { s.gang with loops := (loopTest s.cur.pc s.gang.loops).1 }
                 ((loopTest s.cur.pc s.gang.loops).2.getD s.seqPc) m := by
    unfold State.gang; rw [hq.cur, hg, if_pos rfl]; rfl
  refine ⟨⟨?_, ?_, ?_, ?_⟩, ?_, ⟨by rw [hgang]; rfl, by rw [hgang]; rfl, by rw [hgang]; rfl, by rw [hgang]; rfl, by rw [hgang]; rfl,
    by rw [hgang]; rfl, by rw [hgang]; rfl, by rw [hgang]; rfl, ?_⟩, ?_⟩
  · intro k hk; rw [hr.wReg, wReg_after_other _ _ hk, warp_settled hs]
  · intro k hk; rw [hr.tReg, tReg_after_other _ _ hk, warp_settled hs]
  · intro k hk; rw [hr.pReg, pReg_after_other _ _ hk, warp_settled hs]
  · intro k h1 h2 h3; rw [hr.bReg, bReg_after_other _ _ h1 h2 h3, warp_settled hs]
  · rw [he]; constructor <;> rfl
  · intro k hk; rw [hg, if_neg hk.symm]
  · exact sameOutside_of hq (by rw [he]) (by rw [he]) (by rw [he])

/-! ## Instructions whose results are lanes of registers -/

/-- The results a meaning makes for registers. -/
def results (s : State) (xs : List (Nat × Shaped)) : List Res := xs.map fun x => s.res x.1 x.2

theorem results_dest (s : State) (xs : List (Nat × Shaped)) : (results s xs).map (·.dest) = xs.map fun x => s.dst x.1 := by
  simp [results, State.res]

theorem results_nodup (s : State) {xs : List (Nat × Shaped)} (h : (xs.map (·.1)).Nodup) :
    ((results s xs).map (·.dest.key)).Nodup := by
  have : (results s xs).map (·.dest.key) = (xs.map (·.1)).map fun n => (regDest s.w.hm n).key := by
    simp [results, State.res, State.dst]
  rw [this]
  exact h.map fun a b hab => regDest_key_inj hab

theorem foldl_length {α β : Type} (f : List α → β → List α) (hf : ∀ a r, (f a r).length ≤ a.length + 1) (l : List β)
    (a : List α) : (l.foldl f a).length ≤ a.length + l.length := by
  induction l generalizing a with
  | nil => simp
  | cons r rest ih =>
    rw [List.foldl_cons, List.length_cons]
    have := ih (f a r)
    have := hf a r
    omega

theorem rowRes_length (w : Warp) (rs : List Res) : (w.rowRes rs).length ≤ rs.length := by
  unfold Warp.rowRes
  refine (foldl_length _ ?_ _ _).trans (by simpa using List.length_filter_le _ _)
  intro a r
  obtain ⟨d, v, m⟩ := r
  cases d with
  | w n => dsimp only; split <;> simp
  | _ => simp

theorem room_rows {s : State} (h : Ready s) {n : Nat} (hn : n < 17) :
    ∃ l, s.requestRows s.cur.wid n = .rows l := by
  have := h.room n hn
  cases he : s.requestRows s.cur.wid n <;> simp_all [isRows]

theorem named_after {s : State} {xs : List (Nat × Shaped)} (hd : (xs.map (·.1)).Nodup) {n : Nat} {x : Shaped}
    (hx : (n, x) ∈ xs) :
    (s.w.after (results s xs)).named n = Shaped.write s.width s.present s.act (s.w.named n) x := by
  have := inDest_after s.w s.w.hm s.act xs hd hx
  rw [← inDest_dst, after_hm, ← inDest_dst]
  exact this

/-- A U result under a full mask is written as it is (R184). -/
theorem write_full {wd : Nat} {present : LaneSet} {old new : Shaped} (h : new.isU = true) :
    Shaped.write wd present present old new = new := by
  unfold Shaped.write
  cases new <;> simp_all [Shaped.isU]

/-- No result leaves a trap-bank register V. -/
theorem bankV_false {s : State} (hs : s.w.pend = []) {xs : List (Nat × Shaped)} (hd : (xs.map (·.1)).Nodup)
    (h : s.w.hm = true → ∀ x ∈ xs, 56 ≤ x.1 → x.2.isU = true ∧ s.act = s.present) :
    s.w.bankV (results s xs) = false := by
  unfold Warp.bankV
  rw [List.any_eq_false]
  intro r hr
  obtain ⟨x, hx, rfl⟩ := List.mem_map.1 hr
  simp only [State.res, State.dst]
  rw [show s.w.issued = s.w by simp [Warp.issued, hs]]
  have hn := named_after (s := s) hd (n := x.1) (x := x.2) hx
  by_cases hb : (s.w.hm && decide (56 ≤ x.1)) = true
  · simp only [regDest, hb, if_true]
    simp only [Bool.and_eq_true, decide_eq_true_eq] at hb
    obtain ⟨hu, ha⟩ := h hb.1 x hx hb.2
    unfold Warp.named at hn
    rw [after_hm, hb.1, decide_eq_true hb.2] at hn
    simp only [Bool.and_self, if_true] at hn
    rw [hn, ha, write_full hu]
    cases hv : x.2 <;> simp_all [Shaped.isU, Shaped.isV]
  · simp only [regDest, hb]; simp

theorem forall₂_left {α β : Type} {R : α → β → Prop} {as : List α} {bs : List β} (h : List.Forall₂ R as bs) {a : α}
    (ha : a ∈ as) : ∃ b ∈ bs, R a b := by
  induction h with
  | nil => cases ha
  | cons h1 _ ih =>
    rcases List.mem_cons.1 ha with rfl | ha
    · exact ⟨_, List.mem_cons_self .., h1⟩
    · obtain ⟨b, hb, hr⟩ := ih ha
      exact ⟨b, List.mem_cons_of_mem _ hb, hr⟩

theorem forall₂_right {α β : Type} {R : α → β → Prop} {as : List α} {bs : List β} (h : List.Forall₂ R as bs) {b : β}
    (hb : b ∈ bs) : ∃ a ∈ as, R a b := by
  induction h with
  | nil => cases hb
  | cons h1 _ ih =>
    rcases List.mem_cons.1 hb with rfl | hb
    · exact ⟨_, List.mem_cons_self .., h1⟩
    · obtain ⟨a, ha, hr⟩ := ih hb
      exact ⟨a, List.mem_cons_of_mem _ ha, hr⟩

theorem issued_hm {s t : State} {rs : List Res} (hw : State.WarpIssued s rs t.w) : (warp t).hm = s.w.hm := by
  have : ∀ (es : List PendWrite) (w : Warp), (es.foldl Warp.apply w).hm = w.hm := by
    intro es
    induction es with
    | nil => intro; rfl
    | cons a l ih => intro w; rw [List.foldl_cons, ih, apply_hm]
  unfold warp Warp.issued
  rw [this]
  obtain ⟨_, _, _, _, _, _, _, _, hweq⟩ := hw
  rw [hweq]

/-- What a register holds once results for registers have been issued. -/
theorem reg_issued {s t : State} {xs : List (Nat × Shaped)} (hw : State.WarpIssued s (results s xs) t.w)
    (hs : s.w.pend = []) (hd : (xs.map (·.1)).Nodup) {n : Nat} {x : Shaped} (hx : (n, x) ∈ xs) :
    reg t n = Shaped.write s.width s.present s.act (reg s n) x := by
  have hregs := warp_issued hw hs
  have h1 : (warp t).named n = (s.w.after (results s xs)).named n := by
    unfold Warp.named
    rw [issued_hm hw, after_hm, hregs.tReg, hregs.wReg]
  unfold reg
  rw [h1, named_after hd hx, warp_settled hs]

/-- An effect's register results, as a meaning makes them: the same registers, the same lanes where active, and U when every
source is. -/
def Makes (s : State) (e : Effect) (xs : List (Nat × Shaped)) : Prop :=
  List.Forall₂ (fun o x => o.1 = x.1 ∧ (∀ k < s.width, s.act.getLsbD k = true → x.2.lane k = o.2 k) ∧
    (e.uniform s → x.2.isU = true)) e.outs xs

theorem Makes.fst {s : State} {e : Effect} {xs : List (Nat × Shaped)} (h : Makes s e xs) :
    e.outs.map (·.1) = xs.map (·.1) := by
  unfold Makes at h
  generalize e.outs = os at h
  induction h with
  | nil => rfl
  | cons h1 _ ih => simp only [List.map_cons]; rw [h1.1, ih]

theorem Makes.bankV {s : State} {e : Effect} {xs : List (Nat × Shaped)} (h : Makes s e xs) (hs : s.w.pend = [])
    (ha : Allowed s e) (hd : (xs.map (·.1)).Nodup) : s.w.bankV (results s xs) = false :=
  bankV_false hs hd fun hm x hxm hn => by
    obtain ⟨o, hom, ho, -, hou⟩ := forall₂_right h hxm
    obtain ⟨hu, hact⟩ := ha.2 hm o hom (by omega)
    exact ⟨hou hu, hact⟩

/-- Results in flight are what an effect says. -/
theorem does_issued {i : Instr} {s t : State} {e : Effect} {xs : List (Nat × Shaped)} (hx : exec i s = .next t)
    (hw : State.WarpIssued s (results s xs) t.w) (hq : State.Quiet s t) (hs : s.w.pend = []) (ho : Makes s e xs)
    (hp : e.pouts = []) (hd : (xs.map (·.1)).Nodup) : Does i s e := by
  have hreg : ∀ o ∈ e.outs, ∃ x, (∀ k < s.width, s.act.getLsbD k = true → x.lane k = o.2 k) ∧
      (e.uniform s → x.isU = true) ∧ reg t o.1 = Shaped.write s.width s.present s.act (reg s o.1) x := by
    intro o hoe
    obtain ⟨⟨n, x⟩, hxm, ho1, hxl, hxu⟩ := forall₂_left ho hoe
    exact ⟨x, hxl, hxu, reg_issued hw hs hd (by rw [ho1]; exact hxm)⟩
  refine ⟨t, hx, ?_, by simp [hp], ?_, ?_⟩
  · intro o hoe k hk hpk
    obtain ⟨x, hxl, -, hreg⟩ := hreg o hoe
    unfold lane
    rw [hreg, Shaped.lane_write _ _ _ _ _ hk hpk]
    split
    · rename_i hact; exact hxl k hk hact
    · rfl
  · have := keeps_of hw hq hs
    have hde : e.dests s = (results s xs).map (·.dest) := by
      have h2 : e.outs.map (fun o => s.dst o.1) = (e.outs.map (·.1)).map s.dst := by simp
      rw [results_dest, Effect.dests, hp, h2, ho.fst]
      simp
    rw [hde]
    exact this
  · intro hu hact
    refine ⟨fun o hoe => ?_, by simp [hp]⟩
    obtain ⟨x, -, hxu, hreg⟩ := hreg o hoe
    rw [hreg, hact, write_full (hxu hu)]
    exact hxu hu

/-- AN INSTRUCTION WITH REGISTER RESULTS does what its effect says. -/
theorem does_regStep {i : Instr} {s : State} {e : Effect} (h : Hdr) (u : UnitUse) (srcs : List Nat)
    {f : State → Except Stop (List Res)} (xs : List (Nat × Shaped)) (hx : exec i s = .next (s.regStep h u srcs f))
    (hr : Ready s) (ha : Allowed s e) (hf : f s = .ok (results s xs)) (ho : Makes s e xs)
    (hp : e.pouts = []) (hl : xs.length < 5) (hd : (xs.map (·.1)).Nodup) : Does i s e := by
  obtain ⟨hw, hq⟩ := State.regStep_next h u srcs f hf hr.units hr.settled (ho.bankV hr.settled ha hd)
    (room_rows hr (lt_of_le_of_lt (rowRes_length _ _) (by simpa [results] using hl.trans (by omega)))) (results_nodup s hd)
  exact does_issued hx hw hq hr.settled ho hp hd

/-! ## Instructions whose result is a predicate -/

theorem present_lt {w : Warp} {i : Nat} (h : w.present.getLsbD i = true) : i < 64 :=
  BitVec.lt_of_getLsbD h

/-- What a predicate holds once its result has been issued (R152, R63). -/
theorem pred_issued {s t : State} {n : Nat} {x : Pred} (hw : State.WarpIssued s [s.resP n x] t.w) (hs : s.w.pend = []) :
    (warp t).pReg n = if n = 7 then .u true else Pred.write s.present s.act ((warp s).pReg n) x := by
  have hregs := warp_issued hw hs
  rw [hregs.pReg, warp_settled hs]
  unfold Warp.after Warp.apply Res.entry State.resP
  by_cases h7 : n = 7
  · subst h7; simp [Warp.pReg]
  · simp [h7, Warp.pReg, Pred.writeMode, State.present]

/-- A U result under a full mask is written as it is (R152). -/
theorem pwrite_full {present : LaneSet} {old new : Pred} (h : new.isV = false) :
    Pred.write present present old new = new := by
  unfold Pred.write
  cases new <;> simp_all [Pred.isV]

/-- AN INSTRUCTION WITH A PREDICATE RESULT does what its effect says. -/
theorem does_predStep {i : Instr} {s : State} {e : Effect} (h : Hdr) (u : UnitUse) (srcs : List Nat)
    {f : State → Except Stop (List Res)} (n : Nat) (x : Pred) (g : Nat → Bool)
    (hx : exec i s = .next (s.regStep h u srcs f)) (hr : Ready s) (hf : f s = .ok [s.resP n x])
    (he : e.outs = []) (hp : e.pouts = [(n, g)]) (hg : ∀ k < s.width, s.act.getLsbD k = true → x.lane k = g k)
    (hu : e.uniform s → x.isV = false) : Does i s e := by
  have hs := hr.settled
  obtain ⟨hw, hq⟩ := State.regStep_next (rs := [s.resP n x]) h u srcs f hf hr.units hs
    (by simp [Warp.bankV, State.resP]) (room_rows hr (lt_of_le_of_lt (rowRes_length _ _) (by simp)))
    (by simp)
  set t := s.regStep h u srcs f
  have hpr := pred_issued hw hs
  refine ⟨t, hx, by simp [he], ?_, ?_, ?_⟩
  · intro o hoe k hk hpk
    rw [hp, List.mem_singleton] at hoe
    subst hoe
    unfold pred
    dsimp only
    rw [hpr]
    split
    · rfl
    · rw [Pred.lane_write _ _ _ _ (present_lt hpk) hpk]
      split
      · rename_i hact; exact hg k hk hact
      · rfl
  · have := keeps_of hw hq hs
    simpa [Effect.dests, he, hp, State.resP] using this
  · intro huni hact
    refine ⟨by simp [he], fun o hoe => ?_⟩
    rw [hp, List.mem_singleton] at hoe
    subst hoe
    dsimp only
    rw [hpr]
    split
    · rfl
    · rw [hact, pwrite_full (hu huni)]; exact hu huni

end Sys2Proof.Claim
end

