-- ==== Sys2Proof/Laws/Memory.lean ====
section
/-! SUPPORT. Memory: reading a byte after writing one, and the canonical form that every memory operation keeps. -/

namespace Sys2Proof.Machine

/-- The canonical form, one entry at a time. -/
theorem Memory.wf_cons (a : Nat) (v : Byte) (rest : List Host.Cell) :
    Memory.wf ((a, v) :: rest) = true ↔ v ≠ 0 ∧ SMap.above a rest ∧ Memory.wf rest = true := by
  induction rest generalizing a v with
  | nil => simp [Memory.wf, SMap.above]
  | cons e rest ih =>
    obtain ⟨b, u⟩ := e
    rw [Memory.wf]
    simp only [Bool.and_eq_true, decide_eq_true_eq, bne_iff_ne, ih b u]
    constructor
    · rintro ⟨⟨hab, hv⟩, hu, hb, hr⟩
      refine ⟨hv, ?_, hu, hb, hr⟩
      intro x hx
      rcases List.mem_cons.1 hx with rfl | hx
      · exact hab
      · exact Nat.lt_trans hab (hb x hx)
    · rintro ⟨hv, hab, hu, hb, hr⟩
      exact ⟨⟨hab (b, u) (by simp), hv⟩, hu, hb, hr⟩

/-- The canonical form, as a property of every entry. -/
theorem Memory.wf_iff (m : List Host.Cell) : Memory.wf m = true ↔ SMap.sorted m ∧ ∀ e ∈ m, e.2 ≠ 0 := by
  induction m with
  | nil => simp [Memory.wf, SMap.sorted]
  | cons e rest ih =>
    obtain ⟨a, v⟩ := e
    rw [Memory.wf_cons, ih]
    simp only [SMap.sorted, List.mem_cons, forall_eq_or_imp]
    tauto

/-- Writing a byte keeps the canonical form. -/
theorem cellSet_wf {m : List Host.Cell} (h : Memory.wf m = true) (a : Nat) (v : Byte) :
    Memory.wf (cellSet m a v) = true := by
  obtain ⟨hs, hv⟩ := (Memory.wf_iff m).1 h
  unfold cellSet
  split
  · exact (Memory.wf_iff _).2 ⟨SMap.sorted_erase hs a, fun e he => hv e (SMap.mem_of_mem_erase he)⟩
  · rename_i h0
    refine (Memory.wf_iff _).2 ⟨SMap.sorted_set hs a v, fun e he => ?_⟩
    rcases SMap.mem_set he with rfl | he
    · exact h0
    · exact hv e he

/-- Read after write, at the same address. -/
@[simp] theorem cellGet_set_same (m : List Host.Cell) (a : Nat) (v : Byte) : cellGet (cellSet m a v) a = v := by
  unfold cellGet cellSet
  split
  · rename_i hv; simp [SMap.get, SMap.find?_erase_same, hv]
  · simp

/-- Read after write, at another address. -/
theorem cellGet_set_other (m : List Host.Cell) {a b : Nat} (v : Byte) (h : a ≠ b) :
    cellGet (cellSet m a v) b = cellGet m b := by
  unfold cellGet cellSet
  split
  · simp [SMap.get, SMap.find?_erase_other m h]
  · simp [h]

/-- Writing bytes keeps the canonical form. -/
theorem cellsSet_wf {m : List Host.Cell} (h : Memory.wf m = true) (a : Nat) (bs : List Byte) :
    Memory.wf (cellsSet m a bs) = true := by
  induction bs generalizing m a with
  | nil => exact h
  | cons b rest ih => exact ih (cellSet_wf h a b) (a + 1)

/-- Bytes outside those written read as before. -/
theorem cellGet_cellsSet_other (m : List Host.Cell) (a : Nat) (bs : List Byte) {b : Nat}
    (h : b < a ∨ a + bs.length ≤ b) : cellGet (cellsSet m a bs) b = cellGet m b := by
  induction bs generalizing m a with
  | nil => rfl
  | cons x rest ih =>
    simp only [List.length_cons] at h
    rw [cellsSet, ih _ _ (by omega), cellGet_set_other _ _ (by omega)]

/-- Bytes that were written read as written. -/
theorem cellGet_cellsSet_same (m : List Host.Cell) (a : Nat) (bs : List Byte) {i : Nat}
    (h : i < bs.length) : cellGet (cellsSet m a bs) (a + i) = bs[i] := by
  induction bs generalizing m a i with
  | nil => simp at h
  | cons x rest ih =>
    rw [cellsSet]
    cases i with
    | zero =>
      rw [cellGet_cellsSet_other _ _ _ (by omega)]
      exact cellGet_set_same m a x
    | succ i =>
      have := ih (cellSet m a x) (a + 1) (i := i) (by simpa using h)
      simpa [Nat.add_assoc, Nat.add_comm 1 i] using this

/-- `cellsGet` byte by byte. -/
theorem cellsGet_length (m : List Host.Cell) (a n : Nat) : (cellsGet m a n).length = n := by
  induction n generalizing a with
  | zero => rfl
  | succ n ih => simp [cellsGet, ih]

theorem cellsGet_getElem (m : List Host.Cell) (a n i : Nat) (h : i < (cellsGet m a n).length) :
    (cellsGet m a n)[i] = cellGet m (a + i) := by
  induction n generalizing a i with
  | zero => simp [cellsGet] at h
  | succ n ih =>
    cases i with
    | zero => rfl
    | succ i =>
      have := ih (a + 1) i (by simpa [cellsGet] using h)
      simpa [cellsGet, Nat.add_assoc, Nat.add_comm 1 i] using this

namespace State

/-- Writing home memory keeps its canonical form. -/
theorem homeWrite_wf {s : State} (h : Memory.wf s.mem = true) (pa : Nat) (bs : List Byte) :
    Memory.wf (s.homeWrite pa bs).mem = true := by
  unfold homeWrite
  split
  · exact h
  · rw [State.foldl_noted_mem]; exact cellsSet_wf h pa bs

/-- A store of an agent of a die, at its home, keeps the canonical form. -/
theorem homeStore_wf {s : State} (h : Memory.wf s.mem = true) (d pa : Nat) (bs : List Byte) :
    Memory.wf (s.homeStore d pa bs).mem = true := by
  unfold homeStore
  split
  · exact h
  · rw [show ∀ (t : State) f, (t.shed d f).mem = t.mem from fun _ _ => rfl, State.noted_mem]; exact cellsSet_wf h pa bs

/-- A write at a die keeps the canonical form of home memory. -/
theorem dieWrite_wf {s : State} (h : Memory.wf s.mem = true) (d pa : Nat) (bs : List Byte) :
    Memory.wf (s.dieWrite d pa bs).mem = true := by
  unfold dieWrite
  dsimp only
  split
  · exact h
  · exact homeStore_wf h d pa bs

theorem setHomePoison_mem' (s : State) (l : Nat) (p : Bool) : (s.setHomePoison l p).mem = s.mem := rfl

/-- A poison bit touches no byte. -/
theorem dieSetPoison_mem (s : State) (d l : Nat) (p : Bool) : (s.dieSetPoison d l p).mem = s.mem := by
  unfold dieSetPoison
  split <;> rfl

/-- Fetching a line touches no byte of home memory. -/
theorem fetchLine_mem (s : State) (d l : Nat) : (s.fetchLine d l).mem = s.mem := by
  unfold fetchLine
  split <;> rfl

/-- An acquire touches no byte of home memory. -/
theorem invalidate_mem (s : State) (d k : Nat) : (s.invalidate d k).mem = s.mem := by
  unfold invalidate
  dsimp only
  split <;> rfl

/-- A fold of steps that keep the canonical form keeps it. -/
theorem foldl_wf {α : Type} (f : State → α → State)
    (hf : ∀ s a, Memory.wf s.mem = true → Memory.wf (f s a).mem = true) (l : List α) {s : State}
    (h : Memory.wf s.mem = true) : Memory.wf (l.foldl f s).mem = true := by
  induction l generalizing s with
  | nil => exact h
  | cons a rest ih => exact ih (hf s a h)

/-- An access to a peer that is down touches no byte of home memory. -/
theorem linkLost_mem (s : State) (x : PeerStore) : (s.linkLost x).mem = s.mem := by
  simp [linkLost, teamError, raiseEvent, send]

/-- Writing a line back keeps the canonical form. -/
theorem writeBackLine_wf {s : State} (h : Memory.wf s.mem = true) (d l : Nat) :
    Memory.wf (s.writeBackLine d l).mem = true := by
  unfold writeBackLine
  split
  · exact h
  · rename_i x _
    split
    · exact h
    · dsimp only
      split
      · exact foldl_wf _ (fun s a hs => by rw [linkLost_mem]; exact hs) _ h
      · have key : Memory.wf ((List.range 64).foldl (fun m i =>
            if x.dirty.getLsbD i then cellSet m (64 * l + i) (lineByte x.data i) else m) s.mem) = true := by
          generalize List.range 64 = is
          generalize s.mem = m at h
          induction is generalizing m with
          | nil => exact h
          | cons i rest ih =>
            refine ih _ ?_
            dsimp only
            split
            · exact cellSet_wf h _ _
            · exact h
        split
        · rw [setHomePoison_mem', State.noted_mem]; exact key
        · rw [State.noted_mem]; exact key

/-- The write-backs of a release keep the canonical form. -/
theorem writeBackAll_wf {s : State} (h : Memory.wf s.mem = true) (d k : Nat) :
    Memory.wf (s.writeBackAll d k).mem = true :=
  foldl_wf _ (fun _ l hs => writeBackLine_wf hs d l) _ h

end State
end Sys2Proof.Machine
end

