-- ==== Sys2Proof/Laws/Operands.lean ====
section
/-! SUPPORT. What the shape rules of R71 give lane by lane: value, poison, and when a result is U. -/

namespace Sys2Proof.Machine

theorem Shaped.lane_affine (b s : Word) (p : Bool) (i : Nat) :
    (Shaped.affine b s p).lane i = ⟨b + BitVec.ofNat 32 i * s, p⟩ := by
  unfold Shaped.affine
  split
  · rename_i h; subst h; simp [Shaped.lane]
  · rfl

/-- The lanes of a U register are one lane. -/
theorem Shaped.lane_of_isU {x : Shaped} (h : x.isU = true) (i : Nat) : x.lane i = x.lane 0 := by
  cases x <;> simp_all [Shaped.isU, Shaped.lane]

theorem allU_lane {srcs : List Shaped} (h : allU srcs = true) {x : Shaped} (hx : x ∈ srcs) (i : Nat) :
    x.lane i = x.lane 0 :=
  Shaped.lane_of_isU (by simpa using (List.all_eq_true.1 h) x hx) i

theorem poisonAt_allU {srcs : List Shaped} (h : allU srcs = true) (i : Nat) : poisonAt srcs i = poisonAt srcs 0 := by
  unfold poisonAt
  induction srcs with
  | nil => rfl
  | cons x rest ih =>
    simp only [List.any_cons]
    rw [allU_lane h (List.mem_cons_self ..) i, ih (by simp_all [allU])]

/-- A result lane by lane, when lanes with equal sources have equal results. -/
theorem lane_byLane (wd : Nat) (srcs : List Shaped) (f : Nat → Word) {i : Nat} (h : i < wd)
    (hf : allU srcs = true → f i = f 0) : (byLane wd srcs f).lane i = ⟨f i, poisonAt srcs i⟩ := by
  unfold byLane
  split
  · rename_i hu; simp [Shaped.lane, hf hu, poisonAt_allU hu i]
  · exact Shaped.lane_v _ _ h

theorem isU_byLane (wd : Nat) {srcs : List Shaped} (f : Nat → Word) (h : allU srcs = true) :
    (byLane wd srcs f).isU = true := by
  unfold byLane; simp [h, Shaped.isU]

theorem lane_map1 (wd : Nat) (f : Word → Word) (x : Shaped) {i : Nat} (h : i < wd) :
    (map1 wd f x).lane i = ⟨f (x.lane i).val, (x.lane i).poison⟩ := by
  unfold map1
  rw [lane_byLane _ _ _ h fun hu => by rw [allU_lane hu (List.mem_cons_self ..) i]]
  simp [poisonAt]

theorem lane_map2 (wd : Nat) (f : Word → Word → Word) (x y : Shaped) {i : Nat} (h : i < wd) :
    (map2 wd f x y).lane i = ⟨f (x.lane i).val (y.lane i).val, (x.lane i).poison || (y.lane i).poison⟩ := by
  unfold map2
  rw [lane_byLane _ _ _ h fun hu => by
    rw [allU_lane (x := x) hu (by simp) i, allU_lane (x := y) hu (by simp) i]]
  simp [poisonAt]

theorem lane_map3 (wd : Nat) (f : Word → Word → Word → Word) (x y z : Shaped) {i : Nat} (h : i < wd) :
    (map3 wd f x y z).lane i = ⟨f (x.lane i).val (y.lane i).val (z.lane i).val,
      (x.lane i).poison || ((y.lane i).poison || (z.lane i).poison)⟩ := by
  unfold map3
  rw [lane_byLane _ _ _ h fun hu => by
    rw [allU_lane (x := x) hu (by simp) i, allU_lane (x := y) hu (by simp) i, allU_lane (x := z) hu (by simp) i]]
  simp [poisonAt]

theorem isU_map1 (wd : Nat) (f : Word → Word) {x : Shaped} (h : x.isU = true) : (map1 wd f x).isU = true :=
  isU_byLane _ _ (by simp [allU, h])
theorem isU_map2 (wd : Nat) (f : Word → Word → Word) {x y : Shaped} (h : x.isU = true) (k : y.isU = true) :
    (map2 wd f x y).isU = true := isU_byLane _ _ (by simp [allU, h, k])
theorem isU_map3 (wd : Nat) (f : Word → Word → Word → Word) {x y z : Shaped} (h : x.isU = true) (k : y.isU = true)
    (l : z.isU = true) : (map3 wd f x y z).isU = true := isU_byLane _ _ (by simp [allU, h, k, l])

/-! ## The Add, Scale and Shift left rows of R71 -/

theorem lane_addShaped (wd : Nat) (x y : Shaped) {i : Nat} (h : i < wd) : (addShaped wd x y).lane i =
    ⟨(x.lane i).val + (y.lane i).val, (x.lane i).poison || (y.lane i).poison⟩ := by
  cases x <;> cases y <;> simp only [addShaped] <;>
    first
    | exact lane_map2 _ _ _ _ h
    | rfl
    | (try simp only [Shaped.lane_affine]
       simp only [Shaped.lane]; exact (Lane.mk.injEq ..).mpr ⟨by ring, rfl⟩)

theorem lane_subShaped (wd : Nat) (x y : Shaped) {i : Nat} (h : i < wd) : (subShaped wd x y).lane i =
    ⟨(x.lane i).val - (y.lane i).val, (x.lane i).poison || (y.lane i).poison⟩ := by
  cases x <;> cases y <;> simp only [subShaped] <;>
    first
    | exact lane_map2 _ _ _ _ h
    | rfl
    | (try simp only [Shaped.lane_affine]
       simp only [Shaped.lane]; exact (Lane.mk.injEq ..).mpr ⟨by ring, rfl⟩)

theorem lane_mulShaped (wd : Nat) (x y : Shaped) {i : Nat} (h : i < wd) : (mulShaped wd x y).lane i =
    ⟨(x.lane i).val * (y.lane i).val, (x.lane i).poison || (y.lane i).poison⟩ := by
  cases x <;> cases y <;> simp only [mulShaped] <;>
    first
    | exact lane_map2 _ _ _ _ h
    | rfl
    | (try simp only [Shaped.lane_affine]
       simp only [Shaped.lane]; exact (Lane.mk.injEq ..).mpr ⟨by ring, rfl⟩)

theorem shlWord_eq (a b : Word) : shlWord a b = a <<< b.toNat := by
  unfold shlWord
  split
  · rename_i h; exact (BitVec.shiftLeft_eq_zero h).symm
  · rfl

theorem shrWord_eq (a b : Word) : shrWord a b = a >>> b.toNat := by
  unfold shrWord
  split
  · rename_i h; exact (BitVec.ushiftRight_eq_zero h).symm
  · rfl

theorem lane_shlShaped (wd : Nat) (x y : Shaped) {i : Nat} (h : i < wd) : (shlShaped wd x y).lane i =
    ⟨(x.lane i).val <<< (y.lane i).val.toNat, (x.lane i).poison || (y.lane i).poison⟩ := by
  cases x <;> cases y <;> simp only [shlShaped] <;>
    first
    | (rw [lane_map2 _ _ _ _ h, shlWord_eq])
    | (simp only [Shaped.lane, shlWord_eq]; done)
    | (try simp only [Shaped.lane_affine]
       simp only [Shaped.lane, shlWord_eq]
       exact (Lane.mk.injEq ..).mpr ⟨by simp only [BitVec.shiftLeft_eq_mul_twoPow] <;> ring, rfl⟩)

theorem isU_addShaped (wd : Nat) {x y : Shaped} (h : x.isU = true) (k : y.isU = true) : (addShaped wd x y).isU = true := by
  cases x <;> cases y <;> simp_all [addShaped, Shaped.isU]
theorem isU_subShaped (wd : Nat) {x y : Shaped} (h : x.isU = true) (k : y.isU = true) : (subShaped wd x y).isU = true := by
  cases x <;> cases y <;> simp_all [subShaped, Shaped.isU]
theorem isU_mulShaped (wd : Nat) {x y : Shaped} (h : x.isU = true) (k : y.isU = true) : (mulShaped wd x y).isU = true := by
  cases x <;> cases y <;> simp_all [mulShaped, Shaped.isU]
theorem isU_shlShaped (wd : Nat) {x y : Shaped} (h : x.isU = true) (k : y.isU = true) : (shlShaped wd x y).isU = true := by
  cases x <;> cases y <;> simp_all [shlShaped, Shaped.isU]

/-! ## Predicates -/

theorem getLsbD_ofList (l : List Nat) {i : Nat} (h : i < 64) : (LaneSet.ofList l).getLsbD i = decide (i ∈ l) := by
  have : ∀ (l : List Nat) (m : LaneSet), (l.foldl (fun m i => m ||| BitVec.twoPow 64 i) m).getLsbD i =
      (m.getLsbD i || decide (i ∈ l)) := by
    intro l
    induction l with
    | nil => intro m; simp
    | cons a rest ih =>
      intro m
      rw [List.foldl_cons, ih]
      simp only [BitVec.getLsbD_or, BitVec.getLsbD_twoPow, List.mem_cons, Bool.decide_or, h, decide_true, Bool.true_and]
      rw [Bool.or_assoc]
      congr 2
      by_cases ha : a = i
      · subst ha; simp [h]
      · simp [ha, Ne.symm ha]
  unfold LaneSet.ofList
  rw [this]
  simp

theorem mem_toList {m : LaneSet} {i : Nat} : i ∈ LaneSet.toList m ↔ m.getLsbD i = true := by
  unfold LaneSet.toList lanes64
  rw [List.mem_filter, List.mem_range]
  exact ⟨fun h => h.2, fun h => ⟨BitVec.lt_of_getLsbD h, h⟩⟩

/-- A predicate result lane by lane, when lanes with equal sources have equal results. -/
theorem lane_predBy (srcs : List Shaped) (preds : List Pred) (f : Nat → Bool) {i : Nat} (h : i < 64)
    (hf : (allU srcs && !preds.any Pred.isV) = true → f i = f 0) : (predBy srcs preds f).lane i = f i := by
  unfold predBy
  split
  · rename_i hu; simp [Pred.lane, hf hu]
  · simp only [Pred.lane]
    rw [getLsbD_ofList _ h]
    unfold lanes64
    simp [h]

theorem isV_predBy {srcs : List Shaped} {preds : List Pred} (f : Nat → Bool) (h : allU srcs = true)
    (hp : preds.any Pred.isV = false) : (predBy srcs preds f).isV = false := by
  unfold predBy; simp [h, hp, Pred.isV]

theorem Pred.lane_of_notV {x : Pred} (h : x.isV = false) (i : Nat) : x.lane i = x.lane 0 := by
  cases x <;> simp_all [Pred.isV, Pred.lane]

end Sys2Proof.Machine
end

