-- ==== Sys2Proof/Laws/PerInstr.lean ====
section
/-! SUPPORT. Statements about each instruction as syntax, one lemma for each constructor. -/

set_option Elab.async false

namespace Sys2Proof.Laws

/-- Bit 0 of the first halfword gives the length of an instruction, and its word has no bit beyond it (R33, R41, R43). -/
def EncodedLength.Statement (i : Instr) : Prop :=
  match i.encode with
  | none => True
  | some (n, w) => (n = 2 ∧ w % 2 = 0 ∨ n = 4 ∧ w % 2 = 1) ∧ w < 2 ^ (8 * n)

/-- The bits of a header: bit 0 is 1, and they lie below bit 4 (R43). -/
theorem hdr_odd (h : Hdr) : h.nat % 2 = 1 ∧ h.nat < 16 := by
  have := h.gap.isLt
  cases h with | mk gap sw => cases sw <;> simp [Hdr.nat] at * <;> omega

theorem of_word {i : Instr} {w : Nat} (e : i.encode = some (4, w)) (h : w % 2 = 1 ∧ w < 2 ^ 32) :
    EncodedLength.Statement i := by
  rw [EncodedLength.Statement, e]; exact ⟨.inr ⟨rfl, h.1⟩, h.2⟩

theorem of_half {i : Instr} {w : Nat} (e : i.encode = some (2, w)) (h : w % 2 = 0 ∧ w < 2 ^ 16) :
    EncodedLength.Statement i := by
  rw [EncodedLength.Statement, e]; exact ⟨.inl ⟨rfl, h.1⟩, h.2⟩

theorem EncodedLength.nop (h : Hdr) : EncodedLength.Statement (.nop h) := of_word rfl (by have := hdr_odd h; omega)
theorem EncodedLength.exit (h : Hdr) : EncodedLength.Statement (.exit h) := of_word rfl (by have := hdr_odd h; omega)
theorem EncodedLength.join (h : Hdr) : EncodedLength.Statement (.join h) := of_word rfl (by have := hdr_odd h; omega)
theorem EncodedLength.loopx (h : Hdr) : EncodedLength.Statement (.loopx h) := of_word rfl (by have := hdr_odd h; omega)
theorem EncodedLength.isync (h : Hdr) : EncodedLength.Statement (.isync h) := of_word rfl (by have := hdr_odd h; omega)
theorem EncodedLength.ret (h : Hdr) (a : BitVec 6) : EncodedLength.Statement (.ret h a) := of_word rfl (by have := hdr_odd h; omega)
theorem EncodedLength.regang (h : Hdr) (a : BitVec 6) : EncodedLength.Statement (.regang h a) := of_word rfl (by have := hdr_odd h; omega)
theorem EncodedLength.bra (h : Hdr) (o : BitVec 22) : EncodedLength.Statement (.bra h o) := of_word rfl (by have := hdr_odd h; omega)
theorem EncodedLength.brc (h : Hdr) (p : BitVec 3) (n : BitVec 1) (o : BitVec 16) : EncodedLength.Statement (.brc h p n o) := of_word rfl (by have := hdr_odd h; omega)
theorem EncodedLength.brcAny (h : Hdr) (p : BitVec 3) (n : BitVec 1) (o : BitVec 16) : EncodedLength.Statement (.brcAny h p n o) := of_word rfl (by have := hdr_odd h; omega)
theorem EncodedLength.brcAll (h : Hdr) (p : BitVec 3) (n : BitVec 1) (o : BitVec 16) : EncodedLength.Statement (.brcAll h p n o) := of_word rfl (by have := hdr_odd h; omega)
theorem EncodedLength.call (h : Hdr) (o : BitVec 22) : EncodedLength.Statement (.call h o) := of_word rfl (by have := hdr_odd h; omega)
theorem EncodedLength.split (h : Hdr) (o : BitVec 16) : EncodedLength.Statement (.split h o) := of_word rfl (by have := hdr_odd h; omega)
theorem EncodedLength.loopReg (h : Hdr) (c : BitVec 6) (e : BitVec 15) : EncodedLength.Statement (.loopReg h c e) := of_word rfl (by have := hdr_odd h; omega)
theorem EncodedLength.loopImm (h : Hdr) (c : BitVec 6) (e : BitVec 15) : EncodedLength.Statement (.loopImm h c e) := of_word rfl (by have := hdr_odd h; omega)
theorem EncodedLength.brx (h : Hdr) (a : BitVec 6) (o : BitVec 16) : EncodedLength.Statement (.brx h a o) := of_word rfl (by have := hdr_odd h; omega)
theorem EncodedLength.callx (h : Hdr) (a : BitVec 6) (o : BitVec 16) : EncodedLength.Statement (.callx h a o) := of_word rfl (by have := hdr_odd h; omega)
theorem EncodedLength.trapImm (h : Hdr) (i : BitVec 10) : EncodedLength.Statement (.trapImm h i) := of_word rfl (by have := hdr_odd h; omega)
theorem EncodedLength.sysImm (h : Hdr) (i : BitVec 10) : EncodedLength.Statement (.sysImm h i) := of_word rfl (by have := hdr_odd h; omega)
theorem EncodedLength.rtrap (h : Hdr) : EncodedLength.Statement (.rtrap h) := of_word rfl (by have := hdr_odd h; omega)
theorem EncodedLength.brk (h : Hdr) : EncodedLength.Statement (.brk h) := of_word rfl (by have := hdr_odd h; omega)
theorem EncodedLength.tinfo (h : Hdr) (d : BitVec 6) (b : BitVec 6) : EncodedLength.Statement (.tinfo h d b) := of_word rfl (by have := hdr_odd h; omega)
theorem EncodedLength.tset (h : Hdr) (a : BitVec 6) : EncodedLength.Statement (.tset h a) := of_word rfl (by have := hdr_odd h; omega)
theorem EncodedLength.tvec (h : Hdr) (a : BitVec 6) : EncodedLength.Statement (.tvec h a) := of_word rfl (by have := hdr_odd h; omega)
theorem EncodedLength.tvecDl (h : Hdr) (a : BitVec 6) : EncodedLength.Statement (.tvecDl h a) := of_word rfl (by have := hdr_odd h; omega)
theorem EncodedLength.getx (h : Hdr) (d : BitVec 6) (a : BitVec 6) (b : BitVec 6) : EncodedLength.Statement (.getx h d a b) := of_word rfl (by have := hdr_odd h; omega)
theorem EncodedLength.setx (h : Hdr) (d : BitVec 6) (a : BitVec 6) (b : BitVec 6) : EncodedLength.Statement (.setx h d a b) := of_word rfl (by have := hdr_odd h; omega)
theorem EncodedLength.tmask (h : Hdr) (d : BitVec 6) (a : BitVec 6) : EncodedLength.Statement (.tmask h d a) := of_word rfl (by have := hdr_odd h; omega)
theorem EncodedLength.signal (h : Hdr) (a : BitVec 6) (b : BitVec 6) : EncodedLength.Statement (.signal h a b) := of_word rfl (by have := hdr_odd h; omega)
theorem EncodedLength.wfe (h : Hdr) (d : BitVec 6) : EncodedLength.Statement (.wfe h d) := of_word rfl (by have := hdr_odd h; omega)
theorem EncodedLength.ckpt (h : Hdr) (i : BitVec 16) : EncodedLength.Statement (.ckpt h i) := of_word rfl (by have := hdr_odd h; omega)
theorem EncodedLength.mov (h : Hdr) (d : BitVec 6) (a : BitVec 6) : EncodedLength.Statement (.mov h d a) := of_word rfl (by have := hdr_odd h; omega)
theorem EncodedLength.shqK (h : Hdr) (d : BitVec 6) (a : BitVec 6) : EncodedLength.Statement (.shqK h d a) := of_word rfl (by have := hdr_odd h; omega)
theorem EncodedLength.shqB (h : Hdr) (d : BitVec 6) (a : BitVec 6) : EncodedLength.Statement (.shqB h d a) := of_word rfl (by have := hdr_odd h; omega)
theorem EncodedLength.shqS (h : Hdr) (d : BitVec 6) (a : BitVec 6) : EncodedLength.Statement (.shqS h d a) := of_word rfl (by have := hdr_odd h; omega)
theorem EncodedLength.shas (h : Hdr) (a : BitVec 6) (b : BitVec 6) : EncodedLength.Statement (.shas h a b) := of_word rfl (by have := hdr_odd h; omega)
theorem EncodedLength.shfU (h : Hdr) (d : BitVec 6) (a : BitVec 6) : EncodedLength.Statement (.shfU h d a) := of_word rfl (by have := hdr_odd h; omega)
theorem EncodedLength.shfA (h : Hdr) (d : BitVec 6) (a : BitVec 6) : EncodedLength.Statement (.shfA h d a) := of_word rfl (by have := hdr_odd h; omega)
theorem EncodedLength.shfV (h : Hdr) (d : BitVec 6) (a : BitVec 6) : EncodedLength.Statement (.shfV h d a) := of_word rfl (by have := hdr_odd h; omega)
theorem EncodedLength.spr (h : Hdr) (d : BitVec 6) (b : BitVec 6) : EncodedLength.Statement (.spr h d b) := of_word rfl (by have := hdr_odd h; omega)
theorem EncodedLength.partW (h : Hdr) (a : BitVec 6) : EncodedLength.Statement (.partW h a) := of_word rfl (by have := hdr_odd h; omega)
theorem EncodedLength.roleW (h : Hdr) (a : BitVec 6) : EncodedLength.Statement (.roleW h a) := of_word rfl (by have := hdr_odd h; omega)
theorem EncodedLength.sfmt (h : Hdr) (a : BitVec 6) : EncodedLength.Statement (.sfmt h a) := of_word rfl (by have := hdr_odd h; omega)
theorem EncodedLength.gfmt (h : Hdr) (d : BitVec 6) : EncodedLength.Statement (.gfmt h d) := of_word rfl (by have := hdr_odd h; omega)
theorem EncodedLength.movbTo (h : Hdr) (d : BitVec 6) (a : BitVec 6) : EncodedLength.Statement (.movbTo h d a) := of_word rfl (by have := hdr_odd h; omega)
theorem EncodedLength.movbFrom (h : Hdr) (d : BitVec 6) (a : BitVec 6) : EncodedLength.Statement (.movbFrom h d a) := of_word rfl (by have := hdr_odd h; omega)
theorem EncodedLength.widen (h : Hdr) (d : BitVec 6) (i : BitVec 16) : EncodedLength.Statement (.widen h d i) := of_word rfl (by have := hdr_odd h; omega)
theorem EncodedLength.movl (h : Hdr) (d : BitVec 6) (i : BitVec 16) : EncodedLength.Statement (.movl h d i) := of_word rfl (by have := hdr_odd h; omega)
theorem EncodedLength.movh (h : Hdr) (d : BitVec 6) (i : BitVec 16) : EncodedLength.Statement (.movh h d i) := of_word rfl (by have := hdr_odd h; omega)
theorem EncodedLength.addW (h : Hdr) (d : BitVec 6) (a : BitVec 6) (b : BitVec 6) : EncodedLength.Statement (.addW h d a b) := of_word rfl (by have := hdr_odd h; omega)
theorem EncodedLength.subW (h : Hdr) (d : BitVec 6) (a : BitVec 6) (b : BitVec 6) : EncodedLength.Statement (.subW h d a b) := of_word rfl (by have := hdr_odd h; omega)
theorem EncodedLength.mulW (h : Hdr) (d : BitVec 6) (a : BitVec 6) (b : BitVec 6) : EncodedLength.Statement (.mulW h d a b) := of_word rfl (by have := hdr_odd h; omega)
theorem EncodedLength.mulhS (h : Hdr) (d : BitVec 6) (a : BitVec 6) (b : BitVec 6) : EncodedLength.Statement (.mulhS h d a b) := of_word rfl (by have := hdr_odd h; omega)
theorem EncodedLength.mulhN (h : Hdr) (d : BitVec 6) (a : BitVec 6) (b : BitVec 6) : EncodedLength.Statement (.mulhN h d a b) := of_word rfl (by have := hdr_odd h; omega)
theorem EncodedLength.mad (h : Hdr) (d : BitVec 6) (a : BitVec 6) (b : BitVec 6) : EncodedLength.Statement (.mad h d a b) := of_word rfl (by have := hdr_odd h; omega)
theorem EncodedLength.addsS (h : Hdr) (d : BitVec 6) (a : BitVec 6) (b : BitVec 6) : EncodedLength.Statement (.addsS h d a b) := of_word rfl (by have := hdr_odd h; omega)
theorem EncodedLength.addsN (h : Hdr) (d : BitVec 6) (a : BitVec 6) (b : BitVec 6) : EncodedLength.Statement (.addsN h d a b) := of_word rfl (by have := hdr_odd h; omega)
theorem EncodedLength.subsS (h : Hdr) (d : BitVec 6) (a : BitVec 6) (b : BitVec 6) : EncodedLength.Statement (.subsS h d a b) := of_word rfl (by have := hdr_odd h; omega)
theorem EncodedLength.subsN (h : Hdr) (d : BitVec 6) (a : BitVec 6) (b : BitVec 6) : EncodedLength.Statement (.subsN h d a b) := of_word rfl (by have := hdr_odd h; omega)
theorem EncodedLength.absd (h : Hdr) (d : BitVec 6) (a : BitVec 6) (b : BitVec 6) : EncodedLength.Statement (.absd h d a b) := of_word rfl (by have := hdr_odd h; omega)
theorem EncodedLength.divS (h : Hdr) (d : BitVec 6) (a : BitVec 6) (b : BitVec 6) : EncodedLength.Statement (.divS h d a b) := of_word rfl (by have := hdr_odd h; omega)
theorem EncodedLength.divN (h : Hdr) (d : BitVec 6) (a : BitVec 6) (b : BitVec 6) : EncodedLength.Statement (.divN h d a b) := of_word rfl (by have := hdr_odd h; omega)
theorem EncodedLength.remS (h : Hdr) (d : BitVec 6) (a : BitVec 6) (b : BitVec 6) : EncodedLength.Statement (.remS h d a b) := of_word rfl (by have := hdr_odd h; omega)
theorem EncodedLength.remN (h : Hdr) (d : BitVec 6) (a : BitVec 6) (b : BitVec 6) : EncodedLength.Statement (.remN h d a b) := of_word rfl (by have := hdr_odd h; omega)
theorem EncodedLength.dp4 (h : Hdr) (d : BitVec 6) (a : BitVec 6) (b : BitVec 6) : EncodedLength.Statement (.dp4 h d a b) := of_word rfl (by have := hdr_odd h; omega)
theorem EncodedLength.andW (h : Hdr) (d : BitVec 6) (a : BitVec 6) (b : BitVec 6) : EncodedLength.Statement (.andW h d a b) := of_word rfl (by have := hdr_odd h; omega)
theorem EncodedLength.orW (h : Hdr) (d : BitVec 6) (a : BitVec 6) (b : BitVec 6) : EncodedLength.Statement (.orW h d a b) := of_word rfl (by have := hdr_odd h; omega)
theorem EncodedLength.xorW (h : Hdr) (d : BitVec 6) (a : BitVec 6) (b : BitVec 6) : EncodedLength.Statement (.xorW h d a b) := of_word rfl (by have := hdr_odd h; omega)
theorem EncodedLength.andn (h : Hdr) (d : BitVec 6) (a : BitVec 6) (b : BitVec 6) : EncodedLength.Statement (.andn h d a b) := of_word rfl (by have := hdr_odd h; omega)
theorem EncodedLength.shlW (h : Hdr) (d : BitVec 6) (a : BitVec 6) (b : BitVec 6) : EncodedLength.Statement (.shlW h d a b) := of_word rfl (by have := hdr_odd h; omega)
theorem EncodedLength.shrW (h : Hdr) (d : BitVec 6) (a : BitVec 6) (b : BitVec 6) : EncodedLength.Statement (.shrW h d a b) := of_word rfl (by have := hdr_odd h; omega)
theorem EncodedLength.sarW (h : Hdr) (d : BitVec 6) (a : BitVec 6) (b : BitVec 6) : EncodedLength.Statement (.sarW h d a b) := of_word rfl (by have := hdr_odd h; omega)
theorem EncodedLength.rotl (h : Hdr) (d : BitVec 6) (a : BitVec 6) (b : BitVec 6) : EncodedLength.Statement (.rotl h d a b) := of_word rfl (by have := hdr_odd h; omega)
theorem EncodedLength.minS (h : Hdr) (d : BitVec 6) (a : BitVec 6) (b : BitVec 6) : EncodedLength.Statement (.minS h d a b) := of_word rfl (by have := hdr_odd h; omega)
theorem EncodedLength.maxS (h : Hdr) (d : BitVec 6) (a : BitVec 6) (b : BitVec 6) : EncodedLength.Statement (.maxS h d a b) := of_word rfl (by have := hdr_odd h; omega)
theorem EncodedLength.minN (h : Hdr) (d : BitVec 6) (a : BitVec 6) (b : BitVec 6) : EncodedLength.Statement (.minN h d a b) := of_word rfl (by have := hdr_odd h; omega)
theorem EncodedLength.maxN (h : Hdr) (d : BitVec 6) (a : BitVec 6) (b : BitVec 6) : EncodedLength.Statement (.maxN h d a b) := of_word rfl (by have := hdr_odd h; omega)
theorem EncodedLength.clz (h : Hdr) (d : BitVec 6) (a : BitVec 6) : EncodedLength.Statement (.clz h d a) := of_word rfl (by have := hdr_odd h; omega)
theorem EncodedLength.popc (h : Hdr) (d : BitVec 6) (a : BitVec 6) : EncodedLength.Statement (.popc h d a) := of_word rfl (by have := hdr_odd h; omega)
theorem EncodedLength.brev (h : Hdr) (d : BitVec 6) (a : BitVec 6) : EncodedLength.Statement (.brev h d a) := of_word rfl (by have := hdr_odd h; omega)
theorem EncodedLength.absS (h : Hdr) (d : BitVec 6) (a : BitVec 6) : EncodedLength.Statement (.absS h d a) := of_word rfl (by have := hdr_odd h; omega)
theorem EncodedLength.bfeN (h : Hdr) (d : BitVec 6) (a : BitVec 6) (b : BitVec 6) : EncodedLength.Statement (.bfeN h d a b) := of_word rfl (by have := hdr_odd h; omega)
theorem EncodedLength.bfeS (h : Hdr) (d : BitVec 6) (a : BitVec 6) (b : BitVec 6) : EncodedLength.Statement (.bfeS h d a b) := of_word rfl (by have := hdr_odd h; omega)
theorem EncodedLength.bfi (h : Hdr) (d : BitVec 6) (a : BitVec 6) (b : BitVec 6) : EncodedLength.Statement (.bfi h d a b) := of_word rfl (by have := hdr_odd h; omega)
theorem EncodedLength.prmt (h : Hdr) (d : BitVec 6) (a : BitVec 6) (b : BitVec 6) : EncodedLength.Statement (.prmt h d a b) := of_word rfl (by have := hdr_odd h; omega)
theorem EncodedLength.add64 (h : Hdr) (d : BitVec 6) (a : BitVec 6) (b : BitVec 6) : EncodedLength.Statement (.add64 h d a b) := of_word rfl (by have := hdr_odd h; omega)
theorem EncodedLength.sub64 (h : Hdr) (d : BitVec 6) (a : BitVec 6) (b : BitVec 6) : EncodedLength.Statement (.sub64 h d a b) := of_word rfl (by have := hdr_odd h; omega)
theorem EncodedLength.mulwS (h : Hdr) (d : BitVec 6) (a : BitVec 6) (b : BitVec 6) : EncodedLength.Statement (.mulwS h d a b) := of_word rfl (by have := hdr_odd h; omega)
theorem EncodedLength.mulwN (h : Hdr) (d : BitVec 6) (a : BitVec 6) (b : BitVec 6) : EncodedLength.Statement (.mulwN h d a b) := of_word rfl (by have := hdr_odd h; omega)
theorem EncodedLength.shl64 (h : Hdr) (d : BitVec 6) (a : BitVec 6) (b : BitVec 6) : EncodedLength.Statement (.shl64 h d a b) := of_word rfl (by have := hdr_odd h; omega)
theorem EncodedLength.shr64 (h : Hdr) (d : BitVec 6) (a : BitVec 6) (b : BitVec 6) : EncodedLength.Statement (.shr64 h d a b) := of_word rfl (by have := hdr_odd h; omega)
theorem EncodedLength.sar64 (h : Hdr) (d : BitVec 6) (a : BitVec 6) (b : BitVec 6) : EncodedLength.Statement (.sar64 h d a b) := of_word rfl (by have := hdr_odd h; omega)
theorem EncodedLength.madwN (h : Hdr) (d : BitVec 6) (a : BitVec 6) (b : BitVec 6) : EncodedLength.Statement (.madwN h d a b) := of_word rfl (by have := hdr_odd h; omega)
theorem EncodedLength.cmp (h : Hdr) (p : BitVec 3) (m : BitVec 3) (a : BitVec 6) (b : BitVec 6) (f : BitVec 4) : EncodedLength.Statement (.cmp h p m a b f) := of_word rfl (by have := hdr_odd h; omega)
theorem EncodedLength.sel (h : Hdr) (d : BitVec 6) (a : BitVec 6) (b : BitVec 6) (p : BitVec 3) (n : BitVec 1) : EncodedLength.Statement (.sel h d a b p n) := of_word rfl (by have := hdr_odd h; omega)
theorem EncodedLength.pand (h : Hdr) (d : BitVec 6) (a : BitVec 6) (b : BitVec 6) : EncodedLength.Statement (.pand h d a b) := of_word rfl (by have := hdr_odd h; omega)
theorem EncodedLength.por (h : Hdr) (d : BitVec 6) (a : BitVec 6) (b : BitVec 6) : EncodedLength.Statement (.por h d a b) := of_word rfl (by have := hdr_odd h; omega)
theorem EncodedLength.pxor (h : Hdr) (d : BitVec 6) (a : BitVec 6) (b : BitVec 6) : EncodedLength.Statement (.pxor h d a b) := of_word rfl (by have := hdr_odd h; omega)
theorem EncodedLength.pandn (h : Hdr) (d : BitVec 6) (a : BitVec 6) (b : BitVec 6) : EncodedLength.Statement (.pandn h d a b) := of_word rfl (by have := hdr_odd h; omega)
theorem EncodedLength.ptow (h : Hdr) (d : BitVec 6) (a : BitVec 6) : EncodedLength.Statement (.ptow h d a) := of_word rfl (by have := hdr_odd h; omega)
theorem EncodedLength.wtop (h : Hdr) (d : BitVec 6) (a : BitVec 6) : EncodedLength.Statement (.wtop h d a) := of_word rfl (by have := hdr_odd h; omega)
theorem EncodedLength.cmpi (h : Hdr) (p : BitVec 3) (c : BitVec 3) (a : BitVec 6) (i : BitVec 10) : EncodedLength.Statement (.cmpi h p c a i) := of_word rfl (by have := hdr_odd h; omega)
theorem EncodedLength.addi (h : Hdr) (d : BitVec 6) (a : BitVec 6) (i : BitVec 10) : EncodedLength.Statement (.addi h d a i) := of_word rfl (by have := hdr_odd h; omega)
theorem EncodedLength.muli (h : Hdr) (d : BitVec 6) (a : BitVec 6) (i : BitVec 10) : EncodedLength.Statement (.muli h d a i) := of_word rfl (by have := hdr_odd h; omega)
theorem EncodedLength.andi (h : Hdr) (d : BitVec 6) (a : BitVec 6) (i : BitVec 10) : EncodedLength.Statement (.andi h d a i) := of_word rfl (by have := hdr_odd h; omega)
theorem EncodedLength.ori (h : Hdr) (d : BitVec 6) (a : BitVec 6) (i : BitVec 10) : EncodedLength.Statement (.ori h d a i) := of_word rfl (by have := hdr_odd h; omega)
theorem EncodedLength.xori (h : Hdr) (d : BitVec 6) (a : BitVec 6) (i : BitVec 10) : EncodedLength.Statement (.xori h d a i) := of_word rfl (by have := hdr_odd h; omega)
theorem EncodedLength.shli (h : Hdr) (d : BitVec 6) (a : BitVec 6) (n : BitVec 5) : EncodedLength.Statement (.shli h d a n) := of_word rfl (by have := hdr_odd h; omega)
theorem EncodedLength.shri (h : Hdr) (d : BitVec 6) (a : BitVec 6) (n : BitVec 5) : EncodedLength.Statement (.shri h d a n) := of_word rfl (by have := hdr_odd h; omega)
theorem EncodedLength.sari (h : Hdr) (d : BitVec 6) (a : BitVec 6) (n : BitVec 5) : EncodedLength.Statement (.sari h d a n) := of_word rfl (by have := hdr_odd h; omega)
theorem EncodedLength.shfl (h : Hdr) (d : BitVec 6) (a : BitVec 6) (b : BitVec 6) (m : BitVec 2) : EncodedLength.Statement (.shfl h d a b m) := of_word rfl (by have := hdr_odd h; omega)
theorem EncodedLength.shflImm (h : Hdr) (d : BitVec 6) (a : BitVec 6) (i : BitVec 6) (m : BitVec 2) : EncodedLength.Statement (.shflImm h d a i m) := of_word rfl (by have := hdr_odd h; omega)
theorem EncodedLength.voteAny (h : Hdr) (d : BitVec 6) (p : BitVec 3) : EncodedLength.Statement (.voteAny h d p) := of_word rfl (by have := hdr_odd h; omega)
theorem EncodedLength.voteAll (h : Hdr) (d : BitVec 6) (p : BitVec 3) : EncodedLength.Statement (.voteAll h d p) := of_word rfl (by have := hdr_odd h; omega)
theorem EncodedLength.voteBal (h : Hdr) (d : BitVec 6) (p : BitVec 3) : EncodedLength.Statement (.voteBal h d p) := of_word rfl (by have := hdr_odd h; omega)
theorem EncodedLength.voteEq (h : Hdr) (d : BitVec 6) (a : BitVec 6) : EncodedLength.Statement (.voteEq h d a) := of_word rfl (by have := hdr_odd h; omega)
theorem EncodedLength.voteMatch (h : Hdr) (d : BitVec 6) (a : BitVec 6) : EncodedLength.Statement (.voteMatch h d a) := of_word rfl (by have := hdr_odd h; omega)
theorem EncodedLength.red (h : Hdr) (d : BitVec 6) (a : BitVec 6) (f : BitVec 4) : EncodedLength.Statement (.red h d a f) := of_word rfl (by have := hdr_odd h; omega)
theorem EncodedLength.scan (h : Hdr) (d : BitVec 6) (a : BitVec 6) (f : BitVec 4) : EncodedLength.Statement (.scan h d a f) := of_word rfl (by have := hdr_odd h; omega)
theorem EncodedLength.fadd (h : Hdr) (d : BitVec 6) (a : BitVec 6) (b : BitVec 6) : EncodedLength.Statement (.fadd h d a b) := of_word rfl (by have := hdr_odd h; omega)
theorem EncodedLength.fsub (h : Hdr) (d : BitVec 6) (a : BitVec 6) (b : BitVec 6) : EncodedLength.Statement (.fsub h d a b) := of_word rfl (by have := hdr_odd h; omega)
theorem EncodedLength.fmul (h : Hdr) (d : BitVec 6) (a : BitVec 6) (b : BitVec 6) : EncodedLength.Statement (.fmul h d a b) := of_word rfl (by have := hdr_odd h; omega)
theorem EncodedLength.ffma (h : Hdr) (d : BitVec 6) (a : BitVec 6) (b : BitVec 6) : EncodedLength.Statement (.ffma h d a b) := of_word rfl (by have := hdr_odd h; omega)
theorem EncodedLength.fmin (h : Hdr) (d : BitVec 6) (a : BitVec 6) (b : BitVec 6) : EncodedLength.Statement (.fmin h d a b) := of_word rfl (by have := hdr_odd h; omega)
theorem EncodedLength.fmax (h : Hdr) (d : BitVec 6) (a : BitVec 6) (b : BitVec 6) : EncodedLength.Statement (.fmax h d a b) := of_word rfl (by have := hdr_odd h; omega)
theorem EncodedLength.fabs (h : Hdr) (d : BitVec 6) (a : BitVec 6) : EncodedLength.Statement (.fabs h d a) := of_word rfl (by have := hdr_odd h; omega)
theorem EncodedLength.fneg (h : Hdr) (d : BitVec 6) (a : BitVec 6) : EncodedLength.Statement (.fneg h d a) := of_word rfl (by have := hdr_odd h; omega)
theorem EncodedLength.fdiv (h : Hdr) (d : BitVec 6) (a : BitVec 6) (b : BitVec 6) : EncodedLength.Statement (.fdiv h d a b) := of_word rfl (by have := hdr_odd h; omega)
theorem EncodedLength.fsqrt (h : Hdr) (d : BitVec 6) (a : BitVec 6) : EncodedLength.Statement (.fsqrt h d a) := of_word rfl (by have := hdr_odd h; omega)
theorem EncodedLength.fscale (h : Hdr) (d : BitVec 6) (a : BitVec 6) (b : BitVec 6) : EncodedLength.Statement (.fscale h d a b) := of_word rfl (by have := hdr_odd h; omega)
theorem EncodedLength.frnd (h : Hdr) (d : BitVec 6) (a : BitVec 6) (b : BitVec 6) : EncodedLength.Statement (.frnd h d a b) := of_word rfl (by have := hdr_odd h; omega)
theorem EncodedLength.fclass (h : Hdr) (d : BitVec 6) (a : BitVec 6) : EncodedLength.Statement (.fclass h d a) := of_word rfl (by have := hdr_odd h; omega)
theorem EncodedLength.dadd (h : Hdr) (d : BitVec 6) (a : BitVec 6) (b : BitVec 6) : EncodedLength.Statement (.dadd h d a b) := of_word rfl (by have := hdr_odd h; omega)
theorem EncodedLength.dsub (h : Hdr) (d : BitVec 6) (a : BitVec 6) (b : BitVec 6) : EncodedLength.Statement (.dsub h d a b) := of_word rfl (by have := hdr_odd h; omega)
theorem EncodedLength.dmul (h : Hdr) (d : BitVec 6) (a : BitVec 6) (b : BitVec 6) : EncodedLength.Statement (.dmul h d a b) := of_word rfl (by have := hdr_odd h; omega)
theorem EncodedLength.dfma (h : Hdr) (d : BitVec 6) (a : BitVec 6) (b : BitVec 6) : EncodedLength.Statement (.dfma h d a b) := of_word rfl (by have := hdr_odd h; omega)
theorem EncodedLength.dmin (h : Hdr) (d : BitVec 6) (a : BitVec 6) (b : BitVec 6) : EncodedLength.Statement (.dmin h d a b) := of_word rfl (by have := hdr_odd h; omega)
theorem EncodedLength.dmax (h : Hdr) (d : BitVec 6) (a : BitVec 6) (b : BitVec 6) : EncodedLength.Statement (.dmax h d a b) := of_word rfl (by have := hdr_odd h; omega)
theorem EncodedLength.dabs (h : Hdr) (d : BitVec 6) (a : BitVec 6) : EncodedLength.Statement (.dabs h d a) := of_word rfl (by have := hdr_odd h; omega)
theorem EncodedLength.dneg (h : Hdr) (d : BitVec 6) (a : BitVec 6) : EncodedLength.Statement (.dneg h d a) := of_word rfl (by have := hdr_odd h; omega)
theorem EncodedLength.ddiv (h : Hdr) (d : BitVec 6) (a : BitVec 6) (b : BitVec 6) : EncodedLength.Statement (.ddiv h d a b) := of_word rfl (by have := hdr_odd h; omega)
theorem EncodedLength.dsqrt (h : Hdr) (d : BitVec 6) (a : BitVec 6) : EncodedLength.Statement (.dsqrt h d a) := of_word rfl (by have := hdr_odd h; omega)
theorem EncodedLength.dscale (h : Hdr) (d : BitVec 6) (a : BitVec 6) (b : BitVec 6) : EncodedLength.Statement (.dscale h d a b) := of_word rfl (by have := hdr_odd h; omega)
theorem EncodedLength.drnd (h : Hdr) (d : BitVec 6) (a : BitVec 6) (b : BitVec 6) : EncodedLength.Statement (.drnd h d a b) := of_word rfl (by have := hdr_odd h; omega)
theorem EncodedLength.hadd2 (h : Hdr) (d : BitVec 6) (a : BitVec 6) (b : BitVec 6) (t : BitVec 1) : EncodedLength.Statement (.hadd2 h d a b t) := of_word rfl (by have := hdr_odd h; omega)
theorem EncodedLength.hsub2 (h : Hdr) (d : BitVec 6) (a : BitVec 6) (b : BitVec 6) (t : BitVec 1) : EncodedLength.Statement (.hsub2 h d a b t) := of_word rfl (by have := hdr_odd h; omega)
theorem EncodedLength.hmul2 (h : Hdr) (d : BitVec 6) (a : BitVec 6) (b : BitVec 6) (t : BitVec 1) : EncodedLength.Statement (.hmul2 h d a b t) := of_word rfl (by have := hdr_odd h; omega)
theorem EncodedLength.hfma2 (h : Hdr) (d : BitVec 6) (a : BitVec 6) (b : BitVec 6) (t : BitVec 1) : EncodedLength.Statement (.hfma2 h d a b t) := of_word rfl (by have := hdr_odd h; omega)
theorem EncodedLength.hmin2 (h : Hdr) (d : BitVec 6) (a : BitVec 6) (b : BitVec 6) (t : BitVec 1) : EncodedLength.Statement (.hmin2 h d a b t) := of_word rfl (by have := hdr_odd h; omega)
theorem EncodedLength.hmax2 (h : Hdr) (d : BitVec 6) (a : BitVec 6) (b : BitVec 6) (t : BitVec 1) : EncodedLength.Statement (.hmax2 h d a b t) := of_word rfl (by have := hdr_odd h; omega)
theorem EncodedLength.fcmp (h : Hdr) (p : BitVec 3) (m : BitVec 3) (a : BitVec 6) (b : BitVec 6) (c : BitVec 3) (w : BitVec 1) : EncodedLength.Statement (.fcmp h p m a b c w) := of_word rfl (by have := hdr_odd h; omega)
theorem EncodedLength.fcvt (h : Hdr) (d : BitVec 6) (a : BitVec 6) (t : BitVec 3) (x : BitVec 3) (r : BitVec 2) (p : BitVec 2) : EncodedLength.Statement (.fcvt h d a t x r p) := of_word rfl (by have := hdr_odd h; omega)
theorem EncodedLength.frcp (h : Hdr) (d : BitVec 6) (a : BitVec 6) : EncodedLength.Statement (.frcp h d a) := of_word rfl (by have := hdr_odd h; omega)
theorem EncodedLength.frsq (h : Hdr) (d : BitVec 6) (a : BitVec 6) : EncodedLength.Statement (.frsq h d a) := of_word rfl (by have := hdr_odd h; omega)
theorem EncodedLength.fexp2 (h : Hdr) (d : BitVec 6) (a : BitVec 6) : EncodedLength.Statement (.fexp2 h d a) := of_word rfl (by have := hdr_odd h; omega)
theorem EncodedLength.flog2 (h : Hdr) (d : BitVec 6) (a : BitVec 6) : EncodedLength.Statement (.flog2 h d a) := of_word rfl (by have := hdr_odd h; omega)
theorem EncodedLength.fsin (h : Hdr) (d : BitVec 6) (a : BitVec 6) : EncodedLength.Statement (.fsin h d a) := of_word rfl (by have := hdr_odd h; omega)
theorem EncodedLength.fcos (h : Hdr) (d : BitVec 6) (a : BitVec 6) : EncodedLength.Statement (.fcos h d a) := of_word rfl (by have := hdr_odd h; omega)
theorem EncodedLength.ftanh (h : Hdr) (d : BitVec 6) (a : BitVec 6) : EncodedLength.Statement (.ftanh h d a) := of_word rfl (by have := hdr_odd h; omega)
theorem EncodedLength.ld (h : Hdr) (d : BitVec 6) (o : BitVec 6) (b : BitVec 4) (z : BitVec 3) (x : BitVec 1) (r : BitVec 2) : EncodedLength.Statement (.ld h d o b z x r) := of_word rfl (by have := hdr_odd h; omega)
theorem EncodedLength.st (h : Hdr) (d : BitVec 6) (o : BitVec 6) (b : BitVec 4) (z : BitVec 3) (r : BitVec 2) : EncodedLength.Statement (.st h d o b z r) := of_word rfl (by have := hdr_odd h; omega)
theorem EncodedLength.ldsp (h : Hdr) (d : BitVec 6) (o : BitVec 6) (c : BitVec 2) (m : BitVec 1) (z : BitVec 3) (x : BitVec 1) : EncodedLength.Statement (.ldsp h d o c m z x) := of_word rfl (by have := hdr_odd h; omega)
theorem EncodedLength.stsp (h : Hdr) (d : BitVec 6) (o : BitVec 6) (c : BitVec 2) (m : BitVec 1) (z : BitVec 3) : EncodedLength.Statement (.stsp h d o c m z) := of_word rfl (by have := hdr_odd h; omega)
theorem EncodedLength.atom (h : Hdr) (d : BitVec 5) (o : BitVec 5) (a : BitVec 5) (p : BitVec 3) (c : BitVec 2) (r : BitVec 2) : EncodedLength.Statement (.atom h d o a p c r) := of_word rfl (by have := hdr_odd h; omega)
theorem EncodedLength.atomx (h : Hdr) (d : BitVec 5) (o : BitVec 5) (a : BitVec 5) (p : BitVec 3) (c : BitVec 2) (r : BitVec 2) : EncodedLength.Statement (.atomx h d o a p c r) := of_word rfl (by have := hdr_odd h; omega)
theorem EncodedLength.fence (h : Hdr) (e : BitVec 3) (k : BitVec 2) : EncodedLength.Statement (.fence h e k) := of_word rfl (by have := hdr_odd h; omega)
theorem EncodedLength.pref (h : Hdr) (a : BitVec 6) (b : BitVec 6) : EncodedLength.Statement (.pref h a b) := of_word rfl (by have := hdr_odd h; omega)
theorem EncodedLength.taglk (h : Hdr) (d : BitVec 6) (a : BitVec 6) : EncodedLength.Statement (.taglk h d a) := of_word rfl (by have := hdr_odd h; omega)
theorem EncodedLength.tagset (h : Hdr) (a : BitVec 6) (b : BitVec 6) : EncodedLength.Statement (.tagset h a b) := of_word rfl (by have := hdr_odd h; omega)
theorem EncodedLength.taginv (h : Hdr) (a : BitVec 6) (b : BitVec 6) : EncodedLength.Statement (.taginv h a b) := of_word rfl (by have := hdr_odd h; omega)
theorem EncodedLength.tagcfg (h : Hdr) (a : BitVec 6) (b : BitVec 6) : EncodedLength.Statement (.tagcfg h a b) := of_word rfl (by have := hdr_odd h; omega)
theorem EncodedLength.ptest (h : Hdr) (d : BitVec 6) (a : BitVec 6) (b : BitVec 4) (m : BitVec 1) : EncodedLength.Statement (.ptest h d a b m) := of_word rfl (by have := hdr_odd h; omega)
theorem EncodedLength.pclr (h : Hdr) (a : BitVec 6) (b : BitVec 4) (m : BitVec 1) : EncodedLength.Statement (.pclr h a b m) := of_word rfl (by have := hdr_odd h; omega)
theorem EncodedLength.cwb (h : Hdr) (a : BitVec 6) (b : BitVec 6) : EncodedLength.Statement (.cwb h a b) := of_word rfl (by have := hdr_odd h; omega)
theorem EncodedLength.icinv (h : Hdr) (a : BitVec 6) (b : BitVec 6) : EncodedLength.Statement (.icinv h a b) := of_word rfl (by have := hdr_odd h; omega)
theorem EncodedLength.atomsp (h : Hdr) (d : BitVec 6) (a : BitVec 6) (b : BitVec 6) (f : BitVec 4) : EncodedLength.Statement (.atomsp h d a b f) := of_word rfl (by have := hdr_odd h; omega)
theorem EncodedLength.cpLoad (h : Hdr) (hb : BitVec 6) (w : BitVec 1) (t : BitVec 1) (b : BitVec 6) (u : BitVec 3) : EncodedLength.Statement (.cpLoad h hb w t b u) := of_word rfl (by have := hdr_odd h; omega)
theorem EncodedLength.cpStore (h : Hdr) (hb : BitVec 6) (w : BitVec 1) (t : BitVec 1) (b : BitVec 6) (u : BitVec 3) : EncodedLength.Statement (.cpStore h hb w t b u) := of_word rfl (by have := hdr_odd h; omega)
theorem EncodedLength.cpFill (h : Hdr) (hb : BitVec 6) (w : BitVec 1) (t : BitVec 1) (b : BitVec 6) (u : BitVec 3) : EncodedLength.Statement (.cpFill h hb w t b u) := of_word rfl (by have := hdr_odd h; omega)
theorem EncodedLength.waitc (h : Hdr) (a : BitVec 6) (i : BitVec 10) : EncodedLength.Statement (.waitc h a i) := of_word rfl (by have := hdr_odd h; omega)
theorem EncodedLength.tbinit (h : Hdr) (a : BitVec 6) (k : BitVec 6) : EncodedLength.Statement (.tbinit h a k) := of_word rfl (by have := hdr_odd h; omega)
theorem EncodedLength.tbarr (h : Hdr) (d : BitVec 6) (k : BitVec 6) : EncodedLength.Statement (.tbarr h d k) := of_word rfl (by have := hdr_odd h; omega)
theorem EncodedLength.tbwait (h : Hdr) (a : BitVec 6) (k : BitVec 6) : EncodedLength.Statement (.tbwait h a k) := of_word rfl (by have := hdr_odd h; omega)
theorem EncodedLength.tbtry (h : Hdr) (d : BitVec 6) (a : BitVec 6) (k : BitVec 6) : EncodedLength.Statement (.tbtry h d a k) := of_word rfl (by have := hdr_odd h; omega)
theorem EncodedLength.bar (h : Hdr) (k : BitVec 6) : EncodedLength.Statement (.bar h k) := of_word rfl (by have := hdr_odd h; omega)
theorem EncodedLength.gset (h : Hdr) (d : BitVec 6) (k : BitVec 3) (n : BitVec 1) : EncodedLength.Statement (.gset h d k n) := of_word rfl (by have := hdr_odd h; omega)
theorem EncodedLength.gclr (h : Hdr) (d : BitVec 6) : EncodedLength.Statement (.gclr h d) := of_word rfl (by have := hdr_odd h; omega)
theorem EncodedLength.tbinv (h : Hdr) (k : BitVec 6) : EncodedLength.Statement (.tbinv h k) := of_word rfl (by have := hdr_odd h; omega)
theorem EncodedLength.gbar (h : Hdr) : EncodedLength.Statement (.gbar h) := of_word rfl (by have := hdr_odd h; omega)
theorem EncodedLength.gbara (h : Hdr) (d : BitVec 6) : EncodedLength.Statement (.gbara h d) := of_word rfl (by have := hdr_odd h; omega)
theorem EncodedLength.gbarw (h : Hdr) (a : BitVec 6) : EncodedLength.Statement (.gbarw h a) := of_word rfl (by have := hdr_odd h; omega)
theorem EncodedLength.ccwait (h : Hdr) (d : BitVec 6) (a : BitVec 6) : EncodedLength.Statement (.ccwait h d a) := of_word rfl (by have := hdr_odd h; omega)
theorem EncodedLength.cncl (h : Hdr) (a : BitVec 6) : EncodedLength.Statement (.cncl h a) := of_word rfl (by have := hdr_odd h; omega)
theorem EncodedLength.lnch (h : Hdr) (d : BitVec 6) (a : BitVec 6) (b : BitVec 6) : EncodedLength.Statement (.lnch h d a b) := of_word rfl (by have := hdr_odd h; omega)
theorem EncodedLength.preqQuery (h : Hdr) (d : BitVec 6) : EncodedLength.Statement (.preqQuery h d) := of_word rfl (by have := hdr_odd h; omega)
theorem EncodedLength.preqYield (h : Hdr) (d : BitVec 6) : EncodedLength.Statement (.preqYield h d) := of_word rfl (by have := hdr_odd h; omega)
theorem EncodedLength.mxloop (h : Hdr) (hb : BitVec 6) (n : BitVec 2) (b : BitVec 6) (u : BitVec 3) (q : BitVec 1) : EncodedLength.Statement (.mxloop h hb n b u q) := of_word rfl (by have := hdr_odd h; omega)
theorem EncodedLength.mxdrain (h : Hdr) (hb : BitVec 6) (n : BitVec 2) (b : BitVec 6) (u : BitVec 3) (q : BitVec 1) : EncodedLength.Statement (.mxdrain h hb n b u q) := of_word rfl (by have := hdr_odd h; omega)
theorem EncodedLength.mxlda (h : Hdr) (hb : BitVec 6) (n : BitVec 2) (b : BitVec 6) (u : BitVec 3) : EncodedLength.Statement (.mxlda h hb n b u) := of_word rfl (by have := hdr_odd h; omega)
theorem EncodedLength.mxzero (h : Hdr) (n : BitVec 2) (b : BitVec 6) (u : BitVec 3) : EncodedLength.Statement (.mxzero h n b u) := of_word rfl (by have := hdr_odd h; omega)
theorem EncodedLength.mxcfg (h : Hdr) (a : BitVec 6) : EncodedLength.Statement (.mxcfg h a) := of_word rfl (by have := hdr_odd h; omega)
theorem EncodedLength.mxq (h : Hdr) (d : BitVec 6) (b : BitVec 6) : EncodedLength.Statement (.mxq h d b) := of_word rfl (by have := hdr_odd h; omega)
theorem EncodedLength.qst (h : Hdr) (hb : BitVec 6) (a : BitVec 6) : EncodedLength.Statement (.qst h hb a) := of_word rfl (by have := hdr_odd h; omega)
theorem EncodedLength.qstf (h : Hdr) (hb : BitVec 6) (a : BitVec 6) : EncodedLength.Statement (.qstf h hb a) := of_word rfl (by have := hdr_odd h; omega)
theorem EncodedLength.qerr (h : Hdr) (d : BitVec 6) (a : BitVec 6) (b : BitVec 6) : EncodedLength.Statement (.qerr h d a b) := of_word rfl (by have := hdr_odd h; omega)
theorem EncodedLength.qexp (h : Hdr) (hb : BitVec 6) : EncodedLength.Statement (.qexp h hb) := of_word rfl (by have := hdr_odd h; omega)
theorem EncodedLength.qexpb (h : Hdr) (hb : BitVec 6) : EncodedLength.Statement (.qexpb h hb) := of_word rfl (by have := hdr_odd h; omega)
theorem EncodedLength.vdec (h : Hdr) (hb : BitVec 6) : EncodedLength.Statement (.vdec h hb) := of_word rfl (by have := hdr_odd h; omega)
theorem EncodedLength.qchk (h : Hdr) (d : BitVec 6) (a : BitVec 6) : EncodedLength.Statement (.qchk h d a) := of_word rfl (by have := hdr_odd h; omega)
theorem EncodedLength.kvg (h : Hdr) (hb : BitVec 6) (b : BitVec 6) (u : BitVec 3) (q : BitVec 1) : EncodedLength.Statement (.kvg h hb b u q) := of_word rfl (by have := hdr_odd h; omega)
theorem EncodedLength.kvspl (h : Hdr) (hb : BitVec 6) (b : BitVec 6) (u : BitVec 3) : EncodedLength.Statement (.kvspl h hb b u) := of_word rfl (by have := hdr_odd h; omega)
theorem EncodedLength.kvmap (h : Hdr) (hb : BitVec 6) (b : BitVec 6) (u : BitVec 3) : EncodedLength.Statement (.kvmap h hb b u) := of_word rfl (by have := hdr_odd h; omega)
theorem EncodedLength.kvsd (h : Hdr) (hb : BitVec 6) (b : BitVec 6) (u : BitVec 3) : EncodedLength.Statement (.kvsd h hb b u) := of_word rfl (by have := hdr_odd h; omega)
theorem EncodedLength.rpscan (h : Hdr) (hb : BitVec 6) (b : BitVec 6) (u : BitVec 3) : EncodedLength.Statement (.rpscan h hb b u) := of_word rfl (by have := hdr_odd h; omega)
theorem EncodedLength.rpdone (h : Hdr) (hb : BitVec 6) (b : BitVec 6) (u : BitVec 3) : EncodedLength.Statement (.rpdone h hb b u) := of_word rfl (by have := hdr_odd h; omega)
theorem EncodedLength.mov16 (sw : Bool) (d : BitVec 5) (a : BitVec 5) : EncodedLength.Statement (.mov16 sw d a) := of_half rfl (by have := sw.toNat_lt; omega)
theorem EncodedLength.add16 (sw : Bool) (d : BitVec 5) (a : BitVec 5) : EncodedLength.Statement (.add16 sw d a) := of_half rfl (by have := sw.toNat_lt; omega)
theorem EncodedLength.sub16 (sw : Bool) (d : BitVec 5) (a : BitVec 5) : EncodedLength.Statement (.sub16 sw d a) := of_half rfl (by have := sw.toNat_lt; omega)
theorem EncodedLength.mul16 (sw : Bool) (d : BitVec 5) (a : BitVec 5) : EncodedLength.Statement (.mul16 sw d a) := of_half rfl (by have := sw.toNat_lt; omega)
theorem EncodedLength.and16 (sw : Bool) (d : BitVec 5) (a : BitVec 5) : EncodedLength.Statement (.and16 sw d a) := of_half rfl (by have := sw.toNat_lt; omega)
theorem EncodedLength.or16 (sw : Bool) (d : BitVec 5) (a : BitVec 5) : EncodedLength.Statement (.or16 sw d a) := of_half rfl (by have := sw.toNat_lt; omega)
theorem EncodedLength.xor16 (sw : Bool) (d : BitVec 5) (a : BitVec 5) : EncodedLength.Statement (.xor16 sw d a) := of_half rfl (by have := sw.toNat_lt; omega)
theorem EncodedLength.shl16 (sw : Bool) (d : BitVec 5) (a : BitVec 5) : EncodedLength.Statement (.shl16 sw d a) := of_half rfl (by have := sw.toNat_lt; omega)
theorem EncodedLength.shr16 (sw : Bool) (d : BitVec 5) (a : BitVec 5) : EncodedLength.Statement (.shr16 sw d a) := of_half rfl (by have := sw.toNat_lt; omega)
theorem EncodedLength.sar16 (sw : Bool) (d : BitVec 5) (a : BitVec 5) : EncodedLength.Statement (.sar16 sw d a) := of_half rfl (by have := sw.toNat_lt; omega)
theorem EncodedLength.minS16 (sw : Bool) (d : BitVec 5) (a : BitVec 5) : EncodedLength.Statement (.minS16 sw d a) := of_half rfl (by have := sw.toNat_lt; omega)
theorem EncodedLength.maxS16 (sw : Bool) (d : BitVec 5) (a : BitVec 5) : EncodedLength.Statement (.maxS16 sw d a) := of_half rfl (by have := sw.toNat_lt; omega)
theorem EncodedLength.fadd16 (sw : Bool) (d : BitVec 5) (a : BitVec 5) : EncodedLength.Statement (.fadd16 sw d a) := of_half rfl (by have := sw.toNat_lt; omega)
theorem EncodedLength.fmul16 (sw : Bool) (d : BitVec 5) (a : BitVec 5) : EncodedLength.Statement (.fmul16 sw d a) := of_half rfl (by have := sw.toNat_lt; omega)
theorem EncodedLength.fmax16 (sw : Bool) (d : BitVec 5) (a : BitVec 5) : EncodedLength.Statement (.fmax16 sw d a) := of_half rfl (by have := sw.toNat_lt; omega)
theorem EncodedLength.fmin16 (sw : Bool) (d : BitVec 5) (a : BitVec 5) : EncodedLength.Statement (.fmin16 sw d a) := of_half rfl (by have := sw.toNat_lt; omega)
theorem EncodedLength.unimp (w : Word) : EncodedLength.Statement (.unimp w) := trivial
theorem EncodedLength.forcedSwitch (wid : Nat) : EncodedLength.Statement (.forcedSwitch wid) := trivial
theorem EncodedLength.variableLatencyResult (wid id : Nat) : EncodedLength.Statement (.variableLatencyResult wid id) := trivial
theorem EncodedLength.storePerform (core k : Nat) : EncodedLength.Statement (.storePerform core k) := trivial
theorem EncodedLength.dieCacheWriteback (die line : Nat) (drop : Bool) : EncodedLength.Statement (.dieCacheWriteback die line drop) := trivial
theorem EncodedLength.rowGrant (core : Nat) : EncodedLength.Statement (.rowGrant core) := trivial
theorem EncodedLength.agedRequest (wid : Nat) : EncodedLength.Statement (.agedRequest wid) := trivial
theorem EncodedLength.deadlockBreaker (core : Nat) : EncodedLength.Statement (.deadlockBreaker core) := trivial
theorem EncodedLength.bankDrowsy (core bank : Nat) : EncodedLength.Statement (.bankDrowsy core bank) := trivial
theorem EncodedLength.boost (wid g : Nat) : EncodedLength.Statement (.boost wid g) := trivial
theorem EncodedLength.timerPending (wid : Nat) : EncodedLength.Statement (.timerPending wid) := trivial
theorem EncodedLength.timerTrap (wid g : Nat) : EncodedLength.Statement (.timerTrap wid g) := trivial
theorem EncodedLength.cpExecution (core k : Nat) : EncodedLength.Statement (.cpExecution core k) := trivial
theorem EncodedLength.kvgExecution (core k : Nat) : EncodedLength.Statement (.kvgExecution core k) := trivial
theorem EncodedLength.qstExecution (core k : Nat) : EncodedLength.Statement (.qstExecution core k) := trivial
theorem EncodedLength.qexpExecution (core k : Nat) : EncodedLength.Statement (.qexpExecution core k) := trivial
theorem EncodedLength.vdecExecution (core k : Nat) : EncodedLength.Statement (.vdecExecution core k) := trivial
theorem EncodedLength.mxPass (cl : Nat) : EncodedLength.Statement (.mxPass cl) := trivial
theorem EncodedLength.mxAging (cl k : Nat) : EncodedLength.Statement (.mxAging cl k) := trivial
theorem EncodedLength.mxCompletion (cl k : Nat) : EncodedLength.Statement (.mxCompletion cl k) := trivial
theorem EncodedLength.kvsplExecution (core k : Nat) : EncodedLength.Statement (.kvsplExecution core k) := trivial
theorem EncodedLength.kvmapExecution (core k : Nat) : EncodedLength.Statement (.kvmapExecution core k) := trivial
theorem EncodedLength.kvsdExecution (core k : Nat) : EncodedLength.Statement (.kvsdExecution core k) := trivial
theorem EncodedLength.rpscanExecution (core k : Nat) : EncodedLength.Statement (.rpscanExecution core k) := trivial
theorem EncodedLength.rpdoneExecution (core k : Nat) : EncodedLength.Statement (.rpdoneExecution core k) := trivial
theorem EncodedLength.launch (q : Nat) : EncodedLength.Statement (.launch q) := trivial
theorem EncodedLength.openCtr (q : Nat) : EncodedLength.Statement (.openCtr q) := trivial
theorem EncodedLength.seal (q : Nat) : EncodedLength.Statement (.seal q) := trivial
theorem EncodedLength.teamPlacement (l core : Nat) : EncodedLength.Statement (.teamPlacement l core) := trivial
theorem EncodedLength.cancelTimeout (team : Nat) : EncodedLength.Statement (.cancelTimeout team) := trivial
theorem EncodedLength.priorityReq (team : Nat) : EncodedLength.Statement (.priorityReq team) := trivial
theorem EncodedLength.sliceReq (team : Nat) : EncodedLength.Statement (.sliceReq team) := trivial
theorem EncodedLength.progressReq (team : Nat) : EncodedLength.Statement (.progressReq team) := trivial
theorem EncodedLength.migrateReq (core : Nat) (v : Word) : EncodedLength.Statement (.migrateReq core v) := trivial
theorem EncodedLength.fullSave (team : Nat) : EncodedLength.Statement (.fullSave team) := trivial
theorem EncodedLength.saveTeam (team : Nat) : EncodedLength.Statement (.saveTeam team) := trivial
theorem EncodedLength.restoreTeam (team core : Nat) : EncodedLength.Statement (.restoreTeam team core) := trivial
theorem EncodedLength.cdbg (core : Nat) (v : Word) : EncodedLength.Statement (.cdbg core v) := trivial
theorem EncodedLength.qreq (cl : Nat) (v : Word) : EncodedLength.Statement (.qreq cl v) := trivial
theorem EncodedLength.rsaveSave (cl : Nat) : EncodedLength.Statement (.rsaveSave cl) := trivial
theorem EncodedLength.rsaveRestore (cl : Nat) : EncodedLength.Statement (.rsaveRestore cl) := trivial
theorem EncodedLength.rsaveDone (cl : Nat) : EncodedLength.Statement (.rsaveDone cl) := trivial
theorem EncodedLength.clkg (cl : Nat) (v : Word) : EncodedLength.Statement (.clkg cl v) := trivial
theorem EncodedLength.rail (cl : Nat) (v : Word) : EncodedLength.Statement (.rail cl v) := trivial
theorem EncodedLength.railRampDone (cl : Nat) : EncodedLength.Statement (.railRampDone cl) := trivial
theorem EncodedLength.lendt (cl : Nat) (v : Word) : EncodedLength.Statement (.lendt cl v) := trivial
theorem EncodedLength.recall (cl : Nat) : EncodedLength.Statement (.recall cl) := trivial
theorem EncodedLength.wake (cl : Nat) (v : Word) : EncodedLength.Statement (.wake cl v) := trivial
theorem EncodedLength.wakeTimer (cl : Nat) : EncodedLength.Statement (.wakeTimer cl) := trivial
theorem EncodedLength.tempSample (cl : Nat) (t : BitVec 16) : EncodedLength.Statement (.tempSample cl t) := trivial
theorem EncodedLength.epoch (die : Nat) : EncodedLength.Statement (.epoch die) := trivial
theorem EncodedLength.powerMeasurement (f0 : Nat) : EncodedLength.Statement (.powerMeasurement f0) := trivial
theorem EncodedLength.pcap (v : Word) : EncodedLength.Statement (.pcap v) := trivial
theorem EncodedLength.hwake (cl : Nat) (v : Word) : EncodedLength.Statement (.hwake cl v) := trivial
theorem EncodedLength.pctlSwitch (p : Nat) : EncodedLength.Statement (.pctlSwitch p) := trivial
theorem EncodedLength.pctlResume (p : Nat) : EncodedLength.Statement (.pctlResume p) := trivial
theorem EncodedLength.replayAns (p slot : Nat) : EncodedLength.Statement (.replayAns p slot) := trivial
theorem EncodedLength.deliverAns (p slot : Nat) : EncodedLength.Statement (.deliverAns p slot) := trivial
theorem EncodedLength.killTeam (p slot : Nat) : EncodedLength.Statement (.killTeam p slot) := trivial
theorem EncodedLength.killLaunch (p slot : Nat) : EncodedLength.Statement (.killLaunch p slot) := trivial
theorem EncodedLength.ccancel (p : Nat) (v : Word) : EncodedLength.Statement (.ccancel p v) := trivial
theorem EncodedLength.wptr (p q : Nat) (v : Word) : EncodedLength.Statement (.wptr p q v) := trivial
theorem EncodedLength.qcfg (p q : Nat) (v : Word) : EncodedLength.Statement (.qcfg p q v) := trivial
theorem EncodedLength.qref (p q : Nat) : EncodedLength.Statement (.qref p q) := trivial
theorem EncodedLength.qwake (p q : Nat) : EncodedLength.Statement (.qwake p q) := trivial
theorem EncodedLength.registerWrite (r : RegSpace) (off size : Nat) (v : DWord) : EncodedLength.Statement (.registerWrite r off size v) := trivial
theorem EncodedLength.firmwareLoad (img : FwImage) : EncodedLength.Statement (.firmwareLoad img) := trivial
theorem EncodedLength.fwdog : EncodedLength.Statement .fwdog := trivial
theorem EncodedLength.attestationRequest (nonce : List Byte) : EncodedLength.Statement (.attestationRequest nonce) := trivial
theorem EncodedLength.bindObject (o : CodeObject) : EncodedLength.Statement (.bindObject o) := trivial
theorem EncodedLength.osvnAdvance (v : Nat) : EncodedLength.Statement (.osvnAdvance v) := trivial
theorem EncodedLength.linkDown (peer : Nat) : EncodedLength.Statement (.linkDown peer) := trivial
theorem EncodedLength.linkRetryExhausted : EncodedLength.Statement .linkRetryExhausted := trivial
theorem EncodedLength.fatalErr (core : Option Nat) : EncodedLength.Statement (.fatalErr core) := trivial
theorem EncodedLength.uncorrectableError (place : ErrorPlace) : EncodedLength.Statement (.uncorrectableError place) := trivial
theorem EncodedLength.patrolScrub (lines : List Nat) : EncodedLength.Statement (.patrolScrub lines) := trivial
theorem EncodedLength.dramCalibration (channel : Nat) : EncodedLength.Statement (.dramCalibration channel) := trivial
theorem EncodedLength.telemetrySample : EncodedLength.Statement .telemetrySample := trivial
theorem EncodedLength.hostAccess (a : MemAccess) : EncodedLength.Statement (.hostAccess a) := trivial
theorem EncodedLength.peerAccess (peer : Nat) (a : MemAccess) : EncodedLength.Statement (.peerAccess peer a) := trivial
theorem EncodedLength.powerUp : EncodedLength.Statement .powerUp := trivial
theorem EncodedLength.coreReset (core : Nat) : EncodedLength.Statement (.coreReset core) := trivial
theorem EncodedLength.allowanceRefill : EncodedLength.Statement .allowanceRefill := trivial
theorem EncodedLength.kvItemDrop (cl k : Nat) : EncodedLength.Statement (.kvItemDrop cl k) := trivial
theorem EncodedLength.pageShootdown (part : Nat) (va : Nat) : EncodedLength.Statement (.pageShootdown part va) := trivial

end Sys2Proof.Laws
end

