-- ==== Sys2Proof/Laws/Results.lean ====
section
/-! SUPPORT. Instructions with one register result, with a pair, and with a predicate: from the value of a lane to what a
statement says. -/

namespace Sys2Proof.Claim

open Sys2Proof.Machine

/-- One register result from two registers, with a shape rule of R71. -/
theorem does_word2 {i : Instr} {s : State} (h : Hdr) {u : UnitUse} {srcs : List Nat} {d a b : Nat} {f : Word → Word → Word}
    {g : Nat → Shaped → Shaped → Shaped}
    (hx : exec i s = .next (s.regStep h u srcs fun s => .ok [s.res d (g s.width (s.rd a) (s.rd b))]))
    (hg : ∀ wd x y k, k < wd → (g wd x y).lane k = ⟨f (x.lane k).val (y.lane k).val, (x.lane k).poison || (y.lane k).poison⟩)
    (hu : ∀ wd x y, x.isU = true → y.isU = true → (g wd x y).isU = true)
    (hr : Ready s) (ha : Allowed s (word2 s d a b f)) : Does i s (word2 s d a b f) := by
  have hs := hr.settled
  refine does_regStep h u srcs [(d, g s.width (s.rd a) (s.rd b))] hx hr ha ?_ ?_ rfl (by simp) (by simp)
  · simp [results]
  · refine .cons ⟨rfl, ?_, ?_⟩ .nil
    · intro k hk _
      rw [hg _ _ _ _ hk, rd_eq hs, rd_eq hs]
      simp [poisons, word, poison, lane]
    · intro hun
      rw [rd_eq hs, rd_eq hs]
      exact hu _ _ _ (hun.2.1 a (by simp [word2, out1])) (hun.2.1 b (by simp [word2, out1]))

/-- One register result from two registers, U only from U and U. -/
theorem does_plain2 {i : Instr} {s : State} (h : Hdr) {u : UnitUse} {srcs : List Nat} {d a b : Nat} {f g : Word → Word → Word}
    (hx : exec i s = .next (s.regStep h u srcs fun s => .ok [s.res d (plainShape g s.width (s.rd a) (s.rd b))]))
    (hfg : ∀ x y, g x y = f x y)
    (hr : Ready s) (ha : Allowed s (word2 s d a b f)) : Does i s (word2 s d a b f) :=
  does_word2 h hx (fun wd x y k hk => by rw [plainShape, lane_map2 _ _ _ _ hk, hfg])
    (fun wd x y hx hy => isU_map2 _ _ hx hy) hr ha

/-- One register result from a register and an immediate. -/
theorem does_imm {i : Instr} {s : State} (h : Hdr) {u : UnitUse} {srcs : List Nat} {d a : Nat} {f : Word → Word}
    {g : Nat → Shaped → Shaped → Shaped} {im : Word}
    (hx : exec i s = .next (s.regStep h u srcs fun s => .ok [s.res d (g s.width (s.rd a) (.u im false))]))
    (hg : ∀ wd x k, k < wd → (g wd x (.u im false)).lane k = ⟨f (x.lane k).val, (x.lane k).poison⟩)
    (hu : ∀ wd x, x.isU = true → (g wd x (.u im false)).isU = true)
    (hr : Ready s) (ha : Allowed s (word1 s d a f)) : Does i s (word1 s d a f) := by
  have hs := hr.settled
  refine does_regStep h u srcs [(d, g s.width (s.rd a) (.u im false))] hx hr ha ?_ ?_ rfl (by simp) (by simp)
  · simp [results]
  · refine .cons ⟨rfl, ?_, ?_⟩ .nil
    · intro k hk _
      rw [hg _ _ _ hk, rd_eq hs]
      simp [poisons, word, poison, lane]
    · intro hun
      rw [rd_eq hs]
      exact hu _ _ (hun.2.1 a (by simp [word1, out1]))

/-- One register result from one register, U from U. -/
theorem does_unary {i : Instr} {s : State} (h : Hdr) {u : UnitUse} {srcs : List Nat} {d a : Nat} {f : Word → Word}
    (hx : exec i s = .next (s.regStep h u srcs fun s => .ok [s.res d (map1 s.width f (s.rd a))]))
    (hr : Ready s) (ha : Allowed s (word1 s d a f)) : Does i s (word1 s d a f) := by
  have hs := hr.settled
  refine does_regStep h u srcs [(d, map1 s.width f (s.rd a))] hx hr ha ?_ ?_ rfl (by simp) (by simp)
  · simp [results]
  · refine .cons ⟨rfl, ?_, ?_⟩ .nil
    · intro k hk _
      rw [lane_map1 _ _ _ hk, rd_eq hs]
      simp [poisons, word, poison, lane]
    · intro hun
      rw [rd_eq hs]
      exact isU_map1 _ _ (hun.2.1 a (by simp [word1, out1]))

/-- A result lane by lane from any registers. -/
theorem lane_srcs {s : State} (hs : s.w.pend = []) (ns : List Nat) (i : Nat) :
    poisonAt (ns.map s.rd) i = poisons s ns i := by
  unfold poisonAt poisons
  rw [List.any_map]
  congr 1
  funext n
  simp [rd_eq hs, poison, lane]

theorem allU_srcs {s : State} (hs : s.w.pend = []) {ns : List Nat} (h : ∀ n ∈ ns, (reg s n).isU = true) :
    allU (ns.map s.rd) = true := by
  unfold allU
  rw [List.all_map, List.all_eq_true]
  intro n hn
  simpa [rd_eq hs] using h n hn

theorem srcs_allU {s : State} (hs : s.w.pend = []) {ns : List Nat} (h : allU (ns.map s.rd) = true) :
    ∀ n ∈ ns, (reg s n).isU = true := by
  unfold allU at h
  rw [List.all_map, List.all_eq_true] at h
  intro n hn
  simpa [rd_eq hs] using h n hn

/-- A pair result (R153, R162) from registers `ns`, when the value of a lane depends on those registers' lanes alone. -/
theorem does_pair {i : Instr} {s : State} (h : Hdr) {d : Nat} {ns : List Nat} {f : State → Nat → DWord} {g : Nat → DWord}
    (hx : exec i s = .next (s.pairStep h d ns f))
    (hg : ∀ k, f s k = g k) (hU : (∀ n ∈ ns, (reg s n).isU = true) → ∀ k, g k = g 0)
    (hr : Ready s) (ha : Allowed s (out2 s d ns g)) : Does i s (out2 s d ns g) := by
  have hs := hr.settled
  refine does_regStep h _ _ [(d, (pairBy s.width (ns.map s.rd) (f s)).1), (d + 1, (pairBy s.width (ns.map s.rd) (f s)).2)]
    (by rw [hx, State.pairStep]) hr ha ?_ ?_ rfl (by simp) (by simp)
  · rfl
  · have hfg : f s = g := funext hg
    refine .cons ⟨rfl, ?_, ?_⟩ (.cons ⟨rfl, ?_, ?_⟩ .nil)
    · intro k hk _
      unfold pairBy
      rw [lane_byLane _ _ _ hk (fun hu => by rw [hfg, hU (srcs_allU hs hu) k]), lane_srcs hs, hfg]
      rfl
    · intro hun; exact isU_byLane _ _ (allU_srcs hs hun.2.1)
    · intro k hk _
      unfold pairBy
      rw [lane_byLane _ _ _ hk (fun hu => by rw [hfg, hU (srcs_allU hs hu) k]), lane_srcs hs, hfg]
      rfl
    · intro hun; exact isU_byLane _ _ (allU_srcs hs hun.2.1)

/-- A predicate result from registers and predicates, when the bit of a lane depends on their lanes alone. -/
theorem does_predBy {i : Instr} {s : State} (h : Hdr) {u : UnitUse} {e : Effect} {n : Nat} {xs : State → List Shaped}
    {ps : State → List Pred} {f : State → Nat → Bool} {g : Nat → Bool} {srcs : List Nat}
    (hx : exec i s = .next (s.regStep h u srcs fun s => .ok [s.resP n (predBy (xs s) (ps s) (f s))]))
    (hr : Ready s) (he : e.outs = []) (hp : e.pouts = [(n, g)]) (hg : ∀ k, f s k = g k)
    (hU : (allU (xs s) && !(ps s).any Pred.isV) = true → ∀ k, g k = g 0)
    (hu : e.uniform s → allU (xs s) = true ∧ (ps s).any Pred.isV = false) : Does i s e := by
  have hfg : f s = g := funext hg
  refine does_predStep h u srcs n (predBy (xs s) (ps s) (f s)) g hx hr ?_ he hp ?_ ?_
  · rfl
  · intro k _ hact
    rw [lane_predBy _ _ _ (BitVec.lt_of_getLsbD hact) (fun hu => by rw [hfg, hU hu k]), hfg]
  · intro hun
    exact isV_predBy _ (hu hun).1 (hu hun).2

end Sys2Proof.Claim
end

