-- ==== Sys2Proof/Tests/Slice0.lean ====
section
/-! SUPPORT. Tests: words of the spec's examples, ill-formed terms, one step of some instructions, and for each statement
states and operands that meet its hypotheses. -/

open Sys2Proof Sys2Proof.Machine Sys2Proof.Claim

namespace Sys2Proof.Tests

def h0 : Hdr := ⟨0, false⟩

/-! ## Words of the examples of spec/, bit by bit: payload fields of the form (R44), major, GAP, SW, length -/

/-- RET b15. -/
theorem test_word_ctl : decodeTableWord 32 0b0101_000000_001111_000000_000000_00_0_1 = some (.ret h0 15) := by decide
/-- BRA, 8 bytes ahead. -/
theorem test_word_bra : decodeTableWord 32 0b0000000000000000000100_000001_00_0_1 = some (.bra h0 4) := by decide
/-- BRC.ALL !p2, 16 bytes back. -/
theorem test_word_brc : decodeTableWord 32 0b1111111111111000_10_1_010_000010_00_0_1 = some (.brcAll h0 2 1 (-8)) := by decide
/-- CALL, 512 bytes ahead. -/
theorem test_word_call : decodeTableWord 32 0b0000000000000100000000_000011_00_0_1 = some (.call h0 256) := by decide
/-- SPLIT.G2, 20 bytes ahead. -/
theorem test_word_split : decodeTableWord 32 0b0000000000001010_000000_000100_10_0_1 = some (.split ⟨2, false⟩ 10) := by decide
/-- LOOP 12, 12 bytes ahead. -/
theorem test_word_loop : decodeTableWord 32 0b000000000000110_1_001100_000101_00_0_1 = some (.loopImm h0 12 6) := by decide
/-- BRX w9, 32 bytes ahead. -/
theorem test_word_brx : decodeTableWord 32 0b0000000000010000_001001_000110_00_0_1 = some (.brx h0 9 16) := by decide
/-- CALLX w6, 64 bytes ahead. -/
theorem test_word_callx : decodeTableWord 32 0b0000000000100000_000110_000111_00_0_1 = some (.callx h0 6 32) := by decide
/-- TRAP 5. -/
theorem test_word_trap : decodeTableWord 32 0b0000000101_000000_000000_001000_00_0_1 = some (.trapImm h0 5) := by decide
/-- SYS 17. -/
theorem test_word_sys : decodeTableWord 32 0b0000010001_000000_000000_001001_00_0_1 = some (.sysImm h0 17) := by decide
/-- SETX t1, t0, WHOLE. -/
theorem test_word_trc : decodeTableWord 32 0b0110_000000_111000_111001_001010_00_0_1 = some (.setx h0 57 56 0) := by decide
/-- CKPT 7. -/
theorem test_word_ckpt : decodeTableWord 32 0b0000000000000111_000000_001011_00_0_1 = some (.ckpt h0 7) := by decide
/-- SPR w4, %lane. -/
theorem test_word_shp : decodeTableWord 32 0b1000_000000_000000_000100_001100_00_0_1 = some (.spr h0 4 0) := by decide
/-- WIDEN w20, 0x003F. -/
theorem test_word_widen : decodeTableWord 32 0b0000000000111111_010100_001101_00_0_1 = some (.widen h0 20 0x3F) := by decide
/-- MOVH w5, 0x1234. -/
theorem test_word_movh : decodeTableWord 32 0b0001001000110100_000101_001111_00_0_1 = some (.movh h0 5 0x1234) := by decide
/-- DIV.S w5, w6, w7. -/
theorem test_word_iar : decodeTableWord 32 0b1011_000111_000110_000101_010000_00_0_1 = some (.divS h0 5 6 7) := by decide
/-- SAR w3, w9, w12. -/
theorem test_word_ilg : decodeTableWord 32 0b0110_001100_001001_000011_010001_00_0_1 = some (.sarW h0 3 9 12) := by decide
/-- BFE.S w2, w8, w10. -/
theorem test_word_bitf : decodeTableWord 32 0b0001_001010_001000_000010_010010_00_0_1 = some (.bfeS h0 2 8 10) := by decide
/-- MULW.N w4, w10, w11. -/
theorem test_word_i64 : decodeTableWord 32 0b0011_001011_001010_000100_010011_00_0_1 = some (.mulwN h0 4 10 11) := by decide
/-- CMP.LT.N.AND p2, w5, w6. -/
theorem test_word_cmp : decodeTableWord 32 0b0110_000110_000101_001010_010100_00_0_1 = some (.cmp h0 2 1 5 6 6) := by decide
/-- SEL w4, !p3, w1, w2. -/
theorem test_word_sel : decodeTableWord 32 0b1011_000010_000001_000100_010101_00_0_1 = some (.sel h0 4 1 2 3 1) := by decide
/-- PANDN p1, p2, p5. -/
theorem test_word_pred : decodeTableWord 32 0b0011_000101_000010_000001_010110_00_0_1 = some (.pandn h0 1 2 5) := by decide
/-- CMPI.GE.N p3, w7, -1. -/
theorem test_word_cmpi : decodeTableWord 32 0b1111111111_000111_111011_010111_00_0_1 = some (.cmpi h0 3 7 7 (-1)) := by decide
/-- XORI w6, w6, -1. -/
theorem test_word_xori : decodeTableWord 32 0b1111111111_000110_000110_011100_00_0_1 = some (.xori h0 6 6 (-1)) := by decide
/-- SHFL.XOR w9, w9, 1. -/
theorem test_word_shfl : decodeTableWord 32 0b0111_000001_001001_001001_100000_00_0_1 = some (.shflImm h0 9 9 1 3) := by decide
/-- VOTE.BAL w10, p1. -/
theorem test_word_vote : decodeTableWord 32 0b0010_000000_000001_001010_100001_00_0_1 = some (.voteBal h0 10 1) := by decide
/-- RED.FADD.F32 w5, w3. -/
theorem test_word_red : decodeTableWord 32 0b1000_000000_000011_000101_100010_00_0_1 = some (.red h0 5 3 8) := by decide
/-- SCAN.OR.INC w2, w2. -/
theorem test_word_scan : decodeTableWord 32 0b0101_000000_000010_000010_100011_00_0_1 = some (.scan h0 2 2 5) := by decide
/-- FFMA w4, w5, w6. -/
theorem test_word_fp32 : decodeTableWord 32 0b0011_000110_000101_000100_100100_00_0_1 = some (.ffma h0 4 5 6) := by decide
/-- DFMA w8, w10, w12. -/
theorem test_word_fp64 : decodeTableWord 32 0b0011_001100_001010_001000_100101_00_0_1 = some (.dfma h0 8 10 12) := by decide
/-- HFMA2.BF16 w3, w4, w5. -/
theorem test_word_h2 : decodeTableWord 32 0b1011_000101_000100_000011_100110_00_0_1 = some (.hfma2 h0 3 4 5 1) := by decide
/-- FCMP.LT.F64 p2, w4, w6. -/
theorem test_word_fcmp : decodeTableWord 32 0b1010_000110_000100_000010_100111_00_0_1 = some (.fcmp h0 2 0 4 6 2 1) := by decide
/-- FCVT.E4M3.F32.RNE.P1 w7, w2. -/
theorem test_word_fcvt : decodeTableWord 32 0b01_01_000_100_000010_000111_101000_00_0_1 = some (.fcvt h0 7 2 4 0 1 1) := by decide
/-- FSIN w9, w1. -/
theorem test_word_sfu : decodeTableWord 32 0b0100_000000_000001_001001_101001_00_0_1 = some (.fsin h0 9 1) := by decide
/-- LD.32 w4, b2, w3. -/
theorem test_word_ld : decodeTableWord 32 0b00_0_010_0010_000011_000100_101100_00_0_1 = some (.ld h0 4 3 2 2 0 0) := by decide
/-- ST.128 w16, b2, w20. -/
theorem test_word_st : decodeTableWord 32 0b00_0_100_0010_010100_010000_101101_00_0_1 = some (.st h0 16 20 2 4 0) := by decide
/-- LDSP.32 w4, w3. -/
theorem test_word_ldsp : decodeTableWord 32 0b00_0_001_0000_000011_000100_101110_00_0_1 = some (.ldsp h0 4 3 0 0 2 0) := by decide
/-- STSP.32.REM.Q2 w4, w9. -/
theorem test_word_stsp : decodeTableWord 32 0b00_0_001_0110_001001_000100_101111_00_0_1 = some (.stsp h0 4 9 2 1 2) := by decide
/-- ATOM.ADD.PKG.RLX w5, w6, w8. -/
theorem test_word_atom : decodeTableWord 32 0b00_10_000_00110_00100_00101_110000_00_0_1 = some (.atom h0 5 4 6 0 2 0) := by decide
/-- ATOMX.CAS.DIE.AR w3, w10, w4. -/
theorem test_word_atomx : decodeTableWord 32 0b11_01_001_01010_00010_00011_110001_00_0_1 = some (.atomx h0 3 2 10 1 1 3) := by decide
/-- FENCE.AR.SYS. -/
theorem test_word_fence : decodeTableWord 32 0b0000_011100_000000_000000_110010_00_0_1 = some (.fence h0 4 3) := by decide
/-- PTEST w3, b2, w7. -/
theorem test_word_ptest : decodeTableWord 32 0b0110_100010_000111_000011_110010_00_0_1 = some (.ptest h0 3 7 2 1) := by decide
/-- TAGLK w5, w4. -/
theorem test_word_taglk : decodeTableWord 32 0b0010_000000_000100_000101_110010_00_0_1 = some (.taglk h0 5 4) := by decide
/-- ICINV b4, w0. -/
theorem test_word_icinv : decodeTableWord 32 0b1001_000100_000000_000000_110010_00_0_1 = some (.icinv h0 0 4) := by decide
/-- ATOMSP.ADD w4, w2, w3. -/
theorem test_word_atomsp : decodeTableWord 32 0b0000_000011_000010_000100_110011_00_0_1 = some (.atomsp h0 4 2 3 0) := by decide
/-- CP.LOAD.2D w16, tb2. -/
theorem test_word_cp : decodeTableWord 32 0b0_000_000011_00_0_1_00_010000_110100_00_0_1 = some (.cpLoad h0 16 1 0 3 0) := by decide
/-- WAITC kv, 2. -/
theorem test_word_waitc : decodeTableWord 32 0b0000000010_000011_000000_110101_00_0_1 = some (.waitc h0 3 2) := by decide
/-- TBTRY w6, tb2, w4. -/
theorem test_word_tb : decodeTableWord 32 0b0011_000010_000100_000110_110110_00_0_1 = some (.tbtry h0 6 4 2) := by decide
/-- GSET g1, p3. -/
theorem test_word_gset : decodeTableWord 32 0b0101_000000_000011_000001_110110_00_0_1 = some (.gset h0 1 3 0) := by decide
/-- LNCH w4, w10, w12. -/
theorem test_word_grid : decodeTableWord 32 0b0101_001100_001010_000100_110111_00_0_1 = some (.lnch h0 4 10 12) := by decide
/-- MXDRAIN.Z w24, mb1. -/
theorem test_word_mx : decodeTableWord 32 0b1_000_000000_00_01_01_011000_111000_00_0_1 = some (.mxdrain h0 24 1 0 0 1) := by decide
/-- MXQ w5, 1. -/
theorem test_word_mxu : decodeTableWord 32 0b0001_000001_000000_000101_111001_00_0_1 = some (.mxq h0 5 1) := by decide
/-- QERR w6, w4, SCALE. -/
theorem test_word_xf : decodeTableWord 32 0b0010_000010_000100_000110_111010_00_0_1 = some (.qerr h0 6 4 2) := by decide
/-- RPDONE w40, tb2. -/
theorem test_word_kv : decodeTableWord 32 0b0_000_000011_000_101_101000_111011_00_0_1 = some (.rpdone h0 40 3 0) := by decide
/-- ADD w5, w5 in 16 bits (R41, R42). -/
theorem test_word_short : decodeTableWord 16 0b00101_00101_0001_0_0 = some (.add16 false 5 5) := by decide
/-- A reserved major, an unassigned FN, a field that must be zero: no instruction (R48). -/
theorem test_word_refused : decodeTableWord 32 0b0000_000000_000000_000000_101010_00_0_1 = none ∧
    decodeTableWord 32 0b1111_000000_000000_000000_000000_00_0_1 = none ∧
    decodeTableWord 32 0b0000_000001_000000_000000_000000_00_0_1 = none := by decide

/-! ## Ill-formed terms: each check of WellFormed refuses one (R45-R47) -/

theorem test_illformed_oddPair : Instr.fieldError (.tset h0 57) = some .oddPair := by decide
theorem test_illformed_block : Instr.fieldError (.ld h0 3 0 0 4 0 0) = some .block := by decide
theorem test_illformed_baseRegister : Instr.fieldError (.ret h0 16) = some .baseRegister := by decide
theorem test_illformed_predicate : Instr.fieldError (.pand h0 1 8 2) = some .predicate := by decide
theorem test_illformed_selector : Instr.fieldError (.spr h0 2 14) = some .selector := by decide
theorem test_illformed_combine : Instr.fieldError (.cmp h0 1 3 2 4 0) = some .combine := by decide
theorem test_illformed_loopEnd : Instr.fieldError (.loopImm h0 3 1) = some .loopEnd := by decide
theorem test_illformed_size : Instr.fieldError (.ld h0 2 0 0 5 0 0) = some .size := by decide
theorem test_illformed_signExtend : Instr.fieldError (.ld h0 2 0 0 2 1 0) = some .signExtend := by decide
theorem test_illformed_order : Instr.fieldError (.st h0 4 0 0 4 1) = some .order := by decide
theorem test_illformed_quarter : Instr.fieldError (.ldsp h0 2 0 1 0 2 0) = some .quarter := by decide
theorem test_illformed_conversion : Instr.fieldError (.fcvt h0 2 4 3 3 0 0) = some .conversion := by decide
theorem test_illformed_part : Instr.fieldError (.fcvt h0 2 4 0 3 0 2) = some .part := by decide
theorem test_illformed_scope : Instr.fieldError (.fence h0 5 1) = some .scope := by decide
theorem test_illformed_barrier : Instr.fieldError (.bar h0 32) = some .barrier := by decide
theorem test_illformed_guard : Instr.fieldError (.gset h0 0 1 0) = some .guard := by decide
theorem test_illformed_mustBeZero : Instr.fieldError (.ptest h0 2 4 1 0) = some .mustBeZero := by decide

/-! ## States -/

/-- One warp of one lane on core 0, at a 32-bit instruction at 0x1_0000 (log 4). -/
def st : State := { State.reset.withFetchWord 32 3 with agenda := [], cur := ⟨0, 0, 0x1_0000, 3, 4⟩ }

/-- The same with the registers w0, w1, … of a list, and with another change to its warp. -/
def stW (xs : List Shaped) (f : Warp → Warp := id) : State :=
  st.modW fun w => f { w with w := xs.zipIdx.map fun x => (x.2, x.1) }

/-- A uniform word, an affine one, and a V one of one lane. -/
def u (x : Word) : Shaped := .u x false
def aff (b t : Word) : Shaped := .a b t false
def v1 (x : Word) : Shaped := .v [⟨x, false⟩]

/-- A warp with no result in flight on a core whose units are free. -/
theorem settled_of {s : State} (h : s.w.pend = [] ∧ (s.getCore (coreOf s.cur.wid)).pipeFree = [] ∧
    (s.getCore (coreOf s.cur.wid)).sfuFree = [] ∧ (s.getCore (coreOf s.cur.wid)).unitFree = []) : Settled s where
  settled := h.1
  units x := .inr (by cases x <;> simp [State.slotFree, h, SMap.get, SMap.find?])
  shared _ := .inr (by simp [h, SMap.get, SMap.find?])

/-- It is ready when the row pool gives what is asked for. -/
theorem ready_of {s : State} (h : s.w.pend = [] ∧ (s.getCore (coreOf s.cur.wid)).pipeFree = [] ∧
    (s.getCore (coreOf s.cur.wid)).sfuFree = [] ∧ (s.getCore (coreOf s.cur.wid)).unitFree = [])
    (r : ∀ n, n < 17 → isRows (s.requestRows s.cur.wid n) = true) : Ready s := ⟨settled_of h, r⟩

theorem st_ready : Ready st := ready_of (by decide) (by decide)

/-- In a state with FMT 0 outside a handler every effect is allowed. -/
theorem allowed_of {s : State} (h : s.gang.fmt = 0) (k : s.w.hm = false) (e : Effect) : Allowed s e :=
  ⟨fun i _ => by simp [State.fmt, h, tenOf], fun x => by simp [k] at x⟩

theorem st_allowed (e : Effect) : Allowed st e := allowed_of (by decide) (by decide) e

/-! ## Register results -/

theorem witness_integer : ∀ i ∈ [Instr.add16 false 2 4, .addi h0 2 4 7, .mad h0 2 4 8, .mul16 false 2 4, .muli h0 2 4 7, .sub16 false 2 4, .absd h0 2 4 8, .addW h0 2 4 8, .addsN h0 2 4 8, .addsS h0 2 4 8, .dp4 h0 2 4 8, .mulW h0 2 4 8, .mulhN h0 2 4 8, .mulhS h0 2 4 8, .subW h0 2 4 8, .subsN h0 2 4 8, .subsS h0 2 4 8],
    ((iarEffect i st) : Option Effect).isSome = true ∧ Ready st ∧ ∀ e, Allowed st e :=
  fun i hi => ⟨by revert i; decide, st_ready, st_allowed⟩
theorem witness_logic : ∀ i ∈ [Instr.absS h0 2 4, .and16 false 2 4, .andi h0 2 4 7, .brev h0 2 4, .clz h0 2 4, .maxS16 false 2 4, .minS16 false 2 4, .or16 false 2 4, .ori h0 2 4 7, .popc h0 2 4, .sar16 false 2 4, .sari h0 2 4 1, .shl16 false 2 4, .shli h0 2 4 1, .shr16 false 2 4, .shri h0 2 4 1, .xor16 false 2 4, .xori h0 2 4 7, .andW h0 2 4 8, .andn h0 2 4 8, .maxN h0 2 4 8, .maxS h0 2 4 8, .minN h0 2 4 8, .minS h0 2 4 8, .orW h0 2 4 8, .rotl h0 2 4 8, .sarW h0 2 4 8, .shlW h0 2 4 8, .shrW h0 2 4 8, .xorW h0 2 4 8, .bfeN h0 2 4 8, .bfeS h0 2 4 8, .bfi h0 2 4 8, .prmt h0 2 4 8],
    ((ilgEffect i st <|> bitfEffect i st) : Option Effect).isSome = true ∧ Ready st ∧ ∀ e, Allowed st e :=
  fun i hi => ⟨by revert i; decide, st_ready, st_allowed⟩
theorem witness_pair : ∀ i ∈ [Instr.add64 h0 2 4 8, .madwN h0 2 4 8, .mulwN h0 2 4 8, .mulwS h0 2 4 8, .sar64 h0 2 4 8, .shl64 h0 2 4 8, .shr64 h0 2 4 8, .sub64 h0 2 4 8],
    ((i64Effect i st) : Option Effect).isSome = true ∧ Ready st ∧ ∀ e, Allowed st e :=
  fun i hi => ⟨by revert i; decide, st_ready, st_allowed⟩
theorem witness_predicate : ∀ i ∈ [Instr.cmp h0 1 0 2 4 0, .cmpi h0 1 0 2 7, .pand h0 2 4 8, .pandn h0 2 4 8, .por h0 2 4 8, .ptow h0 2 4, .pxor h0 2 4 8, .sel h0 2 4 8 1 1, .wtop h0 2 4],
    ((predEffect i st) : Option Effect).isSome = true ∧ Ready st ∧ ∀ e, Allowed st e :=
  fun i hi => ⟨by revert i; decide, st_ready, st_allowed⟩
theorem witness_shuffle : ∀ i ∈ [Instr.shfl h0 2 4 8 0, .shflImm h0 2 4 8 0, .voteAll h0 2 1, .voteAny h0 2 1, .voteBal h0 2 1, .voteEq h0 2 4, .voteMatch h0 2 4],
    ((shuffleEffect i st) : Option Effect).isSome = true ∧ Ready st ∧ ∀ e, Allowed st e :=
  fun i hi => ⟨by revert i; decide, st_ready, st_allowed⟩
theorem witness_reduce : ∀ i ∈ [Instr.red h0 2 4 0, .scan h0 2 4 0],
    ((redEffect i st <|> scanEffect i st) : Option Effect).isSome = true ∧ Ready st ∧ ∀ e, Allowed st e :=
  fun i hi => ⟨by revert i; decide, st_ready, st_allowed⟩
theorem witness_float : ∀ i ∈ [Instr.fabs h0 2 4, .fadd h0 2 4 8, .fadd16 false 2 4, .fclass h0 2 4, .fdiv h0 2 4 8, .ffma h0 2 4 8, .fmax h0 2 4 8, .fmax16 false 2 4, .fmin h0 2 4 8, .fmin16 false 2 4, .fmul h0 2 4 8, .fmul16 false 2 4, .fneg h0 2 4, .frnd h0 2 4 8, .fscale h0 2 4 8, .fsqrt h0 2 4, .fsub h0 2 4 8, .hadd2 h0 2 4 8 0, .hfma2 h0 2 4 8 0, .hmax2 h0 2 4 8 0, .hmin2 h0 2 4 8 0, .hmul2 h0 2 4 8 0, .hsub2 h0 2 4 8 0],
    ((fp32Effect i st <|> h2Effect i st) : Option Effect).isSome = true ∧ Ready st ∧ ∀ e, Allowed st e :=
  fun i hi => ⟨by revert i; decide, st_ready, st_allowed⟩
theorem witness_double : ∀ i ∈ [Instr.dabs h0 2 4, .dadd h0 2 4 8, .ddiv h0 2 4 8, .dfma h0 2 4 8, .dmax h0 2 4 8, .dmin h0 2 4 8, .dmul h0 2 4 8, .dneg h0 2 4, .drnd h0 2 4 8, .dscale h0 2 4 8, .dsqrt h0 2 4, .dsub h0 2 4 8],
    ((fp64Effect i st) : Option Effect).isSome = true ∧ Ready st ∧ ∀ e, Allowed st e :=
  fun i hi => ⟨by revert i; decide, st_ready, st_allowed⟩
theorem witness_convert : ∀ i ∈ [Instr.fcvt h0 2 4 0 1 0 1, .fcmp h0 1 0 2 4 0 0],
    ((fcvtEffect i st <|> fcmpEffect i st) : Option Effect).isSome = true ∧ Ready st ∧ ∀ e, Allowed st e :=
  fun i hi => ⟨by revert i; decide, st_ready, st_allowed⟩
theorem witness_special : ∀ i ∈ [Instr.fcos h0 2 4, .fexp2 h0 2 4, .flog2 h0 2 4, .frcp h0 2 4, .frsq h0 2 4, .fsin h0 2 4, .ftanh h0 2 4],
    ((sfuEffect i st) : Option Effect).isSome = true ∧ Ready st ∧ ∀ e, Allowed st e :=
  fun i hi => ⟨by revert i; decide, st_ready, st_allowed⟩
theorem witness_move : ∀ i ∈ [Instr.gfmt h0 2, .mov h0 2 4, .mov16 false 2 4, .movbFrom h0 2 4, .movh h0 2 0, .movl h0 2 0, .shqB h0 2 4, .shqK h0 2 4, .shqS h0 2 4, .spr h0 2 4],
    ((moveEffect i st) : Option Effect).isSome = true ∧ Ready st ∧ ∀ e, Allowed st e :=
  fun i hi => ⟨by revert i; decide, st_ready, st_allowed⟩

/-- A state with a uniform, two affine and a V register. -/
def stR : State := stW [u 5, aff 1 4, aff 2 6, v1 9]
theorem stR_ready : Ready stR := (ready_of (by decide) (by decide))
theorem stR_allowed (e : Effect) : Allowed stR e := allowed_of (by decide) (by decide) e

theorem witness_affine : ∀ i ∈ [Instr.addW h0 4 1 0, .addW h0 4 0 2, .addW h0 4 1 2, .addi h0 4 1 7, .mov h0 4 1, .mulW h0 4 1 0,
    .mulW h0 4 0 2, .muli h0 4 1 7, .shlW h0 4 1 0, .shli h0 4 1 31, .spr h0 4 0, .spr h0 4 1, .subW h0 4 1 0, .subW h0 4 0 1,
    .subW h0 4 1 2, .add16 false 1 0, .add16 false 1 2, .sub16 false 0 1, .mul16 false 1 0, .shl16 false 1 0, .mov16 false 4 1,
    .mad h0 1 0 0, .mad h0 0 0 1, .mad h0 2 1 0], (affineResult i stR).isSome = true ∧ Ready stR ∧ stR.act = stR.present :=
  fun i hi => ⟨by revert i; decide, stR_ready, by decide⟩

/-- A state whose warp has a handler, with FMT bits set. -/
def stT (xs : List Shaped) (fmt : BitVec 17 := 0) : State :=
  (stW xs fun w => { w with tvec := 0x2_0000 }).modGang fun g => { g with fmt }

theorem witness_divide : ∀ i ∈ [Instr.divN h0 4 1 0, .divS h0 4 1 0, .remN h0 4 1 0, .remS h0 4 1 0],
    (divWord i).isSome = true ∧ Ready stR ∧ zeroLanes stR 0 = 0 ∧ ∀ e, Allowed stR e :=
  fun i hi => ⟨by revert i; decide, stR_ready, by decide, stR_allowed⟩
theorem witness_divide_zero : (divWord (.divS h0 4 1 0)).isSome = true ∧ Ready (stT [u 0, u 7] 0x1_0000) ∧
    zeroLanes (stT [u 0, u 7] 0x1_0000) 0 ≠ 0 ∧ (stT [u 0, u 7] 0x1_0000).fmt.getLsbD 16 = true ∧
    Takes (stT [u 0, u 7] 0x1_0000) :=
  ⟨by decide, (ready_of (by decide) (by decide)), by decide, by decide, by decide, by decide, by decide⟩
/-- A zero divisor with IDZ 0 (R157). -/
theorem witness_divide_defined : Ready (stT [u 0, u 7]) ∧ zeroLanes (stT [u 0, u 7]) 0 ≠ 0 ∧
    (stT [u 0, u 7]).fmt.getLsbD 16 = false ∧ ∀ e, Allowed (stT [u 0, u 7]) e :=
  ⟨(ready_of (by decide) (by decide)), by decide, by decide, allowed_of (by decide) (by decide)⟩

/-- A state in handler mode. -/
def stH (xs : List Shaped) (r : TrapRec := Warp.init.trap) : State := stW xs fun w => { w with hm := true, trap := r }
theorem stH_routes (xs : List Shaped) : Routes (stH xs) := ⟨rfl, .inl rfl, by intro e h; cases h⟩
theorem stH_ready : Ready (stH [u 5, aff 1 4, aff 2 6, v1 9]) := (ready_of (by decide) (by decide))

/-- A V source for the trap bank: an IAR, an ILG, a BITF and a divide instruction. -/
theorem witness_bank : ∀ i ∈ [Instr.addW h0 56 3 0, .andW h0 63 3 0, .bfeN h0 57 3 0],
    let s := stH [u 5, aff 1 4, aff 2 6, v1 9]
    ∃ e, (iarEffect i s <|> ilgEffect i s <|> bitfEffect i s) = some e ∧ Ready s ∧ s.w.hm = true ∧ Routes s ∧
      s.act = s.present ∧ (∃ n ∈ e.srcs, (reg s n).isV = true) ∧ ∃ o ∈ e.outs, 56 ≤ o.1 := by
  intro i hi
  simp only [List.mem_cons, List.not_mem_nil, or_false] at hi
  rcases hi with rfl | rfl | rfl <;>
    exact ⟨_, rfl, stH_ready, rfl, stH_routes _, by decide, ⟨3, by decide, by decide⟩, ⟨_, List.mem_cons_self, by decide⟩⟩

/-- FADD of an overflow, and an FADD that raises nothing, with every TEN bit set. -/
theorem witness_fpx : let s := stT [u 0x7F7F_FFFF, u 0x7F7F_FFFF] 0x3E0
    ∃ e, floatEffect (.fadd h0 4 0 1) s = some e ∧ Ready s ∧ raising s e ≠ [] ∧ Takes s :=
  ⟨_, rfl, (ready_of (by decide) (by decide)), by decide, by decide, by decide, by decide⟩
theorem witness_fpx_none : let s := stT [u 0x3F80_0000, u 0x3F80_0000] 0x3E0
    ∃ e, floatEffect (.fadd h0 4 0 1) s = some e ∧ Ready s ∧ raising s e = [] ∧ s.w.hm = false :=
  ⟨_, rfl, (ready_of (by decide) (by decide)), by decide, by decide⟩

/-! ## Shapes -/

theorem witness_shape : (∃ c, shapeContract (.shas h0 1 1) = some c ∧ Ready stR ∧ c.pre stR) ∧
    (∃ c, shapeContract (.shfU h0 4 0) = some c ∧ c.pre stR) ∧ (∃ c, shapeContract (.shfA h0 4 1) = some c ∧ c.pre stR) ∧
    (∃ c, shapeContract (.shfV h0 4 1) = some c ∧ c.pre stR) ∧ (∃ c, shapeContract (.widen h0 0 7) = some c ∧ c.pre stR) ∧
    (∃ c, shapeContract (.movbTo h0 3 4) = some c ∧ c.pre stR) ∧ (∃ c, shapeContract (.partW h0 0) = some c ∧ c.pre stR) ∧
    (∃ c, shapeContract (.roleW h0 0) = some c ∧ c.pre stR) ∧ ∃ c, shapeContract (.sfmt h0 0) = some c ∧ c.pre stR :=
  ⟨⟨_, rfl, stR_ready, by unfold Wider; decide⟩, ⟨_, rfl, by decide⟩, ⟨_, rfl, by decide⟩, ⟨_, rfl, by decide⟩,
    ⟨_, rfl, by decide⟩, ⟨_, rfl, by decide⟩, ⟨_, rfl, by decide⟩, ⟨_, rfl, by decide⟩, ⟨_, rfl, by decide⟩⟩

/-- SHAS of a wider register, and routed traps of a divisor, a floating-point exception and addresses. -/
theorem witness_wider : let s := stT [u 5, aff 1 4, aff 2 6, v1 9]
    Ready s ∧ Takes s ∧ Wider s 3 1 ∧ Wider s 1 0 :=
  ⟨(ready_of (by decide) (by decide)), ⟨by decide, by decide, by decide⟩, .inl (by decide), .inr (by decide)⟩
theorem witness_routed_divide : let s := (stW [u 0, u 7]).modGang fun g => { g with fmt := 0x1_0000 }
    Ready s ∧ Routes s ∧ zeroLanes s 0 ≠ 0 ∧ s.fmt.getLsbD 16 = true :=
  ⟨(ready_of (by decide) (by decide)), ⟨by decide, .inr (by decide), by decide⟩, by decide, by decide⟩
theorem witness_routed_fpx : let s := (stW [u 0x7F7F_FFFF, u 0x7F7F_FFFF]).modGang fun g => { g with fmt := 0x3E0 }
    ∃ e, floatEffect (.fadd h0 4 0 1) s = some e ∧ Ready s ∧ Routes s ∧ raising s e ≠ [] :=
  ⟨_, rfl, (ready_of (by decide) (by decide)), ⟨by decide, .inr (by decide), by decide⟩, by decide⟩
theorem witness_routed_align : let s := stW [u 0x2_0001, u 0] fun w => { w with b := [(1, 0x1_0001)] }
    Ready s ∧ Routes s ∧ (base s 1).getLsbD 0 = true ∧ Uniform2 s 0 ∧ (dword s 0 0).getLsbD 0 = true ∧
      accessOf (.ld h0 4 1 1 2 0 0) = some (.read, 4, 1, 1, []) ∧ failing s (fun k => poison s 1 k) = [] ∧
      failing s (fun k => (addr s 1 1 k).toNat % 4 != 0) ≠ [] :=
  ⟨(ready_of (by decide) (by decide)), ⟨by decide, .inr (by decide), by decide⟩, by decide, ⟨by decide, by decide, by decide⟩,
    by decide, rfl, by decide, by decide⟩

/-! ## Control flow -/

/-- A jump table of one target, 16 bytes ahead of it, at 0x1_0008 (R119). -/
def stTable : State := (stW [u 0]).homeWrite 0x1_0008 (leBytes 4 1 ++ leBytes 4 8)

theorem witness_transfer : ∀ i ∈ [Instr.nop h0, .isync h0, .bra h0 4, .brc h0 0 0 4, .brc h0 0 1 4, .brcAny h0 7 0 4,
    .brcAll h0 7 0 4, .call h0 4, .ret h0 0, .loopx h0, .loopImm h0 3 2, .loopImm h0 0 2, .loopReg h0 0 2],
    ∃ c, transferContract i = some c ∧ Ready stR ∧ c.pre stR := by
  intro i hi
  simp only [List.mem_cons, List.not_mem_nil, or_false] at hi
  rcases hi with rfl | rfl | rfl | rfl | rfl | rfl | rfl | rfl | rfl | rfl | rfl | rfl | rfl
  · exact ⟨_, rfl, stR_ready, trivial⟩
  · exact ⟨_, rfl, stR_ready, trivial⟩
  · exact ⟨_, rfl, stR_ready, trivial⟩
  · exact ⟨_, rfl, stR_ready, by decide⟩
  · exact ⟨_, rfl, stR_ready, by decide⟩
  · exact ⟨_, rfl, stR_ready, trivial⟩
  · exact ⟨_, rfl, stR_ready, trivial⟩
  · exact ⟨_, rfl, stR_ready, trivial⟩
  · exact ⟨_, rfl, stR_ready, by decide⟩
  · exact ⟨_, rfl, stR_ready, trivial⟩
  · exact ⟨_, rfl, stR_ready, by decide⟩
  · exact ⟨_, rfl, stR_ready, by decide⟩
  · exact ⟨_, rfl, stR_ready, by decide⟩
set_option maxRecDepth 4000 in
theorem witness_table : (∃ c, transferContract (.brx h0 0 4) = some c ∧ Ready stTable ∧ c.pre stTable) ∧
    ∃ c, transferContract (.callx h0 0 4) = some c ∧ c.pre stTable := by
  refine ⟨⟨_, rfl, (ready_of (by decide) (by decide)), by decide, ?_⟩, ⟨_, rfl, by decide +kernel⟩⟩
  obtain ⟨f, hf⟩ := Option.isSome_iff_exists.mp
    (by decide +kernel : (laneTargets stTable 0 (Claim.away stTable 4)).isSome = true)
  refine ⟨f, f 0, hf, fun i hi => ?_⟩
  have h : stTable.act = 1 := by decide
  have : i = 0 := by
    unfold active at hi
    rw [h] at hi
    simpa using hi
  rw [this]

theorem witness_branch : Ready stR ∧ (base stR 0).getLsbD 0 = false := ⟨stR_ready, by decide⟩
theorem witness_branch_odd : let s := stW [] fun w => { w with tvec := 0x2_0000, b := [(1, 0x1_0001)] }
    Ready s ∧ (base s 1).getLsbD 0 = true ∧ Takes s := ⟨(ready_of (by decide) (by decide)), by decide, by decide, by decide, by decide⟩

/-- Empty mask stacks defer nothing. -/
theorem nothing_of {s : State} (h : ∀ j < 16, (s.w.slice j).stack = []) : nothingDeferred s :=
  fun j hj _ d hd => by simp [h j hj] at hd

/-- A gang of one slice inside a join record. -/
def stJoin : State := (stW [u 1] fun w => { w with joins := [(0, ⟨0x1_0000, 1, 0, 1, 0, [], 31⟩)] }).modGang fun g => { g with inner := 0 }

theorem witness_path : (∃ c, pathContract (.split h0 4) = some c ∧ Ready stR ∧ c.pre stR) ∧
    (∃ c, pathContract (.join h0) = some c ∧ Ready stJoin ∧ c.pre stJoin) ∧
    (∃ c, pathContract (.regang h0 0) = some c ∧ c.pre stR) ∧ ∃ c, pathContract (.exit h0) = some c ∧ c.pre stR := by
  refine ⟨⟨_, rfl, stR_ready, by decide, by decide, 0, by decide, by decide⟩,
    ⟨_, rfl, (ready_of (by decide) (by decide)), by decide, by decide, ?_, by decide, by decide, by decide, _, rfl, by decide, by decide, by decide⟩,
    ⟨_, rfl, by decide, by decide, by decide, ?_, by decide, by decide, by decide, by decide, ?_⟩, ⟨_, rfl, by decide⟩⟩
  · exact nothing_of (by decide)
  · exact nothing_of (by decide)
  · intro e he m
    rw [(by decide : ∀ e ∈ stR.w.gangs, e.2.wait = none) e he]
    simp

/-! ## Divergence -/

/-- Four lanes in one slice, of which one takes a branch on p1; the stack of the slice holds n entries. -/
def stMix (n : Nat) : State := stW [] fun w =>
  { w with nlanes := 4, p := [(1, .v 1)], tvec := 0x2_0000, slices := [(0, ⟨0xF, List.replicate n ⟨1, 0x1_0000, 31, 0⟩⟩)] }
/-- Eight lanes in two slices, of which slice 0 takes a branch on p1, and n gang entries in use. -/
def stTwo (n : Nat) : State := stW [] fun w =>
  { w with nlanes := 8, p := [(1, .v 0xF)], tvec := 0x2_0000, slices := [(0, ⟨0xF, []⟩), (1, ⟨0xF, []⟩)],
           gangs := (List.range n).map fun e => (e, Gang.launch (if e = 0 then 3 else 0) 0x1_0000) }

theorem witness_diverge_mixed : Ready (stMix 7) ∧ CanDiverge (stMix 7) 1 0 4 :=
  ⟨(ready_of (by decide) (by decide)), ⟨by decide, by decide, by decide, by decide, by decide, by decide, by decide, by decide⟩⟩
theorem witness_diverge_gangs : Ready (stTwo 15) ∧ CanDiverge (stTwo 15) 1 0 4 :=
  ⟨(ready_of (by decide) (by decide)), ⟨by decide, by decide, by decide, by decide, by decide, by decide, by decide, by decide⟩⟩
theorem witness_divstk_stack : Ready (stMix 8) ∧ Takes (stMix 8) ∧ someTake (stMix 8) 1 0 = true ∧
    someFall (stMix 8) 1 0 = true ∧ away (stMix 8) 4 ≠ (stMix 8).seqPc ∧
    ∃ j < 16, takers (stMix 8) 1 0 true j = true ∧ takers (stMix 8) 1 0 false j = true ∧ 8 ≤ ((stMix 8).w.slice j).stack.length :=
  ⟨(ready_of (by decide) (by decide)), ⟨by decide, by decide, by decide⟩, by decide, by decide, by decide, by decide⟩
theorem witness_divstk_gangs : Ready (stTwo 16) ∧ Takes (stTwo 16) ∧ someTake (stTwo 16) 1 0 = true ∧
    someFall (stTwo 16) 1 0 = true ∧ away (stTwo 16) 4 ≠ (stTwo 16).seqPc ∧
    (∃ j < 16, takers (stTwo 16) 1 0 true j = true ∧ takers (stTwo 16) 1 0 false j = false) ∧
    ∀ e < 16, (stTwo 16).w.gangs.find? e ≠ none :=
  ⟨(ready_of (by decide) (by decide)), ⟨by decide, by decide, by decide⟩, by decide, by decide, by decide, by decide, by decide⟩

/-- Eight lanes in two slices whose indexes differ, with a jump table of two targets at 0x1_0008, and n gangs. -/
def stScatter (n : Nat) : State :=
  let i (k : Nat) : Lane := ⟨BitVec.ofNat 32 k, false⟩
  ((stTwo n).modW fun w => { w with w := [(0, .v [i 0, i 1, i 0, i 1, i 1, i 1, i 1, i 1])] }).homeWrite 0x1_0008
    (leBytes 4 2 ++ leBytes 4 8 ++ leBytes 4 16)
/-- The targets that its lanes have. -/
def fScatter (n : Nat) : Nat → DWord := (laneTargets (stScatter n) 0 (Claim.away (stScatter n) 4)).getD fun _ => 0
theorem targets_of (n : Nat) (h : (laneTargets (stScatter n) 0 (Claim.away (stScatter n) 4)).isSome = true) :
    laneTargets (stScatter n) 0 (Claim.away (stScatter n) 4) = some (fScatter n) := by
  obtain ⟨f, hf⟩ := Option.isSome_iff_exists.mp h
  simp [fScatter, hf]

theorem witness_scatter : Ready (stScatter 15) ∧
    laneTargets (stScatter 15) 0 (Claim.away (stScatter 15) 4) = some (fScatter 15) ∧ CanScatter (stScatter 15) (fScatter 15) :=
  ⟨(ready_of (by decide) (by decide)), targets_of 15 (by decide +kernel),
    ⟨by decide, by decide, by decide, ⟨0, 1, by decide +kernel⟩, by unfold LacksRoom; decide +kernel⟩⟩
theorem witness_scatter_full : Ready (stScatter 16) ∧ Takes (stScatter 16) ∧
    laneTargets (stScatter 16) 0 (Claim.away (stScatter 16) 4) = some (fScatter 16) ∧
    active (stScatter 16) 0 = true ∧ active (stScatter 16) 1 = true ∧ fScatter 16 0 ≠ fScatter 16 1 ∧
    LacksRoom (stScatter 16) (fScatter 16) :=
  ⟨(ready_of (by decide) (by decide)), ⟨by decide, by decide, by decide⟩, targets_of 16 (by decide +kernel), by decide,
    by decide, by decide +kernel, by unfold LacksRoom; decide +kernel⟩

/-! ## Traps and handlers -/

theorem takes_of {s : State} (h : s.w.hm = false) (k : s.w.tvec ≠ 0) (q : s.w.storeQ = []) : Takes s :=
  ⟨h, k, by simp [q]⟩

/-- The management core of die 0 at a WFE, with a wake waiting. -/
def stM : State :=
  let s := { State.reset.withFetchWord 32 0x9000_1CA1 with agenda := [], cur := ⟨mgmtWid 0, 0, 0x1_0000, 0x9000_1CA1, 4⟩ }
  s.modDie 0 fun d => { d with wakeReg := 5 }
/-- A core whose CDBG.BRKSTOP is 1. -/
def stB : State := stR.modCore 0 fun k => { k with brkstop := true }
/-- TMASK bit 1. -/
def stK : State := stW [] fun w => { w with tmask := 2 }

theorem witness_system_traps : ∀ i ∈ [Instr.unimp 5, .trapImm h0 5, .sysImm h0 1023, .brk h0],
    ∃ c, systemContract i = some c ∧ Ready (stT []) ∧ c.pre (stT []) := by
  intro i hi
  have r : Ready (stT []) := (ready_of (by decide) (by decide))
  have k : Takes (stT []) := takes_of rfl (by decide) rfl
  simp only [List.mem_cons, List.not_mem_nil, or_false] at hi
  rcases hi with rfl | rfl | rfl | rfl
  · exact ⟨_, rfl, r, k⟩
  · exact ⟨_, rfl, r, k⟩
  · exact ⟨_, rfl, r, by decide⟩
  · exact ⟨_, rfl, r, .inr (.inr k)⟩
theorem witness_system_brk : (∃ c, systemContract (.brk h0) = some c ∧ Ready stK ∧ c.pre stK) ∧
    ∃ c, systemContract (.brk h0) = some c ∧ Ready stB ∧ c.pre stB :=
  ⟨⟨_, rfl, (ready_of (by decide) (by decide)), .inl (by decide)⟩, ⟨_, rfl, (ready_of (by decide) (by decide)), .inr (.inl (by decide))⟩⟩
/-- Handler mode, with an index word 0 in w0 and w2 (register w0, lane 0). -/
def stX : State := stH [u 0, u 0, u 0, u 0]
theorem stX_ready : Ready stX := (ready_of (by decide) (by decide))
theorem witness_system_handler : ∀ i ∈ [Instr.rtrap h0, .tinfo h0 56 0, .tinfo h0 58 2, .tset h0 0, .getx h0 2 0 0, .getx h0 58 0 4,
    .setx h0 0 1 0, .setx h0 0 1 4], ∃ c, systemContract i = some c ∧ Ready stX ∧ c.pre stX := by
  intro i hi
  simp only [List.mem_cons, List.not_mem_nil, or_false] at hi
  rcases hi with rfl | rfl | rfl | rfl | rfl | rfl | rfl | rfl
  · exact ⟨_, rfl, stX_ready, by decide⟩
  · exact ⟨_, rfl, stX_ready, by decide⟩
  · exact ⟨_, rfl, stX_ready, by decide⟩
  · exact ⟨_, rfl, stX_ready, by decide⟩
  · exact ⟨_, rfl, stX_ready, by decide⟩
  · exact ⟨_, rfl, stX_ready, by decide⟩
  · exact ⟨_, rfl, stX_ready, by decide⟩
  · exact ⟨_, rfl, stX_ready, by decide⟩
theorem witness_system_plain : ∀ i ∈ [Instr.tvec h0 4, .tvecDl h0 4, .tmask h0 2 0, .ckpt h0 7, .preqQuery h0 2],
    ∃ c, systemContract i = some c ∧ Ready stR ∧ c.pre stR := by
  intro i hi
  simp only [List.mem_cons, List.not_mem_nil, or_false] at hi
  rcases hi with rfl | rfl | rfl | rfl | rfl
  · exact ⟨_, rfl, stR_ready, by decide⟩
  · exact ⟨_, rfl, stR_ready, by decide⟩
  · exact ⟨_, rfl, stR_ready, by decide⟩
  · exact ⟨_, rfl, stR_ready, trivial⟩
  · exact ⟨_, rfl, stR_ready, by decide⟩
/-- A SIGNAL to the management core of die 0, and to a host queue from a management core. -/
theorem witness_system_signal : (∃ c, systemContract (.signal h0 0 1) = some c ∧ Ready (stW [u 60, u 1]) ∧ c.pre (stW [u 60, u 1])) ∧
    (∃ c, systemContract (.signal h0 0 1) = some c ∧ Ready stM ∧
      c.pre (stM.modW fun w => { w with w := [(0, u 0x8000_0FFF)] })) ∧
    ∃ c, systemContract (.wfe h0 2) = some c ∧ Ready stM ∧ c.pre stM :=
  ⟨⟨_, rfl, (ready_of (by decide) (by decide)), by decide⟩, ⟨_, rfl, (ready_of (by decide) (by decide)), by decide⟩, ⟨_, rfl, (ready_of (by decide) (by decide)), by decide⟩⟩

/-- SYS on a management core, and WFE with no wake waiting. -/
def stMw : State := stM.modDie 0 fun d => { d with wakeReg := 0 }
theorem witness_system_mgmt : (∃ c, systemContract (.sysImm h0 17) = some c ∧ Ready stM ∧ c.pre stM ∧
      isMgmt stM.cur.wid = true) ∧
    ∃ c, systemContract (.wfe h0 2) = some c ∧ Ready stMw ∧ c.pre stMw ∧ (stMw.getDie 0).wakeReg = 0 :=
  ⟨⟨_, rfl, (ready_of (by decide) (by decide)), trivial, by decide⟩,
    ⟨_, rfl, (ready_of (by decide) (by decide)), by decide, by decide⟩⟩

/-- The clauses of `BrkAndTset`. -/
theorem witness_brk : Ready (stT []) ∧ (∀ e ∈ (stT []).w.storeQ, State.isAtom e = false) ∧
    (stT []).w.tmask.getLsbD 1 = false ∧ (stT []).cur.len = 4 ∧ Takes (stT []) ∧
    (stT []).w.tmask.getLsbD 1 = false ∧ (stT []).getCore 0 = Core.init ∧
    (Ready stX ∧ stX.w.tmask.getLsbD 1 = false ∧ Routes stX) :=
  ⟨(ready_of (by decide) (by decide)), by decide, by decide, rfl, takes_of rfl (by decide) rfl, by decide, by decide, stX_ready, by decide,
    stH_routes _⟩
theorem witness_tset : (∀ x ∈ [[aff 0 4, u 0], [u 0, aff 0 4], [.u 0 true, u 0], [u 0, .u 0 true], [u 1, u 0]],
      Routes (stH x) ∧ (stH x).w.hm = true) ∧
    Ready (stH [aff 0 4, u 0]) ∧ (reg (stH [aff 0 4, u 0]) 0).isU = false ∧
    Ready (stH [u 0, aff 0 4]) ∧ (reg (stH [u 0, aff 0 4]) 1).isU = false ∧
    Ready (stH [u 0, .u 0 true]) ∧ poison2 (stH [u 0, .u 0 true]) 0 0 = true ∧ (reg (stH [u 0, .u 0 true]) 0).isU = true ∧
    (reg (stH [u 0, .u 0 true]) 1).isU = true ∧
    Ready (stH [u 1, u 0]) ∧ Uniform2 (stH [u 1, u 0]) 0 ∧ (dword (stH [u 1, u 0]) 0 0).getLsbD 0 = true :=
  ⟨fun x _ => ⟨stH_routes x, rfl⟩, (ready_of (by decide) (by decide)), by decide, (ready_of (by decide) (by decide)), by decide, (ready_of (by decide) (by decide)),
    by decide, by decide, by decide, (ready_of (by decide) (by decide)), by decide, by decide⟩

/-- Operands that are affine, and poisoned ones, for each instruction of `uniformSrcs`. -/
theorem witness_operands : ∀ i ∈ [Instr.partW h0 0, .roleW h0 0, .sfmt h0 0, .movbTo h0 3 0, .tvec h0 0, .tvecDl h0 0, .tmask h0 4 0,
    .signal h0 0 1, .loopReg h0 0 2], ∃ ns, uniformSrcs i = some ns ∧
      Ready (stT [aff 0 4, u 0]) ∧ Takes (stT [aff 0 4, u 0]) ∧ (∃ n ∈ ns, (reg (stT [aff 0 4, u 0]) n).isU = false) ∧
      Ready (stT [.u 0 true, u 0]) ∧ Takes (stT [.u 0 true, u 0]) ∧ (∀ n ∈ ns, (reg (stT [.u 0 true, u 0]) n).isU = true) ∧
      ∃ n ∈ ns, poison (stT [.u 0 true, u 0]) n 0 = true := by
  intro i hi
  have r : Ready (stT [aff 0 4, u 0]) := (ready_of (by decide) (by decide))
  have q : Ready (stT [.u 0 true, u 0]) := (ready_of (by decide) (by decide))
  have k : Takes (stT [aff 0 4, u 0]) := takes_of rfl (by decide) rfl
  have m : Takes (stT [.u 0 true, u 0]) := takes_of rfl (by decide) rfl
  simp only [List.mem_cons, List.not_mem_nil, or_false] at hi
  rcases hi with rfl | rfl | rfl | rfl | rfl | rfl | rfl | rfl | rfl <;>
    exact ⟨_, rfl, r, k, by decide, q, m, by decide, by decide⟩
theorem witness_tvec_odd : Ready (stT [u 1, u 0]) ∧ Takes (stT [u 1, u 0]) ∧ Uniform2 (stT [u 1, u 0]) 0 ∧
    (dword (stT [u 1, u 0]) 0 0).getLsbD 0 = true :=
  ⟨(ready_of (by decide) (by decide)), takes_of rfl (by decide) rfl, by decide, by decide⟩

theorem witness_perm : ∀ i ∈ [Instr.rtrap h0, .tinfo h0 2 0, .tset h0 0, .getx h0 2 0 0, .setx h0 2 0 0],
    handlerOnly i = true ∧ Ready (stT []) ∧ Takes (stT []) :=
  fun i hi => ⟨by revert i; decide, (ready_of (by decide) (by decide)), takes_of rfl (by decide) rfl⟩

/-- In a handler, and without one. -/
theorem witness_routed : (∀ i ∈ [Instr.unimp 5, .trapImm h0 5], (ownTrap i stX).isSome = true) ∧
    (∀ i ∈ [Instr.split h0 4, .join h0, .regang h0 0], pathOnly i = true) ∧ Ready stX ∧ Routes stX ∧ stX.w.hm = true ∧
    Ready stR ∧ Routes stR :=
  ⟨by decide, by decide, stX_ready, stH_routes _, rfl, stR_ready, ⟨rfl, .inr rfl, by intro e h; cases h⟩⟩
theorem witness_bank_mov : let s := stH [v1 9]
    Ready s ∧ Routes s ∧ s.w.hm = true ∧ (reg s 0).isV = true ∧ s.act = s.present :=
  ⟨(ready_of (by decide) (by decide)), stH_routes _, rfl, by decide, by decide⟩
/-- A management core's word of GBAR. -/
theorem witness_grid_refused : isMgmt (mgmtWid 0) = true ∧ isMgmt (mgmtWid 3) = true ∧ Ready stX ∧ Routes stX ∧ stX.w.hm = true :=
  ⟨by decide, by decide, stX_ready, stH_routes _, rfl⟩

/-! ## Memory -/

theorem lone {s : State} (h : s.act = 1) {P : Nat → Prop} (k : P 0) : ∀ i, active s i = true → P i := by
  intro i hi
  have : i = 0 := by simpa [active, h] using hi
  exact this ▸ k

/-- A team with an allocation of 4096 bytes, four barriers (0 expects two arrivals and has one, 1 one, 3 one), a tag table and
two matrix banks; b1 is the base of the program's page. -/
def stA (xs : List Shaped) (f : Warp → Warp := id) (g : Team → Team := id) : State :=
  (stW xs fun w => f { w with b := [(1, 0x1_0000)] }).modTeam 0 fun t => g
    { t with size := 4096, nbar := 4, bars := [(0, ⟨2, 1, 0, 0⟩), (1, ⟨1, 0, 5, 0⟩), (3, ⟨1, 0, 0, 0⟩)],
             tag := some ⟨0x11, 0, []⟩ }

def stL : State := stA [u 0x100, u 7, u 0x1_0100, u 0, u 1, u 2, u 3]
theorem stL_ready : Ready stL := (ready_of (by decide) (by decide))
theorem stL_one : stL.act = 1 := by decide
theorem caches_of {s : State} (h : s.dies = []) : CachesOk s := by
  intro d l c k
  have : (s.getDie d).cache = [] := by rw [State.getDie, h]; rfl
  rw [this] at k; cases k
theorem stL_caches : CachesOk stL := caches_of (by decide)

theorem witness_load : ∀ z ∈ [0, 1, 2, 3, 4], ∀ r ∈ [0, 1, 2, 3], ∃ c, memoryContract (.ld h0 8 0 1 z 1 r) = some c ∧ Ready stL ∧ c.pre stL := by
  intro z hz r hr
  refine ⟨_, rfl, stL_ready, ?_⟩
  simp only [List.mem_cons, List.not_mem_nil, or_false] at hz
  rcases hz with rfl | rfl | rfl | rfl | rfl <;>
    exact ⟨by decide, by decide, lone stL_one (by decide), by decide⟩
theorem witness_store : ∀ z ∈ [0, 1, 2, 3, 4], ∀ r ∈ [0, 1, 2, 3], ∃ c, memoryContract (.st h0 3 0 1 z r) = some c ∧ Ready stL ∧ c.pre stL := by
  intro z hz r hr
  refine ⟨_, rfl, stL_ready, ?_⟩
  simp only [List.mem_cons, List.not_mem_nil, or_false] at hz
  rcases hz with rfl | rfl | rfl | rfl | rfl <;>
    exact ⟨by decide, lone stL_one (by decide), fun k hk => lone stL_one (by revert k; decide)⟩
/-- The whole offset, and the crew member's own rank with M 1. -/
theorem witness_scratch : ∀ m ∈ [0, 1], ∀ z ∈ [0, 1, 2, 3, 4],
    (∃ c, memoryContract (.ldsp h0 8 0 0 m z 1) = some c ∧ Ready stL ∧ c.pre stL) ∧
    ∃ c, memoryContract (.stsp h0 3 0 0 m z) = some c ∧ Ready stL ∧ c.pre stL := by
  intro m hm z hz
  simp only [List.mem_cons, List.not_mem_nil, or_false] at hm hz
  rcases hm with rfl | rfl <;> rcases hz with rfl | rfl | rfl | rfl | rfl <;>
    exact ⟨⟨_, rfl, stL_ready, by decide, by decide, lone stL_one ⟨by decide, by decide, 0, by decide, by decide⟩, by decide⟩,
      ⟨_, rfl, stL_ready, by decide, lone stL_one ⟨by decide, by decide, 0, by decide, by decide⟩,
        fun k hk => lone stL_one (by revert k; decide)⟩⟩
theorem witness_atom : ∀ p ∈ [0, 1, 2, 3, 4, 5, 6, 7, 8, 9, 10, 11, 12, 13, 14, 15], ∀ r ∈ [0, 1, 2, 3],
    (∃ c, memoryContract (.atom h0 8 1 3 p 0 r) = some c ∧ Ready stL ∧ c.pre stL) ∧
    ∃ c, memoryContract (.atomx h0 8 1 3 p 0 r) = some c ∧ Ready stL ∧ c.pre stL := by
  intro p hp r hr
  refine ⟨⟨_, rfl, stL_ready, ?_⟩, ⟨_, rfl, stL_ready, ?_⟩⟩ <;>
  · refine ⟨fun _ => ⟨by decide, stL_caches⟩, lone stL_one ⟨by decide, fun _ => by decide⟩, 0x1_0100, by decide, lone stL_one ?_⟩
    revert p; decide
theorem witness_atomsp : ∀ f ∈ [0, 1, 2, 3, 4, 5, 6, 7, 8, 9, 10], ∃ c, memoryContract (.atomsp h0 8 0 3 f) = some c ∧ Ready stL ∧ c.pre stL :=
  fun f hf => ⟨_, rfl, stL_ready, lone stL_one ⟨by decide, fun _ => by decide⟩, by decide, by decide, 0x100, by decide, by decide,
    lone stL_one (by decide)⟩
theorem witness_fence : ∀ k ∈ [1, 2, 3], ∀ e ∈ [0, 1, 2, 3, 4], ∃ c, memoryContract (.fence h0 e k) = some c ∧ Ready stL ∧ c.pre stL := by
  intro k hk e he
  refine ⟨_, rfl, stL_ready, ?_, ?_, fun _ => by decide⟩
  · revert k; decide
  · revert e; decide
theorem witness_maintenance : ∀ i ∈ [Instr.pref h0 0 1, .cwb h0 0 1, .icinv h0 0 1, .ptest h0 8 0 1 0, .ptest h0 8 0 1 1, .pclr h0 0 1 0,
    .pclr h0 0 1 1], ∃ c, memoryContract i = some c ∧ Ready stL ∧ c.pre stL := by
  intro i hi
  simp only [List.mem_cons, List.not_mem_nil, or_false] at hi
  rcases hi with rfl | rfl | rfl | rfl | rfl | rfl | rfl
  · exact ⟨_, rfl, stL_ready, trivial⟩
  · exact ⟨_, rfl, stL_ready, show NamesLines stL .any 1 0 by decide⟩
  · exact ⟨_, rfl, stL_ready, by decide, by decide⟩
  · exact ⟨_, rfl, stL_ready, by decide, by decide, show NamesWords stL 0 by decide⟩
  · exact ⟨_, rfl, stL_ready, by decide, by decide, show NamesLines stL .read 1 0 by decide⟩
  · exact ⟨_, rfl, stL_ready, show NamesWords stL 0 by decide⟩
  · exact ⟨_, rfl, stL_ready, show NamesLines stL .write 1 0 by decide⟩

/-! ## Stops of accesses -/

/-- Poison in the offset, in the data, an offset of 2, and an address of no page; and a lane that does both. -/
def stF (o d : Shaped) : State := stA [o, d] fun w => { w with tvec := 0x2_0000 }
theorem witness_access : ∀ i ∈ [Instr.ld h0 8 0 1 2 0 0, .st h0 1 0 1 2 0],
    ∃ need n b o data, accessOf i = some (need, n, b, o, data) ∧
      (let s := stF (.u 0 true) (u 1)
       Ready s ∧ Takes s ∧ failing s (fun k => poison s o k) ≠ []) ∧
      (let s := stF (u 2) (u 1)
       Ready s ∧ Takes s ∧ failing s (fun k => poison s o k) = [] ∧ failing s (fun k => data.any fun r => poison s r k) = [] ∧
         failing s (fun k => (addr s b o k).toNat % n != 0) ≠ []) ∧
      (let s := stF (u 0x2_0000) (u 1)
       Ready s ∧ isMgmt s.cur.wid = false ∧ failing s (fun k => poison s o k) = [] ∧
         failing s (fun k => data.any fun r => poison s r k) = [] ∧ failing s (fun k => (addr s b o k).toNat % n != 0) = [] ∧
         failing s (fun k => unplaced s need n (addr s b o k)) ≠ []) := by
  intro i hi
  simp only [List.mem_cons, List.not_mem_nil, or_false] at hi
  rcases hi with rfl | rfl <;>
    exact ⟨_, _, _, _, _, rfl, ⟨(ready_of (by decide) (by decide)), takes_of rfl (by decide) rfl, by decide⟩,
      ⟨(ready_of (by decide) (by decide)), takes_of rfl (by decide) rfl, by decide, by decide, by decide⟩,
      (ready_of (by decide) (by decide)), rfl, by decide, by decide, by decide, by decide⟩
theorem witness_access_data : let s := stF (u 0) (.u 1 true)
    Ready s ∧ Takes s ∧ failing s (fun k => poison s 0 k) = [] ∧ failing s (fun k => [1].any fun r => poison s r k) ≠ [] :=
  ⟨(ready_of (by decide) (by decide)), takes_of rfl (by decide) rfl, by decide, by decide⟩
/-- The warp has a floor of 0 rows and may not borrow. -/
theorem witness_row : let s := stA [v1 5] fun w => { w with tvec := 0x2_0000, floor := 0, borrow := false, rows := [] }
    Settled s ∧ Takes s ∧ NoRow s 8 ∧ (reg s 0).isV = true ∧ s.act = s.present :=
  ⟨settled_of (by decide), takes_of rfl (by decide) rfl, ⟨rfl, by decide, (by intro e h; cases h), by decide, by decide, .inl rfl⟩,
    by decide, by decide⟩

/-! ## Windows, tags, barriers, grids -/

/-- The window of the management core of die 0 (R448): its base in b1, an offset in w0, data in w1. -/
def stWin : State := stM.modW fun w => { w with w := [(0, u 4), (1, u 3)], b := [(1, 0xFFFF_FF80_0000_0000)] }
theorem witness_window : (∃ c, windowContract (.ld h0 8 0 1 2 0 0) = some c ∧ Ready stWin ∧ c.pre stWin) ∧
    ∃ c, windowContract (.st h0 1 0 1 2 0) = some c ∧ Ready stWin ∧ c.pre stWin :=
  ⟨⟨_, rfl, (ready_of (by decide) (by decide)), by decide⟩, ⟨_, rfl, (ready_of (by decide) (by decide)), by decide⟩⟩

/-- Keys in w0 and w1, a geometry of 2 sets of 2 ways in w7. -/
def stTag : State := stA [u 8, u 0, u 5, u 0x811]
theorem stTag_ready : Ready stTag := (ready_of (by decide) (by decide))
theorem stTag_one : stTag.act = 1 := by decide
theorem witness_tag : (∃ c, tagContract (.taglk h0 8 0) = some c ∧ Ready stTag ∧ c.pre stTag) ∧
    (∃ c, tagContract (.tagset h0 0 1) = some c ∧ Ready stTag ∧ c.pre stTag) ∧
    (∀ b ∈ [0, 1, 2], ∃ c, tagContract (.taginv h0 1 b) = some c ∧ Ready stTag ∧ c.pre stTag) ∧
    ∃ c, tagContract (.tagcfg h0 3 1) = some c ∧ Ready stTag ∧ c.pre stTag :=
  ⟨⟨_, rfl, stTag_ready, by decide, by decide⟩,
    ⟨_, rfl, stTag_ready, ⟨0x11, 0, []⟩, by decide, lone stTag_one (by decide)⟩,
    fun b hb => ⟨_, rfl, stTag_ready, by revert b; decide, ⟨0x11, 0, []⟩, by decide, fun _ => lone stTag_one (by decide)⟩,
    ⟨_, rfl, stTag_ready, by decide⟩⟩

theorem witness_waitc : ∀ a ∈ [0, 1, 2, 3], ∃ c, barrierContract (.waitc h0 a 0) = some c ∧ Ready stL ∧ c.pre stL := by
  intro a ha
  refine ⟨_, rfl, stL_ready, ?_, fun _ e h => ?_⟩
  · revert a; decide
  · cases h
/-- The same with an operation of every class outstanding, and a gang that waits already: WAITC waits. -/
def stW2 (x : Option Wait) : State :=
  (stL.modW fun w => { w with ops := (List.range 4).map fun k => ⟨k, k, false, none⟩ }).modGang fun g => { g with wait := x }
theorem witness_waitc_waits : ∀ a ∈ [0, 1, 2, 3], ∀ x ∈ [none, some (Wait.eng 0 0 0)],
    ∃ c, barrierContract (.waitc h0 a 0) = some c ∧ Ready (stW2 x) ∧ c.pre (stW2 x) ∧ 0 < waiting (stW2 x).w a.toNat := by
  intro a ha x hx
  have r : Ready (stW2 x) := by
    simp only [List.mem_cons, List.not_mem_nil, or_false] at hx
    rcases hx with rfl | rfl <;> exact ready_of (by decide) (by decide)
  refine ⟨_, rfl, r, ⟨?_, fun _ e h => ?_⟩, ?_⟩
  · revert a; decide
  · cases h
  · clear r; revert x a; decide
/-- w0 is 2, w1 a passed phase of barrier 1, w2 the present one, w3 one to come. -/
def stBar : State := stA [u 2, u 4, u 5, u 6]
theorem stBar_ready : Ready stBar := (ready_of (by decide) (by decide))
theorem witness_barrier : (∃ c, barrierContract (.tbinit h0 0 2) = some c ∧ Ready stBar ∧ c.pre stBar) ∧
    (∀ k ∈ [0, 1], ∃ c, barrierContract (.tbarr h0 8 k) = some c ∧ Ready stBar ∧ c.pre stBar) ∧
    (∃ c, barrierContract (.tbwait h0 1 1) = some c ∧ Ready stBar ∧ c.pre stBar) ∧
    (∃ c, barrierContract (.tbtry h0 8 1 1) = some c ∧ Ready stBar ∧ c.pre stBar) ∧
    (∃ c, barrierContract (.tbtry h0 8 2 1) = some c ∧ Ready stBar ∧ c.pre stBar) ∧
    (∀ k ∈ [0, 1], ∃ c, barrierContract (.bar h0 k) = some c ∧ Ready stBar ∧ c.pre stBar) ∧
    (∃ c, barrierContract (.tbinv h0 1) = some c ∧ Ready stBar ∧ c.pre stBar) ∧
    (∃ c, barrierContract (.gset h0 1 7 1) = some c ∧ Ready stBar ∧ c.pre stBar) ∧
    ∃ c, barrierContract (.gclr h0 1) = some c ∧ Ready stBar ∧ c.pre stBar := by
  refine ⟨⟨_, rfl, stBar_ready, by decide, by decide, by decide, ⟨0, 0, 0, 0⟩, by decide, rfl, rfl⟩, ?_,
    ⟨_, rfl, stBar_ready, ⟨1, 0, 5, 0⟩, by decide, .inl (by decide)⟩,
    ⟨_, rfl, stBar_ready, by decide, by decide, ⟨1, 0, 5, 0⟩, by decide, by decide⟩,
    ⟨_, rfl, stBar_ready, by decide, by decide, ⟨1, 0, 5, 0⟩, by decide, by decide⟩, ?_,
    ⟨_, rfl, stBar_ready, by decide, ⟨1, 0, 5, 0⟩, by decide, rfl⟩, ⟨_, rfl, stBar_ready, by decide, _, rfl, by decide, by decide⟩,
    ⟨_, rfl, stBar_ready, by decide⟩⟩
  · intro k hk
    simp only [List.mem_cons, List.not_mem_nil, or_false] at hk
    rcases hk with rfl | rfl
    · exact ⟨_, rfl, stBar_ready, by decide, by decide, ⟨2, 1, 0, 0⟩, by decide, by decide⟩
    · exact ⟨_, rfl, stBar_ready, by decide, by decide, ⟨1, 0, 5, 0⟩, by decide, by decide⟩
  · intro k hk
    simp only [List.mem_cons, List.not_mem_nil, or_false] at hk
    rcases hk with rfl | rfl
    · exact ⟨_, rfl, stBar_ready, ⟨2, 1, 0, 0⟩, by decide, .inl (by decide)⟩
    · exact ⟨_, rfl, stBar_ready, ⟨1, 0, 5, 0⟩, by decide, .inl (by decide)⟩
/-- TBWAIT and BAR that begin to wait, that wait still, and whose phase has passed since. -/
def stBarW (x : Wait) : State := stBar.modGang fun g => { g with wait := some x }
theorem stBarW_ready : ∀ x ∈ [Wait.tb 1 4, .tb 1 5, .bar 1 4, .bar 1 5], Ready (stBarW x) :=
  fun x hx => ready_of (by revert x; decide) (by revert x; decide)
theorem witness_barrier_waits :
    (∃ c, barrierContract (.tbwait h0 2 1) = some c ∧ Ready stBar ∧ c.pre stBar ∧
      ¬ ahead 5 (phaseFor stBar 2)) ∧
    (∀ p ∈ [4, 5], ∃ c, barrierContract (.tbwait h0 2 1) = some c ∧ Ready (stBarW (.tb 1 p)) ∧ c.pre (stBarW (.tb 1 p)) ∧
      phaseFor (stBarW (.tb 1 p)) 2 = p) ∧
    ∀ p ∈ [4, 5], ∃ c, barrierContract (.bar h0 1) = some c ∧ Ready (stBarW (.bar 1 p)) ∧ c.pre (stBarW (.bar 1 p)) := by
  refine ⟨⟨_, rfl, stBar_ready, ⟨⟨1, 0, 5, 0⟩, by decide, .inl (by decide)⟩, by decide⟩, fun p hp => ?_, fun p hp => ?_⟩ <;>
    simp only [List.mem_cons, List.not_mem_nil, or_false] at hp <;> rcases hp with rfl | rfl
  · exact ⟨_, rfl, stBarW_ready _ (by decide), ⟨⟨1, 0, 5, 0⟩, by decide, .inr ⟨1, 4, rfl⟩⟩, rfl⟩
  · exact ⟨_, rfl, stBarW_ready _ (by decide), ⟨⟨1, 0, 5, 0⟩, by decide, .inr ⟨1, 5, rfl⟩⟩, rfl⟩
  · exact ⟨_, rfl, stBarW_ready _ (by decide), ⟨1, 0, 5, 0⟩, by decide, .inr ⟨1, 4, rfl⟩⟩
  · exact ⟨_, rfl, stBarW_ready _ (by decide), ⟨1, 0, 5, 0⟩, by decide, .inr ⟨1, 5, rfl⟩⟩

/-- Partition 0 holds counters 0 to 7 and queues 0 to 15. -/
def stG (xs : List Shaped) (f : Warp → Warp := id) (g : Team → Team := id) : State :=
  (stA xs f g).modPart 0 fun p => { p with pctr := 0x8_0000, pque := 0x10_0000 }
/-- The one warp of its team, which completes a generation; and one of two. -/
def stOne : State := stG [u 0xFFFF_FFFF]
def stPair : State := stG [u 0] id fun t => { t with nwarps := 2, wids := [0, 1] }
theorem clean_of {s : State} (h : Drained s) (k : s.dies = []) : Clean s := by
  refine ⟨h, fun l c x => ?_⟩
  have : (s.getDie (here s)).cache = [] := by rw [State.getDie, k]; rfl
  rw [this] at x; cases x
theorem stOne_arrives : ∃ u l, MayArrive stOne u l ∧ Completes stOne u l ∧ ∀ g, stOne.gang.wait ≠ some (.gbar g) :=
  ⟨_, _, ⟨rfl, by decide, ⟨rfl, by decide, by decide, by decide⟩, rfl, by decide, by decide⟩, ⟨by unfold AllHere; decide, by decide⟩,
    fun _ h => by cases h⟩
theorem stPair_arrives : ∃ u l, MayArrive stPair u l ∧ ¬ AllHere stPair u ∧ ∀ g, stPair.gang.wait ≠ some (.gbar g) :=
  ⟨_, _, ⟨rfl, by decide, ⟨rfl, by decide, by decide, by decide⟩, rfl, by decide, by decide⟩,
    fun h => absurd (h 1 (by decide)) (by decide), fun _ h => by cases h⟩
/-- A gang that waits at its GBAR for a generation that has completed. -/
def stMet : State := stOne.modGang fun g => { g with wait := some (.gbar 0xFFFF_FFFF), met := true }
theorem witness_grid : (∃ c, gridContract (.gbar h0) = some c ∧ Ready stOne ∧ c.pre stOne) ∧
    (∃ c, gridContract (.gbar h0) = some c ∧ Ready stPair ∧ c.pre stPair) ∧
    (∃ c, gridContract (.gbar h0) = some c ∧ Ready stMet ∧ c.pre stMet) ∧
    (∃ c, gridContract (.gbara h0 8) = some c ∧ Ready stOne ∧ c.pre stOne) ∧
    (∃ c, gridContract (.gbara h0 8) = some c ∧ Ready stPair ∧ c.pre stPair) ∧
    (∃ c, gridContract (.gbarw h0 0) = some c ∧ Ready stOne ∧ c.pre stOne ∧ ahead (gridGen stOne) (word stOne 0 0)) ∧
    (∃ c, gridContract (.gbarw h0 0) = some c ∧ c.pre stPair ∧ ¬ ahead (gridGen stPair) (word stPair 0 0)) ∧
    Clean stOne := by
  obtain ⟨u, l, a, -, b⟩ := stOne_arrives
  obtain ⟨x, y, c, -, d⟩ := stPair_arrives
  exact ⟨⟨_, rfl, ready_of (by decide) (by decide), .inl ⟨u, l, a, b⟩⟩,
    ⟨_, rfl, ready_of (by decide) (by decide), .inl ⟨x, y, c, d⟩⟩,
    ⟨_, rfl, ready_of (by decide) (by decide), .inr ⟨rfl, 0xFFFF_FFFF, rfl, by decide⟩⟩,
    ⟨_, rfl, ready_of (by decide) (by decide), u, l, a⟩, ⟨_, rfl, ready_of (by decide) (by decide), x, y, c⟩,
    ⟨_, rfl, ready_of (by decide) (by decide), ⟨rfl, .inl (by decide)⟩, by decide⟩, ⟨_, rfl, ⟨rfl, .inl (by decide)⟩, by decide⟩,
    clean_of (by decide) (by decide)⟩

/-- The warp's own unit in w0, one of another GEN in w1, one that is over in w2. -/
def stCtr : State := stG [u 0x1_0000, u 0x2_0000, u 7]
theorem stCtr_ready : Ready stCtr := (ready_of (by decide) (by decide))
theorem stCtr_alone : ∀ k v, stCtr.getTeam? k = some v → k ≠ stCtr.w.team → stCtr.cur.wid ∉ v.wids := by
  intro k v h n
  have : stCtr.teams.find? k = none := by
    cases k with
    | zero => exact absurd rfl n
    | succ k => rfl
  rw [State.getTeam?, this] at h; cases h
/-- A team of the same partition that is not placed yet, whose launch has no priority below the team's. -/
def stWork : State := { stCtr with launches := stCtr.launches ++ [(5, { State.placeLaunch with nextTeam := 0 })] }
theorem witness_counters : (∀ a ∈ [0, 1, 2], ∃ c, gridContract (.ccwait h0 8 a) = some c ∧ Ready stCtr ∧ c.pre stCtr) ∧
    (isOver stCtr 0 1 = false ∧ isOver stCtr 0 2 = true) ∧
    (∀ a ∈ [0, 1, 2], ∃ c, gridContract (.cncl h0 a) = some c ∧ Ready stCtr ∧ c.pre stCtr) ∧
    (∃ c, gridContract (.preqYield h0 8) = some c ∧ Ready stCtr ∧ c.pre stCtr) ∧
    ∃ c u, gridContract (.preqYield h0 8) = some c ∧ c.pre stWork ∧ stWork.team? = some u ∧ u.req = none ∧ WorkWaits stWork u := by
  refine ⟨?_, by decide, ?_, ⟨_, rfl, stCtr_ready, by decide, fun u h => by cases h; rfl⟩,
    ⟨_, _, rfl, ⟨by decide, fun u h => by cases h; rfl⟩, rfl, rfl, .inl ⟨_, List.mem_append_right _ List.mem_cons_self, by decide⟩⟩⟩
  · intro a ha
    simp only [List.mem_cons, List.not_mem_nil, or_false] at ha
    rcases ha with rfl | rfl | rfl <;> exact ⟨_, rfl, stCtr_ready, .inl (by decide), by decide⟩
  · intro a ha
    simp only [List.mem_cons, List.not_mem_nil, or_false] at ha
    rcases ha with rfl | rfl | rfl <;>
      exact ⟨_, rfl, stCtr_ready, by decide, by decide, by decide, by decide, ⟨_, rfl, by decide, by decide⟩, stCtr_alone⟩

/-- A record at the address in w0 and w1, queue 3 in w2: an OPEN of counter 1 at level 1, and one of kind 9. -/
def stRec (kind : Nat) : State := (stG [u 0x1_0080, u 0, u 3]).homeWrite 0x1_0080 (leBytes 4 kind ++ leBytes 4 0x401)
set_option maxRecDepth 8000 in
theorem witness_launch : ∀ x ∈ [(1, 0), (9, 0x41)],
    ∃ c, gridContract (.lnch h0 8 0 2) = some c ∧ Ready (stRec x.1) ∧ c.pre (stRec x.1) ∧
      ∃ bytes v, (stRec x.1).readRecord (dword (stRec x.1) 0 0) = .ok (bytes, v) ∧ v.recordCode 0 bytes = x.2 := by
  intro x hx
  simp only [List.mem_cons, List.not_mem_nil, or_false] at hx
  rcases hx with rfl | rfl <;>
    exact ⟨_, rfl, ready_of (by decide) (by decide),
      ⟨by decide, by decide, by decide, by decide, by decide, by decide, _, _, rfl, fun r h => by revert h; decide +revert⟩, _, _, rfl, by decide⟩

/-! ## Engines -/

/-- CFG 0 and scales of 1 in w0 to w2. -/
def stCfg : State := stA [u 0, u 0x3F80_0000, u 0x3F80_0000]
theorem witness_engine : (∃ c, engineContract (.mxcfg h0 0) = some c ∧ Ready stCfg ∧ c.pre stCfg) ∧
    (∀ b ∈ [0, 1, 2, 3], ∃ c, engineContract (.mxq h0 8 b) = some c ∧ Ready stCfg ∧ c.pre stCfg) ∧
    (∀ b ∈ [0, 1, 2, 3], ∃ c, engineContract (.qerr h0 8 0 b) = some c ∧ Ready stCfg ∧ c.pre stCfg) ∧
    ∃ c, engineContract (.qchk h0 8 0) = some c ∧ Ready stCfg ∧ c.pre stCfg :=
  ⟨⟨_, rfl, (ready_of (by decide) (by decide)), by decide⟩, fun b _ => ⟨_, rfl, (ready_of (by decide) (by decide)), rfl, by decide⟩,
    fun b _ => ⟨_, rfl, (ready_of (by decide) (by decide)), rfl, by decide⟩, ⟨_, rfl, (ready_of (by decide) (by decide)), by decide⟩⟩

/-- A crew with one matrix bank. -/
def stQ : State := { stA (List.replicate 16 (u 0)) with crews := [⟨0, 0, 0, [0]⟩] }
theorem stQ_ready : Ready stQ := (ready_of (by decide) (by decide))
theorem witness_accepted : ∀ i ∈ [Instr.cpLoad h0 0 0 0 1 0, .cpStore h0 0 1 0 1 0, .cpFill h0 0 0 0 0 3, .mxloop h0 0 0 1 0 1,
    .mxdrain h0 0 0 1 0 0, .mxlda h0 0 0 1 0, .mxzero h0 0 1 0, .qst h0 0 8, .qstf h0 0 8, .qexp h0 0, .qexpb h0 0, .vdec h0 0,
    .kvg h0 0 1 0 0, .kvspl h0 0 1 0, .kvmap h0 0 1 0, .kvsd h0 0 1 0, .rpscan h0 0 1 0, .rpdone h0 0 1 2],
    ∃ a, wants i stQ = some a ∧ Ready stQ ∧ Accepted stQ a := by
  intro i hi
  simp only [List.mem_cons, List.not_mem_nil, or_false] at hi
  rcases hi with rfl | rfl | rfl | rfl | rfl | rfl | rfl | rfl | rfl | rfl | rfl | rfl | rfl | rfl | rfl | rfl | rfl | rfl <;>
  · refine ⟨_, rfl, stQ_ready, rfl, by decide, ?_, by decide, by decide, by decide, by decide⟩
    intro k hk
    first
    | (cases hk; done)
    | (cases hk; exact ⟨_, rfl, by decide, by decide⟩)
/-- A guard that is FALSE, and one that is not. -/
def stNo : State := stQ.modTeam 0 fun t => { t with guards := [(1, ⟨.no, 0⟩)] }
theorem witness_dropped : ∀ u ∈ [1, 2], ∃ a, wants (.cpLoad h0 0 0 0 1 u) stNo = some a ∧ Ready stNo ∧ Accepted stNo a ∧
    (u = 1 → Dropped stNo a ∧ Stands stNo) ∧ (u = 2 → ¬ Dropped stNo a) := by
  have ok : ∀ a, a.cls = 0 → a.kind = .cpLoad false → a.block = regs 0 6 → a.bar = some 0 → Accepted stNo a := by
    intro a h0 h1 h2 h3
    refine ⟨rfl, ?_, ?_, ?_, ?_, ?_, ?_⟩
    · rw [h2]; decide
    · intro k hk; rw [h3] at hk; cases hk; exact ⟨_, rfl, by decide, by decide⟩
    · intro h; rw [h0] at h; cases h
    · rw [h0]; decide
    · rw [h1]; decide
    · intro h; rw [h0] at h; cases h
  intro u hu
  simp only [List.mem_cons, List.not_mem_nil, or_false] at hu
  rcases hu with rfl | rfl
  · exact ⟨_, rfl, ready_of (by decide) (by decide), ok _ rfl rfl rfl rfl,
      fun _ => ⟨⟨by decide, _, rfl, rfl⟩, ⟨_, rfl, rfl, rfl, rfl, by decide⟩, by decide⟩, fun h => by cases h⟩
  · refine ⟨_, rfl, ready_of (by decide) (by decide), ok _ rfl rfl rfl rfl, (fun h => by cases h), fun _ h => ?_⟩
    obtain ⟨-, v, hv, hn⟩ := h
    cases hv
    cases hn

/-! ## Executions of commands -/

/-- Command 9 of warp 0, with descriptor words d. -/
def cmd (cls : Nat) (kind : CmdKind) (d : List Word) : Cmd :=
  { id := 9, cls, kind, wid := 0, team := 0, warp := 0, die := 0, core := 0, d, poison := false, bar := none,
    badBar := false, guard := .none, issuedOn := 0, away := [], act := 3, lanes := List.replicate 64 ⟨0, false⟩, fmt := 0, cfg := 0,
    sa := 0x3F80_0000, sb := 0x3F80_0000, mxi := false, seq := 0, since := 0, aged := false, steps := 0, started := false,
    completeAt := none, err := none, spoil := 0, clean := true, seqRead := none, tasks := [] }
/-- Its unit holds it, and its warp has it outstanding; the allocation holds sp. -/
def stE (c : Cmd) (sp : List Host.Cell := []) : State :=
  (stA [] (fun w => { w with ops := [⟨9, c.cls, false, none⟩] }) fun t => { t with size := 0x1_0000, sp := sp }).modCore 0 fun k =>
    match c.kind with
    | .cpLoad _ | .cpStore _ | .cpFill _ | .kvg _ => { k with cpQ := [c] }
    | .qst _ | .qexp _ | .vdec => { k with xfQ := [c] }
    | .rpscan => { k with rpQ := [c] }
    | _ => { k with kvQ := [c] }

theorem oldest_of {s : State} {c : Cmd} {wid : Nat}
    (h : (s.getTeam? c.team).any (fun x => x.image.isNone && x.status == .resident && x.wids[c.warp]? == some wid) = true)
    (l : (s.getWarp wid).ended = false) (o : ((s.getWarp wid).ops.filter fun o => o.cls == c.cls) = [⟨c.id, c.cls, false, none⟩])
    (q : (s.getWarp wid).storeQ = [] ∧ (s.getCore (State.orderCore wid)).order = []) : Oldest s c wid := by
  refine ⟨?_, l, ⟨[], o, fun _ h => by cases h⟩, q⟩
  cases k : s.getTeam? c.team with
  | none => simp [k] at h
  | some x => simp [k] at h; exact ⟨x, rfl, h.1.1, h.1.2, h.2⟩

/-- Two rows of 8 bytes, between device memory at 0x1_0100 and scratchpad word 4; and one of 256 bytes. -/
def copyWords : List Word := [0x1_0100, 0, 16, 8, 32, 16 + 2 * 2 ^ 21]
def longWords : List Word := [0x1_0100, 0, 16, 256, 0, 0]
theorem below4 {P : Nat → Prop} (h : P 0 ∧ P 1 ∧ P 2 ∧ P 3) : ∀ n, n < 4 → P n := by
  intro n hn
  match n with
  | 0 => exact h.1
  | 1 => exact h.2.1
  | 2 => exact h.2.2.1
  | 3 => exact h.2.2.2
theorem witness_copy : ∀ k ∈ [CmdKind.cpLoad true, .cpStore true, .cpFill true],
    let c := cmd 0 k copyWords
    ∃ x, executionContract (.cpExecution 0 0) c 0 = some x ∧ x.pre (stE c) := by
  intro k hk
  simp only [List.mem_cons, List.not_mem_nil, or_false] at hk
  rcases hk with rfl | rfl | rfl
  · exact ⟨_, rfl, ⟨by decide, ⟨⟨_, rfl⟩, .inl rfl⟩, by decide, oldest_of (by decide) (by decide) (by decide) (by decide)⟩,
      ⟨by decide, by intro u hu; cases hu; decide, by decide, (fun e h => by cases h),
        fun _ n hn => below4 (P := fun n => ∃ pa, cmdPhys _ _ _ (copyDev _ n) = some pa ∧ pa % 4 = 0)
          ⟨⟨_, rfl, by decide⟩, ⟨_, rfl, by decide⟩, ⟨_, rfl, by decide⟩, ⟨_, rfl, by decide⟩⟩ n hn.2.2, (fun h => by cases h)⟩⟩
  · exact ⟨_, rfl, ⟨by decide, ⟨⟨_, rfl⟩, .inl rfl⟩, by decide, oldest_of (by decide) (by decide) (by decide) (by decide)⟩,
      ⟨by decide, by intro u hu; cases hu; decide, by decide, (fun e h => by cases h),
        fun _ n hn => below4 (P := fun n => ∃ pa, cmdPhys _ _ _ (copyDev _ n) = some pa ∧ pa % 4 = 0)
          ⟨⟨_, rfl, by decide⟩, ⟨_, rfl, by decide⟩, ⟨_, rfl, by decide⟩, ⟨_, rfl, by decide⟩⟩ n hn.2.2,
        fun _ n m hn hm => (by decide : ∀ n < 4, ∀ m < 4, cmdPhys (stE (cmd 0 (.cpStore true) copyWords))
          (cmd 0 (.cpStore true) copyWords) .write (copyDev ((cmd 0 (.cpStore true) copyWords).copy true false) n) =
          cmdPhys (stE (cmd 0 (.cpStore true) copyWords)) (cmd 0 (.cpStore true) copyWords) .write
            (copyDev ((cmd 0 (.cpStore true) copyWords).copy true false) m) → n = m) n hn.2.2 m hm.2.2⟩⟩
  · exact ⟨_, rfl, ⟨by decide, ⟨⟨_, rfl⟩, .inl rfl⟩, by decide, oldest_of (by decide) (by decide) (by decide) (by decide)⟩,
      ⟨by decide, by intro u hu; cases hu; decide, by decide, (fun e h => by cases h), (fun h => absurd rfl h), (fun h => by cases h)⟩⟩
/-- A FILL of 64 words takes two cycles. -/
theorem witness_copy_long : let c := cmd 0 (.cpFill false) longWords
    ∃ x, executionContract (.cpExecution 0 0) c 0 = some x ∧ x.pre (stE c) ∧
      ¬ copyTotal (c.copy false true) ≤ c.steps + 32 :=
  ⟨_, rfl, ⟨⟨by decide, ⟨⟨_, rfl⟩, .inl rfl⟩, by decide, oldest_of (by decide) (by decide) (by decide) (by decide)⟩,
    ⟨by decide, (by intro u hu; cases hu; decide), by decide, (fun e h => by cases h), (fun h => absurd rfl h), (fun h => by cases h)⟩⟩,
    by decide⟩

/-- A code table with symbol 0 of code 0: CNT of length 1 is 1. -/
def vdecTable : List Host.Cell := [⟨0x100, 1⟩, ⟨0x120, 0x41⟩]
/-- A command of the transform pipe that has not started, or ends at a cycle, with its output words marked. -/
def pipeCmd (k : CmdKind) (d : List Word) (e : Option Nat) : Cmd := { cmd 2 k d with completeAt := e }
def stPipe (c : Cmd) (sp : List Host.Cell := []) : State :=
  (stE c sp).modTeam 0 fun t => { t with marks := (rangeWords c.xfOut).map fun w => (w, 9) }
theorem pipeTurn_of {c : Cmd} {sp : List Host.Cell} (q : c.core = 0 ∧ ((stPipe c sp).getCore 0).xfQ = [c])
    (o : Oldest (stPipe c sp) c 0) (h : c.badBar = false ∧ c.poison = false ∧ c.xfBad = false)
    (i : ((stPipe c sp).getTeam? c.team).all (fun u => (c.xfOut ++ c.xfIn).all (rangeIn u.size) &&
      u.marks.all fun m => m.2 == c.id) = true) (e : c.completeAt.all (· == 0) = true) :
    PipeTurn (stPipe c sp) 0 0 c 0 := by
  refine ⟨rfl, q.1.symm, ⟨by rw [q.1]; exact q.2, o, h, fun u hu => ?_⟩, fun k hk => ?_⟩
  · simp only [hu, Option.all_some, Bool.and_eq_true, List.all_eq_true, beq_iff_eq] at i
    exact i
  · simp only [hk, Option.all_some, beq_iff_eq] at e
    rw [e]; exact Nat.zero_le _
/-- The pipe starts on a command of each kind, and ends it. -/
theorem witness_pipe : ∀ e ∈ [none, some 0],
    (∀ b ∈ [false, true], ∃ x, executionContract (.qstExecution 0 0) (pipeCmd (.qst b) [0x100, 0x200] e) 0 = some x ∧
      x.pre (stPipe (pipeCmd (.qst b) [0x100, 0x200] e))) ∧
    (∀ b ∈ [false, true], ∃ x, executionContract (.qexpExecution 0 0) (pipeCmd (.qexp b) [0x100, 0x200, 0x400 + 2 ^ 21] e) 0 =
      some x ∧ x.pre (stPipe (pipeCmd (.qexp b) [0x100, 0x200, 0x400 + 2 ^ 21] e))) ∧
    ∃ x, executionContract (.vdecExecution 0 0) (pipeCmd .vdec [0x200, 0x300, 0x100, 2, 0x400] e) 0 = some x ∧
      x.pre (stPipe (pipeCmd .vdec [0x200, 0x300, 0x100, 2, 0x400] e) vdecTable) := by
  intro e he
  simp only [List.mem_cons, List.not_mem_nil, or_false] at he
  refine ⟨fun b hb => ⟨_, rfl, ?_, ?_⟩, fun b hb => ⟨_, rfl, ?_, ?_⟩, ⟨_, rfl, ?_, ?_, ?_⟩⟩
  · simp only [List.mem_cons, List.not_mem_nil, or_false] at hb
    rcases he with rfl | rfl <;> rcases hb with rfl | rfl <;>
      exact pipeTurn_of ⟨rfl, rfl⟩ (oldest_of (by decide) (by decide) (by decide) (by decide)) (by decide) (by decide) (by decide)
  · rcases he with rfl | rfl <;> revert b <;> decide
  · simp only [List.mem_cons, List.not_mem_nil, or_false] at hb
    rcases he with rfl | rfl <;> rcases hb with rfl | rfl <;>
      exact pipeTurn_of ⟨rfl, rfl⟩ (oldest_of (by decide) (by decide) (by decide) (by decide)) (by decide) (by decide) (by decide)
  · simp only [List.mem_cons, List.not_mem_nil, or_false] at hb
    intro u hu
    rcases he with rfl | rfl <;> rcases hb with rfl | rfl <;> cases hu <;> exact ⟨by decide, by decide, by decide⟩
  · rcases he with rfl | rfl <;>
      exact pipeTurn_of ⟨rfl, rfl⟩ (oldest_of (by decide) (by decide) (by decide) (by decide)) (by decide) (by decide) (by decide)
  · rcases he with rfl | rfl <;> decide
  · rcases he with rfl | rfl <;> exact ⟨_, rfl, by decide, by decide⟩

/-! ## Commands on block tables -/

/-- A sequence descriptor at 0x1_0400: its table at 0x1_0800 holds one entry of one token, in group 0, with the upper eight bytes
hi; two groups of which group 1 is free, two layers, rows of 8 bytes. -/
def stSeq (c : Cmd) (hi : Nat) (sp : List Host.Cell := []) : State :=
  ((((stE c sp).homeWrite 0x1_0400 (leBytes 8 0x1_0800 ++ leBytes 8 0x1_2000 ++ leBytes 8 0x1_1000 ++ leBytes 4 2 ++
    leBytes 4 0x2_0008 ++ leBytes 4 0x200 ++ leBytes 4 0 ++ leBytes 8 0x1_1100 ++ leBytes 4 1)).homeWrite 0x1_0800
      (leBytes 4 1 ++ leBytes 4 1)).homeWrite 0x1_0810 (leBytes 8 (2 ^ 56) ++ leBytes 8 hi)).homeWrite 0x1_1100 (leBytes 4 1)
/-- Its TPTR, its other words, and its entry with the upper bytes hi. -/
def seqPtr : DWord := 0x1_0800
def seqBytes : List Byte := leBytes 8 0x1_2000 ++ leBytes 8 0x1_1000 ++ leBytes 4 2 ++
  leBytes 4 0x2_0008 ++ leBytes 4 0x200 ++ leBytes 4 0 ++ leBytes 8 0x1_1100 ++ leBytes 16 1
def seqEntry (hi : Nat) : Entry := BitVec.ofNat 128 (hi * 2 ^ 64 + 2 ^ 56)

theorem cleanAt_of {s : State} {c : Cmd} {a : DWord} {bs : List Byte} (h : ((piecesOf a bs.length).all fun x =>
    match cmdPhys s c .read x.1 with
    | some pa => !s.homePoison (pa / 64) && s.homeRead pa x.2.2 == (bs.drop x.2.1).take x.2.2
    | none => false) = true) : CleanAt s c a bs := by
  intro x hx
  have k := List.all_eq_true.mp h x hx
  cases p : cmdPhys s c .read x.1 with
  | none => simp [p] at k
  | some pa => simp [p] at k; exact ⟨pa, rfl, k.1, k.2⟩
theorem spread_of {s : State} {c : Cmd} {a : DWord} {n pa : Nat} (m : pa % 64 = a.toNat % 64) (b : a.toNat + n < 2 ^ 64)
    (h : ∀ i < n, cmdPhys s c .write (a + BitVec.ofNat 64 i) = some (pa + i)) : Spread s c a n (pa + ·) := by
  refine ⟨h, fun i _ j _ e => by omega, fun i k _ _ => by omega, fun i hi => ?_⟩
  rw [BitVec.toNat_add, BitVec.toNat_ofNat]
  have : (a.toNat + i % 2 ^ 64) % 2 ^ 64 = a.toNat + i := by omega
  rw [this]; omega

def kvgWords : List Word := [0x1_0400, 0, 0x1000, 0x4000, 0x8000, 2 * 2 ^ 24]
/-- A KVG of two lanes with indexes i, which has made n turns. -/
def kvgCmd (keys : Bool) : Cmd := cmd 3 (.kvg keys) kvgWords
def kvgGoing (keys : Bool) (i : Lane) (n : Nat) : Cmd :=
  { kvgCmd keys with steps := n, started := true, seqRead := some (seqPtr, seqBytes, 1), lanes := List.replicate 64 i }
def kvgSt (c : Cmd) : State := stSeq c (2 ^ 32)

theorem seqTable_of {s : State} {c : Cmd} {tptr : DWord} {nent ntok : Nat} (z : nent < 2 ^ 32 ∧ ntok < 2 ^ 32)
    (h : CleanAt s c c.seqAddr (leBytes 8 tptr.toNat))
    (k : CleanAt s c (tptr &&& 0x0000FFFFFFFFFFF0#64) (leBytes 4 nent ++ leBytes 4 ntok ++ leBytes 8 0)) :
    SeqTable s c tptr nent ntok := ⟨h, z, leBytes 8 0, by decide, k⟩

set_option maxRecDepth 8000 in
/-- It starts. -/
theorem witness_kvg_start : ∀ keys, ∃ x, tableContract (.kvgExecution 0 0) (kvgCmd keys) 0 = some x ∧ x.pre (kvgSt (kvgCmd keys)) := by
  intro keys
  refine ⟨_, rfl, ⟨⟨rfl, rfl⟩, ⟨⟨[], by cases keys <;> rfl⟩, .inl rfl⟩, by cases keys <;> decide,
    oldest_of (by cases keys <;> decide) (by cases keys <;> decide) (by cases keys <;> decide) (by cases keys <;> decide)⟩, rfl,
    by cases keys <;> decide, seqPtr, 1, 1, seqBytes, seqTable_of (by decide) (cleanAt_of (by cases keys <;> decide +kernel))
      (cleanAt_of (by cases keys <;> decide +kernel)), .inr ⟨by cases keys <;> decide +kernel, by decide +kernel,
      cleanAt_of (by cases keys <;> decide +kernel)⟩, by cases keys <;> decide +kernel, ?_⟩
  intro u h
  cases keys <;> cases h <;> decide +kernel

/-- A KVG with index i that answers a stale entry of layer 1 as m says; the table's entry ends in hi. -/
def kvgTurn (i : Lane) (m : Nat) : Cmd :=
  { kvgGoing true i 0 with d := kvgWords.dropLast ++ [BitVec.ofNat 32 (2 * 2 ^ 24 + 2 ^ 16 + 2 ^ 6 * m)] }
/-- Such a turn may be taken. -/
def LaneTurn (i : Lane) (m hi : Nat) : Prop :=
  ∃ x, tableContract (.kvgExecution 0 0) (kvgTurn i m) 0 = some x ∧ x.pre (stSeq (kvgTurn i m) hi)
abbrev kvgDesc : SeqDesc := parseDesc seqPtr seqBytes
set_option maxRecDepth 8000 in
theorem laneTurn_of {i : Lane} {m hi : Nat} (h : ∃ f, LaneFate (stSeq (kvgTurn i m) hi) (kvgTurn i m) kvgDesc 1 0 f)
    (o : Oldest (stSeq (kvgTurn i m) hi) (kvgTurn i m) 0)
    (r' : ((stSeq (kvgTurn i m) hi).getCore 0).cpFree ≤ (stSeq (kvgTurn i m) hi).nowOf (64 * 0) := by decide)
    (q : ((stSeq (kvgTurn i m) hi).getCore 0).cpQ = [kvgTurn i m] := by rfl) : LaneTurn i m hi := by
  have r : (kvgTurn i m).seqRead = some (seqPtr, seqBytes, 1) := rfl
  have l : (kvgTurn i m).act.toList.drop (kvgTurn i m).steps = [0, 1] := by
    show (LaneSet.toList (3 : LaneSet)).drop 0 = _; decide
  have t : (kvgTurn i m).tasks = [] := rfl
  refine ⟨_, rfl, ?_⟩
  simp only [kvgContract, r, l, t]
  exact ⟨⟨⟨rfl, rfl⟩, ⟨⟨[], q⟩, .inl rfl⟩, r', o⟩, h⟩
theorem entryIs_of {s : State} {c : Cmd} {d : SeqDesc} {i : Nat} {e : Entry} {o : Word} (w : e.wf d.ngrp = true)
    (n : heldEntry s c d.version i = none) (h : CleanAt s c (d.entryAt i) e.bytes)
    (k : CleanAt s c (d.orig + BitVec.ofNat 64 (4 * e.group)) (leBytes 4 o.toNat)) : EntryIs s c d i e o := ⟨w, .inr ⟨n, h, k⟩⟩

set_option maxRecDepth 8000 in
/-- A poisoned index, one beyond the table, a malformed entry. -/
theorem witness_kvg_spoiled : LaneTurn ⟨0, true⟩ 0 0 ∧ LaneTurn ⟨1, false⟩ 0 0 ∧ LaneTurn ⟨0, false⟩ 0 (2 ^ 34) :=
  ⟨laneTurn_of ⟨_, .index (by decide)⟩ (oldest_of (by decide) (by decide) (by decide) (by decide)),
   laneTurn_of ⟨_, .beyond (by decide) (by decide)⟩ (oldest_of (by decide) (by decide) (by decide) (by decide)),
   laneTurn_of ⟨_, .malformed (seqEntry (2 ^ 34)) (by decide) (by decide) (by decide +kernel) (cleanAt_of (by decide +kernel))
    (by decide +kernel)⟩ (oldest_of (by decide) (by decide) (by decide) (by decide))⟩
set_option maxRecDepth 8000 in
/-- A stale entry with each answer to it. -/
theorem witness_kvg_stale : LaneTurn ⟨0, false⟩ 0 (2 ^ 33) ∧ LaneTurn ⟨0, false⟩ 1 (2 ^ 33) ∧ LaneTurn ⟨0, false⟩ 2 (2 ^ 33) :=
  ⟨laneTurn_of ⟨_, .stale (seqEntry (2 ^ 33)) 0 (by decide) (by decide) (entryIs_of (by decide +kernel) (by decide +kernel)
    (cleanAt_of (by decide +kernel)) (cleanAt_of (by decide +kernel))) (by decide +kernel) (by decide)⟩
    (oldest_of (by decide) (by decide) (by decide) (by decide)),
   laneTurn_of ⟨_, .quiet (seqEntry (2 ^ 33)) 0 (by decide) (by decide) (entryIs_of (by decide +kernel) (by decide +kernel)
    (cleanAt_of (by decide +kernel)) (cleanAt_of (by decide +kernel))) (by decide +kernel) (by decide)⟩
    (oldest_of (by decide) (by decide) (by decide) (by decide)),
   laneTurn_of ⟨_, .rows (seqEntry (2 ^ 33)) 0 (by decide) (by decide) (entryIs_of (by decide +kernel) (by decide +kernel)
    (cleanAt_of (by decide +kernel)) (cleanAt_of (by decide +kernel))) (fun _ => by decide)⟩
    (oldest_of (by decide) (by decide) (by decide) (by decide))⟩

/-- A KVG of keys and values with this left to write for its first lane. -/
def kvgLeft (xs : List KvTask) : Cmd := { kvgGoing false ⟨0, false⟩ 1 with tasks := xs }
set_option maxRecDepth 8000 in
/-- A slot of a row, one behind its entry's rows, one that receives nothing, and words. -/
theorem witness_kvg_gather : ∀ xs ∈ [[KvTask.gather 0 0 (some (seqEntry (2 ^ 32), 0)), .gather 0 1 (some (seqEntry (2 ^ 32), 0)),
      .gather 0 2 none], [.word 0x1000 ⟨7, false⟩]],
    ∃ x, tableContract (.kvgExecution 0 0) (kvgLeft xs) 0 = some x ∧ x.pre (kvgSt (kvgLeft xs)) := by
  intro xs hx
  simp only [List.mem_cons, List.not_mem_nil, or_false] at hx
  rcases hx with rfl | rfl <;>
    refine ⟨_, rfl, ⟨⟨rfl, rfl⟩, ⟨⟨[], rfl⟩, .inl rfl⟩, by decide, oldest_of (by decide) (by decide) (by decide) (by decide)⟩,
      by decide, by decide +kernel, fun x hx => ?_, by decide +kernel⟩
  · simp only [kvgLeft, List.mem_cons, List.not_mem_nil, or_false] at hx
    rcases hx with rfl | rfl | rfl
    · exact .inl ⟨0, 0, _, rfl, fun e o h _ => by cases h; unfold RowReads; exact ⟨by decide +kernel, fun _ => by decide +kernel⟩⟩
    · exact .inl ⟨0, 1, _, rfl, fun e o h k => by cases h; exact absurd k (by decide)⟩
    · exact .inl ⟨0, 2, _, rfl, fun e o h _ => by cases h⟩
  · simp only [kvgLeft, List.mem_cons, List.not_mem_nil, or_false] at hx
    exact .inr ⟨_, _, hx⟩
/-- It is over after its last lane. -/
theorem witness_kvg_done : ∃ x, tableContract (.kvgExecution 0 0) (kvgGoing true ⟨0, false⟩ 2) 0 = some x ∧
    x.pre (kvgSt (kvgGoing true ⟨0, false⟩ 2)) :=
  ⟨_, rfl, ⟨rfl, rfl⟩, ⟨⟨[], rfl⟩, .inl rfl⟩, by decide, oldest_of (by decide) (by decide) (by decide) (by decide)⟩

def kvsplCmd : Cmd := cmd 3 .kvspl [0x1_0400, 0, 2 ^ 20, 0, 0x1_0810, 0, 1, 0x1_0C00, 0, 8]
theorem below1 {P : Nat → Prop} (h : P 0) : ∀ n, n < 1 → P n := fun n hn => by
  have : n = 0 := by omega
  rw [this]; exact h
set_option maxRecDepth 8000 in
/-- An image before the one entry. -/
theorem witness_splice : ∃ x, tableContract (.kvsplExecution 0 0) kvsplCmd 0 = some x ∧ x.pre (stSeq kvsplCmd (2 ^ 32)) :=
  ⟨_, rfl, ⟨⟨rfl, rfl⟩, ⟨⟨[], rfl⟩, .inl rfl⟩, oldest_of (by decide) (by decide) (by decide) (by decide)⟩,
    seqPtr, 1, 1, seqBytes, fun _ => seqEntry (2 ^ 32), fun _ => seqEntry (2 ^ 32), 0, (0x1_0C00 + ·), 0x1_0400,
    { fields := by decide
      table := ⟨seqTable_of (by decide) (cleanAt_of (by decide +kernel)) (cleanAt_of (by decide +kernel)),
        ⟨by decide +kernel, cleanAt_of (by decide +kernel)⟩, by decide +kernel⟩
      entries := below1 ⟨cleanAt_of (by decide +kernel), by decide +kernel⟩
      images := fun n h => below1 (P := fun k => CleanAt (stSeq kvsplCmd (2 ^ 32)) kvsplCmd (kvsplCmd.dlist + BitVec.ofNat 64 (16 * k))
        (seqEntry (2 ^ 32)).bytes ∧ (seqEntry (2 ^ 32)).placed (parseDesc seqPtr seqBytes).ngrp = true)
        ⟨cleanAt_of (by decide +kernel), by decide +kernel⟩ n h
      origin := cleanAt_of (by decide +kernel)
      inside := by decide +kernel
      shift := by decide +kernel
      room := by decide +kernel
      places := spread_of (by decide) (by decide +kernel) (by decide +kernel)
      head := by decide +kernel
      apart := by decide +kernel }⟩

def kvmapCmd : Cmd := cmd 3 .kvmap [0x1_0400, 0, 2 ^ 20 + 2 * 2 ^ 16, 0, 0, 5, 0, 0]
set_option maxRecDepth 8000 in
theorem witness_kvmap : ∃ x, tableContract (.kvmapExecution 0 0) kvmapCmd 0 = some x ∧ x.pre (stSeq kvmapCmd (2 ^ 32)) :=
  ⟨_, rfl, ⟨⟨rfl, rfl⟩, ⟨⟨[], rfl⟩, .inl rfl⟩, oldest_of (by decide) (by decide) (by decide) (by decide)⟩,
    seqPtr, 1, 1, seqBytes, seqEntry (2 ^ 32), 0x1_0810,
    { fields := by decide
      table := ⟨seqTable_of (by decide) (cleanAt_of (by decide +kernel)) (cleanAt_of (by decide +kernel)),
        ⟨by decide +kernel, cleanAt_of (by decide +kernel)⟩, by decide⟩
      entry := cleanAt_of (by decide +kernel)
      valid := by decide +kernel
      place := by decide +kernel }⟩
def kvsdCmd : Cmd := cmd 3 .kvsd [0x1_0400, 0, 0, 1]
theorem witness_kvsd : ∃ x, tableContract (.kvsdExecution 0 0) kvsdCmd 0 = some x ∧ x.pre (stE kvsdCmd) :=
  ⟨_, rfl, ⟨⟨rfl, rfl⟩, ⟨⟨[], rfl⟩, .inl rfl⟩, oldest_of (by decide) (by decide) (by decide) (by decide)⟩, by decide, by decide⟩

def rpscanCmd : Cmd := cmd 3 .rpscan [0x1_0400, 0, 4, 0, 0, 0x100, 0x200]
/-- The fresh key row begins with 1.0, where zeros are stored. -/
def freshRow : List Host.Cell := [⟨2, 0x80⟩, ⟨3, 0x3F⟩]
def scanSt : State := stSeq rpscanCmd (2 ^ 32 + 2 ^ 31) freshRow
/-- The one token is selected, and its group, which is shared, is copied to group 1. -/
def oneScan : Scan := ⟨seqPtr, 1, 1, seqBytes, fun _ => seqEntry (2 ^ 32 + 2 ^ 31), fun _ => 0, fun _ => 1⟩
set_option maxRecDepth 8000 in
theorem witness_rpscan : ∃ x, tableContract (.rpscanExecution 0 0) rpscanCmd 0 = some x ∧ x.pre scanSt :=
  ⟨_, rfl, ⟨⟨rfl, rfl⟩, ⟨⟨[], rfl⟩, .inl rfl⟩, oldest_of (by decide) (by decide) (by decide) (by decide)⟩, by decide +kernel,
    (scanSt.getTeam? 0).get (by decide), oneScan, by decide +kernel,
    { fields := by decide +kernel
      table := ⟨seqTable_of (by decide) (cleanAt_of (by decide +kernel)) (cleanAt_of (by decide +kernel)),
        ⟨by decide +kernel, cleanAt_of (by decide +kernel)⟩, by decide +kernel, by decide +kernel⟩
      entries := below1 ⟨cleanAt_of (by decide +kernel), fun _ => ⟨by decide +kernel, cleanAt_of (by decide +kernel)⟩⟩
      fresh := by decide +kernel
      stored := by
        have : oneScan.toks = [(0, 0)] := by decide +kernel
        rw [this]; intro y hy; rw [List.mem_singleton.mp hy]; unfold RowReads; decide +kernel
      free := by decide +kernel
      pops := by
        intro k g h
        have e : oneScan.groups (oneScan.sel scanSt rpscanCmd (((scanSt.getTeam? 0).get (by decide)).recall rpscanCmd)) = [0] := by decide +kernel
        rw [e] at h
        have : k = 0 := by have := (List.getElem?_eq_some_iff.mp h).1; simp at this; omega
        subst this
        exact ⟨by decide +kernel, cleanAt_of (by decide +kernel), by cases h; exact cleanAt_of (by decide +kernel)⟩ }⟩

def rpdoneCmd : Cmd := cmd 3 .rpdone [0x1_0400, 0, 1, 0, 1]
set_option maxRecDepth 8000 in
theorem witness_rpdone : ∃ x, tableContract (.rpdoneExecution 0 0) rpdoneCmd 0 = some x ∧ x.pre (stSeq rpdoneCmd (2 * 2 ^ 32)) :=
  ⟨_, rfl, ⟨⟨rfl, rfl⟩, ⟨⟨[], rfl⟩, .inl rfl⟩, oldest_of (by decide) (by decide) (by decide) (by decide)⟩, by decide +kernel,
    seqPtr, 1, 1, seqBytes, fun _ => seqEntry (2 * 2 ^ 32), [0],
    { fields := by decide
      table := ⟨seqTable_of (by decide) (cleanAt_of (by decide +kernel)) (cleanAt_of (by decide +kernel)),
        ⟨by decide +kernel, cleanAt_of (by decide +kernel)⟩, by decide +kernel⟩
      range := by decide
      entries := fun i h => by rw [List.mem_singleton.mp h]; exact cleanAt_of (by decide +kernel)
      some' := ⟨0, by decide, by decide +kernel⟩
      level := by decide +kernel }⟩

/-- An RPSCAN and an RPDONE that have these writes left. -/
def scanLeft (xs : List KvTask) : Cmd := { rpscanCmd with started := true, tasks := xs }
def doneLeft (xs : List KvTask) : Cmd := { rpdoneCmd with started := true, tasks := xs }
theorem left_turns : ∀ xs, (TaskRuns (stE (scanLeft xs)) (scanLeft xs) (xs.headD (.list [])) ∧
      Oldest (stE (scanLeft xs)) (scanLeft xs) 0 →
        ∃ x, tableContract (.rpscanExecution 0 0) (scanLeft xs) 0 = some x ∧ x.pre (stE (scanLeft xs))) ∧
    (TaskRuns (stE (doneLeft xs)) (doneLeft xs) (xs.headD (.list [])) ∧ Oldest (stE (doneLeft xs)) (doneLeft xs) 0 →
        ∃ x, tableContract (.rpdoneExecution 0 0) (doneLeft xs) 0 = some x ∧ x.pre (stE (doneLeft xs))) := by
  intro xs
  refine ⟨fun h => ⟨_, rfl, ?_⟩, fun h => ⟨_, rfl, ?_⟩⟩ <;> cases xs with
  | nil => exact ⟨⟨rfl, rfl⟩, ⟨⟨[], rfl⟩, .inl rfl⟩, h.2⟩
  | cons => exact ⟨⟨⟨rfl, rfl⟩, ⟨⟨[], rfl⟩, .inl rfl⟩, h.2⟩, h.1⟩
/-- A write of each kind. -/
def oneTask : List KvTask := [.piece 0x1_0808 0x1_0C08 8, .row 0x1_0C3C [1, 2, 3, 4, 5, 6, 7, 8], .nfree 0, .entry 0x1_0810 0 7, .list [(1, 2)]]
theorem witness_task : ∀ x ∈ oneTask, TaskRuns (stE (scanLeft [x])) (scanLeft [x]) x ∧ Oldest (stE (scanLeft [x])) (scanLeft [x]) 0 := by
  intro x hx
  simp only [oneTask, List.mem_cons, List.not_mem_nil, or_false] at hx
  rcases hx with rfl | rfl | rfl | rfl | rfl <;> refine ⟨?_, oldest_of (by decide) (by decide) (by decide) (by decide)⟩
  · exact ⟨by decide, by decide, by decide, (0x1_0C08 + ·), spread_of (by decide) (by decide) (by decide)⟩
  · exact ⟨(0x1_0C3C + ·), spread_of (by decide) (by decide) (by decide)⟩
  · exact ⟨by decide, by decide⟩
  · exact ⟨by decide, by decide⟩
  · exact ⟨by decide, by decide, by decide⟩
theorem witness_task_done : (TaskRuns (stE (doneLeft [.entry 0x1_0810 0 7])) (doneLeft [.entry 0x1_0810 0 7]) (.entry 0x1_0810 0 7) ∧
      Oldest (stE (doneLeft [.entry 0x1_0810 0 7])) (doneLeft [.entry 0x1_0810 0 7]) 0) ∧
    TaskRuns (stE (scanLeft [])) (scanLeft []) (.list []) ∧ Oldest (stE (scanLeft [])) (scanLeft []) 0 :=
  ⟨⟨⟨by decide, by decide⟩, oldest_of (by decide) (by decide) (by decide) (by decide)⟩, ⟨by decide, by decide, by decide⟩,
    oldest_of (by decide) (by decide) (by decide) (by decide)⟩

/-- A command of the matrix engine in its table, in a crew with two banks. -/
def stMx (c : Cmd) : State := { stE c with crews := [⟨0, 0, 0, [0, 1]⟩] }.modCluster 0 fun k => { k with table := [c] }
def mxWords (k : CmdKind) : List Word :=
  match k with
  | .mxloop _ _ => [0, 0, 0, 0, 0, 0, 2 ^ 16 + 1, 0]
  | .mxdrain _ _ => [0, 512, 2 ^ 16]
  | _ => [0, 0, 2 ^ 16]
/-- A pass of each command; an MXLOOP goes on with its second K-step. -/
theorem witness_pass : ∀ k ∈ [CmdKind.mxzero 1, .mxloop true 0, .mxloop false 0, .mxlda 0, .mxdrain true 0, .mxdrain false 0],
    let c := cmd 1 k (mxWords k)
    ∃ x, matrixContract (.mxPass 0) c 0 = some x ∧ x.pre (stMx c) := by
  intro k hk
  simp only [List.mem_cons, List.not_mem_nil, or_false] at hk
  rcases hk with rfl | rfl | rfl | rfl | rfl | rfl <;>
    refine ⟨_, rfl, ⟨by decide, .inl ⟨by decide, 0, by decide, rfl⟩, by decide⟩, oldest_of (by decide) (by decide) (by decide) (by decide),
      fun _ => by decide, ?_, by decide, ?_, fun _ => rfl, ?_⟩ <;>
    first
    | exact .inl (by decide)
    | exact .inr ⟨1, rfl⟩
    | (intro h; decide)
    | (rintro ⟨z, b, h⟩; cases h)
/-- An MXLOOP of two K-steps that has made one. -/
def loopGoing : Cmd := { cmd 1 (.mxloop false 0) [0, 0, 0, 0, 0, 0, 2 * 2 ^ 16 + 1, 0] with started := true, steps := 1 }
theorem witness_pass_on : ∃ x, matrixContract (.mxPass 0) loopGoing 0 = some x ∧
    x.pre ((stMx loopGoing).modCluster 0 fun k => { k with mxPass := some (9, 3) }) :=
  ⟨_, rfl, ⟨by decide, .inr ⟨by decide, ⟨_, _, rfl⟩, 3, by decide⟩, by decide⟩, oldest_of (by decide) (by decide) (by decide) (by decide),
    (fun h => by cases h), .inl (by decide), by decide, fun _ => by decide, (fun h => absurd ⟨_, _, rfl⟩ h), (fun h => by obtain ⟨_, _, h⟩ := h; cases h)⟩
theorem witness_mx_aging : let c := cmd 1 (.mxzero 0) []
    ∃ x, matrixContract (.mxAging 0 0) c 0 = some x ∧ x.pre { stMx c with gu := 2 ^ 40 } := ⟨_, rfl, rfl, by decide⟩
theorem witness_mx_completion : ∀ k ∈ [CmdKind.mxzero 1, .mxloop true 0, .mxlda 0, .mxdrain true 0],
    let c := { cmd 1 k (mxWords k) with started := true, completeAt := some 5 }
    ∃ x, matrixContract (.mxCompletion 0 0) c 0 = some x ∧ x.pre { stMx c with gu := 2 ^ 40 } := by
  intro k hk
  simp only [List.mem_cons, List.not_mem_nil, or_false] at hk
  rcases hk with rfl | rfl | rfl | rfl <;>
    exact ⟨_, rfl, rfl, ⟨5, rfl, by decide⟩, oldest_of (by decide) (by decide) (by decide) (by decide), rfl, by decide⟩

/-- The hypotheses of `MatrixStep`, with two used quarters; a class of each rule. -/
theorem witness_step : (∀ u : Team, ([(0, u), (3, u)].map (·.1)).Nodup ∧ ∀ p ∈ [(0, u), (3, u)], p.1 < 4) ∧
    mxClass 0 ≠ 2 ∧ (∃ a < 16, mxClass a = 4) ∧ ∃ a < 16, mxClass a = 2 := by
  refine ⟨fun u => ⟨(by decide : [0, 3].Nodup), fun p h => ?_⟩, by decide, by decide, by decide⟩
  simp only [List.mem_cons, List.not_mem_nil, or_false] at h
  rcases h with rfl | rfl <;> simp

/-! ## Events of the issue path and of the memory system -/

/-- A result of w4 in flight, unfinished or ready. -/
def stPend (ready : Bool) (f : Warp → Warp := id) : State :=
  stW [] fun w => f { w with pend := [⟨1, .w 4, .shaped (u 7), .whole, none, ready, true⟩] }
/-- A request for n rows, queued at cycle 0, a while later. -/
def stRows (n : Nat) : State := { stW [] fun w => { w with rowReq := some ⟨n, 0, 0, false⟩, tvec := 0x2_0000 } with gu := 2 ^ 40 }

theorem witness_forced : ∃ c, issueContract (.forcedSwitch 0) = some c ∧ c.pre (stPend false fun w => { w with count := 23 }) :=
  ⟨_, rfl, ⟨⟨1, .w 4, .shaped (u 7), .whole, none, false, true⟩, by decide, rfl⟩, by decide, by decide⟩
theorem witness_result : ∃ c, issueContract (.variableLatencyResult 0 1) = some c ∧ c.pre (stPend true) :=
  ⟨_, rfl, ⟨1, .w 4, .shaped (u 7), .whole, none, true, true⟩, by decide, rfl, rfl, rfl, by decide⟩
theorem witness_grant : ∃ c, issueContract (.rowGrant 0) = some c ∧ c.pre (stRows 64) :=
  ⟨_, rfl, [], (0, (stRows 64).getWarp 0, ⟨64, 0, 0, false⟩), [], ⟨by decide, by decide, fun _ h => by cases h⟩, by decide⟩
theorem witness_aged : ∃ c, issueContract (.agedRequest 0) = some c ∧ c.pre (stRows 1) :=
  ⟨_, rfl, ⟨1, 0, 0, false⟩, by decide, by decide⟩
theorem witness_breaker : ∃ c, issueContract (.deadlockBreaker 0) = some c ∧ c.pre (stRows 1) :=
  ⟨_, rfl, by decide, by decide⟩
theorem witness_drowsy : ∃ c, issueContract (.bankDrowsy 0 31) = some c ∧
    c.pre { stPend true fun w => { w with rows := [⟨4, 31 * 64, 0, false⟩], parked := some (0, true) } with gu := 2 ^ 40 } := by
  refine ⟨_, rfl, fun e h _ => ⟨0, ?_, by decide⟩⟩
  revert e; decide
theorem witness_boost : ∃ c, issueContract (.boost 0 0) = some c ∧ c.pre { st with gu := 2 ^ 40 } := ⟨_, rfl, by decide⟩
theorem witness_due : ∃ c, issueContract (.timerPending 0) = some c ∧ c.pre (stW [] fun w => { w with deadline := 0 }) :=
  ⟨_, rfl, by decide, by decide⟩
theorem witness_timer : ∃ c, issueContract (.timerTrap 0 0) = some c ∧
    c.pre (stW [] fun w => { w with timerPending := true, tvec := 0x2_0000 }) :=
  ⟨_, rfl, _, rfl, by decide, by decide, by decide, by decide, by decide, by decide, by decide⟩

/-- The order of core 0 holds an entry, after one of another line. -/
def stOrder (op : StoreOp) : State := st.modCore 0 fun k => { k with order := [⟨0, 0, .clearLine 7⟩, ⟨1, 0, op⟩] }
theorem witness_perform : ∀ op ∈ [StoreOp.dev 0x1_0100 [1, 2], .rel State.scopePkg 0x1_0100 [1, 2, 3, 4], .rel 0 0x1_0100 [1],
    .clearLine 0x404, .writeBack 0x404, .spRemote 0 8 [1, 2], .signal true 0 5],
    ∃ c, storeContract (.storePerform 0 1) = some c ∧ c.pre (stOrder op) := by
  intro op h
  refine ⟨_, rfl, ⟨1, 0, op⟩, rfl, ?_⟩
  have k : ((stOrder op).getCore 0).order.take 1 = [⟨0, 0, .clearLine 7⟩] := rfl
  rw [NoneBefore, k]
  refine ⟨fun l x f m => ?_, fun team off bytes _ f m => by rw [List.mem_singleton.mp m]; rfl⟩
  rw [List.mem_singleton.mp m]
  have n : l ≠ 7 := by
    rintro rfl
    revert op; decide
  exact fun e => n (Option.some.inj e).symm
/-- A dirty byte of a line in the cache of die 1. -/
theorem witness_writeback : ∃ c, storeContract (.dieCacheWriteback 1 0x404 true) = some c ∧
    c.pre (st.modDie 1 fun d => { d with cache := [(0x404, ⟨5, 1, 1, true, true, [], [], []⟩)] }) := ⟨_, rfl, by decide, by decide⟩
theorem witness_drops : (∃ c, storeContract (.kvItemDrop 0 0) = some c ∧ c.pre st) ∧
    ∃ c, storeContract (.pageShootdown 0 0x1_0000) = some c ∧ c.pre st := ⟨⟨_, rfl, trivial⟩, ⟨_, rfl, trivial⟩⟩

/-- The store queue of warp 0 holds one entry, its result 1 in flight; nothing is in the order of its core. -/
def stQueue (op : StoreOp) : State := stA [] fun w => { w with
  storeQ := [⟨0, 0, op⟩], pend := [⟨1, .w 4, .shaped (v1 0), .whole, none, false, true⟩] }
def queueOps : List StoreOp := [.dev 0x1_0100 [1, 2], .rel 0 0x1_0100 [1, 2], .sp 0 8 [1, 2, 3, 4], .spRemote 0 8 [1, 2],
  .spRemote 7 8 [1, 2], .clearLine 0x404, .clearWord 0 2, .writeBack 0x404, .atom .add true State.scopePkg 0x1_0100 4 [⟨0, 3, 0⟩] [1],
  .atom .add64 false 0 0x1_0100 8 [⟨0, 3, 0⟩] [1], .atomSp .exch 0 8 [⟨0, 3, 0⟩] [1], .fence State.scopeCore, .fence State.scopePkg,
  .signal true 0 5, .signal false 3 5]
/-- An entry of each kind leaves, and its premises hold. -/
theorem witness_leaves : (∀ op ∈ queueOps, ((stQueue op).getWarp 0).storeQ = [⟨0, 0, op⟩] ∧
      ((stQueue op).getCore (State.orderCore 0)).order = [] ∧ CachesOk (stQueue op) ∧ (stQueue op).peerDown 0x1_0100 = false) ∧
    (stQueue (.spRemote 0 8 [1])).residesOn 0 0 = true ∧ (stQueue (.spRemote 7 8 [1])).residesOn 0 7 = false := by
  refine ⟨fun op h => ⟨rfl, rfl, caches_of rfl, ?_⟩, by decide, by decide⟩
  revert op; decide
/-- A word that is pending for command 9, and one that is not. -/
theorem witness_reads_word : ∃ u, (stA [] id fun t => { t with marks := [(2, 9)] }).getTeam? 0 = some u ∧ u.pending 2 = true ∧
    u.pending 3 = false := ⟨_, rfl, by decide, by decide⟩
/-- A cluster whose allowance is spent: role 0 is withheld, and one whose allowance is full. -/
theorem witness_unheld : isMgmt 0 = false ∧ (st.getCluster 0).cAt ≤ 3 ∧ ¬ (st.getWarp 0).role.toNat < (st.getCluster 0).levelAt 3 ∧
    let s := st.modCluster 0 fun k => { k with c := 0, c0 := 0, refill := 0 }
    (s.getCluster 0).cAt ≤ 3 ∧ (s.getWarp 0).role.toNat < (s.getCluster 0).levelAt 3 := by decide

/-! ## Events of the dispatcher and of the save engine -/

/-- The same with the management core of die 0 running. -/
def stRun (s : State) : State := s.modDie 0 fun d => { d with mgRun := true }

/-- Partition 0 holds cores 0 to 31, queues 0 to 15 and counters 0 to 7; a kernel of four lanes with a floor of one row stands at
0x1_0040; the record of queue 3 that comes next has the bytes b. -/
def stD (b : List Byte) (f : State → State := id) : State :=
  let s := (stA []).modPart 0 fun p =>
    { p with pctr := 0x8_0000, pque := 0x10_0000, pcore := [(0, 0xFFFF_FFFF)], saveBase := 0x10_0000, saveSize := 0x10_0000 }
  let s := s.modQueue 3 fun q => { q with enable := true, log2 := 4, wptr := 2, rptr := 1 }
  f ((s.homeWrite 0x1_0030 (leBytes 4 0x804)).homeWrite (2 ^ 60 + 128) b)
/-- A LAUNCH of one team on counter 1; an OPEN of counter 1 at level 1; a SEAL of it. -/
def launchBytes : List Byte := leBytes 4 0 ++ leBytes 4 1 ++ leBytes 8 0x1_0040 ++ leBytes 8 0x77 ++ leBytes 4 1 ++ leBytes 4 1
def openBytes : List Byte := leBytes 4 1 ++ leBytes 4 0x401
def sealBytes : List Byte := leBytes 4 2 ++ leBytes 4 1

theorem record_of {s : State} {q p : Nat} {b : List Byte} (h : s.queueHolder q = some p) (e : (s.getQueue q).enable = true)
    (r : (s.getQueue q).rptr ≠ (s.getQueue q).wptr)
    (k : s.homeRead (hostAddr (s.getQueue q).base + 128 * ((s.getQueue q).rptr.toNat % 2 ^ (s.getQueue q).log2)) 128 = b) :
    Record s q p b := ⟨h, e, r, k.symm⟩

def padded (b : List Byte) : List Byte := b ++ List.replicate (128 - b.length) 0
set_option maxRecDepth 8000 in
theorem witness_record : (∃ c, recordContract (.launch 3) = some c ∧ c.pre (stD launchBytes)) ∧
    (∃ c, recordContract (.openCtr 3) = some c ∧ c.pre (stD openBytes)) ∧
    ∃ c, recordContract (.seal 3) = some c ∧
      c.pre (stD sealBytes fun s => s.modCounter 1 fun k => { k with level := 1, done := false }) := by
  refine ⟨⟨_, rfl, 0, padded launchBytes, record_of ?_ ?_ ?_ ?_, ?_, ?_⟩, ⟨_, rfl, 0, padded openBytes, record_of ?_ ?_ ?_ ?_, ?_, ?_⟩,
    ⟨_, rfl, 0, padded sealBytes, record_of ?_ ?_ ?_ ?_, ?_, ?_⟩⟩ <;> first
    | decide +kernel
    | (intro _ r h; revert r; decide +kernel)

set_option maxRecDepth 8000 in
/-- They pass every check; a LAUNCH on a counter that the partition does not hold does not. -/
theorem witness_codes : (stD launchBytes).recordCode 0 (padded launchBytes) = 0 ∧ (stD openBytes).recordCode 0 (padded openBytes) = 0 ∧
    (stD openBytes).recordCode 0 (padded (leBytes 4 1 ++ leBytes 4 0x40B)) ≠ 0 := by decide +kernel

/-- Launch 5 of one team, in turn to be placed. -/
def stPlace : State := stD [] fun s => s.setLaunch 5 { State.placeLaunch with ctr := 1, nextTeam := 0, cores := [], lanes := 70, floor := 1, scratch := 4096 }
theorem witness_placement : ∃ c, placeContract (.teamPlacement 5 3) = some c ∧ c.pre stPlace :=
  ⟨_, rfl, by decide +kernel, by decide +kernel⟩
theorem witness_cancel_timeout : ∃ c, placeContract (.cancelTimeout 0) = some c ∧
    c.pre ({ stA [] id fun t => { t with req := some (.cancel, 0) } with gu := 200000 * Config.gUnit }) :=
  ⟨_, rfl, _, 0, rfl, rfl, rfl, by decide⟩
theorem witness_ccancel : ∃ c, placeContract (.ccancel 0 0x1_0000) = some c ∧ c.pre (stD []) := ⟨_, rfl, by decide, by decide, by decide⟩

/-- Team 0, with a launch 5 that waits for room on the one core of the partition; %gtime n. -/
def stReq (n prio : Nat) (g : Team → Team := id) : State :=
  let s := (stD [] fun s => s.setLaunch 5 { State.placeLaunch with ctr := 1, nextTeam := 0, cores := [], prio, scratch := 2 ^ 21 }).modTeam 0 g
  { s.modPart 0 fun p => { p with pcore := [(0, 1)] } with gu := n * Config.gUnit }
theorem witness_priority : ∃ c, requestContract (.priorityReq 0) = some c ∧ c.pre (stReq 0 3) :=
  ⟨_, rfl, _, ⟨rfl, rfl, rfl, .inr (by decide +kernel)⟩, by decide +kernel, by decide +kernel⟩
theorem witness_slice : ∃ c, requestContract (.sliceReq 0) = some c ∧ c.pre (stReq 2000000 0) :=
  ⟨_, rfl, _, ⟨rfl, rfl, rfl, .inr (by decide +kernel)⟩, by decide +kernel, by decide +kernel, by decide +kernel⟩
theorem witness_progress : ∃ c, requestContract (.progressReq 0) = some c ∧
    c.pre ((stReq 20000 0 fun t => { t with blocked := some 0, region := some (0x10_0000, 0x8000) }).setLaunch 0
      { State.placeLaunch with ncrew := 2 }) :=
  ⟨_, rfl, _, _, 0, ⟨rfl, rfl, rfl, .inl rfl⟩, rfl, by decide, rfl, .inl (by decide)⟩
theorem witness_migrate : ∃ c, requestContract (.migrateReq 0 0xC000_0040) = some c ∧ c.pre (stRun (stD [])) :=
  ⟨_, rfl, ⟨0, by decide, by decide⟩, by decide, by decide, by decide, by decide, 0, _, rfl, rfl, rfl⟩
theorem witness_full_save : ∃ c, requestContract (.fullSave 0) = some c ∧
    c.pre (stReq 200000 0 fun t => { t with req := some (.slice, 0) }) :=
  ⟨_, rfl, _, _, 0, rfl, rfl, rfl, by decide, by decide, by decide⟩

/-- Team 0 parked at a GBAR with a request. -/
def stPark (k : ReqKind) : State :=
  ((stReq 9 0 fun t => { t with req := some (k, 0), region := some (0x10_0000, 0x8000) })).modGang fun g =>
    { g with wait := some (.gbar 0) }
theorem witness_save : ∀ k ∈ [ReqKind.progress, .slice, .host], ∃ c, saveContract (.saveTeam 0) = some c ∧ c.pre (stPark k) := by
  intro k h
  simp only [List.mem_cons, List.not_mem_nil, or_false] at h
  rcases h with rfl | rfl | rfl <;> exact ⟨_, rfl, _, _, 0, rfl, rfl, by decide, by decide +kernel⟩
/-- Team 0 is out, and its core is free. -/
def stOut : State :=
  let s := stReq 9 0 fun t =>
    { t with status := .out, region := some (0x10_0000, 64), image := some ⟨.slice, [Warp.init], [none], [], [], false, [0], [], []⟩ }
  { s with warps := [] }
theorem witness_restore : ∃ c, saveContract (.restoreTeam 0 0) = some c ∧ c.pre stOut := by
  refine ⟨_, rfl, _, _, rfl, rfl, ⟨by decide +kernel, fun b h => ?_⟩, by decide +kernel, by decide +kernel⟩
  have : b = List.replicate 64 0 := by
    have k : stOut.homeRead 0x10_0000 64 = List.replicate 64 0 := by decide +kernel
    exact (Option.some.inj h).symm.trans k
  rw [this]
  decide

/-! ## Events of power control -/

theorem witness_budget : (∃ c, budgetContract (.pcap 500) = some c ∧ c.pre st) ∧
    (∃ c, budgetContract (.powerMeasurement 300) = some c ∧ c.pre { st with gu := 1000000 * Config.gUnit }) ∧
    ∃ c, budgetContract .allowanceRefill = some c ∧ c.pre st := ⟨⟨_, rfl, trivial⟩, ⟨_, rfl, by decide⟩, ⟨_, rfl, trivial⟩⟩

/-- Cluster 3 with a change, and the management cores running. -/
def stCl (f : Cluster → Cluster) : State := (st.modCluster 3 f).modDie 0 fun d => { d with mgRun := true }
/-- The clocks of the first quadrant of die 0 may rise, and those of a quadrant with a cluster at level 4 may not. -/
theorem witness_clocks : (stCl id).quadrantOf 3 = 0 ∧ Rises (stCl id) 0 0 ∧ ((stCl id).getDie 0).qclk.length = 4 ∧
    ((stCl id).getDie 0).qcyc.length = 4 ∧ ((stCl id).getDie 0).mgRun = true ∧
    ¬ Rises (stCl fun k => { k with level := 4 }) 0 0 := by
  simp only [Rises]
  decide +kernel
theorem witness_lending : (∃ c, lendingContract (.epoch 0) = some c ∧ c.pre { st with gu := 1000 * Config.gUnit }) ∧
    (∃ c, lendingContract (.recall 3) = some c ∧ c.pre (stCl fun k => { k with recallAt := some 0 })) ∧
    (∃ c, lendingContract (.recall 3) = some c ∧ c.pre (stCl fun k => { k with lent := 5, full := false })) ∧
    ∀ v ∈ [0, 1, 2], ∃ c, lendingContract (.lendt 3 v) = some c ∧ c.pre (stRun st) :=
  ⟨⟨_, rfl, by decide⟩, ⟨_, rfl, by decide⟩, ⟨_, rfl, by decide⟩, fun _ _ => ⟨_, rfl, 0, by decide, by decide⟩⟩

theorem witness_gating : (∀ i ∈ [Instr.qreq 3 0, .qreq 3 1, .rsaveSave 3, .rsaveRestore 3, .clkg 3 0, .clkg 3 1],
      ∃ c, gatingContract i = some c ∧ c.pre (stRun st)) ∧
    (∃ c, gatingContract (.rsaveDone 3) = some c ∧ c.pre (stCl fun k => { k with busy := some (true, 0) })) ∧
    (∃ c, gatingContract (.rsaveDone 3) = some c ∧
      c.pre (stCl fun k => { k with busy := some (false, 0), saved := some ⟨[some 31, none, none, some 0], [true], 0⟩ })) ∧
    (∃ c, gatingContract (.rail 3 1) = some c ∧ c.pre (stCl fun k => { k with gate := true })) ∧
    (∃ c, gatingContract (.rail 3 0) = some c ∧ c.pre (stCl fun k => { k with railOff := true })) ∧
    ∃ c, gatingContract (.railRampDone 3) = some c ∧ c.pre (stCl fun k => { k with ramp := true }) := by
  refine ⟨?_, ⟨_, rfl, by decide, 0, .inl (by decide)⟩, ⟨_, rfl, by decide, 0, .inr ⟨by decide, _, rfl, ?_⟩⟩,
    ⟨_, rfl, ⟨0, by decide, by decide⟩, by decide, show _ ∧ _ by decide⟩,
    ⟨_, rfl, ⟨0, by decide, by decide⟩, by decide, show _ ∧ _ by decide⟩, ⟨_, rfl, by decide⟩⟩
  · intro i hi
    simp only [List.mem_cons, List.not_mem_nil, or_false] at hi
    rcases hi with rfl | rfl | rfl | rfl | rfl | rfl <;> exact ⟨_, rfl, 0, by decide, by decide⟩
  · intro q hq p
    have : q = 0 ∨ q = 1 ∨ q = 2 ∨ q = 3 := by omega
    rcases this with rfl | rfl | rfl | rfl <;> intro h <;> cases h <;> decide

theorem witness_wake : (∃ c, wakeContract (.wake 3 0x5_0003) = some c ∧ c.pre (stRun st)) ∧
    (∃ c, wakeContract (.wakeTimer 3) = some c ∧ c.pre { stCl fun k => { k with wakeAt := some 0, ticks := 2 } with gu := 2000 * Config.gUnit }) ∧
    (∃ c, wakeContract (.hwake 3 1) = some c ∧ c.pre st) ∧ ∀ x ∈ [1679, 1680, 1600], ∃ c, wakeContract (.tempSample 3 x) = some c ∧ c.pre st :=
  ⟨⟨_, rfl, 0, by decide, by decide⟩, ⟨_, rfl, 0, by decide, by decide⟩, ⟨_, rfl, by decide⟩, fun _ _ => ⟨_, rfl, trivial⟩⟩

/-- A source that fired in cluster 3, which is armed for it and stands still: its cycle is over, or is not. -/
def stFired (n : Nat) : State := { stCl fun k => { k with gate := true, arm := 7, firing := [(0, 5)] } with gu := n }
theorem witness_latch : ((stFired (2 ^ 40)).getCluster 3).firing = [(0, 5)] ∧ 5 < (stFired (2 ^ 40)).nowOf 49152 ∧
    (stFired 0).nowOf 49152 ≤ 5 := by decide
/-- A launch of partition 0, which holds the cores of cluster 3 and finds no place there: they are gated. -/
def stDemand : State :=
  let s := (stCl fun k => { k with gate := true, closed := true, arm := 1 }).modPart 0 fun p => { p with pcore := [(0, 0xF000)] }
  { s with launches := [(5, { State.placeLaunch with nextTeam := 0 })] }
/-- The same once DEMAND has fired for that team. -/
def stHeld : State := stDemand.modCluster 3 fun k => { k with asked := [(5, none, 0)] }
theorem witness_demand : stDemand.clusters.keys.Nodup ∧ (∃ k, stDemand.clusters.find? 3 = some k ∧ k.gate = true ∧ k.arm.getLsbD 0 = true ∧
    (5, none, 0) ∉ k.asked ∧ (5, { State.placeLaunch with nextTeam := 0 }) ∈ stDemand.launches ∧
    stDemand.offerOf 5 { State.placeLaunch with nextTeam := 0 } = some none ∧ stDemand.placeable 5 none = false ∧ stDemand.clusterPart 3 = some 0) ∧
    ∃ k, stHeld.clusters.find? 3 = some k ∧ k.gate = true ∧ k.arm.getLsbD 0 = true ∧
      ∀ id l o, (id, l) ∈ stHeld.launches → stHeld.offerOf id l = some o → stHeld.placeable id o = false →
        stHeld.clusterPart 3 = some l.part → (id, o, l.nextTeam) ∈ k.asked := by
  refine ⟨by decide, ⟨_, rfl, by decide, by decide, by decide, by decide, by decide, by decide +kernel, by decide +kernel⟩, _, rfl,
    by decide, by decide, fun id l o h => ?_⟩
  have h : (id, l) ∈ [(5, { State.placeLaunch with nextTeam := 0 })] := h
  obtain ⟨rfl, rfl⟩ := Prod.mk.inj (List.mem_singleton.mp h)
  intro ho _ _
  have : some o = some none := ho.symm.trans (by decide)
  cases this
  decide

/-! ## Events of the host -/

theorem witness_queue : (∀ v ∈ [1, 17, 18], ∃ c, queueContract (.wptr 0 3 v) = some c ∧ c.pre (stD [])) ∧
    (∀ v ∈ [4, 16, 17, 0x104], ∃ c, queueContract (.qcfg 0 15 v) = some c ∧ c.pre (stD [])) ∧
    (∃ c, queueContract (.qref 0 3) = some c ∧ c.pre st) ∧ ∃ c, queueContract (.qwake 0 3) = some c ∧ c.pre st :=
  ⟨fun _ _ => ⟨_, rfl, show _ = _ by decide⟩, fun _ _ => ⟨_, rfl, show _ = _ by decide⟩, ⟨_, rfl, trivial⟩, ⟨_, rfl, trivial⟩⟩

/-- Warp 0 stands parked with a record in slot 2 of the ring of partition 0. -/
def faultRec (code : BitVec 8) : FaultRec := recordOf st code 0x5_0000 1
def stFault (code : BitVec 8) : State :=
  (stW [] fun w => { w with fault := some (faultRec code), tvec := 0x2_0000 }).modPart 0 fun p =>
    { p with outstanding := [⟨2, 0, 0, faultRec code⟩] }
theorem stFault_out : ∀ c ∈ [0x20, cSYSREQ], Outstanding (stFault c) 0 2 ⟨2, 0, 0, faultRec c⟩ ∧ RecordWarp (stFault c) ⟨2, 0, 0, faultRec c⟩ 0 := by
  intro c h
  simp only [List.mem_cons, List.not_mem_nil, or_false] at h
  rcases h with rfl | rfl <;> exact ⟨⟨rfl, by decide, rfl⟩, _, rfl, rfl, rfl⟩
theorem witness_answers : ∀ x ∈ [0x20, cSYSREQ], (∃ c, answerContract (.replayAns 0 2) = some c ∧ c.pre (stFault x)) ∧
    (∃ c, answerContract (.deliverAns 0 2) = some c ∧ c.pre (stFault x)) ∧
    (∃ c, answerContract (.killTeam 0 2) = some c ∧ c.pre (stFault x)) ∧
    ∃ c, answerContract (.killLaunch 0 2) = some c ∧ c.pre (stFault x) := by
  intro x hx
  have k := stFault_out x hx
  refine ⟨⟨_, rfl, _, 0, k⟩, ⟨_, rfl, _, 0, k.1, k.2, ?_, rfl, ?_⟩, ⟨_, rfl, _, k.1⟩, ⟨_, rfl, _, _, _, k.1, rfl, rfl, rfl, rfl⟩⟩
  · clear k; revert x; decide
  · show (0x2_0000 : DWord) ≠ 0
    decide

theorem witness_partition : (∃ c, partContract (.pctlSwitch 0) = some c ∧ c.pre st) ∧ ∃ c, partContract (.pctlResume 0) = some c ∧ c.pre st :=
  ⟨⟨_, rfl, trivial⟩, ⟨_, rfl, trivial⟩⟩
theorem witness_loading : (∃ c, loadContract (.firmwareLoad ⟨[1], [], 0x1000, 0x1000, 0x1000⟩) = some c ∧ c.pre st) ∧
    (∃ c, loadContract .fwdog = some c ∧ c.pre { st with gu := 100000000 * Config.gUnit, host := { st.host with fwstat := 1 } }) ∧
    (∃ c, loadContract (.attestationRequest (List.replicate 32 0)) = some c ∧ c.pre st) ∧
    (∃ c, loadContract (.bindObject ⟨[1], 0, 0, 0, 0x1_0000⟩) = some c ∧ c.pre st) ∧
    ∀ v ∈ [1, 64], ∃ c, loadContract (.osvnAdvance v) = some c ∧ c.pre st :=
  ⟨⟨_, rfl, by decide⟩, ⟨_, rfl, by decide⟩, ⟨_, rfl, rfl⟩, ⟨_, rfl, trivial⟩,
    fun v h => ⟨_, rfl, show _ ∧ _ by revert v; decide⟩⟩
/-- A code object of one word of code, with no relocation, that stands at the head of its signed bytes. -/
def codeObject : CodeObject :=
  ⟨leBytes 4 0x53594F31 ++ leBytes 4 1 ++ leBytes 4 1 ++ leBytes 4 0 ++ leBytes 8 4 ++ List.replicate 0x3C 0 ++ List.replicate 3309 0, 0,
    0x7_0000, 0x7_0000, 0x1_0000⟩
set_option maxRecDepth 40000 in
/-- It is bound if its signature is good, as far as the rules say. -/
theorem witness_bindable : HeaderGood codeObject ∧ st.host.osvn ≤ objField codeObject 8 4 ∧ State.pageFits (State.boundPage codeObject 0) = true ∧
    Config.backed codeObject.pa ((codeObject.bytes.drop 0x50).take (objField codeObject 0x10 8)).length = true :=
  ⟨⟨by decide +kernel, by decide +kernel, .inl (by decide +kernel), by decide +kernel, by decide +kernel, by decide +kernel, by decide +kernel⟩,
    by decide +kernel, by decide +kernel, by decide +kernel⟩
/-- The command that an error strikes. -/
theorem witness_struck : ∃ c, Struck (stE (cmd 0 (.cpFill false) longWords)) 9 c 0 :=
  ⟨_, rfl, oldest_of (by decide) (by decide) (by decide) (by decide)⟩
theorem witness_contain : (∀ i ∈ [Instr.cdbg 0 9, .linkDown 3, .linkRetryExhausted, .fatalErr none, .fatalErr (some 0),
      .uncorrectableError (.line 0x404), .patrolScrub [7], .dramCalibration 1, .telemetrySample],
      ∃ c, containContract i = some c ∧ c.pre st) ∧
    (∃ c, containContract (.uncorrectableError (.scratchWord 0 1023)) = some c ∧ c.pre stL) ∧
    (∃ c, containContract (.uncorrectableError (.warpState 0 0)) = some c ∧ c.pre st) ∧
    ∃ c, containContract (.coreReset 0) = some c ∧ c.pre (st.modCore 0 fun k => { k with fatal := true }) := by
  refine ⟨?_, ⟨_, rfl, _, rfl, by decide⟩, ⟨_, rfl, by decide⟩, ⟨_, rfl, by decide⟩⟩
  intro i hi
  simp only [List.mem_cons, List.not_mem_nil, or_false] at hi
  rcases hi with rfl | rfl | rfl | rfl | rfl | rfl | rfl | rfl | rfl <;> exact ⟨_, rfl, trivial⟩
theorem reached (a : MemAccess) (h : Config.backed (accessSpan a).1 (accessSpan a).2 = true) : Reached st a := by
  refine ⟨h, fun x _ _ => ?_⟩
  have : st.host.down = [] := by decide
  simp [State.peerDown, this]
theorem witness_outside : (∀ a ∈ [MemAccess.read 0x1_0000 8, .write 0x1_0000 [1, 2], .addAtomic 0x1_0000 4 1, .swapAtomic 0x1_0000 8 1,
      .casAtomic 0x1_0000 4 0 1], (∃ c, outsideContract (.hostAccess a) = some c ∧ c.pre st) ∧
      ∃ c, outsideContract (.peerAccess 2 a) = some c ∧ c.pre st) ∧
    ∃ c, outsideContract .powerUp = some c ∧ c.pre st := by
  refine ⟨?_, ⟨_, rfl, trivial⟩⟩
  intro a ha
  have r : Reached st a := reached a (by revert a; decide)
  refine ⟨⟨_, rfl, r⟩, ⟨_, rfl, r, by decide, ?_⟩⟩
  clear r; revert a; decide

/-! ## Registers that are written from outside -/

/-- One of each kind of register that is an event, at the last die, cluster, core, queue or partition. -/
theorem witness_register_events : WriteIs .window (3 * 2 ^ 24 + (0x100 + 47) * 2 ^ 12) 1 (.qreq 191 1) ∧
    WriteIs .window (3 * 2 ^ 24 + (0x100 + 47) * 2 ^ 12 + 0x10) 1 (.clkg 191 1) ∧
    WriteIs .window (3 * 2 ^ 24 + (0x100 + 47) * 2 ^ 12 + 0x14) 1 (.rail 191 1) ∧
    WriteIs .window ((0x100 + 47) * 2 ^ 12 + 8) 1 (.rsaveSave 47) ∧ WriteIs .window (0x100 * 2 ^ 12 + 8) 2 (.rsaveRestore 0) ∧
    WriteIs .window (3 * 2 ^ 24 + (0x200 + 191) * 2 ^ 12) 8 (.cdbg 767 8) ∧ WriteIs (.vf 31) 0x28 5 (.ccancel 31 5) ∧
    WriteIs (.vf 0) (0x10000 + 32 * 4095 + 0xC) 5 (.wptr 0 4095 5) ∧ WriteIs .pf 0 500 (.pcap 500) ∧
    WriteIs .pf (0x100000 + 0x1000 * 31) 1 (.pctlSwitch 31) ∧ WriteIs .pf (0x100000 + 0x1000 * 31) 2 (.pctlResume 31) :=
  ⟨.qreq 3 47 1 (by decide) (by decide), .clkg 3 47 1 (by decide) (by decide), .rail 3 47 1 (by decide) (by decide),
    .rsaveSave 0 47 (by decide) (by decide), .rsaveRestore 0 0 (by decide) (by decide), .cdbg 3 191 8 (by decide) (by decide),
    .ccancel 31 5, .wptr 0 4095 5 (by decide), .pcap 500, .pctlSwitch 31 (by decide), .pctlResume 31 (by decide)⟩
theorem witness_vf_fields : ∀ off ∈ [0x00, 0x04, 0x08, 0x10, 0x14, 0x18, 0x20], (vfWrite (st.getPart 0) off 12).isSome = true := by decide
/-- An answer to the record in slot 2. -/
theorem witness_freply : FreplyIs 0 2 0x0001_0002 (.deliverAns 0 2) ∧ FreplyIs 0 2 2 (.replayAns 0 2) ∧ FreplyIs 0 2 0x0002_0002 (.killTeam 0 2) ∧
    FreplyIs 0 2 0x0003_0002 (.killLaunch 0 2) ∧ ((stFault 0x20).faultIn 0 2).isSome = true :=
  ⟨.deliver (by decide), .replay (by decide), .killTeam (by decide), .killLaunch (by decide), by decide⟩
/-- Clocks of the die whose registers are read. -/
theorem witness_window_reads : (st.getDie 3).qclk.length = 4 := by decide

/-! ## Steps -/

/-- MUL, a 16-bit ADD and an unassigned word: placed, they issue in the first step. -/
def stStep (n w : Nat) : State := State.reset.withFetchWord n w
theorem issues_of {s : State} {rest : List Turn} (h : s.agenda = .issue 0 0 :: rest) (m : (atTurn s rest).mayIssue 0 0 = true)
    (f : (atTurn s rest).endsWait 0 0 = false) (n : (atCycle (atTurn s rest) 0 0).mayIssue 0 0 = true) (p : (atCycle (atTurn s rest) 0 0).picked 0 0 = true)
    (r : (atCycle (atTurn s rest) 0 0).rival 0 0 = none) (e : (atCycle (atTurn s rest) 0 0).timerDue 0 = false)
    (t : ((atCycle (atTurn s rest) 0 0).getWarp 0).timerTakeable = false) : Issues s rest 0 0 := ⟨h, m, f, n, p, r, e, t⟩
theorem witness_step_decoded : ∀ x ∈ [(32, 0x20C8_2101), (16, 0x2944), (32, 0x0000_02A1)],
    let s := stStep x.1 x.2
    Issues s [] 0 0 ∧ (comes (atIssue s [] 0 0) 0 0).map (·.1) = some (BitVec.ofNat 32 x.2, x.1 / 8) ∧
      Whole (BitVec.ofNat 32 x.2, x.1 / 8) ∧ Unheld (atIssue s [] 0 0) 0 0 (BitVec.ofNat 32 x.2, x.1 / 8) := by
  intro x hx
  simp only [List.mem_cons, List.not_mem_nil, or_false] at hx
  rcases hx with rfl | rfl | rfl <;>
    exact ⟨issues_of (by decide) (by decide +kernel) (by decide +kernel) (by decide +kernel) (by decide +kernel)
      (by decide +kernel) (by decide +kernel) (by decide +kernel), by decide +kernel,
      by unfold Whole; decide, .inl (by decide +kernel)⟩
/-- A gang that waits at TBWAIT for a phase that has passed ends it. -/
def stEnds : State := { stBar.modGang fun g => { g with wait := some (.tb 1 4), held := some (0x2041_0361, 4) } with
  agenda := [.issue 0 0] }
theorem witness_step_ends : Ends stEnds [] 0 0 ∧
    (State.gangOf ((atEnd stEnds [] 0).getWarp 0) 0).held = some (0x2041_0361, 4) ∧ Whole (0x2041_0361, 4) ∧
    decodeBytes (bytesOf (0x2041_0361, 4)) = .ok (.tbwait h0 1 1, 4) :=
  ⟨⟨rfl, by decide +kernel, by decide +kernel⟩, by decide +kernel, by unfold Whole; decide, by decide +kernel⟩
/-- The third of them is no instruction; WFE is none on a core. -/
theorem witness_step_refused : (decodeBytes (leBytes 4 0x0000_02A1)).toOption = none ∧ hostedBy 0 (.wfe h0 0) (leBytes 4 0x9000_1CA1) =
    .unimp 0x9000_1CA1 := by decide +kernel
theorem witness_step_events : ({ st with agenda := [.event (.qreq 3 1)] }).agenda = .event (.qreq 3 1) :: [] ∧
    (Instr.qreq 3 1).isEvent = true ∧ ({ st with agenda := [.idle 5] }).agenda = .idle 5 :: [] := by decide
/-- Reset, from which a step is taken. -/
theorem witness_memory_kept : Memory.wf State.reset.mem = true ∧ ∃ t, step State.reset = .next t := ⟨by decide, _, rfl⟩
theorem witness_encoded : ∀ i ∈ [Instr.add16 false 5 5, .mulW h0 2 8 3, .st h0 5 7 2 2 0, .fcvt h0 7 2 4 0 1 1],
    i.wf = true ∧ i.encode.isSome = true := by decide
theorem witness_decoded : ∀ bs ∈ [[0x44, 0x29], [0x01, 0x21, 0xC8, 0x20]], (decodeBytes bs).toOption.isSome = true := by decide

/-! ## Results of one instruction, from the rules -/

/-- The word in lane 0 of register n after an instruction. -/
def gives (i : Instr) (s : State) (n : Nat) (v : Word) : Bool :=
  match exec i s with
  | .next t => word t n 0 == v
  | _ => false
/-- The same for a pair. -/
def gives2 (i : Instr) (s : State) (n : Nat) (v : DWord) : Bool :=
  match exec i s with
  | .next t => dword t n 0 == v
  | _ => false

/-- R155: sums wrap, or saturate. -/
theorem test_add : gives (.addW h0 4 0 1) (stW [u 0xFFFF_FFFF, u 2]) 4 1 = true := by decide
theorem test_sub : gives (.subW h0 4 0 1) (stW [u 1, u 2]) 4 0xFFFF_FFFF = true := by decide
/-- R157: the quotient truncates, and the remainder has the sign of the dividend; division by zero. -/
theorem test_div : gives (.divS h0 4 0 1) (stW [u (-7), u 2]) 4 (-3) = true ∧
    gives (.divS h0 4 0 1) (stW [u 0x8000_0000, u (-1)]) 4 0x8000_0000 = true := by decide
theorem test_rem : gives (.remS h0 4 0 1) (stW [u (-7), u 2]) 4 (-1) = true ∧
    gives (.remN h0 4 0 1) (stW [u 9, u 0]) 4 9 = true := by decide
/-- R158: the whole of b is the shift amount. -/
theorem test_shl : gives (.shlW h0 4 0 1) (stW [u 1, u 32]) 4 0 = true := by decide
theorem test_sar : gives (.sarW h0 4 0 1) (stW [u 0x8000_0000, u 0x100]) 4 0xFFFF_FFFF = true := by decide
theorem test_abs : gives (.absS h0 4 0) (stW [u 0x8000_0000]) 4 0x8000_0000 = true := by decide
/-- R160's worked example of PRMT. -/
theorem test_prmt : gives (.prmt h0 4 0 2) (stW [u 0x8844_2211, u 0, u 0xDDCC_BBAA, u 0x1E08_0100]) 4 0x1100_AA11 = true := by decide
/-- R160: n' is cut to what stands above p. -/
theorem test_bfe : gives (.bfeS h0 4 0 1) (stW [u 0x8000_0000, u 0x81F]) 4 0xFFFF_FFFF = true := by decide
/-- R161. -/
theorem test_mulw : gives2 (.mulwS h0 4 0 1) (stW [u (-2), u 3]) 4 (-6) = true ∧
    gives2 (.mulwN h0 4 0 1) (stW [u 0xFFFF_FFFE, u 3]) 4 0x2_FFFF_FFFA = true := by decide
theorem test_sar64 : gives2 (.sar64 h0 4 0 2) (stW [u 0, u 0x8000_0000, u 64]) 4 0xFFFF_FFFF_FFFF_FFFF = true := by decide
/-- R203, RNE: 1 + 2^-24 rounds to 1; 1 / 3. -/
theorem test_fadd : gives (.fadd h0 4 0 1) (stW [u 0x3F80_0000, u 0x3380_0000]) 4 0x3F80_0000 = true := by decide
theorem test_fdiv : gives (.fdiv h0 4 0 1) (stW [u 0x3F80_0000, u 0x4040_0000]) 4 0x3EAA_AAAB = true := by decide

end Sys2Proof.Tests
end

section
/-! PROOF. Control flow (spec/04): instructions that change no register and whose gang goes on in sequence or elsewhere, and
the entry of a warp that takes its own trap (spec/05). -/

namespace Sys2Proof.SMap

variable {α : Type}

/-- The entry of an index in a map whose data are all changed by `f`. -/
theorem find?_map (m : SMap α) (f : α → α) (k : Nat) :
    find? (m.map fun e => (e.1, f e.2)) k = (find? m k).map f := by
  induction m with
  | nil => rfl
  | cons e rest ih =>
    simp only [List.map_cons, find?]
    split
    · rfl
    · exact ih

theorem get_map (m : SMap α) {f : α → α} {d : α} (hd : f d = d) (k : Nat) :
    get (m.map fun e => (e.1, f e.2)) k d = f (get m k d) := by
  unfold get
  rw [find?_map]
  cases find? m k with
  | none => exact hd.symm
  | some a => rfl

end Sys2Proof.SMap

namespace Sys2Proof.Machine

/-! ## Going on (R36, R38, R113) -/

namespace State

/-- The issue slot and the count that `goOn` leaves in the warp (R36, R38). -/
theorem goOn_issued (s : State) (h : Hdr) (n : Nat) (pc : DWord) : Claim.Issued s (s.goOn h n pc) h := by
  unfold Claim.Issued goOn countIssue
  simp

end State

/-! ## Every result visible, of a warp that has none in flight (R131) -/

/-- No entry stands before the last one that meets `f`, where none does. -/
theorem State.upToLast_none {l : List StoreEntry} {f : StoreEntry → Bool} (h : ∀ e ∈ l, f e = false) :
    State.upToLast l f = 0 := by
  unfold State.upToLast
  refine List.foldlRecOn _ _ (motive := (· = 0)) rfl fun n hn k _ => ?_
  subst hn
  split
  · rename_i e he
    simp [h e (List.mem_of_getElem? he)]
  · rfl

theorem State.drainUntil_none {s : State} {wid : Nat} {f : StoreEntry → Bool}
    (h : ∀ e ∈ (s.getWarp wid).storeQ, f e = false) : s.drainUntil wid f = s := by
  unfold State.drainUntil
  rw [State.upToLast_none h]
  rfl

theorem State.wakeFor_nil (s : State) (wid : Nat) : s.wakeFor wid [] = (0, s) := by
  unfold State.wakeFor State.wakeBanks
  split <;> simp

/-- Only the rows of a warp change that settles with no result in flight. -/
theorem Warp.settle_settled {w : Warp} (h : w.pend = []) (now : Nat) : ∃ rows, w.settle now = { w with rows := rows } := by
  have hw : settleList now w.pend [] w = w := by rw [h, settleList, ← h]
  unfold Warp.settle
  rw [hw]
  exact ⟨_, rfl⟩

theorem State.advanceTo_quiet (s : State) (wid c : Nat) : Quiet s (s.advanceTo wid c) :=
  Quiet.of_warps rfl (fun _ _ => rfl) rfl rfl rfl rfl rfl rfl rfl rfl rfl rfl rfl rfl rfl rfl

/-- A settled warp with no atomic in its store queue waits for nothing before its handler begins (R131). -/
theorem State.finishResults_settled {s : State} (hp : s.w.pend = []) (hq : ∀ e ∈ s.w.storeQ, isAtom e = false) :
    Quiet s (s.finishResults s.cur.wid) ∧ (s.finishResults s.cur.wid).fresh = s.fresh ∧
      ∃ rows, (s.finishResults s.cur.wid).w = { s.w with rows := rows } := by
  have hp' : (s.getWarp s.cur.wid).pend = [] := hp
  unfold finishResults
  rw [drainUntil_none hq]
  dsimp only
  rw [hp']
  simp only [List.filter_nil, List.map_nil, wakeFor_nil]
  set u := s.advanceTo s.cur.wid _ with hu
  have huw : u.w = s.w := by simp [hu]
  refine ⟨(advanceTo_quiet s _ _).trans (modW_quiet u _), rfl, ?_⟩
  obtain ⟨rows, hr⟩ := Warp.settle_settled hp (u.nowOf s.cur.wid)
  refine ⟨rows, (modW_w u _).trans ?_⟩
  have hw : { s.w with pend := s.w.pend.map fun e => { e with vis := some (e.vis.getD (s.nowOf s.cur.wid)) } } = s.w := by
    rw [hp, List.map_nil, ← hp]
  rw [huw, hw, hr]

/-! ## Entering a handler (R116, R131) -/

/-- A gang entry of a warp that has discarded what it fetched ahead (R116). -/
theorem Warp.gangOf_sync (w : Warp) (n g : Nat) : State.gangOf (w.sync n) g =
    { State.gangOf w g with
      loops := unbuffered (State.gangOf w g).loops
      held := if (State.gangOf w g).wait.isSome then (State.gangOf w g).held else none } :=
  SMap.get_map w.gangs (f := fun e : Gang =>
    { e with loops := unbuffered e.loops, held := if e.wait.isSome then e.held else none }) rfl g

/-- The gang entries of a warp that enters its handler in gang g (R131). -/
theorem Warp.gangOf_enterHandler (w : Warp) (now : When) (n g k : Nat) (pc : DWord) (word : Word) (len : BitVec 3)
    (t : TrapInfo) : State.gangOf (w.enterHandler now n g pc word len t) k =
      if g = k then { (State.gangOf (w.sync n) g).moved w.tvec ⟨now.cycle + 12, now.age + 12, 0⟩ with fmt := 0, loops := [] }
      else State.gangOf (w.sync n) k :=
  State.gangOf_set (w.sync n) g k _

theorem State.setWarp_quiet {s : State} {i : Nat} (h : s.cur.wid = i) (w : Warp) : Quiet s (s.setWarp i w) := by
  subst h
  exact modW_quiet s fun _ => w

theorem State.fresh_quiet (s : State) (n : Nat) : Quiet s { s with fresh := n } :=
  Quiet.of_warps rfl (fun _ _ => rfl) rfl rfl rfl rfl rfl rfl rfl rfl rfl rfl rfl rfl rfl rfl

/-- A settled warp that takes a trap itself enters its handler, and nothing else changes (R131). -/
theorem State.takeTrap_w {s : State} {c : TrapInfo} (hp : s.w.pend = []) (hq : ∀ e ∈ s.w.storeQ, isAtom e = false)
    (hr : s.w.routed c.cause = false) : Quiet s (s.takeTrap c) ∧
      ∃ rows now, (s.takeTrap c).w =
        Warp.enterHandler { s.w with rows := rows } now s.fresh s.cur.g s.cur.pc s.cur.word s.curLen c := by
  obtain ⟨hquiet, hf, rows, hw⟩ := finishResults_settled hp hq
  unfold takeTrap enterTrap
  dsimp only
  set u := s.finishResults s.cur.wid
  have hcur : u.cur.wid = s.cur.wid := by rw [hquiet.cur]
  have hown : u.getWarp s.cur.wid = { s.w with rows := rows } := by rw [← hw, ← hcur]; rfl
  rw [hown, hf, if_neg (by rw [Bool.not_eq_true]; exact hr)]
  have hset (w : Warp) : Quiet s (u.setWarp s.cur.wid w) := hquiet.trans (setWarp_quiet hcur w)
  refine ⟨(hset _).trans (fresh_quiet _ _), rows, u.whenIn s.cur.wid 0, ?_⟩
  unfold w
  simp [getWarp, setWarp, hquiet.cur]

end Sys2Proof.Machine

namespace Sys2Proof.Claim

open Sys2Proof.Machine

/-! ## An instruction with no register result -/

/-- From `s`, the current instruction has changed nothing so far but units, the allowance of its cluster, and the loop stack
of its gang, which is `l`. -/
structure OnlyLoops (s u : State) (l : List LoopRec) : Prop where
  quiet : State.Quiet s u
  now : u.now = s.now
  warp : ∃ gs, u.w = { s.w with gangs := gs }
  gang : u.gang = { s.gang with loops := l }
  others : ∀ g, g ≠ s.cur.g → State.gangOf u.w g = State.gangOf s.w g

namespace OnlyLoops
variable {s u : State} {l : List LoopRec}

theorem refl (s : State) : OnlyLoops s s s.gang.loops := ⟨State.Quiet.refl s, rfl, ⟨s.w.gangs, rfl⟩, rfl, fun _ _ => rfl⟩

/-- The warp stays as it is. -/
theorem same (o : OnlyLoops s u l) {v : State} (hq : State.Quiet u v) (hn : v.now = u.now) (hw : v.w = u.w) :
    OnlyLoops s v l :=
  ⟨o.quiet.trans hq, hn.trans o.now, by rw [hw]; exact o.warp, (State.gang_eq hw hq.cur).trans o.gang, by
    rw [hw]; exact o.others⟩

theorem debitW (o : OnlyLoops s u l) (n : Nat) : OnlyLoops s (u.debitW n) l :=
  o.same (State.debitW_quiet u n) (by simp) (by simp)

theorem usedIssue (o : OnlyLoops s u l) : OnlyLoops s u.usedIssue l :=
  o.same (State.usedIssue_quiet u) (by simp) (by simp)

/-- The loop stack of the gang becomes another. -/
theorem modLoops (o : OnlyLoops s u l) (f : List LoopRec → List LoopRec) :
    OnlyLoops s (u.modGang fun g => { g with loops := f g.loops }) (f l) := by
  obtain ⟨gs, hw⟩ := o.warp
  refine ⟨o.quiet.trans (State.modGang_quiet u _), o.now, ?_, ?_, fun g hg => ?_⟩
  · exact ⟨_, by rw [State.modGang_w, hw]⟩
  · rw [State.modGang_gang, o.gang]
  · rw [State.modGang_w, State.gangOf_set, if_neg (by rw [o.quiet.cur]; exact hg.symm), o.others g hg]

/-- The instruction completes: the frame, with the gang at `pc`. -/
theorem goOn (o : OnlyLoops s u l) (h : Hdr) (n : Nat) (pc : DWord) : KeepsTo s (u.goOn h n pc) [] pc l := by
  have hcur : u.cur = s.cur := o.quiet.cur
  have hq : State.Quiet s (u.goOn h n pc) := o.quiet.trans (State.goOn_quiet u h n pc)
  obtain ⟨gs, hu⟩ := o.warp
  obtain ⟨c, ni, r, m, hw⟩ := State.goOn_w u h n pc
  have hgang (k : Nat) : State.gangOf (u.goOn h n pc).w k =
      if s.cur.g = k then Gang.moved { s.gang with loops := l } pc m else State.gangOf s.w k := by
    rw [hw, ← o.gang, ← hcur]
    refine (State.gangOf_set u.w u.cur.g k (u.gang.moved pc m)).trans ?_
    split
    · rfl
    · rename_i hk
      exact o.others k (by rw [← hcur]; exact Ne.symm hk)
  have hown : (u.goOn h n pc).gang = Gang.moved { s.gang with loops := l } pc m := by
    unfold State.gang
    rw [hq.cur, hgang, if_pos rfl]
    rfl
  rw [hu] at hw
  have hregs : Warp.SameRegs (Claim.warp (u.goOn h n pc)) (Claim.warp s) := by
    unfold Claim.warp
    exact Warp.issued_congr (by rw [hw]; exact ⟨rfl, rfl, rfl, rfl, rfl, rfl⟩) (by rw [hw])
  exact {
    regs := ⟨fun k _ => hregs.wReg k, fun k _ => hregs.tReg k, fun k _ => hregs.pReg k, fun k _ _ _ => hregs.bReg k⟩
    special := by rw [hw]; constructor <;> rfl
    goes := by
      constructor
      case others => exact fun k hk => by rw [hgang, if_neg hk.symm]
      all_goals rw [hown]; rfl
    outside := sameOutside_of hq (by rw [hw]) (by rw [hw]) (by rw [hw]) }

/-- It completes by a taken transfer: no end test (R113). -/
theorem retireTo (o : OnlyLoops s u l) (h : Hdr) (n : Nat) (pc : DWord) : KeepsTo s (u.retireTo h n pc) [] pc l :=
  o.usedIssue.goOn h n pc

/-- What retiring in sequence is: the loop stack and the address that the end test of R113 gives. -/
theorem retireBy_eq (o : OnlyLoops s u l) (h : Hdr) (least : Nat) : ∃ v n, OnlyLoops s v (loopTest s.cur.pc l).1 ∧
    u.retireBy h least = v.goOn h n ((loopTest s.cur.pc l).2.getD s.seqPc) := by
  have hseq : u.seqPc = s.seqPc := by unfold State.seqPc; rw [o.quiet.cur]
  refine ⟨_, max least (if leavesLoop s.cur.pc l then 3 else 1),
    (o.modLoops fun _ => (loopTest s.cur.pc l).1).usedIssue, ?_⟩
  unfold State.retireBy
  dsimp only
  rw [hseq, o.quiet.cur, o.gang]

/-- It completes, and its gang goes on in sequence, through the end test of R113. -/
theorem retire (o : OnlyLoops s u l) (h : Hdr) :
    KeepsTo s (u.retire h) [] ((loopTest s.cur.pc l).2.getD s.seqPc) (loopTest s.cur.pc l).1 := by
  obtain ⟨v, n, ov, he⟩ := o.retireBy_eq h 1
  unfold State.retire
  rw [he]
  exact ov.goOn h n _

/-- It has issued in this cycle (R36, R38). -/
theorem goOn_issued (o : OnlyLoops s u l) (h : Hdr) (n : Nat) (pc : DWord) : Issued s (u.goOn h n pc) h := by
  obtain ⟨gs, hw⟩ := o.warp
  have hi := State.goOn_issued u h n pc
  unfold Issued at hi ⊢
  rw [o.now, hw] at hi
  exact hi

theorem retire_issued (o : OnlyLoops s u l) (h : Hdr) : Issued s (u.retire h) h := by
  obtain ⟨v, n, ov, he⟩ := o.retireBy_eq h 1
  unfold State.retire
  rw [he]
  exact ov.goOn_issued h n _

end OnlyLoops

/-! ## Taking a trap (R131) -/

/-- What `TrapRec.of` puts into the trap record is what R131 names; the saved FMT and LOOPS are told apart. -/
theorem recorded_of {s t : State} {c : TrapInfo} {old : TrapRec} {fmt : BitVec 17} {loops : List LoopRec}
    (h : t.w.trap = { old.of s.cur.g s.cur.pc s.cur.word s.curLen c with savedFmt := fmt, savedLoops := loops }) :
    Recorded s t c := by
  constructor <;> simp [h, TrapRec.of, State.curLen]

/-- The gang of the current instruction once the warp has discarded what it fetched ahead. -/
theorem gangOf_dropped (s : State) : State.gangOf (dropped s) s.cur.g =
    { s.gang with loops := unbuffered s.gang.loops, held := if s.gang.wait.isSome then s.gang.held else none } :=
  Warp.gangOf_sync s.w s.fresh s.cur.g

theorem Takes.not_routed {s : State} (ht : Takes s) {cause : BitVec 8} (hc : cause ≠ cBANKV) :
    s.w.routed cause = false := by
  rw [Warp.routed, beq_eq_false_iff_ne.2 hc, ht.user, beq_eq_false_iff_ne.2 ht.vector]
  rfl

/-- A settled warp that takes its traps itself enters its handler. -/
theorem takeTrap_enters {s : State} (hp : s.w.pend = []) (ht : Takes s) {c : TrapInfo} (hc : c.cause ≠ cBANKV) :
    Enters s (s.takeTrap c) c := by
  obtain ⟨hq, rows, now, hw⟩ := State.takeTrap_w (c := c) hp ht.noAtoms (ht.not_routed hc)
  set t := s.takeTrap c
  have hgangs (k : Nat) := Warp.gangOf_enterHandler { s.w with rows := rows } now s.fresh s.cur.g k s.cur.pc s.cur.word
    s.curLen c
  have hfmt : (State.gangOf (dropped s) s.cur.g).fmt = s.gang.fmt := by rw [gangOf_dropped]
  have hloops : (State.gangOf (dropped s) s.cur.g).loops = unbuffered s.gang.loops := by rw [gangOf_dropped]
  have hslices : (State.gangOf (dropped s) s.cur.g).slices = s.gang.slices := by rw [gangOf_dropped]
  have hinner : (State.gangOf (dropped s) s.cur.g).inner = s.gang.inner := by rw [gangOf_dropped]
  have hgang : t.gang = { (State.gangOf (dropped s) s.cur.g).moved s.w.tvec ⟨now.cycle + 12, now.age + 12, 0⟩ with
      fmt := 0, loops := [] } := by
    unfold State.gang
    rw [hq.cur, hw, hgangs, if_pos rfl]
    rfl
  have hregs : Warp.SameRegs (Claim.warp t) (Claim.warp s) := by
    unfold Claim.warp
    exact Warp.issued_congr (by rw [hw]; exact ⟨rfl, rfl, rfl, rfl, rfl, rfl⟩) (by rw [hw]; rfl)
  exact {
    mode := by rw [hw]; rfl
    record := recorded_of (by rw [hw]; rfl)
    saved := by
      rw [hw]
      exact ⟨hfmt, hloops⟩
    fresh := by rw [hgang]; exact ⟨rfl, rfl, rfl, rfl, rfl⟩
    ahead := by rw [hw]; rfl
    same := by
      rw [hgang]
      exact ⟨hslices, hinner⟩
    others := fun k hk => by
      rw [hw, hgangs, if_neg hk.symm]
      rfl
    regs := ⟨fun k _ => hregs.wReg k, fun k _ => hregs.tReg k, fun k _ => hregs.pReg k, fun k _ _ _ => hregs.bReg k⟩
    special := by rw [hw]; constructor <;> rfl
    outside := sameOutside_of hq (by rw [hw]; rfl) (by rw [hw]; rfl) (by rw [hw]; rfl) }

/-! ## BRA, RET, LOOPX and NOP -/

theorem exec_bra (h : Hdr) (o : BitVec 22) (s : State) :
    exec (.bra h o) s = .next ((s.debitW 1).retireTo h 3 (s.target o.toInt)) := by rfl

/-- RET to an even address. -/
theorem exec_ret_even (h : Hdr) (a : BitVec 6) {s : State} (he : (s.rdb a.toNat).getLsbD 0 = false) :
    exec (.ret h a) s = .next ((s.debitW 1).retireTo h 3 (s.rdb a.toNat)) := by
  change execRet h a s = _
  unfold execRet
  dsimp only
  rw [he]
  rfl

/-- RET to an odd address. -/
theorem exec_ret_odd (h : Hdr) (a : BitVec 6) {s : State} (ho : (s.rdb a.toNat).getLsbD 0 = true) :
    exec (.ret h a) s = .next (s.takeTrap { precise s cALIGN with faddr := s.rdb a.toNat }) := by
  change execRet h a s = _
  unfold execRet
  dsimp only
  rw [ho]
  rfl

theorem exec_loopx (h : Hdr) (s : State) :
    exec (.loopx h) s = .next (((s.modGang fun g => { g with loops := g.loops.tail }).debitW 1).retire h) := by rfl

theorem exec_nop (h : Hdr) (s : State) : exec (.nop h) s = .next ((s.debitW 1).retire h) := by rfl

/-- A well-formed RET names one of the 16 base registers. -/
theorem ret_wf (h : Hdr) (a : BitVec 6) : (Instr.ret h a).wf = decide (a.toNat < 16) := by
  have he : (Instr.ret h a).fieldError = firstError [(decide (15 < a.toNat), .baseRegister)] := rfl
  have h16 : decide (a.toNat < 16) = !decide (15 < a.toNat) := by
    rw [← decide_not, decide_eq_decide]
    omega
  rw [Instr.wf, he, h16]
  cases decide (15 < a.toNat) <;> rfl

/-- R106. -/
theorem bra_jumps (h : Hdr) (o : BitVec 22) (s : State) :
    ∃ t, exec (.bra h o) s = .next t ∧ Jumps s t (s.cur.pc + BitVec.ofInt 64 (2 * o.toInt)) [] :=
  ⟨_, exec_bra h o s, ((OnlyLoops.refl s).debitW 1).retireTo h 3 _⟩

/-- R121, to an even address. -/
theorem ret_jumps (h : Hdr) (a : BitVec 6) {s : State} (hs : s.w.pend = []) (he : (base s a.toNat).getLsbD 0 = false) :
    ∃ t, exec (.ret h a) s = .next t ∧ Jumps s t (base s a.toNat) [] := by
  rw [← rdb_eq hs] at he ⊢
  exact ⟨_, exec_ret_even h a he, ((OnlyLoops.refl s).debitW 1).retireTo h 3 _⟩

/-- R121, to an odd address. -/
theorem ret_traps (h : Hdr) (a : BitVec 6) {s : State} (hs : s.w.pend = []) (ho : (base s a.toNat).getLsbD 0 = true)
    (ht : Takes s) : Traps (.ret h a) s { precise s cALIGN with faddr := base s a.toNat } := by
  rw [← rdb_eq hs] at ho ⊢
  exact ⟨_, exec_ret_odd h a ho, takeTrap_enters hs ht (show cALIGN ≠ cBANKV by decide)⟩

/-- The top record is popped before the end test can see it (R115). -/
theorem loopx_pops (h : Hdr) (s : State) : ∃ t, exec (.loopx h) s = .next t ∧
    KeepsTo s t [] ((loopTest s.cur.pc s.gang.loops.tail).2.getD s.seqPc) (loopTest s.cur.pc s.gang.loops.tail).1 :=
  ⟨_, exec_loopx h s, (((OnlyLoops.refl s).modLoops List.tail).debitW 1).retire h⟩

/-- R123, with GAP and SW as R36 and R38 read them. -/
theorem nop_issues (h : Hdr) (s : State) : ∃ t, exec (.nop h) s = .next t ∧ Keeps s t [] ∧ Issued s t h :=
  have o := (OnlyLoops.refl s).debitW 1
  ⟨_, exec_nop h s, o.retire h, o.retire_issued h⟩

/-- Settles O24: each instruction is one of the shared ways to complete, from a state in which it has changed the loop stack
of its gang at most; an odd target of RET is a trap that the warp takes. -/
theorem branchRules : Obligations.BranchRules := by
  unfold Obligations.BranchRules
  refine ⟨fun h o s => ⟨rfl, fun _ => bra_jumps h o s⟩, fun h a s => ⟨rfl, ret_wf h a, ?_, ?_⟩,
    fun h s => ⟨rfl, fun _ => loopx_pops h s⟩, fun h s => ⟨rfl, fun _ => nop_issues h s⟩⟩
  · exact fun hr he => ret_jumps h a hr.settled he
  · exact fun hr ho ht => ret_traps h a hr.settled ho ht

end Sys2Proof.Claim
end

section
/-! PROOF. Traps (spec/05): what a store that leaves its queue leaves alone, a core that stops (R130), a trap that goes to the
system handler (R131, R133), and BRK and TSET (R138, R144). -/

namespace Sys2Proof.Machine

/-! ## What one warp's stores leave alone (R255, R256) -/

/-- From `s` on, of the warps only `wid` has changed; and no core was stopped or resumed. -/
structure State.ActsFor (wid : Nat) (s t : State) : Prop where
  cur : t.cur = s.cur
  warps : ∀ i, i ≠ wid → t.getWarp i = s.getWarp i
  snaps : ∀ c, (t.getCore c).snap = (s.getCore c).snap

namespace State.ActsFor
variable {wid : Nat} {s t u : State}

theorem of_eq (hw : t.warps = s.warps) (hc : t.cur = s.cur) (hk : t.cores = s.cores) : ActsFor wid s t :=
  ⟨hc, fun i _ => getWarp_eq hw i, fun c => by simp only [getCore, hk]⟩

theorem refl (s : State) : ActsFor wid s s := of_eq rfl rfl rfl

theorem trans (h : ActsFor wid s t) (k : ActsFor wid t u) : ActsFor wid s u :=
  ⟨k.cur.trans h.cur, fun i hi => (k.warps i hi).trans (h.warps i hi), fun c => (k.snaps c).trans (h.snaps c)⟩

/-- Something else has changed before. -/
theorem before (k : ActsFor wid t u) (hw : t.warps = s.warps) (hc : t.cur = s.cur) (hk : t.cores = s.cores) :
    ActsFor wid s u := (of_eq hw hc hk).trans k

theorem foldl {α : Type} {f : State → α → State} (hf : ∀ s a, ActsFor wid s (f s a)) (l : List α) :
    ∀ s, ActsFor wid s (l.foldl f s) := by
  induction l with
  | nil => exact refl
  | cons a l ih => exact fun s => (hf s a).trans (ih _)

theorem modWarp (s : State) (f : Warp → Warp) : ActsFor wid s (s.modWarp wid f) :=
  ⟨rfl, fun i hi => by simp [State.modWarp, hi.symm], fun _ => rfl⟩

theorem modCore (s : State) (c : Nat) {f : Core → Core} (hf : ∀ k, (f k).snap = k.snap) :
    ActsFor wid s (s.modCore c f) :=
  ⟨rfl, fun _ _ => rfl, fun i => by
    simp only [getCore, State.modCore, setCore, SMap.get_set]
    split
    · rename_i h
      subst h
      exact hf _
    · rfl⟩

theorem modTeam (s : State) (i : Nat) (f : Team → Team) : ActsFor wid s (s.modTeam i f) :=
  of_eq (by simp) (by simp) (by simp)

theorem noted (s : State) (src line : Nat) : ActsFor wid s (s.noted src line) :=
  of_eq (by simp) (by simp) (by simp)

theorem homeStore (s : State) (src pa : Nat) (bytes : List Byte) : ActsFor wid s (s.homeStore src pa bytes) :=
  of_eq (by simp) (by simp) (by simp)

theorem dieWrite (s : State) (d pa : Nat) (bytes : List Byte) : ActsFor wid s (s.dieWrite d pa bytes) := by
  unfold State.dieWrite
  dsimp only
  split
  · exact of_eq rfl rfl rfl
  · exact homeStore s d pa bytes

theorem dieSetPoison (s : State) (d line : Nat) (p : Bool) : ActsFor wid s (s.dieSetPoison d line p) := by
  unfold State.dieSetPoison
  split <;> exact of_eq rfl rfl rfl

theorem setHomePoison (s : State) (line : Nat) (p : Bool) : ActsFor wid s (s.setHomePoison line p) :=
  of_eq rfl rfl rfl

theorem linkLost (s : State) (x : PeerStore) : ActsFor wid s (s.linkLost x) :=
  (modTeam s x.team _).trans (of_eq rfl rfl rfl)

theorem writeBackLine (s : State) (d line : Nat) : ActsFor wid s (s.writeBackLine d line) := by
  unfold State.writeBackLine
  split
  · exact refl s
  · rename_i l _
    split
    · exact refl s
    · dsimp only
      split
      · exact (foldl linkLost l.stores (s.setLine d line _)).before rfl rfl rfl
      · split
        · refine trans ?_ (setHomePoison _ line _)
          exact (noted _ d line).before rfl rfl rfl
        · exact (noted _ d line).before rfl rfl rfl

/-- The copy of a line goes. -/
theorem expelLine (s : State) (d line : Nat) : ActsFor wid s (s.expelLine d line) :=
  (writeBackLine s d line).trans (of_eq rfl rfl rfl)

theorem saw (s : State) (d line : Nat) : ActsFor wid s (s.saw d line) := of_eq rfl rfl rfl

theorem writeBackAll (s : State) (d scope : Nat) : ActsFor wid s (s.writeBackAll d scope) :=
  foldl (fun s l => writeBackLine s d l) _ s

theorem peerWrite (s : State) (d pa : Nat) (bytes : List Byte) (x : PeerStore) :
    ActsFor wid s (s.peerWrite d pa bytes x) := by
  unfold State.peerWrite
  split
  · exact linkLost s x
  · dsimp only
    split
    · exact (dieWrite s d pa bytes).trans (of_eq rfl rfl rfl)
    · exact dieWrite s d pa bytes

theorem linkError (s : State) (w pa : Nat) : ActsFor wid s (s.linkError w pa) := by
  unfold State.linkError
  split
  · exact linkLost s _
  · exact refl s

theorem performOp (s : State) (core : Nat) (e : StoreEntry) : ActsFor wid s (s.performOp core e) := by
  unfold State.performOp
  dsimp only
  cases e.op with
  | dev _ _ => exact peerWrite s _ _ _ _
  | rel _ _ _ =>
    dsimp only
    split
    · exact (peerWrite s _ _ _ _).trans (writeBackLine _ _ _)
    · exact peerWrite s _ _ _ _
  | clearLine _ =>
    dsimp only
    split
    · exact peerWrite s _ _ _ _
    · exact (peerWrite s _ _ _ _).trans (dieSetPoison _ _ _ _)
  | writeBack _ => exact writeBackLine s _ _
  | spRemote _ _ _ => exact modTeam s _ _
  | _ => exact refl s

theorem storeLeaves (s : State) (core k : Nat) : ActsFor wid s (s.storeLeaves core k) := by
  unfold State.storeLeaves
  dsimp only
  split
  · exact refl s
  · split
    · refine trans (modCore s core ?_) (performOp _ core _)
      exact fun _ => rfl
    · exact refl s

theorem leaveFirst (core n : Nat) : ∀ s : State, ActsFor wid s (s.leaveFirst core n) := by
  induction n with
  | zero => exact refl
  | succ n ih => exact fun s => (storeLeaves s core 0).trans (ih _)

theorem flushWhere (s : State) (core : Nat) (f : StoreEntry → Bool) : ActsFor wid s (s.flushWhere core f) :=
  leaveFirst core _ s

theorem flushOrder (s : State) (w : Nat) : ActsFor wid s (s.flushOrder w) := leaveFirst _ _ s

theorem release (s : State) (w d scope : Nat) : ActsFor wid s ((s.flushOrder w).writeBackAll d scope) :=
  (flushOrder s w).trans (writeBackAll _ d scope)

theorem fillResults (s : State) (res : List Nat) (vals : List (Nat × DWord × Bool)) :
    ActsFor wid s (s.fillResults wid res vals) := modWarp s _

theorem raiseCause (s : State) (p k : Nat) : ActsFor wid s (s.raiseCause p k) := by
  unfold State.raiseCause
  dsimp only
  split <;> exact of_eq rfl rfl rfl

theorem orWake (s : State) (mgmt : Bool) (target : Nat) (v : Word) : ActsFor wid s (s.orWake mgmt target v) := by
  unfold State.orWake wakeQueue wakeDie
  split
  · exact of_eq rfl rfl rfl
  · split
    · exact refl s
    · dsimp only
      split
      · exact (raiseCause _ _ 4).before rfl rfl rfl
      · exact of_eq rfl rfl rfl

/-- An atomic on device memory, once what the core order holds of its line is performed, and at home its copy is gone
(R268). -/
theorem atomDevice (s : State) (op : AtomOp) (scope pa size : Nat) (ls : List AtomLane) (res : List Nat) :
    ActsFor wid s (s.atomDevice wid op scope pa size ls res) := by
  unfold State.atomDevice
  dsimp only
  generalize (decide (scopePkg ≤ scope) || (Config.homeDie pa).isNone) = home
  have hflush : ActsFor wid s (s.flushLine (orderCore wid) (pa / 64)) := flushWhere s _ _
  generalize s.flushLine (orderCore wid) (pa / 64) = u at hflush ⊢
  have hplace : ActsFor wid u (if home then u.expelLine (dieOf wid) (pa / 64) else u) := by
    split
    · exact expelLine u _ _
    · exact refl u
  have hsaw := (hflush.trans hplace).trans (saw _ (dieOf wid) (pa / 64))
  generalize State.saw _ (dieOf wid) (pa / 64) = v at hsaw ⊢
  generalize (if home then v.homePoison (pa / 64) else v.diePoison (dieOf wid) (pa / 64)) = poisoned
  cases poisoned with
  | true => exact (hsaw.trans (fillResults v res _)).trans (linkError _ wid pa)
  | false =>
    refine (hsaw.trans ?_).trans (fillResults _ res _)
    generalize atomRun op ls _ false = run
    split
    · split
      · exact homeStore v _ _ _
      · exact dieWrite v _ _ _
    · exact refl v

theorem atomScratch (s : State) (op : AtomOp) (team off : Nat) (ls : List AtomLane) (res : List Nat) :
    ActsFor wid s (s.atomScratch wid op team off ls res) := by
  unfold State.atomScratch
  split
  · exact refl s
  · dsimp only
    split
    · exact fillResults s res _
    · split
      · exact (fillResults (s.setTeam team _) res _).before rfl rfl rfl
      · exact fillResults s res _

theorem ordered (s : State) (c : Nat) (e : StoreEntry) :
    ActsFor wid s (s.modCore c fun k => { k with order := k.order ++ [e] }) := modCore s c fun _ => rfl

/-- Whatever stands at the head of a warp's store queue. -/
theorem enterOp (s : State) (e : StoreEntry) : ActsFor wid s (s.enterOp wid e) := by
  unfold State.enterOp
  dsimp only
  cases e.op with
  | dev _ _ => exact ordered s _ e
  | clearLine _ => exact ordered s _ e
  | writeBack _ => exact ordered s _ e
  | spRemote _ _ _ =>
    dsimp only
    split
    · exact (flushWhere s _ _).trans (performOp _ _ e)
    · exact ordered s _ e
  | rel scope _ _ => exact (release s wid _ scope).trans (ordered _ _ e)
  | sp _ _ _ => exact (flushWhere s _ _).trans (modTeam _ _ _)
  | clearWord _ _ => exact (flushWhere s _ _).trans (modTeam _ _ _)
  | atom _ rel scope _ _ _ _ =>
    cases rel with
    | false => exact atomDevice s _ _ _ _ _ _
    | true => exact (release s wid _ scope).trans (atomDevice _ _ _ _ _ _ _)
  | atomSp _ _ _ _ _ => exact (flushWhere s _ _).trans (atomScratch _ _ _ _ _ _)
  | fence scope =>
    dsimp only
    split
    · exact refl s
    · exact release s wid _ scope
  | signal _ _ _ => exact (release s wid _ _).trans (orWake _ _ _ _)

theorem drainOne (s : State) : ActsFor wid s (s.drainOne wid) := by
  unfold State.drainOne
  split
  · exact refl s
  · exact (modWarp s _).trans (enterOp _ _)

theorem drainN (n : Nat) : ∀ s : State, ActsFor wid s (s.drainN wid n) := by
  induction n with
  | zero => exact refl
  | succ n ih => exact fun s => (drainOne s).trans (ih _)

theorem wakeFor (s : State) (w : Nat) (ds : List Dest) : ActsFor wid s (s.wakeFor w ds).2 := by
  unfold State.wakeFor wakeBanks
  split
  · exact refl s
  · split
    · exact refl s
    · exact modCore s _ (f := fun k => { k with awake := k.awake ||| _ }) fun _ => rfl

/-- Every register result of the warp becomes visible. -/
theorem finishResults (s : State) : ActsFor wid s (s.finishResults wid) := by
  unfold State.finishResults
  dsimp only
  refine trans ?_ (modWarp _ _)
  exact ((drainN _ s).trans (wakeFor _ wid _)).trans (of_eq rfl rfl rfl)

end State.ActsFor

/-! ## A core stops (R130) -/

namespace State

/-- In `t` the warp of the current instruction stands as in `s`: only its rows and its clock may differ; and no core was
stopped or resumed. -/
structure Stands (s t : State) : Prop where
  cur : t.cur = s.cur
  warp : ∃ rows frozen, t.w = { s.w with rows := rows, frozen := frozen }
  snaps : ∀ c, (t.getCore c).snap = (s.getCore c).snap

theorem Stands.refl (s : State) : Stands s s := ⟨rfl, ⟨s.w.rows, s.w.frozen, rfl⟩, fun _ => rfl⟩

theorem Stands.trans {s t u : State} (h : Stands s t) (k : Stands t u) : Stands s u := by
  obtain ⟨_, _, hw⟩ := h.warp
  obtain ⟨r, f, kw⟩ := k.warp
  exact ⟨k.cur.trans h.cur, ⟨r, f, by rw [kw, hw]⟩, fun c => (k.snaps c).trans (h.snaps c)⟩

/-- What another warp does leaves the current one as it is. -/
theorem ActsFor.stands {wid : Nat} {s t : State} (h : ActsFor wid s t) (hne : wid ≠ s.cur.wid) : Stands s t :=
  ⟨h.cur, ⟨s.w.rows, s.w.frozen, by unfold w; rw [h.cur]; exact h.warps _ hne.symm⟩, h.snaps⟩

/-- A warp whose results become visible and whose clock stops, be it the current one, which is settled and has no atomic in its
store queue, or another. -/
theorem freeze_stands {s : State} (hp : s.w.pend = []) (hq : ∀ e ∈ s.w.storeQ, isAtom e = false) (wid : Nat) :
    Stands s ((s.finishResults wid).freezeWarp wid) := by
  have hacts : ActsFor wid s ((s.finishResults wid).freezeWarp wid) :=
    (ActsFor.finishResults s).trans (ActsFor.modWarp _ _)
  by_cases hwid : wid = s.cur.wid
  · subst hwid
    obtain ⟨hquiet, _, rows, hw⟩ := finishResults_settled hp hq
    refine ⟨hacts.cur, ⟨rows, some ((s.finishResults s.cur.wid).wtime (s.finishResults s.cur.wid).w), ?_⟩, hacts.snaps⟩
    have hcur : (s.finishResults s.cur.wid).cur.wid = s.cur.wid := by rw [hquiet.cur]
    have hf : (s.finishResults s.cur.wid).freezeWarp s.cur.wid =
        (s.finishResults s.cur.wid).modW fun w => { w with frozen := some ((s.finishResults s.cur.wid).wtime w) } := by
      unfold modW freezeWarp
      rw [hcur]
    rw [hf, modW_w, hw]
  · exact hacts.stands hwid

/-- So with any number of warps in turn. -/
theorem foldl_freeze_stands {s : State} (hp : s.w.pend = []) (hq : ∀ e ∈ s.w.storeQ, isAtom e = false) (wids : List Nat) :
    Stands s (wids.foldl (fun s wid => (s.finishResults wid).freezeWarp wid) s) := by
  induction wids generalizing s with
  | nil => exact Stands.refl s
  | cons wid wids ih =>
    have h := freeze_stands hp hq wid
    obtain ⟨_, _, hw⟩ := h.warp
    exact h.trans (ih (by rw [hw]; exact hp) (by rw [hw]; exact hq))

/-- A core that SNAP stops: SNAP is 1, and the current warp, settled and with no atomic in its store queue, stands where it
did. -/
theorem snapCore_stands {s : State} (hp : s.w.pend = []) (hq : ∀ e ∈ s.w.storeQ, isAtom e = false) (core : Nat) :
    ((s.snapCore core).getCore core).snap = true ∧ (s.snapCore core).cur = s.cur ∧
      ∃ rows frozen, (s.snapCore core).w = { s.w with rows := rows, frozen := frozen } := by
  unfold snapCore
  split
  · rename_i hsnap
    exact ⟨hsnap, rfl, s.w.rows, s.w.frozen, rfl⟩
  · dsimp only
    set u := s.modCore core fun k => { k with snap := true } with hu
    have hsnap : (u.getCore core).snap = true := by simp [hu, getCore, modCore, setCore]
    have h := foldl_freeze_stands (s := u) hp hq (u.widsOn core)
    exact ⟨(h.snaps core).trans hsnap, h.cur, h.warp⟩

/-! ## A fault record (R133, R471, R473) -/

theorem partOf_congr {s t : State} {i : Nat} (ht : t.teams = s.teams) (h : (t.getWarp i).team = (s.getWarp i).team) :
    t.partOf i = s.partOf i := by
  unfold partOf getTeam?
  rw [h, ht]

@[simp] theorem raiseCause_warps (s : State) (p k : Nat) : (s.raiseCause p k).warps = s.warps := by
  unfold raiseCause
  dsimp only
  split <;> rfl

@[simp] theorem raiseCause_cur (s : State) (p k : Nat) : (s.raiseCause p k).cur = s.cur := by
  unfold raiseCause
  dsimp only
  split <;> rfl

@[simp] theorem raiseCause_teams (s : State) (p k : Nat) : (s.raiseCause p k).teams = s.teams := by
  unfold raiseCause
  dsimp only
  split <;> rfl

theorem raiseCause_getPart (s : State) (p k : Nat) :
    (s.raiseCause p k).getPart p = { s.getPart p with pint := (s.getPart p).pint ||| BitVec.twoPow 6 k } := by
  unfold raiseCause
  dsimp only
  split <;> simp [getPart, setPart, send]

@[simp] theorem postFault_warps (s : State) (p : Nat) (e : FaultEntry) : (s.postFault p e).warps = s.warps := by
  unfold postFault writeFault
  dsimp only
  split <;> simp

@[simp] theorem postFault_cur (s : State) (p : Nat) (e : FaultEntry) : (s.postFault p e).cur = s.cur := by
  unfold postFault writeFault
  dsimp only
  split <;> simp

@[simp] theorem postFault_teams (s : State) (p : Nat) (e : FaultEntry) : (s.postFault p e).teams = s.teams := by
  unfold postFault writeFault
  dsimp only
  split <;> simp

/-- The ring has room and no record waits: the record enters the ring, with cause bit 1. -/
theorem postFault_enters {s : State} {p : Nat} (e : FaultEntry) (hw : (s.getPart p).waiting = [])
    (hr : (s.getPart p).ringRoom = true) : (s.postFault p e).getPart p =
      { s.getPart p with
        fqwptr := (s.getPart p).fqwptr + 1
        outstanding := (s.getPart p).outstanding ++
          [{ e with slot := (s.getPart p).fqwptr.toNat % 2 ^ (s.getPart p).fqlog2 }]
        pint := (s.getPart p).pint ||| BitVec.twoPow 6 1 } := by
  unfold postFault
  dsimp only
  rw [if_pos (by rw [hw, hr]; rfl)]
  refine (raiseCause_getPart _ p 1).trans ?_
  simp [getPart, setPart]

/-- Otherwise it waits. -/
theorem postFault_waits {s : State} {p : Nat} (e : FaultEntry)
    (h : (s.getPart p).waiting ≠ [] ∨ (s.getPart p).ringRoom = false) :
    ((s.postFault p e).getPart p).waiting = (s.getPart p).waiting ++ [e] := by
  have hroom : ((s.getPart p).waiting.isEmpty && (s.getPart p).ringRoom) = false := by
    rcases h with h | h <;> simp [h]
  unfold postFault
  dsimp only
  rw [hroom]
  simp [getPart, setPart]

end State
end Sys2Proof.Machine

namespace Sys2Proof.Claim

open Sys2Proof.Machine

/-! ## The frame, in two steps -/

/-- A state of the warp with the same registers and results in flight. -/
theorem sameRegs_of {s t : State} (h : Warp.SameRegs t.w s.w) (hp : t.w.pend = s.w.pend) : SameRegs s t [] :=
  have k : Warp.SameRegs (Claim.warp t) (Claim.warp s) := Warp.issued_congr h hp
  ⟨fun n _ => k.wReg n, fun n _ => k.tReg n, fun n _ => k.pReg n, fun n _ _ _ => k.bReg n⟩

theorem SameRegs.trans {s t u : State} {ds : List Dest} (h : SameRegs s t ds) (k : SameRegs t u ds) : SameRegs s u ds where
  words n hn := (k.words n hn).trans (h.words n hn)
  banks n hn := (k.banks n hn).trans (h.banks n hn)
  preds n hn := (k.preds n hn).trans (h.preds n hn)
  bases n h1 h2 h3 := (k.bases n h1 h2 h3).trans (h.bases n h1 h2 h3)

theorem SameMemory.trans {s t u : State} (h : SameMemory s t) (k : SameMemory t u) : SameMemory s u := fun d a =>
  have ⟨h1, h2, h3, h4⟩ := h d a
  have ⟨k1, k2, k3, k4⟩ := k d a
  ⟨k1.trans h1, k2.trans h2, k3.trans h3, k4.trans h4⟩

theorem SameDie.trans {a b c : Die} (h : SameDie a b) (k : SameDie b c) : SameDie a c where
  sites := k.sites.trans h.sites
  qclk := k.qclk.trans h.qclk
  wbit := k.wbit.trans h.wbit
  tripm := k.tripm.trans h.tripm
  thev := k.thev.trans h.thev
  tripped := k.tripped.trans h.tripped
  mgfault := k.mgfault.trans h.mgfault
  wakeReg := k.wakeReg.trans h.wakeReg
  mgRun := k.mgRun.trans h.mgRun
  qcyc := k.qcyc.trans h.qcyc
  epochAt := k.epochAt.trans h.epochAt
  wrote := k.wrote.trans h.wrote
  heard := k.heard.trans h.heard
  seen := k.seen.trans h.seen

theorem SameOutside.trans {s t u : State} (h : SameOutside s t) (k : SameOutside t u) : SameOutside s u where
  cur := k.cur.trans h.cur
  warps i hi := (k.warps i (by rw [h.cur]; exact hi)).trans (h.warps i hi)
  teams := k.teams.trans h.teams
  launches := k.launches.trans h.launches
  crews := k.crews.trans h.crews
  counters := k.counters.trans h.counters
  queues := k.queues.trans h.queues
  parts := k.parts.trans h.parts
  host := k.host.trans h.host
  pages := k.pages.trans h.pages
  cores i := (h.cores i).trans (k.cores i)
  clusters i := (h.clusters i).trans (k.clusters i)
  dies i := (h.dies i).trans (k.dies i)
  memory := h.memory.trans k.memory
  tags := k.tags.trans h.tags
  storeQ := k.storeQ.trans h.storeQ
  ops := k.ops.trans h.ops
  errs := k.errs.trans h.errs

/-! ## An instruction that has issued and then traps (R36, R38, R131) -/

/-- From `s`, only the place of the warp in the schedule has changed, with units and the allowance of its cluster. -/
structure Scheduled (s u : State) : Prop where
  quiet : State.Quiet s u
  fresh : u.fresh = s.fresh
  warp : ∃ next ready count req granted parked, u.w =
    { s.w with nextIssue := next, readyAt := ready, count := count, rowReq := req, granted := granted, parked := parked }

namespace Scheduled
variable {s u : State}

theorem refl (s : State) : Scheduled s s :=
  ⟨State.Quiet.refl s, rfl, s.w.nextIssue, s.w.readyAt, s.w.count, s.w.rowReq, s.w.granted, s.w.parked, rfl⟩

theorem issued (s : State) (h : Hdr) : Scheduled s (s.issued h) := by
  obtain ⟨c, n, r, hw⟩ := State.countIssue_w (s.debitW 1).usedIssue h
  unfold State.issued
  refine ⟨?_, by simp, n, r, c, none, [], none, by rw [hw]; simp⟩
  exact ((State.debitW_quiet s 1).trans (State.usedIssue_quiet _)).trans (State.modW_quiet _ _)

theorem pend (k : Scheduled s u) : u.w.pend = s.w.pend := by
  obtain ⟨_, _, _, _, _, _, hw⟩ := k.warp
  rw [hw]

theorem storeQ (k : Scheduled s u) : u.w.storeQ = s.w.storeQ := by
  obtain ⟨_, _, _, _, _, _, hw⟩ := k.warp
  rw [hw]

theorem team (k : Scheduled s u) : u.w.team = s.w.team := by
  obtain ⟨_, _, _, _, _, _, hw⟩ := k.warp
  rw [hw]

theorem index (k : Scheduled s u) : u.w.index = s.w.index := by
  obtain ⟨_, _, _, _, _, _, hw⟩ := k.warp
  rw [hw]

theorem partOf_eq (k : Scheduled s u) : u.partOf u.cur.wid = s.partOf s.cur.wid := by
  have hteam : (u.getWarp s.cur.wid).team = (s.getWarp s.cur.wid).team := by
    have h := k.team
    unfold State.w at h
    rwa [k.quiet.cur] at h
  rw [k.quiet.cur, State.partOf_congr k.quiet.teams hteam]

theorem gang (k : Scheduled s u) : u.gang = s.gang := by
  obtain ⟨_, _, _, _, _, _, hw⟩ := k.warp
  unfold State.gang
  rw [hw, k.quiet.cur]
  rfl

theorem act (k : Scheduled s u) : u.act = s.act := by
  obtain ⟨_, _, _, _, _, _, hw⟩ := k.warp
  unfold State.act
  rw [k.gang, hw]
  rfl

theorem takes (k : Scheduled s u) (ht : Takes s) : Takes u := by
  obtain ⟨hu, hv, hq⟩ := ht
  have hqu := k.storeQ
  obtain ⟨_, _, _, _, _, _, hw⟩ := k.warp
  exact ⟨by rw [hw]; exact hu, by rw [hw]; exact hv, by rw [hqu]; exact hq⟩

theorem routes (k : Scheduled s u) (hr : Routes s) : Routes u := by
  obtain ⟨hc, ha, hq⟩ := hr
  have hqu := k.storeQ
  obtain ⟨_, _, _, _, _, _, hw⟩ := k.warp
  exact ⟨by rw [k.quiet.cur]; exact hc, by rw [hw]; exact ha, by rw [hqu]; exact hq⟩

theorem routedRecord_eq (k : Scheduled s u) (c : TrapInfo) : routedRecord u c = routedRecord s c := by
  have hcoord : ∀ i, u.coordOf i = s.coordOf i := by
    intro i
    simp only [State.coordOf, State.getDie, k.quiet.dies]
  obtain ⟨_, _, _, _, _, _, hw⟩ := k.warp
  unfold routedRecord recordOf State.team? State.getTeam?
  rw [hcoord, hw, k.quiet.cur, k.quiet.teams]

theorem regs (k : Scheduled s u) : SameRegs s u [] := by
  obtain ⟨_, _, _, _, _, _, hw⟩ := k.warp
  exact sameRegs_of (by rw [hw]; exact ⟨rfl, rfl, rfl, rfl, rfl, rfl⟩) k.pend

/-- What discarding what is fetched ahead leaves is the same but for the schedule. -/
theorem dropped (k : Scheduled s u) : ∃ next ready count req granted parked, Claim.dropped u =
    { Claim.dropped s with
      nextIssue := next, readyAt := ready, count := count, rowReq := req, granted := granted, parked := parked } := by
  obtain ⟨n, r, c, q, g, p, hw⟩ := k.warp
  refine ⟨n, r, c, q, g, p, ?_⟩
  unfold Claim.dropped
  rw [hw, k.fresh]
  rfl

theorem outside (k : Scheduled s u) : SameOutside s u := by
  obtain ⟨_, _, _, _, _, _, hw⟩ := k.warp
  exact sameOutside_of k.quiet (by rw [hw]) (by rw [hw]) (by rw [hw])

end Scheduled

/-- The trap record names the current instruction only. -/
theorem Recorded.of_cur {s u t : State} {c : TrapInfo} (hc : u.cur = s.cur) (h : Recorded u t c) : Recorded s t c := by
  obtain ⟨h1, h2, h3, h4, h5, h6⟩ := h
  rw [hc] at h3 h4 h5
  exact ⟨h1, h2, h3, h4, h5, h6⟩

/-- A trap that a warp takes after its instruction has issued leaves what it would leave had the instruction not issued. -/
theorem Scheduled.enters {s u t : State} {c : TrapInfo} (k : Scheduled s u) (e : Enters u t c) : Enters s t c := by
  obtain ⟨_, _, _, _, _, _, hd⟩ := k.dropped
  have hsaved := e.saved
  have hfresh := e.fresh
  have hsame := e.same
  have hothers := e.others
  have hspecial := e.special
  rw [k.gang] at hsaved hsame
  rw [hd] at hothers hspecial
  rw [k.quiet.cur] at hothers
  obtain ⟨_, _, _, _, _, _, hw⟩ := k.warp
  rw [hw] at hfresh hspecial
  exact {
    mode := e.mode
    record := e.record.of_cur k.quiet.cur
    saved := hsaved
    fresh := hfresh
    ahead := e.ahead
    same := hsame
    others := hothers
    regs := k.regs.trans e.regs
    special := { hspecial with }
    outside := k.outside.trans e.outside }

/-! ## A trap that goes to the system handler (R131, R133) -/

/-- What a routed trap leaves (R131, R133). -/
structure Routed (s t : State) (c : TrapInfo) : Prop where
  parks : Parks s t (routedRecord s c)
  record : Recorded s t c
  mode : t.w.hm = s.w.hm
  savedFmt : t.w.trap.savedFmt = s.w.trap.savedFmt
  savedLoops : t.w.trap.savedLoops = s.w.trap.savedLoops

theorem routedTo_iff {i : Instr} {s : State} {c : TrapInfo} : RoutedTo i s c ↔ ∃ t, exec i s = .next t ∧ Routed s t c :=
  ⟨fun ⟨t, hx, h1, h2, h3, h4, h5⟩ => ⟨t, hx, h1, h2, h3, h4, h5⟩,
    fun ⟨t, hx, h1, h2, h3, h4, h5⟩ => ⟨t, hx, h1, h2, h3, h4, h5⟩⟩

/-- The record that a compute warp posts for a trap of its current instruction, once its results are visible, is that of
R133. -/
theorem faultRec_eq {s u : State} {c : TrapInfo} {rows : List RowHold} (hm : isMgmt s.cur.wid = false)
    (hq : State.Quiet s u) (hw : u.getWarp s.cur.wid = { s.w with rows := rows }) :
    { u.faultRec s.cur.wid s.cur.g c.cause c.sub true s.cur.pc s.cur.word s.curLen c.faddr c.flanes with
      fpxc := c.fpxc, engClass := c.engClass, engLeft := c.engLeft } = routedRecord s c := by
  have hcoord : u.coordOf (coreOf s.cur.wid) = s.coordOf (coreOf s.cur.wid) := by
    simp only [State.coordOf, State.getDie, hq.dies]
  have hget : u.getTeam? s.w.team = s.team? := by simp only [State.team?, State.getTeam?, hq.teams]
  unfold State.faultRec routedRecord recordOf
  simp only [hw, hm, hcoord, hget]
  cases s.team? <;> rfl

/-- The warp that a trap of its current instruction parks with record r (R131, R133). -/
def parkedBy (s : State) (c : TrapInfo) (r : FaultRec) (w : Warp) : Warp :=
  { w with
    trap := w.trap.of s.cur.g s.cur.pc s.cur.word s.curLen c
    gangs := w.gangs.set s.cur.g (State.gangOf w s.cur.g).stopped
    fault := some r, parked := none, rowReq := none, granted := [] }

/-- A settled compute warp whose trap goes to the system handler is parked, and then its record is posted. -/
theorem takeTrap_posts {s : State} {c : TrapInfo} (hp : s.w.pend = []) (hs : Routes s) :
    ∃ v rows, State.Quiet s v ∧ v.w = parkedBy s c (routedRecord s c) { s.w with rows := rows } ∧
      s.takeTrap c = v.postFault (s.partOf s.cur.wid) ⟨0, s.w.team, s.w.index, routedRecord s c⟩ := by
  obtain ⟨hquiet, _, rows, hw⟩ := State.finishResults_settled hp hs.noAtoms
  have hrouted : s.w.routed c.cause = true := by
    rcases hs.away with h | h <;> simp [Warp.routed, h]
  unfold State.takeTrap State.enterTrap
  dsimp only
  set u := s.finishResults s.cur.wid
  have hcur : u.cur.wid = s.cur.wid := by rw [hquiet.cur]
  have hown : u.getWarp s.cur.wid = { s.w with rows := rows } := by rw [← hw, ← hcur]; rfl
  have hrec := faultRec_eq (c := c) hs.compute hquiet hown
  rw [if_pos (by rw [hown]; exact hrouted), hrec]
  unfold State.parkFault
  rw [if_neg (by rw [hs.compute]; exact Bool.false_ne_true)]
  dsimp only
  set r := routedRecord s c
  set a := u.modWarp s.cur.wid fun w =>
    { w with trap := w.trap.of s.cur.g s.cur.pc s.cur.word s.curLen c,
             gangs := w.gangs.set s.cur.g (State.gangOf w s.cur.g).stopped } with ha
  set v := a.modWarp s.cur.wid fun w => { w with fault := some r, parked := none, rowReq := none, granted := [] } with hv
  have hvw : v.getWarp s.cur.wid = parkedBy s c r { s.w with rows := rows } := by
    rw [← hown]
    simp [hv, ha, State.modWarp, parkedBy]
  have haq : State.Quiet u a := State.setWarp_quiet hcur _
  have hvq : State.Quiet s v := (hquiet.trans haq).trans (State.setWarp_quiet (s := a) hcur _)
  refine ⟨v, rows, hvq, ?_, ?_⟩
  · rw [← hvw, ← hvq.cur]
    rfl
  · have hteam : (v.getWarp s.cur.wid).team = s.w.team := by rw [hvw]; rfl
    have hindex : (v.getWarp s.cur.wid).index = s.w.index := by rw [hvw]; rfl
    rw [hteam, hindex, State.partOf_congr hvq.teams hteam]

/-- A warp is parked whose record is posted from state `v`, in which nothing outside it has changed. -/
theorem parks_of_posted {s v t : State} {r : FaultRec} (hq : State.Quiet s v) (hf : t.w.fault = some r)
    (ht : t = v.postFault (s.partOf s.cur.wid) ⟨0, s.w.team, s.w.index, r⟩) (hregs : SameRegs s t [])
    (hpc : t.gang.pc = s.gang.pc) : Parks s t r := by
  have hpart : v.getPart (s.partOf s.cur.wid) = s.getPart (s.partOf s.cur.wid) := by simp only [State.getPart, hq.parts]
  exact {
    parked := hf
    ring := fun hw hr => by
      rw [← hpart] at hw hr ⊢
      rw [ht, State.postFault_enters _ hw hr]
      exact ⟨rfl, rfl, by simp⟩
    waits := fun h => by
      rw [← hpart] at h ⊢
      rw [ht, State.postFault_waits _ h]
    regs := hregs
    pc := hpc
    others := fun i hi => by
      rw [ht, State.getWarp_eq (State.postFault_warps _ _ _) i]
      exact hq.warps i hi
    teams := by rw [ht, State.postFault_teams, hq.teams] }

/-- A settled warp whose traps go to the system handler is parked with the record of R133, whether the trap stops the current
instruction or follows its issue. -/
theorem Scheduled.takeTrap_routed {s u : State} (k : Scheduled s u) (hp : s.w.pend = []) (hs : Routes s) (c : TrapInfo) :
    Routed s (u.takeTrap c) c := by
  obtain ⟨v, rows, hq, hw, ht⟩ := takeTrap_posts (c := c) (k.pend.trans hp) (k.routes hs)
  obtain ⟨_, _, _, _, _, _, hu⟩ := k.warp
  rw [k.routedRecord_eq, k.partOf_eq, k.team, k.index] at ht
  rw [k.routedRecord_eq] at hw
  set t := u.takeTrap c
  have hcur : t.cur = s.cur := by rw [ht, State.postFault_cur, hq.cur, k.quiet.cur]
  have htw : t.w = parkedBy u c (routedRecord s c) { u.w with rows := rows } := by
    rw [← hw, ht]
    exact State.w_eq (State.postFault_warps _ _ _) (State.postFault_cur _ _ _)
  have hregs : SameRegs u t [] := sameRegs_of (by rw [htw]; exact ⟨rfl, rfl, rfl, rfl, rfl, rfl⟩) (by rw [htw]; rfl)
  have hgang : t.gang = s.gang.stopped := by
    unfold State.gang
    rw [hcur, htw]
    refine (State.gangOf_set _ u.cur.g s.cur.g _).trans ?_
    rw [k.quiet.cur, if_pos rfl, hu]
    rfl
  have hrecord : Recorded u t c := recorded_of (old := u.w.trap) (fmt := u.w.trap.savedFmt) (loops := u.w.trap.savedLoops)
    (by rw [htw]; rfl)
  exact {
    parks := parks_of_posted (k.quiet.trans hq) (by rw [htw]; rfl) ht (k.regs.trans hregs) (by rw [hgang]; rfl)
    record := hrecord.of_cur k.quiet.cur
    mode := by rw [htw, hu]; rfl
    savedFmt := by rw [htw, hu]; rfl
    savedLoops := by rw [htw, hu]; rfl }

/-! ## BRK (R138) -/

theorem exec_brk (h : Hdr) (s : State) : exec (.brk h) s = .next (
    if s.w.tmask.getLsbD 1 then (s.debitW 1).retire h
    else if !isMgmt s.cur.wid && (s.getCore (coreOf s.cur.wid)).brkstop then
      ((s.debitW 1).retire h).snapCore (coreOf s.cur.wid)
    else (s.issued h).trapNext cBRK) := by rfl

/-- The trap that BRK raises, its word being 4 bytes long. -/
theorem trapNext_issued (h : Hdr) {s : State} (hlen : s.cur.len = 4) (cause : BitVec 8) :
    (s.issued h).trapNext cause = (s.issued h).takeTrap { precise s cause with skip := 4 } := by
  have k := Scheduled.issued s h
  unfold State.trapNext precise
  rw [k.act, k.quiet.cur, hlen]
  rfl

/-- With TMASK bit 1, BRK is NOP. -/
theorem brk_masked (h : Hdr) {s : State} (hm : s.w.tmask.getLsbD 1 = true) :
    ∃ t, exec (.brk h) s = .next t ∧ Keeps s t [] :=
  ⟨_, by rw [exec_brk, if_pos hm], ((OnlyLoops.refl s).debitW 1).retire h⟩

/-- Else, under CDBG.BRKSTOP, it completes and its core stops. -/
theorem brk_stops (h : Hdr) {s : State} (hs : s.w.pend = []) (hq : ∀ e ∈ s.w.storeQ, State.isAtom e = false)
    (hm : s.w.tmask.getLsbD 1 = false) (hc : isMgmt s.cur.wid = false)
    (hb : (s.getCore (coreOf s.cur.wid)).brkstop = true) :
    ∃ t, exec (.brk h) s = .next t ∧ (t.getCore (coreOf s.cur.wid)).snap = true ∧ SameRegs s t [] ∧
      t.gang.pc = nextPc s := by
  set u := (s.debitW 1).retire h with hu
  have hkeeps : Keeps s u [] := ((OnlyLoops.refl s).debitW 1).retire h
  have hpend : u.w.pend = [] := by
    obtain ⟨_, _, _, _, _, hw⟩ := State.retireBy_w (s.debitW 1) h 1
    rw [hu, State.retire, hw, State.debitW_w]
    exact hs
  obtain ⟨hsnap, hcur, rows, frozen, hw⟩ := State.snapCore_stands hpend (by rw [hkeeps.outside.storeQ]; exact hq)
    (coreOf s.cur.wid)
  refine ⟨u.snapCore (coreOf s.cur.wid), ?_, hsnap, hkeeps.regs.trans ?_, ?_⟩
  · rw [exec_brk, hm, hc, hb]
    rfl
  · exact sameRegs_of (by rw [hw]; exact ⟨rfl, rfl, rfl, rfl, rfl, rfl⟩) (by rw [hw])
  · have hgang : (u.snapCore (coreOf s.cur.wid)).gang = u.gang := by
      unfold State.gang
      rw [hcur, hw]
      rfl
    rw [hgang]
    exact hkeeps.goes.pc

/-- Else it traps once it has issued. -/
theorem exec_brk_trap (h : Hdr) {s : State} (hm : s.w.tmask.getLsbD 1 = false)
    (hb : isMgmt s.cur.wid = true ∨ (s.getCore (coreOf s.cur.wid)).brkstop = false) (hlen : s.cur.len = 4) :
    exec (.brk h) s = .next ((s.issued h).takeTrap { precise s cBRK with skip := 4 }) := by
  have hn : (!isMgmt s.cur.wid && (s.getCore (coreOf s.cur.wid)).brkstop) = false := by
    rcases hb with hb | hb <;> simp [hb]
  rw [exec_brk, hm, hn, ← trapNext_issued h hlen]
  rfl

theorem brk_traps (h : Hdr) {s : State} (hs : s.w.pend = []) (hm : s.w.tmask.getLsbD 1 = false)
    (hb : isMgmt s.cur.wid = true ∨ (s.getCore (coreOf s.cur.wid)).brkstop = false) (ht : Takes s) (hlen : s.cur.len = 4) :
    Traps (.brk h) s { precise s cBRK with skip := 4 } :=
  have k := Scheduled.issued s h
  ⟨_, exec_brk_trap h hm hb hlen,
    k.enters (takeTrap_enters (k.pend.trans hs) (k.takes ht) (show cBRK ≠ cBANKV by decide))⟩

theorem brk_routes (h : Hdr) {s : State} (hs : s.w.pend = []) (hm : s.w.tmask.getLsbD 1 = false)
    (hb : isMgmt s.cur.wid = true ∨ (s.getCore (coreOf s.cur.wid)).brkstop = false) (hr : Routes s) (hlen : s.cur.len = 4) :
    RoutedTo (.brk h) s { precise s cBRK with skip := 4 } :=
  routedTo_iff.2 ⟨_, exec_brk_trap h hm hb hlen, (Scheduled.issued s h).takeTrap_routed hs hr _⟩

/-! ## A uniform 64-bit operand (R81, R140) -/

theorem uniform_of_isU {s : State} {x : Shaped} (h : x.isU = true) : s.uniform x = .ok (x.lane 0).val := by
  cases x with
  | u v p => rfl
  | a _ _ _ => cases h
  | v _ => cases h

theorem uniform_of_not {s : State} {x : Shaped} (h : x.isU = false) : s.uniform x = .error (.trap (precise s cSHAPE)) := by
  cases x with
  | u v p => cases h
  | a _ _ _ => rfl
  | v _ => rfl

theorem rdU64_shape {s : State} (hs : s.w.pend = []) {n : Nat} (h : (reg s n).isU = false ∨ (reg s (n + 1)).isU = false) :
    s.rdU64 n = .error (.trap (precise s cSHAPE)) := by
  unfold State.rdU64
  rw [rd_eq hs, rd_eq hs]
  rcases h with h | h
  · rw [uniform_of_not h]
    rfl
  · rw [uniform_of_not h]
    cases s.uniform (reg s n) <;> rfl

/-- From two U registers, of which neither may be poisoned. -/
theorem rdU64_isU {s : State} (hs : s.w.pend = []) {n : Nat} (hlo : (reg s n).isU = true)
    (hhi : (reg s (n + 1)).isU = true) :
    s.rdU64 n = if poison2 s n 0 then .error (.trap (precise s cPOISON)) else .ok (dword s n 0) := by
  unfold State.rdU64
  rw [rd_eq hs, rd_eq hs, uniform_of_isU hlo, uniform_of_isU hhi]
  rfl

theorem rdU64_uniform {s : State} (hs : s.w.pend = []) {n : Nat} (hu : Uniform2 s n) : s.rdU64 n = .ok (dword s n 0) := by
  obtain ⟨⟨hlo, hplo⟩, hhi, hphi⟩ := hu
  rw [rdU64_isU hs hlo hhi, poison2, hplo, hphi]
  rfl

/-! ## An instruction that sets a field of its warp -/

/-- An instruction that has changed only its own warp, to `u.w`, and goes on in sequence keeps all that `put` puts back. -/
theorem keepsBut_retire {s u : State} (h : Hdr) (put : Warp → Warp) (hs : s.w.pend = []) (hq : State.Quiet s u)
    (hg : u.w.gangs = s.w.gangs) (hput : ∀ next ready count gangs,
      put { u.w with nextIssue := next, readyAt := ready, count := count, rowReq := none, granted := [], parked := none,
                     gangs := gangs } =
        { s.w with nextIssue := next, readyAt := ready, count := count, rowReq := none, granted := [], parked := none,
                   gangs := gangs }) :
    KeepsBut s ((u.debitW 1).retire h) put := by
  obtain ⟨c, n, r, m, g1, hw⟩ := State.retireBy_w (u.debitW 1) h 1
  have hgang : u.gang = s.gang := by
    unfold State.gang State.gangOf
    rw [hg, hq.cur]
  have hdq := State.debitW_quiet u 1
  have hdg : (u.debitW 1).gang = s.gang := (State.gang_eq (State.debitW_w u 1) hdq.cur).trans hgang
  have hcur : (u.debitW 1).cur = s.cur := hdq.cur.trans hq.cur
  have hseq : (u.debitW 1).seqPc = s.seqPc := by
    unfold State.seqPc
    rw [hcur]
  rw [hdg, hcur, hseq, State.debitW_w, hg] at hw
  refine keeps_of (rs := []) ⟨[], s.w.rows, c, n, r, m, g1, .nil, ?_⟩ ?_ hs
  · rw [State.modW_w, State.retire, hw, hput]
    simp
  · exact ((hq.trans hdq).trans (State.retireBy_quiet _ h 1)).trans (State.modW_quiet _ put)

/-! ## TSET (R144) -/

/-- A well-formed TSET names an even register. -/
theorem tset_wf (h : Hdr) (a : BitVec 6) : (Instr.tset h a).wf = decide (a.toNat % 2 = 0) := by
  have he : (Instr.tset h a).fieldError = firstError [(decide (a.toNat % 2 ≠ 0), .oddPair)] := rfl
  rw [Instr.wf, he, decide_not]
  cases decide (a.toNat % 2 = 0) <;> rfl

theorem exec_tset (h : Hdr) (a : BitVec 6) (s : State) : exec (.tset h a) s = execTset h a s := by rfl

/-- Outside handler mode. -/
theorem exec_tset_perm (h : Hdr) (a : BitVec 6) {s : State} (hm : s.w.hm = false) :
    exec (.tset h a) s = .next (s.takeTrap (precise s cPERM)) := by
  simp only [exec_tset, execTset, State.plainStep, State.inHandler, hm]
  rfl

/-- In a handler, on a pair that is not uniform or is poisoned. -/
theorem exec_tset_stop (h : Hdr) {a : BitVec 6} {s : State} {c : TrapInfo} (hm : s.w.hm = true)
    (hr : s.rdU64 a.toNat = .error (.trap c)) : exec (.tset h a) s = .next (s.takeTrap c) := by
  simp only [exec_tset, execTset, State.plainStep, State.inHandler, hm, hr]
  rfl

/-- On an odd value. -/
theorem exec_tset_odd (h : Hdr) {a : BitVec 6} {s : State} {v : DWord} (hm : s.w.hm = true) (hr : s.rdU64 a.toNat = .ok v)
    (hv : v.getLsbD 0 = true) : exec (.tset h a) s = .next (s.takeTrap { precise s cALIGN with faddr := v }) := by
  simp only [exec_tset, execTset, State.plainStep, State.inHandler, hm, hr, hv]
  rfl

/-- On an even value. -/
theorem exec_tset_even (h : Hdr) {a : BitVec 6} {s : State} {v : DWord} (hm : s.w.hm = true) (hr : s.rdU64 a.toNat = .ok v)
    (hv : v.getLsbD 0 = false) : exec (.tset h a) s =
      .next (((s.modW fun w => { w with trap := { w.trap with resume := v } }).debitW 1).retire h) := by
  simp only [exec_tset, execTset, State.plainStep, State.inHandler, hm, hr, hv]
  rfl

/-- It sets the resume PC, and nothing else. -/
theorem tset_sets (h : Hdr) {a : BitVec 6} {s : State} (hs : s.w.pend = []) (hm : s.w.hm = true)
    (hu : Uniform2 s a.toNat) (hv : (dword s a.toNat 0).getLsbD 0 = false) :
    ∃ t, exec (.tset h a) s = .next t ∧ t.w.trap = { s.w.trap with resume := dword s a.toNat 0 } ∧
      KeepsBut s t fun w => { w with trap := s.w.trap } := by
  refine ⟨_, exec_tset_even h hm (rdU64_uniform hs hu) hv, ?_, ?_⟩
  · obtain ⟨_, _, _, _, _, hw⟩ := State.retireBy_w
      ((s.modW fun w => { w with trap := { w.trap with resume := dword s a.toNat 0 } }).debitW 1) h 1
    rw [State.retire, hw, State.debitW_w, State.modW_w]
  · exact keepsBut_retire h _ hs (State.modW_quiet s _) (by rw [State.modW_w]) fun _ _ _ _ => by rw [State.modW_w]

theorem tset_traps (h : Hdr) (a : BitVec 6) {s : State} (hs : s.w.pend = []) (ht : Takes s) :
    Traps (.tset h a) s (precise s cPERM) :=
  ⟨_, exec_tset_perm h a ht.user, takeTrap_enters hs ht (show cPERM ≠ cBANKV by decide)⟩

/-- A trap of TSET that goes to the system handler. -/
theorem tset_routes {h : Hdr} {a : BitVec 6} {s : State} {c : TrapInfo} (hs : s.w.pend = []) (hr : Routes s)
    (hx : exec (.tset h a) s = .next (s.takeTrap c)) : RoutedTo (.tset h a) s c :=
  routedTo_iff.2 ⟨_, hx, (Scheduled.refl s).takeTrap_routed hs hr c⟩

/-- Settles O28: BRK completes, stops its core or traps after it has issued; TSET traps at its operand, or changes its warp's
trap record only. -/
theorem brkAndTset : Obligations.BrkAndTset := by
  unfold Obligations.BrkAndTset
  constructor
  · intro h s hready hq
    have hs := hready.settled
    exact ⟨brk_masked h, brk_stops h hs hq, fun hm hb => ⟨brk_traps h hs hm hb, brk_routes h hs hm hb⟩⟩
  · refine fun h a s => ⟨rfl, tset_wf h a, fun hready => ?_⟩
    have hs := hready.settled
    refine ⟨tset_traps h a hs, fun hm hr => ⟨fun hshape => ?_, fun hlo hhi hpoison => ?_, fun hu hodd => ?_⟩, tset_sets h hs⟩
    · exact tset_routes hs hr (exec_tset_stop h hm (rdU64_shape hs hshape))
    · exact tset_routes hs hr (exec_tset_stop h hm (by rw [rdU64_isU hs hlo hhi, if_pos hpoison]))
    · exact tset_routes hs hr (exec_tset_odd h hm (rdU64_uniform hs hu) hodd)

end Sys2Proof.Claim
end

section
/-! PROOF. Words of spec/06: what the model computes for each operation is the value of the rule (R156-R160). -/

namespace Sys2Proof.Claim

open Sys2Proof.Machine

/-! ## Sums, products, absolute values (R156) -/

/-- The high half of an integer of 64 bits. -/
theorem ofInt_div_eq_extract (z : Int) : BitVec.ofInt 32 (z / 2 ^ 32) = (BitVec.ofInt 64 z).extractLsb' 32 32 := by
  apply BitVec.eq_of_toNat_eq
  rw [BitVec.extractLsb'_toNat, BitVec.toNat_ofInt, BitVec.toNat_ofInt, Nat.shiftRight_eq_div_pow]
  omega

theorem mulhSigned_eq (a b : Word) : mulhSigned a b = (a.signExtend 64 * b.signExtend 64).extractLsb' 32 32 := by
  unfold mulhSigned BitVec.signExtend
  rw [ofInt_div_eq_extract, BitVec.ofInt_mul]

theorem mulhPlain_eq (a b : Word) : mulhPlain a b = (a.zeroExtend 64 * b.zeroExtend 64).extractLsb' 32 32 := by
  have hlt : a.toNat * b.toNat < 2 ^ 64 := Nat.mul_lt_mul'' (c := 2 ^ 32) (d := 2 ^ 32) a.isLt b.isLt
  have ha : (a.zeroExtend 64).toNat = a.toNat := BitVec.toNat_setWidth_of_le (by decide)
  have hb : (b.zeroExtend 64).toNat = b.toNat := BitVec.toNat_setWidth_of_le (by decide)
  apply BitVec.eq_of_toNat_eq
  rw [mulhPlain, BitVec.extractLsb'_toNat, BitVec.toNat_mul, ha, hb, Nat.mod_eq_of_lt hlt, BitVec.toNat_ofNat,
    Nat.shiftRight_eq_div_pow]

theorem clampTo_eq {lo hi : Int} (h : lo ≤ hi) (v : Int) : clampTo lo hi v = max lo (min hi v) := by
  unfold clampTo
  split
  · omega
  · split <;> omega

theorem clampSigned_eq (v : Int) : clampSigned v = clamped (-2 ^ 31) (2 ^ 31 - 1) v := by
  rw [clampSigned, clampTo_eq (by decide), clamped]
  rfl

theorem clampPlain_eq (v : Int) : clampPlain v = clamped 0 (2 ^ 32 - 1) v := by
  rw [clampPlain, clampTo_eq (by decide), clamped]
  rfl

theorem absDiff_eq (a b : Word) : absDiff a b = BitVec.ofInt 32 |a.toInt - b.toInt| := by
  rw [absDiff, Int.abs_eq_natAbs, BitVec.ofInt_natCast]

theorem dot4_eq (a b : Word) :
    dot4 a b = BitVec.ofInt 32 ((List.range 4).map fun k => signedByte a k * signedByte b k).sum := by
  have hsum (f : Nat → Int) : f 0 + f 1 + f 2 + f 3 = ((List.range 4).map f).sum := by
    simp only [List.range_succ, List.range_zero, List.nil_append, List.map_append, List.map_cons, List.map_nil,
      List.sum_append, List.sum_cons, List.sum_nil, add_zero]
  exact congrArg (BitVec.ofInt 32) (hsum fun k => signedByte a k * signedByte b k)

/-! ## Quotients and remainders (R157) -/

theorem divSigned_eq (a b : Word) : divSigned a b = quotient true a b := rfl

theorem divPlain_eq (a b : Word) : divPlain a b = quotient false a b := by
  rw [divPlain, quotient, BitVec.udiv_def]
  rfl

/-- The remainder belongs to the truncated quotient. -/
theorem ofInt_tmod (a b : Word) : BitVec.ofInt 32 (a.toInt.tmod b.toInt) = a - BitVec.ofInt 32 (a.toInt.tdiv b.toInt) * b := by
  rw [Int.tmod_def, sub_eq_add_neg, BitVec.ofInt_add, BitVec.ofInt_neg, BitVec.ofInt_mul, BitVec.ofInt_toInt,
    BitVec.ofInt_toInt, BitVec.mul_comm, ← sub_eq_add_neg]

theorem umod_eq_sub (a b : Word) : a % b = a - BitVec.ofNat 32 (a.toNat / b.toNat) * b := by
  rw [← BitVec.udiv_def, eq_sub_iff_add_eq]
  apply BitVec.eq_of_toNat_eq
  rw [BitVec.toNat_add, BitVec.toNat_mul, BitVec.toNat_umod, BitVec.toNat_udiv, Nat.add_mod_mod, Nat.mul_comm,
    Nat.mod_add_div, Nat.mod_eq_of_lt a.isLt]

theorem remSigned_eq (a b : Word) : remSigned a b = remainder true a b := by
  unfold remSigned remainder quotient
  split
  · rfl
  · exact ofInt_tmod a b

theorem remPlain_eq (a b : Word) : remPlain a b = remainder false a b := by
  unfold remPlain remainder quotient
  split
  · rfl
  · exact umod_eq_sub a b

/-! ## Shifts, minimum and maximum, bits of a word (R158) -/

/-- From 32 up every bit is the sign. -/
theorem sarWord_eq (a b : Word) : sarWord a b = a.sshiftRight b.toNat := by
  unfold sarWord
  ext i hi
  rcases Nat.le_total b.toNat 32 with h | h
  · rw [Nat.min_eq_left h]
  · rw [Nat.min_eq_right h, BitVec.getElem_sshiftRight, BitVec.getElem_sshiftRight, dif_neg (by omega), dif_neg (by omega)]

theorem rotateLeft_eq (a b : Word) :
    a.rotateLeft (b.toNat % 32) = a <<< (b.toNat % 32) ||| a >>> (32 - b.toNat % 32) := by
  rw [BitVec.rotateLeft_def, Nat.mod_mod]

theorem minSigned_eq (a b : Word) : minSigned a b = if a.toInt ≤ b.toInt then a else b := by
  simp only [minSigned, ← not_le, ite_not]

/-- Of two equal words either is the greater. -/
theorem maxSigned_eq (a b : Word) : maxSigned a b = if a.toInt ≤ b.toInt then b else a := by
  rcases lt_trichotomy a.toInt b.toInt with h | h | h
  · rw [maxSigned, if_pos h, if_pos h.le]
  · rw [BitVec.toInt_inj.1 h, maxSigned, ite_self, ite_self]
  · rw [maxSigned, if_neg h.not_gt, if_neg h.not_ge]

theorem minPlain_eq (a b : Word) : minPlain a b = if a.toNat ≤ b.toNat then a else b := by
  simp only [minPlain, ← not_le, ite_not]

theorem maxPlain_eq (a b : Word) : maxPlain a b = if a.toNat ≤ b.toNat then b else a := by
  rcases lt_trichotomy a.toNat b.toNat with h | h | h
  · rw [maxPlain, if_pos h, if_pos h.le]
  · rw [BitVec.toNat_inj.1 h, maxPlain, ite_self, ite_self]
  · rw [maxPlain, if_neg h.not_gt, if_neg h.not_ge]

theorem leadingZeros_eq (a : Word) : leadingZeros a = BitVec.ofNat 32 (32 - Nat.size a.toNat) := by
  unfold leadingZeros
  split
  · rename_i h
    subst h
    rfl
  · rename_i h
    have hpos : a.toNat ≠ 0 := fun h0 => h (BitVec.eq_of_toNat_eq h0)
    have hsize : Nat.size a.toNat = a.toNat.log2 + 1 :=
      le_antisymm (Nat.size_le.2 Nat.lt_log2_self) (Nat.lt_size.2 (Nat.log2_self_le hpos))
    rw [hsize, Nat.add_comm, Nat.sub_add_eq]

theorem countOnes_eq (a : Word) : countOnes a = BitVec.ofNat 32 ((List.range 32).countP fun k => a.getLsbD k) := by
  rw [countOnes, List.countP_eq_length_filter]

/-- A word given bit by bit. -/
theorem getLsbD_ofBits (f : Nat → Bool) {i : Nat} (hi : i < 32) :
    (show Word from BitVec.ofBoolListLE ((List.range 32).map f)).getLsbD i = f i := by
  refine BitVec.getLsbD_ofBoolListLE.trans ?_
  simp [hi]

theorem reverse_eq (a : Word) :
    a.reverse = (show Word from BitVec.ofBoolListLE ((List.range 32).map fun k => a.getLsbD (31 - k))) := by
  refine BitVec.eq_of_getLsbD_eq fun i hi => ?_
  rw [getLsbD_ofBits _ hi, BitVec.getLsbD_reverse, BitVec.getMsbD_eq_getLsbD, decide_eq_true hi]
  rfl

theorem absWord_eq (a : Word) : absWord a = BitVec.ofInt 32 |a.toInt| := by
  unfold absWord
  split
  · rename_i h
    rw [abs_of_neg h, BitVec.ofInt_neg, BitVec.ofInt_toInt, zero_sub]
  · rename_i h
    rw [abs_of_nonneg (not_lt.1 h), BitVec.ofInt_toInt]

/-! ## Bit fields (R160) -/

theorem fieldPos_eq (c : Word) : fieldPos c = fieldP c := by
  rw [fieldPos, fieldP, BitVec.extractLsb'_toNat]
  rfl

theorem fieldLen_eq (c : Word) : fieldLen c = fieldN c := by
  rw [fieldLen, fieldN, fieldPos_eq, BitVec.extractLsb'_toNat, Nat.shiftRight_eq_div_pow]

theorem fieldN_le (c : Word) : fieldN c ≤ 32 := (Nat.min_le_right _ _).trans (Nat.sub_le _ _)

theorem getLsbD_fieldMask (n : Nat) {i : Nat} (hi : i < 32) : (fieldMask n).getLsbD i = decide (i < n) := by
  rw [fieldMask, BitVec.getLsbD_ofNat, Nat.testBit_two_pow_sub_one, decide_eq_true hi, Bool.true_and]

/-- A bit of a field: inside its length, the bit of the word that stands there. -/
theorem getLsbD_bfePlain (a c : Word) {i : Nat} (hi : i < 32) :
    (bfePlain a c).getLsbD i = (a.getLsbD (fieldP c + i) && decide (i < fieldN c)) := by
  rw [bfePlain, BitVec.getLsbD_and, getLsbD_fieldMask _ hi, BitVec.getLsbD_ushiftRight, fieldPos_eq, fieldLen_eq]

theorem bfePlain_eq (a c : Word) : bfePlain a c = BitVec.ofNat 32 (a.toNat / 2 ^ fieldP c % 2 ^ fieldN c) := by
  refine BitVec.eq_of_getLsbD_eq fun i hi => ?_
  rw [getLsbD_bfePlain a c hi, BitVec.getLsbD_ofNat, Nat.testBit_mod_two_pow, Nat.testBit_div_two_pow, decide_eq_true hi,
    Bool.true_and, Bool.and_comm, Nat.add_comm i]
  rfl

/-- The field, as a number of its own length, is sign-extended. -/
theorem ofInt_bmod_eq_signExtend (x n : Nat) :
    BitVec.ofInt 32 (Int.bmod (x : Nat) (2 ^ n)) = (BitVec.ofNat n x).signExtend 32 := by
  rw [BitVec.signExtend, BitVec.toInt_eq_toNat_bmod, BitVec.toNat_ofNat, Int.natCast_mod, Int.emod_bmod]

theorem getLsbD_field (a c : Word) {k : Nat} (hk : k < fieldN c) :
    (BitVec.ofNat (fieldN c) (a.toNat / 2 ^ fieldP c)).getLsbD k = (bfePlain a c).getLsbD k := by
  rw [getLsbD_bfePlain a c (hk.trans_le (fieldN_le c)), BitVec.getLsbD_ofNat, Nat.testBit_div_two_pow, Nat.add_comm k,
    decide_eq_true hk, Bool.true_and, Bool.and_true]
  rfl

/-- A bit of the sign-extended field: inside its length that of the field, above it the field's sign, its highest bit. -/
theorem getLsbD_bfeSigned (a c : Word) {i : Nat} (hi : i < 32) (hn : fieldN c ≠ 0) : (bfeSigned a c).getLsbD i =
    if i < fieldN c then (bfePlain a c).getLsbD i else (bfePlain a c).getLsbD (fieldN c - 1) := by
  have hout : ¬ i < fieldN c → (bfePlain a c).getLsbD i = false := fun h => by
    rw [getLsbD_bfePlain a c hi, decide_eq_false h, Bool.and_false]
  have hor : (bfePlain a c ||| ~~~fieldMask (fieldN c)).getLsbD i =
      ((bfePlain a c).getLsbD i || !decide (i < fieldN c)) := by
    rw [BitVec.getLsbD_or, BitVec.getLsbD_not, getLsbD_fieldMask _ hi, decide_eq_true hi, Bool.true_and]
  simp only [bfeSigned, fieldLen_eq, if_neg hn]
  cases hsign : (bfePlain a c).getLsbD (fieldN c - 1) <;> by_cases h : i < fieldN c
  · simp [h]
  · simp [h, hout]
  · simp [h, hor]
  · simp [h, hor]

theorem bfeSigned_eq (a c : Word) :
    bfeSigned a c = BitVec.ofInt 32 (Int.bmod (a.toNat / 2 ^ fieldP c : Nat) (2 ^ fieldN c)) := by
  by_cases hn : fieldN c = 0
  · simp only [bfeSigned, fieldLen_eq, hn, if_true, pow_zero, Int.bmod_one]
    rfl
  · refine BitVec.eq_of_getLsbD_eq fun i hi => ?_
    rw [ofInt_bmod_eq_signExtend, BitVec.getLsbD_signExtend, decide_eq_true hi, Bool.true_and, getLsbD_bfeSigned a c hi hn,
      BitVec.msb_eq_getLsbD_last, getLsbD_field a c (Nat.sub_one_lt hn)]
    split
    · rename_i h
      rw [getLsbD_field a c h]
    · rfl

theorem bfiWord_eq (a f c : Word) :
    bfiWord a f c = (show Word from BitVec.ofBoolListLE ((List.range 32).map fun k =>
      if fieldP c ≤ k ∧ k < fieldP c + fieldN c then f.getLsbD (k - fieldP c) else a.getLsbD k)) := by
  refine BitVec.eq_of_getLsbD_eq fun i hi => ?_
  have hmask : (fieldMask (fieldN c) <<< fieldP c).getLsbD i = decide (fieldP c ≤ i ∧ i < fieldP c + fieldN c) := by
    rw [BitVec.getLsbD_shiftLeft, getLsbD_fieldMask _ (by omega), decide_eq_true hi, Bool.true_and, ← decide_not,
      ← Bool.decide_and]
    exact decide_eq_decide.2 (by omega)
  rw [getLsbD_ofBits _ hi, bfiWord, fieldPos_eq, fieldLen_eq, BitVec.getLsbD_or, BitVec.getLsbD_and, BitVec.getLsbD_and,
    BitVec.getLsbD_not, hmask, BitVec.getLsbD_shiftLeft]
  by_cases h : fieldP c ≤ i ∧ i < fieldP c + fieldN c
  · simp [h, hi]
  · simp [h, hi]

/-! ## Byte permutation (R160) -/

/-- The source byte that the low three bits of a steering byte name: bit 0 the word, the others the byte. -/
theorem interleaved_eq_byte (a f : Word) (e : BitVec 8) :
    ((List.range 4).flatMap fun k => [a.extractLsb' (8 * k) 8, f.extractLsb' (8 * k) 8]).getD (e.toNat % 8) 0 =
      (if e.getLsbD 0 then f else a).extractLsb' (8 * (e.extractLsb' 1 2).toNat) 8 := by
  have hodd : e.getLsbD 0 = decide (e.toNat % 8 % 2 = 1) := by
    rw [BitVec.getLsbD, Nat.testBit_zero]
    exact decide_eq_decide.2 (by omega)
  have hbyte : (e.extractLsb' 1 2).toNat = e.toNat % 8 / 2 := by
    rw [BitVec.extractLsb'_toNat, Nat.shiftRight_eq_div_pow]
    omega
  have hlt : e.toNat % 8 < 8 := Nat.mod_lt _ (by decide)
  rw [hodd, hbyte]
  generalize e.toNat % 8 = j at hlt
  interval_cases j <;> rfl

theorem prmtByte_eq (a f : Word) (e : BitVec 8) : prmtByte a f e = steered a f e := by
  have hmode : (e.extractLsb' 3 2).toNat = e.toNat / 8 % 4 := by
    rw [BitVec.extractLsb'_toNat, Nat.shiftRight_eq_div_pow]
  have hlt : e.toNat / 8 % 4 < 4 := Nat.mod_lt _ (by decide)
  simp only [prmtByte, steered, interleaved_eq_byte, hmode]
  generalize e.toNat / 8 % 4 = q at hlt
  interval_cases q <;> rfl

theorem prmtWord_eq (a f c : Word) : prmtWord a f c =
    steered a f (c.extractLsb' (8 * 3) 8) ++ steered a f (c.extractLsb' (8 * 2) 8) ++
      steered a f (c.extractLsb' (8 * 1) 8) ++ steered a f (c.extractLsb' (8 * 0) 8) := by
  simp only [prmtWord, prmtByte_eq]

end Sys2Proof.Claim
end

section
/-! PROOF. Integer arithmetic, logic and bit fields (spec/06): results, BANKV and IDIV0. -/

namespace Sys2Proof.Claim

open Sys2Proof.Machine

/-! ## A V result for the trap bank (R65) -/

theorem isV_byLane (wd : Nat) {xs : List Shaped} (f : Nat → Word) (h : ∃ x ∈ xs, x.isV = true) :
    (byLane wd xs f).isV = true := by
  obtain ⟨x, hx, hv⟩ := h
  have hall : allU xs = false := by
    rw [allU, List.all_eq_false]
    refine ⟨x, hx, ?_⟩
    cases x <;> simp_all [Shaped.isU, Shaped.isV]
  rw [byLane, hall]
  rfl

theorem isV_map1 (wd : Nat) (f : Word → Word) {x : Shaped} (h : x.isV = true) : (map1 wd f x).isV = true :=
  isV_byLane wd _ (by simp [h])

theorem isV_map2 (wd : Nat) (f : Word → Word → Word) {x y : Shaped} (h : x.isV = true ∨ y.isV = true) :
    (map2 wd f x y).isV = true := isV_byLane wd _ (by simpa using h)

theorem isV_map3 (wd : Nat) (f : Word → Word → Word → Word) {x y z : Shaped}
    (h : x.isV = true ∨ y.isV = true ∨ z.isV = true) : (map3 wd f x y z).isV = true := isV_byLane wd _ (by simpa using h)

/-- A shape rule that beside a V source is computed lane by lane gives V there. -/
theorem isV_of_eq_map2 {wd : Nat} {f : Word → Word → Word} {g : Shaped → Shaped → Shaped}
    (hl : ∀ ls y, g (.v ls) y = map2 wd f (.v ls) y) (hr : ∀ x ls, g x (.v ls) = map2 wd f x (.v ls)) {x y : Shaped}
    (h : x.isV = true ∨ y.isV = true) : (g x y).isV = true := by
  rcases h with h | h
  · cases x with
    | v ls => rw [hl]; exact isV_map2 wd f (.inl h)
    | u _ _ => cases h
    | a _ _ _ => cases h
  · cases y with
    | v ls => rw [hr]; exact isV_map2 wd f (.inr h)
    | u _ _ => cases h
    | a _ _ _ => cases h

theorem isV_addShaped (wd : Nat) {x y : Shaped} : x.isV = true ∨ y.isV = true → (addShaped wd x y).isV = true :=
  isV_of_eq_map2 (g := addShaped wd) (fun _ _ => rfl) fun x _ => by cases x <;> rfl

theorem isV_subShaped (wd : Nat) {x y : Shaped} : x.isV = true ∨ y.isV = true → (subShaped wd x y).isV = true :=
  isV_of_eq_map2 (g := subShaped wd) (fun _ _ => rfl) fun x _ => by cases x <;> rfl

theorem isV_mulShaped (wd : Nat) {x y : Shaped} : x.isV = true ∨ y.isV = true → (mulShaped wd x y).isV = true :=
  isV_of_eq_map2 (g := mulShaped wd) (fun _ _ => rfl) fun x _ => by cases x <;> rfl

theorem isV_shlShaped (wd : Nat) {x y : Shaped} : x.isV = true ∨ y.isV = true → (shlShaped wd x y).isV = true :=
  isV_of_eq_map2 (g := shlShaped wd) (fun _ _ => rfl) fun x _ => by cases x <;> rfl

/-- A V result under a full mask leaves its register V. -/
theorem isV_write_full {wd : Nat} {present : LaneSet} (old : Shaped) {new : Shaped} (h : new.isV = true) :
    (Shaped.write wd present present old new).isV = true := by
  unfold Shaped.write
  rw [if_pos rfl]
  cases new with
  | v ls => rfl
  | u _ _ => cases h
  | a _ _ _ => cases h

/-- A V result leaves a trap-bank register V. -/
theorem bankV_true {s : State} (hs : s.w.pend = []) (hm : s.w.hm = true) (hact : s.act = s.present)
    {xs : List (Nat × Shaped)} (hd : (xs.map (·.1)).Nodup) {n : Nat} {x : Shaped} (hx : (n, x) ∈ xs) (hn : 56 ≤ n)
    (hv : x.isV = true) : s.w.bankV (results s xs) = true := by
  have hb : (s.w.hm && decide (56 ≤ n)) = true := by rw [hm, decide_eq_true hn, Bool.and_self]
  have hbank : (s.w.after (results s xs)).tReg (n - 56) = Shaped.write s.width s.present s.present (s.w.named n) x := by
    nth_rw 2 [← hact]
    rw [← named_after hd hx, Warp.named, after_hm, if_pos hb]
  unfold Warp.bankV
  rw [List.any_eq_true]
  refine ⟨s.res n x, List.mem_map.2 ⟨(n, x), hx, rfl⟩, ?_⟩
  simp only [State.res, State.dst, regDest, hb, if_true]
  rw [show s.w.issued = s.w by simp [Warp.issued, hs], hbank]
  exact isV_write_full _ hv

/-- An instruction whose results would leave a trap-bank register V traps when its unit is free. -/
theorem regStep_bankV {s : State} (h : Hdr) (u : UnitUse) (srcs : List Nat) {f : State → Except Stop (List Res)}
    {rs : List Res} (hf : f s = .ok rs) (hu : ∀ sl, isMgmt s.cur.wid = true ∨ s.slotFree sl ≤ s.now)
    (hb : s.w.bankV rs = true) : s.regStep h u srcs f = s.takeTrap (precise s cBANKV) := by
  unfold State.regStep State.effStep State.finStep
  simp only [hf, State.whenFree_free (hu _), hb]
  rfl

/-- AN INSTRUCTION WITH ONE REGISTER RESULT that is V when a source is raises BANKV for the trap bank. -/
theorem bankTraps_regStep {i : Instr} {s : State} {e : Effect} (h : Hdr) {u : UnitUse} {srcs : List Nat}
    {f : State → Except Stop (List Res)} {d : Nat} {x : Shaped} {l : Nat → Lane}
    (hx : exec i s = .next (s.regStep h u srcs f)) (hr : Ready s) (hf : f s = .ok (results s [(d, x)]))
    (ho : e.outs = [(d, l)]) (hv : (∃ n ∈ e.srcs, (reg s n).isV = true) → x.isV = true) : BankTraps i s e := by
  intro hm hroutes hact hsrc hout
  have hd : 56 ≤ d := by simpa [ho] using hout
  have hb := bankV_true hr.settled hm hact (xs := [(d, x)]) (by simp) (by simp) hd (hv hsrc)
  exact routedTo_iff.2 ⟨_, by rw [hx, regStep_bankV h u srcs hf hr.units hb],
    (Scheduled.refl s).takeTrap_routed hr.settled hroutes _⟩

/-! ## The forms of an instruction: its result, and BANKV -/

/-- The instruction completes with its effect where that is allowed, and raises BANKV for a V result to the trap bank. -/
def DoesOrTraps (i : Instr) (s : State) (e : Effect) : Prop := (Allowed s e → Does i s e) ∧ BankTraps i s e

section
variable {i : Instr} {s : State} {u : UnitUse} {srcs : List Nat} {d a b : Nat}

/-- A result from two registers, with a shape rule of R71. -/
theorem doesOrTraps_word2 (h : Hdr) {f : Word → Word → Word} {g : Nat → Shaped → Shaped → Shaped}
    (hx : exec i s = .next (s.regStep h u srcs fun s => .ok [s.res d (g s.width (s.rd a) (s.rd b))]))
    (hg : ∀ wd x y k, k < wd → (g wd x y).lane k = ⟨f (x.lane k).val (y.lane k).val, (x.lane k).poison || (y.lane k).poison⟩)
    (hu : ∀ wd x y, x.isU = true → y.isU = true → (g wd x y).isU = true)
    (hv : ∀ wd x y, x.isV = true ∨ y.isV = true → (g wd x y).isV = true)
    (hr : Ready s) : DoesOrTraps i s (word2 s d a b f) := by
  refine ⟨does_word2 h hx hg hu hr, bankTraps_regStep h hx hr rfl rfl fun hsrc => hv _ _ _ ?_⟩
  simpa [word2, out1, rd_eq hr.settled] using hsrc

/-- A result from two registers, V where it is not U from U and U. -/
theorem doesOrTraps_plain2 (h : Hdr) {f g : Word → Word → Word}
    (hx : exec i s = .next (s.regStep h u srcs fun s => .ok [s.res d (plainShape g s.width (s.rd a) (s.rd b))]))
    (hfg : ∀ x y, g x y = f x y) (hr : Ready s) : DoesOrTraps i s (word2 s d a b f) := by
  obtain rfl : g = f := funext fun x => funext fun y => hfg x y
  exact doesOrTraps_word2 h hx (fun wd x y k hk => lane_map2 wd g x y hk) (fun wd _ _ => isU_map2 wd g)
    (fun wd _ _ => isV_map2 wd g) hr

/-- A result from a register and an immediate, which is U, with a shape rule of R71. -/
theorem doesOrTraps_imm (h : Hdr) {f : Word → Word → Word} {g : Nat → Shaped → Shaped → Shaped} {im : Word}
    (hx : exec i s = .next (s.regStep h u srcs fun s => .ok [s.res d (g s.width (s.rd a) (.u im false))]))
    (hg : ∀ wd x y k, k < wd → (g wd x y).lane k = ⟨f (x.lane k).val (y.lane k).val, (x.lane k).poison || (y.lane k).poison⟩)
    (hu : ∀ wd x y, x.isU = true → y.isU = true → (g wd x y).isU = true)
    (hv : ∀ wd x y, x.isV = true ∨ y.isV = true → (g wd x y).isV = true)
    (hr : Ready s) : DoesOrTraps i s (word1 s d a fun x => f x im) := by
  refine ⟨does_imm h hx (fun wd x k hk => ?_) (fun wd x hx => hu _ _ _ hx rfl) hr,
    bankTraps_regStep h hx hr rfl rfl fun hsrc => hv _ _ _ (.inl ?_)⟩
  · rw [hg _ _ _ _ hk]
    simp [Shaped.lane]
  · simpa [word1, out1, rd_eq hr.settled] using hsrc

/-- A result from a register and an immediate, V where the register is not U. -/
theorem doesOrTraps_plainImm (h : Hdr) {f g : Word → Word → Word} {im : Word}
    (hx : exec i s = .next (s.regStep h u srcs fun s => .ok [s.res d (plainShape g s.width (s.rd a) (.u im false))]))
    (hfg : ∀ x y, g x y = f x y) (hr : Ready s) : DoesOrTraps i s (word1 s d a fun x => f x im) := by
  obtain rfl : g = f := funext fun x => funext fun y => hfg x y
  exact doesOrTraps_imm h hx (fun wd x y k hk => lane_map2 wd g x y hk) (fun wd _ _ => isU_map2 wd g)
    (fun wd _ _ => isV_map2 wd g) hr

/-- A result from one register. -/
theorem doesOrTraps_unary (h : Hdr) {f g : Word → Word}
    (hx : exec i s = .next (s.regStep h u srcs fun s => .ok [s.res d (map1 s.width g (s.rd a))]))
    (hfg : ∀ x, g x = f x) (hr : Ready s) : DoesOrTraps i s (word1 s d a f) := by
  obtain rfl : g = f := funext hfg
  refine ⟨does_unary h hx hr, bankTraps_regStep h hx hr rfl rfl fun hsrc => isV_map1 _ _ ?_⟩
  simpa [word1, out1, rd_eq hr.settled] using hsrc

/-- A result from three registers, with a shape rule of its own. -/
theorem doesOrTraps_word3 (h : Hdr) {c : Nat} {f : Word → Word → Word → Word} {g : Nat → Shaped → Shaped → Shaped → Shaped}
    (hx : exec i s = .next (s.regStep h u srcs fun s => .ok [s.res d (g s.width (s.rd a) (s.rd b) (s.rd c))]))
    (hg : ∀ wd x y z k, k < wd → (g wd x y z).lane k = ⟨f (x.lane k).val (y.lane k).val (z.lane k).val,
      (x.lane k).poison || ((y.lane k).poison || (z.lane k).poison)⟩)
    (hu : ∀ wd x y z, x.isU = true → y.isU = true → z.isU = true → (g wd x y z).isU = true)
    (hv : ∀ wd x y z, x.isV = true ∨ y.isV = true ∨ z.isV = true → (g wd x y z).isV = true)
    (hr : Ready s) : DoesOrTraps i s (out1 s d [a, b, c] fun k => f (word s a k) (word s b k) (word s c k)) := by
  have hs := hr.settled
  refine ⟨fun ha => ?_, bankTraps_regStep h hx hr rfl rfl fun hsrc => hv _ _ _ _ ?_⟩
  · refine does_regStep h u srcs [(d, g s.width (s.rd a) (s.rd b) (s.rd c))] hx hr ha rfl
      (.cons ⟨rfl, fun k hk _ => ?_, fun hun => ?_⟩ .nil) rfl (by simp) (by simp)
    · rw [hg _ _ _ _ _ hk, rd_eq hs, rd_eq hs, rd_eq hs]
      simp [poisons, word, poison, lane]
    · obtain ⟨-, huni, -⟩ := hun
      rw [rd_eq hs, rd_eq hs, rd_eq hs]
      exact hu _ _ _ _ (huni a (by simp [out1])) (huni b (by simp [out1])) (huni c (by simp [out1]))
  · simpa [out1, rd_eq hs] using hsrc

/-- A result from three registers, V where it is not U from U, U and U. -/
theorem doesOrTraps_plain3 (h : Hdr) {c : Nat} {f g : Word → Word → Word → Word}
    (hx : exec i s = .next (s.regStep h u srcs fun s => .ok [s.res d (map3 s.width g (s.rd a) (s.rd b) (s.rd c))]))
    (hfg : ∀ x y z, g x y z = f x y z) (hr : Ready s) :
    DoesOrTraps i s (out1 s d [a, b, c] fun k => f (word s a k) (word s b k) (word s c k)) := by
  obtain rfl : g = f := funext fun x => funext fun y => funext fun z => hfg x y z
  exact doesOrTraps_word3 h (g := fun wd => map3 wd g) hx (fun wd x y z _ hk => lane_map3 wd g x y z hk)
    (fun wd _ _ _ => isU_map3 wd g) (fun wd _ _ _ => isV_map3 wd g) hr

end

/-! ## IAR but divide and remainder (R156, R163) -/

theorem lane_madShaped (wd : Nat) (x y z : Shaped) {k : Nat} (hk : k < wd) :
    (addShaped wd (mulShaped wd x y) z).lane k = ⟨(x.lane k).val * (y.lane k).val + (z.lane k).val,
      (x.lane k).poison || ((y.lane k).poison || (z.lane k).poison)⟩ := by
  rw [lane_addShaped _ _ _ hk, lane_mulShaped _ _ _ hk, Bool.or_assoc]

theorem isU_madShaped (wd : Nat) {x y z : Shaped} (hx : x.isU = true) (hy : y.isU = true) (hz : z.isU = true) :
    (addShaped wd (mulShaped wd x y) z).isU = true :=
  isU_addShaped wd (isU_mulShaped wd hx hy) hz

theorem isV_madShaped (wd : Nat) {x y z : Shaped} (h : x.isV = true ∨ y.isV = true ∨ z.isV = true) :
    (addShaped wd (mulShaped wd x y) z).isV = true := by
  rcases h with h | h | h
  · exact isV_addShaped wd (.inl (isV_mulShaped wd (.inl h)))
  · exact isV_addShaped wd (.inl (isV_mulShaped wd (.inr h)))
  · exact isV_addShaped wd (.inr h)

section
variable {i : Instr} {s : State} {e : Effect} {d a b : BitVec 6} {f : Word → Word → Word}

/-- By FN, in the order of the table: the Add and Scale rows of R71, the high products, the clamped sums and differences, ABSD
and DP4. -/
theorem doesOrTraps_iarWord (hi : iarWord i = some (d, a, b, f)) (hr : Ready s) :
    DoesOrTraps i s (word2 s d.toNat a.toNat b.toNat f) := by
  unfold iarWord at hi
  split at hi <;> cases hi
  case h_1 h => exact doesOrTraps_word2 h rfl lane_addShaped isU_addShaped isV_addShaped hr
  case h_2 h => exact doesOrTraps_word2 h rfl lane_subShaped isU_subShaped isV_subShaped hr
  case h_3 h => exact doesOrTraps_word2 h rfl lane_mulShaped isU_mulShaped isV_mulShaped hr
  case h_4 h => exact doesOrTraps_plain2 h rfl mulhSigned_eq hr
  case h_5 h => exact doesOrTraps_plain2 h rfl mulhPlain_eq hr
  case h_6 h | h_8 h => exact doesOrTraps_plain2 h rfl (fun _ _ => clampSigned_eq _) hr
  case h_7 h | h_9 h => exact doesOrTraps_plain2 h rfl (fun _ _ => clampPlain_eq _) hr
  case h_10 h => exact doesOrTraps_plain2 h rfl absDiff_eq hr
  case h_11 h => exact doesOrTraps_plain2 h rfl dot4_eq hr

/-- MAD, the 16-bit forms and the immediate ones, in the order of the table; then the operations by FN. -/
theorem doesOrTraps_iar (hi : iarEffect i s = some e) (hr : Ready s) : DoesOrTraps i s e := by
  unfold iarEffect at hi
  split at hi
  case h_1 h d a b =>
    cases hi
    exact doesOrTraps_word3 h (f := fun x y z => x * y + z) rfl
      (fun wd x y z _ hk => lane_madShaped wd x y z hk) (fun wd _ _ _ => isU_madShaped wd) (fun wd _ _ _ => isV_madShaped wd) hr
  case h_2 sw d a =>
    cases hi
    exact doesOrTraps_word2 (hdr16 sw) rfl lane_addShaped isU_addShaped isV_addShaped hr
  case h_3 sw d a =>
    cases hi
    exact doesOrTraps_word2 (hdr16 sw) rfl lane_subShaped isU_subShaped isV_subShaped hr
  case h_4 sw d a =>
    cases hi
    exact doesOrTraps_word2 (hdr16 sw) rfl lane_mulShaped isU_mulShaped isV_mulShaped hr
  case h_5 h d a im =>
    cases hi
    exact doesOrTraps_imm h rfl lane_addShaped isU_addShaped isV_addShaped hr
  case h_6 h d a im =>
    cases hi
    exact doesOrTraps_imm h rfl lane_mulShaped isU_mulShaped isV_mulShaped hr
  case h_7 =>
    obtain ⟨⟨d, a, b, f⟩, hword, rfl⟩ := Option.map_eq_some_iff.1 hi
    exact doesOrTraps_iarWord hword hr

/-! ## Divide and remainder (R157) -/

/-- DIV and REM are one step, with a function that is that of the rule. -/
theorem exec_divWord (hi : divWord i = some (d, a, b, f)) (s : State) :
    ∃ h g, (∀ x y, g x y = f x y) ∧ exec i s = .next (s.divStep h g d.toNat a.toNat b.toNat) := by
  unfold divWord at hi
  split at hi <;> cases hi
  case h_1 h => exact ⟨h, divSigned, divSigned_eq, rfl⟩
  case h_2 h => exact ⟨h, divPlain, divPlain_eq, rfl⟩
  case h_3 h => exact ⟨h, remSigned, remSigned_eq, rfl⟩
  case h_4 h => exact ⟨h, remPlain, remPlain_eq, rfl⟩

/-- No lane is named exactly when the list of lanes is empty. -/
theorem ofList_eq_zero {l : List Nat} (h : ∀ k ∈ l, k < 64) : LaneSet.ofList l = 0 ↔ l = [] := by
  refine ⟨fun h0 => List.eq_nil_iff_forall_not_mem.2 fun k hk => ?_, fun h0 => by rw [h0]; rfl⟩
  have hbit := getLsbD_ofList l (h k hk)
  rw [h0, decide_eq_true hk] at hbit
  simp at hbit

/-- What a divide reads as its zero divisors. -/
theorem zeroDivisors_rd (hs : s.w.pend = []) (b : Nat) :
    ((LaneSet.toList s.act).filter fun k => ((s.rd b).lane k).val == 0) =
      (LaneSet.toList s.act).filter fun k => word s b k == 0 := by
  rw [rd_eq hs]
  rfl

theorem zeroLanes_eq_zero (s : State) (b : Nat) :
    zeroLanes s b = 0 ↔ ((LaneSet.toList s.act).filter fun k => word s b k == 0) = [] :=
  ofList_eq_zero fun _ hk => BitVec.lt_of_getLsbD (mem_toList.1 (List.mem_of_mem_filter hk))

/-- Without a zero divisor, or with IDZ 0, divide and remainder only write their result. -/
theorem divStep_defined (h : Hdr) {d a b : Nat} (hr : Ready s) (hz : zeroLanes s b = 0 ∨ s.fmt.getLsbD 16 = false) :
    s.divStep h f d a b =
      s.regStep h (.alu 24 24 1) [a, b] fun s => .ok [s.res d (plainShape f s.width (s.rd a) (s.rd b))] := by
  have hno : (s.fmt.getLsbD 16 && !((LaneSet.toList s.act).filter fun k => word s b k == 0).isEmpty) = false := by
    rcases hz with hz | hz
    · rw [(zeroLanes_eq_zero s b).1 hz]
      exact Bool.and_false _
    · rw [hz, Bool.false_and]
  unfold State.divStep State.regStep State.effStep State.finStep
  simp only [zeroDivisors_rd hr.settled, hno]
  rfl

/-- With a zero divisor and IDZ 1 it traps, and names the lanes. -/
theorem divStep_traps (h : Hdr) {d a b : Nat} (hr : Ready s) (hz : zeroLanes s b ≠ 0) (hf : s.fmt.getLsbD 16 = true) :
    s.divStep h f d a b = s.takeTrap { precise s cIDIV0 with flanes := zeroLanes s b } := by
  have hyes : (s.fmt.getLsbD 16 && !((LaneSet.toList s.act).filter fun k => word s b k == 0).isEmpty) = true := by
    rw [hf, Bool.true_and, Bool.not_eq_true', List.isEmpty_eq_false_iff]
    exact fun h0 => hz ((zeroLanes_eq_zero s b).2 h0)
  unfold State.divStep State.regStep State.effStep State.finStep
  simp only [zeroDivisors_rd hr.settled, hyes, if_true, State.whenFree_free (hr.units _)]
  rfl

theorem doesOrTraps_div (hi : divWord i = some (d, a, b, f)) (hr : Ready s)
    (hz : zeroLanes s b.toNat = 0 ∨ s.fmt.getLsbD 16 = false) : DoesOrTraps i s (word2 s d.toNat a.toNat b.toNat f) := by
  obtain ⟨h, g, hgf, hx⟩ := exec_divWord hi s
  rw [divStep_defined h hr hz] at hx
  exact doesOrTraps_plain2 h hx hgf hr

/-- IDIV0. -/
theorem div_traps (hi : divWord i = some (d, a, b, f)) (hr : Ready s) (hz : zeroLanes s b.toNat ≠ 0)
    (hf : s.fmt.getLsbD 16 = true) (ht : Takes s) :
    Traps i s { precise s cIDIV0 with flanes := zeroLanes s b.toNat } := by
  obtain ⟨h, g, -, hx⟩ := exec_divWord hi s
  exact ⟨_, by rw [hx, divStep_traps h hr hz hf], takeTrap_enters hr.settled ht (show cIDIV0 ≠ cBANKV by decide)⟩

/-! ## ILG and BITF (R158, R160, R163) -/

/-- By FN, in the order of the table: the bitwise operations, the shifts and the rotation, minimum and maximum. -/
theorem doesOrTraps_ilgWord (hi : ilgWord i = some (d, a, b, f)) (hr : Ready s) :
    DoesOrTraps i s (word2 s d.toNat a.toNat b.toNat f) := by
  unfold ilgWord at hi
  split at hi <;> cases hi
  case h_1 h | h_2 h | h_3 h | h_4 h => exact doesOrTraps_plain2 h rfl (fun _ _ => rfl) hr
  case h_5 h => exact doesOrTraps_word2 h rfl lane_shlShaped isU_shlShaped isV_shlShaped hr
  case h_6 h => exact doesOrTraps_plain2 h rfl shrWord_eq hr
  case h_7 h => exact doesOrTraps_plain2 h rfl sarWord_eq hr
  case h_8 h => exact doesOrTraps_plain2 h rfl rotateLeft_eq hr
  case h_9 h => exact doesOrTraps_plain2 h rfl minSigned_eq hr
  case h_10 h => exact doesOrTraps_plain2 h rfl maxSigned_eq hr
  case h_11 h => exact doesOrTraps_plain2 h rfl minPlain_eq hr
  case h_12 h => exact doesOrTraps_plain2 h rfl maxPlain_eq hr

/-- The amount of an immediate shift, as the word that the model shifts by. -/
theorem toNat_shiftAmount (n : BitVec 5) : (n.zeroExtend 32).toNat = n.toNat := BitVec.toNat_setWidth_of_le (by decide)

/-- The operations on one register, the 16-bit forms and the immediate ones, in the order of the table; then those by FN. -/
theorem doesOrTraps_ilg (hi : ilgEffect i s = some e) (hr : Ready s) : DoesOrTraps i s e := by
  unfold ilgEffect at hi
  split at hi
  case h_1 h d a => cases hi; exact doesOrTraps_unary h rfl leadingZeros_eq hr
  case h_2 h d a => cases hi; exact doesOrTraps_unary h rfl countOnes_eq hr
  case h_3 h d a => cases hi; exact doesOrTraps_unary h rfl reverse_eq hr
  case h_4 h d a => cases hi; exact doesOrTraps_unary h rfl absWord_eq hr
  case h_5 sw d a | h_6 sw d a | h_7 sw d a => cases hi; exact doesOrTraps_plain2 (hdr16 sw) rfl (fun _ _ => rfl) hr
  case h_8 sw d a => cases hi; exact doesOrTraps_word2 (hdr16 sw) rfl lane_shlShaped isU_shlShaped isV_shlShaped hr
  case h_9 sw d a => cases hi; exact doesOrTraps_plain2 (hdr16 sw) rfl shrWord_eq hr
  case h_10 sw d a => cases hi; exact doesOrTraps_plain2 (hdr16 sw) rfl sarWord_eq hr
  case h_11 sw d a => cases hi; exact doesOrTraps_plain2 (hdr16 sw) rfl minSigned_eq hr
  case h_12 sw d a => cases hi; exact doesOrTraps_plain2 (hdr16 sw) rfl maxSigned_eq hr
  case h_13 h d a im | h_14 h d a im | h_15 h d a im =>
    cases hi
    exact doesOrTraps_plainImm h rfl (fun _ _ => rfl) hr
  case h_16 h d a n =>
    cases hi
    rw [← toNat_shiftAmount n]
    exact doesOrTraps_imm h (f := fun x y => x <<< y.toNat) rfl lane_shlShaped isU_shlShaped isV_shlShaped hr
  case h_17 h d a n =>
    cases hi
    rw [← toNat_shiftAmount n]
    exact doesOrTraps_plainImm h rfl shrWord_eq hr
  case h_18 h d a n =>
    cases hi
    rw [← toNat_shiftAmount n]
    exact doesOrTraps_plainImm h rfl sarWord_eq hr
  case h_19 =>
    obtain ⟨⟨d, a, b, f⟩, hword, rfl⟩ := Option.map_eq_some_iff.1 hi
    exact doesOrTraps_ilgWord hword hr

theorem doesOrTraps_bitf (hi : bitfEffect i s = some e) (hr : Ready s) : DoesOrTraps i s e := by
  unfold bitfEffect at hi
  split at hi <;> cases hi
  case h_1 h d a b => exact doesOrTraps_plain2 h rfl bfePlain_eq hr
  case h_2 h d a b => exact doesOrTraps_plain2 h rfl bfeSigned_eq hr
  case h_3 h d a b => exact doesOrTraps_plain3 h rfl bfiWord_eq hr
  case h_4 h d a b => exact doesOrTraps_plain3 h rfl prmtWord_eq hr

end

/-- Settles O9: every IAR instruction is one of the forms above, and DIV and REM are, but for a zero divisor under IDZ. -/
theorem integerResults : Obligations.IntegerResults := by
  unfold Obligations.IntegerResults
  exact ⟨fun i s e hi hr => doesOrTraps_iar hi hr, fun i s d a b f hi hr =>
    ⟨doesOrTraps_div hi hr, fun hz hf ht => div_traps hi hr hz hf ht⟩⟩

/-- Settles O10: every ILG and BITF instruction is one of the forms above. -/
theorem logicResults : Obligations.LogicResults := by
  unfold Obligations.LogicResults
  intro i s e hi hr
  rcases (Option.orElse_eq_some _ _ _).1 hi with h | ⟨-, h⟩
  · exact doesOrTraps_ilg h hr
  · exact doesOrTraps_bitf h hr

end Sys2Proof.Claim
end

section
/-! PROOF. The check of R203: an instruction whose results go through it traps FPX or completes; float results and
what their lanes are made from (spec/08). -/

namespace Sys2Proof.Claim

open Sys2Proof.Machine

/-! ## The check of R203 -/

theorem raising_eq_nil {s : State} {e : Effect} :
    raising s e = [] ↔ ∀ k, s.act.getLsbD k = true → e.exc k &&& tenOf s.fmt = 0 := by
  simp [raising, List.filter_eq_nil_iff, mem_toList]

theorem Allowed.no_raising {s : State} {e : Effect} (h : Allowed s e) : raising s e = [] := raising_eq_nil.2 h.1

/-- Outside a handler nothing else keeps an instruction from its effect. -/
theorem allowed_of_user {s : State} {e : Effect} (hm : s.w.hm = false) (h : raising s e = []) : Allowed s e :=
  ⟨raising_eq_nil.1 h, fun hm' => absurd (hm'.symm.trans hm) (by decide)⟩

/-- The check traps exactly where a lane raises an enabled exception, and names those lanes. -/
theorem orFpx_eq {s : State} {e : Effect} {exc : Nat → FExc} (hexc : ∀ k, s.act.getLsbD k = true → exc k = e.exc k)
    (rs : List Res) : orFpx s exc rs = if raising s e = [] then .ok rs else .error (.after (fpx s e) rs) := by
  have hlanes : ((LaneSet.toList s.act).filter fun k => exc k &&& tenOf s.fmt ≠ 0) = raising s e :=
    List.filter_congr fun k hk => by rw [hexc k (mem_toList.1 hk), decide_not]; rfl
  have hfold : (raising s e).foldl (fun x k => x ||| exc k) 0 = (raising s e).foldl (fun x k => x ||| e.exc k) 0 :=
    List.foldl_ext _ _ _ fun x k hk => by rw [hexc k (mem_toList.1 (List.mem_of_mem_filter hk))]
  unfold orFpx fpxStop
  simp only [hlanes, hfold, List.isEmpty_iff]
  split_ifs <;> rfl

/-- An instruction whose results show that it traps. -/
theorem regStep_after {s : State} (h : Hdr) (u : UnitUse) (srcs : List Nat) {f : State → Except Stop (List Res)}
    {c : TrapInfo} {rs : List Res} (hf : f s = .error (.after c rs))
    (hu : ∀ sl, isMgmt s.cur.wid = true ∨ s.slotFree sl ≤ s.now) : s.regStep h u srcs f = s.takeTrap c := by
  unfold State.regStep State.effStep State.finStep
  simp only [hf, State.whenFree_free (hu _)]
  rfl

/-- The instruction traps FPX where an active lane raises an enabled exception, and does what its effect says where that is
allowed (R203). -/
def FpxOrDoes (i : Instr) (s : State) (e : Effect) : Prop :=
  (raising s e ≠ [] → exec i s = .next (s.takeTrap (fpx s e))) ∧ (Allowed s e → Does i s e)

theorem FpxOrDoes.traps {i : Instr} {s : State} {e : Effect} (h : FpxOrDoes i s e) (hs : s.w.pend = [])
    (hr : raising s e ≠ []) (ht : Takes s) : Traps i s (fpx s e) :=
  ⟨_, h.1 hr, takeTrap_enters hs ht (show cFPX ≠ cBANKV by decide)⟩

theorem FpxOrDoes.does {i : Instr} {s : State} {e : Effect} (h : FpxOrDoes i s e) (hr : raising s e = [])
    (hm : s.w.hm = false) : Does i s e := h.2 (allowed_of_user hm hr)

section
variable {i : Instr} {s : State} {e : Effect} {u : UnitUse} {srcs : List Nat} {f : State → Except Stop (List Res)}
  {exc : Nat → FExc} {rs : List Res}

theorem fpxOrDoes_of_orFpx (h : Hdr) (hx : exec i s = .next (s.regStep h u srcs f)) (hr : Ready s)
    (hf : f s = orFpx s exc rs) (hexc : ∀ k, s.act.getLsbD k = true → exc k = e.exc k)
    (hdoes : f s = .ok rs → Allowed s e → Does i s e) : FpxOrDoes i s e := by
  rw [orFpx_eq hexc] at hf
  constructor
  · intro hne
    rw [if_neg hne] at hf
    rw [hx, regStep_after h u srcs hf hr.units]
  · intro ha
    rw [if_pos ha.no_raising] at hf
    exact hdoes hf ha

/-- AN INSTRUCTION WITH REGISTER RESULTS and the check of R203. -/
theorem fpxOrDoes_regs (h : Hdr) (xs : List (Nat × Shaped)) (hx : exec i s = .next (s.regStep h u srcs f)) (hr : Ready s)
    (hf : f s = orFpx s exc (results s xs)) (hexc : ∀ k, s.act.getLsbD k = true → exc k = e.exc k) (ho : Makes s e xs)
    (hp : e.pouts = []) (hl : xs.length < 5) (hd : (xs.map (·.1)).Nodup) : FpxOrDoes i s e :=
  fpxOrDoes_of_orFpx h hx hr hf hexc fun hok ha => does_regStep h u srcs xs hx hr ha hok ho hp hl hd

/-- AN INSTRUCTION WITH A PREDICATE RESULT and the check of R203. -/
theorem fpxOrDoes_pred (h : Hdr) {n : Nat} {x : Pred} {g : Nat → Bool} (hx : exec i s = .next (s.regStep h u srcs f))
    (hr : Ready s) (hf : f s = orFpx s exc [s.resP n x]) (hexc : ∀ k, s.act.getLsbD k = true → exc k = e.exc k)
    (he : e.outs = []) (hp : e.pouts = [(n, g)]) (hg : ∀ k < s.width, s.act.getLsbD k = true → x.lane k = g k)
    (hu : e.uniform s → x.isV = false) : FpxOrDoes i s e :=
  fpxOrDoes_of_orFpx h hx hr hf hexc fun hok _ => does_predStep h u srcs n x g hx hr hok he hp hg hu

/-- An instruction that raises no exception does not trap. -/
theorem fpxOrDoes_quiet (hexc : ∀ k, e.exc k = 0) (hdoes : Allowed s e → Does i s e) : FpxOrDoes i s e :=
  ⟨fun h => absurd (raising_eq_nil.2 fun k _ => by rw [hexc k]; exact BitVec.zero_and) h, hdoes⟩
end

/-! ## Float results (R207-R219) -/

theorem fword_eq {s : State} (hs : s.w.pend = []) (n k : Nat) : s.fword n k = bits s n k := by
  rw [State.fword, rd_eq hs]
  rfl

theorem pairAt_eq {s : State} (hs : s.w.pend = []) (n k : Nat) : s.pairAt n k = dword s n k := by
  rw [State.pairAt, rd_eq hs, rd_eq hs]
  rfl

theorem fdword_eq {s : State} (hs : s.w.pend = []) (n k : Nat) : s.fdword n k = bits64 s n k := by
  rw [State.fdword, pairAt_eq hs]
  rfl

theorem wordAt_eq {s : State} (hs : s.w.pend = []) (n k : Nat) : s.wordAt n k = word s n k := by
  rw [State.wordAt, rd_eq hs]
  rfl

/-- A value is made lane by lane from registers `ns`: lanes with equal sources have equal values. -/
def MadeFrom {α : Type} (s : State) (ns : List Nat) (g : Nat → α) : Prop :=
  ∀ k, (∀ n ∈ ns, lane s n k = lane s n 0) → g k = g 0

theorem MadeFrom.of_allU {α : Type} {s : State} {ns : List Nat} {g : Nat → α} (h : MadeFrom s ns g) (hs : s.w.pend = [])
    (hu : allU (ns.map s.rd) = true) (k : Nat) : g k = g 0 :=
  h k fun n hn => Shaped.lane_of_isU (srcs_allU hs hu n hn) k

/-- From U sources the one computation raises what each lane would (R203). -/
theorem exc_madeFrom {α : Type} {s : State} {ns : List Nat} {g : Nat → α × FExc} (h : MadeFrom s ns g) (hs : s.w.pend = [])
    (k : Nat) : (if allU (ns.map s.rd) then (g 0).2 else (g k).2) = (g k).2 := by
  split
  · rename_i hu
    rw [h.of_allU hs hu k]
  · rfl

/-- A lane of a result made from registers `ns`. -/
theorem lane_madeFrom {s : State} {ns : List Nat} {v : Nat → Word} (h : MadeFrom s ns v) (hs : s.w.pend = []) {k : Nat}
    (hk : k < s.width) : (byLane s.width (ns.map s.rd) v).lane k = ⟨v k, poisons s ns k⟩ := by
  rw [lane_byLane _ _ _ hk fun hu => h.of_allU hs hu k, lane_srcs hs]

theorem MadeFrom.comp {α β : Type} {s : State} {ns : List Nat} {g : Nat → α} (h : MadeFrom s ns g) (f : α → β) :
    MadeFrom s ns fun k => f (g k) := fun k hk => congrArg f (h k hk)

theorem makes_out1 {s : State} {ns : List Nat} {d : Nat} {v : Nat → Word} (h : MadeFrom s ns v) (hs : s.w.pend = []) :
    Makes s (out1 s d ns v) [(d, byLane s.width (ns.map s.rd) v)] :=
  .cons ⟨rfl, fun _ hk _ => lane_madeFrom h hs hk, fun ⟨_, hu, _⟩ => isU_byLane _ _ (allU_srcs hs hu)⟩ .nil

theorem makes_out2 {s : State} {ns : List Nat} {d : Nat} {v : Nat → DWord} (h : MadeFrom s ns v) (hs : s.w.pend = []) :
    Makes s (out2 s d ns v)
      [(d, (pairBy s.width (ns.map s.rd) v).1), (d + 1, (pairBy s.width (ns.map s.rd) v).2)] :=
  .cons ⟨rfl, fun _ hk _ => lane_madeFrom (h.comp loWord) hs hk, fun ⟨_, hu, _⟩ => isU_byLane _ _ (allU_srcs hs hu)⟩
    (.cons ⟨rfl, fun _ hk _ => lane_madeFrom (h.comp hiWord) hs hk, fun ⟨_, hu, _⟩ => isU_byLane _ _ (allU_srcs hs hu)⟩
      .nil)

section
variable {i : Instr} {s : State} {u : UnitUse} {srcs ns : List Nat} {d : Nat} {f : State → Except Stop (List Res)}
  {v g : Nat → FRes}

/-- A float result in one register (R203, R207). -/
theorem fpxOrDoes_fout (h : Hdr) (hx : exec i s = .next (s.regStep h u srcs f)) (hr : Ready s)
    (hf : f s = floatRes s d (ns.map s.rd) v) (hv : ∀ k, v k = g k) (hg : MadeFrom s ns g) :
    FpxOrDoes i s (fout s d ns g) := by
  obtain rfl : v = g := funext hv
  exact fpxOrDoes_regs h [(d, byLane s.width (ns.map s.rd) fun k => wordOp (v k))] hx hr hf
    (fun k _ => exc_madeFrom hg hr.settled k) (makes_out1 (hg.comp wordOp) hr.settled) rfl (by simp) (by simp)

/-- A float result in a pair. -/
theorem fpxOrDoes_fout2 (h : Hdr) (hx : exec i s = .next (s.regStep h u srcs f)) (hr : Ready s)
    (hf : f s = floatRes64 s d (ns.map s.rd) v) (hv : ∀ k, v k = g k) (hg : MadeFrom s ns g) :
    FpxOrDoes i s (fout2 s d ns g) := by
  obtain rfl : v = g := funext hv
  let x := pairBy s.width (ns.map s.rd) fun k => dwordOp (v k)
  exact fpxOrDoes_regs h [(d, x.1), (d + 1, x.2)] hx hr hf
    (fun k _ => exc_madeFrom hg hr.settled k) (makes_out2 (hg.comp dwordOp) hr.settled) rfl (by simp) (by simp)
end

/-! ## What a result is made from -/

section
variable {α β γ δ : Type} {s : State} {ns : List Nat}

theorem madeFrom_word {n : Nat} (hn : n ∈ ns) : MadeFrom s ns (word s n) := fun _ h => congrArg Lane.val (h n hn)

theorem madeFrom_bits {n : Nat} (hn : n ∈ ns) : MadeFrom s ns (bits s n) := (madeFrom_word hn).comp BitVec.toNat

theorem MadeFrom.comp2 {g : Nat → α} {k : Nat → β} (hg : MadeFrom s ns g) (hk : MadeFrom s ns k) (f : α → β → γ) :
    MadeFrom s ns fun j => f (g j) (k j) := fun j hj => congrArg₂ f (hg j hj) (hk j hj)

theorem MadeFrom.comp3 {g : Nat → α} {k : Nat → β} {l : Nat → γ} (hg : MadeFrom s ns g) (hk : MadeFrom s ns k)
    (hl : MadeFrom s ns l) (f : α → β → γ → δ) : MadeFrom s ns fun j => f (g j) (k j) (l j) :=
  (hg.comp2 hk f).comp2 hl fun x y => x y

theorem madeFrom_dword {n : Nat} (hlo : n ∈ ns) (hhi : n + 1 ∈ ns) : MadeFrom s ns (dword s n) :=
  (madeFrom_word hhi).comp2 (madeFrom_word hlo) fun x y => x ++ y

theorem madeFrom_bits64 {n : Nat} (hlo : n ∈ ns) (hhi : n + 1 ∈ ns) : MadeFrom s ns (bits64 s n) :=
  (madeFrom_dword hlo hhi).comp BitVec.toNat
end

end Sys2Proof.Claim
end

section
/-! PROOF. The FP32, FP64 and H2 arithmetic, the special functions, FCMP and FCVT (spec/08): results, and the FPX trap. -/

namespace Sys2Proof.Claim

open Sys2Proof.Machine

/-! ## Signs (R209) -/

theorem clearSign_eq (n : Nat) (x : BitVec (1 + n)) :
    x &&& BitVec.ofNat (1 + n) (2 ^ n - 1) = 0#1 ++ x.extractLsb' 0 n := by
  refine BitVec.eq_of_getLsbD_eq fun j hj => ?_
  rw [BitVec.getLsbD_and, BitVec.getLsbD_ofNat, Nat.testBit_two_pow_sub_one, BitVec.getLsbD_append,
    BitVec.getLsbD_extractLsb', decide_eq_true hj]
  by_cases h : j < n <;> simp [h]

theorem flipSign_eq (n : Nat) (x : BitVec (1 + n)) :
    x ^^^ BitVec.twoPow (1 + n) n = ~~~(x.extractLsb' n 1) ++ x.extractLsb' 0 n := by
  refine BitVec.eq_of_getLsbD_eq fun j hj => ?_
  rw [BitVec.getLsbD_xor, BitVec.getLsbD_twoPow, BitVec.getLsbD_append, BitVec.getLsbD_not,
    BitVec.getLsbD_extractLsb', BitVec.getLsbD_extractLsb']
  rcases Nat.lt_or_ge j n with h | h
  · simp [h, h.ne']
  · obtain rfl : j = n := by omega
    simp

/-- One bit set (R209). -/
theorem ofNat_two_pow (j : Nat) : BitVec.ofNat 32 (2 ^ j) = BitVec.twoPow 32 j := by
  apply BitVec.eq_of_toNat_eq
  rw [BitVec.toNat_ofNat, BitVec.toNat_twoPow]

/-! ## FP32 (R207-R211) -/

section
variable {i : Instr} {s : State} {e : Effect} {u : UnitUse} {d a b c ls lv : Nat}

/-- A result from one register. -/
theorem fpxOrDoes_bits1 (h : Hdr) {op : FEnv → Nat → FRes}
    (hx : exec i s = .next (s.regStep h u [a] fun s => floatRes s d [s.rd a] fun k => op s.env (s.fword a k)))
    (hr : Ready s) :
    FpxOrDoes i s (fout s d [a] fun k => op (env s) (bits s a k)) :=
  fpxOrDoes_fout (ns := [a]) h hx hr rfl (fun k => congrArg (op (env s)) (fword_eq hr.settled a k))
    ((madeFrom_bits (by simp)).comp (op (env s)))

/-- A result from two registers. -/
theorem fpxOrDoes_bits2 (h : Hdr) {op : FEnv → Nat → Nat → FRes}
    (hx : exec i s = .next (s.f32Step h ls lv d [a, b] fun s k => op s.env (s.fword a k) (s.fword b k))) (hr : Ready s) :
    FpxOrDoes i s (fout s d [a, b] fun k => op (env s) (bits s a k) (bits s b k)) :=
  fpxOrDoes_fout h hx hr rfl (fun k => congrArg₂ (op (env s)) (fword_eq hr.settled a k) (fword_eq hr.settled b k))
    ((madeFrom_bits (by simp)).comp2 (madeFrom_bits (by simp)) (op (env s)))

/-- A result from three registers. -/
theorem fpxOrDoes_bits3 (h : Hdr) {op : FEnv → Nat → Nat → Nat → FRes}
    (hx : exec i s = .next
      (s.f32Step h ls lv d [a, b, c] fun s k => op s.env (s.fword a k) (s.fword b k) (s.fword c k))) (hr : Ready s) :
    FpxOrDoes i s (fout s d [a, b, c] fun k => op (env s) (bits s a k) (bits s b k) (bits s c k)) :=
  fpxOrDoes_fout h hx hr rfl (fun k => by simp only [fword_eq hr.settled]; rfl)
    ((madeFrom_bits (by simp)).comp3 (madeFrom_bits (by simp)) (madeFrom_bits (by simp)) (op (env s)))

/-- A result from a register and a signed word. -/
theorem fpxOrDoes_scale (h : Hdr) {op : FEnv → Nat → Int → FRes}
    (hx : exec i s = .next (s.f32Step h ls lv d [a, b] fun s k => op s.env (s.fword a k) (s.wordAt b k).toInt))
    (hr : Ready s) :
    FpxOrDoes i s (fout s d [a, b] fun k => op (env s) (bits s a k) (word s b k).toInt) :=
  fpxOrDoes_fout h hx hr rfl (fun k => by simp only [fword_eq hr.settled, wordAt_eq hr.settled]; rfl)
    ((madeFrom_bits (by simp)).comp2 (madeFrom_word (by simp)) fun x y => op (env s) x y.toInt)

/-- A result that raises nothing, from one register. -/
theorem fpxOrDoes_unary (h : Hdr) {f g : Word → Word} (hx : exec i s = .next (s.unaryStep h g d a))
    (hfg : ∀ x, g x = f x) (hr : Ready s) : FpxOrDoes i s (word1 s d a f) :=
  fpxOrDoes_quiet (fun _ => rfl) (doesOrTraps_unary h hx hfg hr).1

theorem fpxOrDoes_fp32 (hi : fp32Effect i s = some e) (hr : Ready s) : FpxOrDoes i s e := by
  unfold fp32Effect at hi
  split at hi <;> cases hi
  case h_1 h d a b => exact fpxOrDoes_bits2 h (op := fadd .f32) rfl hr
  case h_2 h d a b => exact fpxOrDoes_bits2 h (op := fsub .f32) rfl hr
  case h_3 h d a b => exact fpxOrDoes_bits2 h (op := fmul .f32) rfl hr
  case h_4 h d a b => exact fpxOrDoes_bits2 h (op := fdiv .f32) rfl hr
  case h_5 h d a b => exact fpxOrDoes_bits2 h (op := fmin2 .f32) rfl hr
  case h_6 h d a b => exact fpxOrDoes_bits2 h (op := fmax2 .f32) rfl hr
  case h_7 sw d a => exact fpxOrDoes_bits2 (hdr16 sw) (op := fadd .f32) rfl hr
  case h_8 sw d a => exact fpxOrDoes_bits2 (hdr16 sw) (op := fmul .f32) rfl hr
  case h_9 sw d a => exact fpxOrDoes_bits2 (hdr16 sw) (op := fmin2 .f32) rfl hr
  case h_10 sw d a => exact fpxOrDoes_bits2 (hdr16 sw) (op := fmax2 .f32) rfl hr
  case h_11 h d a b => exact fpxOrDoes_bits3 h (op := ffma .f32) rfl hr
  case h_12 h d a => exact fpxOrDoes_bits1 h (op := fsqrt .f32) rfl hr
  case h_13 h d a b => exact fpxOrDoes_scale h (op := fscale .f32) rfl hr
  case h_14 h d a b => exact fpxOrDoes_bits1 h (op := fun v => frnd .f32 v (frndMode v b.toNat)) rfl hr
  case h_15 h d a => exact fpxOrDoes_unary h rfl (clearSign_eq 31) hr
  case h_16 h d a => exact fpxOrDoes_unary h rfl (flipSign_eq 31) hr
  case h_17 h d a => exact fpxOrDoes_unary h rfl (fun _ => ofNat_two_pow _) hr

/-! ## FP64 (R207-R211) -/

/-- A result from one pair. -/
theorem fpxOrDoes_pair1 (h : Hdr) {op : FEnv → Nat → FRes}
    (hx : exec i s = .next (s.f64Step h ls lv d (pairRegs a) fun s k => op s.env (s.fdword a k))) (hr : Ready s) :
    FpxOrDoes i s (fout2 s d [a, a + 1] fun k => op (env s) (bits64 s a k)) :=
  fpxOrDoes_fout2 h hx hr rfl (fun k => congrArg (op (env s)) (fdword_eq hr.settled a k))
    ((madeFrom_bits64 (by simp) (by simp)).comp (op (env s)))

/-- A result from two pairs. -/
theorem fpxOrDoes_pair2 (h : Hdr) {op : FEnv → Nat → Nat → FRes}
    (hx : exec i s = .next
      (s.f64Step h ls lv d (pairRegs a ++ pairRegs b) fun s k => op s.env (s.fdword a k) (s.fdword b k))) (hr : Ready s) :
    FpxOrDoes i s (fout2 s d [a, a + 1, b, b + 1] fun k => op (env s) (bits64 s a k) (bits64 s b k)) :=
  fpxOrDoes_fout2 h hx hr rfl (fun k => congrArg₂ (op (env s)) (fdword_eq hr.settled a k) (fdword_eq hr.settled b k))
    ((madeFrom_bits64 (by simp) (by simp)).comp2 (madeFrom_bits64 (by simp) (by simp)) (op (env s)))

/-- A result from three pairs. -/
theorem fpxOrDoes_pair3 (h : Hdr) {op : FEnv → Nat → Nat → Nat → FRes}
    (hx : exec i s = .next (s.f64Step h ls lv d (pairRegs a ++ pairRegs b ++ pairRegs c) fun s k =>
      op s.env (s.fdword a k) (s.fdword b k) (s.fdword c k))) (hr : Ready s) :
    FpxOrDoes i s (fout2 s d [a, a + 1, b, b + 1, c, c + 1] fun k =>
      op (env s) (bits64 s a k) (bits64 s b k) (bits64 s c k)) :=
  fpxOrDoes_fout2 h hx hr rfl (fun k => by simp only [fdword_eq hr.settled]; rfl)
    ((madeFrom_bits64 (by simp) (by simp)).comp3 (madeFrom_bits64 (by simp) (by simp)) (madeFrom_bits64 (by simp) (by simp))
      (op (env s)))

/-- A result from a pair and a signed word. -/
theorem fpxOrDoes_scale64 (h : Hdr) {op : FEnv → Nat → Int → FRes}
    (hx : exec i s = .next
      (s.f64Step h ls lv d (pairRegs a ++ [b]) fun s k => op s.env (s.fdword a k) (s.wordAt b k).toInt)) (hr : Ready s) :
    FpxOrDoes i s (fout2 s d [a, a + 1, b] fun k => op (env s) (bits64 s a k) (word s b k).toInt) :=
  fpxOrDoes_fout2 h hx hr rfl (fun k => by simp only [fdword_eq hr.settled, wordAt_eq hr.settled]; rfl)
    ((madeFrom_bits64 (by simp) (by simp)).comp2 (madeFrom_word (by simp)) fun x y => op (env s) x y.toInt)

/-- A sign operation on a pair. -/
theorem fpxOrDoes_sign64 (h : Hdr) {f g : DWord → DWord} (hx : exec i s = .next (s.signStep h g d a))
    (hfg : ∀ x, g x = f x) (hr : Ready s) : FpxOrDoes i s (out2 s d [a, a + 1] fun k => f (dword s a k)) := by
  obtain rfl : g = f := funext hfg
  have hv : (fun k => g (s.pairAt a k)) = fun k => g (dword s a k) := funext fun k => congrArg g (pairAt_eq hr.settled a k)
  let x := pairBy s.width [s.rd a, s.rd (a + 1)] fun k => g (dword s a k)
  refine fpxOrDoes_quiet (fun _ => rfl) fun ha => does_regStep h _ _ [(d, x.1), (d + 1, x.2)] hx hr ha ?_
    (makes_out2 ((madeFrom_dword (by simp) (by simp)).comp g) hr.settled) rfl (by simp) (by simp)
  rw [hv]
  rfl

theorem fpxOrDoes_fp64 (hi : fp64Effect i s = some e) (hr : Ready s) : FpxOrDoes i s e := by
  unfold fp64Effect at hi
  split at hi <;> cases hi
  case h_1 h d a b => exact fpxOrDoes_pair2 h (op := fadd .f64) rfl hr
  case h_2 h d a b => exact fpxOrDoes_pair2 h (op := fsub .f64) rfl hr
  case h_3 h d a b => exact fpxOrDoes_pair2 h (op := fmul .f64) rfl hr
  case h_4 h d a b => exact fpxOrDoes_pair2 h (op := fdiv .f64) rfl hr
  case h_5 h d a b => exact fpxOrDoes_pair2 h (op := fmin2 .f64) rfl hr
  case h_6 h d a b => exact fpxOrDoes_pair2 h (op := fmax2 .f64) rfl hr
  case h_7 h d a b => exact fpxOrDoes_pair3 h (op := ffma .f64) rfl hr
  case h_8 h d a => exact fpxOrDoes_pair1 h (op := fsqrt .f64) rfl hr
  case h_9 h d a b => exact fpxOrDoes_scale64 h (op := fscale .f64) rfl hr
  case h_10 h d a b => exact fpxOrDoes_pair1 h (op := fun v => frnd .f64 v (frndMode v b.toNat)) rfl hr
  case h_11 h d a => exact fpxOrDoes_sign64 h rfl (clearSign_eq 63) hr
  case h_12 h d a => exact fpxOrDoes_sign64 h rfl (flipSign_eq 63) hr
end

/-- Effects of a float result are equal that give the same words and exceptions. -/
theorem fout_congr {s : State} {d : Nat} {srcs : List Nat} {f g : Nat → FRes} (hv : ∀ k, wordOp (f k) = wordOp (g k))
    (he : ∀ k, (f k).2 = (g k).2) : fout s d srcs f = fout s d srcs g := by
  have hv' : (fun k => BitVec.ofNat 32 (f k).1) = fun k => BitVec.ofNat 32 (g k).1 := funext hv
  unfold fout
  rw [hv', funext he]

/-! ## H2 (R195, R212, R213) -/

theorem elem_eq (x : Word) (j : Nat) : elem x.toNat j = element x j := by
  rw [elem, element, BitVec.extractLsb'_toNat, Nat.shiftRight_eq_div_pow]

theorem h2Fmt_eq (t : BitVec 1) : h2Fmt t = if t = 1 then FFmt.bf16 else FFmt.f16 := by
  simp only [h2Fmt, beq_iff_eq]

theorem wordOp_pair16 (r0 r1 : FRes) : wordOp (pair16 r0 r1) = wordOp (joined r0 r1) := by
  apply BitVec.eq_of_toNat_eq
  unfold wordOp pair16 joined
  simp only [BitVec.toNat_ofNat, BitVec.toNat_append]
  rw [← Nat.shiftLeft_add_eq_or_of_lt (Nat.mod_lt _ (by decide)), Nat.shiftLeft_eq]
  omega

section
variable {i : Instr} {s : State} {e : Effect} {u : UnitUse} {d a b c ls lv : Nat}

/-- An operation on the elements of two registers. -/
theorem fpxOrDoes_h2Bin (h : Hdr) (t : BitVec 1) (op : FFmt → FEnv → Nat → Nat → FRes)
    (hx : exec i s = .next (s.h2Bin h op t d a b)) (hr : Ready s) :
    FpxOrDoes i s (fout s d [a, b] fun k =>
      let r := fun j => op (h2Fmt t) (env s) (element (word s a k) j) (element (word s b k) j)
      joined (r 0) (r 1)) := by
  simp only [← elem_eq]
  rw [← fout_congr (fun _ => wordOp_pair16 _ _) fun _ => rfl]
  exact fpxOrDoes_bits2 h (op := fun v x y => pair16 (op (h2Fmt t) v (elem x 0) (elem y 0))
    (op (h2Fmt t) v (elem x 1) (elem y 1))) hx hr

/-- HFMA2, on the elements of three. -/
theorem fpxOrDoes_hfma2 (h : Hdr) (d a b : BitVec 6) (t : BitVec 1) (hr : Ready s) : FpxOrDoes (.hfma2 h d a b t) s
    (fout s d.toNat [a.toNat, b.toNat, d.toNat] fun k =>
      let r := fun j => ffma (h2Fmt t) (env s) (element (word s a.toNat k) j) (element (word s b.toNat k) j)
        (element (word s d.toNat k) j)
      joined (r 0) (r 1)) := by
  simp only [← elem_eq]
  rw [← fout_congr (fun _ => wordOp_pair16 _ _) fun _ => rfl]
  exact fpxOrDoes_bits3 h (op := fun v x y z => pair16 (ffma (h2Fmt t) v (elem x 0) (elem y 0) (elem z 0))
    (ffma (h2Fmt t) v (elem x 1) (elem y 1) (elem z 1))) rfl hr

theorem fpxOrDoes_h2 (hi : h2Effect i s = some e) (hr : Ready s) : FpxOrDoes i s e := by
  simp only [h2Effect, ← h2Fmt_eq] at hi
  split at hi <;> cases hi
  case h_1 h d a b t => exact fpxOrDoes_h2Bin h t fadd rfl hr
  case h_2 h d a b t => exact fpxOrDoes_h2Bin h t fsub rfl hr
  case h_3 h d a b t => exact fpxOrDoes_h2Bin h t fmul rfl hr
  case h_4 h d a b t => exact fpxOrDoes_h2Bin h t fmin2 rfl hr
  case h_5 h d a b t => exact fpxOrDoes_h2Bin h t fmax2 rfl hr
  case h_6 h d a b t => exact fpxOrDoes_hfma2 h d a b t hr

/-! ## SFU (R219) -/

theorem fpxOrDoes_sfu (hi : sfuEffect i s = some e) (hr : Ready s) : FpxOrDoes i s e := by
  unfold sfuEffect at hi
  split at hi <;> cases hi
  case h_1 h d a => exact fpxOrDoes_bits1 h (op := sfu 0) rfl hr
  case h_2 h d a => exact fpxOrDoes_bits1 h (op := sfu 1) rfl hr
  case h_3 h d a => exact fpxOrDoes_bits1 h (op := sfu 2) rfl hr
  case h_4 h d a => exact fpxOrDoes_bits1 h (op := sfu 3) rfl hr
  case h_5 h d a => exact fpxOrDoes_bits1 h (op := sfu 4) rfl hr
  case h_6 h d a => exact fpxOrDoes_bits1 h (op := sfu 5) rfl hr
  case h_7 h d a => exact fpxOrDoes_bits1 h (op := sfu 6) rfl hr

/-! ## FCMP (R215) -/

/-- A compare of registers `ns` with a combine, which reads the predicates `ps`. -/
theorem fpxOrDoes_compare (h : Hdr) {ns ps : List Nat} {p m : Nat} {v : State → Nat → Bool × FExc} {r : Nat → Bool × FExc}
    (hx : exec i s = .next (s.regStep h u ns fun s =>
      orFpx s (fun k => if allU (ns.map s.rd) then (v s 0).2 else (v s k).2)
        [s.resP p (predBy (ns.map s.rd) (ps.map s.rdp) fun k => combine m ((s.rdp p).lane k) (v s k).1)]))
    (hr : Ready s) (hv : v s = r) (hg : MadeFrom s ns r)
    (hc : p ∈ ps ∨ ∀ x y c, combine m x c = combine m y c) :
    FpxOrDoes i s
      { srcs := ns, preds := ps, pouts := [(p, fun k => combine m (pred s p k) (r k).1)], exc := fun k => (r k).2 } := by
  have hs := hr.settled
  subst hv
  refine fpxOrDoes_pred h hx hr rfl (fun k _ => exc_madeFrom hg hs k) rfl rfl (fun k _ hk => ?_) fun hu => ?_
  · rw [lane_predBy _ _ _ (BitVec.lt_of_getLsbD hk), rdp_eq hs]
    · rfl
    · intro hall
      rw [Bool.and_eq_true, Bool.not_eq_true'] at hall
      obtain ⟨hregs, hpreds⟩ := hall
      rw [hg.of_allU hs hregs k]
      rcases hc with hp | hc
      · rw [Pred.lane_of_notV (Bool.eq_false_iff.2 (List.any_eq_false.1 hpreds _ (List.mem_map_of_mem hp))) k]
      · exact hc _ _ _
  · obtain ⟨-, hregs, hpreds⟩ := hu
    refine isV_predBy _ (allU_srcs hs hregs) (List.any_eq_false.2 fun x hx => ?_)
    obtain ⟨n, hn, rfl⟩ := List.mem_map.1 hx
    simp [rdp_eq hs, hpreds n hn]

/-- The registers that FCMP compares: words, or pairs. -/
def fcmpSrcs (w : BitVec 1) (a b : Nat) : List Nat := if w = 1 then [a, a + 1, b, b + 1] else [a, b]

/-- The compare of lane k, as the instruction reads its registers. -/
def fcmpAt (s : State) (w : BitVec 1) (c a b k : Nat) : Bool × FExc :=
  if w = 1 then fcmp .f64 s.env.dni c (s.fdword a k) (s.fdword b k)
  else fcmp .f32 s.env.dni c (s.fword a k) (s.fword b k)

theorem fcmpAt_eq (hs : s.w.pend = []) (w : BitVec 1) (c a b k : Nat) : fcmpAt s w c a b k =
    if w = 1 then fcmp .f64 (env s).dni c (bits64 s a k) (bits64 s b k)
    else fcmp .f32 (env s).dni c (bits s a k) (bits s b k) := by
  simp only [fcmpAt, fword_eq hs, fdword_eq hs]
  rfl

theorem madeFrom_fcmpAt (hs : s.w.pend = []) (w : BitVec 1) (c a b : Nat) :
    MadeFrom s (fcmpSrcs w a b) (fcmpAt s w c a b) := by
  intro k hk
  simp only [fcmpAt_eq hs]
  unfold fcmpSrcs at hk
  split_ifs at hk ⊢
  · exact (madeFrom_bits64 (by simp) (by simp)).comp2 (madeFrom_bits64 (by simp) (by simp))
      (fcmp .f64 (env s).dni c) k hk
  · exact (madeFrom_bits (by simp)).comp2 (madeFrom_bits (by simp)) (fcmp .f32 (env s).dni c) k hk

theorem exec_fcmp (h : Hdr) (p m : BitVec 3) (a b : BitVec 6) (c : BitVec 3) (w : BitVec 1) (s : State) :
    ∃ u, exec (.fcmp h p m a b c w) s = .next (s.regStep h u (fcmpSrcs w a.toNat b.toNat) fun s =>
      orFpx s (fun k => if allU ((fcmpSrcs w a.toNat b.toNat).map s.rd) then (fcmpAt s w c.toNat a.toNat b.toNat 0).2
          else (fcmpAt s w c.toNat a.toNat b.toNat k).2)
        [s.resP p.toNat (predBy ((fcmpSrcs w a.toNat b.toNat).map s.rd)
          ((if m = 1 ∨ m = 2 then [p.toNat] else []).map s.rdp)
          fun k => combine m.toNat ((s.rdp p.toNat).lane k) (fcmpAt s w c.toNat a.toNat b.toNat k).1)]) := by
  have hps (s : State) : (if m = 1 ∨ m = 2 then [p.toNat] else []).map s.rdp =
      if m = 1 ∨ m = 2 then [s.rdp p.toNat] else [] := by split_ifs <;> rfl
  simp only [hps]
  rcases BitVec.eq_zero_or_eq_one w with rfl | rfl
  · exact ⟨.alu 2 4 1, rfl⟩
  · exact ⟨.alu 2 6 2, rfl⟩

/-- Set reads no predicate; AND and OR read theirs. -/
theorem fpxOrDoes_fcmp (hi : fcmpEffect i s = some e) (hr : Ready s) : FpxOrDoes i s e := by
  unfold fcmpEffect at hi
  split at hi
  case h_1 h p m a b c w =>
    obtain ⟨u, hx⟩ := exec_fcmp h p m a b c w s
    have hv : fcmpAt s w c.toNat a.toNat b.toNat = _ := funext (fcmpAt_eq hr.settled w c.toNat a.toNat b.toNat)
    have hg := madeFrom_fcmpAt hr.settled w c.toNat a.toNat b.toNat
    rw [hv] at hg
    have hdoes (ps : List Nat) (hps : (if m = 1 ∨ m = 2 then [p.toNat] else []) = ps)
        (hc : p.toNat ∈ ps ∨ ∀ x y c, combine m.toNat x c = combine m.toNat y c) :=
      fpxOrDoes_compare h (ps := ps) (hps ▸ hx) hr hv hg hc
    have hm : m = 0 ∨ m = 1 ∨ m = 2 := by
      by_contra hno
      obtain ⟨h0, h1, h2⟩ := by simpa only [not_or] using hno
      dsimp only at hi
      rw [if_neg h0, if_neg h1, if_neg h2] at hi
      cases hi
    rcases hm with rfl | rfl | rfl <;> cases hi
    · exact hdoes [] (by simp) (.inr fun _ _ _ => rfl)
    · exact hdoes [p.toNat] (by simp) (.inl (by simp))
    · exact hdoes [p.toNat] (by simp) (.inl (by simp))
  case h_2 => cases hi

end

/-! ## FCVT (R216, R217) -/

theorem cvtBits_eq : ∀ t : BitVec 3, cvtBits t.toNat = typeBits t := by decide

theorem typeBits_eq_64 : ∀ t : BitVec 3, typeBits t = 64 ↔ t.toNat = 1 := by decide

/-- n bits of a number from bit k up replaced by those of y. -/
def replaceBits (x y k n : Nat) : Nat := x - x / 2 ^ k % 2 ^ n * 2 ^ k + y % 2 ^ n * 2 ^ k

/-- The bits below stay, then the new ones, then the bits above. -/
theorem replaceBits_eq (x y k n : Nat) :
    replaceBits x y k n = 2 ^ k * (2 ^ n * (x / 2 ^ k / 2 ^ n) + y % 2 ^ n) + x % 2 ^ k := by
  have hlow := Nat.div_add_mod x (2 ^ k)
  have hmid := Nat.div_add_mod (x / 2 ^ k) (2 ^ n)
  unfold replaceBits
  set q := x / 2 ^ k
  have hq : 2 ^ k * q = 2 ^ k * (2 ^ n * (q / 2 ^ n)) + q % 2 ^ n * 2 ^ k := by
    rw [Nat.mul_comm (q % 2 ^ n), ← Nat.mul_add, hmid]
  rw [Nat.mul_add, Nat.mul_comm (2 ^ k) (y % 2 ^ n)]
  omega

/-- A value inserted into a register (R217). -/
theorem wordOp_replaceBits (old : Word) (y : FRes) (k n : Nat) :
    wordOp (replaceBits old.toNat y.1 k n, y.2) = wordOp ((insertBits old y.1 k n).toNat, y.2) := by
  refine BitVec.eq_of_getLsbD_eq fun j hj => ?_
  rw [wordOp, wordOp, BitVec.ofNat_toNat, BitVec.setWidth_eq, insertBits, getLsbD_ofBits _ hj, replaceBits_eq,
    BitVec.getLsbD_ofNat, decide_eq_true hj, Bool.true_and,
    Nat.testBit_two_pow_mul_add _ (Nat.mod_lt _ (Nat.two_pow_pos k)), Nat.testBit_mod_two_pow]
  rcases Nat.lt_or_ge j k with h | h
  · rw [if_pos h, if_neg (by omega), decide_eq_true h, Bool.true_and]
    rfl
  · rw [if_neg (by omega), Nat.testBit_two_pow_mul_add _ (Nat.mod_lt _ (Nat.two_pow_pos n)), Nat.testBit_mod_two_pow,
      Nat.testBit_div_two_pow, Nat.testBit_div_two_pow]
    by_cases hn : j - k < n
    · rw [if_pos hn, if_pos (by omega), decide_eq_true hn, Bool.true_and]
    · rw [if_neg hn, if_neg (by omega)]
      exact congrArg old.toNat.testBit (by omega)

section
variable {i : Instr} {s : State} {e : Effect}

/-- The conversion that FCVT makes in lane k. -/
def fcvtAt (s : State) (a : Nat) (t x : BitVec 3) (r p : BitVec 2) (k : Nat) : FRes :=
  convert x.toNat t.toNat (if r = 0 then env s else { env s with rnd := r.toNat - 1 })
    (if typeBits x = 64 then bits64 s a k
      else bits s a k / 2 ^ partBit (typeBits x) (typeBits t) p % 2 ^ typeBits x)

/-- The registers that FCVT reads. -/
def fcvtSrcs (d a : Nat) (t x : BitVec 3) : List Nat :=
  (if typeBits x = 64 then [a, a + 1] else [a]) ++ if typeBits t < 32 then [d] else []

theorem exec_fcvt (h : Hdr) (d a : BitVec 6) (t x : BitVec 3) (r p : BitVec 2) (hs : s.w.pend = []) :
    ∃ u srcs f, exec (.fcvt h d a t x r p) s = .next (s.regStep h u srcs f) ∧ f s =
      if typeBits t = 64 then
        floatRes64 s d.toNat ((fcvtSrcs d.toNat a.toNat t x).map s.rd) (fcvtAt s a.toNat t x r p)
      else floatRes s d.toNat ((fcvtSrcs d.toNat a.toNat t x).map s.rd) fun k =>
        if typeBits t < 32 then
          (replaceBits (bits s d.toNat k) (fcvtAt s a.toNat t x r p k).1 (partBit (typeBits t) (typeBits x) p) (typeBits t),
            (fcvtAt s a.toNat t x r p k).2)
        else fcvtAt s a.toNat t x r p k := by
  refine ⟨_, _, _, rfl, ?_⟩
  simp only [cvtBits_eq, ← typeBits_eq_64, fword_eq hs, fdword_eq hs]
  rfl

theorem madeFrom_fcvtAt (d a : Nat) (t x : BitVec 3) (r p : BitVec 2) :
    MadeFrom s (fcvtSrcs d a t x) (fcvtAt s a t x r p) := by
  refine MadeFrom.comp (g := fun k => if typeBits x = 64 then bits64 s a k
    else bits s a k / 2 ^ partBit (typeBits x) (typeBits t) p % 2 ^ typeBits x) ?_ (convert x.toNat t.toNat _)
  unfold fcvtSrcs
  by_cases hx : typeBits x = 64
  · simp only [hx, if_true]
    exact madeFrom_bits64 (by simp) (by simp)
  · simp only [hx, if_false]
    exact (madeFrom_bits (by simp)).comp fun v => v / 2 ^ partBit (typeBits x) (typeBits t) p % 2 ^ typeBits x

/-- A wide result is a pair; a narrow one is inserted into its register, which is read too. -/
theorem fpxOrDoes_fcvt (hi : fcvtEffect i s = some e) (hr : Ready s) : FpxOrDoes i s e := by
  unfold fcvtEffect at hi
  split at hi
  case h_1 h d a t x r p =>
    obtain ⟨u, srcs, f, hx, hf⟩ := exec_fcvt h d a t x r p hr.settled
    have hg := madeFrom_fcvtAt (s := s) d.toNat a.toNat t x r p
    obtain rfl := Option.some.inj hi
    by_cases h64 : typeBits t = 64
    · rw [if_pos h64] at hf
      rw [if_pos h64]
      exact fpxOrDoes_fout2 h hx hr hf (fun _ => rfl) hg
    rw [if_neg h64] at hf
    rw [if_neg h64]
    by_cases h32 : typeBits t < 32
    · simp only [h32, if_true] at hf
      rw [if_pos h32, ← fout_congr (fun k => wordOp_replaceBits (word s d.toNat k) _ _ _) fun _ => rfl]
      have hd : d.toNat ∈ fcvtSrcs d.toNat a.toNat t x := by simp [fcvtSrcs, h32]
      exact fpxOrDoes_fout h hx hr hf (fun _ => rfl) ((madeFrom_bits hd).comp2 hg fun old y =>
        (replaceBits old y.1 (partBit (typeBits t) (typeBits x) p) (typeBits t), y.2))
    · simp only [h32, if_false] at hf
      rw [if_neg h32]
      exact fpxOrDoes_fout h hx hr hf (fun _ => rfl) hg
  case h_2 => cases hi
end

end Sys2Proof.Claim
end

section
/-! PROOF. RED and SCAN (spec/06 R168, R172, R173): the tile of a lane, the unit's tree and its serial scan, and the
FPX trap of their float forms. -/

namespace Sys2Proof.Claim

open Sys2Proof.Machine

/-! ## Tiles (R168) -/

section
variable {s : State}

theorem tile_eq (s : State) : s.tile = tileT s := by
  unfold State.tile tileWidth tileT State.width Warp.width
  generalize s.w.part.toNat = k
  by_cases h5 : 1 ≤ k ∧ k ≤ 5
  · simp [h5]
  by_cases h6 : k = 6
  · subst h6
    cases s.w.wide64 <;> rfl
  · simp [h5, h6]

theorem tileActs_eq (s : State) (i : Nat) : s.tileActs i = inTile s i := by
  unfold State.tileActs inTile LaneSet.toList lanes64
  rw [List.filter_filter, tile_eq]
  exact List.filter_congr fun j _ => Bool.and_comm _ _

theorem oneTile_eq (s : State) : s.oneTile = coversAll s := by
  unfold State.oneTile coversAll
  rw [tile_eq]

theorem mem_inTile {i j : Nat} : j ∈ inTile s i ↔ s.act.getLsbD j = true ∧ j / tileT s = i / tileT s := by
  rw [← tileActs_eq, State.tileActs, List.mem_filter, mem_toList, tile_eq, beq_iff_eq]

theorem self_mem_inTile {i : Nat} (hi : s.act.getLsbD i = true) : i ∈ inTile s i := mem_inTile.2 ⟨hi, rfl⟩

theorem inTile_congr {i j : Nat} (h : i / tileT s = j / tileT s) : inTile s i = inTile s j := by
  unfold inTile
  rw [h]

theorem length_inTile_le (s : State) (i : Nat) : (inTile s i).length ≤ 64 := by
  unfold inTile
  exact (List.length_filter_le _ _).trans_eq List.length_range

/-- An active lane is below the number of lanes. -/
theorem lt_nlanes_of_active {i : Nat} (hi : s.act.getLsbD i = true) : i < s.w.nlanes := by
  unfold State.act Warp.activeOf Warp.present lowLanes at hi
  rw [BitVec.getLsbD_and, Bool.and_eq_true, BitVec.getLsbD_ofNat, Bool.and_eq_true, Nat.testBit_two_pow_sub_one] at hi
  exact of_decide_eq_true hi.2.2

/-- Where one tile covers every lane, the lowest active lane has the same tile. -/
theorem inTile_lowest (hone : coversAll s = true) {i : Nat} (hi : s.act.getLsbD i = true) :
    inTile s (State.lowestLane s.act) = inTile s i := by
  have hmem : State.lowestLane s.act ∈ LaneSet.toList s.act := by
    unfold State.lowestLane
    cases hl : LaneSet.toList s.act with
    | nil => exact absurd (mem_toList.2 hi) (by simp [hl])
    | cons j rest => exact List.mem_cons_self
  have hlow := mem_toList.1 hmem
  have hcover := of_decide_eq_true hone
  exact inTile_congr ((Nat.div_eq_of_lt ((lt_nlanes_of_active hlow).trans_le hcover)).trans
    (Nat.div_eq_of_lt ((lt_nlanes_of_active hi).trans_le hcover)).symm)

/-- A lane of a result that is made from a lane's tile alone. -/
theorem lane_tileShape (g : List Nat → Lane) {i : Nat} (hi : s.act.getLsbD i = true) (hw : i < s.width) :
    (s.tileShape fun i => g (s.tileActs i)).lane i = g (inTile s i) := by
  unfold State.tileShape
  simp only [tileActs_eq, oneTile_eq]
  split
  · rename_i hone
    rw [inTile_lowest hone hi]
    rfl
  · exact Shaped.lane_v _ _ hw

theorem isU_tileShape (hone : coversAll s = true) (f : Nat → Lane) : (s.tileShape f).isU = true := by
  unfold State.tileShape
  rw [oneTile_eq, hone]
  rfl

end

/-! ## The tree of R172 -/

section
variable {α β : Type}

theorem length_pairUp (op : α → α → α) : ∀ l : List α, (pairUp op l).length = (l.length + 1) / 2
  | [] => by simp [pairUp]
  | [_] => by simp [pairUp]
  | a :: b :: rest => by
    rw [pairUp, List.length_cons, length_pairUp op rest, List.length_cons, List.length_cons]
    omega

theorem pairUp_map {op : α → α → α} {op' : β → β → β} {g : α → β} (hg : ∀ x y, g (op x y) = op' (g x) (g y)) :
    ∀ l : List α, pairUp op' (l.map g) = (pairUp op l).map g
  | [] => rfl
  | [_] => rfl
  | a :: b :: rest => by
    simp only [List.map_cons, pairUp, hg, pairUp_map hg rest]

/-- The tree of values seen through a map that keeps the operation. -/
theorem treeOf_map {op : α → α → α} {op' : β → β → β} {g : α → β} (hg : ∀ x y, g (op x y) = op' (g x) (g y)) (k : Nat)
    (l : List α) : treeOf op' k (l.map g) = (treeOf op k l).map g := by
  induction k generalizing l with
  | zero =>
    match l with
    | [] => rfl
    | [_] => rfl
    | _ :: _ :: _ => rfl
  | succ k ih =>
    match l with
    | [] => exact ih []
    | [_] => rfl
    | a :: b :: rest =>
      have h := ih (pairUp op (a :: b :: rest))
      rw [← pairUp_map hg] at h
      exact h

theorem foldl_pairUp {op : α → α → α} (hop : ∀ x y z, op (op x y) z = op x (op y z)) :
    ∀ (l : List α) (x : α), (pairUp op l).foldl op x = l.foldl op x
  | [], _ => rfl
  | [_], _ => rfl
  | a :: b :: rest, x => by
    rw [pairUp, List.foldl_cons, foldl_pairUp hop rest, List.foldl_cons, List.foldl_cons, hop]

/-- The tree of an associative operation is its fold. -/
theorem foldl_of_treeOf {op : α → α → α} (hop : ∀ x y z, op (op x y) z = op x (op y z)) (k : Nat) {l : List α} {r : α}
    (h : treeOf op k l = some r) (x : α) : l.foldl op x = op x r := by
  induction k generalizing l with
  | zero =>
    match l, h with
    | [_], h => cases h; rfl
  | succ k ih =>
    match l, h with
    | [], h => exact ih (l := []) h
    | [_], h => cases h; rfl
    | a :: b :: rest, h => rw [← foldl_pairUp hop, ih h]
end

/-- The exceptions of a list of values together. -/
def excsOf (l : List (DWord × FExc)) : FExc := l.foldr (fun x e => x.2 ||| e) FExc.none

/-- An operation on values that carry their exceptions. -/
def carrying (op : DWord → DWord → DWord × FExc) (x y : DWord × FExc) : DWord × FExc :=
  ((op x.1 y.1).1, x.2 ||| y.2 ||| (op x.1 y.1).2)

section
variable {op : DWord → DWord → DWord × FExc}

/-- A round of the tree: the same values, and as exceptions those so far with what the round raises. -/
theorem treeLevel_eq : ∀ l : List (DWord × FExc), (treeLevel op (l.map (·.1))).1 = (pairUp (carrying op) l).map (·.1) ∧
    excsOf l ||| (treeLevel op (l.map (·.1))).2 = excsOf (pairUp (carrying op) l)
  | [] => ⟨rfl, BitVec.or_zero⟩
  | [x] => ⟨rfl, BitVec.or_zero⟩
  | x :: y :: rest => by
    obtain ⟨ihv, ihe⟩ := treeLevel_eq rest
    constructor
    · simp only [List.map_cons, treeLevel, pairUp, ihv]
      rfl
    · have hold : excsOf (x :: y :: rest) = x.2 ||| (y.2 ||| excsOf rest) := rfl
      have hnew : excsOf (pairUp (carrying op) (x :: y :: rest)) =
          x.2 ||| y.2 ||| (op x.1 y.1).2 ||| excsOf (pairUp (carrying op) rest) := rfl
      have hstep : (treeLevel op ((x :: y :: rest).map (·.1))).2 =
          (op x.1 y.1).2 ||| (treeLevel op (rest.map (·.1))).2 := rfl
      rw [hold, hnew, hstep, ← ihe]
      ac_rfl

/-- The unit's tree over at most 2^k values is that of R172. -/
theorem treeRun_eq (k : Nat) {l : List (DWord × FExc)} (hne : l ≠ []) (hlen : l.length ≤ 2 ^ k) :
    treeOf (carrying op) k l = some (treeRun op (k + 1) (l.map (·.1)) (excsOf l)) := by
  induction k generalizing l with
  | zero =>
    match l with
    | [x] => simp [treeOf, treeRun, excsOf, FExc.none]
    | _ :: _ :: _ => simp at hlen
  | succ k ih =>
    match l with
    | [x] => simp [treeOf, treeRun, excsOf, FExc.none]
    | x :: y :: rest =>
      obtain ⟨hv, he⟩ := treeLevel_eq (op := op) (x :: y :: rest)
      have h := ih (l := pairUp (carrying op) (x :: y :: rest)) (by simp [pairUp])
        (by rw [length_pairUp]; omega)
      rw [← hv, ← he] at h
      exact h
end

section
variable {s : State} {op : DWord → DWord → DWord × FExc} {g : Nat → DWord} {i : Nat}

theorem excsOf_none (g : Nat → DWord) (l : List Nat) : excsOf (l.map fun j => (g j, FExc.none)) = FExc.none := by
  induction l with
  | nil => rfl
  | cons j rest ih =>
    rw [List.map_cons]
    exact BitVec.zero_or.trans ih

/-- The tree over a tile. -/
theorem treeRun_tile (hi : s.act.getLsbD i = true) :
    treeOf (carrying op) 6 ((inTile s i).map fun j => (g j, FExc.none)) =
      some (treeRun op 7 ((inTile s i).map g) FExc.none) := by
  have h := treeRun_eq (op := op) 6 (l := (inTile s i).map fun j => (g j, FExc.none))
    (mt List.map_eq_nil_iff.1 (List.ne_nil_of_mem (self_mem_inTile hi)))
    (by rw [List.length_map]; exact length_inTile_le s i)
  rw [excsOf_none, List.map_map] at h
  exact h

/-- A tree of float operations. -/
theorem treeRun_gather {val : DWord → Nat} {n : Nat} {f : Nat → Nat → FRes} (hi : s.act.getLsbD i = true)
    (hop : ∀ x y, val (op x y).1 = (f (val x) (val y)).1 % 2 ^ n ∧ (op x y).2 = (f (val x) (val y)).2) :
    treeOf (gather n f) 6 ((inTile s i).map fun j => (val (g j), FExc.none)) =
      some (val (treeRun op 7 ((inTile s i).map g) FExc.none).1, (treeRun op 7 ((inTile s i).map g) FExc.none).2) := by
  have h := treeOf_map (op := carrying op) (op' := gather n f) (g := fun x => (val x.1, x.2))
    (fun x y => by rw [carrying, gather]; simp only [hop]) 6 ((inTile s i).map fun j => (g j, FExc.none))
  rw [treeRun_tile hi, List.map_map] at h
  exact h

/-- A tree of an associative operation that raises nothing. -/
theorem treeRun_foldl {α : Type} {val : DWord → α} {f : α → α → α} {z : α} (hi : s.act.getLsbD i = true)
    (hop : ∀ x y, val (op x y).1 = f (val x) (val y) ∧ (op x y).2 = FExc.none)
    (hassoc : ∀ x y z, f (f x y) z = f x (f y z)) (hz : ∀ x, f z x = x) :
    val (treeRun op 7 ((inTile s i).map g) FExc.none).1 = ((inTile s i).map fun j => val (g j)).foldl f z ∧
      (treeRun op 7 ((inTile s i).map g) FExc.none).2 = FExc.none := by
  have hval := treeOf_map (op := carrying op) (op' := f) (g := fun x => val x.1) (fun x y => (hop x.1 y.1).1) 6
    ((inTile s i).map fun j => (g j, FExc.none))
  have hexc := treeOf_map (op := carrying op) (op' := fun x y => x ||| y) (g := fun x => x.2)
    (fun x y => by simp [carrying, hop, FExc.none]) 6 ((inTile s i).map fun j => (g j, FExc.none))
  rw [treeRun_tile hi, List.map_map, Option.map_some] at hval hexc
  constructor
  · exact ((foldl_of_treeOf hassoc 6 hval z).trans (hz _)).symm
  · have h := foldl_of_treeOf (fun x y z => BitVec.or_assoc x y z) 6 hexc FExc.none
    rw [List.foldl_map, List.foldl_fixed' fun _ => BitVec.or_self] at h
    exact (h.trans BitVec.zero_or).symm
end

/-! ## RED (R172) -/

theorem loWord_append (hi lo : Word) : loWord (hi ++ lo) = lo := by
  refine BitVec.eq_of_getLsbD_eq fun j hj => ?_
  rw [loWord, BitVec.getLsbD_extractLsb', decide_eq_true hj, Bool.true_and, Nat.zero_add, BitVec.getLsbD_append, if_pos hj]

theorem loWord_ofNat (n : Nat) : (loWord (BitVec.ofNat 64 n)).toNat = n % 2 ^ 32 := by
  rw [loWord, BitVec.extractLsb'_toNat, BitVec.toNat_ofNat, Nat.shiftRight_zero, Nat.mod_mod_of_dvd n (by decide)]

theorem loWord_zeroExtend (x : Word) : loWord (x.zeroExtend 64) = x := by
  apply BitVec.eq_of_toNat_eq
  rw [loWord, BitVec.extractLsb'_toNat, BitVec.toNat_setWidth_of_le (by decide), Nat.shiftRight_zero,
    Nat.mod_eq_of_lt x.isLt]

/-- An operation of RED on words: associative, with a value that changes nothing. -/
structure Folds (f : Word → Word → Word) (z : Word) : Prop where
  assoc : ∀ x y z, f (f x y) z = f x (f y z)
  unit : ∀ x, f z x = x

/-- The lesser by a key that tells words apart. -/
theorem folds_least {ι : Type} [LinearOrder ι] {key : Word → ι} (hkey : Function.Injective key) {z : Word}
    (hz : ∀ x, key x ≤ key z) : Folds (fun x y => if key x ≤ key y then x else y) z := by
  have hmin (x y : Word) : key (if key x ≤ key y then x else y) = min (key x) (key y) := by rw [apply_ite key, min_def]
  constructor
  · intro x y z
    apply hkey
    rw [hmin, hmin, hmin, hmin, min_assoc]
  · intro x
    apply hkey
    rw [hmin, min_eq_right (hz x)]

/-- The greater. -/
theorem folds_greatest {ι : Type} [LinearOrder ι] {key : Word → ι} (hkey : Function.Injective key) {z : Word}
    (hz : ∀ x, key z ≤ key x) : Folds (fun x y => if key x ≤ key y then y else x) z := by
  have hmax (x y : Word) : key (if key x ≤ key y then y else x) = max (key x) (key y) := by rw [apply_ite key, max_def]
  constructor
  · intro x y z
    apply hkey
    rw [hmax, hmax, hmax, hmax, max_assoc]
  · intro x
    apply hkey
    rw [hmax, max_eq_right (hz x)]

theorem toInt_injective : Function.Injective (BitVec.toInt : Word → Int) := fun _ _ h => BitVec.toInt_inj.1 h

/-- The integer operations of the unit are those of R172. -/
theorem redOp_word (env : FEnv) : ∀ {n : Nat} {op : Word × (Word → Word → Word)}, redWord n = some op →
    redOp env n = onWords op.2 ∧ Folds op.2 op.1 ∧ n < 8
  | 0, _, h => by
    cases h
    exact ⟨rfl, ⟨BitVec.add_assoc, BitVec.zero_add⟩, by decide⟩
  | 1, _, h => by
    cases h
    exact ⟨congrArg onWords (funext fun x => funext (minSigned_eq x)), folds_least toInt_injective fun _ => BitVec.toInt_le,
      by decide⟩
  | 2, _, h => by
    cases h
    exact ⟨congrArg onWords (funext fun x => funext (maxSigned_eq x)), folds_greatest toInt_injective BitVec.le_toInt,
      by decide⟩
  | 3, _, h => by
    cases h
    exact ⟨congrArg onWords (funext fun x => funext (minPlain_eq x)),
      folds_least BitVec.toNat_injective fun x => Nat.le_of_lt_succ x.isLt, by decide⟩
  | 4, _, h => by
    cases h
    exact ⟨congrArg onWords (funext fun x => funext (maxPlain_eq x)),
      folds_greatest BitVec.toNat_injective fun x => Nat.zero_le _, by decide⟩
  | 5, _, h => by
    cases h
    exact ⟨rfl, ⟨BitVec.and_assoc, fun _ => BitVec.allOnes_and⟩, by decide⟩
  | 6, _, h => by
    cases h
    exact ⟨rfl, ⟨BitVec.or_assoc, fun _ => BitVec.zero_or⟩, by decide⟩
  | 7, _, h => by
    cases h
    exact ⟨rfl, ⟨BitVec.xor_assoc, fun _ => BitVec.zero_xor⟩, by decide⟩
  | n + 8, _, h => by simp [redWord] at h

theorem redOp_float {env : FEnv} {n : Nat} {op : Nat → Nat → FRes} (h : redFloat env n = some op) :
    redOp env n = onFloats op ∧ 8 ≤ n ∧ n ≤ 10 := by
  unfold redFloat at h
  split_ifs at h with h8 h9 h10 <;> cases h <;> subst n
  · exact ⟨rfl, by decide⟩
  · exact ⟨rfl, by decide⟩
  · exact ⟨rfl, by decide⟩

section
variable {i : Instr} {s : State} {e : Effect}

/-- The tree over the lanes of a tile, of a register pair or of one register below a zero. -/
def redTree (s : State) (fn : Nat) (lo hi : Shaped) (js : List Nat) : DWord × FExc :=
  treeRun (redOp (env s) fn) 7 (js.map (pairLane lo hi)) FExc.none

/-- One result that is made from a lane's tile. -/
theorem makes_tile {o : Nat → Lane} (g : List Nat → Lane) (hone : e.one = coversAll s)
    (ho : ∀ k, s.act.getLsbD k = true → g (inTile s k) = o k) :
    (∀ k < s.width, s.act.getLsbD k = true → (s.tileShape fun k => g (s.tileActs k)).lane k = o k) ∧
      (e.uniform s → (s.tileShape fun k => g (s.tileActs k)).isU = true) :=
  ⟨fun k hw hk => (lane_tileShape g hk hw).trans (ho k hk), fun ⟨hu, _, _⟩ => isU_tileShape (hone.symm.trans hu) _⟩

/-- RED on words, with the value and the exceptions of each lane's tree. -/
theorem fpxOrDoes_red_word {h : Hdr} {d a : BitVec 6} {f : BitVec 4} (hn : f.toNat < 11) {v : Nat → Word} {x : Nat → FExc}
    (hv : ∀ k, s.act.getLsbD k = true →
      loWord (redTree s f.toNat (reg s a.toNat) Shaped.zero (inTile s k)).1 = v k ∧
        (redTree s f.toNat (reg s a.toNat) Shaped.zero (inTile s k)).2 = x k) (hr : Ready s) :
    FpxOrDoes (.red h d a f) s
      { one := coversAll s
        outs := [(d.toNat, fun k => ⟨v k, (inTile s k).any fun j => poison s a.toNat j⟩)]
        exc := x } := by
  have hwide : (f.toNat == 11 || f.toNat == 12) = false := by
    rw [Bool.or_eq_false_iff, beq_eq_false_iff_ne, beq_eq_false_iff_ne]
    omega
  have hpoison : poisonAt [reg s a.toNat, Shaped.zero] = fun j => poison s a.toNat j :=
    funext fun j => by simp [poisonAt, poison, lane, Shaped.zero, Shaped.lane]
  let tree := redTree s f.toNat (reg s a.toNat) Shaped.zero
  let g (js : List Nat) : Lane := ⟨loWord (tree js).1, js.any (poisonAt [reg s a.toNat, Shaped.zero])⟩
  refine fpxOrDoes_regs h [(d.toNat, s.tileShape fun k => g (s.tileActs k))] (exc := fun k => (tree (s.tileActs k)).2) rfl hr
    ?_ (fun k hk => ?_) (.cons ⟨rfl, makes_tile g rfl fun k hk => ?_⟩ .nil) rfl (by simp) (by simp)
  · simp only [hwide, rd_eq hr.settled]
    rfl
  · rw [tileActs_eq]
    exact (hv k hk).2
  · simp only [g, tree, hpoison, (hv k hk).1]

/-- RED on pairs. -/
theorem fpxOrDoes_red_pair {h : Hdr} {d a : BitVec 6} {f : BitVec 4} (hn : f.toNat = 11 ∨ f.toNat = 12) {v : Nat → DWord}
    {x : Nat → FExc} (hv : ∀ k, s.act.getLsbD k = true →
      redTree s f.toNat (reg s a.toNat) (reg s (a.toNat + 1)) (inTile s k) = (v k, x k)) (hr : Ready s) :
    FpxOrDoes (.red h d a f) s
      { one := coversAll s
        outs := [(d.toNat, fun k => ⟨(v k).extractLsb' 0 32, (inTile s k).any fun j => poison2 s a.toNat j⟩),
                 (d.toNat + 1, fun k => ⟨(v k).extractLsb' 32 32, (inTile s k).any fun j => poison2 s a.toNat j⟩)]
        exc := x } := by
  have hwide : (f.toNat == 11 || f.toNat == 12) = true := by
    rwa [Bool.or_eq_true, beq_iff_eq, beq_iff_eq]
  have hpoison : poisonAt [reg s a.toNat, reg s (a.toNat + 1)] = fun j => poison2 s a.toNat j :=
    funext fun j => by simp [poisonAt, poison2, poison, lane]
  let tree := redTree s f.toNat (reg s a.toNat) (reg s (a.toNat + 1))
  let pz (js : List Nat) : Bool := js.any (poisonAt [reg s a.toNat, reg s (a.toNat + 1)])
  let lo (js : List Nat) : Lane := ⟨loWord (tree js).1, pz js⟩
  let hi (js : List Nat) : Lane := ⟨hiWord (tree js).1, pz js⟩
  have htree (k : Nat) (hk : s.act.getLsbD k = true) : tree (inTile s k) = (v k, x k) := hv k hk
  refine fpxOrDoes_regs h
    [(d.toNat, s.tileShape fun k => lo (s.tileActs k)), (d.toNat + 1, s.tileShape fun k => hi (s.tileActs k))]
    (exc := fun k => (tree (s.tileActs k)).2) rfl hr ?_ (fun k hk => ?_)
    (.cons ⟨rfl, makes_tile lo rfl fun k hk => ?_⟩ (.cons ⟨rfl, makes_tile hi rfl fun k hk => ?_⟩ .nil)) rfl (by simp)
    (by simp)
  · simp only [hwide, rd_eq hr.settled]
    rfl
  · rw [tileActs_eq, htree k hk]
  · simp only [lo, pz, htree k hk, hpoison]
    rfl
  · simp only [hi, pz, htree k hk, hpoison]
    rfl

theorem redTree_double {a k : Nat} (hk : s.act.getLsbD k = true) :
    let r := (treeOf (gather 64 (fadd .f64 (env s))) 6
      ((inTile s k).map fun j => ((dword s a j).toNat, FExc.none))).getD (0, 0)
    redTree s 11 (reg s a) (reg s (a + 1)) (inTile s k) = (BitVec.ofNat 64 r.1, r.2) := by
  have htree := treeRun_gather (op := onDoubles (fadd .f64 (env s))) (val := BitVec.toNat) (g := dword s a) (n := 64) hk
    fun x y => ⟨BitVec.toNat_ofNat .., rfl⟩
  rw [htree]
  simp only [Option.getD_some, BitVec.ofNat_toNat, BitVec.setWidth_eq]
  rfl

theorem redTree_add64 {a k : Nat} (hk : s.act.getLsbD k = true) :
    redTree s 12 (reg s a) (reg s (a + 1)) (inTile s k) =
      (BitVec.ofNat 64 (((inTile s k).map (dword s a)).sum).toNat, FExc.none) := by
  obtain ⟨hval, hexc⟩ := treeRun_foldl (op := fun x y => (x + y, FExc.none)) (val := fun x => x) (z := 0) (g := dword s a) hk
    (fun x y => ⟨rfl, rfl⟩) BitVec.add_assoc BitVec.zero_add
  rw [BitVec.ofNat_toNat, BitVec.setWidth_eq, List.sum_eq_foldl]
  exact Prod.ext hval hexc

/-- By FN: the integer operations, the float ones, and those on pairs. -/
theorem fpxOrDoes_red (hi : redEffect i s = some e) (hr : Ready s) : FpxOrDoes i s e := by
  unfold redEffect at hi
  split at hi
  case h_1 h d a f =>
    have hword (j : Nat) : loWord (pairLane (reg s a.toNat) Shaped.zero j) = word s a.toNat j := loWord_append _ _
    dsimp only at hi
    split at hi
    case h_1 op hop =>
      obtain ⟨hred, hfold, hn⟩ := redOp_word (env s) hop
      obtain rfl := Option.some.inj hi
      refine fpxOrDoes_red_word (by omega) (fun k hk => ?_) hr
      have htree := treeRun_foldl (op := onWords op.2) (val := loWord) (g := pairLane (reg s a.toNat) Shaped.zero) hk
        (fun x y => ⟨loWord_zeroExtend _, rfl⟩) hfold.assoc hfold.unit
      simp only [hword] at htree
      rw [redTree, hred]
      exact htree
    case h_2 op hnone hop =>
      change redFloat (env s) f.toNat = some op at hop
      obtain ⟨hred, hn⟩ := redOp_float hop
      obtain rfl := Option.some.inj hi
      refine fpxOrDoes_red_word (by omega) (fun k hk => ?_) hr
      have htree := treeRun_gather (op := onFloats op) (val := fun x => (loWord x).toNat) (f := op) (n := 32)
        (g := pairLane (reg s a.toNat) Shaped.zero) hk (fun x y => ⟨loWord_ofNat _, rfl⟩)
      simp only [hword] at htree
      rw [htree, redTree, hred]
      exact ⟨(BitVec.ofNat_toNat 32 _ |>.trans (BitVec.setWidth_eq _)).symm, rfl⟩
    case h_3 =>
      have hf : f = 11 ∨ f = 12 := by
        by_contra hno
        rw [if_neg hno] at hi
        cases hi
      rcases hf with rfl | rfl <;> cases hi
      · exact fpxOrDoes_red_pair (.inl rfl) (fun k hk => redTree_double hk) hr
      · exact fpxOrDoes_red_pair (.inr rfl) (fun k hk => redTree_add64 hk) hr
  case h_2 => cases hi

end

/-! ## SCAN (R173) -/

/-- One step of a scan: the next lane into the accumulator, with the exceptions of this step. -/
def scanNext (op : Word → Word → Word × FExc) (acc : Option (Lane × FExc)) (x : Lane) : Lane × FExc :=
  match acc with
  | none => (x, FExc.none)
  | some a => (⟨(op a.1.val x.val).1, a.1.poison || x.poison⟩, (op a.1.val x.val).2)

/-- The accumulator after some lanes; nothing before the first. -/
def scanAcc (op : Word → Word → Word × FExc) (acc : Option (Lane × FExc)) (xs : List Lane) : Option (Lane × FExc) :=
  xs.foldl (fun acc x => some (scanNext op acc x)) acc

/-- What a scan gives a lane from the accumulator that it takes: 0 from none. -/
def scanOut (acc : Option (Lane × FExc)) : Lane × FExc := acc.getD (⟨0, false⟩, FExc.none)

theorem scanRun_cons (op : Word → Word → Word × FExc) (excl : Bool) (j : Nat) (x : Lane) (rest : List (Nat × Lane))
    (acc : Option (Lane × FExc)) : scanRun op excl ((j, x) :: rest) acc =
      ⟨j, (if excl then scanOut acc else scanNext op acc x).1, (if excl then scanOut acc else scanNext op acc x).2⟩ ::
        scanRun op excl rest (some (scanNext op acc x)) := by
  cases acc <;> rfl

/-- A lane's result is made from the lanes before it, with its own unless the scan is exclusive. -/
theorem find_scanRun (op : Word → Word → Word × FExc) (excl : Bool) (f : Nat → Lane) {k : Nat} {post : List Nat} :
    ∀ {pre : List Nat} (acc : Option (Lane × FExc)), k ∉ pre →
      (scanRun op excl ((pre ++ k :: post).map fun j => (j, f j)) acc).find? (fun o => o.lane == k) =
        let r := scanOut (scanAcc op acc ((if excl then pre else pre ++ [k]).map f))
        some ⟨k, r.1, r.2⟩
  | [], acc, _ => by
    rw [List.nil_append, List.map_cons, scanRun_cons, List.find?_cons_of_pos (by simp)]
    cases excl <;> rfl
  | j :: rest, acc, hk => by
    rw [List.mem_cons, not_or] at hk
    rw [List.cons_append, List.map_cons, scanRun_cons, List.find?_cons_of_neg (by simpa using Ne.symm hk.1),
      find_scanRun op excl f _ hk.2]
    cases excl <;> rfl

theorem find_scanRun_none (op : Word → Word → Word × FExc) (excl : Bool) {k : Nat} :
    ∀ {l : List (Nat × Lane)} (acc : Option (Lane × FExc)), (∀ x ∈ l, x.1 ≠ k) →
      (scanRun op excl l acc).find? (fun o => o.lane == k) = none
  | [], _, _ => rfl
  | (j, x) :: rest, acc, h => by
    rw [scanRun_cons, List.find?_cons_of_neg (by simpa using h _ List.mem_cons_self)]
    exact find_scanRun_none op excl _ fun y hy => h y (List.mem_cons_of_mem _ hy)

/-- An ascending list around one of its members. -/
theorem split_at_mem {l : List Nat} (hl : l.Pairwise (· < ·)) {k : Nat} (hk : k ∈ l) :
    l = l.filter (fun j => decide (j < k)) ++ k :: l.filter (fun j => decide (k < j)) ∧
      l.filter (fun j => decide (j ≤ k)) = l.filter (fun j => decide (j < k)) ++ [k] := by
  obtain ⟨pre, post, rfl⟩ := List.append_of_mem hk
  rw [List.pairwise_append, List.pairwise_cons] at hl
  obtain ⟨-, ⟨hpost, -⟩, hpre⟩ := hl
  have hlt (j : Nat) (hj : j ∈ pre) : j < k := hpre j hj k List.mem_cons_self
  have hpreLt : pre.filter (fun j => decide (j < k)) = pre :=
    List.filter_eq_self.2 fun j hj => decide_eq_true (hlt j hj)
  have hpostLt : post.filter (fun j => decide (j < k)) = [] := List.filter_eq_nil_iff.2 fun j hj => by
    simpa using (hpost j hj).le
  have hpreGt : pre.filter (fun j => decide (k < j)) = [] := List.filter_eq_nil_iff.2 fun j hj => by
    simpa using (hlt j hj).le
  have hpostGt : post.filter (fun j => decide (k < j)) = post :=
    List.filter_eq_self.2 fun j hj => decide_eq_true (hpost j hj)
  have hpreLe : pre.filter (fun j => decide (j ≤ k)) = pre :=
    List.filter_eq_self.2 fun j hj => decide_eq_true (hlt j hj).le
  have hpostLe : post.filter (fun j => decide (j ≤ k)) = [] := List.filter_eq_nil_iff.2 fun j hj => by
    simpa using hpost j hj
  simp [hpreLt, hpostLt, hpreGt, hpostGt, hpreLe, hpostLe]

/-- The lanes whose values make lane k's result (R173). -/
def upTo (s : State) (f : BitVec 4) (k : Nat) : List Nat :=
  (inTile s k).filter fun j => if f = 1 ∨ f = 3 then decide (j < k) else decide (j ≤ k)

section
variable {i : Instr} {s : State} {e : Effect} {k : Nat}

theorem inTile_pairwise (s : State) (k : Nat) : (inTile s k).Pairwise (· < ·) := List.pairwise_lt_range.filter _

/-- The scan of a lane's tile, at the lane. -/
theorem find_scanRun_inTile (op : Word → Word → Word × FExc) (f : BitVec 4) (g : Nat → Lane)
    (hk : s.act.getLsbD k = true) :
    (scanRun op (f.toNat == 1 || f.toNat == 3) ((inTile s k).map fun j => (j, g j)) none).find? (fun o => o.lane == k) =
      let r := scanOut (scanAcc op none ((upTo s f k).map g))
      some ⟨k, r.1, r.2⟩ := by
  obtain ⟨hsplit, hle⟩ := split_at_mem (inTile_pairwise s k) (self_mem_inTile hk)
  have hexcl : (f.toNat == 1 || f.toNat == 3) = decide (f = 1 ∨ f = 3) := by
    revert f
    decide
  have hupTo : upTo s f k = if decide (f = 1 ∨ f = 3) then (inTile s k).filter (fun j => decide (j < k))
      else (inTile s k).filter (fun j => decide (j < k)) ++ [k] := by
    unfold upTo
    by_cases h : f = 1 ∨ f = 3
    · simp only [h, if_true, decide_true]
    · simp only [h, if_false, decide_false, Bool.false_eq_true, hle]
  rw [hupTo, hexcl]
  nth_rw 1 [hsplit]
  exact find_scanRun op _ g none (by simp)

/-- The scans of all tiles, as the unit runs them one after the other. -/
def scanTiles (s : State) (op : Word → Word → Word × FExc) (excl : Bool) (g : Nat → Lane) : List ScanOut :=
  ((LaneSet.toList s.act).map fun i => i / s.tile).eraseDups.flatMap fun t =>
    scanRun op excl (((LaneSet.toList s.act).filter fun i => i / s.tile == t).map fun i => (i, g i)) none

/-- What they give lane k. -/
def scanAt (s : State) (f : BitVec 4) (g : Nat → Lane) (k : Nat) : ScanOut :=
  ((scanTiles s (scanOp (env s) f.toNat) (f.toNat == 1 || f.toNat == 3) g).find? fun o => o.lane == k).getD
    ⟨k, ⟨0, false⟩, FExc.none⟩

/-- Of all tiles, a lane's own holds the lane. -/
theorem find_scanTiles (op : Word → Word → Word × FExc) (f : BitVec 4) (g : Nat → Lane) (hk : s.act.getLsbD k = true) :
    (scanTiles s op (f.toNat == 1 || f.toNat == 3) g).find? (fun o => o.lane == k) =
      let r := scanOut (scanAcc op none ((upTo s f k).map g))
      some ⟨k, r.1, r.2⟩ := by
  have hown : k / s.tile ∈ ((LaneSet.toList s.act).map fun i => i / s.tile).eraseDups :=
    List.mem_eraseDups.2 (List.mem_map_of_mem (mem_toList.2 hk))
  obtain ⟨pre, post, hbases, hpre⟩ := List.eq_append_cons_of_mem hown
  rw [scanTiles, List.find?_flatMap]
  refine List.findSome?_eq_some_iff.2 ⟨pre, k / s.tile, post, hbases, ?_, fun t ht => ?_⟩
  · rw [← find_scanRun_inTile op f g hk, ← tileActs_eq]
    rfl
  · refine find_scanRun_none op _ none fun x hx hxk => hpre ?_
    obtain ⟨j, hj, rfl⟩ := List.mem_map.1 hx
    rw [List.mem_filter, beq_iff_eq] at hj
    rw [← hxk, hj.2]
    exact ht

theorem scanAt_eq (f : BitVec 4) (g : Nat → Lane) (hk : s.act.getLsbD k = true) :
    let r := scanOut (scanAcc (scanOp (env s) f.toNat) none ((upTo s f k).map g))
    scanAt s f g k = ⟨k, r.1, r.2⟩ := by
  rw [scanAt, find_scanTiles _ f g hk]
  rfl

/-! ## The values of a scan -/

/-- The words of a scan in order, with the exceptions of the last step. -/
def scanWords (op : Word → Word → Word × FExc) : List Word → Word × FExc
  | [] => (0, FExc.none)
  | x :: rest => rest.foldl (fun w y => op w.1 y) (x, FExc.none)

theorem scanAcc_some (op : Word → Word → Word × FExc) (xs : List Lane) (v : Word) (p : Bool) (x : FExc) :
    scanAcc op (some (⟨v, p⟩, x)) xs =
      let w := (xs.map (·.val)).foldl (fun w y => op w.1 y) (v, x)
      some (⟨w.1, p || xs.any (·.poison)⟩, w.2) := by
  induction xs generalizing v p x with
  | nil => simp [scanAcc]
  | cons y rest ih =>
    have h := ih (op v y.val).1 (p || y.poison) (op v y.val).2
    rw [Bool.or_assoc] at h
    exact h

theorem scanOut_eq (op : Word → Word → Word × FExc) (xs : List Lane) : scanOut (scanAcc op none xs) =
    (⟨(scanWords op (xs.map (·.val))).1, xs.any (·.poison)⟩, (scanWords op (xs.map (·.val))).2) := by
  cases xs with
  | nil => rfl
  | cons x rest =>
    have h := scanAcc_some op rest x.val x.poison FExc.none
    exact congrArg scanOut h

/-- A scan of an operation that raises nothing. -/
theorem scanWords_folds {f : Word → Word → Word} {z : Word} (hf : Folds f z) {ws : List Word} (hz : ws ≠ [] ∨ z = 0) :
    scanWords (fun x y => (f x y, FExc.none)) ws = (ws.foldl f z, FExc.none) := by
  have hfold (l : List Word) (v : Word) :
      l.foldl (fun w y => (f w.1 y, FExc.none)) (v, FExc.none) = (l.foldl f v, FExc.none) := by
    induction l generalizing v with
    | nil => rfl
    | cons y rest ih => exact ih (f v y)
  cases ws with
  | nil =>
    rcases hz with h | rfl
    · exact absurd rfl h
    · rfl
  | cons x rest =>
    rw [List.foldl_cons, hf.unit]
    exact hfold rest x

/-- A scan of a float operation is its serial sum. -/
theorem scanWords_serial (f : Nat → Nat → FRes) (ws : List Word) :
    scanWords (fun x y => (wordOp (f x.toNat y.toNat), (f x.toNat y.toNat).2)) ws =
      (BitVec.ofNat 32 (serial f (ws.map BitVec.toNat)).1, (serial f (ws.map BitVec.toNat)).2) := by
  cases ws with
  | nil => rfl
  | cons x rest =>
    have hfold (l : List Word) (v : Word) (e : FExc) :
        (l.map BitVec.toNat).foldl (fun acc y => ((f acc.1 y).1 % 2 ^ 32, (f acc.1 y).2)) (v.toNat, e) =
          let w := l.foldl (fun w y => (wordOp (f w.1.toNat y.toNat), (f w.1.toNat y.toNat).2)) (v, e)
          (w.1.toNat, w.2) := by
      induction l generalizing v e with
      | nil => rfl
      | cons y rest ih => exact ih (wordOp (f v.toNat y.toNat)) (f v.toNat y.toNat).2
    rw [List.map_cons, serial, hfold, scanWords]
    simp

/-- SCAN, with the value and the exceptions of each lane. -/
theorem fpxOrDoes_scanWords {h : Hdr} {d a : BitVec 6} {f : BitVec 4} {v : Nat → Word} {x : Nat → FExc}
    (hv : ∀ k, s.act.getLsbD k = true →
      scanWords (scanOp (env s) f.toNat) ((upTo s f k).map (word s a.toNat)) = (v k, x k)) (hr : Ready s) :
    FpxOrDoes (.scan h d a f) s
      { one := false, outs := [(d.toNat, fun k => ⟨v k, (upTo s f k).any fun j => poison s a.toNat j⟩)], exc := x } := by
  have hout (k : Nat) (hk : s.act.getLsbD k = true) :
      scanOut (scanAcc (scanOp (env s) f.toNat) none ((upTo s f k).map (lane s a.toNat))) =
        (⟨v k, (upTo s f k).any fun j => poison s a.toNat j⟩, x k) := by
    rw [scanOut_eq, List.map_map, List.any_map]
    exact congrArg (fun w : Word × FExc => ((⟨w.1, (upTo s f k).any fun j => poison s a.toNat j⟩ : Lane), w.2)) (hv k hk)
  refine fpxOrDoes_regs h [(d.toNat, vLanes s.width fun k => (scanAt s f (lane s a.toNat) k).out)]
    (exc := fun k => (scanAt s f (lane s a.toNat) k).exc) rfl hr ?_ (fun k hk => ?_)
    (.cons ⟨rfl, fun k hw hk => ?_, fun hu => absurd hu.1 Bool.false_ne_true⟩ .nil) rfl (by simp) (by simp)
  · simp only [rd_eq hr.settled]
    rfl
  · rw [scanAt_eq f _ hk, hout k hk]
  · rw [vLanes, Shaped.lane_v _ _ hw, scanAt_eq f _ hk, hout k hk]

/-- By FN: sums, float sums, maxima, bitwise OR. -/
theorem fpxOrDoes_scan (hi : scanEffect i s = some e) (hr : Ready s) : FpxOrDoes i s e := by
  unfold scanEffect at hi
  split at hi
  case h_1 h d a f =>
    have hne (k : Nat) (hk : s.act.getLsbD k = true) (h13 : ¬ (f = 1 ∨ f = 3)) :
        (upTo s f k).map (word s a.toNat) ≠ [] := by
      refine List.ne_nil_of_mem (List.mem_map_of_mem (a := k) (List.mem_filter.2 ⟨self_mem_inTile hk, ?_⟩))
      rw [if_neg h13]
      exact decide_eq_true le_rfl
    dsimp only at hi
    by_cases h01 : f = 0 ∨ f = 1
    · rw [if_pos h01] at hi
      obtain rfl := Option.some.inj hi
      have hop : scanOp (env s) f.toNat = fun x y => (x + y, FExc.none) := by rcases h01 with rfl | rfl <;> rfl
      refine fpxOrDoes_scanWords (fun k hk => ?_) hr
      rw [hop, scanWords_folds ⟨BitVec.add_assoc, BitVec.zero_add⟩ (.inr rfl)]
      exact congrArg (·, FExc.none) List.sum_eq_foldl.symm
    rw [if_neg h01] at hi
    by_cases h23 : f = 2 ∨ f = 3
    · rw [if_pos h23] at hi
      obtain rfl := Option.some.inj hi
      refine fpxOrDoes_scanWords (fun k hk => ?_) hr
      rcases h23 with rfl | rfl <;> exact scanWords_serial (fadd .f32 (env s)) _
    rw [if_neg h23] at hi
    by_cases h4 : f = 4
    · rw [if_pos h4] at hi
      obtain rfl := Option.some.inj hi
      subst h4
      have hop : scanOp (env s) 4 = fun x y => (if x.toInt ≤ y.toInt then y else x, FExc.none) :=
        funext fun x => funext fun y => congrArg (·, FExc.none) (maxSigned_eq x y)
      refine fpxOrDoes_scanWords (fun k hk => ?_) hr
      exact (congrArg (scanWords · _) hop).trans
        (scanWords_folds (folds_greatest toInt_injective BitVec.le_toInt) (.inl (hne k hk (by decide))))
    rw [if_neg h4] at hi
    by_cases h5 : f = 5
    · rw [if_pos h5] at hi
      obtain rfl := Option.some.inj hi
      subst h5
      exact fpxOrDoes_scanWords
        (fun k _ => scanWords_folds ⟨BitVec.or_assoc, fun _ => BitVec.zero_or⟩ (.inr rfl)) hr
    · rw [if_neg h5] at hi
      cases hi
  case h_2 => cases hi
end

end Sys2Proof.Claim
end

section
/-! PROOF. The FPX trap of every floating-point instruction (spec/08 R203). -/

namespace Sys2Proof.Claim

open Sys2Proof.Machine

/-! ## Every instruction that FMT.TEN governs (R203) -/

theorem fpxOrDoes_float {i : Instr} {s : State} {e : Effect} (hi : floatEffect i s = some e) (hr : Ready s) :
    FpxOrDoes i s e := by
  simp only [floatEffect, Option.orElse_eq_some] at hi
  rcases hi with h | ⟨-, h | ⟨-, h | ⟨-, h | ⟨-, h | ⟨-, h | ⟨-, h | ⟨-, h⟩⟩⟩⟩⟩⟩⟩
  · exact fpxOrDoes_fp32 h hr
  · exact fpxOrDoes_fp64 h hr
  · exact fpxOrDoes_h2 h hr
  · exact fpxOrDoes_fcvt h hr
  · exact fpxOrDoes_fcmp h hr
  · exact fpxOrDoes_sfu h hr
  · exact fpxOrDoes_red h hr
  · exact fpxOrDoes_scan h hr

/-- Settles O21: every float instruction makes its results and their exceptions lane by lane, or tile by tile, as its effect
says, and the one check of R203 follows. -/
theorem fpxTraps : Obligations.FpxTraps := by
  unfold Obligations.FpxTraps
  intro i s e hi hr
  have h := fpxOrDoes_float hi hr
  exact ⟨h.traps hr.settled, h.does⟩

end Sys2Proof.Claim
end

section
/-! PROOF. Grid barriers where they are refused (spec/18 R419): in a handler, and as words of a management core (R30). -/

namespace Sys2Proof.Machine

/-! ## Bytes of a word (R4) -/

theorem length_leBytes (k n : Nat) : (leBytes k n).length = k := by
  induction k generalizing n with
  | zero => rfl
  | succ k ih => simp only [leBytes, List.length_cons, ih]

/-- `k` bytes hold a number modulo 256 ^ k. -/
theorem leNat_leBytes (k n : Nat) : leNat (leBytes k n) = n % 256 ^ k := by
  induction k generalizing n with
  | zero => rw [leBytes, leNat, pow_zero, Nat.mod_one]
  | succ k ih =>
    rw [leBytes, leNat, ih, BitVec.toNat_ofNat, pow_succ' 256 k]
    exact Nat.mod_mul.symm

/-! ## Words that a management core lacks (R30) -/

/-- Majors 0x34 to 0x3B. -/
theorem excludedWord_of_major {n : Nat} (hlo : 0x34 ≤ bits n 4 6) (hhi : bits n 4 6 ≤ 0x3B) : excludedWord n = true := by
  simp [excludedWord, hlo, hhi]

end Sys2Proof.Machine

namespace Sys2Proof.Claim

open Sys2Proof.Machine

/-- A word that R30 excludes is UNIMP on a management core, whatever instruction it encodes. -/
theorem hostedBy_excluded {wid n : Nat} (i : Instr) (hw : isMgmt wid = true) (hn : n < 2 ^ 32)
    (hx : excludedWord n = true) : hostedBy wid i (leBytes 4 n) = .unimp (BitVec.ofNat 32 n) := by
  have hbytes : leNat (leBytes 4 n) = n := (leNat_leBytes 4 n).trans (Nat.mod_eq_of_lt hn)
  rw [hostedBy, hbytes, if_pos hw, if_pos ⟨length_leBytes 4 n, hx⟩]

/-- GBAR, GBARA and GBARW are words of major 0x37 (R47). -/
theorem gridBarrier_major {h : Hdr} {d a : BitVec 6} {i : Instr} (hi : i = .gbar h ∨ i = .gbara h d ∨ i = .gbarw h a) :
    ∃ n, i.encode = some (4, n) ∧ n < 2 ^ 32 ∧ Sys2Proof.bits n 4 6 = 0x37 := by
  obtain ⟨-, hlt⟩ := Laws.hdr_odd h
  unfold Sys2Proof.bits
  rcases hi with rfl | rfl | rfl
  · exact ⟨_, rfl, (Laws.EncodedLength.gbar h).2, by omega⟩
  · exact ⟨_, rfl, (Laws.EncodedLength.gbara h d).2, by omega⟩
  · exact ⟨_, rfl, (Laws.EncodedLength.gbarw h a).2, by omega⟩

/-! ## In a handler (R132, R419) -/

/-- An instruction that traps before anything else, in a warp whose traps go to the system handler. -/
theorem routedTo_of_takeTrap {i : Instr} {s : State} {c : TrapInfo} (hs : s.w.pend = []) (hr : Routes s)
    (hx : exec i s = .next (s.takeTrap c)) : RoutedTo i s c :=
  routedTo_iff.2 ⟨_, hx, (Scheduled.refl s).takeTrap_routed hs hr c⟩

theorem exec_gbar_handler (h : Hdr) {s : State} (hm : s.w.hm = true) :
    exec (.gbar h) s = .next (s.takeTrap (precise s cPERM)) := by
  change execGbar h s = _
  rw [execGbar, if_pos hm]
  rfl

theorem exec_gbara_handler (h : Hdr) (d : BitVec 6) {s : State} (hm : s.w.hm = true) :
    exec (.gbara h d) s = .next (s.takeTrap (precise s cPERM)) := by
  change execGbara h d s = _
  rw [execGbara, if_pos hm]
  rfl

theorem exec_gbarw_handler (h : Hdr) (a : BitVec 6) {s : State} (hm : s.w.hm = true) :
    exec (.gbarw h a) s = .next (s.takeTrap (precise s cPERM)) := by
  change execGbarw h a s = _
  rw [execGbarw, if_pos hm]
  rfl

/-- Settles O32: handler mode is the first check of each of the three, and its trap goes to the system handler; their words
have a major that R30 excludes from management cores. -/
theorem gridBarrierRefused : Obligations.GridBarrierRefused := by
  unfold Obligations.GridBarrierRefused
  refine fun h d a => ⟨fun s hready hr hm => ?_, fun wid i hw hi => ?_⟩
  · have hs := hready.settled
    exact ⟨routedTo_of_takeTrap hs hr (exec_gbar_handler h hm), routedTo_of_takeTrap hs hr (exec_gbara_handler h d hm),
      routedTo_of_takeTrap hs hr (exec_gbarw_handler h a hm)⟩
  · obtain ⟨n, hencode, hn, hmajor⟩ := gridBarrier_major hi
    have hx : excludedWord n = true := excludedWord_of_major (by rw [hmajor]; decide) (by rw [hmajor]; decide)
    exact ⟨n, hencode, hostedBy_excluded i hw hn hx⟩

end Sys2Proof.Claim
end
